-- ==== Sys2Proof/Word.lean ====
section
/-! DEFINITION. The fixed-width words of the BX-24: octets of the three links and seconds of the Time Base. -/

namespace Sys2Proof

/-- One octet of a link frame or of a profile image (spec 09 section 9.7, spec 11 R164). -/
abbrev Octet := BitVec 8

/-- A second of the Time Base: its count is 32 bits wide and wraps to 0 (spec 00 R1). -/
abbrev Second := BitVec 32

/-- A hull coefficient as the profile encodes it: 16 bits, signed (spec 02 Tables 2.1 and 2.2, R20). -/
abbrev Coefficient := BitVec 16

/-- The seconds from `start` to `now`, on the difference modulo 4,294,967,296 (spec 00 R1). -/
def elapsed (start now : Second) : Nat := (now - start).toNat

end Sys2Proof
end

