-- ==== Sys2Proof/Config.lean ====
section
/-! DEFINITION. What the manual leaves open: the order in which blocks or stations that are told
"without order among them" act. -/

namespace Sys2Proof

/-- The free choice made at the `n`-th draw: it numbers one of the orders in which the parties that the
manual tells "without order among them" act (spec 05 R89, 06 R113, 01 R17, 09 R150). No value is known of it
(notes/assumptions/1.md). DESIGN CHOICE. -/
opaque Config.interleaving : Nat → Nat

end Sys2Proof
end

