-- ==== Sys2Proof/Syntax.lean ====
section
/-! DEFINITION. The commands of the BX-24 and the values they carry: one constructor of `Instr` for each row of
spec/opcode_table.json. -/

namespace Sys2Proof

/-- The two shiploaders (spec 00 Table 0.4). -/
inductive Loader where
  | l1 | l2
  deriving DecidableEq, Repr, Inhabited

/-- LOCK as the signal line gives it (spec 11 Table 11.2). -/
inductive Lock where
  | attended | automatic
  deriving DecidableEq, Repr, Inhabited

/-- Sounding form of a tank (spec 01 Table 1.3). -/
inductive SoundingForm where
  | level | ullage
  deriving DecidableEq, Repr, Inhabited

/-- Route mode of a tank (spec 05 Table 5.3). -/
inductive RouteMode where
  | primary | alternate | primaryThenAlternate | firstFree
  deriving DecidableEq, Repr, Inhabited

/-- The two sets of strength and trim limits (spec 02 section 2.2). -/
inductive LimitSet where
  | harbour | sea
  deriving DecidableEq, Repr, Inhabited

/-- A valve of the valve table by its kind and number (spec 00 Table 0.4, spec 06 section 6.2). -/
inductive ValveId where
  | tank (n : Nat) | suction (n : Nat) | overboard (n : Nat)
  deriving DecidableEq, Repr, Inhabited

/-- A position reported by the cabinet (spec 09 Table 9.13). -/
inductive PositionReport where
  | shut | opened | moving | fault
  deriving DecidableEq, Repr, Inhabited

/-- A pump status reported by the cabinet (spec 09 Table 9.13). -/
inductive PumpReport where
  | stopped | running | overload
  deriving DecidableEq, Repr, Inhabited

/-- A local-switch position (spec 09 Table 9.13). -/
inductive SwitchPosition where
  | remote | localControl
  deriving DecidableEq, Repr, Inhabited

/-- The five report slots of the terminal link (spec 08 Table 8.3). -/
inductive Slot where
  | clearance (l : Loader) | draft | pourSummary (l : Loader)
  deriving DecidableEq, Repr, Inhabited

/-- One field–value pair of a ship link payload: a 16-bit identifier and a 32-bit two's complement value
(spec 09 R156). -/
structure Pair where
  ident : BitVec 16
  value : BitVec 32
  deriving DecidableEq, Repr, Inhabited

/-- The part of a ship link frame that a reply echoes, less the request kind (spec 09 Tables 9.8, 9.9). -/
structure ShipHead where
  tag : Octet
  table : Octet
  key : BitVec 16
  deriving DecidableEq, Repr, Inhabited

/-! ### The profile's hull data (spec 01 Tables 1.1 and 1.3, spec 02 Tables 2.1 and 2.2) -/

/-- The profile's data for one hold. -/
structure HoldData where
  spanAft : Nat
  spanFore : Nat
  maxMass : Nat
  deriving DecidableEq, Repr, Inhabited

/-- One breakpoint of a sounding table. -/
structure Breakpoint where
  level : Nat
  volume : Nat
  deriving DecidableEq, Repr, Inhabited

/-- The profile's data for one tank; `stripMass`, `alternate`, `route` and `density` are the defaults of the
working fields. -/
structure TankData where
  spanAft : Nat
  spanFore : Nat
  capacity : Nat
  stripMass : Nat
  primary : Nat
  alternate : Option Nat
  route : RouteMode
  form : SoundingForm
  datum : Option Nat
  breakpoints : List Breakpoint
  density : Nat
  deriving DecidableEq, Repr, Inhabited

/-- One limit set of a check station; every limit is a magnitude. -/
structure StationLimits where
  sfPositive : Nat
  sfNegative : Nat
  hog : Nat
  sag : Nat
  deriving DecidableEq, Repr, Inhabited

/-- The profile's data for one check station; `c` and `k` hold one coefficient for each compartment, holds first,
then tanks, then items. -/
structure StationData where
  sf0 : Int
  bm0 : Int
  c : List Coefficient
  k : List Coefficient
  harbour : StationLimits
  sea : StationLimits
  deriving DecidableEq, Repr, Inhabited

/-- The trim limits of one limit set. -/
structure TrimLimits where
  stern : Nat
  head : Nat
  deriving DecidableEq, Repr, Inhabited

/-- The hull data that the body of an image carries. -/
structure Hull where
  holds : List HoldData
  tanks : List TankData
  stations : List StationData
  phi : List Coefficient
  alpha : List Coefficient
  d0Fore : Int
  d0Aft : Int
  lightship : Nat
  trimHarbour : TrimLimits
  trimSea : TrimLimits
  defaultDraft : Nat
  tankValveTimeout : Nat
  lineValveTimeout : Nat
  deriving DecidableEq, Repr, Inhabited

/-- A completed read: the profile memory's octets from octet address 0 on, as far as it answers, and the hull data that
the body of the image in the profile index's slot stands for, in the encoding the manual does not give (spec 11 R164;
notes/assumptions/3.md). A memory that does not answer gives no octet. -/
structure ProfileRead where
  memory : List Octet
  hull : Hull
  deriving DecidableEq, Repr, Inhabited

/-- The commands of the part: one constructor for each row of spec/opcode_table.json, in the table's order. -/
inductive Instr where
  | powerOn
  | powerLoss
  | timeBaseTick
  | resetNAssert
  | resetNRelease (psel : BitVec 4) (lock : Lock) (retain : Bool)
  | profileReadComplete (read : ProfileRead)
  | profileReadTimeout
  | pfailAssert
  | pfailDeassert
  | shipFrameDiscard (octets : List Octet)
  | shipFrameIncompleteTimeout
  | shipFrameBusyOwed (kind : Octet) (head : ShipHead)
  | shipReplyEnd
  | look (head : ShipHead)
  | put (head : ShipHead) (pairs : List Pair)
  | retire (head : ShipHead)
  | clear (head : ShipHead) (codes : List Octet)
  | run (head : ShipHead)
  | halt (head : ShipHead)
  | rearm (head : ShipHead)
  | release (head : ShipHead)
  | force (head : ShipHead) (pairs : List Pair)
  | endPour (head : ShipHead)
  | restart (head : ShipHead)
  | purge (head : ShipHead)
  | purgeStep
  | reload (head : ShipHead)
  | trialOpen (head : ShipHead)
  | trialPut (head : ShipHead) (pairs : List Pair)
  | trialEvaluate (head : ShipHead)
  | trialClose (head : ShipHead)
  | livePassStart
  | livePassEnd
  | trialPassStart
  | trialPassEnd
  | clearanceComputation
  | channelDerivation (loader : Loader)
  | tallyTimerExpiry (loader : Loader)
  | terminalFrameDiscard (octets : List Octet)
  | pourStart (loader : Loader) (sequence : BitVec 16) (rate : BitVec 32)
  | tally (loader : Loader) (amount : BitVec 32)
  | pourEnd (loader : Loader) (final : BitVec 32)
  | berth (draft : BitVec 32)
  | reportRequest (slot : Slot)
  | terminalSendStart
  | terminalFrameEnd
  | fieldFrameDiscard (octets : List Octet)
  | fieldFrameIncompleteTimeout
  | sounding (tank : Octet) (good : Bool) (reading : BitVec 16)
  | valvePosition (key : Octet) (position : PositionReport)
  | pumpStatus (group : Octet) (status : PumpReport)
  | localSwitch (group : Octet) (position : SwitchPosition)
  | fieldSendStart
  | fieldFrameEnd
  | fieldSilenceExpiry
  | staleExpiry (tank : Nat)
  | stripSettleExpiry (tank : Nat)
  | valveTravelTimeout (valve : ValveId)
  | primingExpiry (group : Nat)
  | rundownExpiry (group : Nat)
  | dryRunCondition (group : Nat)
  | unknownRequestKind (kind : Octet) (head : ShipHead)
  deriving DecidableEq, Repr

end Sys2Proof
end

