-- ==== Sys2Proof/Decode.lean ====
section
/-! DEFINITION. The check value of the links and of the profile image, the frames of the three links read octet
by octet, and the table's word decoder. -/

namespace Sys2Proof

/-! ### The table's words

No row of spec/opcode_table.json gives a command any bits: it names steps, not encodings. -/

/-- The command that a word spells by the table's bits: none, since no row of the table gives bits. -/
def decodeTableWord (_nbits _w : Nat) : Option Instr := none

/-! ### Check values and multi-octet fields (spec 09 R156) -/

/-- One bit of the CRC of generator x¹⁶ + x¹² + x⁵ + 1, without reflection. -/
def crcBit (c : BitVec 16) : BitVec 16 :=
  if c.msb then (c <<< 1) ^^^ 0x1021#16 else c <<< 1

/-- The CRC after one more octet, most significant bit first. -/
def crcOctet (c : BitVec 16) (o : Octet) : BitVec 16 :=
  crcBit^[8] (c ^^^ (o.setWidth 16 <<< 8))

/-- The 16-bit CRC of R156: it starts from FFFFh and has no final inversion. -/
def crc16 (os : List Octet) : BitVec 16 :=
  os.foldl crcOctet 0xFFFF#16

/-- A 16-bit field, most significant octet first. -/
def octets16 (w : BitVec 16) : List Octet :=
  [w.extractLsb' 8 8, w.extractLsb' 0 8]

/-- A 32-bit value, most significant octet first. -/
def octets32 (w : BitVec 32) : List Octet :=
  [w.extractLsb' 24 8, w.extractLsb' 16 8, w.extractLsb' 8 8, w.extractLsb' 0 8]

/-- The 16-bit field of two octets, the most significant given first. -/
def word16 (hi lo : Octet) : BitVec 16 := hi ++ lo

/-- The 32-bit value of four octets, the most significant given first. -/
def word32 (a b c d : Octet) : BitVec 32 := a ++ b ++ c ++ d

/-! ### Frames received

A receiver ignores what comes before a start octet, waits while the frame is incomplete, and then either discards
the frame or takes it as one command.

DESIGN CHOICE: the octets behind a broken frame are judged with it and dropped with it, a start octet among them too, so that
no frame begins in the octets of one command behind a frame that they break (notes/assumptions/13.md). -/

/-- What a receiver makes of the octets on its line. -/
inductive FrameVerdict where
  /-- a frame has begun and has not ended -/
  | incomplete
  /-- no frame, or a frame that the link's rule discards -/
  | discarded
  /-- a checked frame, taken as this command -/
  | taken (i : Instr)
  deriving DecidableEq, Repr

/-- `n` field–value pairs that fill the octets exactly (spec 09 Table 9.8). -/
def readPairs : Nat → List Octet → Option (List Pair)
  | 0, [] => some []
  | n + 1, a :: b :: c :: d :: e :: f :: rest =>
    (readPairs n rest).map (⟨word16 a b, word32 c d e f⟩ :: ·)
  | _, _ => none

/-- A payload of a pair count of one octet and exactly that many pairs (spec 09 R144). -/
def readCountedPairs : List Octet → Option (List Pair)
  | n :: rest => readPairs n.toNat rest
  | [] => none

/-- A payload of a count octet and exactly that many kind codes (spec 09 R144). -/
def readCountedCodes : List Octet → Option (List Octet)
  | n :: rest => if rest.length = n.toNat then some rest else none
  | [] => none

/-- The request kinds of spec 09 Table 9.10. -/
def knownRequestKinds : List Nat :=
  [1, 2, 3, 4, 16, 17, 18, 19, 20, 21, 22, 23, 24, 25, 26, 27, 28]

/-- A ship request whose kind takes no payload (spec 09 R144). -/
def plainShipRequest (kind : Nat) (h : ShipHead) : Option Instr :=
  match kind with
  | 1 => some (.look h)
  | 3 => some (.retire h)
  | 16 => some (.run h)
  | 17 => some (.halt h)
  | 18 => some (.rearm h)
  | 19 => some (.release h)
  | 21 => some (.endPour h)
  | 22 => some (.restart h)
  | 23 => some (.purge h)
  | 24 => some (.reload h)
  | 25 => some (.trialOpen h)
  | 27 => some (.trialEvaluate h)
  | 28 => some (.trialClose h)
  | _ => none

/-- The request that the octets from tag to last payload octet carry (spec 09 Tables 9.8, 9.10). A kind outside
Table 9.10 is a request all the same, whatever its payload (R144, R145). -/
def shipRequest : List Octet → FrameVerdict
  | tag :: kind :: table :: k1 :: k0 :: data =>
    let h : ShipHead := ⟨tag, table, word16 k1 k0⟩
    let ofPayload (i : Option Instr) : FrameVerdict :=
      match i with
      | some i => .taken i
      | none => .discarded
    if kind.toNat = 2 then ofPayload ((readCountedPairs data).map (.put h))
    else if kind.toNat = 20 then ofPayload ((readCountedPairs data).map (.force h))
    else if kind.toNat = 26 then ofPayload ((readCountedPairs data).map (.trialPut h))
    else if kind.toNat = 4 then ofPayload ((readCountedCodes data).map (.clear h))
    else if kind.toNat ∈ knownRequestKinds then
      if data.isEmpty then ofPayload (plainShipRequest kind.toNat h) else .discarded
    else .taken (.unknownRequestKind kind h)
  | _ => .discarded

/-- A ship link request frame (spec 09 Table 9.8, R144). DESIGN CHOICE: what stands behind a broken frame is dropped with it
(notes/assumptions/13.md). -/
def shipVerdict (os : List Octet) : FrameVerdict :=
  match os.dropWhile (· ≠ 0x5A#8) with
  | _ :: hi :: lo :: rest =>
    let len := (word16 hi lo).toNat
    if len < 5 ∨ 1024 < len then .discarded
    else if rest.length < len + 2 then .incomplete
    else if (rest.drop len).take 2 ≠ octets16 (crc16 (hi :: lo :: rest.take len)) then .discarded
    else shipRequest (rest.take len)
  | [] => .discarded
  | _ => .incomplete

/-- The loader that a terminal frame names: 1 or 2 (spec 09 Table 9.11). -/
def loaderOfOctet (o : Octet) : Option Loader :=
  if o = 1#8 then some .l1 else if o = 2#8 then some .l2 else none

/-- The notice that the octets from kind to last payload octet carry (spec 08 R130, spec 09 Tables 9.11, 9.12). The
loader field of a BERTH, and of a REPORT REQUEST for DRAFT, is not read. -/
def terminalNotice : List Octet → FrameVerdict
  | [kind, loader, s1, s0, a, b, c, d] =>
    let v := word32 a b c d
    let ofLoader (f : Loader → Instr) : FrameVerdict :=
      match loaderOfOctet loader with
      | some l => .taken (f l)
      | none => .discarded
    match kind.toNat with
    | 1 => ofLoader (.pourStart · (word16 s1 s0) v)
    | 2 => ofLoader (.tally · v)
    | 3 => ofLoader (.pourEnd · v)
    | 4 => .taken (.berth v)
    | 5 =>
      if v = 0#32 then ofLoader (fun l => .reportRequest (.clearance l))
      else if v = 1#32 then .taken (.reportRequest .draft)
      else if v = 2#32 then ofLoader (fun l => .reportRequest (.pourSummary l))
      else .discarded
    | _ => .discarded
  | _ => .discarded

/-- An inbound terminal link frame (spec 08 R130, spec 09 Table 9.11). DESIGN CHOICE: what stands behind a broken frame is
dropped with it (notes/assumptions/13.md). -/
def terminalVerdict (os : List Octet) : FrameVerdict :=
  match os.dropWhile (· ≠ 0x6C#8) with
  | _ :: n :: rest =>
    if n.toNat < 4 ∨ 64 < n.toNat then .discarded
    else if rest.length < n.toNat + 2 then .incomplete
    else if (rest.drop n.toNat).take 2 ≠ octets16 (crc16 (n :: rest.take n.toNat)) then .discarded
    else terminalNotice (rest.take n.toNat)
  | [] => .discarded
  | _ => .incomplete

/-- The report that kind, identifier, qualifier and value of a field frame carry (spec 12 R171, spec 09
Table 9.13): a code the table does not give for the kind discards the frame. -/
def fieldReport (kind ident qualifier : Octet) (value : BitVec 16) : FrameVerdict :=
  if kind = 12#8 then
    if qualifier = 0#8 then .taken (.sounding ident false value)
    else if qualifier = 1#8 then .taken (.sounding ident true value)
    else .discarded
  else if qualifier ≠ 0#8 then .discarded
  else match kind.toNat, value.toNat with
    | 9, 0 => .taken (.valvePosition ident .shut)
    | 9, 1 => .taken (.valvePosition ident .opened)
    | 9, 2 => .taken (.valvePosition ident .moving)
    | 9, 3 => .taken (.valvePosition ident .fault)
    | 10, 0 => .taken (.pumpStatus ident .stopped)
    | 10, 1 => .taken (.pumpStatus ident .running)
    | 10, 2 => .taken (.pumpStatus ident .overload)
    | 11, 0 => .taken (.localSwitch ident .remote)
    | 11, 1 => .taken (.localSwitch ident .localControl)
    | _, _ => .discarded

/-- An inbound field link frame (spec 12 R171, spec 09 Table 9.13). DESIGN CHOICE: what stands behind a broken frame is dropped
with it and begins no new frame, be it a start octet, and neither does a start octet that stands as the bad length octet
(notes/assumptions/13.md). -/
def fieldVerdict (os : List Octet) : FrameVerdict :=
  match os.dropWhile (· ≠ 0x3C#8) with
  | _ :: n :: rest =>
    if n ≠ 5#8 then .discarded
    else match rest with
      | kind :: ident :: qualifier :: v1 :: v0 :: c1 :: c0 :: _ =>
        if [c1, c0] ≠ octets16 (crc16 [n, kind, ident, qualifier, v1, v0]) then .discarded
        else fieldReport kind ident qualifier (word16 v1 v0)
      | _ => .incomplete
  | [] => .discarded
  | _ => .incomplete

/-! ### The profile image (spec 11 R164) -/

/-- Octets of an image slot of the profile memory, which holds sixteen. -/
def slotOctets : Nat := 65536

/-- The octet address at which the image of a profile index begins. -/
def slotAddress (index : BitVec 4) : Nat := index.toNat * slotOctets

/-- What a read of the profile memory gives for an index: the octets of its slot. -/
def ProfileRead.slot (r : ProfileRead) (index : BitVec 4) : List Octet :=
  (r.memory.drop (slotAddress index)).take slotOctets

/-- The counts that an image gives in the octets after its length. -/
structure Counts where
  holds : Nat
  tanks : Nat
  items : Nat
  stations : Nat
  groups : Nat
  deriving DecidableEq, Repr, Inhabited

/-- The length field of the slot: the octets from the first count to the last octet of the body. -/
def imageLength : List Octet → Nat
  | hi :: lo :: _ => (word16 hi lo).toNat
  | _ => 0

/-- Whether the slot holds an image and the memory gave all of it: a length of 0 or above 65,532 holds none. -/
def imagePresent (os : List Octet) : Bool :=
  decide (0 < imageLength os ∧ imageLength os ≤ 65532 ∧ imageLength os + 4 ≤ os.length)

/-- The counts of an image, each one octet, in the order of R164; a count that the image's length leaves out
reads 0. -/
def imageCounts (os : List Octet) : Counts :=
  let at' (i : Nat) : Nat := (((os.drop 2).take (imageLength os))[i]?.getD 0#8).toNat
  ⟨at' 0, at' 1, at' 2, at' 3, at' 4⟩

/-- The CRC over the octets from the first of the length to the last of the body. -/
def imageCrc (os : List Octet) : BitVec 16 := crc16 (os.take (imageLength os + 2))

/-- The check value that stands behind the body. -/
def imageCheckValue (os : List Octet) : List Octet := (os.drop (imageLength os + 2)).take 2

end Sys2Proof
end

