-- ==== Sys2Proof/WellFormed.lean ====
section
/-! DEFINITION. Which commands can reach the part: those whose operands some frame, image or profile can carry. -/

namespace Sys2Proof

/-- The pairs fit a request frame: a length field of at most 1,024 counts five octets of head, the pair count and
six octets for each pair (spec 09 Table 9.8). -/
def pairsFit (ps : List Pair) : Bool := decide (6 + 6 * ps.length ≤ 1024)

/-- The lists of an image's hull data have the lengths its counts give (spec 02 R20, spec 00 section 0.5.4). -/
def Hull.fits (h : Hull) (c : Counts) : Bool :=
  let compartments := c.holds + c.tanks + c.items
  decide (h.holds.length = c.holds ∧ h.tanks.length = c.tanks ∧ h.stations.length = c.stations ∧
    h.phi.length = compartments ∧ h.alpha.length = compartments) &&
  h.stations.all fun s => decide (s.c.length = compartments ∧ s.k.length = compartments)

/-- A verdict that takes no frame. -/
def FrameVerdict.untaken : FrameVerdict → Bool
  | .taken _ => false
  | _ => true

/-- A valve that Table 0.4 numbers. -/
def ValveId.numbered : ValveId → Bool
  | .tank n => decide (1 ≤ n ∧ n ≤ 24)
  | .suction n => decide (1 ≤ n ∧ n ≤ 4)
  | .overboard n => decide (1 ≤ n ∧ n ≤ 4)

/-- A read whose hull data fit the counts of one of the images that the memory holds, where it holds any. -/
def ProfileRead.fits (r : ProfileRead) : Bool :=
  let images := ((List.range 16).map fun n => r.slot (BitVec.ofNat 4 n)).filter imagePresent
  images.isEmpty || images.any fun image => r.hull.fits (imageCounts image)

/-- A command that can reach the part. -/
def Instr.wellFormed : Instr → Bool
  | .put _ ps | .trialPut _ ps | .force _ ps => pairsFit ps
  | .clear _ codes => decide (codes.length ≤ 255)
  | .unknownRequestKind kind _ => decide (kind.toNat ∉ knownRequestKinds)
  | .profileReadComplete r => r.fits
  | .shipFrameDiscard os => (shipVerdict os).untaken
  | .terminalFrameDiscard os => (terminalVerdict os).untaken
  | .fieldFrameDiscard os => (fieldVerdict os).untaken
  | .staleExpiry t | .stripSettleExpiry t => decide (1 ≤ t ∧ t ≤ 24)
  | .valveTravelTimeout v => v.numbered
  | .primingExpiry g | .rundownExpiry g | .dryRunCondition g => decide (1 ≤ g ∧ g ≤ 4)
  | .powerOn | .powerLoss | .timeBaseTick | .resetNAssert | .resetNRelease _ _ _ | .profileReadTimeout => true
  | .pfailAssert | .pfailDeassert | .shipFrameIncompleteTimeout | .shipFrameBusyOwed _ _ | .shipReplyEnd => true
  | .look _ | .retire _ | .run _ | .halt _ | .rearm _ | .release _ | .endPour _ | .restart _ | .purge _ => true
  | .purgeStep | .reload _ | .trialOpen _ | .trialEvaluate _ | .trialClose _ | .livePassStart | .livePassEnd => true
  | .trialPassStart | .trialPassEnd | .clearanceComputation | .channelDerivation _ | .tallyTimerExpiry _ => true
  | .pourStart _ _ _ | .tally _ _ | .pourEnd _ _ | .berth _ | .reportRequest _ | .terminalSendStart => true
  | .terminalFrameEnd | .fieldFrameIncompleteTimeout | .sounding _ _ _ | .valvePosition _ _ | .pumpStatus _ _ => true
  | .localSwitch _ _ | .fieldSendStart | .fieldFrameEnd | .fieldSilenceExpiry => true

end Sys2Proof
end

