-- ==== Sys2Proof/Machine/State.lean ====
section
/-! DEFINITION. The state of the BX-24, block by block as spec 00 Table 0.1 divides it, as plain data; the state after
reset; the reasons a step can stop. -/

namespace Sys2Proof.Machine

/-! ### Record Store and Sounding Converter (spec 01, 08, 09) -/

/-- Working fields of a HOLD record (spec 01 Table 1.1); its profile fields stand in the profile. -/
structure Hold where
  initial : Nat
  current : Nat
  active : Option Nat
  saturated : Bool
  deriving DecidableEq, Repr, Inhabited

/-- Sounding status (spec 01 Table 1.5). -/
inductive SoundingStatus where
  | fresh | stale | overrange | manual
  deriving DecidableEq, Repr, Inhabited

/-- Strip state with the settle start that is present in SETTLING only (spec 01 Tables 1.3, 1.7). -/
inductive StripState where
  | above | settling (start : Second) | below
  deriving DecidableEq, Repr, Inhabited

/-- Working fields of a TANK record (spec 01 Table 1.3). The order field is the tank's entry of the order table. -/
structure Tank where
  stripMass : Nat
  alternate : Option Nat
  route : RouteMode
  density : Nat
  current : Nat
  lastLevel : Option Nat
  age : Nat
  status : SoundingStatus
  strip : StripState
  staleFlag : Bool
  overrangeFlag : Bool
  deriving DecidableEq, Repr, Inhabited

/-- Which party's maximum draft stands (spec 08 Table 8.2). -/
inductive BerthSource where
  | profile | terminal | ship
  deriving DecidableEq, Repr, Inhabited

/-- The BERTH record (spec 08 Table 8.2). -/
structure Berth where
  maxDraft : Nat
  source : BerthSource
  flag : Bool
  deriving DecidableEq, Repr, Inhabited

/-- The SETTINGS record (spec 09 Table 9.4). Bit n of the mask is the flag kind of code n. -/
structure Settings where
  limitSet : LimitSet
  caution : Nat
  pace : Nat
  margin : Nat
  reportStep : Nat
  draftStep : Nat
  overrun : Nat
  tallyTimeout : Nat
  stale : Nat
  settle : Nat
  rateWindow : Nat
  silence : Nat
  mask : BitVec 14
  deriving DecidableEq, Repr, Inhabited

/-- The defaults of Table 9.4. -/
def Settings.default : Settings :=
  { limitSet := .harbour, caution := 950, pace := 900, margin := 5000, reportStep := 1000, draftStep := 20,
    overrun := 500, tallyTimeout := 15, stale := 30, settle := 20, rateWindow := 60, silence := 10, mask := 0 }

/-! ### Strength Engine (spec 02, 10) -/

/-- Status of a quantity (spec 02 R35). -/
inductive Status where
  | normal | caution | limit
  deriving DecidableEq, Repr, Inhabited

/-- Side on which a quantity stands (spec 02 Table 2.6). -/
inductive Side where
  | positive | negative | hog | sag | stern | head | deep
  deriving DecidableEq, Repr, Inhabited

/-- Kind of a quantity that has a ratio (spec 02 R36). -/
inductive QuantityKind where
  | sf | bm | trim | fore | aft
  deriving DecidableEq, Repr, Inhabited

/-- A published quantity with its ratio, status and saturation flag (spec 02 Table 2.8). -/
structure Quantity where
  value : Int
  ratio : Nat
  status : Status
  saturated : Bool
  deriving DecidableEq, Repr, Inhabited

/-- The two quantities of a check station. -/
structure StationResult where
  sf : Quantity
  bm : Quantity
  deriving DecidableEq, Repr, Inhabited

/-- The worst quantity of a set (spec 02 R36). -/
structure Worst where
  kind : QuantityKind
  station : Option Nat
  ratio : Nat
  status : Status
  side : Side
  deriving DecidableEq, Repr, Inhabited

/-- A published result set (spec 02 Table 2.8), less the STRENGTH flag. -/
structure ResultSet where
  generation : Nat
  limitSet : LimitSet
  caution : Nat
  maxDraft : Nat
  stations : List StationResult
  trim : Quantity
  fore : Quantity
  aft : Quantity
  mean : Nat
  displacement : Nat
  displacementSaturated : Bool
  worst : Worst
  deriving DecidableEq, Repr, Inhabited

/-- The inputs of a pass (spec 02 R25): the compartment masses, holds first, then tanks, then items. -/
structure Snapshot where
  masses : List Nat
  limitSet : LimitSet
  caution : Nat
  maxDraft : Nat
  deriving DecidableEq, Repr, Inhabited

/-- What the engine is doing, with the inputs of the pass in flight (spec 02 Table 2.3, spec 10 R159). -/
inductive EngineState where
  | idle
  | livePass (snapshot : Snapshot)
  | trialPass (snapshot : Snapshot) (hold1 hold2 : Option Nat)
  deriving DecidableEq, Repr, Inhabited

/-- Clearance cause kinds (spec 03 Table 3.2). -/
inductive CauseKind where
  | sf | bm | trim | fore | aft | hold | plan | gated | noResult | notCurrent
  deriving DecidableEq, Repr, Inhabited

/-- A clearance cause with its station, side and joint marker where they apply (spec 03 Table 3.1). -/
structure Cause where
  kind : CauseKind
  station : Option Nat
  side : Option Side
  joint : Bool
  deriving DecidableEq, Repr, Inhabited

/-- A room with the candidate that fixed it (spec 03 R44, R45). -/
structure Room where
  amount : Nat
  cause : Cause
  deriving DecidableEq, Repr, Inhabited

/-- The rooms of one trial hold (spec 10 Table 10.1, row 11). -/
structure TrialRoom where
  hold : Nat
  own : Room
  joint : Option Room
  strength : Room
  deriving DecidableEq, Repr, Inhabited

/-- The fields of an open trial (spec 10 Table 10.1). -/
structure Trial where
  masses : List Nat
  limitSet : LimitSet
  caution : Nat
  maxDraft : Nat
  hold1 : Option Nat
  hold2 : Option Nat
  pending : Bool
  inFlight : Bool
  generation : Nat
  result : Option ResultSet
  rooms : List TrialRoom
  deriving DecidableEq, Repr, Inhabited

/-- The Strength Engine (spec 02 Table 2.3). The live generation is that of the live set, 0 while there is none; the
trial record is open while `trial` is present. -/
structure Engine where
  state : EngineState
  dirty : Bool
  live : Option ResultSet
  strengthFlag : Bool
  trial : Option Trial
  trialDone : Bool
  deriving DecidableEq, Repr, Inhabited

/-! ### Pour Controller and Clearance Unit (spec 03, 04) -/

/-- The loader that may take a pour (spec 04 Table 4.1). -/
inductive PourLoader where
  | one (l : Loader) | either
  deriving DecidableEq, Repr, Inhabited

/-- Standing of a pour (spec 04 Table 4.2). -/
inductive PourState where
  | planned | active | interrupted | done
  deriving DecidableEq, Repr, Inhabited

/-- A gate entry (spec 04 Table 4.1, R59). -/
structure Gate where
  tank : Nat
  maxMass : Nat
  deriving DecidableEq, Repr, Inhabited

/-- A POUR record (spec 04 Table 4.1, spec 03 Table 3.1). -/
structure Pour where
  sequence : Nat
  hold : Nat
  loader : PourLoader
  planned : Nat
  tallied : Nat
  gate1 : Option Gate
  gate2 : Option Gate
  gate3 : Option Gate
  gate4 : Option Gate
  state : PourState
  declaredRate : Nat
  strengthRoom : Nat
  clearance : Nat
  timeToLimit : Nat
  cause : Cause
  basis : Nat
  overrunReported : Bool
  deriving DecidableEq, Repr, Inhabited

/-- A windowed rate estimator: the window is OPEN while its start time and amount are present (spec 03 Table 3.4). -/
structure Estimator where
  window : Option (Second × Nat)
  estimate : Nat
  deriving DecidableEq, Repr, Inhabited

/-- One value for each loader. -/
structure PerLoader (α : Type) where
  l1 : α
  l2 : α
  deriving DecidableEq, Repr

/-- The Pour Controller: the pour list in ascending sequence and the loaders' estimators (spec 04 R56, spec 03 R50).
`computationsOwed` counts the causes of computation whose computation is still to come (spec 03 R51). -/
structure PourController where
  list : List Pour
  estimators : PerLoader Estimator
  computationsOwed : Nat
  deriving DecidableEq, Repr

/-! ### Ballast Sequencer (spec 05, 06) -/

/-- Sequencer states (spec 06 Table 6.1). -/
inductive SequencerState where
  | halted | running | halting
  deriving DecidableEq, Repr, Inhabited

/-- Standing of an order (spec 05 Table 5.1). -/
inductive OrderState where
  | queued | active | done
  deriving DecidableEq, Repr, Inhabited

/-- Hold causes (spec 05 Table 5.5). -/
inductive HoldCause where
  | trip | halt | localControl | stale | stress | warmStart
  deriving DecidableEq, Repr, Inhabited

/-- Completion causes (spec 05 Table 5.1). -/
inductive Completion where
  | met | residual
  deriving DecidableEq, Repr, Inhabited

/-- An ORDER record (spec 05 Table 5.1). The queue position is the tank's place in its group's queue. -/
structure Order where
  target : Nat
  group : Nat
  state : OrderState
  holdCause : Option HoldCause
  completion : Option Completion
  front : Bool
  deriving DecidableEq, Repr, Inhabited

/-- Phases of STOPPING (spec 06 R109). -/
inductive StoppingPhase where
  | rundown | closing
  deriving DecidableEq, Repr, Inhabited

/-- Station states, STOPPING with its phase (spec 06 Tables 6.3, 6.4). -/
inductive StationState where
  | off | lineup | priming | discharge | strip | changeover | stopping (phase : StoppingPhase) | tripped
  | localControl
  deriving DecidableEq, Repr, Inhabited

/-- What the pump was last commanded (spec 06 Table 6.3). -/
inductive PumpCommand where
  | stop | runFull | runReduced
  deriving DecidableEq, Repr, Inhabited

/-- The last PUMP STATUS, UNKNOWN before the first (spec 06 Table 6.3). -/
inductive PumpReported where
  | unknown | stopped | running | overload
  deriving DecidableEq, Repr, Inhabited

/-- Trip causes (spec 06 Table 6.3). -/
inductive TripCause where
  | valveTimeout | valveLost | startFail | stopFail | pumpLost | overload | dryRun | linkLost
  deriving DecidableEq, Repr, Inhabited

/-- A STATION record (spec 06 Table 6.3) with its estimator (R101). `resuming` is SET from the return of command
after LOCAL until its rundown deadline, when the SHUT commands are sent even where unchanged (R112). -/
structure Station where
  state : StationState
  active : Option Nat
  closing : List Nat
  pumpCommanded : PumpCommand
  pumpReported : PumpReported
  switch : SwitchPosition
  deadline : Option Second
  lastTrip : Option TripCause
  priming : Nat
  rundown : Nat
  dryRun : Nat
  minRate : Nat
  override : Nat
  estimator : Estimator
  lowSince : Option Second
  resuming : Bool
  tripFlag : Bool
  localFlag : Bool
  doneFlag : Bool
  holdFlag : Bool
  deriving DecidableEq, Repr, Inhabited

/-- A commanded valve position (spec 06 Table 6.2). -/
inductive ValveCommand where
  | opened | shut
  deriving DecidableEq, Repr, Inhabited

/-- A reported valve position (spec 06 Table 6.2). -/
inductive ValveReported where
  | shut | opened | moving | fault | unknown
  deriving DecidableEq, Repr, Inhabited

/-- A VALVE record (spec 06 Table 6.2); only a tank valve has an owning station. -/
structure Valve where
  commanded : ValveCommand
  reported : ValveReported
  confirmed : Bool
  deadline : Option Second
  owner : Option Nat
  deriving DecidableEq, Repr, Inhabited

/-- A change handed on to the Ballast Sequencer while PFAIL is asserted, kept until the deassertion (spec 06 R115). -/
inductive KeptChange where
  | publication (set : ResultSet)
  | stale (tank : Nat)
  | belowStrip (tank : Nat)
  deriving DecidableEq, Repr, Inhabited

/-- The Ballast Sequencer: orders by tank, queues by group, stations, the valve table (spec 05, 06), and the changes
kept under PFAIL with the second at which each arose. -/
structure Sequencer where
  state : SequencerState
  orders : List (Option Order)
  queues : List (List Nat)
  stations : List Station
  tankValves : List Valve
  suctionValves : List Valve
  overboardValves : List Valve
  kept : List (Second × KeptChange)
  deriving DecidableEq, Repr, Inhabited

/-! ### Loader Interlock (spec 07) -/

/-- The four states of a line pair (spec 07 Table 7.2). -/
inductive LineState where
  | pour | reduce | complete | forbid
  deriving DecidableEq, Repr, Inhabited

/-- Causes of a computed state (spec 07 Table 7.1). -/
inductive ChannelCause where
  | unreleased | profileFault | strength | gated | tallyTimeout | noCurrent | planMet | pace | margin | caution
  deriving DecidableEq, Repr, Inhabited

/-- Causes of an output state: FORCED, or a value of the cause field (spec 07 Table 7.1). -/
inductive OutputCause where
  | forced | derived (c : ChannelCause)
  deriving DecidableEq, Repr, Inhabited

/-- Forced levels (spec 07 Table 7.1). -/
inductive ForcedLevel where
  | none | reduce | complete | forbid
  deriving DecidableEq, Repr, Inhabited

/-- Tally-timeout actions (spec 07 Table 7.1). -/
inductive TimeoutAction where
  | reduce | forbid
  deriving DecidableEq, Repr, Inhabited

/-- A CHANNEL record (spec 07 Table 7.1). `named` is the pour that the last computation named, which the next derivation
stores as the current pour, and `derivationsOwed` counts the causes of derivation whose derivation is still to come (R122);
`gone` holds the pours that the channel or its next derivation names as they stood when they left the list (spec 08 R137). -/
structure Channel where
  currentPour : Option Nat
  named : Option Nat
  computed : LineState
  cause : Option ChannelCause
  forced : ForcedLevel
  output : LineState
  outputCause : Option OutputCause
  lastForbid : Option OutputCause
  released : Bool
  deadline : Option Second
  timedOut : Bool
  action : TimeoutAction
  stateFlag : Bool
  overrunFlag : Bool
  tallyFaultFlag : Bool
  derivationsOwed : Nat
  gone : List Pour
  deriving DecidableEq, Repr, Inhabited

/-! ### Link ports (spec 08, 09, 12) -/

/-- A frame that has begun on a link and has not ended: the second of its first octet, and its octets. -/
structure Receiving where
  since : Second
  octets : List Octet
  deriving DecidableEq, Repr, Inhabited

/-- Reply statuses (spec 09 Table 9.10). -/
inductive ReplyStatus where
  | done | accepted | noRecord | badField | badValue | state | busy | full
  deriving DecidableEq, Repr, Inhabited

/-- A ship link reply (spec 09 Table 9.9). -/
structure Reply where
  kind : Octet
  head : ShipHead
  status : ReplyStatus
  payload : List Pair
  deriving DecidableEq, Repr, Inhabited

/-- A request's kind with its head: the request in hand, or a frame that is owed a BUSY reply (spec 09 Table 9.1). -/
structure ShipRequest where
  kind : Octet
  head : ShipHead
  deriving DecidableEq, Repr, Inhabited

/-- The Ship Link Port (spec 09 Table 9.1): HANDLING while a reply is being sent, IDLE otherwise. -/
structure ShipPort where
  sending : Option Reply
  inHand : Option ShipRequest
  busyOwed : Option ShipRequest
  receiving : Option Receiving
  deriving DecidableEq, Repr, Inhabited

/-- Notices that get a reply (spec 08 Table 8.1). -/
inductive NoticeKind where
  | pourStart | tally | pourEnd | berth
  deriving DecidableEq, Repr, Inhabited

/-- Refusal reasons in the order of spec 04 Table 4.5, with PROFILE FAULT last (spec 08 R131). -/
inductive Reason where
  | noPour | loaderBusy | notNext | holdBusy | gated | unreleased | noClearance | regression | busy | starting
  | profileFault
  deriving DecidableEq, Repr, Inhabited

/-- A reply to a notice: ACCEPTED where no reason is present (spec 08 R131). -/
structure NoticeReply where
  kind : NoticeKind
  loader : Option Loader
  sequence : Option (BitVec 16)
  refused : Option Reason
  deriving DecidableEq, Repr, Inhabited

/-- CLEARANCE report content (spec 08 Table 8.4). -/
structure ClearanceReport where
  loader : Loader
  sequence : Option Nat
  hold : Option Nat
  output : LineState
  outputCause : Option OutputCause
  lastForbid : Option OutputCause
  clearance : Nat
  timeToLimit : Nat
  generation : Nat
  deriving DecidableEq, Repr, Inhabited

/-- The items of a DRAFT report that come from the live result set (spec 08 Table 8.5). -/
structure DraftFigures where
  fore : Nat
  aft : Nat
  mean : Nat
  trim : Int
  displacement : Nat
  worst : Worst
  deriving DecidableEq, Repr, Inhabited

/-- DRAFT report content (spec 08 Table 8.5). -/
structure DraftReport where
  generation : Nat
  figures : Option DraftFigures
  maxDraft : Nat
  source : BerthSource
  deriving DecidableEq, Repr, Inhabited

/-- The pour whose end is to be reported (spec 08 Table 8.3). -/
structure Noted where
  sequence : Nat
  hold : Nat
  final : Nat
  deriving DecidableEq, Repr, Inhabited

/-- POUR SUMMARY report content (spec 08 Table 8.6). -/
structure SummaryReport where
  loader : Loader
  noted : Noted
  massAfter : Nat
  deriving DecidableEq, Repr, Inhabited

/-- An outbound terminal frame. -/
inductive TerminalFrame where
  | reply (r : NoticeReply)
  | clearance (r : ClearanceReport)
  | draft (r : DraftReport)
  | summary (r : SummaryReport)
  deriving DecidableEq, Repr, Inhabited

/-- The Terminal Link Port (spec 08 Tables 8.3, 8.7). A slot's due flag is SET while the due order holds it. -/
structure TerminalPort where
  fifo : List NoticeReply
  sending : Option TerminalFrame
  due : List Slot
  lastClearance : PerLoader (Option Nat)
  lastFore : Option Nat
  lastAft : Option Nat
  noted : PerLoader (Option Noted)
  receiving : Option Receiving
  deriving DecidableEq, Repr

/-- Values of a PUMP COMMAND (spec 09 Table 9.13). -/
inductive PumpOrder where
  | stop | start | reduced | full
  deriving DecidableEq, Repr, Inhabited

/-- A command of the outbound field list (spec 12 Table 12.1). -/
inductive FieldCommand where
  | valve (v : ValveId) (p : ValveCommand)
  | pump (group : Nat) (o : PumpOrder)
  deriving DecidableEq, Repr, Inhabited

/-- The Field Link Port (spec 12 R173, R174): `live` is CLEAR while the link state is SILENT. -/
structure FieldPort where
  outbound : List FieldCommand
  sending : Option FieldCommand
  live : Bool
  lastFrame : Second
  receiving : Option Receiving
  deriving DecidableEq, Repr, Inhabited

/-! ### Start-up Controller (spec 11) -/

/-- Start-up states (spec 11 Table 11.1). -/
inductive Phase where
  | reset | loading | ready | profileFault
  deriving DecidableEq, Repr, Inhabited

/-- Outcome of a start-up (spec 11 R166). -/
inductive StartOutcome where
  | warm | cold
  deriving DecidableEq, Repr, Inhabited

/-- Fault findings (spec 11 Table 11.2). -/
inductive Finding where
  | noImage | check | count | range
  deriving DecidableEq, Repr, Inhabited

/-- The retention marker (spec 11 section 11.3). -/
structure Marker where
  valid : Bool
  index : BitVec 4
  check : BitVec 16
  purge : Bool
  deriving DecidableEq, Repr, Inhabited

/-- The loaded profile: its counts and its hull data, the values that R6 and R93 clamp already clamped. -/
structure Profile where
  counts : Counts
  hull : Hull
  deriving DecidableEq, Repr, Inhabited

/-- The Start-up Controller with the PROFILE record (spec 11 Table 11.2). `reloading` is SET while the image being read
was asked for by a RELOAD. -/
structure StartUp where
  phase : Phase
  index : BitVec 4
  lock : Lock
  retain : Bool
  outcome : Option StartOutcome
  finding : Option Finding
  imageCheck : Option (BitVec 16)
  profile : Profile
  purgeRunning : Bool
  profileFlag : Bool
  purgeDoneFlag : Bool
  readStart : Second
  reloading : Bool
  marker : Marker
  deriving DecidableEq, Repr, Inhabited

/-! ### The machine -/

/-- The state of the part and its queue of waiting commands, first in, first out. `powered` is SET while the supply
is within range; `pfail` while PFAIL is asserted; `draws` counts the free choices taken of `Config.interleaving`
(the model's own field). -/
structure State where
  pending : List Instr
  powered : Bool
  pfail : Bool
  clock : Second
  startUp : StartUp
  holds : List Hold
  tanks : List Tank
  items : List Nat
  berth : Berth
  settings : Settings
  engine : Engine
  pours : PourController
  ballast : Sequencer
  channels : PerLoader Channel
  ship : ShipPort
  terminal : TerminalPort
  field : FieldPort
  draws : Nat
  deriving DecidableEq, Repr

/-- Why a step may stop with a fault: no command of this part does, so the type has no constructor. -/
inductive Fault where
  deriving DecidableEq, Repr

/-- Why a step may be refused. -/
inductive Refusal where
  /-- raised by an arm of `exec` whose command has no meaning yet; safe: the model stops where the part goes on -/
  | notModelled (mnemonic : String)
  deriving DecidableEq, Repr

/-! ### Values at start -/

/-- A CLOSED estimator with estimate 0 (spec 03 R50). -/
def Estimator.closed : Estimator := { window := none, estimate := 0 }

/-- An IDLE engine with no set and no trial (spec 02 R28, spec 10 R162). -/
def Engine.idle : Engine :=
  { state := .idle, dirty := false, live := none, strengthFlag := false, trial := none, trialDone := false }

/-- A channel with the cold values of spec 07 Table 7.5. -/
def Channel.cold : Channel :=
  { currentPour := none, named := none, computed := .forbid, cause := some .unreleased, forced := .none, output := .forbid,
    outputCause := some (.derived .unreleased), lastForbid := none, released := false, deadline := none,
    timedOut := false, action := .forbid, stateFlag := false, overrunFlag := false, tallyFaultFlag := false,
    derivationsOwed := 0, gone := [] }

/-- An IDLE Ship Link Port with nothing owed (spec 09 R143). -/
def ShipPort.idle : ShipPort := { sending := none, inHand := none, busyOwed := none, receiving := none }

/-- The Terminal Link Port at a start-up (spec 08 Table 8.7). -/
def TerminalPort.cleared : TerminalPort :=
  { fifo := [], sending := none, due := [], lastClearance := ⟨none, none⟩, lastFore := none, lastAft := none,
    noted := ⟨none, none⟩, receiving := none }

/-- The Field Link Port with an empty list, its watch begun at the second given (spec 12 R173, R175). -/
def FieldPort.cleared (now : Second) : FieldPort :=
  { outbound := [], sending := none, live := true, lastFrame := now, receiving := none }

/-- A Ballast Sequencer with no record. -/
def Sequencer.empty : Sequencer :=
  { state := .halted, orders := [], queues := [], stations := [], tankValves := [], suctionValves := [],
    overboardValves := [], kept := [] }

/-- A Pour Controller with an empty list. -/
def PourController.empty : PourController :=
  { list := [], estimators := ⟨.closed, .closed⟩, computationsOwed := 0 }

/-- A profile that counts nothing. -/
def Profile.none : Profile := default

/-- The retention marker made invalid. -/
def Marker.invalid : Marker := { valid := false, index := 0, check := 0, purge := false }

/-- The Start-up Controller in RESET. DESIGN CHOICE for the sampled fields (notes/assumptions/2.md). -/
def StartUp.inReset : StartUp :=
  { phase := .reset, index := 0, lock := .attended, retain := false, outcome := none, finding := none,
    imageCheck := none, profile := .none, purgeRunning := false, profileFlag := false, purgeDoneFlag := false,
    readStart := 0, reloading := false, marker := .invalid }

/-- The part right after power-on, held in RESET (spec 00 R1, spec 11 R163): no record exists, the count is 0, and
the record memory holds nothing. DESIGN CHOICE where the manual gives no value (notes/assumptions/2.md). -/
def State.reset : State :=
  { pending := [], powered := true, pfail := false, clock := 0, startUp := .inReset, holds := [], tanks := [],
    items := [], berth := { maxDraft := 5000, source := .profile, flag := false }, settings := .default,
    engine := .idle, pours := .empty, ballast := .empty, channels := ⟨.cold, .cold⟩, ship := .idle,
    terminal := .cleared, field := .cleared 0, draws := 0 }

end Sys2Proof.Machine
end

