-- ==== Sys2Proof/Machine/Ops.lean ====
section
/-! DEFINITION. The named operations over the state: lists counted from 1, times, records looked up and changed, the
free order of parties told "without order", and the marks one block leaves for another. -/

namespace Sys2Proof.Machine

/-! ### Lists whose elements the part numbers from 1 -/

/-- The element of number `n`, counting from 1. -/
def nth1 {α : Type} (l : List α) : Nat → Option α
  | 0 => none
  | n + 1 => l[n]?

/-- The list with the element of number `n` changed. -/
def modify1 {α : Type} (l : List α) (n : Nat) (f : α → α) : List α :=
  match n with
  | 0 => l
  | n + 1 => l.modify n f

/-- The numbers 1 to `n`. -/
def upTo (n : Nat) : List Nat := List.range' 1 n

/-! ### Values and times -/

/-- A value taken into `lo..hi` (spec 09 R147). -/
def clamp (lo hi : Nat) (v : Int) : Nat :=
  if v < lo then lo else if (hi : Int) < v then hi else v.toNat

/-- The second `n` seconds after `now`. -/
def later (now : Second) (n : Nat) : Second := now + BitVec.ofNat 32 n

/-- A deadline has been reached when the difference modulo 2³² puts it at most 2³¹ − 1 seconds back
(spec 00 R1). DEDUCED (notes/assumptions/4.md). -/
def reached (deadline now : Second) : Bool := decide (elapsed deadline now < 2147483648)

/-- A deadline that is present and has been reached. -/
def expired (deadline : Option Second) (now : Second) : Bool :=
  match deadline with
  | some d => reached d now
  | none => false

/-! ### One value for each loader -/

/-- The value of one loader. -/
def PerLoader.get {α : Type} (p : PerLoader α) : Loader → α
  | .l1 => p.l1
  | .l2 => p.l2

/-- The pair with one loader's value replaced. -/
def PerLoader.put {α : Type} (p : PerLoader α) (l : Loader) (a : α) : PerLoader α :=
  match l with
  | .l1 => { p with l1 := a }
  | .l2 => { p with l2 := a }

/-- The other loader. -/
def otherLoader : Loader → Loader
  | .l1 => .l2
  | .l2 => .l1

/-! ### What stands -/

/-- The counts of the loaded profile. -/
def State.counts (s : State) : Counts := s.startUp.profile.counts

/-- The hull data of the loaded profile. -/
def State.hull (s : State) : Hull := s.startUp.profile.hull

/-- READY: every record that the profile counts exists (spec 01 R2, spec 11 Table 11.1). -/
def State.ready (s : State) : Bool := s.powered && decide (s.startUp.phase = .ready)

/-- Channel records exist in READY and in PROFILE FAULT (spec 07 R118). -/
def State.hasChannels (s : State) : Bool :=
  s.powered && (decide (s.startUp.phase = .ready) || decide (s.startUp.phase = .profileFault))

/-- The links take frames: not in RESET (spec 11 R163) and not while PFAIL is asserted (spec 08 R130, 09 R143,
12 R171). -/
def State.linkUp (s : State) : Bool := s.powered && decide (s.startUp.phase ≠ .reset) && !s.pfail

/-- The Ballast Sequencer takes events: READY and PFAIL inactive (spec 06 R115, spec 12 R172). -/
def State.ballastUp (s : State) : Bool := s.ready && !s.pfail

/-- Whether the profile counts this hold. -/
def State.hasHold (s : State) (h : Nat) : Bool := s.ready && decide (1 ≤ h ∧ h ≤ s.counts.holds)

/-- Whether the profile counts this tank. -/
def State.hasTank (s : State) (t : Nat) : Bool := s.ready && decide (1 ≤ t ∧ t ≤ s.counts.tanks)

/-- Whether the profile counts this item. -/
def State.hasItem (s : State) (i : Nat) : Bool := s.ready && decide (1 ≤ i ∧ i ≤ s.counts.items)

/-- Whether the profile counts this group, and so its station. -/
def State.hasGroup (s : State) (g : Nat) : Bool := s.ready && decide (1 ≤ g ∧ g ≤ s.counts.groups)

/-- Whether the valve table has this valve (spec 06 section 6.2). -/
def State.hasValve (s : State) : ValveId → Bool
  | .tank n => s.hasTank n
  | .suction n => s.hasGroup n
  | .overboard n => s.hasGroup n

/-- The numbers of the profile's tanks. -/
def State.tankNumbers (s : State) : List Nat := upTo s.counts.tanks

/-- The numbers of the profile's groups. -/
def State.groupNumbers (s : State) : List Nat := upTo s.counts.groups

/-! ### Records looked up -/

/-- The working fields of a hold. -/
def State.hold (s : State) (h : Nat) : Hold := (nth1 s.holds h).getD default

/-- The profile's data for a hold. -/
def State.holdData (s : State) (h : Nat) : HoldData := (nth1 s.hull.holds h).getD default

/-- The working fields of a tank. -/
def State.tank (s : State) (t : Nat) : Tank := (nth1 s.tanks t).getD default

/-- The profile's data for a tank. -/
def State.tankData (s : State) (t : Nat) : TankData := (nth1 s.hull.tanks t).getD default

/-- The mass of an item. -/
def State.item (s : State) (i : Nat) : Nat := (nth1 s.items i).getD 0

/-- The order of a tank, where it has one (spec 05 R75). -/
def State.order (s : State) (t : Nat) : Option Order := (nth1 s.ballast.orders t).join

/-- The queue of a group, head first (spec 05 R76). -/
def State.queue (s : State) (g : Nat) : List Nat := (nth1 s.ballast.queues g).getD []

/-- The station of a group. -/
def State.station (s : State) (g : Nat) : Station := (nth1 s.ballast.stations g).getD default

/-- A valve of the valve table. -/
def State.valve (s : State) : ValveId → Valve
  | .tank n => (nth1 s.ballast.tankValves n).getD default
  | .suction n => (nth1 s.ballast.suctionValves n).getD default
  | .overboard n => (nth1 s.ballast.overboardValves n).getD default

/-- The channel of a loader. -/
def State.channel (s : State) (l : Loader) : Channel := s.channels.get l

/-- The pour of a sequence, where the list holds it (spec 04 R56). -/
def State.pour (s : State) (n : Nat) : Option Pour := s.pours.list.find? (·.sequence = n)

/-- The live generation, 0 while no set is published (spec 02 R27). -/
def State.generation (s : State) : Nat :=
  match s.engine.live with
  | some r => r.generation
  | none => 0

/-! ### Records changed -/

/-- A hold changed. -/
def State.updHold (h : Nat) (f : Hold → Hold) (s : State) : State := { s with holds := modify1 s.holds h f }

/-- A tank changed. -/
def State.updTank (t : Nat) (f : Tank → Tank) (s : State) : State := { s with tanks := modify1 s.tanks t f }

/-- A tank's order entered, replaced or removed. -/
def State.setOrder (t : Nat) (o : Option Order) (s : State) : State :=
  { s with ballast.orders := modify1 s.ballast.orders t fun _ => o }

/-- A tank's order changed where there is one. -/
def State.updOrder (t : Nat) (f : Order → Order) (s : State) : State :=
  { s with ballast.orders := modify1 s.ballast.orders t (·.map f) }

/-- A group's queue replaced. -/
def State.setQueue (g : Nat) (q : List Nat) (s : State) : State :=
  { s with ballast.queues := modify1 s.ballast.queues g fun _ => q }

/-- A station changed. -/
def State.updStation (g : Nat) (f : Station → Station) (s : State) : State :=
  { s with ballast.stations := modify1 s.ballast.stations g f }

/-- A valve changed. -/
def State.updValve (v : ValveId) (f : Valve → Valve) (s : State) : State :=
  match v with
  | .tank n => { s with ballast.tankValves := modify1 s.ballast.tankValves n f }
  | .suction n => { s with ballast.suctionValves := modify1 s.ballast.suctionValves n f }
  | .overboard n => { s with ballast.overboardValves := modify1 s.ballast.overboardValves n f }

/-- A channel changed. -/
def State.updChannel (l : Loader) (f : Channel → Channel) (s : State) : State :=
  { s with channels := s.channels.put l (f (s.channels.get l)) }

/-- The pour of a sequence changed. -/
def State.updPour (n : Nat) (f : Pour → Pour) (s : State) : State :=
  { s with pours.list := s.pours.list.map fun p => if p.sequence = n then f p else p }

/-! ### Marks that one block leaves for another -/

/-- The live pass is marked dirty; causes are not taken outside READY (spec 02 R23). -/
def State.markDirty (s : State) : State := if s.ready then { s with engine.dirty := true } else s

/-- A cause of computation (spec 03 R51); nothing is computed outside READY. -/
def State.oweComputation (s : State) : State :=
  if s.ready then { s with pours.computationsOwed := s.pours.computationsOwed + 1 } else s

/-- A cause of derivation of one channel (spec 07 R122). -/
def State.oweDerivation (l : Loader) (s : State) : State :=
  s.updChannel l fun c => { c with derivationsOwed := c.derivationsOwed + 1 }

/-- A cause of derivation that concerns both loaders. -/
def State.oweDerivations (s : State) : State := (s.oweDerivation .l1).oweDerivation .l2

/-- A report slot is made due: it joins the tail of the due order unless it is due already (spec 08 R135). -/
def State.makeDue (slot : Slot) (s : State) : State :=
  if slot ∈ s.terminal.due then s else { s with terminal.due := s.terminal.due ++ [slot] }

/-! ### Parties told without order among them -/

/-- The order of a list that a number stands for: the number's remainder picks the first element, its quotient the
order of the rest. -/
def permute {α : Type} : Nat → Nat → List α → List α
  | 0, _, l => l
  | n + 1, k, l =>
    match l[k % l.length]? with
    | some a => a :: permute n (k / l.length) (l.eraseIdx (k % l.length))
    | none => l

/-- Every party of the list acts once. Where at most one of them has anything to do the order does not matter and
is the list's; otherwise it is a free choice (spec 05 R89, 06 R113; notes/assumptions/1.md). -/
def unordered {α : Type} (acts : α → State → Bool) (f : α → State → State) (l : List α) (s : State) : State :=
  if (l.filter (acts · s)).length ≤ 1 then l.foldl (fun s a => f a s) s
  else
    (permute l.length (Config.interleaving s.draws) l).foldl (fun s a => f a s) { s with draws := s.draws + 1 }

end Sys2Proof.Machine
end

