-- ==== Sys2Proof/Machine/Strength.lean ====
section
/-! DEFINITION. The arithmetic of a pass: shear, bending, drafts, trim and displacement with their ratios and statuses
(spec 02 R29 to R36), and which way a compartment moves a quantity (Tables 2.7 and 5.4). -/

namespace Sys2Proof.Machine

/-! ### Rounding and saturation (spec 02 R29) -/

/-- The quotient of a sum by a positive divisor, rounded half away from zero. -/
def roundHalfAway (n : Int) (d : Nat) : Int :=
  if 0 ≤ n then (2 * n + d) / (2 * d) else -((2 * -n + d) / (2 * d))

/-- A value taken into `lo..hi`, with the saturation flag. -/
def saturate (lo hi v : Int) : Int × Bool :=
  if v < lo then (lo, true) else if hi < v then (hi, true) else (v, false)

/-- The sum of coefficient times mass over the compartments. -/
def weighted (cs : List Coefficient) (ms : List Nat) : Int :=
  (List.zipWith (fun c m => c.toInt * (m : Int)) cs ms).sum

/-! ### Ratios, statuses and sides (spec 02 R34, R35, Table 2.6) -/

/-- The magnitude times 1,000 over the limit, rounded down and at most 9999. -/
def ratioOf (v : Int) (limit : Nat) : Nat := min 9999 (v.natAbs * 1000 / limit)

/-- NORMAL below the caution permille, LIMIT from 1000. -/
def statusOf (caution ratio : Nat) : Status :=
  if 1000 ≤ ratio then .limit else if caution ≤ ratio then .caution else .normal

/-- A quantity set against the limit of the side on which its saturated value stands. -/
def quantityOf (caution upLimit downLimit : Nat) (v : Int × Bool) : Quantity :=
  let ratio := ratioOf v.1 (if 0 ≤ v.1 then upLimit else downLimit)
  { value := v.1, ratio := ratio, status := statusOf caution ratio, saturated := v.2 }

/-- The side of a value, by the kind of its quantity. -/
def sideOf (kind : QuantityKind) (v : Int) : Side :=
  match kind with
  | .sf => if 0 ≤ v then .positive else .negative
  | .bm => if 0 ≤ v then .hog else .sag
  | .trim => if 0 ≤ v then .stern else .head
  | .fore | .aft => .deep

/-- The station limits of a limit set. -/
def StationData.limitsOf (d : StationData) : LimitSet → StationLimits
  | .harbour => d.harbour
  | .sea => d.sea

/-- The trim limits of a limit set. -/
def Hull.trimOf (h : Hull) : LimitSet → TrimLimits
  | .harbour => h.trimHarbour
  | .sea => h.trimSea

/-! ### The pass -/

/-- Shear force at a station (spec 02 R30). -/
def shearAt (d : StationData) (ms : List Nat) : Int × Bool :=
  saturate (-8000000) 8000000 (d.sf0 + roundHalfAway (weighted d.c ms) 32768)

/-- Bending moment at a station (spec 02 R31). -/
def bendingAt (d : StationData) (ms : List Nat) : Int × Bool :=
  saturate (-50000000) 50000000 (d.bm0 + roundHalfAway (weighted d.k ms) 1000)

/-- A draft from its empty value and its coefficients (spec 02 R32). -/
def draftOf (d0 : Int) (cs : List Coefficient) (ms : List Nat) : Int × Bool :=
  saturate 0 40000 (d0 + roundHalfAway (weighted cs ms) 10000)

/-- The two quantities of a station in the snapshot's limit set. -/
def stationResult (snap : Snapshot) (d : StationData) : StationResult :=
  let lim := StationData.limitsOf d snap.limitSet
  { sf := quantityOf snap.caution lim.sfPositive lim.sfNegative (shearAt d snap.masses)
    bm := quantityOf snap.caution lim.hog lim.sag (bendingAt d snap.masses) }

/-- The candidates for the worst quantity in the order that settles ties (spec 02 R36). -/
def worstCandidates (stations : List StationResult) (trim fore aft : Quantity) :
    List (QuantityKind × Option Nat × Quantity) :=
  ((stations.zipIdx 1).flatMap fun (r, n) => [(.sf, some n, r.sf), (.bm, some n, r.bm)]) ++
    [(.trim, none, trim), (.fore, none, fore), (.aft, none, aft)]

/-- The first candidate with the highest ratio. -/
def highest (best : QuantityKind × Option Nat × Quantity) :
    List (QuantityKind × Option Nat × Quantity) → QuantityKind × Option Nat × Quantity
  | [] => best
  | x :: xs => highest (if best.2.2.ratio < x.2.2.ratio then x else best) xs

/-- The worst quantity as it is recorded (spec 02 R36). -/
def worstOf (stations : List StationResult) (trim fore aft : Quantity) : Worst :=
  match worstCandidates stations trim fore aft with
  | x :: xs =>
    let w := highest x xs
    { kind := w.1, station := w.2.1, ratio := w.2.2.ratio, status := w.2.2.status, side := sideOf w.1 w.2.2.value }
  | [] => default

/-- The figures of a pass over a snapshot, under a generation (spec 02 R29 to R36). -/
def evaluate (h : Hull) (snap : Snapshot) (generation : Nat) : ResultSet :=
  let stations := h.stations.map (stationResult snap)
  let fore := draftOf h.d0Fore h.phi snap.masses
  let aft := draftOf h.d0Aft h.alpha snap.masses
  let lim := Hull.trimOf h snap.limitSet
  let trimQ := quantityOf snap.caution lim.stern lim.head (saturate (-20000) 20000 (aft.1 - fore.1))
  let foreQ := quantityOf snap.caution snap.maxDraft snap.maxDraft fore
  let aftQ := quantityOf snap.caution snap.maxDraft snap.maxDraft aft
  let mass := h.lightship + snap.masses.sum
  { generation := generation, limitSet := snap.limitSet, caution := snap.caution, maxDraft := snap.maxDraft
    stations := stations, trim := trimQ, fore := foreQ, aft := aftQ, mean := ((fore.1 + aft.1) / 2).toNat
    displacement := min 9999999 mass, displacementSaturated := decide (9999999 < mass)
    worst := worstOf stations trimQ foreQ aftQ }

/-- The generation after one: from 65535 it is 1 (spec 02 R27, spec 10 R160). -/
def nextGeneration (g : Nat) : Nat := if g = 65535 then 1 else g + 1

/-! ### Which way a compartment moves a quantity (spec 02 Table 2.7, spec 05 Table 5.4) -/

/-- A compartment's coefficient, compartments counted from 0: holds, then tanks, then items. -/
def coefficientAt (cs : List Coefficient) (i : Nat) : Int := (cs[i]?.getD 0#16).toInt

/-- Each quantity of a set with the compartment's coefficient for it. -/
def influences (h : Hull) (r : ResultSet) (i : Nat) : List (Quantity × Int) :=
  (List.zipWith (fun (q : StationResult) (d : StationData) =>
      [(q.sf, coefficientAt d.c i), (q.bm, coefficientAt d.k i)]) r.stations h.stations).flatten ++
    [(r.trim, coefficientAt h.alpha i - coefficientAt h.phi i), (r.fore, coefficientAt h.phi i),
      (r.aft, coefficientAt h.alpha i)]

/-- Adding mass moves the quantity toward the side on which it stands (Table 2.7). -/
def addingWorsens (q : Quantity) (e : Int) : Bool :=
  decide ((0 ≤ q.value ∧ 0 < e) ∨ (q.value < 0 ∧ e < 0))

/-- Taking mass out moves the quantity toward the side on which it stands (Table 5.4). -/
def dischargeWorsens (q : Quantity) (e : Int) : Bool :=
  decide ((0 ≤ q.value ∧ e < 0) ∨ (q.value < 0 ∧ 0 < e))

/-- The place of a hold among the compartments. -/
def holdIndex (h : Nat) : Nat := h - 1

/-- The place of a tank among the compartments. -/
def tankIndex (c : Counts) (t : Nat) : Nat := c.holds + (t - 1)

/-- Some quantity at CAUTION stands on the side toward which adding to the hold moves it (spec 07 R123). -/
def cautionWorsenedBy (h : Hull) (r : ResultSet) (hold : Nat) : Bool :=
  (influences h r (holdIndex hold)).any fun (q, e) => decide (q.status = .caution) && addingWorsens q e

/-- The stress-hold test fails: some quantity at CAUTION or LIMIT stands on the side toward which discharging the tank
moves it (spec 05 R81). -/
def stressHolds (p : Profile) (r : ResultSet) (tank : Nat) : Bool :=
  (influences p.hull r (tankIndex p.counts tank)).any fun (q, e) =>
    decide (q.status ≠ .normal) && dischargeWorsens q e

/-- The stress interrupt: some quantity at LIMIT stands on the side toward which discharging the tank moves it
(spec 06 R113). -/
def stressInterrupts (p : Profile) (r : ResultSet) (tank : Nat) : Bool :=
  (influences p.hull r (tankIndex p.counts tank)).any fun (q, e) =>
    decide (q.status = .limit) && dischargeWorsens q e

/-! ### The STRENGTH flag (spec 02 R38) -/

/-- The statuses that R38 compares: each station's SF and BM, the trim, the fore draft and the aft draft. -/
def ResultSet.statuses (r : ResultSet) : List Status :=
  (r.stations.flatMap fun q => [q.sf.status, q.bm.status]) ++ [r.trim.status, r.fore.status, r.aft.status]

/-- Some status of the new set differs from that of the set it replaces; an absent set counts as all NORMAL. -/
def statusChanged (old : Option ResultSet) (new : ResultSet) : Bool :=
  match old with
  | some r => decide (r.statuses ≠ new.statuses)
  | none => new.statuses.any (· ≠ .normal)

end Sys2Proof.Machine
end

