-- ==== Sys2Proof/Machine/Clearance.lean ====
section
/-! DEFINITION. The Clearance Unit: rooms, own and joint, the figures of a pour, the rate estimators, and the current
pours they are written into (spec 03 R40 to R55, spec 04 R58, R59). -/

namespace Sys2Proof.Machine

/-! ### Room for one quantity (spec 03 R41 to R43) -/

/-- The largest room, which also stands for an unlimited one. -/
def unlimitedRoom : Nat := 999999

/-- A room from its numerator: 0 when the limit is exhausted, rounded down, at most 999,999. -/
def boundedRoom (numerator : Int) (scale : Nat) (e : Int) : Nat :=
  if numerator ≤ 0 then 0 else min unlimitedRoom (numerator.toNat * scale / e.natAbs)

/-- The room of a signed quantity toward the side to which the coefficient moves it (spec 03 Table 3.3). -/
def signedRoom (v : Int) (upLimit downLimit scale : Nat) (e : Int) : Nat :=
  if e = 0 then unlimitedRoom
  else if 0 < e then boundedRoom (upLimit - v) scale e
  else boundedRoom (v + downLimit) scale e

/-- The room of a draft, which has no lower limit (spec 03 R42). -/
def draftRoom (maxDraft : Nat) (v : Int) (e : Int) : Nat :=
  if 0 < e then boundedRoom (maxDraft - v) 10000 e else unlimitedRoom

/-- The side toward which a coefficient moves a quantity of a kind; none where it is 0 (spec 02 Table 2.7). -/
def movedToward (kind : QuantityKind) (e : Int) : Option Side :=
  if e = 0 then none
  else match kind with
    | .sf => some (if 0 < e then .positive else .negative)
    | .bm => some (if 0 < e then .hog else .sag)
    | .trim => some (if 0 < e then .stern else .head)
    | .fore | .aft => if 0 < e then some .deep else none

/-! ### Own room and joint room (spec 03 R44, R45) -/

/-- The summed coefficient of the compartments to which equal masses are added. -/
def summed (cs : List Coefficient) (is : List Nat) : Int := (is.map (coefficientAt cs)).sum

/-- The SF and BM rooms of one station. -/
def stationRooms (r : ResultSet) (joint : Bool) (is : List Nat) (n : Nat) (q : StationResult) (d : StationData) :
    List Room :=
  let lim := StationData.limitsOf d r.limitSet
  let c := summed d.c is
  let k := summed d.k is
  [{ amount := signedRoom q.sf.value lim.sfPositive lim.sfNegative 32768 c
     cause := { kind := .sf, station := some n, side := movedToward .sf c, joint := joint } },
   { amount := signedRoom q.bm.value lim.hog lim.sag 1000 k
     cause := { kind := .bm, station := some n, side := movedToward .bm k, joint := joint } }]

/-- The rooms of the trim and of the two drafts. -/
def hullRooms (h : Hull) (r : ResultSet) (joint : Bool) (is : List Nat) : List Room :=
  let phi := summed h.phi is
  let alpha := summed h.alpha is
  let lim := Hull.trimOf h r.limitSet
  [{ amount := signedRoom r.trim.value lim.stern lim.head 10000 (alpha - phi)
     cause := { kind := .trim, station := none, side := movedToward .trim (alpha - phi), joint := joint } },
   { amount := draftRoom r.maxDraft r.fore.value phi
     cause := { kind := .fore, station := none, side := movedToward .fore phi, joint := joint } },
   { amount := draftRoom r.maxDraft r.aft.value alpha
     cause := { kind := .aft, station := none, side := movedToward .aft alpha, joint := joint } }]

/-- The candidate rooms of equal additions to the compartments, in the order that settles ties (spec 03 R44). -/
def candidateRooms (h : Hull) (r : ResultSet) (joint : Bool) (is : List Nat) : List Room :=
  ((List.zip r.stations h.stations).zipIdx 1).flatMap (fun ((q, d), n) => stationRooms r joint is n q d) ++
    hullRooms h r joint is

/-- The first of the smallest rooms. -/
def smallest (best : Room) : List Room → Room
  | [] => best
  | x :: xs => smallest (if x.amount < best.amount then x else best) xs

/-- A cause of a kind that has no station, side or joint marker. -/
def plainCause (kind : CauseKind) : Cause := { kind := kind, station := none, side := none, joint := false }

/-- The hold's room to its maximum mass (spec 03 R44). -/
def holdRoom (d : HoldData) (current : Nat) : Nat := d.maxMass - current

/-- The smallest of a list of rooms, `last` being considered after all of them. -/
def smallestOf (rooms : List Room) (last : Room) : Room :=
  match rooms with
  | x :: xs => smallest x (xs ++ [last])
  | [] => last

/-- The own room of a hold, its hold room given (spec 03 R44). -/
def ownRoom (h : Hull) (r : ResultSet) (hold room : Nat) : Room :=
  smallestOf (candidateRooms h r false [holdIndex hold]) { amount := room, cause := plainCause .hold }

/-- The joint room of two holds, whose hold rooms do not enter it (spec 03 R45). -/
def jointRoom (h : Hull) (r : ResultSet) (h1 h2 : Nat) : Room :=
  match candidateRooms h r true [holdIndex h1, holdIndex h2] with
  | x :: xs => smallest x xs
  | [] => { amount := unlimitedRoom, cause := plainCause .hold }

/-- The smaller of own and joint room; the own room's cause stands when they are equal (spec 03 R46). -/
def strengthRoomOf (own : Room) : Option Room → Room
  | some j => if j.amount < own.amount then j else own
  | none => own

/-! ### Current pours and gates (spec 04 R58, R59) -/

/-- The pour is open to the loader. -/
def Pour.openTo (p : Pour) (l : Loader) : Bool := decide (p.loader = .one l ∨ p.loader = .either)

/-- The loader's ACTIVE pour. -/
def State.activePour (s : State) (l : Loader) : Option Pour :=
  s.pours.list.find? fun p => decide (p.state = .active ∧ p.loader = .one l)

/-- The loader's current pour: ACTIVE, else INTERRUPTED, else the PLANNED pour of lowest sequence open to it. -/
def State.currentPour (s : State) (l : Loader) : Option Pour :=
  (s.activePour l).or
    ((s.pours.list.find? fun p => decide (p.state = .interrupted ∧ p.loader = .one l)).or
      (s.pours.list.find? fun p => decide (p.state = .planned) && p.openTo l))

/-- The gate list: the gates present in slot order. -/
def Pour.gates (p : Pour) : List Gate := [p.gate1, p.gate2, p.gate3, p.gate4].reduceOption

/-- A gate entry is satisfied while the tank is at or below the maximum and not STALE. -/
def State.gateSatisfied (s : State) (g : Gate) : Bool :=
  decide ((s.tank g.tank).current ≤ g.maxMass ∧ (s.tank g.tank).status ≠ .stale)

/-- Every entry of the pour's gate list is satisfied. -/
def State.gatesSatisfied (s : State) (p : Pour) : Bool := p.gates.all s.gateSatisfied

/-! ### Rate estimators (spec 03 R49) -/

/-- A difference of amounts over elapsed seconds in tonnes per hour, taken into 0..20,000. -/
def rateOver (difference : Int) (seconds : Nat) : Nat := clamp 0 20000 (difference * 360 / seconds)

/-- An amount arrives: it opens a closed window, is not used inside the window, and otherwise gives a new estimate
and a new window. `falling` takes the difference the other way (spec 06 R101). -/
def Estimator.arrive (e : Estimator) (falling : Bool) (window : Nat) (now : Second) (amount : Nat) : Estimator :=
  match e.window with
  | none => { e with window := some (now, amount) }
  | some (start, first) =>
    if elapsed start now < window then e
    else
      let difference : Int := if falling then (first : Int) - amount else (amount : Int) - first
      { window := some (now, amount), estimate := rateOver difference (elapsed start now) }

/-- Whether the amount that arrives gives a new estimate. -/
def Estimator.measures (e : Estimator) (window : Nat) (now : Second) : Bool :=
  match e.window with
  | none => false
  | some (start, _) => decide (window ≤ elapsed start now)

/-! ### Strength room, clearance and time-to-limit (spec 03 R46 to R48) -/

/-- The planned mass less the tallied mass, 0 when the tally has passed the plan. -/
def Pour.planRemaining (p : Pour) : Nat := p.planned - p.tallied

/-- The rate of a pour: declared, or for an ACTIVE pour the estimate of its bound loader. -/
def State.rateOfPour (s : State) (p : Pour) : Nat :=
  if 0 < p.declaredRate then p.declaredRate
  else match p.state, p.loader with
    | .active, .one l => (s.pours.estimators.get l).estimate
    | _, _ => 0

/-- The seconds until the clearance is used up at the rate; 65535 at rate 0 and at most. -/
def timeToLimitOf (clearance rate : Nat) : Nat := if rate = 0 then 65535 else min 65535 (clearance * 360 / rate)

/-- The joint room of the two ACTIVE pours, where both loaders have one (spec 03 R45). -/
def State.jointRoom? (s : State) (r : ResultSet) : Option Room :=
  match s.activePour .l1, s.activePour .l2 with
  | some p, some q => some (jointRoom s.hull r p.hold q.hold)
  | _, _ => none

/-- The hold room of a hold at its present mass. -/
def State.holdRoomOf (s : State) (h : Nat) : Nat := holdRoom (s.holdData h) (s.hold h).current

/-- The strength room of a current pour with its cause (spec 03 R46). -/
def State.strengthRoomFor (s : State) (p : Pour) : Room :=
  if !s.gatesSatisfied p then { amount := 0, cause := plainCause .gated }
  else match s.engine.live with
    | none => { amount := 0, cause := plainCause .noResult }
    | some r =>
      let own := ownRoom s.hull r p.hold (s.holdRoomOf p.hold)
      if p.state = .active then strengthRoomOf own (s.jointRoom? r) else own

/-- A current pour with its five figures as a computation writes them (spec 03 R46 to R48, R52). -/
def State.withFigures (s : State) (p : Pour) : Pour :=
  let room := s.strengthRoomFor p
  let clearance := min room.amount p.planRemaining
  { p with
    strengthRoom := room.amount
    clearance := clearance
    timeToLimit := timeToLimitOf clearance (s.rateOfPour p)
    cause := if p.planRemaining < room.amount then plainCause .plan else room.cause
    basis := s.generation }

/-- The pour list with the figures of every current pour written (spec 03 R52). -/
def State.listWithFigures (s : State) : List Pour :=
  let current := ([Loader.l1, .l2].filterMap s.currentPour).map (·.sequence)
  s.pours.list.map fun p => if p.sequence ∈ current then s.withFigures p else p

end Sys2Proof.Machine
end

