-- ==== Sys2Proof/Machine/Interlock.lean ====
section
/-! DEFINITION. The Loader Interlock: the derivation of a channel, its output and its lines, and the tally timer
(spec 07). -/

namespace Sys2Proof.Machine

/-! ### Restrictiveness (spec 07 Table 7.2) -/

/-- Rank of a line state, 1 the least restrictive. -/
def LineState.rank : LineState → Nat
  | .pour => 1
  | .reduce => 2
  | .complete => 3
  | .forbid => 4

/-- The line state of a forced level; NONE, which ranks below POUR, has none. -/
def ForcedLevel.state? : ForcedLevel → Option LineState
  | .none => Option.none
  | .reduce => some .reduce
  | .complete => some .complete
  | .forbid => some .forbid

/-- The output state and output cause of a channel (spec 07 R119). -/
def Channel.outputs (c : Channel) : LineState × Option OutputCause :=
  match c.forced.state? with
  | some f => if c.computed.rank < f.rank then (f, some .forced) else (c.computed, c.cause.map .derived)
  | none => (c.computed, c.cause.map .derived)

/-! ### The computed state (spec 07 R121, R123) -/

/-- The pour that the channel names: in the list, or as it stood when it left the list. -/
def State.channelPour (s : State) (l : Loader) : Option Pour :=
  match (s.channel l).currentPour with
  | none => none
  | some n => (s.pour n).or ((s.channel l).gone.find? (·.sequence = n))

/-- The pace test. -/
def State.paceTest (s : State) (p : Pour) : Bool :=
  decide (0 < s.settings.pace ∧ p.timeToLimit < s.settings.pace)

/-- The margin test; a margin of 0 disables it. -/
def State.marginTest (s : State) (p : Pour) : Bool := decide (p.strengthRoom < s.settings.margin)

/-- The caution test, on the set published at the derivation. -/
def State.cautionTest (s : State) (p : Pour) : Bool :=
  match s.engine.live with
  | some r => cautionWorsenedBy s.hull r p.hold
  | none => false

/-- Tests 6 to 11 of Table 7.4, once no FORBID test holds. -/
def State.unforbidden (s : State) (c : Channel) (p : Option Pour) : LineState × Option ChannelCause :=
  match p with
  | none => (.complete, some .noCurrent)
  | some p =>
    if p.planRemaining = 0 then (.complete, some .planMet)
    else if s.paceTest p then (.reduce, some .pace)
    else if s.marginTest p then (.reduce, some .margin)
    else if s.cautionTest p then (.reduce, some .caution)
    else if c.timedOut = true ∧ c.action = .reduce then (.reduce, some .tallyTimeout)
    else (.pour, none)

/-- The computed state and cause of a channel by the tests of Table 7.4 in their order. -/
def State.derived (s : State) (l : Loader) : LineState × Option ChannelCause :=
  let c := s.channel l
  let p := s.channelPour l
  if c.released = false then (.forbid, some .unreleased)
  else if s.startUp.phase = .profileFault then (.forbid, some .profileFault)
  else if p.any (fun p => decide (p.strengthRoom = 0 ∧ p.cause.kind ≠ .gated)) then (.forbid, some .strength)
  else if p.any (fun p => decide (p.cause.kind = .gated)) then (.forbid, some .gated)
  else if c.timedOut = true ∧ c.action = .forbid then (.forbid, some .tallyTimeout)
  else s.unforbidden c p

/-! ### Output and lines (spec 07 R119, R120, R127) -/

/-- The output rewritten from the computed state and the forced level. A changed output state SETs the STATE flag,
records the cause of an entry into FORBID and makes the CLEARANCE slot due. -/
def State.rewriteOutput (l : Loader) (s : State) : State :=
  let out := (s.channel l).outputs
  if out.1 = (s.channel l).output then s.updChannel l ({ · with outputCause := out.2 })
  else
    (s.updChannel l fun c =>
      { c with
        output := out.1, outputCause := out.2, stateFlag := true
        lastForbid := if out.1 = .forbid then out.2 else c.lastForbid }).makeDue (.clearance l)

/-- The pour that the last computation named, stored as the channel's current pour (spec 07 Table 7.1). -/
def Channel.storeNamed (c : Channel) : Channel :=
  { c with currentPour := c.named, gone := c.gone.filter fun p => decide (c.named = some p.sequence) }

/-- The tests of Table 7.4 taken on what stands, and the output that follows (spec 07 R119, R121). -/
def State.takeTests (l : Loader) (s : State) : State :=
  (s.updChannel l ({ · with computed := (s.derived l).1, cause := (s.derived l).2 })).rewriteOutput l

/-- A channel derived anew (spec 07 R122): the pour that the last computation named is stored, and the tests are taken on it.
DEDUCED: so does a derivation that another command holds (notes/assumptions/7.md). Channels exist in READY and PROFILE FAULT. -/
def State.deriveChannel (l : Loader) (s : State) : State :=
  if s.hasChannels then (s.updChannel l Channel.storeNamed).takeTests l else s

/-- Both channels derived anew without order between them (spec 07 R122). -/
def State.deriveBoth (ls : List Loader) (s : State) : State :=
  unordered (fun l s => decide (((s.deriveChannel l).channel l).output ≠ (s.channel l).output))
    (fun l s => s.deriveChannel l) ls s

/-- One of the derivations owed. -/
def State.takeDerivation (l : Loader) (s : State) : State :=
  (s.updChannel l fun c => { c with derivationsOwed := c.derivationsOwed - 1 }).deriveChannel l

/-- The lines are held inactive in RESET and LOADING, without power and under PFAIL. -/
def State.linesHeld (s : State) : Bool := !s.hasChannels || s.pfail

/-- PERMIT of a loader, active in POUR and REDUCE (spec 07 Table 7.3). -/
def State.permit (s : State) (l : Loader) : Bool :=
  !s.linesHeld && decide ((s.channel l).output = .pour ∨ (s.channel l).output = .reduce)

/-- SLOW of a loader, active in REDUCE and COMPLETE (spec 07 Table 7.3). -/
def State.slow (s : State) (l : Loader) : Bool :=
  !s.linesHeld && decide ((s.channel l).output = .reduce ∨ (s.channel l).output = .complete)

/-! ### The tally timer (spec 07 R124) -/

/-- The timer started or restarted by an accepted POUR START or tally. -/
def State.startTallyTimer (l : Loader) (s : State) : State :=
  (s.updChannel l ({ · with deadline := some (later s.clock s.settings.tallyTimeout), timedOut := false })).oweDerivation
    l

/-- The timer stopped by POUR END or by the interruption of the pour. -/
def State.stopTallyTimer (l : Loader) (s : State) : State :=
  (s.updChannel l ({ · with deadline := none, timedOut := false })).oweDerivation l

/-- The expiry: the deadline becomes absent, tally timed out SET, and the channel is derived anew. -/
def State.expireTallyTimer (l : Loader) (s : State) : State :=
  (s.updChannel l ({ · with deadline := none, timedOut := true })).deriveChannel l

/-! ### What a computation hands on (spec 03 R53, spec 07 R122, spec 08 R138) -/

/-- The clearance that a loader's report would carry: that of its current pour, or 0. -/
def State.reportedClearance (s : State) (l : Loader) : Nat :=
  match s.currentPour l with
  | some p => p.clearance
  | none => 0

/-- The report-step test of one loader. -/
def State.reportStepTest (l : Loader) (s : State) : State :=
  match s.terminal.lastClearance.get l with
  | none => s.makeDue (.clearance l)
  | some last =>
    if s.settings.reportStep ≤ max (s.reportedClearance l) last - min (s.reportedClearance l) last then
      s.makeDue (.clearance l)
    else s

/-- The loader's current pour, or none, named to the Interlock: a cause of derivation, and stored by it (spec 07 R122). -/
def State.handCurrentPour (l : Loader) (s : State) : State :=
  (s.updChannel l ({ · with named := (s.currentPour l).map (·.sequence) })).oweDerivation l

/-- One whole computation: the figures of every current pour, then what they hand on. DESIGN CHOICE: both report-step
tests, L1's first, come before any derivation (notes/assumptions/23.md). -/
def State.compute (s : State) : State :=
  let s := { s with pours.list := s.listWithFigures, pours.computationsOwed := s.pours.computationsOwed - 1 }
  (((s.handCurrentPour .l1).handCurrentPour .l2).reportStepTest .l1).reportStepTest .l2

/-- A pour is leaving the list: each channel that names it, or whose next derivation does, keeps its record for the report
and the derivation that may still read it (spec 08 R137). -/
def State.keepGone (p : Pour) (s : State) : State :=
  let keep (c : Channel) : Channel :=
    if c.currentPour = some p.sequence ∨ c.named = some p.sequence then { c with gone := p :: c.gone } else c
  (s.updChannel .l1 keep).updChannel .l2 keep

end Sys2Proof.Machine
end

