-- ==== Sys2Proof/Machine/Sounding.lean ====
section
/-! DEFINITION. The Sounding Converter: a reading to a level, a level to a volume and a mass, sounding status and strip
settling (spec 01 R10 to R16). -/

namespace Sys2Proof.Machine

/-! ### Conversion (spec 01 R10, R11) -/

/-- The quotient rounded to the nearest whole number, a half rounded up. -/
def roundHalfUp (n d : Nat) : Nat := (2 * n + d) / (2 * d)

/-- The level of a gauge reading in the tank's sounding form; a level below zero is taken as 0. -/
def levelOf (d : TankData) (reading : Nat) : Nat :=
  match d.form with
  | .level => min reading 30000
  | .ullage => d.datum.getD 0 - min reading 30000

/-- The volume at a level, with the over-range mark: the level stands at or above the breakpoint `b`, or below the
first. -/
def volumeFrom (b : Breakpoint) : List Breakpoint → Nat → Nat × Bool
  | [], level => (b.volume, decide (b.level < level))
  | b' :: rest, level =>
    if level ≤ b.level then (b.volume, false)
    else if level < b'.level then
      (b.volume + roundHalfUp ((level - b.level) * (b'.volume - b.volume)) (b'.level - b.level), false)
    else volumeFrom b' rest level

/-- The volume at a level by a sounding table. -/
def volumeAt (table : List Breakpoint) (level : Nat) : Nat × Bool :=
  match table with
  | b :: rest => volumeFrom b rest level
  | [] => (0, false)

/-- The mass of a level at a density, at most the capacity mass, with the over-range mark. -/
def massAt (d : TankData) (density level : Nat) : Nat × Bool :=
  let v := volumeAt d.breakpoints level
  (min d.capacity (roundHalfUp (v.1 * density) 10000), v.2)

/-! ### Strip settling (spec 01 R16) -/

/-- The strip state after a good sounding of this mass. -/
def StripState.afterSounding (st : StripState) (now : Second) (mass stripMass : Nat) : StripState :=
  if stripMass < mass then .above
  else match st with
    | .above => .settling now
    | .settling start => .settling start
    | .below => .below

/-- A SETTLING tank has lasted the interval. -/
def StripState.settled (st : StripState) (now : Second) (interval : Nat) : Bool :=
  match st with
  | .settling start => decide (interval ≤ elapsed start now)
  | _ => false

/-! ### Tank records -/

/-- A good sounding stored (spec 01 R12): level, mass, age 0, status and OVERRANGE flag, then the settle test. -/
def Tank.sounded (t : Tank) (d : TankData) (now : Second) (reading : Nat) : Tank :=
  let level := levelOf d reading
  let m := massAt d t.density level
  { t with
    lastLevel := some level
    current := m.1
    age := 0
    status := if m.2 then .overrange else .fresh
    overrangeFlag := t.overrangeFlag || (m.2 && decide (t.status ≠ .overrange))
    strip := t.strip.afterSounding now m.1 t.stripMass }

/-- A tank whose age has reached the stale interval (spec 01 R14). -/
def Tank.goesStale (t : Tank) (interval : Nat) : Bool :=
  decide ((t.status = .fresh ∨ t.status = .overrange) ∧ interval ≤ t.age)

/-- The stale expiry (spec 01 R14). -/
def Tank.staled (t : Tank) : Tank := { t with status := .stale, strip := .above, staleFlag := true }

/-- A second passes for the tank's sounding age (spec 01 R14). -/
def Tank.older (t : Tank) : Tank := { t with age := min 65535 (t.age + 1) }

/-- A density stored: the last level is converted again and the strip state becomes ABOVE (spec 01 R7). -/
def Tank.withDensity (t : Tank) (d : TankData) (density : Nat) : Tank :=
  let t := { t with density := density, strip := .above }
  match t.lastLevel with
  | some level => { t with current := (massAt d density level).1 }
  | none => t

/-- A manual level stored (spec 01 R15). -/
def Tank.withManualLevel (t : Tank) (d : TankData) (level : Nat) : Tank :=
  { t with lastLevel := some level, current := (massAt d t.density level).1, status := .manual, strip := .above }

/-- A tank after a cold start (spec 01 Table 1.10). -/
def coldTank (d : TankData) : Tank :=
  { stripMass := d.stripMass, alternate := d.alternate, route := d.route, density := d.density, current := 0,
    lastLevel := none, age := 65535, status := .stale, strip := .above, staleFlag := false, overrangeFlag := false }

/-- A tank after a warm start (spec 01 R19). -/
def Tank.warmed (t : Tank) : Tank := { t with status := .stale, age := 65535, strip := .above }

end Sys2Proof.Machine
end

