-- ==== Sys2Proof/Machine/Ballast.lean ====
section
/-! DEFINITION. The Ballast Sequencer: commands to valves and pumps, orders and queues, the station transitions, trips,
local control, and the looks that follow an event (spec 05, spec 06). -/

namespace Sys2Proof.Machine

/-! ### Commands to the field (spec 06 R93, R99, spec 12 R174) -/

/-- Two commands for the same valve, or for the same group's pump. -/
def FieldCommand.sameTarget : FieldCommand → FieldCommand → Bool
  | .valve v _, .valve w _ => decide (v = w)
  | .pump g _, .pump h _ => decide (g = h)
  | _, _ => false

/-- A command placed in an outbound list: at the tail, or in place of the one that waits for the same target. -/
def placeIn (c : FieldCommand) (l : List FieldCommand) : List FieldCommand :=
  if l.any c.sameTarget then l.map fun d => if c.sameTarget d then c else d else l ++ [c]

/-- A command placed in the outbound list. -/
def State.placeCommand (c : FieldCommand) (s : State) : State :=
  { s with field.outbound := placeIn c s.field.outbound }

/-- The class timeout of a valve (spec 06 R93). -/
def State.classTimeout (s : State) : ValveId → Nat
  | .tank _ => s.hull.tankValveTimeout
  | .suction _ | .overboard _ => s.hull.lineValveTimeout

/-- A valve command that is sent: confirmed becomes CLEAR and the travel timer starts. -/
def State.sendValve (v : ValveId) (p : ValveCommand) (s : State) : State :=
  (s.updValve v fun x =>
    { x with commanded := p, confirmed := false, deadline := some (later s.clock (s.classTimeout v)) }).placeCommand
    (.valve v p)

/-- A valve commanded: sent where the commanded position changes. -/
def State.commandValve (v : ValveId) (p : ValveCommand) (s : State) : State :=
  if (s.valve v).commanded = p then s else s.sendValve v p

/-- The PUMP COMMAND that a change of the pump commanded field sends. -/
def pumpOrder (before after : PumpCommand) : PumpOrder :=
  match after, before with
  | .stop, _ => .stop
  | .runReduced, _ => .reduced
  | .runFull, .runReduced => .full
  | .runFull, _ => .start

/-- A pump command that is sent. -/
def State.sendPump (g : Nat) (c : PumpCommand) (s : State) : State :=
  (s.updStation g ({ · with pumpCommanded := c })).placeCommand (.pump g (pumpOrder (s.station g).pumpCommanded c))

/-- A pump commanded: sent where the field changes. -/
def State.commandPump (g : Nat) (c : PumpCommand) (s : State) : State :=
  if (s.station g).pumpCommanded = c then s else s.sendPump g c

/-- The valve is confirmed at a commanded position. -/
def State.confirmedAt (s : State) (v : ValveId) (p : ValveCommand) : Bool :=
  decide ((s.valve v).commanded = p) && (s.valve v).confirmed

/-! ### Ownership of tank valves (spec 06 R97) -/

/-- Ownership of a tank valve begins. -/
def State.ownTank (g t : Nat) (s : State) : State := s.updValve (.tank t) ({ · with owner := some g })

/-- Ownership of a tank valve that is confirmed SHUT ends, and the tank leaves its station's closing tanks. -/
def State.releaseIfShut (t : Nat) (s : State) : State :=
  match (s.valve (.tank t)).owner with
  | some g =>
    if s.confirmedAt (.tank t) .shut then
      (s.updValve (.tank t) ({ · with owner := none })).updStation g fun st => { st with closing := st.closing.erase t }
    else s
  | none => s

/-- A tank valve commanded SHUT by its station; one already confirmed SHUT is released at once. -/
def State.shutTank (t : Nat) (s : State) : State := (s.commandValve (.tank t) .shut).releaseIfShut t

/-! ### Orders and queues (spec 05) -/

/-- A QUEUED order is eligible (spec 05 R81). -/
def State.eligible (s : State) (t : Nat) : Bool :=
  let tank := s.tank t
  let target := match s.order t with
    | some o => o.target
    | none => tank.current
  let stressed := match s.engine.live with
    | some r => stressHolds s.startUp.profile r t
    | none => false
  decide ((tank.status = .fresh ∨ tank.status = .overrange) ∧ target < tank.current ∧
    (s.valve (.tank t)).owner = none) && !stressed

/-- The tank of a QUEUED order stands at or below its target (spec 05 R83). -/
def State.metInQueue (s : State) (t : Nat) : Bool :=
  match s.order t with
  | some o => decide ((s.tank t).current ≤ o.target)
  | none => false

/-- What a scan finds from the head: the orders completed, the order taken, and the queue that is left. -/
def State.scanQueue (s : State) : List Nat → List Nat × Option Nat × List Nat
  | [] => ([], none, [])
  | t :: q =>
    if s.metInQueue t then
      let r := s.scanQueue q
      (t :: r.1, r.2.1, r.2.2)
    else if s.eligible t then ([], some t, q)
    else
      let r := s.scanQueue q
      (r.1, r.2.1, t :: r.2.2)

/-- An order completed: DONE with its completion cause. -/
def Order.complete (c : Completion) (o : Order) : Order :=
  { o with state := .done, completion := some c, holdCause := none }

/-- An order taken: ACTIVE, its hold cause absent. -/
def Order.take (o : Order) : Order := { o with state := .active, holdCause := none }

/-- A station's scan of its group's queue, whole (spec 05 R82, R83): completed orders become DONE MET and set the DONE
flag, and a taken order becomes the station's active order. -/
def State.scan (g : Nat) (s : State) : State :=
  let r := s.scanQueue (s.queue g)
  let s := r.1.foldl (fun s t => s.updOrder t (Order.complete .met)) s
  let s := s.setQueue g r.2.2
  let s := s.updStation g fun st => { st with doneFlag := st.doneFlag || !r.1.isEmpty, active := r.2.1 }
  match r.2.1 with
  | some t => s.updOrder t Order.take
  | none => s

/-- The station's active order returned to the head of its group's queue with a hold cause (spec 05 R84). -/
def State.returnOrder (g : Nat) (cause : HoldCause) (s : State) : State :=
  match (s.station g).active with
  | some t =>
    ((s.updOrder t ({ · with state := .queued, holdCause := some cause })).setQueue g (t :: s.queue g)).updStation g
      ({ · with active := none })
  | none => s

/-- The other permitted group of a tank in a queue, where its route lets its order move (spec 05 R85). -/
def State.otherGroup (s : State) (g t : Nat) : Option Nat :=
  match (s.tank t).route, (s.tank t).alternate with
  | .primaryThenAlternate, some a | .firstFree, some a =>
    some (if g = (s.tankData t).primary then a else (s.tankData t).primary)
  | _, _ => none

/-- One order moved to the tail of another group's queue. -/
def State.moveOrder (t h : Nat) (s : State) : State :=
  (s.setQueue h (s.queue h ++ [t])).updOrder t ({ · with group := h })

/-- The rerouting of a group's queue, whole (spec 05 R85). -/
def State.reroute (g : Nat) (s : State) : State :=
  let walk := s.queue g
  let kept := s.setQueue g (walk.filter fun t => (s.otherGroup g t).isNone)
  walk.foldl (fun s' t => match s.otherGroup g t with
    | some h => s'.moveOrder t h
    | none => s') kept

/-! ### Station transitions (spec 06 R103 to R109) -/

/-- A station in a state in which its order or its line is in work. -/
def StationState.working : StationState → Bool
  | .lineup | .priming | .discharge | .strip | .changeover | .stopping _ => true
  | .off | .tripped | .localControl => false

/-- A station in DISCHARGE or STRIP. -/
def StationState.pumping : StationState → Bool
  | .discharge | .strip => true
  | _ => false

/-- A tank joins the station's closing tanks. -/
def State.addClosing (g t : Nat) (s : State) : State :=
  s.updStation g fun st => { st with closing := st.closing ++ [t] }

/-- Entry into STOPPING in the RUNDOWN phase (R109). -/
def State.enterRundown (g : Nat) (s : State) : State :=
  (s.commandPump g .stop).updStation g fun st =>
    { st with
      state := .stopping .rundown, deadline := some (later s.clock st.rundown), lowSince := none, resuming := false }

/-- Every valve of the line stands confirmed SHUT. -/
def State.lineShut (s : State) (g : Nat) : Bool :=
  s.confirmedAt (.suction g) .shut && s.confirmedAt (.overboard g) .shut &&
    (s.station g).closing.all fun t => s.confirmedAt (.tank t) .shut

/-- A station in CLOSING whose line is shut enters OFF (R109). -/
def State.closingTest (g : Nat) (s : State) : State :=
  if (s.station g).state = .stopping .closing ∧ s.lineShut g = true then s.updStation g ({ · with state := .off })
  else s

/-- Entry into the CLOSING phase: SV, OV and every closing tank's valve commanded SHUT. At the resumption of command
after LOCAL the line valves' commands are sent even where unchanged (R112). -/
def State.enterClosing (g : Nat) (s : State) : State :=
  let shutLine (v : ValveId) (s' : State) : State :=
    if (s.station g).resuming then s'.sendValve v .shut else s'.commandValve v .shut
  let s' := s.updStation g fun st =>
    { st with state := .stopping .closing, deadline := none, lowSince := none, resuming := false }
  let s' := shutLine (.overboard g) (shutLine (.suction g) s')
  ((s.station g).closing.foldl (fun s t => s.shutTank t) s').closingTest g

/-- A station that takes an order enters LINEUP (R103). -/
def State.enterLineup (g t : Nat) (s : State) : State :=
  let s := s.updStation g ({ · with state := .lineup })
  (((s.commandValve (.suction g) .opened).commandValve (.overboard g) .opened).commandValve (.tank t) .opened).ownTank
    g t

/-- A station may look for an order: RUNNING, OFF, no closing tank (R103). -/
def State.mayLook (s : State) (g : Nat) : Bool :=
  decide (s.ballast.state = .running ∧ (s.station g).state = .off ∧ (s.station g).closing = [])

/-- An OFF station looks for an order (R103). -/
def State.look (g : Nat) (s : State) : State :=
  if s.mayLook g then
    let s' := s.scan g
    match (s'.station g).active with
    | some t => s'.enterLineup g t
    | none => s'
  else s

/-- A look would complete or take an order. -/
def State.lookActs (g : Nat) (s : State) : Bool :=
  s.mayLook g && decide ((s.scanQueue (s.queue g)).2.2 ≠ s.queue g)

/-- Entry into CHANGEOVER from DISCHARGE or STRIP, whole with its scan; `t` is the old tank (R108). -/
def State.enterChangeover (g t : Nat) (s : State) : State :=
  let s := (s.updStation g ({ · with active := none, lowSince := none })).addClosing g t
  if s.ballast.state = .running then
    let s' := s.scan g
    match (s'.station g).active with
    | some n =>
      let s' := ((s'.updStation g ({ · with state := .changeover })).commandValve (.tank n) .opened).ownTank g n
      if s'.confirmedAt (.tank n) .opened then (s'.station g).closing.foldl (fun s t => s.shutTank t) s' else s'
    | none => s'.enterRundown g
  else s.enterRundown g

/-- The active order completed with its cause (R107). -/
def State.completeOrder (g : Nat) (c : Completion) (s : State) : State :=
  match (s.station g).active with
  | some t =>
    ((s.updOrder t (Order.complete c)).updStation g ({ · with active := none, doneFlag := true })).enterChangeover g t
  | none => s

/-- The stress or stale interrupt (R113). -/
def State.interrupt (g : Nat) (cause : HoldCause) (s : State) : State :=
  match (s.station g).active with
  | some t => ((s.returnOrder g cause).updStation g ({ · with holdFlag := true })).enterChangeover g t
  | none => s

/-- The estimator and the dry-run watch begin anew on entry into DISCHARGE or STRIP (R101). -/
def State.restartWatch (g : Nat) (s : State) : State :=
  s.updStation g fun st =>
    { st with estimator := .closed, lowSince := if 0 < st.minRate then some s.clock else none }

/-- RUN REDUCED is commanded and the station enters STRIP (R106, R107). -/
def State.enterStrip (g : Nat) (s : State) : State :=
  ((s.commandPump g .runReduced).updStation g ({ · with state := .strip })).restartWatch g

/-- The tank of the active order stands at or below its target. -/
def State.targetMet (s : State) (t : Nat) : Bool := s.metInQueue t

/-- Some quantity at LIMIT in the set is worsened by discharging the tank. -/
def State.stressed (s : State) (set : Option ResultSet) (t : Nat) : Bool :=
  match set with
  | some r => stressInterrupts s.startUp.profile r t
  | none => false

/-- Entry into DISCHARGE with its four tests in order (R106). -/
def State.enterDischarge (g : Nat) (s : State) : State :=
  let s := (s.updStation g ({ · with state := .discharge, deadline := none })).restartWatch g
  match (s.station g).active with
  | some t =>
    if s.targetMet t then s.completeOrder g .met
    else if (s.tank t).status = .stale then s.interrupt g .stale
    else if s.stressed s.engine.live t then s.interrupt g .stress
    else if (s.tank t).strip = .below then s.enterStrip g
    else s
  | none => s

/-! ### Trips and local control (spec 06 R110 to R112) -/

/-- A trip, whole, from any state but TRIPPED and LOCAL (R110). -/
def State.trip (g : Nat) (cause : TripCause) (s : State) : State :=
  let st := s.station g
  let tanks := st.active.toList ++ st.closing
  let s := (s.updStation g ({ · with lastTrip := some cause })).commandPump g .stop
  let s := (s.commandValve (.suction g) .shut).commandValve (.overboard g) .shut
  let s := s.returnOrder g .trip
  let s := s.updStation g fun x =>
    { x with
      state := .tripped, closing := x.closing ++ st.active.toList, deadline := none, lowSince := none
      resuming := false, tripFlag := true }
  (tanks.foldl (fun s t => s.shutTank t) s).reroute g

/-- A valve timeout, a departure or a link loss on the valve's station: a working station trips, a TRIPPED one takes the
cause, another is not changed (R95, R96, R114). -/
def State.tripWorking (g : Nat) (cause : TripCause) (s : State) : State :=
  if (s.station g).state.working then s.trip g cause
  else if (s.station g).state = .tripped then s.updStation g ({ · with lastTrip := some cause })
  else s

/-- The tank valves that a station owns. -/
def State.ownedTanks (s : State) (g : Nat) : List Nat :=
  s.tankNumbers.filter fun t => decide ((s.valve (.tank t)).owner = some g)

/-- A station enters LOCAL (R112). -/
def State.enterLocal (g : Nat) (s : State) : State :=
  let owned := s.ownedTanks g
  let s := s.returnOrder g .localControl
  let s := owned.foldl (fun s t => s.updValve (.tank t) ({ · with owner := none, deadline := none })) s
  let s := (s.updValve (.suction g) ({ · with deadline := none })).updValve (.overboard g) ({ · with deadline := none })
  let s := s.updStation g fun x =>
    { x with
      state := .localControl, closing := [], deadline := none, lowSince := none, resuming := false
      localFlag := true }
  s.reroute g

/-- A station resumes command from LOCAL (R112, R92). -/
def State.leaveLocal (g : Nat) (s : State) : State :=
  let s := (s.sendPump g .stop).updStation g fun st =>
    { st with
      state := .stopping .rundown, deadline := some (later s.clock st.rundown), resuming := true, localFlag := true }
  if s.ballast.state = .halted then { s with ballast.state := .halting } else s

/-! ### Halt and retirement (spec 06 R92, R104 to R108, spec 05 R88) -/

/-- What a running station does once its order has gone: `t` is the order's tank (R104 to R108). -/
def State.orderGone (g t : Nat) (s : State) : State :=
  match (s.station g).state with
  | .lineup => ((s.updStation g ({ · with active := none })).addClosing g t).enterClosing g
  | .priming | .changeover => ((s.updStation g ({ · with active := none })).addClosing g t).enterRundown g
  | .discharge | .strip => s.enterChangeover g t
  | _ => s

/-- HALT reaches a station: its order is returned with HALT and it stops (R92). -/
def State.haltStation (g : Nat) (s : State) : State :=
  match (s.station g).state, (s.station g).active with
  | .lineup, some t => ((s.returnOrder g .halt).addClosing g t).enterClosing g
  | .priming, some t | .changeover, some t | .discharge, some t | .strip, some t =>
    ((s.returnOrder g .halt).addClosing g t).enterRundown g
  | _, _ => s

/-! ### Confirmed and departed valves (spec 06 R94, R96, R104, R108, R109) -/

/-- The three valves of a lineup stand confirmed OPEN. -/
def State.lineOpen (s : State) (g : Nat) : Bool :=
  s.confirmedAt (.suction g) .opened && s.confirmedAt (.overboard g) .opened &&
    (s.station g).active.any fun t => s.confirmedAt (.tank t) .opened

/-- A station in LINEUP whose line is open commands START and enters PRIMING (R104). -/
def State.lineupTest (g : Nat) (s : State) : State :=
  if (s.station g).state = .lineup ∧ s.lineOpen g = true then
    (s.commandPump g .runFull).updStation g fun st =>
      { st with state := .priming, deadline := some (later s.clock st.priming) }
  else s

/-- START or FULL may be issued: SV, OV and a tank valve the station owns are confirmed OPEN (R99). -/
def State.mayPump (s : State) (g : Nat) : Bool :=
  s.confirmedAt (.suction g) .opened && s.confirmedAt (.overboard g) .opened &&
    (s.ownedTanks g).any fun t => s.confirmedAt (.tank t) .opened

/-- The old tank valve of a changeover has been released: RUN FULL and DISCHARGE, or a trip where the pump may not run
(R108, R99). -/
def State.changeoverTest (g : Nat) (s : State) : State :=
  if (s.station g).state = .changeover ∧ (s.station g).closing = [] then
    if s.mayPump g then (s.commandPump g .runFull).enterDischarge g else s.trip g .valveLost
  else s

/-- The station of a valve: the owner of a tank valve, the group of a line valve (section 6.2). -/
def State.stationOf (s : State) : ValveId → Option Nat
  | .tank t => (s.valve (.tank t)).owner
  | .suction g => some g
  | .overboard g => some g

/-- A station answers a valve of its own that has been confirmed as commanded. -/
def State.valveConfirmed (v : ValveId) (s : State) : State :=
  match s.stationOf v with
  | none => s
  | some g =>
    match v with
    | .tank t =>
      if (s.valve v).commanded = .shut then ((s.releaseIfShut t).changeoverTest g).closingTest g
      else if (s.station g).state = .changeover ∧ (s.station g).active = some t then
        (s.station g).closing.foldl (fun s t => s.shutTank t) s
      else s.lineupTest g
    | _ => (s.lineupTest g).closingTest g

/-- The reported position of a command carried out. -/
def ValveCommand.reported : ValveCommand → ValveReported
  | .opened => .opened
  | .shut => .shut

/-- A report's position as the valve record holds it. -/
def PositionReport.reported : PositionReport → ValveReported
  | .shut => .shut
  | .opened => .opened
  | .moving => .moving
  | .fault => .fault

/-- A VALVE POSITION report recorded and answered (R94, R96). -/
def State.valveReport (v : ValveId) (p : ValveReported) (s : State) : State :=
  let x := s.valve v
  if p = x.commanded.reported then
    (s.updValve v ({ · with reported := p, confirmed := true, deadline := none })).valveConfirmed v
  else if x.confirmed then
    let s' := s.updValve v ({ · with reported := p, confirmed := false })
    match s'.stationOf v with
    | some g => s'.tripWorking g .valveLost
    | none => s'
  else s.updValve v ({ · with reported := p })

/-- A valve's travel timer expires (R95). -/
def State.travelTimeout (v : ValveId) (s : State) : State :=
  let s' := s.updValve v ({ · with reported := .fault, deadline := none })
  match s'.stationOf v with
  | some g => s'.tripWorking g .valveTimeout
  | none => s'

/-! ### Pump reports, deadlines and the dry-run watch (spec 06 R100, R101, R105, R109) -/

/-- A PUMP STATUS report as the station record holds it. -/
def PumpReport.reported : PumpReport → PumpReported
  | .stopped => .stopped
  | .running => .running
  | .overload => .overload

/-- A PUMP STATUS report recorded and answered (R100). -/
def State.pumpReport (g : Nat) (p : PumpReport) (s : State) : State :=
  let s := s.updStation g ({ · with pumpReported := PumpReport.reported p })
  match p, (s.station g).state with
  | .overload, .off => s.trip g .overload
  | .overload, _ => s.tripWorking g .overload
  | .stopped, .discharge | .stopped, .strip | .stopped, .changeover => s.trip g .pumpLost
  | .running, .off | .running, .lineup | .running, .stopping .closing => s.trip g .stopFail
  | _, _ => s

/-- The priming deadline is reached (R105). -/
def State.primingEnds (g : Nat) (s : State) : State :=
  let s := s.updStation g ({ · with deadline := none })
  if (s.station g).pumpReported = .running then s.enterDischarge g else s.trip g .startFail

/-- The rundown deadline is reached (R109). -/
def State.rundownEnds (g : Nat) (s : State) : State :=
  let s := s.updStation g ({ · with deadline := none })
  if (s.station g).pumpReported = .stopped then s.enterClosing g else s.trip g .stopFail

/-- The estimate is compared with the minimum rate (R101). -/
def State.watchRate (g : Nat) (s : State) : State :=
  s.updStation g fun st =>
    if st.minRate ≤ st.estimator.estimate then { st with lowSince := none }
    else { st with lowSince := some (st.lowSince.getD s.clock) }

/-- The dry-run condition holds (R101). -/
def State.runsDry (s : State) (g : Nat) : Bool :=
  let st := s.station g
  st.state.pumping && st.lowSince.any fun t => decide (st.dryRun ≤ elapsed t s.clock)

/-- The dry-run condition acts: a trip in DISCHARGE, a RESIDUAL completion in STRIP (R106, R107). -/
def State.dryRunActs (g : Nat) (s : State) : State :=
  if s.runsDry g then
    if (s.station g).state = .discharge then s.trip g .dryRun else s.completeOrder g .residual
  else s

/-! ### Changes handed on by other blocks (spec 01 R17, spec 02 R26) -/

/-- The stations whose active order is this tank's. -/
def State.runnersOf (s : State) (t : Nat) : List Nat :=
  s.groupNumbers.filter fun g => decide ((s.station g).active = some t)

/-- The mass of a good sounding feeds the estimator of a pumping station (R101). -/
def State.feedStation (g mass : Nat) (s : State) : State :=
  let st := s.station g
  if st.state.pumping then
    let s' := s.updStation g fun st =>
      { st with estimator := st.estimator.arrive true s.settings.rateWindow s.clock mass }
    if st.estimator.measures s.settings.rateWindow s.clock then s'.watchRate g else s'
  else s

/-- The completion check of a pumping station (R106). -/
def State.completionCheck (g t : Nat) (s : State) : State :=
  if (s.station g).state.pumping ∧ s.targetMet t = true then s.completeOrder g .met else s

/-- A good sounding handed to the stations that run its tank. -/
def State.ballastSounding (t : Nat) (s : State) : State :=
  (s.runnersOf t).foldl (fun s g => (s.feedStation g (s.tank t).current).completionCheck g t) s

/-- A mass put by the loading computer handed to the stations that run its tank. -/
def State.ballastPutMass (t : Nat) (s : State) : State :=
  (s.runnersOf t).foldl (fun s g => s.completionCheck g t) s

/-- A tank that became STALE handed to the stations that run it (R113). -/
def State.ballastStale (t : Nat) (s : State) : State :=
  (s.runnersOf t).foldl (fun s g => if (s.station g).state.pumping then s.interrupt g .stale else s) s

/-- A below-strip declaration handed to the stations that run the tank (R106). -/
def State.ballastBelow (t : Nat) (s : State) : State :=
  (s.runnersOf t).foldl (fun s g => if (s.station g).state = .discharge then s.enterStrip g else s) s

/-- A station in DISCHARGE or STRIP is interrupted by the set (R113). -/
def State.stressActs (set : ResultSet) (g : Nat) (s : State) : Bool :=
  (s.station g).state.pumping && (s.station g).active.any fun t => s.stressed (some set) t

/-- A live publication handed to every station (R113). -/
def State.ballastPublication (set : ResultSet) (s : State) : State :=
  unordered (fun g s => s.stressActs set g)
    (fun g s => if s.stressActs set g then s.interrupt g .stress else s) s.groupNumbers s

/-! ### After a step: HALTED, and the stations that look (spec 06 R92, R103) -/

/-- Every station is OFF, TRIPPED or LOCAL. -/
def State.allRest (s : State) : Bool := s.groupNumbers.all fun g => !(s.station g).state.working

/-- A HALTING sequencer becomes HALTED when every station rests. -/
def State.haltTest (s : State) : State :=
  if s.ballast.state = .halting ∧ s.allRest = true then { s with ballast.state := .halted } else s

/-- Between the two states an order joined the group's queue. -/
def joined (before after : State) (g : Nat) : Bool := (after.queue g).any fun t => decide (t ∉ before.queue g)

/-- Between the two states the ownership of some tank valve ended. -/
def ownershipEnded (before after : State) : Bool :=
  before.tankNumbers.any fun t =>
    ((before.valve (.tank t)).owner).isSome && ((after.valve (.tank t)).owner).isNone

/-- Between the two states the station entered OFF. -/
def enteredOff (before after : State) (g : Nat) : Bool :=
  decide ((before.station g).state ≠ .off ∧ (after.station g).state = .off)

/-- The end of a step of the Ballast Sequencer that began in `before`: the test for HALTED, then the looks of R103. `all`
is SET where the step is itself a cause for every OFF station: RUN, a live publication, a tank change. DESIGN CHOICE: the
looks come once the event has been answered for every station (notes/assumptions/29.md), which tells at a link loss only. -/
def State.settle (all : Bool) (s before : State) : State :=
  let s := s.haltTest
  let looks := s.groupNumbers.filter fun g =>
    all || joined before s g || ownershipEnded before s || enteredOff before s g
  unordered State.lookActs State.look looks s

/-- A change taken at once, or kept while PFAIL is asserted (R115). -/
def State.handBallast (change : KeptChange) (act : State → State) (s : State) : State :=
  if s.pfail then { s with ballast.kept := s.ballast.kept ++ [(s.clock, change)] }
  else (act s).settle true s

/-- What a kept change does when it is taken (R115). -/
def KeptChange.act : KeptChange → State → State
  | .publication r => State.ballastPublication r
  | .stale t => State.ballastStale t
  | .belowStrip t => State.ballastBelow t

/-! ### The end of PFAIL (spec 06 R115) -/

/-- What is taken at the deassertion: a valve's or a station's deadline, or a kept change. -/
inductive DeferredEvent where
  | valve (v : ValveId) | station (g : Nat) | change (c : KeptChange)
  deriving DecidableEq, Repr

/-- Every valve of the table. -/
def State.valves (s : State) : List ValveId :=
  s.tankNumbers.map .tank ++ s.groupNumbers.map .suction ++ s.groupNumbers.map .overboard

/-- A travel timer that has run out unconfirmed. -/
def State.travelExpired (s : State) (v : ValveId) : Bool :=
  expired (s.valve v).deadline s.clock && !(s.valve v).confirmed

/-- A priming or rundown timer that has run out. -/
def State.stateExpired (s : State) (g : Nat) : Bool := expired (s.station g).deadline s.clock

/-- A station's state deadline expires in the state it stands in. -/
def State.stateTimerEnds (g : Nat) (s : State) : State :=
  match (s.station g).state with
  | .priming => s.primingEnds g
  | .stopping .rundown => s.rundownEnds g
  | _ => s

/-- One deferred event taken; a deadline that an earlier event has replaced or removed does nothing. -/
def DeferredEvent.act (e : DeferredEvent) (s : State) : State :=
  match e with
  | .valve v => if s.travelExpired v then (s.travelTimeout v).settle false s else s
  | .station g => if s.stateExpired g then (s.stateTimerEnds g).settle false s else s
  | .change c => (c.act s).settle true s

/-- The deadlines that have passed, each with the seconds since it was reached. -/
def State.passedDeadlines (s : State) : List (Nat × DeferredEvent) :=
  (s.valves.filter s.travelExpired).map (fun v => (elapsed ((s.valve v).deadline.getD 0) s.clock, .valve v)) ++
    (s.groupNumbers.filter s.stateExpired).map
      (fun g => (elapsed ((s.station g).deadline.getD 0) s.clock, .station g))

/-- The deferred events in the order in which they arose: the longest ago first, and deadlines, which arise at the
tick, ahead of changes of the same second. -/
def State.deferred (s : State) (deadlines : List (Nat × DeferredEvent)) : List DeferredEvent :=
  let kept := s.ballast.kept.map fun (t, c) => (elapsed t s.clock, DeferredEvent.change c)
  ((deadlines ++ kept).insertionSort fun a b => b.1 ≤ a.1).map (·.2)

/-- At the deassertion the deadlines that passed and the changes kept are taken in the order in which they arose.
Deadlines of one second have no order among them, which is then a free choice (notes/assumptions/1.md). -/
def State.takeDeferred (s : State) : State :=
  let passed := s.passedDeadlines
  let free := passed.map (·.1) |>.Nodup
  let deadlines := if free then passed else permute passed.length (Config.interleaving s.draws) passed
  let events := s.deferred deadlines
  let s := { s with ballast.kept := [], draws := if free then s.draws else s.draws + 1 }
  events.foldl (fun s e => e.act s) s

end Sys2Proof.Machine
end

