-- ==== Sys2Proof/Machine/Flags.lean ====
section
/-! DEFINITION. Change flags: their kinds and codes, the flags that stand SET, ATTN, and CLEAR (spec 09 R148, R152 to
R155). -/

namespace Sys2Proof.Machine

/-- Change flag kinds (spec 09 Table 9.5). -/
inductive FlagKind where
  | stale | overrange | trip | localSwitch | done | hold | state | overrun | tallyFault | strength | berth
  | purgeDone | trialDone | profile
  deriving DecidableEq, Repr, Inhabited

/-- The tables of the ship link (spec 09 Table 9.2). -/
inductive Table where
  | hold | tank | item | pour | order | station | valve | channel | result | clearance | berth | settings
  | profile | trial | changes
  deriving DecidableEq, Repr, Inhabited

/-- A table's code: 1 to 15 in the order of Table 9.2 (spec 09 Table 9.10). -/
def Table.code : Table → Nat
  | .hold => 1
  | .tank => 2
  | .item => 3
  | .pour => 4
  | .order => 5
  | .station => 6
  | .valve => 7
  | .channel => 8
  | .result => 9
  | .clearance => 10
  | .berth => 11
  | .settings => 12
  | .profile => 13
  | .trial => 14
  | .changes => 15

/-- Every table in the order of Table 9.2. -/
def Table.all : List Table :=
  [.hold, .tank, .item, .pour, .order, .station, .valve, .channel, .result, .clearance, .berth, .settings,
    .profile, .trial, .changes]

/-- The table of a code. -/
def Table.ofCode (n : Nat) : Option Table := Table.all.find? fun t => decide (t.code = n)

/-- A kind's code (spec 09 Table 9.5). -/
def FlagKind.code : FlagKind → Nat
  | .stale => 0
  | .overrange => 1
  | .trip => 2
  | .localSwitch => 3
  | .done => 4
  | .hold => 5
  | .state => 6
  | .overrun => 7
  | .tallyFault => 8
  | .strength => 9
  | .berth => 10
  | .purgeDone => 11
  | .trialDone => 12
  | .profile => 13

/-- Every kind in the order of the codes. -/
def FlagKind.all : List FlagKind :=
  [.stale, .overrange, .trip, .localSwitch, .done, .hold, .state, .overrun, .tallyFault, .strength, .berth,
    .purgeDone, .trialDone, .profile]

/-- The kind of a code. -/
def FlagKind.ofCode (n : Nat) : Option FlagKind := FlagKind.all.find? fun k => decide (k.code = n)

/-- The kinds that a table's records carry (spec 09 Table 9.2, its CLEAR column). -/
def Table.flags : Table → List FlagKind
  | .tank => [.stale, .overrange]
  | .station => [.trip, .localSwitch, .done, .hold]
  | .channel => [.state, .overrun, .tallyFault]
  | .result => [.strength]
  | .berth => [.berth]
  | .profile => [.profile, .purgeDone]
  | .trial => [.trialDone]
  | _ => []

/-! ### The flags that stand SET -/

/-- A record that has at least one flag SET, with its kinds (spec 09 R153). -/
structure FlagEntry where
  table : Table
  key : Nat
  kinds : List FlagKind
  deriving DecidableEq, Repr, Inhabited

/-- The kinds whose flag is SET, of kinds paired with their flags. -/
def kindsSet (l : List (FlagKind × Bool)) : List FlagKind := (l.filter (·.2)).map (·.1)

/-- The kinds SET on a tank. -/
def Tank.flags (t : Tank) : List FlagKind := kindsSet [(.stale, t.staleFlag), (.overrange, t.overrangeFlag)]

/-- The kinds SET on a station. -/
def Station.flags (st : Station) : List FlagKind :=
  kindsSet [(.trip, st.tripFlag), (.localSwitch, st.localFlag), (.done, st.doneFlag), (.hold, st.holdFlag)]

/-- The kinds SET on a channel. -/
def Channel.flags (c : Channel) : List FlagKind :=
  kindsSet [(.state, c.stateFlag), (.overrun, c.overrunFlag), (.tallyFault, c.tallyFaultFlag)]

/-- The records that live with the profile, in table and key order. -/
def State.profileEntries (s : State) : List FlagEntry :=
  (s.tankNumbers.map fun t => ⟨.tank, t, (s.tank t).flags⟩) ++
    s.groupNumbers.map fun g => ⟨.station, g, (s.station g).flags⟩

/-- The two channels. -/
def State.channelEntries (s : State) : List FlagEntry :=
  [⟨.channel, 1, (s.channel .l1).flags⟩, ⟨.channel, 2, (s.channel .l2).flags⟩]

/-- The PROFILE record. -/
def State.profileEntry (s : State) : FlagEntry :=
  ⟨.profile, 0, kindsSet [(.purgeDone, s.startUp.purgeDoneFlag), (.profile, s.startUp.profileFlag)]⟩

/-- Every record that exists and carries flags, ordered by table and key (spec 09 R153, R155, spec 11 R165). -/
def State.flagRecords (s : State) : List FlagEntry :=
  if s.powered then
    match s.startUp.phase with
    | .reset => []
    | .loading => [s.profileEntry]
    | .profileFault => s.channelEntries ++ [s.profileEntry]
    | .ready =>
      s.profileEntries ++ s.channelEntries ++
        [⟨.result, 0, kindsSet [(.strength, s.engine.strengthFlag)]⟩,
         ⟨.berth, 0, kindsSet [(.berth, s.berth.flag)]⟩, s.profileEntry,
         ⟨.trial, 0, kindsSet [(.trialDone, s.engine.trialDone)]⟩]
  else []

/-- The records with at least one flag SET. -/
def State.flagEntries (s : State) : List FlagEntry := s.flagRecords.filter fun e => !e.kinds.isEmpty

/-- The kind is in the change mask (spec 09 R154). -/
def State.masked (s : State) (k : FlagKind) : Bool := s.settings.mask.getLsbD k.code

/-- The number of unmasked kinds SET across all records (spec 09 R153). -/
def State.unmaskedCount (s : State) : Nat :=
  (s.flagEntries.map fun e => (e.kinds.filter fun k => !s.masked k).length).sum

/-- ATTN is active exactly when at least one unmasked change flag is SET (spec 09 R155). -/
def State.attn (s : State) : Bool := decide (0 < s.unmaskedCount)

/-! ### CLEAR (spec 09 R148) -/

/-- One flag of a record made CLEAR. -/
def State.clearFlag (t : Table) (key : Nat) (k : FlagKind) (s : State) : State :=
  match t, k with
  | .tank, .stale => s.updTank key ({ · with staleFlag := false })
  | .tank, .overrange => s.updTank key ({ · with overrangeFlag := false })
  | .station, .trip => s.updStation key ({ · with tripFlag := false })
  | .station, .localSwitch => s.updStation key ({ · with localFlag := false })
  | .station, .done => s.updStation key ({ · with doneFlag := false })
  | .station, .hold => s.updStation key ({ · with holdFlag := false })
  | .channel, .state => s.updChannel (if key = 1 then .l1 else .l2) ({ · with stateFlag := false })
  | .channel, .overrun => s.updChannel (if key = 1 then .l1 else .l2) ({ · with overrunFlag := false })
  | .channel, .tallyFault => s.updChannel (if key = 1 then .l1 else .l2) ({ · with tallyFaultFlag := false })
  | .result, .strength => { s with engine.strengthFlag := false }
  | .berth, .berth => { s with berth.flag := false }
  | .profile, .purgeDone => { s with startUp.purgeDoneFlag := false }
  | .profile, .profile => { s with startUp.profileFlag := false }
  | .trial, .trialDone => { s with engine.trialDone := false }
  | _, _ => s

/-- The flags named by a list of kind codes, where the table's records carry them all. -/
def Table.namedFlags (t : Table) (codes : List Octet) : Option (List FlagKind) :=
  codes.mapM fun c => (FlagKind.ofCode c.toNat).bind fun k => if k ∈ t.flags then some k else none

/-- The named flags of one record made CLEAR. -/
def State.clearFlags (t : Table) (key : Nat) (ks : List FlagKind) (s : State) : State :=
  ks.foldl (fun s k => s.clearFlag t key k) s

end Sys2Proof.Machine
end

