-- ==== Sys2Proof/Machine/Operands.lean ====
section
/-! DEFINITION. Operand forms of the ship link: keys, field identifiers, values as integers and named values as places,
and the reading of the pairs of a Put (spec 09 R147, R149, R156). -/

namespace Sys2Proof.Machine

/-! ### Identifiers and values (spec 09 R156) -/

/-- The field identifier of a row and a place in the row. -/
def fieldId (row place : Nat) : BitVec 16 := BitVec.ofNat 16 (256 * row + place)

/-- The row of an identifier. -/
def rowOf (i : BitVec 16) : Nat := i.toNat / 256

/-- The place of an identifier in its row. -/
def placeOf (i : BitVec 16) : Nat := i.toNat % 256

/-- A pair that carries an integer. -/
def pairOf (row place : Nat) (v : Int) : Pair := ⟨fieldId row place, BitVec.ofInt 32 v⟩

/-- A number, −1 where it is absent. -/
def optInt (n : Option Nat) : Int := n.elim (-1) fun n => (n : Int)

/-- A flag: CLEAR 0, SET 1. -/
def flagInt (b : Bool) : Int := if b then 1 else 0

/-- A Time Base second, −1 where it is absent. -/
def secondValue (s : Option Second) : BitVec 32 := s.getD (-1)

/-- The place of a value among the named values of its field, counting from 0. -/
def placeAmong {α : Type} [BEq α] (values : List α) (v : α) : Int := values.idxOf v

/-- The named value at a place. -/
def namedAt {α : Type} (values : List α) (v : Int) : Option α :=
  if v < 0 then none else values[v.toNat]?

/-! ### Named values in the order of their Values columns

DEDUCED: where a column prints 'absent' first, it is carried as −1 and takes no place, so the first named value is 0
(notes/assumptions/12.md). -/

def loaders : List Loader := [.l1, .l2]
def pourLoaders : List PourLoader := [.one .l1, .one .l2, .either]
def pourStates : List PourState := [.planned, .active, .interrupted, .done]
def routeModes : List RouteMode := [.primary, .alternate, .primaryThenAlternate, .firstFree]
def soundingForms : List SoundingForm := [.level, .ullage]
def soundingStatuses : List SoundingStatus := [.fresh, .stale, .overrange, .manual]
def orderStates : List OrderState := [.queued, .active, .done]
def holdCauses : List HoldCause := [.trip, .halt, .localControl, .stale, .stress, .warmStart]
def completions : List Completion := [.met, .residual]
def noYes : List Bool := [false, true]
def sequencerStates : List SequencerState := [.halted, .running, .halting]
def pumpCommands : List PumpCommand := [.stop, .runFull, .runReduced]
def pumpReports : List PumpReported := [.unknown, .stopped, .running, .overload]
def switchPositions : List SwitchPosition := [.remote, .localControl]
def tripCauses : List TripCause :=
  [.valveTimeout, .valveLost, .startFail, .stopFail, .pumpLost, .overload, .dryRun, .linkLost]
def valveCommands : List ValveCommand := [.opened, .shut]
def valveReports : List ValveReported := [.shut, .opened, .moving, .fault, .unknown]
def lineStates : List LineState := [.pour, .reduce, .complete, .forbid]
def channelCauses : List ChannelCause :=
  [.unreleased, .profileFault, .strength, .gated, .tallyTimeout, .noCurrent, .planMet, .pace, .margin, .caution]
def outputCauses : List OutputCause := .forced :: channelCauses.map .derived
def forcedLevels : List ForcedLevel := [.none, .reduce, .complete, .forbid]
def timeoutActions : List TimeoutAction := [.reduce, .forbid]
def limitSets : List LimitSet := [.harbour, .sea]
def statuses : List Status := [.normal, .caution, .limit]
def quantityKinds : List QuantityKind := [.sf, .bm, .trim, .fore, .aft]
def causeKinds : List CauseKind :=
  [.sf, .bm, .trim, .fore, .aft, .hold, .plan, .gated, .noResult, .notCurrent]
def berthSources : List BerthSource := [.profile, .terminal, .ship]
def locks : List Lock := [.attended, .automatic]
def startOutcomes : List StartOutcome := [.warm, .cold]
def findings : List Finding := [.noImage, .check, .count, .range]
def profilePhases : List Phase := [.loading, .ready, .profileFault]

/-- A station state's place: STOPPING whatever its phase (spec 06 Table 6.3). -/
def StationState.place : StationState → Int
  | .off => 0
  | .lineup => 1
  | .priming => 2
  | .discharge => 3
  | .strip => 4
  | .changeover => 5
  | .stopping _ => 6
  | .tripped => 7
  | .localControl => 8

/-- The stopping phase's place; present in STOPPING only. -/
def StationState.phasePlace : StationState → Int
  | .stopping .rundown => 0
  | .stopping .closing => 1
  | _ => -1

/-- A strip state's place (spec 01 Table 1.7). -/
def StripState.place : StripState → Int
  | .above => 0
  | .settling _ => 1
  | .below => 2

/-- The settle start, present in SETTLING only. -/
def StripState.start : StripState → Option Second
  | .settling t => some t
  | _ => none

/-- A side's place among the sides of its quantity, in the order of spec 03 Table 3.2. DESIGN CHOICE: so is the side of the
worst quantity, for which spec 02 Table 2.8 lists no values (notes/assumptions/12.md). -/
def Side.place : Side → Int
  | .positive | .hog | .stern | .deep => 0
  | .negative | .sag | .head => 1

/-- The place of a named value that may be absent. -/
def optPlace {α : Type} [BEq α] (values : List α) (v : Option α) : Int := v.elim (-1) (placeAmong values)

/-! ### Keys (spec 09 Table 9.10) -/

/-- The valve of a key: TV n as n, SV n as 32 + n, OV n as 40 + n. -/
def valveOfKey (k : Nat) : Option ValveId :=
  if 1 ≤ k ∧ k ≤ 24 then some (.tank k)
  else if 33 ≤ k ∧ k ≤ 36 then some (.suction (k - 32))
  else if 41 ≤ k ∧ k ≤ 44 then some (.overboard (k - 40))
  else none

/-- The key of a valve. -/
def ValveId.key : ValveId → Nat
  | .tank n => n
  | .suction n => 32 + n
  | .overboard n => 40 + n

/-- The loader of a key or number. -/
def loaderOfKey (k : Nat) : Option Loader := if k = 1 then some .l1 else if k = 2 then some .l2 else none

/-- The number of a loader. -/
def Loader.number : Loader → Nat
  | .l1 => 1
  | .l2 => 2

/-- The channels that RELEASE and FORCE name: 1 L1, 2 L2, 3 BOTH (spec 09 Table 9.3). -/
def channelsOfKey (k : Nat) : Option (List Loader) :=
  if k = 1 then some [.l1] else if k = 2 then some [.l2] else if k = 3 then some [.l1, .l2] else none

/-! ### The pairs of a Put (spec 09 R147) -/

/-- The value that an identifier takes: that of the last pair that names it. -/
def valueOf (ps : List Pair) (i : BitVec 16) : Option (BitVec 32) :=
  ps.foldl (fun acc p => if p.ident = i then some p.value else acc) none

/-- The integer that a field of a row takes. -/
def intAt (ps : List Pair) (row place : Nat) : Option Int := (valueOf ps (fieldId row place)).map (·.toInt)

/-- The identifiers named, each once, in the order of their first naming. -/
def namedOnce : List Pair → List (BitVec 16)
  | [] => []
  | p :: ps => p.ident :: (namedOnce ps).filter (· ≠ p.ident)

/-- The pairs as they will have been applied: each field named once, with its latest value. -/
def effective (ps : List Pair) : List Pair := (namedOnce ps).filterMap fun i => (valueOf ps i).map (⟨i, ·⟩)

/-- A check of a Put: the pairs it fails on, and whether it fails although no pair does (a field that is not named, a
list that is full). -/
structure PutCheck where
  status : ReplyStatus
  fails : Pair → Bool
  whole : Bool

/-- The first check that some pair fails, with its first failing pair. -/
def firstFailure (ps : List Pair) : List PutCheck → Option (ReplyStatus × List Pair)
  | [] => none
  | c :: cs =>
    match ps.find? c.fails with
    | some p => some (c.status, [p])
    | none => if c.whole then some (c.status, []) else firstFailure ps cs

/-- The value is a whole number in `lo..hi`. -/
def inRange (lo hi v : Int) : Bool := decide (lo ≤ v ∧ v ≤ hi)

/-- A Put carries 1 to 16 pairs. -/
def countLegal (ps : List Pair) : Bool := decide (1 ≤ ps.length ∧ ps.length ≤ 16)

/-- The record's fields as pairs, cut down to the fields named and in the order named: the reply of a taken Put. -/
def storedPairs (ps record : List Pair) : List Pair :=
  (namedOnce ps).filterMap fun i => record.find? (·.ident = i)

end Sys2Proof.Machine
end

