-- ==== Sys2Proof/Machine/Frames.lean ====
section
/-! DEFINITION. The frames that the part sends, octet by octet (spec 09 Tables 9.8 to 9.13, spec 08 Tables 8.4 to
8.6). -/

namespace Sys2Proof.Machine

/-! ### Codes -/

/-- Reply status codes (spec 09 Table 9.10). -/
def ReplyStatus.code : ReplyStatus → Nat
  | .done => 0
  | .accepted => 1
  | .noRecord => 2
  | .badField => 3
  | .badValue => 4
  | .state => 5
  | .busy => 6
  | .full => 7

/-- Inbound notice kinds (spec 09 Table 9.11). -/
def NoticeKind.code : NoticeKind → Nat
  | .pourStart => 1
  | .tally => 2
  | .pourEnd => 3
  | .berth => 4

/-- Refusal reasons in the order of spec 04 Table 4.5 from 0, PROFILE FAULT 10 (spec 09 Table 9.12). -/
def Reason.code : Reason → Nat
  | .noPour => 0
  | .loaderBusy => 1
  | .notNext => 2
  | .holdBusy => 3
  | .gated => 4
  | .unreleased => 5
  | .noClearance => 6
  | .regression => 7
  | .busy => 8
  | .starting => 9
  | .profileFault => 10

/-! ### Frames -/

/-- A frame: the start octet, the octets that the check value covers, and the check value (spec 09 R156). -/
def framed (start : Octet) (body : List Octet) : List Octet := start :: body ++ octets16 (crc16 body)

/-- A value of the links: a 32-bit two's complement integer. -/
def valueOctets (v : Int) : List Octet := octets32 (BitVec.ofInt 32 v)

/-- A field–value pair. -/
def pairOctets (p : Pair) : List Octet := octets16 p.ident ++ octets32 p.value

/-- The payload of a reply: a pair count of two octets and the pairs; nothing at all where the reply carries none
(spec 09 R143; DEDUCED, notes/assumptions/14.md). -/
def payloadOctets (ps : List Pair) : List Octet :=
  if ps.isEmpty then [] else octets16 (BitVec.ofNat 16 ps.length) ++ ps.flatMap pairOctets

/-- A ship link reply frame (spec 09 Table 9.9). -/
def Reply.octets (r : Reply) : List Octet :=
  let payload := payloadOctets r.payload
  framed 0x5B#8
    (octets16 (BitVec.ofNat 16 (6 + payload.length)) ++
      [r.head.tag, r.kind, BitVec.ofNat 8 r.status.code, r.head.table] ++ octets16 r.head.key ++ payload)

/-- A terminal link frame (spec 09 Table 9.11): kind, loader, sequence and payload values. -/
def terminalOctets (kind loader : Nat) (sequence : BitVec 16) (values : List Int) : List Octet :=
  framed 0x6C#8
    ([BitVec.ofNat 8 (4 + 4 * values.length), BitVec.ofNat 8 kind, BitVec.ofNat 8 loader] ++ octets16 sequence ++
      values.flatMap valueOctets)

/-- The loader field: 0 where the frame names none. -/
def loaderField (l : Option Loader) : Nat := l.elim 0 Loader.number

/-- The kind and station of a worst quantity, absent with the set. -/
def worstKind (f : Option DraftFigures) : Int := optPlace quantityKinds (f.map (·.worst.kind))

/-- An outbound terminal frame (spec 09 Table 9.12). -/
def TerminalFrame.octets : TerminalFrame → List Octet
  | .reply r =>
    terminalOctets 9 (loaderField r.loader) (r.sequence.getD 0)
      [r.kind.code, flagInt r.refused.isSome, optInt (r.refused.map Reason.code)]
  | .clearance r =>
    terminalOctets 10 (Loader.number r.loader) (BitVec.ofNat 16 (r.sequence.getD 0))
      [optInt r.hold, placeAmong lineStates r.output, optPlace outputCauses r.outputCause,
        optPlace outputCauses r.lastForbid, r.clearance, r.timeToLimit, r.generation]
  | .draft r =>
    terminalOctets 11 0 0
      [r.generation, optInt (r.figures.map (·.fore)), optInt (r.figures.map (·.aft)), optInt (r.figures.map (·.mean)),
        r.figures.elim (-1) (·.trim), optInt (r.figures.map (·.displacement)), r.maxDraft,
        placeAmong berthSources r.source, optInt (r.figures.map (·.worst.ratio)), worstKind r.figures,
        optInt (r.figures.bind (·.worst.station))]
  | .summary r =>
    terminalOctets 12 (Loader.number r.loader) (BitVec.ofNat 16 r.noted.sequence)
      [r.noted.hold, r.noted.final, r.massAfter]

/-- A field link frame of kind, identifier and value, qualifier 0 (spec 09 Table 9.13). -/
def fieldOctets (kind ident : Nat) (value : Nat) : List Octet :=
  framed 0x3C#8
    ([5#8, BitVec.ofNat 8 kind, BitVec.ofNat 8 ident, 0#8] ++ octets16 (BitVec.ofNat 16 value))

/-- A valve or pump command on the field link (spec 09 Table 9.13). -/
def FieldCommand.octets : FieldCommand → List Octet
  | .valve v p => fieldOctets 1 (ValveId.key v) (match p with | .shut => 0 | .opened => 1)
  | .pump g o => fieldOctets 2 g (match o with | .stop => 0 | .start => 1 | .reduced => 2 | .full => 3)

/-! ### What each link carries -/

/-- The frame that the ship link carries outbound. -/
def State.shipOctets (s : State) : Option (List Octet) := s.ship.sending.map Reply.octets

/-- The frame that the terminal link carries outbound. -/
def State.terminalOctets (s : State) : Option (List Octet) := s.terminal.sending.map TerminalFrame.octets

/-- The frame that the field link carries outbound. -/
def State.fieldOctets (s : State) : Option (List Octet) := s.field.sending.map FieldCommand.octets

end Sys2Proof.Machine
end

