-- ==== Sys2Proof/Machine/Records.lean ====
section
/-! DEFINITION. The records as a LOOK returns them, field by field, and which records exist (spec 09 R145, R146, R153,
spec 02 R37, spec 03 R55, spec 10 R161). Identifiers and places follow R156; notes/assumptions/12.md says where the
manual leaves them open. -/

namespace Sys2Proof.Machine

/-! ### Which records exist -/

/-- The sequence of a key, where the list holds it. -/
def State.hasPour (s : State) (n : Nat) : Bool := s.ready && (s.pour n).isSome

/-- The tank has an order. -/
def State.hasOrder (s : State) (t : Nat) : Bool := s.hasTank t && (s.order t).isSome

/-- The key names a part of the result set: 0, a station, TRIM 100, FORE 101 or AFT 102. -/
def State.hasResult (s : State) (k : Nat) : Bool :=
  s.ready && decide (k = 0 ∨ (1 ≤ k ∧ k ≤ s.counts.stations) ∨ k = 100 ∨ k = 101 ∨ k = 102)

/-- The records that a table has (spec 09 R145 check 4, spec 11 R165). -/
def State.recordExists (s : State) (t : Table) (k : Nat) : Bool :=
  match t with
  | .hold => s.hasHold k
  | .tank => s.hasTank k
  | .item => s.hasItem k
  | .pour => s.hasPour k
  | .order => s.hasOrder k
  | .station => s.hasGroup k
  | .valve => (valveOfKey k).any s.hasValve
  | .channel => s.hasChannels && (loaderOfKey k).isSome
  | .result => s.hasResult k
  | .clearance => s.hasHold k
  | .berth => s.ready && decide (k = 0)
  | .settings => decide (k = 0)
  | .profile => decide (k = 0)
  | .trial => s.ready && decide (k = 0)
  | .changes => decide (k = 0)

/-- The records that a PUT may name: a POUR and an ORDER may be created by it. -/
def State.putExists (s : State) (t : Table) (k : Nat) : Bool :=
  match t with
  | .pour => s.ready && decide (1 ≤ k ∧ k ≤ 999)
  | .order => s.hasTank k
  | t => s.recordExists t k

/-! ### Compartments (spec 01 Tables 1.1 to 1.3) -/

/-- A HOLD record. -/
def holdRecord (d : HoldData) (h : Hold) : List Pair :=
  [pairOf 1 0 d.spanAft, pairOf 2 0 d.spanFore, pairOf 3 0 d.maxMass, pairOf 4 0 h.initial, pairOf 5 0 h.current,
    pairOf 6 0 (optInt h.active), pairOf 7 0 (flagInt h.saturated)]

/-- An ITEM record. -/
def itemRecord (m : Nat) : List Pair := [pairOf 1 0 m]

/-- A sounding table: element i, level then volume. -/
def tableRow (bs : List Breakpoint) : List Pair :=
  bs.zipIdx.flatMap fun (b, i) => [pairOf 9 (2 * i) b.level, pairOf 9 (2 * i + 1) b.volume]

/-- The datum depth of a tank: present for ULLAGE only (spec 01 Table 1.3). -/
def datumShown (d : TankData) : Option Nat := if d.form = .ullage then d.datum else none

/-- A TANK record. -/
def tankRecord (n : Nat) (d : TankData) (t : Tank) (order : Option Order) : List Pair :=
  [pairOf 1 0 d.spanAft, pairOf 1 1 d.spanFore, pairOf 2 0 d.capacity, pairOf 3 0 t.stripMass, pairOf 4 0 d.primary,
    pairOf 5 0 (optInt t.alternate), pairOf 6 0 (placeAmong routeModes t.route),
    pairOf 7 0 (placeAmong soundingForms d.form), pairOf 8 0 (optInt (datumShown d))] ++
  tableRow d.breakpoints ++
  [pairOf 10 0 t.density, pairOf 11 0 t.current, pairOf 12 0 (optInt t.lastLevel), pairOf 13 0 t.age,
    pairOf 14 0 (placeAmong soundingStatuses t.status), pairOf 15 0 t.strip.place,
    ⟨fieldId 16 0, secondValue t.strip.start⟩, pairOf 17 0 (if order.isSome then (n : Int) else -1),
    pairOf 18 0 (flagInt t.staleFlag), pairOf 18 1 (flagInt t.overrangeFlag)]

/-! ### Pours (spec 04 Table 4.1, spec 03 Table 3.1) -/

/-- A cause's kind, station, side and joint marker from a place on; the joint marker stands only for the kinds that
carry it. -/
def causePairs (row place : Nat) (c : Cause) : List Pair :=
  [pairOf row place (placeAmong causeKinds c.kind), pairOf row (place + 1) (optInt c.station),
    pairOf row (place + 2) (c.side.elim (-1) Side.place),
    pairOf row (place + 3)
      (match c.kind with
      | .sf | .bm | .trim | .fore | .aft => flagInt c.joint
      | _ => -1)]

/-- A gate slot: tank, then maximum mass. -/
def gatePairs (slot : Nat) (g : Option Gate) : List Pair :=
  [pairOf 6 (2 * slot) (optInt (g.map (·.tank))), pairOf 6 (2 * slot + 1) (optInt (g.map (·.maxMass)))]

/-- A POUR record. -/
def pourRecord (p : Pour) : List Pair :=
  [pairOf 1 0 p.sequence, pairOf 2 0 p.hold, pairOf 3 0 (placeAmong pourLoaders p.loader), pairOf 4 0 p.planned,
    pairOf 5 0 p.tallied] ++
  gatePairs 0 p.gate1 ++ gatePairs 1 p.gate2 ++ gatePairs 2 p.gate3 ++ gatePairs 3 p.gate4 ++
  [pairOf 7 0 (placeAmong pourStates p.state), pairOf 8 0 p.declaredRate, pairOf 9 0 p.strengthRoom,
    pairOf 9 1 p.clearance, pairOf 9 2 p.timeToLimit, pairOf 9 3 (placeAmong causeKinds p.cause.kind),
    pairOf 9 4 p.basis] ++
  ((causePairs 9 4 p.cause).drop 1) ++ [pairOf 10 0 (flagInt p.overrunReported)]

/-! ### Orders, stations and valves (spec 05 Table 5.1, spec 06 Tables 6.2 and 6.3) -/

/-- The place of a tank in its group's queue, 1 being the head; present while QUEUED. -/
def State.queuePosition (s : State) (t : Nat) (o : Order) : Int :=
  if o.state = .queued ∧ t ∈ s.queue o.group then ((s.queue o.group).idxOf t : Nat) + 1 else -1

/-- An ORDER record. -/
def State.orderRecord (s : State) (t : Nat) (o : Order) : List Pair :=
  [pairOf 1 0 t, pairOf 2 0 o.target, pairOf 3 0 o.group, pairOf 4 0 (placeAmong orderStates o.state),
    pairOf 5 0 (s.queuePosition t o), pairOf 6 0 (optPlace holdCauses o.holdCause),
    pairOf 7 0 (optPlace completions o.completion), pairOf 8 0 (placeAmong noYes o.front)]

/-- The rate override when above 0, else the estimate (spec 06 R101). -/
def Station.workingRate (st : Station) : Nat := if 0 < st.override then st.override else st.estimator.estimate

/-- The time to target, present while the station has an active order (spec 06 R101). -/
def State.timeToTarget (s : State) (g : Nat) : Option Nat :=
  (s.station g).active.map fun t =>
    let rate := (s.station g).workingRate
    if rate = 0 then 65535
    else min 65535 (((s.tank t).current - ((s.order t).map (·.target)).getD 0) * 360 / rate)

/-- A STATION record, with the sequencer state as identifier 0. -/
def State.stationRecord (s : State) (g : Nat) : List Pair :=
  let st := s.station g
  [pairOf 0 0 (placeAmong sequencerStates s.ballast.state), pairOf 1 0 st.state.place,
    pairOf 2 0 st.state.phasePlace, pairOf 3 0 (optInt st.active)] ++
  (st.closing.zipIdx.map fun (t, i) => pairOf 4 (2 * i) t) ++
  [pairOf 5 0 (placeAmong pumpCommands st.pumpCommanded), pairOf 6 0 (placeAmong pumpReports st.pumpReported),
    pairOf 7 0 (placeAmong switchPositions st.switch), ⟨fieldId 8 0, secondValue st.deadline⟩,
    pairOf 9 0 (optPlace tripCauses st.lastTrip), pairOf 10 0 st.priming, pairOf 11 0 st.rundown,
    pairOf 12 0 st.dryRun, pairOf 13 0 st.minRate, pairOf 14 0 st.override, pairOf 15 0 st.estimator.estimate,
    ⟨fieldId 16 0, secondValue st.lowSince⟩, pairOf 17 0 st.workingRate, pairOf 18 0 (optInt (s.timeToTarget g)),
    pairOf 19 0 (flagInt st.tripFlag), pairOf 19 1 (flagInt st.localFlag), pairOf 19 2 (flagInt st.doneFlag),
    pairOf 19 3 (flagInt st.holdFlag)]

/-- A VALVE record; only a tank valve has an owning station field. -/
def valveRecord (v : ValveId) (x : Valve) : List Pair :=
  [pairOf 1 0 (placeAmong valveCommands x.commanded), pairOf 2 0 (placeAmong valveReports x.reported),
    pairOf 3 0 (flagInt x.confirmed), ⟨fieldId 4 0, secondValue x.deadline⟩] ++
  match v with
  | .tank _ => [pairOf 5 0 (optInt x.owner)]
  | _ => []

/-! ### Channels (spec 07 Table 7.1) -/

/-- A CHANNEL record. -/
def channelRecord (l : Loader) (c : Channel) : List Pair :=
  [pairOf 1 0 (placeAmong loaders l), pairOf 2 0 (optInt c.currentPour),
    pairOf 3 0 (placeAmong lineStates c.computed), pairOf 4 0 (optPlace channelCauses c.cause),
    pairOf 5 0 (placeAmong forcedLevels c.forced), pairOf 6 0 (placeAmong lineStates c.output),
    pairOf 7 0 (optPlace outputCauses c.outputCause), pairOf 8 0 (optPlace outputCauses c.lastForbid),
    pairOf 9 0 (flagInt c.released), ⟨fieldId 10 0, secondValue c.deadline⟩, pairOf 11 0 (flagInt c.timedOut),
    pairOf 12 0 (placeAmong timeoutActions c.action), pairOf 13 0 (flagInt c.stateFlag),
    pairOf 13 1 (flagInt c.overrunFlag), pairOf 13 2 (flagInt c.tallyFaultFlag)]

/-! ### Results (spec 02 Table 2.8, R37) -/

/-- A quantity's value, ratio, status and saturation flag from a place on. -/
def quantityPairs (row place : Nat) (q : Quantity) : List Pair :=
  [pairOf row place q.value, pairOf row (place + 1) q.ratio, pairOf row (place + 2) (placeAmong statuses q.status),
    pairOf row (place + 3) (flagInt q.saturated)]

/-- The worst quantity: kind, station, ratio, status, side. -/
def worstPairs (row place : Nat) (w : Worst) : List Pair :=
  [pairOf row place (placeAmong quantityKinds w.kind), pairOf row (place + 1) (optInt w.station),
    pairOf row (place + 2) w.ratio, pairOf row (place + 3) (placeAmong statuses w.status),
    pairOf row (place + 4) w.side.place]

/-- A record's fields with every value absent. -/
def absentPairs (ps : List Pair) : List Pair := ps.map fun p => { p with value := -1 }

/-- The header of the live set. -/
def headerPairs (r : ResultSet) (flag : Bool) : List Pair :=
  [pairOf 1 0 r.generation, pairOf 2 0 (placeAmong limitSets r.limitSet), pairOf 3 0 r.caution,
    pairOf 4 0 r.maxDraft, pairOf 10 0 r.mean, pairOf 11 0 r.displacement,
    pairOf 11 1 (flagInt r.displacementSaturated)] ++
  worstPairs 12 0 r.worst ++ [pairOf 13 0 (flagInt flag)]

/-- The part of the live set that a key chooses. -/
def partPairs (r : ResultSet) (key : Nat) : List Pair :=
  if key = 0 then []
  else if key = 100 then quantityPairs 7 0 r.trim
  else if key = 101 then quantityPairs 8 0 r.fore
  else if key = 102 then quantityPairs 9 0 r.aft
  else
    let q := (nth1 r.stations key).getD default
    quantityPairs 5 0 q.sf ++ quantityPairs 6 0 q.bm

/-- A LOOK on RESULT (R37): while no set is published, generation 0 and every other field absent. DESIGN CHOICE: the pairs of
the header, rows 1 to 4 and 10 to 13, come first, and the rows of the part that the key chooses after them
(notes/assumptions/12.md). -/
def State.resultRecord (s : State) (key : Nat) : List Pair :=
  match s.engine.live with
  | some r => headerPairs r s.engine.strengthFlag ++ partPairs r key
  | none =>
    pairOf 1 0 0 :: absentPairs ((headerPairs default false).drop 1 ++ partPairs default key)

/-! ### The CLEARANCE lookup (spec 03 R55) -/

/-- The other hold that makes up a pair with this hold's active pour. -/
def State.partnerHold (s : State) (h : Nat) : Option Nat :=
  match s.activePour .l1, s.activePour .l2 with
  | some p, some q => if p.hold = h then some q.hold else if q.hold = h then some p.hold else none
  | _, _ => none

/-- Own room and joint room of a hold by the live set; room 0 and cause NO RESULT while there is none. -/
def State.lookupRooms (s : State) (h : Nat) : Room × Option Room :=
  let noResult : Room := { amount := 0, cause := plainCause .noResult }
  match s.engine.live with
  | some r => (ownRoom s.hull r h (s.holdRoomOf h), (s.partnerHold h).map (jointRoom s.hull r h))
  | none => (noResult, (s.partnerHold h).map fun _ => noResult)

/-- A room with its cause. -/
def roomPairs (row place : Nat) (r : Room) : List Pair :=
  pairOf row place r.amount :: causePairs row (place + 1) r.cause

/-- A room that may be absent. -/
def optRoomPairs (row place : Nat) : Option Room → List Pair
  | some r => roomPairs row place r
  | none => absentPairs (roomPairs row place default)

/-- A LOOK on CLEARANCE. DESIGN CHOICE: limit set used and maximum draft used are absent while the live generation is 0
(notes/assumptions/24.md). -/
def State.clearanceRecord (s : State) (h : Nat) : List Pair :=
  let rooms := s.lookupRooms h
  [pairOf 1 0 s.generation, pairOf 1 1 (optPlace limitSets (s.engine.live.map (·.limitSet))),
    pairOf 1 2 (optInt (s.engine.live.map (·.maxDraft))), pairOf 2 0 (s.hold h).current,
    pairOf 2 1 (s.holdRoomOf h)] ++
  roomPairs 3 0 rooms.1 ++ optRoomPairs 4 0 rooms.2 ++
  [pairOf 5 0 (strengthRoomOf rooms.1 rooms.2).amount, pairOf 6 0 (optInt (s.hold h).active)]

/-! ### Berth, settings, profile (spec 08 Table 8.2, spec 09 Table 9.4, spec 11 Table 11.2) -/

/-- The BERTH record. -/
def berthRecord (b : Berth) : List Pair :=
  [pairOf 1 0 b.maxDraft, pairOf 2 0 (placeAmong berthSources b.source), pairOf 3 0 (flagInt b.flag)]

/-- The SETTINGS record. -/
def settingsRecord (x : Settings) : List Pair :=
  [pairOf 1 0 (placeAmong limitSets x.limitSet), pairOf 2 0 x.caution, pairOf 3 0 x.pace, pairOf 4 0 x.margin,
    pairOf 5 0 x.reportStep, pairOf 6 0 x.draftStep, pairOf 7 0 x.overrun, pairOf 8 0 x.tallyTimeout,
    pairOf 9 0 x.stale, pairOf 10 0 x.settle, pairOf 11 0 x.rateWindow, pairOf 12 0 x.silence,
    pairOf 13 0 x.mask.toNat]

/-- The counts, absent where no profile is loaded. -/
def countPairs (u : StartUp) : List Pair :=
  let c := u.profile.counts
  let fields := [pairOf 8 0 c.holds, pairOf 8 1 c.tanks, pairOf 8 2 c.items, pairOf 8 3 c.stations, pairOf 8 4 c.groups]
  if u.phase = .ready then fields else absentPairs fields

/-- The PROFILE record. -/
def profileRecord (u : StartUp) : List Pair :=
  [pairOf 1 0 (placeAmong profilePhases u.phase), pairOf 2 0 u.index.toNat, pairOf 3 0 (placeAmong locks u.lock),
    pairOf 4 0 (flagInt u.retain), pairOf 5 0 (optPlace startOutcomes u.outcome),
    pairOf 6 0 (optPlace findings u.finding), pairOf 7 0 (optInt (u.imageCheck.map (·.toNat)))] ++
  countPairs u ++
  [pairOf 9 0 (flagInt u.purgeRunning), pairOf 10 0 (flagInt u.profileFlag), pairOf 10 1 (flagInt u.purgeDoneFlag)]

/-! ### The trial (spec 10 Table 10.1, R161) -/

/-- Pairs of row 10 numbered in the order of Table 2.8. -/
def numberedRow (row : Nat) (vs : List (BitVec 32)) : List Pair :=
  vs.zipIdx.map fun (v, i) => ⟨fieldId row i, v⟩

/-- The fields of the trial result set in the order of Table 2.8. DESIGN CHOICE: within its rows for SF and BM station by
station, SF and then BM of each (notes/assumptions/12.md). -/
def resultValues (r : ResultSet) : List (BitVec 32) :=
  let quantities := (r.stations.map fun q => quantityPairs 0 0 q.sf ++ quantityPairs 0 0 q.bm).flatten
  (([pairOf 0 0 r.generation, pairOf 0 0 (placeAmong limitSets r.limitSet), pairOf 0 0 r.caution,
      pairOf 0 0 r.maxDraft] ++ quantities ++ quantityPairs 0 0 r.trim ++ quantityPairs 0 0 r.fore ++
    quantityPairs 0 0 r.aft ++
    [pairOf 0 0 r.mean, pairOf 0 0 r.displacement, pairOf 0 0 (flagInt r.displacementSaturated)] ++
    worstPairs 0 0 r.worst).map (·.value))

/-- The fields of a trial hold's rooms. DESIGN CHOICE: the strength room carries its cause, as R160 gives it one, though Table
10.1 and R55 list none beside it (notes/assumptions/12.md). -/
def trialRoomValues (t : TrialRoom) : List (BitVec 32) :=
  ((roomPairs 0 0 t.own ++ optRoomPairs 0 0 t.joint ++ roomPairs 0 0 t.strength).map (·.value))

/-- The rooms of a trial, absent before its first publication (R157) and where the pass took no trial hold. -/
def trialRoomsValues (rooms : List TrialRoom) : List (BitVec 32) :=
  if rooms.isEmpty then [-1] else rooms.flatMap trialRoomValues

/-- The trial's rows while it is open. -/
def openTrialRecord (t : Trial) (done : Bool) : List Pair :=
  [pairOf 1 0 1] ++ (t.masses.zipIdx.map fun (m, i) => pairOf 2 (2 * i) m) ++
  [pairOf 3 0 (placeAmong limitSets t.limitSet), pairOf 4 0 t.caution, pairOf 5 0 t.maxDraft,
    pairOf 6 0 (optInt t.hold1), pairOf 6 2 (optInt t.hold2), pairOf 7 0 (flagInt t.pending),
    pairOf 8 0 (flagInt t.inFlight), pairOf 9 0 t.generation] ++
  numberedRow 10 (t.result.elim [-1] resultValues) ++ numberedRow 11 (trialRoomsValues t.rooms) ++
  [pairOf 12 0 (flagInt done)]

/-- The trial's rows while it is closed: open CLEAR, the flag, and every other field absent. -/
def closedTrialRecord (done : Bool) : List Pair :=
  [pairOf 1 0 0, pairOf 2 0 (-1), pairOf 3 0 (-1), pairOf 4 0 (-1), pairOf 5 0 (-1), pairOf 6 0 (-1),
    pairOf 6 2 (-1), pairOf 7 0 (-1), pairOf 8 0 (-1), pairOf 9 0 (-1), pairOf 10 0 (-1), pairOf 11 0 (-1),
    pairOf 12 0 (flagInt done)]

/-- A LOOK on TRIAL. -/
def trialRecord (e : Engine) : List Pair :=
  match e.trial with
  | some t => openTrialRecord t e.trialDone
  | none => closedTrialRecord e.trialDone

/-! ### CHANGES (spec 09 R153, Table 9.9) -/

/-- The kinds of an entry, one bit for each code, the masked ones in the upper 16 bits. -/
def State.kindBits (s : State) (ks : List FlagKind) : BitVec 32 :=
  ks.foldl (fun acc k => acc ||| (1#32 <<< (k.code + if s.masked k then 16 else 0))) 0#32

/-- A LOOK on CHANGES: the number of unmasked kinds SET, then one pair for each entry. -/
def State.changesRecord (s : State) : List Pair :=
  ⟨0#16, BitVec.ofNat 32 s.unmaskedCount⟩ ::
    s.flagEntries.map fun e => ⟨fieldId e.table.code e.key, s.kindBits e.kinds⟩

/-! ### LOOK (spec 09 R146) -/

/-- The record named by a table and a key, whole, as it stands. DESIGN CHOICE: its pairs stand in the order of the rows of its
table and of the places in a row, but for RESULT (notes/assumptions/12.md). -/
def State.lookup (s : State) (t : Table) (k : Nat) : List Pair :=
  match t with
  | .hold => holdRecord (s.holdData k) (s.hold k)
  | .tank => tankRecord k (s.tankData k) (s.tank k) (s.order k)
  | .item => itemRecord (s.item k)
  | .pour => (s.pour k).elim [] pourRecord
  | .order => (s.order k).elim [] (s.orderRecord k)
  | .station => s.stationRecord k
  | .valve => (valveOfKey k).elim [] fun v => valveRecord v (s.valve v)
  | .channel => (loaderOfKey k).elim [] fun l => channelRecord l (s.channel l)
  | .result => s.resultRecord k
  | .clearance => s.clearanceRecord k
  | .berth => berthRecord s.berth
  | .settings => settingsRecord s.settings
  | .profile => profileRecord s.startUp
  | .trial => trialRecord s.engine
  | .changes => s.changesRecord

end Sys2Proof.Machine
end

