-- ==== Sys2Proof/Machine/Pours.lean ====
section
/-! DEFINITION. The Pour Controller: hold masses, the answers to pour notices, and the leaving of a pour from the list
(spec 04 R56 to R71, spec 03 R50), with the reply FIFO (spec 08 R131). -/

namespace Sys2Proof.Machine

/-! ### Hold mass (spec 01 R4, spec 04 R71) -/

/-- The tallies that count in a hold's mass: those of its DONE, ACTIVE and INTERRUPTED pours. -/
def talliesIn (l : List Pour) (h : Nat) : Nat :=
  ((l.filter fun p => decide (p.hold = h ∧ p.state ≠ .planned)).map (·.tallied)).sum

/-- The pour now ACTIVE in a hold. -/
def activeIn (l : List Pour) (h : Nat) : Option Nat :=
  (l.find? fun p => decide (p.hold = h ∧ p.state = .active)).map (·.sequence)

/-- A hold derived anew from its initial mass and the pour list. -/
def Hold.derivedFrom (x : Hold) (l : List Pour) (h : Nat) : Hold :=
  { x with
    current := min 400000 (x.initial + talliesIn l h)
    active := activeIn l h
    saturated := decide (400000 < x.initial + talliesIn l h) }

/-- A hold's mass derived anew; a changed current mass marks the live pass dirty and is a cause of computation. -/
def State.deriveHold (h : Nat) (s : State) : State :=
  let s' := s.updHold h (·.derivedFrom s.pours.list h)
  if (s'.hold h).current = (s.hold h).current then s' else s'.markDirty.oweComputation

/-! ### Loader estimators (spec 03 R50) -/

/-- A loader's estimator replaced; an estimate that differs is a cause of computation. -/
def State.setEstimator (l : Loader) (e : Estimator) (s : State) : State :=
  let s' := { s with pours.estimators := s.pours.estimators.put l e }
  if e.estimate = (s.pours.estimators.get l).estimate then s' else s'.oweComputation

/-- A loader's estimator reset. -/
def State.resetEstimator (l : Loader) (s : State) : State := s.setEstimator l .closed

/-- A loader's estimator fed with a tallied mass. -/
def State.feedEstimator (l : Loader) (amount : Nat) (s : State) : State :=
  s.setEstimator l ((s.pours.estimators.get l).arrive false s.settings.rateWindow s.clock amount)

/-! ### Replies to notices (spec 08 R131) -/

/-- A reply placed in the reply FIFO; one that finds four waiting is lost. -/
def State.placeReply (r : NoticeReply) (s : State) : State :=
  if s.terminal.fifo.length < 4 then { s with terminal.fifo := s.terminal.fifo ++ [r] } else s

/-! ### POUR START (spec 04 R63, R64) -/

/-- The reason that POUR START is refused for, by the first check that fails. -/
def State.startRefusal (s : State) (l : Loader) (n : Nat) : Option Reason :=
  if s.startUp.purgeRunning then some .busy
  else match s.pour n with
    | none => some .noPour
    | some p =>
      if (s.activePour l).isSome then some .loaderBusy
      else if (p.state ≠ .planned ∧ p.state ≠ .interrupted) ∨ p.openTo l = false ∨
          (s.currentPour l).map (·.sequence) ≠ some n then some .notNext
      else if s.pours.list.any fun q => decide (q.state = .active ∧ q.hold = p.hold ∧ q.sequence ≠ n) then
        some .holdBusy
      else if s.gatesSatisfied p = false then some .gated
      else if (s.channel l).released = false then some .unreleased
      else if p.clearance = 0 then some .noClearance
      else none

/-- The pour of an accepted POUR START: ACTIVE, bound, with its declared rate. -/
def Pour.started (p : Pour) (l : Loader) (rate : Int) : Pour :=
  { p with state := .active, loader := .one l, declaredRate := clamp 0 20000 rate }

/-- An accepted POUR START. -/
def State.acceptStart (l : Loader) (n : Nat) (rate : Int) (s : State) : State :=
  let h := ((s.pour n).map (·.hold)).getD 0
  (((((s.updPour n (·.started l rate)).deriveHold h).resetEstimator l).startTallyTimer l).oweComputation)

/-! ### TALLY (spec 04 R65 to R67) -/

/-- The overrun test of a pour of the loader (R67). -/
def State.overrunTest (l : Loader) (n : Nat) (s : State) : State :=
  match s.pour n with
  | none => s
  | some p =>
    if p.planned + s.settings.overrun < p.tallied ∧ p.overrunReported = false then
      (s.updPour n ({ · with overrunReported := true })).updChannel l ({ · with overrunFlag := true })
    else s

/-- An amount of a notice: at most 999,999. -/
def amountOf (v : Int) : Int := min 999999 v

/-- The TALLY FAULT flag of the loader's channel is SET. -/
def State.tallyFault (l : Loader) (s : State) : State := s.updChannel l ({ · with tallyFaultFlag := true })

/-- An accepted tally of the loader's ACTIVE pour. -/
def State.acceptTally (l : Loader) (p : Pour) (amount : Nat) (s : State) : State :=
  (((((s.updPour p.sequence ({ · with tallied := amount })).deriveHold p.hold).feedEstimator l amount).overrunTest l
    p.sequence).startTallyTimer l).oweComputation

/-! ### POUR END (spec 04 R68) -/

/-- The final tally under the amount rules: taken where it is at or above the tallied mass, else held with TALLY
FAULT. -/
def State.takeFinal (l : Loader) (p : Pour) (final : Int) (s : State) : State :=
  if (p.tallied : Int) ≤ amountOf final then
    (s.updPour p.sequence ({ · with tallied := (amountOf final).toNat })).overrunTest l p.sequence
  else s.tallyFault l

/-- The pour whose end is to be reported. -/
def State.noteEnd (l : Loader) (n : Nat) (s : State) : State :=
  match s.pour n with
  | some p =>
    { s with terminal.noted := s.terminal.noted.put l (some ⟨p.sequence, p.hold, p.tallied⟩) }
  | none => s

/-- The loader's ACTIVE pour ended. -/
def State.endActive (l : Loader) (p : Pour) (final : Int) (s : State) : State :=
  let s := (s.takeFinal l p final).updPour p.sequence ({ · with state := .done })
  let s := ((s.deriveHold p.hold).resetEstimator l).noteEnd l p.sequence
  ((s.makeDue (.pourSummary l)).stopTallyTimer l).oweComputation

/-! ### END POUR (spec 04 R69) -/

/-- The loader that a pour is bound to, if one. -/
def PourLoader.bound : PourLoader → Option Loader
  | .one l => some l
  | .either => none

/-- An INTERRUPTED pour closed from the ship. -/
def State.closePour (p : Pour) (s : State) : State :=
  let s := (s.updPour p.sequence ({ · with state := .done })).deriveHold p.hold
  (match p.loader.bound with
    | some l => s.resetEstimator l
    | none => s).oweComputation

/-! ### Joining and leaving the list (spec 04 R56, R70) -/

/-- A pour placed in a list by its sequence. -/
def insertPour (p : Pour) : List Pour → List Pour
  | [] => [p]
  | q :: qs => if p.sequence < q.sequence then p :: q :: qs else q :: insertPour p qs

/-- A final tally folded into a hold's initial mass, saturated at 400,000. -/
def State.fold (h tally : Nat) (s : State) : State :=
  s.updHold h fun x => { x with initial := min 400000 (x.initial + tally) }

/-- A pour removed from the list, its final tally folded into its hold unless it was PLANNED. -/
def State.removePour (p : Pour) (s : State) : State :=
  let s := s.keepGone p
  let s := if p.state = .planned then s else s.fold p.hold p.tallied
  let s := { s with pours.list := s.pours.list.filter fun q => decide (q.sequence ≠ p.sequence) }
  (s.deriveHold p.hold).oweComputation

/-- Every ACTIVE pour INTERRUPTED (R57). -/
def Pour.interrupted (p : Pour) : Pour := if p.state = .active then { p with state := .interrupted } else p

end Sys2Proof.Machine
end

