-- ==== Sys2Proof/Machine/Expiries.lean ====
section
/-! DEFINITION. What comes about when an interval has passed: a stale tank, a settled tank, a silent field link
(spec 01 R14, R16, spec 06 R114, spec 12 R173). -/

namespace Sys2Proof.Machine

/-- A tank whose age has reached the stale interval becomes STALE and is handed on (spec 01 R14, R17). -/
def State.staleExpires (t : Nat) (s : State) : State :=
  if (s.tank t).goesStale s.settings.stale then
    (s.updTank t Tank.staled).oweComputation.handBallast (.stale t) (State.ballastStale t)
  else s

/-- A tank that has settled for the strip-settle interval goes to BELOW and is declared (spec 01 R16). -/
def State.settleExpires (t : Nat) (s : State) : State :=
  if (s.tank t).strip.settled s.clock s.settings.settle then
    (s.updTank t ({ · with strip := .below })).handBallast (.belowStrip t) (State.ballastBelow t)
  else s

/-- The silence watch runs while READY and PFAIL is inactive; in LIVE it expires when the interval has passed. -/
def State.silenceDue (s : State) : Bool :=
  s.ballastUp && s.field.live && decide (s.settings.silence ≤ elapsed s.field.lastFrame s.clock)

/-- The loss of the link handed to every station (spec 06 R114). DESIGN CHOICE: no rule orders the answers to the loss and
the looks they bring about (R103); every trip comes first, then the looks (notes/assumptions/29.md). -/
def State.linkLost (s : State) : State :=
  (unordered (fun g s => (s.station g).state.working) (fun g s => s.tripWorking g .linkLost) s.groupNumbers s).settle
    false s

/-- The silence expiry (spec 12 R173). -/
def State.silenceExpires (s : State) : State :=
  if s.silenceDue then { s with field.live := false }.linkLost else s

/-- The watch restarted: the last frame becomes the present second and the link LIVE (spec 12 R173). -/
def State.restartSilence (s : State) : State := { s with field.lastFrame := s.clock, field.live := true }

end Sys2Proof.Machine
end

