-- ==== Sys2Proof/Machine/Puts.lean ====
section
/-! DEFINITION. What a Put stores, table by table: its checks in order, what is stored, and what is handed on (spec 01 R3
to R9, R15; spec 04 R60, R61; spec 05 R77 to R80; spec 06 R98; spec 07 R118; spec 08 R132, R133; spec 09 R147,
R150). -/

namespace Sys2Proof.Machine

/-! ### Answers -/

/-- The answer to a request: its status, its payload, and the state once it is taken. -/
structure Answer where
  status : ReplyStatus
  payload : List Pair
  state : State
  deriving DecidableEq, Repr

/-- An answer without payload that changes nothing. -/
def State.answer (s : State) (status : ReplyStatus) : Answer := ⟨status, [], s⟩

/-- A field is not one that a Put may name. -/
def unknownField (allowed : List (BitVec 16)) : PutCheck := ⟨.badField, fun p => decide (p.ident ∉ allowed), false⟩

/-- The value of an identifier is refused by a test of its integer. -/
def valueFails (ident : BitVec 16) (bad : Int → Bool) (p : Pair) : Bool :=
  decide (p.ident = ident) && bad p.value.toInt

/-- A Put taken whole or refused whole (R147): the pairs as they will have been applied are checked in order, then
stored, and the reply carries every named field as it then stands. -/
def State.takePut (s : State) (ps : List Pair) (checks : List PutCheck) (store : State → State)
    (record : State → List Pair) : Answer :=
  match firstFailure (effective ps) checks with
  | some (status, pairs) => ⟨status, pairs, s⟩
  | none => ⟨.done, storedPairs ps (record (store s)), store s⟩

/-! ### HOLD and ITEM (spec 01 R3, R5) -/

/-- A PUT on HOLD. -/
def State.putHold (h : Nat) (ps : List Pair) (s : State) : Answer :=
  s.takePut ps
    [unknownField [fieldId 4 0], ⟨.badValue, valueFails (fieldId 4 0) (fun v => !inRange 0 400000 v), false⟩]
    (fun s => match intAt ps 4 0 with
      | some v => (s.updHold h ({ · with initial := v.toNat })).deriveHold h
      | none => s)
    (fun s => holdRecord (s.holdData h) (s.hold h))

/-- An item's mass stored; a mass that differs marks the live pass dirty. -/
def State.storeItem (i m : Nat) (s : State) : State :=
  let s' := { s with items := modify1 s.items i fun _ => m }
  if s.item i = m then s' else s'.markDirty

/-- A PUT on ITEM. -/
def State.putItem (i : Nat) (ps : List Pair) (s : State) : Answer :=
  s.takePut ps
    [unknownField [fieldId 1 0], ⟨.badValue, valueFails (fieldId 1 0) (fun v => !inRange 0 100000 v), false⟩]
    (fun s => match intAt ps 1 0 with
      | some v => s.storeItem i v.toNat
      | none => s)
    (fun s => itemRecord (s.item i))

/-! ### TANK (spec 01 R7 to R9, R15, R17) -/

/-- The identifier of a tank's manual level, which has no row. -/
def manualLevelId : BitVec 16 := 0

/-- An alternate group's value: a group, or none. -/
def groupOrNone (v : Int) : Option Nat := if v < 0 then none else some v.toNat

/-- The route mode that a tank will have after a Put. -/
def routeAfter (ps : List Pair) (t : Tank) : Option RouteMode :=
  match intAt ps 6 0 with
  | some v => namedAt routeModes v
  | none => some t.route

/-- The alternate group that a tank will have after a Put. -/
def alternateAfter (ps : List Pair) (t : Tank) : Option Nat :=
  match intAt ps 5 0 with
  | some v => groupOrNone v
  | none => t.alternate

/-- The tank's order is QUEUED or ACTIVE. -/
def State.orderLives (s : State) (t : Nat) : Bool := (s.order t).any fun o => decide (o.state ≠ .done)

/-- The field of a Put is not allowed in the tank's present state: a manual level unless STALE, a route field while its
order lives. -/
def State.tankStateFails (s : State) (t : Nat) (p : Pair) : Bool :=
  (decide (p.ident = manualLevelId) && decide ((s.tank t).status ≠ .stale)) ||
    (decide (p.ident = fieldId 5 0 ∨ p.ident = fieldId 6 0) && s.orderLives t)

/-- The value of a pair is refused for this tank. -/
def State.tankValueFails (s : State) (t : Nat) (ps : List Pair) (p : Pair) : Bool :=
  valueFails manualLevelId (fun v => !inRange 0 30000 v) p ||
  valueFails (fieldId 3 0) (fun v => !inRange 0 (s.tankData t).capacity v) p ||
  valueFails (fieldId 5 0)
    (fun v => decide (v ≠ -1) && (!inRange 1 s.counts.groups v || decide (v = (s.tankData t).primary))) p ||
  valueFails (fieldId 6 0) (fun v => (namedAt routeModes v).isNone) p ||
  (decide (p.ident = fieldId 5 0 ∨ p.ident = fieldId 6 0) &&
    decide (routeAfter ps (s.tank t) = some .alternate ∧ alternateAfter ps (s.tank t) = none))

/-- A tank with the fields of a Put stored: density, strip mass, routing, then a manual level at the density that
stands. -/
def Tank.afterPut (t : Tank) (d : TankData) (ps : List Pair) : Tank :=
  let t := match intAt ps 10 0 with
    | some v => t.withDensity d (clamp 9500 10600 v)
    | none => t
  let t := match intAt ps 3 0 with
    | some v => { t with stripMass := v.toNat, strip := .above }
    | none => t
  let t := { t with route := (routeAfter ps t).getD t.route, alternate := alternateAfter ps t }
  match intAt ps 0 0 with
  | some v => t.withManualLevel d v.toNat
  | none => t

/-- What a Put's change of a tank hands on (Table 1.8): `before` is the tank as it stood. -/
def State.handTankPut (t : Nat) (before : Tank) (s : State) : State :=
  let massDiffers := decide ((s.tank t).current ≠ before.current)
  let staleEnds := decide (before.status = .stale ∧ (s.tank t).status ≠ .stale)
  let s1 := if massDiffers then s.markDirty else s
  let s1 := if massDiffers || staleEnds then s1.oweComputation else s1
  let s1 := if massDiffers then s1.ballastPutMass t else s1
  if massDiffers || staleEnds then s1.settle true s else s1

/-- A PUT on TANK. -/
def State.putTank (t : Nat) (ps : List Pair) (s : State) : Answer :=
  s.takePut ps
    [unknownField [manualLevelId, fieldId 3 0, fieldId 5 0, fieldId 6 0, fieldId 10 0],
      ⟨.state, s.tankStateFails t, false⟩, ⟨.badValue, s.tankValueFails t ps, false⟩]
    (fun s => (s.updTank t (·.afterPut (s.tankData t) ps)).handTankPut t (s.tank t))
    (fun s => ⟨manualLevelId, BitVec.ofInt 32 (optInt (s.tank t).lastLevel)⟩ ::
      tankRecord t (s.tankData t) (s.tank t) (s.order t))

/-! ### POUR (spec 04 R60 to R62, spec 03 R40) -/

/-- The fields of a pour that a Put may name. -/
def pourFields : List (BitVec 16) :=
  [fieldId 2 0, fieldId 3 0, fieldId 4 0] ++ (List.range 8).map (fieldId 6)

/-- A gate slot is named with a tank and a maximum mass, or with none; the pair that breaks this fails. DESIGN CHOICE: tank −1
names none, whether the mass is −1 too or not named, and mass −1 alone fails (notes/assumptions/11.md). -/
def gateFails (tanks : Nat) (ps : List Pair) (p : Pair) : Bool :=
  let slot := placeOf p.ident / 2
  let tank := intAt ps 6 (2 * slot)
  let most := intAt ps 6 (2 * slot + 1)
  decide (rowOf p.ident = 6) &&
    if placeOf p.ident % 2 = 0 then
      match tank, most with
      | some t, some _ => decide (t ≠ -1) && !inRange 1 tanks t
      | some t, none => decide (t ≠ -1)
      | none, _ => false
    else
      match tank, most with
      | some t, some m => if t = -1 then decide (m ≠ -1) else !inRange 0 150000 m
      | _, some _ => true
      | _, none => false

/-- The value of a pair is refused for a pour (R60, check 2). -/
def State.pourValueFails (s : State) (ps : List Pair) (p : Pair) : Bool :=
  valueFails (fieldId 2 0) (fun v => !inRange 1 s.counts.holds v) p ||
  valueFails (fieldId 3 0) (fun v => (namedAt pourLoaders v).isNone) p ||
  valueFails (fieldId 4 0) (fun v => !inRange 1 400000 v) p ||
  gateFails s.counts.tanks ps p

/-- The gate that a slot has after a Put. DESIGN CHOICE: tank -1 names none, alone or with mass -1
(notes/assumptions/11.md). -/
def gateAfter (ps : List Pair) (slot : Nat) (old : Option Gate) : Option Gate :=
  match intAt ps 6 (2 * slot), intAt ps 6 (2 * slot + 1) with
  | some t, some m => if t = -1 then none else some ⟨t.toNat, m.toNat⟩
  | some _, none => none
  | none, _ => old

/-- A pour with the fields of a Put stored. -/
def Pour.afterPut (p : Pour) (ps : List Pair) : Pour :=
  { p with
    hold := (intAt ps 2 0).elim p.hold Int.toNat
    loader := ((intAt ps 3 0).bind (namedAt pourLoaders)).getD p.loader
    planned := (intAt ps 4 0).elim p.planned Int.toNat
    gate1 := gateAfter ps 0 p.gate1
    gate2 := gateAfter ps 1 p.gate2
    gate3 := gateAfter ps 2 p.gate3
    gate4 := gateAfter ps 3 p.gate4 }

/-- A pour as a creating Put begins it, before its named values. -/
def newPour (n : Nat) : Pour :=
  { sequence := n, hold := 0, loader := .either, planned := 0, tallied := 0, gate1 := none, gate2 := none,
    gate3 := none, gate4 := none, state := .planned, declaredRate := 0, strengthRoom := 0, clearance := 0,
    timeToLimit := 65535, cause := plainCause .notCurrent, basis := 0, overrunReported := false }

/-- The fields that an amending Put may name in each state (R61). -/
def amendable : PourState → List (BitVec 16)
  | .planned => pourFields
  | .active | .interrupted => [fieldId 4 0]
  | .done => []

/-- The fields of a pour as they stand in the list. -/
def State.pourPairs (n : Nat) (s : State) : List Pair := (s.pour n).elim [] pourRecord

/-- A creating Put (R60). -/
def State.createPour (n : Nat) (ps : List Pair) (s : State) : Answer :=
  s.takePut ps
    [unknownField pourFields,
      ⟨.badValue, s.pourValueFails ps, (intAt ps 2 0).isNone || (intAt ps 4 0).isNone⟩,
      ⟨.full, fun _ => false, decide (48 ≤ s.pours.list.length)⟩]
    (fun s => { s with pours.list := insertPour ((newPour n).afterPut ps) s.pours.list }.oweComputation)
    (State.pourPairs n)

/-- An amending Put (R61). -/
def State.amendPour (n : Nat) (p : Pour) (ps : List Pair) (s : State) : Answer :=
  s.takePut ps
    [unknownField pourFields, ⟨.state, fun q => decide (q.ident ∉ amendable p.state), false⟩,
      ⟨.badValue, s.pourValueFails ps, false⟩]
    (fun s => (s.updPour n (·.afterPut ps)).oweComputation)
    (State.pourPairs n)

/-- A PUT on POUR. -/
def State.putPour (n : Nat) (ps : List Pair) (s : State) : Answer :=
  match s.pour n with
  | none => s.createPour n ps
  | some p => s.amendPour n p ps

/-! ### ORDER (spec 05 R77 to R80) -/

/-- The groups that a tank's route permits (Table 5.3). -/
def State.permittedGroups (s : State) (t : Nat) : List Nat :=
  match (s.tank t).route with
  | .primary => [(s.tankData t).primary]
  | .alternate => (s.tank t).alternate.toList
  | .primaryThenAlternate | .firstFree => (s.tankData t).primary :: (s.tank t).alternate.toList

/-- The station of a group is TRIPPED or LOCAL. -/
def State.lost (s : State) (g : Nat) : Bool :=
  decide ((s.station g).state = .tripped ∨ (s.station g).state = .localControl)

/-- The lowest-numbered of the groups whose station is OFF. -/
def State.lowestOff (s : State) (gs : List Nat) : Option Nat :=
  s.groupNumbers.find? fun g => decide (g ∈ gs ∧ (s.station g).state = .off)

/-- The group that the Ballast Sequencer chooses at entry (Table 5.3). -/
def State.chosenGroup (s : State) (t : Nat) : Nat :=
  let primary := (s.tankData t).primary
  match (s.tank t).route, (s.tank t).alternate with
  | .primary, _ => primary
  | .alternate, a => a.getD primary
  | .primaryThenAlternate, some a => if s.lost primary then a else primary
  | .primaryThenAlternate, none => primary
  | .firstFree, _ => (s.lowestOff (s.permittedGroups t)).getD primary

/-- A target as it is stored: clamped to the tank's capacity mass. -/
def State.targetOf (s : State) (t : Nat) (v : Int) : Nat := clamp 0 (s.tankData t).capacity v

/-- The order that an entering Put files (R78). -/
def State.enteredOrder (s : State) (t : Nat) (ps : List Pair) : Order :=
  let target := s.targetOf t ((intAt ps 2 0).getD 0)
  let met := decide ((s.tank t).current ≤ target)
  { target := target
    group := ((intAt ps 3 0).map Int.toNat).getD (s.chosenGroup t)
    state := if met then .done else .queued
    holdCause := none
    completion := if met then some .met else none
    front := (intAt ps 8 0).any fun v => decide (v = 1) }

/-- An entering Put's order filed, and handed to the station of its group where it joins the queue (R78, R89). -/
def State.enterOrder (t : Nat) (ps : List Pair) (s : State) : State :=
  let o := s.enteredOrder t ps
  let s' := s.setOrder t (some o)
  if o.state = .queued then
    (s'.setQueue o.group (if o.front then t :: s.queue o.group else s.queue o.group ++ [t])).settle false s
  else s'

/-- The fields of an order that a Put may name. -/
def orderFields : List (BitVec 16) := [fieldId 2 0, fieldId 3 0, fieldId 8 0]

/-- The fields of a tank's order as they stand. -/
def State.orderPairs (t : Nat) (s : State) : List Pair := (s.order t).elim [] (s.orderRecord t)

/-- An entering Put (R77). -/
def State.putNewOrder (t : Nat) (ps : List Pair) (s : State) : Answer :=
  s.takePut ps
    [unknownField orderFields,
      ⟨.badValue, fun p =>
          valueFails (fieldId 3 0)
            (fun v => !inRange 1 s.counts.groups v || decide (v.toNat ∉ s.permittedGroups t)) p ||
          valueFails (fieldId 8 0) (fun v => !inRange 0 1 v) p,
        (intAt ps 2 0).isNone⟩]
    (State.enterOrder t ps) (State.orderPairs t)

/-- An amended target stored and, where the order is QUEUED, handed to the station of its group (R80, R89). -/
def State.amendOrder (t : Nat) (o : Order) (ps : List Pair) (s : State) : State :=
  match intAt ps 2 0 with
  | none => s
  | some v =>
    let s' := s.updOrder t ({ · with target := s.targetOf t v })
    if o.state = .queued then (s'.look o.group).settle false s' else s'

/-- An amending Put (R80). DESIGN CHOICE: no 32-bit value is a target of the wrong form, and each is clamped
(notes/assumptions/24.md). -/
def State.putLivingOrder (t : Nat) (o : Order) (ps : List Pair) (s : State) : Answer :=
  s.takePut ps
    [unknownField orderFields, ⟨.state, fun p => decide (p.ident ≠ fieldId 2 0), false⟩]
    (State.amendOrder t o ps) (State.orderPairs t)

/-- A PUT on ORDER. -/
def State.putOrder (t : Nat) (ps : List Pair) (s : State) : Answer :=
  match s.order t with
  | none => s.putNewOrder t ps
  | some o => if o.state = .done then s.putNewOrder t ps else s.putLivingOrder t o ps

/-! ### STATION (spec 06 R98, R101) -/

/-- A station with the fields of a Put stored, each clamped into its range. -/
def Station.afterPut (st : Station) (ps : List Pair) : Station :=
  { st with
    priming := (intAt ps 10 0).elim st.priming (clamp 5 120)
    rundown := (intAt ps 11 0).elim st.rundown (clamp 2 60)
    dryRun := (intAt ps 12 0).elim st.dryRun (clamp 10 600)
    minRate := (intAt ps 13 0).elim st.minRate (clamp 0 5000)
    override := (intAt ps 14 0).elim st.override (clamp 0 20000) }

/-- A new dry-run interval or minimum rate applied at once by the dry-run watch. -/
def State.applyDryRun (g : Nat) (s : State) : State :=
  if (s.station g).state.pumping then ((s.watchRate g).dryRunActs g).settle false s else s

/-- A PUT on STATION. -/
def State.putStation (g : Nat) (ps : List Pair) (s : State) : Answer :=
  s.takePut ps
    [unknownField [fieldId 10 0, fieldId 11 0, fieldId 12 0, fieldId 13 0, fieldId 14 0]]
    (fun s =>
      let s' := s.updStation g (·.afterPut ps)
      if (intAt ps 12 0).isSome || (intAt ps 13 0).isSome then s'.applyDryRun g else s')
    (State.stationRecord · g)

/-! ### CHANNEL (spec 07 R118, R122) -/

/-- A tally-timeout action stored; one that differs derives the channel anew. -/
def State.storeAction (l : Loader) (a : TimeoutAction) (s : State) : State :=
  if (s.channel l).action = a then s else (s.updChannel l ({ · with action := a })).deriveChannel l

/-- A PUT on CHANNEL. -/
def State.putChannel (l : Loader) (ps : List Pair) (s : State) : Answer :=
  s.takePut ps
    [unknownField [fieldId 12 0],
      ⟨.badValue, valueFails (fieldId 12 0) (fun v => (namedAt timeoutActions v).isNone), false⟩]
    (fun s => match (intAt ps 12 0).bind (namedAt timeoutActions) with
      | some a => s.storeAction l a
      | none => s)
    (fun s => channelRecord l (s.channel l))

/-! ### BERTH (spec 08 R132, R133) -/

/-- A maximum draft stored with its source: a draft that differs marks the pass dirty and makes the DRAFT slot due, and
a source that differs makes the slot due. -/
def State.storeBerth (draft : Nat) (source : BerthSource) (s : State) : State :=
  let s' := { s with berth.maxDraft := draft, berth.source := source }
  if s.berth.maxDraft ≠ draft then s'.markDirty.makeDue .draft
  else if s.berth.source ≠ source then s'.makeDue .draft
  else s'

/-- A maximum draft as it is stored. -/
def berthDraft (v : Int) : Nat := clamp 5000 30000 v

/-- A PUT on BERTH. -/
def State.putBerth (ps : List Pair) (s : State) : Answer :=
  s.takePut ps [unknownField [fieldId 1 0]]
    (fun s => match intAt ps 1 0 with
      | some v => s.storeBerth (berthDraft v) .ship
      | none => s)
    (fun s => berthRecord s.berth)

/-! ### SETTINGS (spec 09 R150, Table 9.4) -/

/-- A caution permille as it is stored: outside 500..999 it is 950 (spec 02 R22). -/
def cautionOf (v : Int) : Nat := if inRange 500 999 v then v.toNat else 950

/-- The SETTINGS record with the fields of a Put stored. -/
def Settings.afterPut (x : Settings) (ps : List Pair) : Settings :=
  { limitSet := ((intAt ps 1 0).bind (namedAt limitSets)).getD x.limitSet
    caution := (intAt ps 2 0).elim x.caution cautionOf
    pace := (intAt ps 3 0).elim x.pace (clamp 0 3600)
    margin := (intAt ps 4 0).elim x.margin (clamp 0 100000)
    reportStep := (intAt ps 5 0).elim x.reportStep (clamp 100 100000)
    draftStep := (intAt ps 6 0).elim x.draftStep (clamp 1 1000)
    overrun := (intAt ps 7 0).elim x.overrun (clamp 0 50000)
    tallyTimeout := (intAt ps 8 0).elim x.tallyTimeout (clamp 5 120)
    stale := (intAt ps 9 0).elim x.stale (clamp 10 600)
    settle := (intAt ps 10 0).elim x.settle (clamp 5 300)
    rateWindow := (intAt ps 11 0).elim x.rateWindow (clamp 10 600)
    silence := (intAt ps 12 0).elim x.silence (clamp 2 60)
    mask := ((valueOf ps (fieldId 13 0)).map (·.setWidth 14)).getD x.mask }

/-- An effect that a stored interval has at once. -/
inductive IntervalEffect where
  | stale (tank : Nat) | settle (tank : Nat) | silence
  deriving DecidableEq, Repr

/-- The effect takes place. -/
def IntervalEffect.acts (e : IntervalEffect) (s : State) : Bool :=
  match e with
  | .stale t => (s.tank t).goesStale s.settings.stale
  | .settle t => (s.tank t).strip.settled s.clock s.settings.settle
  | .silence => s.silenceDue

/-- The effect. -/
def IntervalEffect.act (e : IntervalEffect) (s : State) : State :=
  match e with
  | .stale t => s.staleExpires t
  | .settle t => s.settleExpires t
  | .silence => s.silenceExpires

/-- The effects of the intervals that a Put names. -/
def State.intervalEffects (s : State) (ps : List Pair) : List IntervalEffect :=
  (if (intAt ps 9 0).isSome then s.tankNumbers.map .stale else []) ++
  (if (intAt ps 10 0).isSome then s.tankNumbers.map .settle else []) ++
  (if (intAt ps 12 0).isSome then [.silence] else [])

/-- The SETTINGS record stored, with what each field hands on (R150). -/
def State.storeSettings (ps : List Pair) (s : State) : State :=
  let x := s.settings
  let y := x.afterPut ps
  let s' := { s with settings := y }
  let s' := if x.limitSet ≠ y.limitSet ∨ x.caution ≠ y.caution then s'.markDirty else s'
  let s' := if x.pace ≠ y.pace ∨ x.margin ≠ y.margin then s'.oweDerivations else s'
  if s.ready then unordered IntervalEffect.acts IntervalEffect.act (s.intervalEffects ps) s' else s'

/-- The identifiers of the SETTINGS fields. -/
def settingsFields : List (BitVec 16) := (upTo 13).map (fieldId · 0)

/-- A PUT on SETTINGS. -/
def State.putSettings (ps : List Pair) (s : State) : Answer :=
  s.takePut ps
    [unknownField settingsFields,
      ⟨.badValue, fun p =>
          valueFails (fieldId 1 0) (fun v => (namedAt limitSets v).isNone) p ||
            (decide (p.ident = fieldId 13 0) && decide (2 ^ 14 ≤ p.value.toNat)),
        false⟩]
    (State.storeSettings ps) (fun s => settingsRecord s.settings)

/-! ### PUT by table (spec 09 Table 9.2) -/

/-- A PUT on a table that takes none: BAD FIELD. -/
def State.putNone (ps : List Pair) (s : State) : Answer := ⟨.badField, (effective ps).take 1, s⟩

/-- A PUT on a record that exists, or that it may create. -/
def State.putRecord (t : Table) (k : Nat) (ps : List Pair) (s : State) : Answer :=
  if countLegal ps then
    match t with
    | .hold => s.putHold k ps
    | .tank => s.putTank k ps
    | .item => s.putItem k ps
    | .pour => s.putPour k ps
    | .order => s.putOrder k ps
    | .station => s.putStation k ps
    | .channel => (loaderOfKey k).elim (s.answer .noRecord) (s.putChannel · ps)
    | .berth => s.putBerth ps
    | .settings => s.putSettings ps
    | .valve | .result | .clearance | .profile | .trial | .changes => s.putNone ps
  else s.answer .badValue

end Sys2Proof.Machine
end

