-- ==== Sys2Proof/Machine/Requests.lean ====
section
/-! DEFINITION. The exchange on the ship link: a request taken, checked and answered, or owed a BUSY reply, and the
removal of a record by RETIRE (spec 09 R143 to R149, spec 04 R70, spec 05 R87, R88). -/

namespace Sys2Proof.Machine

/-! ### The exchange (spec 09 R143) -/

/-- A checked request frame has completed. While PFAIL is asserted or the part is in RESET it is not taken; in HANDLING
it is owed a BUSY reply; in IDLE it is taken, answered whole, and its reply begins to be sent. -/
def State.takeRequest (kind : Nat) (head : ShipHead) (respond : State → Answer) (s : State) : State :=
  if s.linkUp then
    let request : ShipRequest := ⟨BitVec.ofNat 8 kind, head⟩
    match s.ship.sending with
    | some _ => { s with ship.busyOwed := some request, ship.receiving := none }
    | none =>
      let a := respond s
      { a.state with
        ship.sending := some ⟨request.kind, head, a.status, a.payload⟩
        ship.inHand := some request
        ship.receiving := none }
  else s

/-! ### The checks of R145 -/

/-- The Start-up Controller is LOADING. -/
def State.loading (s : State) : Bool := decide (s.startUp.phase = .loading)

/-- The tables that a running PURGE holds. -/
def Table.purged (t : Option Table) : Bool := decide (t = some .pour ∨ t = some .order ∨ t = some .trial)

/-- A record request: BUSY while LOADING (but for a LOOK of PROFILE or SETTINGS) and on the tables that a PURGE holds,
NO RECORD for a table or a key that names none, then the answer of the owning rule (R145, checks 2 to 5). -/
def State.recordRequest (s : State) (head : ShipHead) (look : Bool) (named : State → Table → Nat → Bool)
    (respond : Table → Nat → State → Answer) : Answer :=
  let t := Table.ofCode head.table.toNat
  let k := head.key.toNat
  if s.loading && !(look && decide (t = some .profile ∨ t = some .settings)) then s.answer .busy
  else if s.startUp.purgeRunning && Table.purged t then s.answer .busy
  else match t with
    | none => s.answer .noRecord
    | some t => if named s t k then respond t k s else s.answer .noRecord

/-- An action: BUSY while LOADING, and while a PURGE runs where the action waits for its end, then the answer of the
owning rule (R145, checks 2, 3 and 5). -/
def State.actionRequest (s : State) (waitsForPurge : Bool) (respond : State → Answer) : Answer :=
  if s.loading || (waitsForPurge && s.startUp.purgeRunning) then s.answer .busy else respond s

/-- An action whose key operand must be 0: any other is BAD VALUE (R149). -/
def State.keyless (s : State) (head : ShipHead) (respond : State → Answer) : Answer :=
  if head.key = 0 then respond s else s.answer .badValue

/-- An action that PROFILE FAULT refuses with STATE (spec 11 R165). -/
def State.unlessFault (s : State) (respond : State → Answer) : Answer :=
  if s.ready then respond s else s.answer .state

/-! ### RETIRE -/

/-- A QUEUED order leaves its queue with its record, a DONE order its record only (spec 05 R87). -/
def State.removeOrder (t : Nat) (o : Order) (s : State) : State :=
  (s.setQueue o.group ((s.queue o.group).filter (· ≠ t))).setOrder t none

/-- An ACTIVE order's record removed and its station told (spec 05 R88). -/
def State.retireActive (t : Nat) (s : State) : State :=
  let s' := s.setOrder t none
  ((s.runnersOf t).foldl (fun s g => s.orderGone g t) s').settle false s

/-- RETIRE of an order. -/
def State.retireOrder (t : Nat) (s : State) : Answer :=
  match s.order t with
  | none => s.answer .noRecord
  | some o =>
    if o.state = .active then ⟨.accepted, [], s.retireActive t⟩ else ⟨.done, [], s.removeOrder t o⟩

/-- RETIRE of a pour (spec 04 R70). -/
def State.retirePour (n : Nat) (s : State) : Answer :=
  match s.pour n with
  | none => s.answer .noRecord
  | some p =>
    if p.state = .planned ∨ p.state = .done then ⟨.done, [], s.removePour p⟩ else s.answer .state

/-- RETIRE of a record that exists (spec 09 Table 9.2). -/
def State.retireRecord (t : Table) (k : Nat) (s : State) : Answer :=
  match t with
  | .pour => s.retirePour k
  | .order => s.retireOrder k
  | _ => s.answer .state

/-! ### CLEAR (spec 09 R148) -/

/-- CLEAR of named flags of a record that exists. -/
def State.clearRecord (codes : List Octet) (t : Table) (k : Nat) (s : State) : Answer :=
  if codes.isEmpty then s.answer .badValue
  else match t.namedFlags codes with
    | none => s.answer .badField
    | some ks => if t.flags.isEmpty then s.answer .badField else ⟨.done, [], s.clearFlags t k ks⟩

end Sys2Proof.Machine
end

