-- ==== Sys2Proof/Machine/StartUp.lean ====
section
/-! DEFINITION. The Start-up Controller's operations: the image check, the retention decision, the values that a cold
start, a warm start and a RESTART leave, and the whole-part events (spec 11, with spec 01 R6, R18, R19; spec 02 R20;
spec 05 R90; spec 06 R117; spec 07 R129; spec 08 R134, R142; spec 12 R175). -/

namespace Sys2Proof.Machine

/-! ### The image check (spec 01 R6, spec 02 R20, spec 11 R164, R165) -/

/-- The counts lie within Table 0.4. -/
def Counts.legal (c : Counts) : Bool :=
  decide (5 ≤ c.holds ∧ c.holds ≤ 9 ∧ 8 ≤ c.tanks ∧ c.tanks ≤ 24 ∧ c.items ≤ 8 ∧ 4 ≤ c.stations ∧ c.stations ≤ 16 ∧
    1 ≤ c.groups ∧ c.groups ≤ 4)

/-- A hold's shape. DESIGN CHOICE: R6 names no finding for a span above 4,000 dm, so such a span is legal
(notes/assumptions/24.md). -/
def HoldData.legal (d : HoldData) : Bool :=
  decide (d.spanAft < d.spanFore ∧ 1 ≤ d.maxMass ∧ d.maxMass ≤ 400000)

/-- Levels strictly ascending in 0..30,000, and volumes that do not fall. -/
def tableLegal (bs : List Breakpoint) : Bool :=
  decide (2 ≤ bs.length ∧ bs.length ≤ 12) && bs.all (fun b => decide (b.level ≤ 30000)) &&
    (bs.zip (bs.drop 1)).all fun (a, b) => decide (a.level < b.level ∧ a.volume ≤ b.volume)

/-- An alternate group is a group of the profile other than the primary. DESIGN CHOICE: group 0 is none of the profile
(notes/assumptions/24.md). -/
def alternateLegal (groups primary : Nat) : Option Nat → Bool
  | none => true
  | some a => decide (1 ≤ a ∧ a ≤ groups ∧ a ≠ primary)

/-- A tank's shape (spec 01 R6). DESIGN CHOICE: a span above 4,000 dm is legal, a primary group 0 is not, and the datum
depth of a LEVEL tank is not judged (notes/assumptions/24.md). -/
def TankData.legal (groups : Nat) (d : TankData) : Bool :=
  decide (d.spanAft < d.spanFore ∧ 1 ≤ d.capacity ∧ d.capacity ≤ 150000 ∧ 1 ≤ d.primary ∧ d.primary ≤ groups ∧
    d.stripMass ≤ d.capacity) &&
  alternateLegal groups d.primary d.alternate &&
  !(decide (d.route = .alternate) && d.alternate.isNone) &&
  (decide (d.form = .level) || d.datum.any fun m => decide (1 ≤ m ∧ m ≤ 30000)) &&
  tableLegal d.breakpoints

/-- A station's limits in one limit set. -/
def StationLimits.legal (x : StationLimits) : Bool :=
  decide (1 ≤ x.sfPositive ∧ x.sfPositive ≤ 8000000 ∧ 1 ≤ x.sfNegative ∧ x.sfNegative ≤ 8000000 ∧
    1 ≤ x.hog ∧ x.hog ≤ 50000000 ∧ 1 ≤ x.sag ∧ x.sag ≤ 50000000)

/-- A check station's data (spec 02 R20). -/
def StationData.legal (d : StationData) : Bool :=
  inRange (-8000000) 8000000 d.sf0 && inRange (-50000000) 50000000 d.bm0 && StationLimits.legal d.harbour &&
    StationLimits.legal d.sea

/-- A limit set's trim limits. -/
def TrimLimits.legal (x : TrimLimits) : Bool :=
  decide (1 ≤ x.stern ∧ x.stern ≤ 20000 ∧ 1 ≤ x.head ∧ x.head ≤ 20000)

/-- The hull, tank and limit ranges, and lists of the lengths that the counts give. -/
def Hull.legal (h : Hull) (c : Counts) : Bool :=
  Hull.fits h c && h.holds.all HoldData.legal && h.tanks.all (TankData.legal c.groups) &&
    h.stations.all StationData.legal && TrimLimits.legal h.trimHarbour && TrimLimits.legal h.trimSea &&
    inRange 0 40000 h.d0Fore && inRange 0 40000 h.d0Aft &&
    decide (1 ≤ h.lightship ∧ h.lightship ≤ 9999999 ∧ 5000 ≤ h.defaultDraft ∧ h.defaultDraft ≤ 30000)

/-- What the check of an image finds, in the order of R163 and R165: `h` is the hull data that its body carries. -/
def imageFinding (image : List Octet) (h : Hull) : Option Finding :=
  if imagePresent image = false then some .noImage
  else if imageCheckValue image ≠ octets16 (imageCrc image) then some .check
  else if Counts.legal (imageCounts image) = false then some .count
  else if Hull.legal h (imageCounts image) = false then some .range
  else none

/-- The hull data as it is loaded: default densities and class timeouts clamped (spec 01 R6, spec 06 R93). -/
def loadedHull (h : Hull) : Hull :=
  { h with
    tanks := h.tanks.map fun d => { d with density := clamp 9500 10600 d.density }
    tankValveTimeout := clamp 5 180 h.tankValveTimeout
    lineValveTimeout := clamp 5 180 h.lineValveTimeout }

/-- The profile that a clean image gives. -/
def loadedProfile (image : List Octet) (h : Hull) : Profile := ⟨imageCounts image, loadedHull h⟩

/-! ### Records at start -/

/-- A hold after a cold start. -/
def coldHold : Hold := { initial := 0, current := 0, active := none, saturated := false }

/-- A hold with no active pour. -/
def Hold.idle (x : Hold) : Hold := { x with active := none }

/-- A station after a cold start (spec 06 Table 6.7). -/
def coldStation : Station :=
  { state := .off, active := none, closing := [], pumpCommanded := .stop, pumpReported := .unknown, switch := .remote,
    deadline := none, lastTrip := none, priming := 20, rundown := 10, dryRun := 120, minRate := 100, override := 0,
    estimator := .closed, lowSince := none, resuming := false, tripFlag := false, localFlag := false,
    doneFlag := false, holdFlag := false }

/-- A station after a warm start: its trip cause, intervals and flags kept. -/
def Station.warmed (st : Station) : Station :=
  { st with
    state := .off, active := none, closing := [], pumpCommanded := .stop, pumpReported := .unknown
    switch := .remote, deadline := none, estimator := .closed, lowSince := none, resuming := false }

/-- A station after a RESTART; one whose switch reads LOCAL stays LOCAL and keeps its pump command. -/
def Station.restarted (st : Station) : Station :=
  let st := { st with
    active := none, closing := [], deadline := none, estimator := .closed, lowSince := none, lastTrip := none
    resuming := false }
  if st.switch = .localControl then { st with state := .localControl }
  else { st with state := .off, pumpCommanded := .stop }

/-- A valve commanded SHUT at a start, its timer started. -/
def startValve (now : Second) (timeout : Nat) : Valve :=
  { commanded := .shut, reported := .unknown, confirmed := false, deadline := some (later now timeout), owner := none }

/-- A line valve of a LOCAL station at a RESTART: its command kept, without timer. -/
def Valve.unsent (x : Valve) : Valve :=
  { x with reported := .unknown, confirmed := false, deadline := none, owner := none }

/-- A channel after a warm start (spec 07 Table 7.5). DEDUCED: its output cause is UNRELEASED whatever level is forced, since
none ranks above FORBID (notes/assumptions/27.md). -/
def Channel.warmed (c : Channel) : Channel :=
  { Channel.cold with
    forced := c.forced, action := c.action, lastForbid := c.lastForbid, stateFlag := c.stateFlag
    overrunFlag := c.overrunFlag, tallyFaultFlag := c.tallyFaultFlag }

/-- Kept records laid over the values of a cold start: as many as the profile counts. -/
def keptOver {α : Type} (kept cold : List α) : List α := cold.zipIdx.map fun (c, i) => kept[i]?.getD c

/-- Every hold derived from the kept records (spec 04 Table 4.7). -/
def derivedHolds (l : List Pour) (hs : List Hold) : List Hold := hs.zipIdx.map fun (x, i) => x.derivedFrom l (i + 1)

/-- The valve table at a start. -/
def State.withStartValves (s : State) : State :=
  let tank := startValve s.clock s.hull.tankValveTimeout
  let line := startValve s.clock s.hull.lineValveTimeout
  { s with
    ballast.tankValves := List.replicate s.counts.tanks tank
    ballast.suctionValves := List.replicate s.counts.groups line
    ballast.overboardValves := List.replicate s.counts.groups line }

/-- The records of a cold start (spec 01 R18, spec 04 R74, spec 05 R90, spec 06 R117, spec 07 R129, spec 08 R134,
spec 09 R151). -/
def State.coldRecords (s : State) : State :=
  { s with
    holds := List.replicate s.counts.holds coldHold
    tanks := s.hull.tanks.map coldTank
    items := List.replicate s.counts.items 0
    berth := { maxDraft := s.hull.defaultDraft, source := .profile, flag := false }
    settings := .default
    pours := .empty
    ballast := { Sequencer.empty with
      orders := List.replicate s.counts.tanks none
      queues := List.replicate s.counts.groups []
      stations := List.replicate s.counts.groups coldStation }
    channels := ⟨.cold, .cold⟩ }

/-- Each ACTIVE order returned to the head of its group's queue with WARM START (spec 05 R84, R90). -/
def State.warmReturn (t : Nat) (s : State) : State :=
  match s.order t with
  | some o =>
    if o.state = .active then
      (s.updOrder t ({ · with state := .queued, holdCause := some .warmStart })).setQueue o.group
        (t :: s.queue o.group)
    else s
  | none => s

/-- How many pours are ACTIVE: each is a cause of computation where a start interrupts it (spec 04 R57, R72). -/
def PourController.activeCount (p : PourController) : Nat := (p.list.filter fun x => decide (x.state = .active)).length

/-- The sequencer state after a warm start (spec 11 R166). -/
def sequencerOf : Lock → SequencerState
  | .automatic => .running
  | .attended => .halted

/-- The records of a warm start, with a computation owed for each pour that it interrupts (spec 01 R19, spec 04 R57, R72, R74,
spec 05 R90, spec 06 R117, spec 07 R129). DESIGN CHOICE: orders that return to the queues of OFF stations are no cause to look
(notes/assumptions/25.md). -/
def State.warmRecords (s : State) : State :=
  let b := s.ballast
  let s :=
    { s with
      holds := derivedHolds (s.pours.list.map Pour.interrupted)
        (keptOver s.holds (List.replicate s.counts.holds coldHold))
      tanks := (keptOver s.tanks (s.hull.tanks.map coldTank)).map Tank.warmed
      items := keptOver s.items (List.replicate s.counts.items 0)
      pours := {
        list := s.pours.list.map Pour.interrupted, estimators := ⟨.closed, .closed⟩
        computationsOwed := s.pours.activeCount }
      ballast := { Sequencer.empty with
        state := sequencerOf s.startUp.lock
        orders := keptOver b.orders (List.replicate s.counts.tanks none)
        queues := keptOver b.queues (List.replicate s.counts.groups [])
        stations := (keptOver b.stations (List.replicate s.counts.groups coldStation)).map Station.warmed }
      channels := ⟨s.channels.l1.warmed, s.channels.l2.warmed⟩ }
  s.tankNumbers.foldl (fun s t => s.warmReturn t) s

/-- The commands of a start in the order of spec 12 R175: STOP for each group, then SHUT for TV, SV and OV. -/
def startCommands (tanks : Nat) (groups : List Nat) : List FieldCommand :=
  groups.map (.pump · .stop) ++ (upTo tanks).map (fun t => .valve (.tank t) .shut) ++
    groups.map (fun g => .valve (.suction g) .shut) ++ groups.map fun g => .valve (.overboard g) .shut

/-! ### The end of LOADING (spec 11 R165, R166) -/

/-- The Ship Link Port after a start-up: IDLE with nothing owed, but that the reply that accepted a RELOAD is sent out
(spec 09 R143). -/
def ShipPort.started (p : ShipPort) : ShipPort :=
  let reload := p.sending.any fun r => decide (r.kind = 24 ∧ r.status = .accepted)
  { p with
    sending := if reload then p.sending else none
    inHand := if reload then p.inHand else none
    busyOwed := none }

/-- Entry into PROFILE FAULT with a finding: no record exists, SETTINGS holds its defaults, the channels their cold
values, and the marker is invalid. DESIGN CHOICE: the image check value is absent, also where the image's CRC matched
(notes/assumptions/28.md). -/
def State.enterFault (f : Finding) (s : State) : State :=
  { s with
    startUp := { s.startUp with
      phase := .profileFault, finding := some f, outcome := none, imageCheck := none, profile := .none
      profileFlag := true, purgeRunning := false, reloading := false, marker := .invalid }
    holds := [], tanks := [], items := [], pours := .empty, ballast := .empty, engine := .idle
    settings := .default, channels := ⟨.cold, .cold⟩, ship := s.ship.started }.oweDerivations

/-- The outcome is WARM (R166). -/
def State.startsWarm (s : State) (check : BitVec 16) : Bool :=
  let m := s.startUp.marker
  !s.startUp.reloading && s.startUp.retain && m.valid && decide (m.index = s.startUp.index ∧ m.check = check)

/-- Entry into READY with an outcome: the marker is made invalid, the pass is dirty, a computation and both derivations are
owed, the silence watch and the field list begin anew, and a warm purge mark resumes the PURGE. DESIGN CHOICE: where PFAIL is
still asserted the commands of the start are placed, and their travel timers run, all the same (notes/assumptions/26.md). -/
def State.enterReady (outcome : StartOutcome) (check : BitVec 16) (s : State) : State :=
  let s :=
    { s with
      startUp := { s.startUp with
        phase := .ready, finding := none, outcome := some outcome, imageCheck := some check, profileFlag := true
        purgeRunning := decide (outcome = StartOutcome.warm) && s.startUp.marker.purge, reloading := false, marker := .invalid }
      engine := { Engine.idle with dirty := true }
      pours.computationsOwed := s.pours.computationsOwed + 1
      ship := s.ship.started
      terminal := .cleared
      field := { FieldPort.cleared s.clock with
        outbound := startCommands s.counts.tanks s.groupNumbers, receiving := s.field.receiving } }
  s.oweDerivations

/-- A clean image: the profile is loaded, the outcome decided, and READY entered, where no station looks until its next cause
(notes/assumptions/25.md). -/
def State.loadClean (image : List Octet) (h : Hull) (s : State) : State :=
  let check := imageCrc image
  let s := { s with startUp.profile := loadedProfile image h }
  if s.startsWarm check then s.warmRecords.withStartValves.enterReady .warm check
  else s.coldRecords.withStartValves.enterReady .cold check

/-! ### The trial closed (spec 10 R162) -/

/-- The trial closed; a pass in flight runs on, and its figures are discarded when it ends. -/
def Engine.closeTrial (e : Engine) : Engine := { e with trial := none }

/-! ### RELOAD, RESTART, PURGE (spec 11 R168 to R170) -/

/-- Some pour is ACTIVE or INTERRUPTED. -/
def State.pourRuns (s : State) : Bool :=
  s.pours.list.any fun p => decide (p.state = .active ∨ p.state = .interrupted)

/-- READY with the sequencer HALTED and no PURGE running. -/
def State.atRest (s : State) : Bool :=
  s.ready && decide (s.ballast.state = .halted) && !s.startUp.purgeRunning

/-- LOADING entered for the image of an index: what a pass, a trial, the links and the records held is gone. DESIGN CHOICE: the
image check value is absent until the image is read (notes/assumptions/28.md). -/
def State.enterLoading (index : BitVec 4) (reloading : Bool) (s : State) : State :=
  { s with
    startUp := { s.startUp with
      phase := .loading, index := index, finding := none, outcome := none, imageCheck := none, profile := .none
      purgeRunning := false, profileFlag := false, purgeDoneFlag := false, readStart := s.clock
      reloading := reloading }
    engine := .idle }

/-- An accepted RELOAD. -/
def State.reload (index : BitVec 4) (s : State) : State :=
  let s := s.enterLoading index true
  { s with
    holds := [], tanks := [], items := [], pours := .empty, ballast := .empty, channels := ⟨.cold, .cold⟩
    terminal := .cleared, field := { s.field with outbound := [], sending := none }, ship.busyOwed := none }

/-- The stations that a RESTART commands: all but those whose switch reads LOCAL. -/
def State.restartGroups (s : State) : List Nat :=
  s.groupNumbers.filter fun g => decide ((s.station g).switch ≠ .localControl)

/-- The line valves of a RESTART, each with its group's number. -/
def State.restartLine (s : State) (vs : List Valve) : List Valve :=
  vs.zipIdx.map fun (x, i) =>
    if (s.station (i + 1)).switch = .localControl then x.unsent else startValve s.clock s.hull.lineValveTimeout

/-- The Ballast Sequencer and its commands after a RESTART (spec 06 R117, spec 12 R175). -/
def State.restartBallast (s : State) : State :=
  { s with
    ballast := { s.ballast with
      stations := s.ballast.stations.map Station.restarted
      tankValves := s.ballast.tankValves.map fun _ => startValve s.clock s.hull.tankValveTimeout
      suctionValves := s.restartLine s.ballast.suctionValves
      overboardValves := s.restartLine s.ballast.overboardValves }
    field := { s.field with
      outbound := startCommands s.counts.tanks s.restartGroups, live := true, lastFrame := s.clock
      receiving := none } }

/-- A channel after a RESTART, before its derivation (spec 07 Table 7.5). -/
def Channel.restarted (c : Channel) : Channel :=
  { c with released := false, deadline := none, timedOut := false }

/-- The causes of computation that a RESTART holds: each ACTIVE pour that becomes INTERRUPTED and each estimate that
becomes 0 (spec 03 R50, R51, R54). -/
def State.restartCauses (s : State) : Nat :=
  s.pours.activeCount +
    ([Loader.l1, .l2].filter fun l => decide ((s.pours.estimators.get l).estimate ≠ 0)).length

/-- An accepted RESTART; the channels, no longer released, are derived within it (spec 07 R119, Table 7.5). DESIGN CHOICE: that
derivation writes last forbid cause and the STATE flag as R127 has any do, though Table 7.5 prints them as kept
(notes/assumptions/27.md). -/
def State.restart (s : State) : State :=
  let s := s.restartBallast
  let s' := { s with
    holds := s.holds.map Hold.idle
    pours := {
      list := s.pours.list.map Pour.interrupted, estimators := ⟨.closed, .closed⟩
      computationsOwed := s.pours.computationsOwed + s.restartCauses }
    channels := ⟨s.channels.l1.restarted, s.channels.l2.restarted⟩
    engine := { s.engine.closeTrial with dirty := true }
    terminal := { s.terminal with
      lastClearance := ⟨none, none⟩, lastFore := none, lastAft := none, receiving := none }
    ship.busyOwed := none }
  s'.deriveBoth [.l1, .l2]

/-- An accepted PURGE. -/
def State.purge (s : State) : State :=
  { s with
    startUp.purgeRunning := true
    engine := s.engine.closeTrial
    ballast := { s.ballast with
      orders := s.ballast.orders.map fun _ => none
      queues := s.ballast.queues.map fun _ => [] } }

/-- The PURGE finishes when the list is empty. -/
def State.purgeTest (s : State) : State :=
  if s.pours.list.isEmpty then { s with startUp.purgeRunning := false, startUp.purgeDoneFlag := true } else s

/-- One step of a PURGE: the pour of lowest sequence leaves the list. -/
def State.purgeOne (s : State) : State :=
  match s.pours.list with
  | [] => s.purgeTest
  | p :: _ => (s.removePour p).purgeTest

end Sys2Proof.Machine
end

