-- ==== Sys2Proof/Machine/Power.lean ====
section
/-! DEFINITION. The commands of the supply, the Time Base, RESET_N, the profile memory and PFAIL (spec 00 R1, spec 11 R163
to R167). -/

namespace Sys2Proof.Machine

/-- What the record memory and the retention marker hold across a loss of power: nothing else is kept. -/
def State.retained (s : State) : State :=
  { State.reset with
    pending := s.pending, holds := s.holds, tanks := s.tanks, items := s.items, berth := s.berth
    settings := s.settings, pours := { s.pours with computationsOwed := 0 }
    ballast := { s.ballast with kept := [] }, channels := s.channels, startUp.marker := s.startUp.marker
    draws := s.draws }

/-- POWER_ON: the count starts at 0 and the part is held in RESET (R1, R163). -/
def execPowerOn (s : State) : Host.Outcome State Fault Refusal :=
  .next (if s.powered then s else s.retained)

/-- POWER_LOSS: the count ends, and only the record memory and the marker are kept (R1, spec 11). -/
def execPowerLoss (s : State) : Host.Outcome State Fault Refusal :=
  .next (if s.powered then { s.retained with powered := false } else s)

/-- TIME_BASE_TICK: the count grows by one, and so does each tank's sounding age (R1, R14). -/
def execTimeBaseTick (s : State) : Host.Outcome State Fault Refusal :=
  .next
    (if s.powered then
      { s with clock := s.clock + 1, tanks := if s.ready then s.tanks.map Tank.older else s.tanks }
    else s)

/-- RESET entered: the links are silent, the engine stops, and the record memory and the marker stand (R163, spec 08
R142, spec 12 R175). -/
def State.enterReset (s : State) : State :=
  { s with
    startUp.phase := .reset, engine := .idle, pours.computationsOwed := 0, ballast.kept := [], ship := .idle
    terminal := .cleared, field := { s.field with outbound := [], sending := none, receiving := none } }

/-- RESET_N_ASSERT, from any state (R163). -/
def execResetNAssert (s : State) : Host.Outcome State Fault Refusal :=
  .next (if s.powered then s.enterReset else s)

/-- RESET_N_RELEASE: the straps, LOCK and RETAIN are sampled and LOADING is entered (R163). -/
def execResetNRelease (psel : BitVec 4) (lock : Lock) (retain : Bool) (s : State) :
    Host.Outcome State Fault Refusal :=
  .next
    (if s.powered ∧ s.startUp.phase = .reset then
      { s.enterLoading psel false with startUp.lock := lock, startUp.retain := retain }
    else s)

/-- PROFILE_READ_COMPLETE: the image in the slot of the profile index is checked, and the part enters READY or PROFILE FAULT (R164 to R166). -/
def execProfileReadComplete (read : ProfileRead) (s : State) : Host.Outcome State Fault Refusal :=
  .next
    (if s.powered ∧ s.startUp.phase = .loading then
      match imageFinding (read.slot s.startUp.index) read.hull with
      | some f => s.enterFault f
      | none => s.loadClean (read.slot s.startUp.index) read.hull
    else s)

/-- PROFILE_READ_TIMEOUT: a read not complete two seconds after it began gives NO IMAGE (R163). -/
def execProfileReadTimeout (s : State) : Host.Outcome State Fault Refusal :=
  .next
    (if s.powered ∧ s.startUp.phase = .loading ∧ 2 ≤ elapsed s.startUp.readStart s.clock then
      s.enterFault .noImage
    else s)

/-- The marker written valid at the assertion of PFAIL in READY (R167). -/
def State.writeMarker (s : State) : State :=
  let u := s.startUp
  { s with
    startUp.marker := { valid := true, index := u.index, check := u.imageCheck.getD 0, purge := u.purgeRunning } }

/-- The Loader Interlock at the assertion of PFAIL: released is cleared on both channels, and both are derived; the records
exist in READY and in PROFILE FAULT (spec 07 R118, R128). -/
def State.pfailChannels (s : State) : State :=
  ((s.updChannel .l1 ({ · with released := false })).updChannel .l2 ({ · with released := false })).deriveBoth
    [.l1, .l2]

/-- PFAIL_ASSERT: link frames half received are discarded and nothing is owed on the ship link (R167, spec 08 R130,
spec 09 R143, spec 12 R171). -/
def execPfailAssert (s : State) : Host.Outcome State Fault Refusal :=
  .next
    (if s.powered ∧ s.pfail = false then
      let s1 :=
        { s with
          pfail := true, ship.busyOwed := none, ship.receiving := none, terminal.receiving := none
          field.receiving := none }
      let s2 := if s.ready then s1.writeMarker else s1
      if s.hasChannels then s2.pfailChannels else s2
    else s)

/-- The tally deadlines that passed under PFAIL expire at its end (spec 07 R128). -/
def State.expireTallies (s : State) : State :=
  unordered (fun l s => expired (s.channel l).deadline s.clock)
    (fun l s => if expired (s.channel l).deadline s.clock then s.expireTallyTimer l else s) [.l1, .l2] s

/-- The end of PFAIL in READY: the marker is made invalid, the silence watch restarts, deadlines that passed expire, and
kept changes are taken (R167, spec 06 R115, spec 12 R173). -/
def State.resumeReady (s : State) : State :=
  { s with startUp.marker := { s.startUp.marker with valid := false } }.restartSilence.expireTallies.takeDeferred

/-- PFAIL_DEASSERT without loss of power: the ship port is IDLE, and a part in READY resumes (R167, spec 09 R143). -/
def execPfailDeassert (s : State) : Host.Outcome State Fault Refusal :=
  .next
    (if s.powered ∧ s.pfail = true then
      let s' := { s with pfail := false, ship := .idle }
      if s.ready then s'.resumeReady else s'
    else s)

end Sys2Proof.Machine
end

