-- ==== Sys2Proof/Machine/ShipLink.lean ====
section
/-! DEFINITION. The commands of the ship link: frames discarded or owed BUSY, the end of a reply, and the record requests
(spec 09 R143 to R148). -/

namespace Sys2Proof.Machine

/-- Octets heard on a link, added to those of the frame that has begun; the frame began now where none had. -/
def heard (r : Option Receiving) (now : Second) (os : List Octet) : Receiving :=
  match r with
  | some r => { r with octets := r.octets ++ os }
  | none => { since := now, octets := os }

/-- What a receiver keeps of the octets heard: a frame that is still incomplete, or nothing once it is discarded. A
checked frame is no discard, and leaves the receiver to the command that the frame is. DESIGN CHOICE: with a frame that is
discarded go the octets behind it, and a start octet among them begins no frame (notes/assumptions/13.md). -/
def afterVerdict (old : Option Receiving) (r : Receiving) : FrameVerdict → Option Receiving
  | .incomplete => some r
  | .discarded => none
  | .taken _ => old

/-- A frame that has begun two Time Base seconds ago or more is discarded. -/
def afterTimeout (r : Option Receiving) (now : Second) : Option Receiving :=
  match r with
  | some x => if 2 ≤ elapsed x.since now then none else r
  | none => none

/-- SHIP_FRAME_DISCARD: octets that form no checked request leave no reply and nothing owed (R144). -/
def execShipFrameDiscard (octets : List Octet) (s : State) : Host.Outcome State Fault Refusal :=
  let r := heard s.ship.receiving s.clock octets
  .next
    (if s.linkUp then { s with ship.receiving := afterVerdict s.ship.receiving r (shipVerdict r.octets) } else s)

/-- SHIP_FRAME_INCOMPLETE_TIMEOUT: a frame not complete two seconds after its start octet is discarded (R144). -/
def execShipFrameIncompleteTimeout (s : State) : Host.Outcome State Fault Refusal :=
  .next (if s.linkUp then { s with ship.receiving := afterTimeout s.ship.receiving s.clock } else s)

/-- SHIP_FRAME_BUSY_OWED: a checked frame that completes while HANDLING is owed a BUSY reply (R143). -/
def execShipFrameBusyOwed (kind : Octet) (head : ShipHead) (s : State) : Host.Outcome State Fault Refusal :=
  .next
    (if s.linkUp ∧ s.ship.sending.isSome then
      { s with ship.busyOwed := some ⟨kind, head⟩, ship.receiving := none }
    else s)

/-- The reply's last octet has left: the owed BUSY reply is sent, or the port is IDLE. -/
def ShipPort.replyEnds (p : ShipPort) : ShipPort :=
  match p.busyOwed with
  | some r => { p with sending := some ⟨r.kind, r.head, .busy, []⟩, inHand := none, busyOwed := none }
  | none => { p with sending := none, inHand := none }

/-- SHIP_REPLY_END (R143). -/
def execShipReplyEnd (s : State) : Host.Outcome State Fault Refusal :=
  .next (if s.powered ∧ s.ship.sending.isSome then { s with ship := s.ship.replyEnds } else s)

/-- LOOK: the record named, whole, as it stands (R146). -/
def execLook (head : ShipHead) (s : State) : Host.Outcome State Fault Refusal :=
  .next
    (s.takeRequest 1 head fun s =>
      s.recordRequest head true State.recordExists fun t k s => ⟨.done, s.lookup t k, s⟩)

/-- PUT: field values put into one record, whole or not at all (R147). -/
def execPut (head : ShipHead) (pairs : List Pair) (s : State) : Host.Outcome State Fault Refusal :=
  .next
    (s.takeRequest 2 head fun s =>
      s.recordRequest head false State.putExists fun t k s => s.putRecord t k pairs)

/-- RETIRE: the record removed where its owning rule allows (R145, Table 9.2). -/
def execRetire (head : ShipHead) (s : State) : Host.Outcome State Fault Refusal :=
  .next
    (s.takeRequest 3 head fun s =>
      s.recordRequest head false State.recordExists fun t k s => s.retireRecord t k)

/-- CLEAR: the named change flags of a record made CLEAR (R148). -/
def execClear (head : ShipHead) (codes : List Octet) (s : State) : Host.Outcome State Fault Refusal :=
  .next
    (s.takeRequest 4 head fun s =>
      s.recordRequest head false State.recordExists fun t k s => s.clearRecord codes t k)

/-- UNKNOWN_REQUEST_KIND: BAD VALUE before every other check (R145). -/
def execUnknownRequestKind (kind : Octet) (head : ShipHead) (s : State) : Host.Outcome State Fault Refusal :=
  .next (s.takeRequest kind.toNat head fun s => s.answer .badValue)

end Sys2Proof.Machine
end

