-- ==== Sys2Proof/Machine/Actions.lean ====
section
/-! DEFINITION. The actions of the ship link but for those of the trial (spec 09 Table 9.3): RUN, HALT, REARM, RELEASE,
FORCE, END POUR, RESTART, PURGE, RELOAD, and the steps of a PURGE. -/

namespace Sys2Proof.Machine

/-! ### RUN, HALT and REARM (spec 06 R91, R92, R111) -/

/-- RUN where the sequencer is HALTED or HALTING: every OFF station looks for an order. -/
def State.runSequencer (s : State) : State :=
  if s.ballast.state = .running then s
  else
    let s' := { s with ballast.state := .running }
    s'.settle true s'

/-- RUN (R91). -/
def execRun (head : ShipHead) (s : State) : Host.Outcome State Fault Refusal :=
  .next
    (s.takeRequest 16 head fun s => s.actionRequest false fun s => s.keyless head fun s => s.unlessFault fun s =>
      ⟨.done, [], s.runSequencer⟩)

/-- A station that HALT stops: one that runs an order (R92). -/
def State.haltActs (g : Nat) (s : State) : Bool :=
  (s.station g).state.working && (s.station g).active.isSome

/-- HALT while RUNNING: every station that runs an order returns it and stops. -/
def State.haltSequencer (s : State) : State :=
  let s' := { s with ballast.state := .halting }
  (unordered State.haltActs (fun g s => s.haltStation g) s.groupNumbers s').settle false s'

/-- HALT answered: DONE where every station rests, ACCEPTED otherwise, and DONE without effect unless RUNNING. -/
def State.haltAnswer (s : State) : Answer :=
  if s.ready ∧ s.ballast.state = .running then
    let s' := s.haltSequencer
    ⟨if s'.ballast.state = .halted then .done else .accepted, [], s'⟩
  else s.answer .done

/-- HALT (R92). -/
def execHalt (head : ShipHead) (s : State) : Host.Outcome State Fault Refusal :=
  .next
    (s.takeRequest 17 head fun s => s.actionRequest false fun s => s.keyless head fun s => s.haltAnswer)

/-- REARM may be taken: TRIPPED, the pump reported STOPPED, and no valve of the line in FAULT (R111). -/
def State.mayRearm (s : State) (g : Nat) : Bool :=
  let st := s.station g
  decide (st.state = .tripped ∧ st.pumpReported = .stopped) &&
    (.suction g :: .overboard g :: st.closing.map .tank).all fun v => decide ((s.valve v).reported ≠ .fault)

/-- REARM answered: group 0, which no group has, is BAD VALUE by R149, since R111 gives NO RECORD for a group above the
count only (notes/assumptions/10.md). -/
def State.rearmAnswer (g : Nat) (s : State) : Answer :=
  if s.ready ∧ g = 0 then s.answer .badValue
  else if s.hasGroup g = false then s.answer .noRecord
  else if s.mayRearm g then ⟨.done, [], (s.updStation g ({ · with state := .off })).settle false s⟩
  else s.answer .state

/-- REARM (R111). -/
def execRearm (head : ShipHead) (s : State) : Host.Outcome State Fault Refusal :=
  .next (s.takeRequest 18 head fun s => s.actionRequest false fun s => s.rearmAnswer head.key.toNat)

/-! ### RELEASE and FORCE (spec 07 R125, R126) -/

/-- Released SET on the named channels; each channel whose flag changed is derived anew (R125). DESIGN CHOICE: one
that was released already is neither derived nor owed a derivation (notes/assumptions/24.md). -/
def State.release (ls : List Loader) (s : State) : State :=
  let changed := ls.filter fun l => !(s.channel l).released
  (ls.foldl (fun s l => s.updChannel l ({ · with released := true })) s).deriveBoth changed

/-- RELEASE (R125). -/
def execRelease (head : ShipHead) (s : State) : Host.Outcome State Fault Refusal :=
  .next
    (s.takeRequest 19 head fun s => s.actionRequest false fun s =>
      match channelsOfKey head.key.toNat with
      | some ls => ⟨.done, [], s.release ls⟩
      | none => s.answer .badValue)

/-- The level that FORCE names: one pair of identifier 1 (spec 09 R149). -/
def forceLevel : List Pair → Option ForcedLevel
  | [p] => if p.ident = 1 then namedAt forcedLevels p.value.toInt else none
  | _ => none

/-- A forced level stored on the named channels, whose outputs are rewritten, and a cause of derivation of each (R122,
R126). -/
def State.force (ls : List Loader) (f : ForcedLevel) (s : State) : State :=
  let s := ls.foldl (fun s l => (s.updChannel l ({ · with forced := f })).oweDerivation l) s
  unordered (fun l s => decide ((s.channel l).outputs.1 ≠ (s.channel l).output)) (fun l s => s.rewriteOutput l) ls s

/-- FORCE (R126). -/
def execForce (head : ShipHead) (pairs : List Pair) (s : State) : Host.Outcome State Fault Refusal :=
  .next
    (s.takeRequest 20 head fun s => s.actionRequest false fun s =>
      match channelsOfKey head.key.toNat, forceLevel pairs with
      | some ls, some f => ⟨.done, [], s.force ls f⟩
      | _, _ => s.answer .badValue)

/-! ### END POUR (spec 04 R69) -/

/-- END POUR answered. -/
def State.endPourAnswer (n : Nat) (s : State) : Answer :=
  if s.ready then
    match s.pour n with
    | none => s.answer .noRecord
    | some p => if p.state = .interrupted then ⟨.done, [], s.closePour p⟩ else s.answer .state
  else s.answer .noRecord

/-- END_POUR (R69). -/
def execEndPour (head : ShipHead) (s : State) : Host.Outcome State Fault Refusal :=
  .next (s.takeRequest 21 head fun s => s.actionRequest true fun s => s.endPourAnswer head.key.toNat)

/-! ### RESTART, PURGE and RELOAD (spec 11 R168 to R170) -/

/-- RESTART (R169). -/
def execRestart (head : ShipHead) (s : State) : Host.Outcome State Fault Refusal :=
  .next
    (s.takeRequest 22 head fun s => s.actionRequest false fun s => s.keyless head fun s =>
      if s.atRest then ⟨.done, [], s.restart⟩ else s.answer .state)

/-- PURGE (R170). -/
def execPurge (head : ShipHead) (s : State) : Host.Outcome State Fault Refusal :=
  .next
    (s.takeRequest 23 head fun s => s.actionRequest true fun s => s.keyless head fun s =>
      if s.atRest ∧ s.pourRuns = false then ⟨.accepted, [], s.purge⟩ else s.answer .state)

/-- PURGE_STEP: one pour folded or removed; paused while PFAIL is asserted (R167, R170). -/
def execPurgeStep (s : State) : Host.Outcome State Fault Refusal :=
  .next (if s.ballastUp ∧ s.startUp.purgeRunning = true then s.purgeOne else s)

/-- RELOAD may be accepted: in PROFILE FAULT, or in READY at rest with no pour running (R168). -/
def State.mayReload (s : State) : Bool :=
  decide (s.startUp.phase = .profileFault) || (s.atRest && !s.pourRuns)

/-- RELOAD (R168). -/
def execReload (head : ShipHead) (s : State) : Host.Outcome State Fault Refusal :=
  .next
    (s.takeRequest 24 head fun s => s.actionRequest false fun s =>
      if 15 < head.key.toNat then s.answer .badValue
      else if s.mayReload then ⟨.accepted, [], s.reload (head.key.setWidth 4)⟩
      else s.answer .state)

end Sys2Proof.Machine
end

