-- ==== Sys2Proof/Machine/Trials.lean ====
section
/-! DEFINITION. The trial's requests: TRIAL OPEN, TRIAL PUT, TRIAL EVALUATE, TRIAL CLOSE (spec 10 R157 to R159, R162). -/

namespace Sys2Proof.Machine

/-- The current masses of the compartments: holds, then tanks, then items. -/
def State.masses (s : State) : List Nat := s.holds.map (·.current) ++ s.tanks.map (·.current) ++ s.items

/-- A trial as opening begins it (R157). -/
def State.newTrial (s : State) : Trial :=
  { masses := s.masses, limitSet := s.settings.limitSet, caution := s.settings.caution
    maxDraft := s.berth.maxDraft, hold1 := none, hold2 := none, pending := false, inFlight := false
    generation := 0, result := none, rooms := [] }

/-- A trial action: BUSY while LOADING or a PURGE runs, BAD VALUE for a key, STATE in PROFILE FAULT. -/
def State.trialRequest (s : State) (head : ShipHead) (respond : State → Answer) : Answer :=
  s.actionRequest true fun s => s.keyless head fun s => s.unlessFault respond

/-- The trial changed where it is open. -/
def State.setTrial (t : Option Trial) (s : State) : State := { s with engine.trial := t }

/-- TRIAL_OPEN (R157). -/
def execTrialOpen (head : ShipHead) (s : State) : Host.Outcome State Fault Refusal :=
  .next
    (s.takeRequest 25 head fun s => s.trialRequest head fun s =>
      match s.engine.trial with
      | some _ => s.answer .state
      | none => ⟨.done, [], s.setTrial (some s.newTrial)⟩)

/-- The number of compartments of the profile. -/
def State.compartments (s : State) : Nat := s.counts.holds + s.counts.tanks + s.counts.items

/-- The fields that a TRIAL PUT may name. -/
def State.trialFields (s : State) : List (BitVec 16) :=
  ((List.range s.compartments).map fun i => fieldId 2 (2 * i)) ++
    [fieldId 3 0, fieldId 4 0, fieldId 5 0, fieldId 6 0, fieldId 6 2]

/-- The largest mass of a compartment. -/
def State.massLimit (s : State) (i : Nat) : Nat :=
  if i < s.counts.holds then 400000
  else if i < s.counts.holds + s.counts.tanks then (s.tankData (i - s.counts.holds + 1)).capacity
  else 100000

/-- A trial hold that an element will have after the pairs. -/
def trialHoldAfter (ps : List Pair) (place : Nat) (old : Option Nat) : Option Nat :=
  match intAt ps 6 place with
  | some v => groupOrNone v
  | none => old

/-- The two trial holds name the same hold. -/
def sameHold (a b : Option Nat) : Bool := a.isSome && decide (a = b)

/-- The value of a pair is refused for the trial (R158, check 2). -/
def State.trialValueFails (s : State) (t : Trial) (ps : List Pair) (p : Pair) : Bool :=
  let holdFails (v : Int) : Bool := decide (v ≠ -1) && !inRange 1 s.counts.holds v
  valueFails (fieldId 3 0) (fun v => (namedAt limitSets v).isNone) p ||
  valueFails (fieldId 6 0) holdFails p || valueFails (fieldId 6 2) holdFails p ||
  (decide (p.ident = fieldId 6 0 ∨ p.ident = fieldId 6 2) &&
    sameHold (trialHoldAfter ps 0 t.hold1) (trialHoldAfter ps 2 t.hold2))

/-- The trial with the pairs stored, clamped (R158). -/
def State.trialAfterPut (s : State) (t : Trial) (ps : List Pair) : Trial :=
  { t with
    masses := t.masses.zipIdx.map fun (m, i) => (intAt ps 2 (2 * i)).elim m (clamp 0 (s.massLimit i))
    limitSet := ((intAt ps 3 0).bind (namedAt limitSets)).getD t.limitSet
    caution := (intAt ps 4 0).elim t.caution cautionOf
    maxDraft := (intAt ps 5 0).elim t.maxDraft berthDraft
    hold1 := trialHoldAfter ps 0 t.hold1
    hold2 := trialHoldAfter ps 2 t.hold2 }

/-- TRIAL PUT answered. -/
def State.trialPutAnswer (ps : List Pair) (s : State) : Answer :=
  match s.engine.trial with
  | none => s.answer .state
  | some t =>
    if countLegal ps then
      s.takePut ps [unknownField s.trialFields, ⟨.badValue, s.trialValueFails t ps, false⟩]
        (fun s => s.setTrial (some (s.trialAfterPut t ps))) (fun s => trialRecord s.engine)
    else s.answer .badValue

/-- TRIAL_PUT (R158). -/
def execTrialPut (head : ShipHead) (pairs : List Pair) (s : State) : Host.Outcome State Fault Refusal :=
  .next (s.takeRequest 26 head fun s => s.trialRequest head fun s => s.trialPutAnswer pairs)

/-- TRIAL_EVALUATE (R159). -/
def execTrialEvaluate (head : ShipHead) (s : State) : Host.Outcome State Fault Refusal :=
  .next
    (s.takeRequest 27 head fun s => s.trialRequest head fun s =>
      match s.engine.trial with
      | none => s.answer .state
      | some t => ⟨.accepted, [], s.setTrial (some { t with pending := true })⟩)

/-- TRIAL_CLOSE (R162). -/
def execTrialClose (head : ShipHead) (s : State) : Host.Outcome State Fault Refusal :=
  .next
    (s.takeRequest 28 head fun s => s.trialRequest head fun s =>
      ⟨.done, [], { s with engine := s.engine.closeTrial }⟩)

end Sys2Proof.Machine
end

