-- ==== Sys2Proof/Machine/Passes.lean ====
section
/-! DEFINITION. The passes of the Strength Engine, the computation of the Clearance Unit, and the derivation and tally
timer of the Loader Interlock (spec 02 R24 to R39, spec 03 R51, spec 07 R122, R124, spec 10 R159, R160). -/

namespace Sys2Proof.Machine

/-! ### Live passes (spec 02 R24 to R27, R38) -/

/-- The inputs of a live pass as they stand (R25). -/
def State.liveSnapshot (s : State) : Snapshot :=
  { masses := s.masses, limitSet := s.settings.limitSet, caution := s.settings.caution
    maxDraft := s.berth.maxDraft }

/-- LIVE_PASS_START: the engine is IDLE and live dirty SET (R24, R25). -/
def execLivePassStart (s : State) : Host.Outcome State Fault Refusal :=
  .next
    (if s.ready ∧ s.engine.state = .idle ∧ s.engine.dirty = true then
      { s with engine.state := .livePass s.liveSnapshot, engine.dirty := false }
    else s)

/-- Two drafts at least a step apart. -/
def stepApart (step a b : Nat) : Bool := decide (step ≤ max a b - min a b)

/-- The draft-step test of a publication (spec 08 R139). -/
def State.draftStepTest (r : ResultSet) (s : State) : State :=
  let far (last : Option Nat) (q : Quantity) : Bool :=
    match last with
    | none => true
    | some d => stepApart s.settings.draftStep q.value.toNat d
  if far s.terminal.lastFore r.fore || far s.terminal.lastAft r.aft then s.makeDue .draft else s

/-- A live publication: the set replaced whole, the STRENGTH flag, and what is handed on (R26, R38, Table 2.4). DESIGN
CHOICE: the draft-step test comes before the computation and the derivations (notes/assumptions/23.md). -/
def State.publish (r : ResultSet) (s : State) : State :=
  let s :=
    { s with
      engine.state := .idle, engine.live := some r
      engine.strengthFlag := s.engine.strengthFlag || statusChanged s.engine.live r }
  ((s.oweComputation.oweDerivations).draftStepTest r).handBallast (.publication r) (State.ballastPublication r)

/-- LIVE_PASS_END (R26, R29 to R38). -/
def execLivePassEnd (s : State) : Host.Outcome State Fault Refusal :=
  .next
    (if s.ready then
      match s.engine.state with
      | .livePass snap => s.publish (evaluate s.hull snap (nextGeneration s.generation))
      | _ => s
    else s)

/-! ### Trial passes (spec 10 R159, R160) -/

/-- A trial's inputs as they stand. -/
def Trial.snapshot (t : Trial) : Snapshot :=
  { masses := t.masses, limitSet := t.limitSet, caution := t.caution, maxDraft := t.maxDraft }

/-- TRIAL_PASS_START: the engine is IDLE, live dirty CLEAR and trial pending SET (spec 02 R24, R159). -/
def execTrialPassStart (s : State) : Host.Outcome State Fault Refusal :=
  .next
    (if s.ready ∧ s.engine.state = .idle ∧ s.engine.dirty = false then
      match s.engine.trial with
      | some t =>
        if t.pending then
          { s with
            engine.state := .trialPass t.snapshot t.hold1 t.hold2
            engine.trial := some { t with pending := false, inFlight := true } }
        else s
      | none => s
    else s)

/-- The hold's room to its maximum mass by a pass's inputs. -/
def trialHoldRoom (h : Hull) (snap : Snapshot) (hold : Nat) : Nat :=
  holdRoom ((nth1 h.holds hold).getD default) (snap.masses[holdIndex hold]?.getD 0)

/-- The rooms of one trial hold, the other being given where both are present (R160). -/
def trialRoomOf (h : Hull) (r : ResultSet) (snap : Snapshot) (hold : Nat) (other : Option Nat) : TrialRoom :=
  let own := ownRoom h r hold (trialHoldRoom h snap hold)
  let joint := other.map (jointRoom h r hold)
  { hold := hold, own := own, joint := joint, strength := strengthRoomOf own joint }

/-- The rooms of the trial holds that the pass took. -/
def trialRooms (h : Hull) (r : ResultSet) (snap : Snapshot) (hold1 hold2 : Option Nat) : List TrialRoom :=
  (hold1.map fun x => trialRoomOf h r snap x hold2).toList ++ (hold2.map fun x => trialRoomOf h r snap x hold1).toList

/-- A trial publication (R160). -/
def Trial.published (t : Trial) (h : Hull) (snap : Snapshot) (hold1 hold2 : Option Nat) : Trial :=
  let r := evaluate h snap (nextGeneration t.generation)
  { t with
    generation := r.generation, result := some r, rooms := trialRooms h r snap hold1 hold2, inFlight := false }

/-- TRIAL_PASS_END: the figures of a trial closed meanwhile are discarded (R160, R162). -/
def execTrialPassEnd (s : State) : Host.Outcome State Fault Refusal :=
  .next
    (if s.ready then
      match s.engine.state with
      | .trialPass snap h1 h2 =>
        match s.engine.trial with
        | some t =>
          if t.inFlight then
            { s with
              engine.state := .idle, engine.trial := some (t.published s.hull snap h1 h2), engine.trialDone := true }
          else { s with engine.state := .idle }
        | none => { s with engine.state := .idle }
      | _ => s
    else s)

/-! ### Computations, derivations and the tally timer -/

/-- CLEARANCE_COMPUTATION: the whole computation of one cause (spec 03 R51 to R53). -/
def execClearanceComputation (s : State) : Host.Outcome State Fault Refusal :=
  .next (if s.ready ∧ 0 < s.pours.computationsOwed then s.compute else s)

/-- CHANNEL_DERIVATION: the whole derivation of one cause (spec 07 R122). -/
def execChannelDerivation (loader : Loader) (s : State) : Host.Outcome State Fault Refusal :=
  .next (if s.hasChannels ∧ 0 < (s.channel loader).derivationsOwed then s.takeDerivation loader else s)

/-- TALLY_TIMER_EXPIRY: the deadline is reached; not taken while PFAIL is asserted (spec 07 R124, R128). -/
def execTallyTimerExpiry (loader : Loader) (s : State) : Host.Outcome State Fault Refusal :=
  .next
    (if s.ballastUp ∧ expired (s.channel loader).deadline s.clock = true then s.expireTallyTimer loader else s)

end Sys2Proof.Machine
end

