-- ==== Sys2Proof/Machine/Terminal.lean ====
section
/-! DEFINITION. The commands of the terminal link: notices, and the frames that go out (spec 04 R63 to R68, spec 08 R130
to R141). -/

namespace Sys2Proof.Machine

/-- A notice taken (spec 08 R130): refused STARTING while LOADING and with the reason given in PROFILE FAULT, acted on
in READY; a frame that arrives in RESET or under PFAIL is not taken. -/
def State.takeNotice (kind : NoticeKind) (loader : Option Loader) (sequence : Option (BitVec 16)) (inFault : Reason)
    (act : State → State) (s : State) : State :=
  if s.linkUp then
    let s := { s with terminal.receiving := none }
    match s.startUp.phase with
    | .ready => act s
    | .profileFault => s.placeReply ⟨kind, loader, sequence, some inFault⟩
    | .loading | .reset => s.placeReply ⟨kind, loader, sequence, some .starting⟩
  else s

/-- TERMINAL_FRAME_DISCARD: octets that form no notice change nothing else (spec 08 R130). -/
def execTerminalFrameDiscard (octets : List Octet) (s : State) : Host.Outcome State Fault Refusal :=
  let r := heard s.terminal.receiving s.clock octets
  .next
    (if s.linkUp then
      { s with terminal.receiving := afterVerdict s.terminal.receiving r (terminalVerdict r.octets) }
    else s)

/-- POUR_START (spec 04 R63, R64). -/
def execPourStart (loader : Loader) (sequence : BitVec 16) (rate : BitVec 32) (s : State) :
    Host.Outcome State Fault Refusal :=
  .next
    (s.takeNotice .pourStart (some loader) (some sequence) .noPour
      (fun s =>
        match s.startRefusal loader sequence.toNat with
        | some reason => s.placeReply ⟨.pourStart, some loader, some sequence, some reason⟩
        | none =>
          (s.acceptStart loader sequence.toNat rate.toInt).placeReply
            ⟨.pourStart, some loader, some sequence, none⟩))

/-- TALLY (spec 04 R65, R66). -/
def execTally (loader : Loader) (amount : BitVec 32) (s : State) : Host.Outcome State Fault Refusal :=
  .next
    (s.takeNotice .tally (some loader) none .noPour
      (fun s =>
        match s.activePour loader with
        | none => s.placeReply ⟨.tally, some loader, none, some .noPour⟩
        | some p =>
          if (p.tallied : Int) ≤ amountOf amount.toInt then
            s.acceptTally loader p (amountOf amount.toInt).toNat
          else (s.tallyFault loader).placeReply ⟨.tally, some loader, none, some .regression⟩))

/-- POUR_END (spec 04 R68). -/
def execPourEnd (loader : Loader) (final : BitVec 32) (s : State) : Host.Outcome State Fault Refusal :=
  .next
    (s.takeNotice .pourEnd (some loader) none .noPour
      (fun s =>
        match s.activePour loader with
        | none => s.placeReply ⟨.pourEnd, some loader, none, some .noPour⟩
        | some p => (s.endActive loader p final.toInt).placeReply ⟨.pourEnd, some loader, none, none⟩))

/-- A draft that the terminal gives: a draft that differs SETs the BERTH flag (spec 08 R132). -/
def State.terminalBerth (draft : Nat) (s : State) : State :=
  let s' := s.storeBerth draft .terminal
  if s.berth.maxDraft = draft then s' else { s' with berth.flag := true }

/-- BERTH (spec 08 R132). -/
def execBerth (draft : BitVec 32) (s : State) : Host.Outcome State Fault Refusal :=
  .next
    (s.takeNotice .berth none none .profileFault
      (fun s => (s.terminalBerth (berthDraft draft.toInt)).placeReply ⟨.berth, none, none, none⟩))

/-- A request that R141 ignores. -/
def State.requestIgnored (s : State) (slot : Slot) : Bool :=
  s.loading ||
    match slot with
    | .clearance _ => false
    | .draft => decide (s.startUp.phase = .profileFault)
    | .pourSummary l => (s.terminal.noted.get l).isNone

/-- REPORT_REQUEST (spec 08 R141). -/
def execReportRequest (slot : Slot) (s : State) : Host.Outcome State Fault Refusal :=
  .next
    (if s.linkUp then
      let s := { s with terminal.receiving := none }
      if s.requestIgnored slot then s else s.makeDue slot
    else s)

/-! ### Transmission (spec 08 R136, R137, R139, R140) -/

/-- A CLEARANCE report as the records stand (R137). -/
def State.clearanceReport (s : State) (l : Loader) : ClearanceReport :=
  let c := s.channel l
  let p := s.channelPour l
  { loader := l, sequence := c.currentPour, hold := p.map (·.hold), output := c.output, outputCause := c.outputCause
    lastForbid := c.lastForbid, clearance := p.elim 0 (·.clearance), timeToLimit := p.elim 65535 (·.timeToLimit)
    generation := p.elim s.generation (·.basis) }

/-- The figures of the live set that a DRAFT report carries. -/
def draftFigures (r : ResultSet) : DraftFigures :=
  { fore := r.fore.value.toNat, aft := r.aft.value.toNat, mean := r.mean, trim := r.trim.value
    displacement := r.displacement, worst := r.worst }

/-- A DRAFT report as the records stand (R139). -/
def State.draftReport (s : State) : DraftReport :=
  { generation := s.generation, figures := s.engine.live.map draftFigures, maxDraft := s.berth.maxDraft
    source := s.berth.source }

/-- The frame of a slot, where its report can be formed. -/
def State.slotFrame (s : State) : Slot → Option TerminalFrame
  | .clearance l => some (.clearance (s.clearanceReport l))
  | .draft => if s.startUp.phase = .profileFault then none else some (.draft s.draftReport)
  | .pourSummary l =>
    (s.terminal.noted.get l).map fun n =>
      .summary { loader := l, noted := n, massAfter := (s.hold n.hold).current }

/-- The last-sent values that a frame's start sets. -/
def TerminalPort.lastSent (p : TerminalPort) : TerminalFrame → TerminalPort
  | .clearance r => { p with lastClearance := p.lastClearance.put r.loader (some r.clearance) }
  | .draft r => { p with lastFore := r.figures.map (·.fore), lastAft := r.figures.map (·.aft) }
  | .reply _ | .summary _ => p

/-- The first slot of the due order whose report can be formed, with its frame. -/
def State.firstSlot (s : State) : List Slot → Option (Slot × TerminalFrame)
  | [] => none
  | x :: xs =>
    match s.slotFrame x with
    | some f => some (x, f)
    | none => s.firstSlot xs

/-- The next frame chosen and begun: the oldest reply, else the slot at the head of the due order (R136). -/
def State.sendNext (s : State) : State :=
  match s.terminal.fifo with
  | r :: rest => { s with terminal.fifo := rest, terminal.sending := some (.reply r) }
  | [] =>
    match s.firstSlot s.terminal.due with
    | some (x, f) =>
      { s with
        terminal := { s.terminal with due := s.terminal.due.filter (· ≠ x), sending := some f }.lastSent f }
    | none => s

/-- A link may begin a frame: powered, out of RESET and PFAIL inactive. -/
def State.maySend (s : State) : Bool := s.linkUp

/-- TERMINAL_SEND_START: the outbound direction is free and there is something to send (R136, R142). -/
def execTerminalSendStart (s : State) : Host.Outcome State Fault Refusal :=
  .next (if s.maySend ∧ s.terminal.sending = none then s.sendNext else s)

/-- TERMINAL_FRAME_END: the frame's last octet has left (R136). -/
def execTerminalFrameEnd (s : State) : Host.Outcome State Fault Refusal :=
  .next (if s.powered then { s with terminal.sending := none } else s)

end Sys2Proof.Machine
end

