-- ==== Sys2Proof/Machine/Field.lean ====
section
/-! DEFINITION. The commands of the field link and of the timers it feeds: reports taken, commands sent, silence, stale
and settle expiries, and the deadlines of valves and stations (spec 12 R171 to R174, spec 01 R12 to R17, spec 06). -/

namespace Sys2Proof.Machine

/-- A field frame taken (spec 12 R171 to R173): it restarts the silence watch where it runs, and is then dispatched where
its identifier names something in the profile. -/
def State.takeField (present : State → Bool) (act : State → State) (s : State) : State :=
  if s.linkUp then
    let s := { s with field.receiving := none }
    if s.ready then
      let s := s.restartSilence
      if present s then act s else s
    else s
  else s

/-- FIELD_FRAME_DISCARD: octets that form no report change nothing else (R171). -/
def execFieldFrameDiscard (octets : List Octet) (s : State) : Host.Outcome State Fault Refusal :=
  let r := heard s.field.receiving s.clock octets
  .next
    (if s.linkUp then { s with field.receiving := afterVerdict s.field.receiving r (fieldVerdict r.octets) } else s)

/-- FIELD_FRAME_INCOMPLETE_TIMEOUT (R171). -/
def execFieldFrameIncompleteTimeout (s : State) : Host.Outcome State Fault Refusal :=
  .next (if s.linkUp then { s with field.receiving := afterTimeout s.field.receiving s.clock } else s)

/-- What a good sounding hands on (spec 01 Table 1.8): `before` is the tank as it stood. -/
def State.handSounding (t : Nat) (before : Tank) (s : State) : State :=
  let massDiffers := decide ((s.tank t).current ≠ before.current)
  let s1 := if massDiffers then s.markDirty else s
  let s1 := if massDiffers || decide (before.status = .stale) then s1.oweComputation else s1
  (s1.ballastSounding t).settle true s

/-- A good sounding of a tank of the profile (spec 01 R12). -/
def State.goodSounding (t reading : Nat) (s : State) : State :=
  (s.updTank t (·.sounded (s.tankData t) s.clock reading)).handSounding t (s.tank t)

/-- SOUNDING: a BAD one is ignored by the Sounding Converter (spec 01 R12, R13). -/
def execSounding (tank : Octet) (good : Bool) (reading : BitVec 16) (s : State) :
    Host.Outcome State Fault Refusal :=
  .next
    (s.takeField (fun s => s.hasTank tank.toNat)
      (fun s => if good then s.goodSounding tank.toNat reading.toNat else s))

/-- VALVE_POSITION (spec 06 R94, R96, R97). -/
def execValvePosition (key : Octet) (position : PositionReport) (s : State) : Host.Outcome State Fault Refusal :=
  .next
    (s.takeField (fun s => (valveOfKey key.toNat).any s.hasValve)
      (fun s =>
        match valveOfKey key.toNat with
        | some v => (s.valveReport v (PositionReport.reported position)).settle false s
        | none => s))

/-- PUMP_STATUS (spec 06 R100). -/
def execPumpStatus (group : Octet) (status : PumpReport) (s : State) : Host.Outcome State Fault Refusal :=
  .next
    (s.takeField (fun s => s.hasGroup group.toNat) (fun s => (s.pumpReport group.toNat status).settle false s))

/-- A LOCAL SWITCH report recorded and answered (spec 06 R112). -/
def State.switchReport (g : Nat) (p : SwitchPosition) (s : State) : State :=
  let s := s.updStation g ({ · with switch := p })
  if p = .localControl ∧ (s.station g).state ≠ .localControl then s.enterLocal g
  else if p = .remote ∧ (s.station g).state = .localControl then s.leaveLocal g
  else s

/-- LOCAL_SWITCH (spec 06 R112). -/
def execLocalSwitch (group : Octet) (position : SwitchPosition) (s : State) : Host.Outcome State Fault Refusal :=
  .next
    (s.takeField (fun s => s.hasGroup group.toNat) (fun s => (s.switchReport group.toNat position).settle false s))

/-- The command at the head of the list removed and its frame begun. -/
def FieldPort.begin (p : FieldPort) : FieldPort :=
  match p.sending, p.outbound with
  | none, c :: rest => { p with outbound := rest, sending := some c }
  | _, _ => p

/-- FIELD_SEND_START (R174, R175). -/
def execFieldSendStart (s : State) : Host.Outcome State Fault Refusal :=
  .next (if s.linkUp then { s with field := s.field.begin } else s)

/-- FIELD_FRAME_END (R174). -/
def execFieldFrameEnd (s : State) : Host.Outcome State Fault Refusal :=
  .next (if s.powered then { s with field.sending := none } else s)

/-- FIELD_SILENCE_EXPIRY (R173, spec 06 R114). -/
def execFieldSilenceExpiry (s : State) : Host.Outcome State Fault Refusal := .next s.silenceExpires

/-- STALE_EXPIRY (spec 01 R14). -/
def execStaleExpiry (tank : Nat) (s : State) : Host.Outcome State Fault Refusal :=
  .next (if s.hasTank tank then s.staleExpires tank else s)

/-- STRIP_SETTLE_EXPIRY (spec 01 R16). -/
def execStripSettleExpiry (tank : Nat) (s : State) : Host.Outcome State Fault Refusal :=
  .next (if s.hasTank tank then s.settleExpires tank else s)

/-- VALVE_TRAVEL_TIMEOUT (spec 06 R95). -/
def execValveTravelTimeout (valve : ValveId) (s : State) : Host.Outcome State Fault Refusal :=
  .next
    (if s.ballastUp ∧ s.hasValve valve = true ∧ s.travelExpired valve = true then
      (s.travelTimeout valve).settle false s
    else s)

/-- PRIMING_EXPIRY (spec 06 R105). -/
def execPrimingExpiry (group : Nat) (s : State) : Host.Outcome State Fault Refusal :=
  .next
    (if s.ballastUp ∧ s.hasGroup group = true ∧ (s.station group).state = .priming ∧ s.stateExpired group = true then
      (s.primingEnds group).settle false s
    else s)

/-- RUNDOWN_EXPIRY (spec 06 R109). -/
def execRundownExpiry (group : Nat) (s : State) : Host.Outcome State Fault Refusal :=
  .next
    (if s.ballastUp ∧ s.hasGroup group = true ∧ (s.station group).state = .stopping .rundown ∧
        s.stateExpired group = true then
      (s.rundownEnds group).settle false s
    else s)

/-- DRY_RUN_CONDITION (spec 06 R101, R106, R107). -/
def execDryRunCondition (group : Nat) (s : State) : Host.Outcome State Fault Refusal :=
  .next
    (if s.ballastUp ∧ s.hasGroup group = true ∧ s.runsDry group = true then (s.dryRunActs group).settle false s
    else s)

end Sys2Proof.Machine
end

