-- ==== Sys2Proof/Machine/Dispatch.lean ====
section
/-! DEFINITION. What each command does: one arm for each constructor of `Instr`, in the table's order. -/

namespace Sys2Proof.Machine

def exec (i : Instr) (s : State) : Host.Outcome State Fault Refusal :=
  match i with
  | .powerOn => Sys2Proof.Machine.execPowerOn s
  | .powerLoss => Sys2Proof.Machine.execPowerLoss s
  | .timeBaseTick => Sys2Proof.Machine.execTimeBaseTick s
  | .resetNAssert => Sys2Proof.Machine.execResetNAssert s
  | .resetNRelease psel lock retain => Sys2Proof.Machine.execResetNRelease psel lock retain s
  | .profileReadComplete read => Sys2Proof.Machine.execProfileReadComplete read s
  | .profileReadTimeout => Sys2Proof.Machine.execProfileReadTimeout s
  | .pfailAssert => Sys2Proof.Machine.execPfailAssert s
  | .pfailDeassert => Sys2Proof.Machine.execPfailDeassert s
  | .shipFrameDiscard octets => Sys2Proof.Machine.execShipFrameDiscard octets s
  | .shipFrameIncompleteTimeout => Sys2Proof.Machine.execShipFrameIncompleteTimeout s
  | .shipFrameBusyOwed kind head => Sys2Proof.Machine.execShipFrameBusyOwed kind head s
  | .shipReplyEnd => Sys2Proof.Machine.execShipReplyEnd s
  | .look head => Sys2Proof.Machine.execLook head s
  | .put head pairs => Sys2Proof.Machine.execPut head pairs s
  | .retire head => Sys2Proof.Machine.execRetire head s
  | .clear head codes => Sys2Proof.Machine.execClear head codes s
  | .run head => Sys2Proof.Machine.execRun head s
  | .halt head => Sys2Proof.Machine.execHalt head s
  | .rearm head => Sys2Proof.Machine.execRearm head s
  | .release head => Sys2Proof.Machine.execRelease head s
  | .force head pairs => Sys2Proof.Machine.execForce head pairs s
  | .endPour head => Sys2Proof.Machine.execEndPour head s
  | .restart head => Sys2Proof.Machine.execRestart head s
  | .purge head => Sys2Proof.Machine.execPurge head s
  | .purgeStep => Sys2Proof.Machine.execPurgeStep s
  | .reload head => Sys2Proof.Machine.execReload head s
  | .trialOpen head => Sys2Proof.Machine.execTrialOpen head s
  | .trialPut head pairs => Sys2Proof.Machine.execTrialPut head pairs s
  | .trialEvaluate head => Sys2Proof.Machine.execTrialEvaluate head s
  | .trialClose head => Sys2Proof.Machine.execTrialClose head s
  | .livePassStart => Sys2Proof.Machine.execLivePassStart s
  | .livePassEnd => Sys2Proof.Machine.execLivePassEnd s
  | .trialPassStart => Sys2Proof.Machine.execTrialPassStart s
  | .trialPassEnd => Sys2Proof.Machine.execTrialPassEnd s
  | .clearanceComputation => Sys2Proof.Machine.execClearanceComputation s
  | .channelDerivation loader => Sys2Proof.Machine.execChannelDerivation loader s
  | .tallyTimerExpiry loader => Sys2Proof.Machine.execTallyTimerExpiry loader s
  | .terminalFrameDiscard octets => Sys2Proof.Machine.execTerminalFrameDiscard octets s
  | .pourStart loader sequence rate => Sys2Proof.Machine.execPourStart loader sequence rate s
  | .tally loader amount => Sys2Proof.Machine.execTally loader amount s
  | .pourEnd loader final => Sys2Proof.Machine.execPourEnd loader final s
  | .berth draft => Sys2Proof.Machine.execBerth draft s
  | .reportRequest slot => Sys2Proof.Machine.execReportRequest slot s
  | .terminalSendStart => Sys2Proof.Machine.execTerminalSendStart s
  | .terminalFrameEnd => Sys2Proof.Machine.execTerminalFrameEnd s
  | .fieldFrameDiscard octets => Sys2Proof.Machine.execFieldFrameDiscard octets s
  | .fieldFrameIncompleteTimeout => Sys2Proof.Machine.execFieldFrameIncompleteTimeout s
  | .sounding tank good reading => Sys2Proof.Machine.execSounding tank good reading s
  | .valvePosition key position => Sys2Proof.Machine.execValvePosition key position s
  | .pumpStatus group status => Sys2Proof.Machine.execPumpStatus group status s
  | .localSwitch group position => Sys2Proof.Machine.execLocalSwitch group position s
  | .fieldSendStart => Sys2Proof.Machine.execFieldSendStart s
  | .fieldFrameEnd => Sys2Proof.Machine.execFieldFrameEnd s
  | .fieldSilenceExpiry => Sys2Proof.Machine.execFieldSilenceExpiry s
  | .staleExpiry tank => Sys2Proof.Machine.execStaleExpiry tank s
  | .stripSettleExpiry tank => Sys2Proof.Machine.execStripSettleExpiry tank s
  | .valveTravelTimeout valve => Sys2Proof.Machine.execValveTravelTimeout valve s
  | .primingExpiry group => Sys2Proof.Machine.execPrimingExpiry group s
  | .rundownExpiry group => Sys2Proof.Machine.execRundownExpiry group s
  | .dryRunCondition group => Sys2Proof.Machine.execDryRunCondition group s
  | .unknownRequestKind kind head => Sys2Proof.Machine.execUnknownRequestKind kind head s

end Sys2Proof.Machine
end

