-- ==== Sys2Proof/Safety.lean ====
section
/-! DEFINITION. What every run of the part keeps: bounds and orders of its lists, hold masses that agree with the pours,
lines that permit pouring only where the ship has released them. -/

namespace Sys2Proof.Machine

/-- Two commands of the outbound list are for different valves or pumps (spec 12 R174). -/
def distinctTargets (a b : FieldCommand) : Prop := a.sameTarget b = false

/-- The reply FIFO holds up to four replies (spec 08 R131). -/
def State.FifoOk (s : State) : Prop := s.terminal.fifo.length ≤ 4

/-- The due order holds each slot at most once (spec 08 section 8.4). -/
def State.DueOk (s : State) : Prop := s.terminal.due.Nodup

/-- The outbound list holds at most one command for each valve and each pump (spec 12 R174). -/
def State.OutboundOk (s : State) : Prop := s.field.outbound.Pairwise distinctTargets

/-- The pour list stands in ascending sequence, shares no sequence and holds at most 48 pours of sequences 1 to 999
(spec 04 R56). -/
def State.PoursOk (s : State) : Prop :=
  s.pours.list.Pairwise (fun p q => p.sequence < q.sequence) ∧ s.pours.list.length ≤ 48 ∧
    ∀ p ∈ s.pours.list, 1 ≤ p.sequence ∧ p.sequence ≤ 999

/-- The pour is bound to the loader and runs or waits to be resumed: ACTIVE or INTERRUPTED. -/
def Pour.heldBy (p : Pour) (l : Loader) : Prop :=
  p.loader = .one l ∧ (p.state = .active ∨ p.state = .interrupted)

/-- Every pour that has been started and not ended is bound to a loader, no two of them to the same loader, and no two
ACTIVE pours fill the same hold (spec 04 R58, R64). -/
def State.StartedOk (s : State) : Prop :=
  (∀ p ∈ s.pours.list, p.state = .active ∨ p.state = .interrupted → p.loader ≠ .either) ∧
    (∀ l, s.pours.list.Pairwise fun p q => ¬(p.heldBy l ∧ q.heldBy l)) ∧
    s.pours.list.Pairwise fun p q => ¬(p.state = .active ∧ q.state = .active ∧ p.hold = q.hold)

/-- A hold as its initial mass and a pour list have it stand: the tallies of its ACTIVE, INTERRUPTED and DONE pours added, the
sum stored as 400,000 and marked where it exceeds that, and its ACTIVE pour named (spec 04 R71, spec 01 R4). -/
def Hold.standing (x : Hold) (l : List Pour) (h : Nat) : Hold :=
  let mass := x.initial + ((l.filter fun p => decide (p.hold = h ∧ p.state ≠ .planned)).map (·.tallied)).sum
  { x with
    current := min 400000 mass
    active := (l.find? fun p => decide (p.hold = h ∧ p.state = .active)).map (·.sequence)
    saturated := decide (400000 < mass) }

/-- Every hold's current mass, saturated flag and active pour are those that its initial mass and the pour list give
(spec 04 R71, spec 01 R4). -/
def State.HoldsOk (s : State) : Prop :=
  ∀ (i : Nat) (x : Hold), s.holds[i]? = some x → x = x.derivedFrom s.pours.list (i + 1)

/-- The output state is the more restrictive of the computed state and the forced level, NONE ranking below POUR; the output
cause is FORCED exactly where the forced level ranks above the computed state, and the channel's cause otherwise (spec 07 R119,
Table 7.2). -/
def Channel.outputFollows (c : Channel) : Prop :=
  let rank : LineState → Nat := fun
    | .pour => 1
    | .reduce => 2
    | .complete => 3
    | .forbid => 4
  let level : Nat := match c.forced with
    | .none => 0
    | .reduce => 2
    | .complete => 3
    | .forbid => 4
  rank c.output = max (rank c.computed) level ∧
    c.outputCause = if rank c.computed < level then some .forced else c.cause.map .derived

/-- A channel's output follows from its computed state and forced level, and its computed state is FORBID unless it is
released and the profile valid (spec 07 R119, R121). -/
def Channel.Ok (c : Channel) (phase : Phase) : Prop :=
  c.outputFollows ∧
    (c.computed ≠ .forbid → c.released = true ∧ phase ≠ .profileFault)

/-- Both channels stand so, and while PFAIL is asserted neither channel is released (spec 07 R128). -/
def State.LinesOk (s : State) : Prop :=
  ∀ l, (s.channel l).Ok s.startUp.phase ∧
    (s.pfail = true → s.hasChannels = true → (s.channel l).released = false)

/-- A BUSY reply is owed only while a reply is being sent (spec 09 R143). -/
def State.PortOk (s : State) : Prop := s.ship.sending = none → s.ship.busyOwed = none

/-- A published set's generation lies in 1..65535 (spec 02 R27). -/
def State.GenerationOk (s : State) : Prop :=
  ∀ r, s.engine.live = some r → 1 ≤ r.generation ∧ r.generation ≤ 65535

/-- A station in these states runs an order (spec 06 Table 6.4). -/
def StationState.runs : StationState → Bool
  | .lineup | .priming | .discharge | .strip | .changeover => true
  | .off | .stopping _ | .tripped | .localControl => false

/-- The pump commands that a station state admits (spec 06 Table 6.4). -/
def StationState.admits : StationState → PumpCommand → Bool
  | .off, c | .lineup, c | .stopping _, c | .tripped, c => decide (c = .stop)
  | .priming, c | .discharge, c => decide (c = .runFull)
  | .strip, c => decide (c = .runReduced)
  | .changeover, c => decide (c ≠ .stop)
  | .localControl, _ => true

/-- A station stands as Table 6.4 gives: it has an active order exactly in the states that run one, and its pump is
commanded as the state admits. -/
def Station.Ok (st : Station) : Prop :=
  st.active.isSome = st.state.runs ∧ st.state.admits st.pumpCommanded = true

/-- Every station stands so. -/
def State.StationsOk (s : State) : Prop := ∀ st ∈ s.ballast.stations, st.Ok

/-- The lengths of the sequencer's lists: orders, queues, stations, tank valves, suction and overboard valves. -/
def Sequencer.shape (b : Sequencer) : List Nat :=
  [b.orders.length, b.queues.length, b.stations.length, b.tankValves.length, b.suctionValves.length,
    b.overboardValves.length]

/-- The records that the counts give exist, and no others (spec 01 R2, spec 06 section 6.2). -/
def State.fits (s : State) (c : Counts) : Prop :=
  s.holds.length = c.holds ∧ s.tanks.length = c.tanks ∧ s.items.length = c.items ∧
    s.ballast.shape = [c.tanks, c.groups, c.groups, c.tanks, c.groups, c.groups]

/-- In READY the records that exist are those that the profile counts. -/
def State.RecordsOk (s : State) : Prop := s.startUp.phase = .ready → s.fits s.counts

/-- Each queue holds QUEUED orders of its own group, none twice, and every QUEUED order stands in its group's queue
(spec 05 R75, R76). -/
def State.QueuesOk (s : State) : Prop :=
  (∀ g, (s.queue g).Nodup) ∧
    (∀ g t, t ∈ s.queue g → ∃ o, s.order t = some o ∧ o.state = .queued ∧ o.group = g) ∧
    ∀ t o, s.order t = some o → o.state = .queued → t ∈ s.queue o.group

/-- Each ACTIVE order is run by the station of its group and by no other (spec 05 R75, spec 06 Table 6.3). -/
def State.RunnersOk (s : State) : Prop :=
  (∀ g t, (s.station g).active = some t → ∃ o, s.order t = some o ∧ o.state = .active ∧ o.group = g) ∧
    ∀ t o, s.order t = some o → o.state = .active → (s.station o.group).active = some t

/-- A station owns the valves of its active tank and of its closing tanks, which are all different, and no other tank valve is
owned; that of an active tank is commanded OPEN, and none that is owned is confirmed SHUT (spec 06 R97, Table 6.4). -/
def State.OwnersOk (s : State) : Prop :=
  (∀ g, ((s.station g).active.toList ++ (s.station g).closing).Nodup) ∧
    (∀ g t, (s.valve (.tank t)).owner = some g ↔ (s.station g).active = some t ∨ t ∈ (s.station g).closing) ∧
    (∀ g t, (s.station g).active = some t → (s.valve (.tank t)).commanded = .opened) ∧
    ∀ g t, (s.valve (.tank t)).owner = some g → s.confirmedAt (.tank t) .shut = false

/-- While the sequencer is HALTED every station is OFF, TRIPPED or LOCAL (spec 06 R92). -/
def State.HaltedOk (s : State) : Prop :=
  s.ballast.state = .halted → ∀ st ∈ s.ballast.stations, st.state.working = false

/-- The route of a tank permits a group, the tank's primary group being given (spec 05 Table 5.3). -/
def Tank.permits (x : Tank) (primary group : Nat) : Prop :=
  match x.route with
  | .primary => group = primary
  | .alternate => x.alternate = some group
  | .primaryThenAlternate | .firstFree => group = primary ∨ x.alternate = some group

/-- Every alternate group has a queue, and a tank in ALTERNATE mode has one; in READY the loaded hull data are legal, and the
route of a tank permits the group of its QUEUED or ACTIVE order, in whose queue it stands (spec 01 R6, R9, spec 05 R76, R79). -/
def State.RoutesOk (s : State) : Prop :=
  (∀ x ∈ s.tanks, (∀ a, x.alternate = some a → 1 ≤ a ∧ a ≤ s.ballast.queues.length) ∧
      (x.route = .alternate → x.alternate ≠ none)) ∧
    (s.startUp.phase = .ready → Hull.legal s.hull s.counts = true ∧
      ∀ t o, s.order t = some o → o.state ≠ .done → (s.tank t).permits (s.tankData t).primary o.group)

/-- Orders, queues, stations and tank valves agree. -/
def State.OrdersOk (s : State) : Prop := s.QueuesOk ∧ s.RunnersOk ∧ s.OwnersOk ∧ s.HaltedOk ∧ s.RoutesOk

/-- The request of the ship link that a command is, where it is one: its kind and head (spec 09 Table 9.10). -/
def requestOf : Instr → Option ShipRequest
  | .look h => some ⟨1, h⟩
  | .put h _ => some ⟨2, h⟩
  | .retire h => some ⟨3, h⟩
  | .clear h _ => some ⟨4, h⟩
  | .run h => some ⟨16, h⟩
  | .halt h => some ⟨17, h⟩
  | .rearm h => some ⟨18, h⟩
  | .release h => some ⟨19, h⟩
  | .force h _ => some ⟨20, h⟩
  | .endPour h => some ⟨21, h⟩
  | .restart h => some ⟨22, h⟩
  | .purge h => some ⟨23, h⟩
  | .reload h => some ⟨24, h⟩
  | .trialOpen h => some ⟨25, h⟩
  | .trialPut h _ => some ⟨26, h⟩
  | .trialEvaluate h => some ⟨27, h⟩
  | .trialClose h => some ⟨28, h⟩
  | .unknownRequestKind k h => some ⟨k, h⟩
  | _ => none

/-- A notice of the terminal or a report of the cabinet, or octets that form no frame on some link. -/
def inboundOther : Instr → Bool
  | .shipFrameDiscard _ | .shipFrameIncompleteTimeout | .shipFrameBusyOwed _ _ | .terminalFrameDiscard _ => true
  | .pourStart _ _ _ | .tally _ _ | .pourEnd _ _ | .berth _ | .reportRequest _ | .fieldFrameDiscard _ => true
  | .fieldFrameIncompleteTimeout | .sounding _ _ _ | .valvePosition _ _ | .pumpStatus _ _ | .localSwitch _ _ => true
  | _ => false

/-- The state once a request has been answered: the reply begins to be sent and nothing else differs (spec 09 R143). -/
def State.replied (s : State) (kind : Nat) (head : ShipHead) (status : ReplyStatus) (payload : List Pair) : State :=
  { s with
    ship := { s.ship with
      sending := some ⟨BitVec.ofNat 8 kind, head, status, payload⟩, inHand := some ⟨BitVec.ofNat 8 kind, head⟩
      receiving := none } }

/-- From `s` to `t` the ship port is left as a start-up leaves it: IDLE with nothing owed, but that the reply accepting a
RELOAD, where it is being sent, is sent out (spec 09 R143). -/
def State.portStarted (s t : State) : Prop :=
  let reload := ∃ r, s.ship.sending = some r ∧ r.kind = 24 ∧ r.status = .accepted
  (reload → t.ship = { s.ship with busyOwed := none }) ∧
    (¬reload → t.ship = { s.ship with sending := none, inHand := none, busyOwed := none })

/-- The ship link takes a request now: it takes frames and the port is IDLE (spec 09 R143). -/
def State.shipIdle (s : State) : Prop := s.linkUp = true ∧ s.ship.sending = none

/-- From `s` to `t` at most the Ballast Sequencer, the outbound field list and the count of free choices differ. -/
def State.onlyBallast (s t : State) : Prop :=
  t = { s with ballast := t.ballast, field := { s.field with outbound := t.field.outbound }, draws := t.draws }

/-- `t` holds in its record memory and its marker what `s` holds (spec 11 section 11.3, R163). -/
def State.memoryKept (s t : State) : Prop :=
  t.holds = s.holds ∧ t.tanks = s.tanks ∧ t.items = s.items ∧ t.berth = s.berth ∧ t.settings = s.settings ∧
    t.pours.list = s.pours.list ∧ t.ballast = { s.ballast with kept := [] } ∧ t.channels = s.channels ∧
    t.startUp.marker = s.startUp.marker

/-- Every line is inactive: PERMIT and SLOW of both loaders, and ATTN (spec 11 R163). -/
def State.linesInactive (s : State) : Prop := (∀ l, s.permit l = false ∧ s.slow l = false) ∧ s.attn = false

/-- Every setting lies in its range, and so does the berth's maximum draft (spec 09 Table 9.4, spec 08 Table 8.2). -/
def State.SettingsOk (s : State) : Prop :=
  let x := s.settings
  (500 ≤ x.caution ∧ x.caution ≤ 999) ∧ x.pace ≤ 3600 ∧ x.margin ≤ 100000 ∧
    (100 ≤ x.reportStep ∧ x.reportStep ≤ 100000) ∧ (1 ≤ x.draftStep ∧ x.draftStep ≤ 1000) ∧ x.overrun ≤ 50000 ∧
    (5 ≤ x.tallyTimeout ∧ x.tallyTimeout ≤ 120) ∧ (10 ≤ x.stale ∧ x.stale ≤ 600) ∧ (5 ≤ x.settle ∧ x.settle ≤ 300) ∧
    (10 ≤ x.rateWindow ∧ x.rateWindow ≤ 600) ∧ (2 ≤ x.silence ∧ x.silence ≤ 60) ∧
    (5000 ≤ s.berth.maxDraft ∧ s.berth.maxDraft ≤ 30000)

/-- The station of a group stands TRIPPED with a cause: its pump stopped, no order, its line valves commanded SHUT and its
TRIP flag SET (spec 06 R110). -/
def State.trippedBy (s : State) (g : Nat) (cause : TripCause) : Prop :=
  let st := s.station g
  st.state = .tripped ∧ st.lastTrip = some cause ∧ st.pumpCommanded = .stop ∧ st.active = none ∧ st.deadline = none ∧
    st.tripFlag = true ∧ (s.valve (.suction g)).commanded = .shut ∧ (s.valve (.overboard g)).commanded = .shut

/-- The other permitted group of a tank whose order stands in a group's queue, where its route mode and its alternate group give
one (spec 05 R85, Table 5.3). -/
def State.movesTo (s : State) (g k : Nat) : Option Nat :=
  match (s.tank k).route, (s.tank k).alternate with
  | .primaryThenAlternate, some a | .firstFree, some a =>
    some (if g = (s.tankData k).primary then a else (s.tankData k).primary)
  | _, _ => none

/-- The state once a station's order, if it runs one, is returned to the head of its group's queue with a hold cause and that
queue is rerouted: each order of it that has another permitted group goes to that group's tail (spec 05 R84, R85). -/
def State.afterReroute (s : State) (g : Nat) (cause : HoldCause) : State :=
  let active := (s.station g).active
  let walk := active.toList ++ s.queue g
  let goes (h : Option Nat) : List Nat := walk.filter fun k => decide (s.movesTo g k = h)
  let order (k : Nat) (o : Order) : Order :=
    { o with
      state := if active = some k then .queued else o.state, holdCause := if active = some k then some cause else o.holdCause
      group := (s.movesTo g k).getD o.group }
  { s with ballast := { s.ballast with
      orders := (s.ballast.orders.zipIdx 1).map fun (o, k) => if k ∈ walk then o.map (order k) else o
      queues := (s.ballast.queues.zipIdx 1).map fun (q, h) => (if h = g then goes none else q) ++ goes (some h) } }

/-- The list once the commands of valves to a position are placed: of those that are not commanded to it already, or of all where
they are sent again (spec 06 R93, R112, spec 12 R174). -/
def State.placed (s : State) (again : Bool) (p : ValveCommand) (vs : List ValveId) (l : List FieldCommand) :
    List FieldCommand :=
  (vs.filter fun v => again || decide ((s.valve v).commanded ≠ p)).foldl (fun l v => placeIn (.valve v p) l) l

/-- The state once valves are commanded to a position: a command that is sent leaves its valve unconfirmed and starts the travel
timer, and a valve commanded to the position already stays as it is, but where the command is sent again (spec 06 R93, R112). -/
def State.afterCommands (s : State) (again : Bool) (p : ValveCommand) (vs : List ValveId) : State :=
  let sent (timeout : Nat) (name : Nat → ValveId) (xs : List Valve) : List Valve := (xs.zipIdx 1).map fun (x, n) =>
    if name n ∈ vs ∧ (again = true ∨ x.commanded ≠ p) then
      { x with commanded := p, confirmed := false, deadline := some (s.clock + BitVec.ofNat 32 timeout) } else x
  { s with
    ballast := { s.ballast with
      tankValves := sent s.hull.tankValveTimeout .tank s.ballast.tankValves
      suctionValves := sent s.hull.lineValveTimeout .suction s.ballast.suctionValves
      overboardValves := sent s.hull.lineValveTimeout .overboard s.ballast.overboardValves }
    field := { s.field with outbound := s.placed again p vs s.field.outbound } }

/-- The state once a pump is commanded STOP: the field changed and STOP sent, where it was commanded to run (spec 06 R99). -/
def State.afterStop (s : State) (g : Nat) : State :=
  { s with
    ballast := { s.ballast with stations := modify1 s.ballast.stations g ({ · with pumpCommanded := .stop }) }
    field := { s.field with
      outbound := if (s.station g).pumpCommanded = .stop then s.field.outbound else placeIn (.pump g .stop) s.field.outbound } }

/-- The state once the test for HALTED is made: a HALTING sequencer whose stations all rest is HALTED (spec 06 R92). -/
def State.afterRest (s : State) : State :=
  { s with ballast := { s.ballast with
      state := if s.ballast.state = .halting ∧ (s.groupNumbers.all fun g => !(s.station g).state.working) = true then .halted
        else s.ballast.state } }

/-- The state once a station has tripped: cause, pump STOP, the line's valves commanded SHUT where they are not, the order returned
with TRIP and the queue rerouted, deadline and watch cleared, the TRIP flag SET; each command sent in place of the one that waits
for the same target, and a HALTING sequencer HALTED where every station rests (spec 06 R92, R110). -/
def State.afterTrip (s : State) (g : Nat) (cause : TripCause) : State :=
  let st := s.station g
  let shut := (s.afterStop g).afterCommands false .shut (.suction g :: .overboard g :: (st.active.toList ++ st.closing).map .tank)
  let r := shut.afterReroute g .trip
  State.afterRest { r with ballast := { r.ballast with stations := modify1 r.ballast.stations g fun st =>
      { st with
        state := .tripped, lastTrip := some cause, active := none, closing := st.closing ++ st.active.toList, deadline := none
        lowSince := none, resuming := false, tripFlag := true } } }

/-- The state once a station has gone to LOCAL: its order returned with LOCAL and the queue rerouted, its tank valves no longer
owned, the travel timers of these and of its line valves stopped, deadline and watch cleared, the LOCAL flag SET, nothing sent, and
a HALTING sequencer HALTED where every station rests (spec 06 R92, R112). -/
def State.afterLocal (s : State) (g : Nat) : State :=
  let r := s.afterReroute g .localControl
  State.afterRest { r with ballast := { r.ballast with
      stations := modify1 r.ballast.stations g fun st =>
        { st with
          state := .localControl, switch := .localControl, active := none, closing := [], deadline := none, lowSince := none
          resuming := false, localFlag := true }
      tankValves := r.ballast.tankValves.map fun x => if x.owner = some g then { x with owner := none, deadline := none } else x
      suctionValves := modify1 r.ballast.suctionValves g ({ · with deadline := none })
      overboardValves := modify1 r.ballast.overboardValves g ({ · with deadline := none }) } }

/-- The state once a station's order is back at the head of its group's queue with a hold cause, its tank a closing tank
(spec 05 R84, spec 06 R92). -/
def State.afterReturn (s : State) (g : Nat) (cause : HoldCause) : State :=
  match (s.station g).active with
  | none => s
  | some k => { s with ballast := { s.ballast with
      orders := modify1 s.ballast.orders k (Option.map ({ · with state := .queued, holdCause := some cause }))
      queues := modify1 s.ballast.queues g (k :: ·)
      stations := modify1 s.ballast.stations g fun st => { st with active := none, closing := st.closing ++ [k] } } }

/-- The state once a station has entered STOPPING in the RUNDOWN phase: its pump stopped, its valves as they were left
(spec 06 R109). -/
def State.afterRundown (s : State) (g : Nat) : State :=
  let r := s.afterStop g
  { r with ballast := { r.ballast with stations := modify1 r.ballast.stations g fun st =>
      { st with
        state := .stopping .rundown, deadline := some (s.clock + BitVec.ofNat 32 st.rundown), lowSince := none
        resuming := false } } }

/-- The state once a station has entered STOPPING in the CLOSING phase: its line valves and the valve of each closing tank
commanded SHUT, those of the line sent again where it resumes command after LOCAL; it stands in OFF where it has no closing tank and
the line is confirmed SHUT already (spec 06 R109, R112). -/
def State.afterClosing (s : State) (g : Nat) : State :=
  let st := s.station g
  let isShut := st.resuming = false ∧ st.closing = [] ∧ s.confirmedAt (.suction g) .shut = true ∧
    s.confirmedAt (.overboard g) .shut = true
  let r := (s.afterCommands st.resuming .shut [.suction g, .overboard g]).afterCommands false .shut (st.closing.map .tank)
  { r with ballast := { r.ballast with stations := modify1 r.ballast.stations g fun st =>
      { st with
        state := if isShut then .off else .stopping .closing, deadline := none, lowSince := none, resuming := false } } }

/-- The state once HALT has reached a station that runs an order: the order returned with HALT, and the station in STOPPING, from
LINEUP in the CLOSING phase and otherwise in RUNDOWN (spec 06 R92, R104 to R108). -/
def State.afterHalt (s : State) (g : Nat) : State :=
  let r := s.afterReturn g .halt
  if (s.station g).state = .lineup then r.afterClosing g else r.afterRundown g

/-- The state once a report as commanded has confirmed a valve: its position recorded and its travel timer stopped, and the SHUT of
an owned tank valve no longer owned, its tank no closing tank (spec 06 R94, R97). -/
def State.afterConfirm (s : State) (v : ValveId) (p : ValveReported) : State :=
  let u := s.updValve v ({ · with reported := p, confirmed := true, deadline := none })
  match v, (s.valve v).owner with
  | .tank k, some g =>
    if p = .shut then
      (u.updValve v ({ · with owner := none })).updStation g fun st => { st with closing := st.closing.erase k }
    else u
  | _, _ => u

/-- The state once a frame of the cabinet has been heard in READY: the silence watch begins again (spec 12 R173). -/
def State.heardField (s : State) : State :=
  { s with field := { s.field with receiving := none, lastFrame := s.clock, live := true } }

/-- The Ballast Sequencer is not about to become HALTED of itself: it is not HALTING with every station at rest, where
no event leaves it (spec 06 R92). -/
def State.haltSettled (s : State) : Prop :=
  ¬(s.ballast.state = .halting ∧ ∀ g, 1 ≤ g → g ≤ s.counts.groups → (s.station g).state.working = false)

/-- A quantity whose status is in question stands on a side toward which adding mass to a compartment (`m` = 1) or taking
it out (`m` = -1) moves it; the compartments are counted from 0: holds, then tanks, then items (spec 02 Table 2.7,
spec 05 Table 5.4). -/
def State.worsened (s : State) (r : ResultSet) (i : Nat) (m : Int) (stands : Status → Prop) : Prop :=
  let e (cs : List Coefficient) : Int := m * (cs[i]?.getD 0#16).toInt
  let adverse (q : Quantity) (e : Int) : Prop := stands q.status ∧ ((0 ≤ q.value ∧ 0 < e) ∨ (q.value < 0 ∧ e < 0))
  (∃ (n : Nat) (x : StationResult) (d : StationData), r.stations[n]? = some x ∧ s.hull.stations[n]? = some d ∧
    (adverse x.sf (e d.c) ∨ adverse x.bm (e d.k))) ∨
  adverse r.trim (e s.hull.alpha - e s.hull.phi) ∨ adverse r.fore (e s.hull.phi) ∨ adverse r.aft (e s.hull.alpha)

/-- The tests of a channel in their order, each with the computed state and cause it decides; the last stands for none of
them (spec 07 Table 7.4, R123). -/
def State.derivationTests (s : State) (l : Loader) : List (Prop × LineState × Option ChannelCause) :=
  let c := s.channel l
  let current (f : Pour → Prop) : Prop := ∃ p, s.channelPour l = some p ∧ f p
  [(c.released = false, .forbid, some .unreleased),
   (s.startUp.phase = .profileFault, .forbid, some .profileFault),
   (current fun p => p.strengthRoom = 0 ∧ p.cause.kind ≠ .gated, .forbid, some .strength),
   (current fun p => p.cause.kind = .gated, .forbid, some .gated),
   (c.timedOut = true ∧ c.action = .forbid, .forbid, some .tallyTimeout),
   (s.channelPour l = none, .complete, some .noCurrent),
   (current fun p => p.planned ≤ p.tallied, .complete, some .planMet),
   (current fun p => 0 < s.settings.pace ∧ p.timeToLimit < s.settings.pace, .reduce, some .pace),
   (current fun p => p.strengthRoom < s.settings.margin, .reduce, some .margin),
   (current fun p => ∃ r, s.engine.live = some r ∧ s.worsened r (p.hold - 1) 1 (· = .caution), .reduce, some .caution),
   (c.timedOut = true ∧ c.action = .reduce, .reduce, some .tallyTimeout),
   (True, .pour, none)]

/-- The computed state and cause of a channel are those of the first test that holds (spec 07 R121). -/
def State.followsTests (s : State) (l : Loader) : Prop :=
  ∃ (i : Nat) (test : Prop), (s.derivationTests l)[i]? = some (test, (s.channel l).computed, (s.channel l).cause) ∧ test ∧
    ∀ (j : Nat) (x : Prop × LineState × Option ChannelCause), j < i → (s.derivationTests l)[j]? = some x → ¬x.1

/-- In `t` the station of a group has scanned the queue that stood in `s`: an order found met is DONE MET, the first
eligible one is taken, and the scan ends there; the rest of the queue stands (spec 05 R82, R83). -/
def State.scanned (s t : State) (g : Nat) : Prop :=
  let q := s.queue g
  let passed := q.takeWhile fun k => !s.eligible k
  let met (k : Nat) : Bool := (s.order k).any fun o => decide ((s.tank k).current ≤ o.target)
  let rest := q.drop (passed.length + 1)
  t.queue g = passed.filter (fun k => !met k) ++ rest ∧ (t.station g).active = q.find? s.eligible ∧
    (t.station g).doneFlag = ((s.station g).doneFlag || passed.any met) ∧
    ∀ k o, s.order k = some o →
      (k ∈ passed → t.order k = some (if met k then
        { o with state := .done, completion := some .met, holdCause := none } else o)) ∧
      (q.find? s.eligible = some k → t.order k = some { o with state := .active, holdCause := none }) ∧
      (k ∈ rest → t.order k = some o)

/-- From `u` to `t` an OFF station has looked: it has scanned its queue, and with an order taken it stands in LINEUP, its three
valves commanded OPEN and the tank valve its own; with none it stays OFF and commands nothing (spec 06 R103). -/
def State.looks (u t : State) (g : Nat) : Prop :=
  let line := [ValveId.suction g, .overboard g]
  u.scanned t g ∧
    t.station g = { u.station g with
      state := if (t.station g).active.isSome then .lineup else .off, active := (t.station g).active
      doneFlag := (t.station g).doneFlag } ∧
    ((t.station g).active = none → ∀ v ∈ line, t.valve v = u.valve v) ∧
    ∀ k, (t.station g).active = some k →
      let w := u.afterCommands false .opened (line ++ [.tank k])
      t.valve (.tank k) = { w.valve (.tank k) with owner := some g } ∧ ∀ v ∈ line, t.valve v = w.valve v

/-- From `u` to `t` the OFF stations that were told of a cause have looked where the sequencer is RUNNING and they have no closing
tank, each with the commands of its lineup, in an order that is left open; nothing else has changed (spec 06 R103). -/
def State.answered (u t : State) (told : Nat → Prop) : Prop :=
  let looking (g : Nat) : Prop := u.hasGroup g = true ∧ u.ballast.state = .running ∧ (u.station g).state = .off ∧
    (u.station g).closing = [] ∧ told g
  u.onlyBallast t ∧ t.ballast.state = u.ballast.state ∧ t.ballast.kept = u.ballast.kept ∧ (∀ g, looking g → u.looks t g) ∧
    (∀ g, u.hasGroup g = true → ¬looking g → t.station g = u.station g ∧ t.queue g = u.queue g ∧
      t.valve (.suction g) = u.valve (.suction g) ∧ t.valve (.overboard g) = u.valve (.overboard g)) ∧
    (∀ k, (∀ g, looking g → k ∉ u.queue g) → t.order k = u.order k) ∧
    (∀ k, (∀ g, looking g → (t.station g).active ≠ some k) → t.valve (.tank k) = u.valve (.tank k)) ∧
    (∃ gs : List Nat, gs.Nodup ∧ (∀ g, g ∈ gs ↔ looking g) ∧
      t.field.outbound = gs.foldl (fun l g => (t.station g).active.elim l fun k =>
        u.placed false .opened [.suction g, .overboard g, .tank k] l) u.field.outbound) ∧
    ((∀ g, ¬looking g) → t = u)

/-- From `s` to `t` a station has tripped, and the OFF stations whose queues gained a rerouted order have looked
(spec 06 R103, R110). -/
def State.trips (s t : State) (g : Nat) (cause : TripCause) : Prop :=
  let u := s.afterTrip g cause
  u.answered t fun h => ∃ k ∈ u.queue h, k ∉ s.queue h

/-- From `u` to `t` a station in DISCHARGE or STRIP has given up the order of tank `k`, which stands in `u` as it was left: the
tank is a closing tank, and while RUNNING the station has scanned its queue. With an order taken it stands in CHANGEOVER, its pump
as it was, the new tank valve its own and commanded OPEN; with none in STOPPING, its pump stopped. Its line valves stay as they are,
and the old tank's valve too, but where the new one stands confirmed OPEN already (spec 06 R107, R108, R113). -/
def State.handsOver (u t : State) (g k : Nat) : Prop :=
  let st := u.station g
  k ∈ (t.station g).closing ∧ (t.station g).lowSince = none ∧ (u.ballast.state = .running → u.scanned t g) ∧
    (u.ballast.state ≠ .running → t.queue g = u.queue g ∧ t.order k = u.order k ∧ (t.station g).active = none) ∧
    ((t.station g).active = none → (t.station g).state = .stopping .rundown ∧ (t.station g).pumpCommanded = .stop ∧
      (t.station g).deadline = some (u.clock + BitVec.ofNat 32 st.rundown)) ∧
    (∀ n, (t.station g).active = some n → (t.station g).state = .changeover ∧ (t.station g).pumpCommanded = st.pumpCommanded ∧
      (t.valve (.tank n)).commanded = .opened ∧ (t.valve (.tank n)).owner = some g ∧
      (u.confirmedAt (.tank n) .opened = true → (t.valve (.tank k)).commanded = .shut)) ∧
    (∀ v ∈ [ValveId.suction g, .overboard g], t.valve v = u.valve v) ∧
    ((∀ n, (t.station g).active = some n → u.confirmedAt (.tank n) .opened = false) →
      t.valve (.tank k) = u.valve (.tank k))

/-- From `u` to `t` the station of a group has entered DISCHARGE with its estimator and dry-run watch begun anew, and its tests have
been made on its order in their turn: the order met is completed MET, a STALE tank and a LIMIT that the discharge worsens interrupt
it with STALE and STRESS, the order at the head of its queue, and a tank in BELOW takes it to STRIP with REDUCED sent. The OFF
stations that were told of a cause have looked (spec 06 R103, R106, R107, R113). -/
def State.enters (u t : State) (g : Nat) (told : Nat → Prop) : Prop :=
  ∀ k o, (u.station g).active = some k → u.order k = some o →
    let st := u.station g
    let x := u.tank k
    let worsened := ∃ r, u.engine.live = some r ∧ u.worsened r (u.counts.holds + (k - 1)) (-1) (· = .limit)
    let left (o' : Order) (queue : List Nat) (st' : Station) : State := { u with
      ballast := { u.ballast with
        orders := modify1 u.ballast.orders k fun _ => some o'
        queues := modify1 u.ballast.queues g fun _ => queue
        stations := modify1 u.ballast.stations g fun _ => st' } }
    let interrupted (cause : HoldCause) : Prop := (t.station g).holdFlag = true ∧ (t.queue g).head? = some k ∧
      t.order k = some { o with state := .queued, holdCause := some cause } ∧
      (left { o with state := .queued, holdCause := some cause } (k :: u.queue g) { st with holdFlag := true }).handsOver t g k
    let stays (state : StationState) (pump : PumpCommand) (l : List FieldCommand) : Prop := State.answered { u with
      ballast := { u.ballast with stations := modify1 u.ballast.stations g fun _ => { st with
        state := state, pumpCommanded := pump, deadline := none, estimator := ⟨none, 0⟩
        lowSince := if 0 < st.minRate then some u.clock else none } }
      field := { u.field with outbound := l } } t told
    let completed : Order := { o with state := .done, completion := some .met, holdCause := none }
    (x.current ≤ o.target → (t.station g).doneFlag = true ∧ t.order k = some completed ∧
      (left completed (u.queue g) { st with doneFlag := true }).handsOver t g k) ∧
    (o.target < x.current →
      (x.status = .stale → interrupted .stale) ∧
      (x.status ≠ .stale → worsened → interrupted .stress) ∧
      (x.status ≠ .stale → ¬worsened → x.strip = .below →
        stays .strip .runReduced (placeIn (.pump g .reduced) u.field.outbound)) ∧
      (x.status ≠ .stale → ¬worsened → x.strip ≠ .below → stays .discharge st.pumpCommanded u.field.outbound))

/-- What every step of the part keeps; `orders` where a warm start finds records that fit its image. -/
structure State.Inv (s : State) : Prop where
  fifo : s.FifoOk
  due : s.DueOk
  outbound : s.OutboundOk
  pours : s.PoursOk
  started : s.StartedOk
  holds : s.HoldsOk
  lines : s.LinesOk
  port : s.PortOk
  generation : s.GenerationOk
  stations : s.StationsOk
  records : s.RecordsOk
  settings : s.SettingsOk
  orders : s.OrdersOk

end Sys2Proof.Machine
end

