-- ==== Sys2Proof/Certificates/Slice0/Obligations.lean ====
section
/-! DEFINITION. The statements for the provers: what the commands of the BX-24 do, what they leave, and what every step
keeps. -/

open Sys2Proof Sys2Proof.Machine

/-! ### The queue, the whole part and the invariants -/

/-- A step runs the command at the front of the queue with the queue's rest; on an empty queue the part idles, which is the
model's choice (notes/assumptions/5.md). -/
def Obligations.StepRunsFrontCommand : Prop :=
  (∀ (c : Instr) (rest : List Instr) (s : State), step { s with pending := c :: rest } = exec c { s with pending := rest }) ∧
    ∀ s : State, s.pending = [] → step s = .next s

/-- Every command completes, and none touches the queue.
That none of them faults or is refused is DEDUCED from the rules, which give every command an effect or none
(notes/assumptions/22.md), with the commands whose event cannot come about, which change nothing (notes/assumptions/6.md). -/
def Obligations.ExecCompletesAndKeepsQueue : Prop :=
  ∀ (c : Instr) (s : State), ∃ t, exec c s = .next t ∧ t.pending = s.pending

/-- The state after reset stands as every step keeps it.
The values that no rule gives at reset are the model's choice (notes/assumptions/2.md). -/
def Obligations.ResetMeetsInvariant : Prop := State.reset.Inv

/-- Spec 08 R131 and section 8.4, spec 12 R174, spec 09 R143: the link ports' lists keep their bounds, and a BUSY reply is
owed only during a reply. -/
def Obligations.StepKeepsPortLists : Prop :=
  ∀ s t : State, step s = .next t →
    (s.FifoOk → t.FifoOk) ∧ (s.DueOk → t.DueOk) ∧ (s.OutboundOk → t.OutboundOk) ∧ (s.PortOk → t.PortOk)

/-- Spec 04 R56, R58, R64, R71, spec 01 R4: the pour list keeps its order, its bound and its range of sequences; each loader
has at most one pour ACTIVE or INTERRUPTED, and each hold at most one ACTIVE pour; every hold's mass, active pour and
saturated flag follow from its initial mass and the list. -/
def Obligations.StepKeepsPoursAndHoldMasses : Prop :=
  ∀ s t : State, s.PoursOk → step s = .next t →
    t.PoursOk ∧ (s.StartedOk → t.StartedOk) ∧ (s.HoldsOk → t.HoldsOk)

/-- Spec 07 R119, R121, R128: each channel's output state is the more restrictive of its computed state and its forced level, its
output cause FORCED exactly where the forced level ranks above and the channel's cause otherwise; and permission needs a
release, a valid profile and PFAIL inactive. -/
def Obligations.StepKeepsLines : Prop := ∀ s t : State, s.LinesOk → step s = .next t → t.LinesOk

/-- Spec 06 Table 6.4: every station has an order exactly in the states that run one, and its pump commanded as its state
admits. -/
def Obligations.StepKeepsStations : Prop := ∀ s t : State, s.StationsOk → step s = .next t → t.StationsOk

/-- Spec 05 R75, R76, R79, R81, R84, R85, R90, spec 06 R92, R97, Table 6.3: each queue holds QUEUED orders of its own group alone
and none twice, so that no order stands in two queues, and the tank's route permits that group; every QUEUED order stands in its
group's queue; each ACTIVE order is run by the station of its group and by no other; each owned tank valve is that of its
station's active tank or of one of its closing tanks; and while HALTED every station rests.
A warm start is taken here where the kept records fit the counts of the image, and the kept routes permit the kept orders by its
hull data, as they do where the marker and the image name one profile. -/
def Obligations.StepKeepsOrdersAndQueues : Prop :=
  ∀ s t : State, s.RecordsOk → s.StationsOk → s.OrdersOk →
    (∀ r rest, s.pending = .profileReadComplete r :: rest →
      s.startsWarm (imageCrc (r.slot s.startUp.index)) = true → s.fits (imageCounts (r.slot s.startUp.index)) ∧
        ∀ k o d, s.order k = some o → o.state ≠ .done → r.hull.tanks[k - 1]? = some d →
          (s.tank k).permits d.primary o.group) →
    step s = .next t → t.OrdersOk

/-- Spec 01 R2, spec 06 section 6.2, spec 09 Table 9.4, spec 08 Table 8.2: in READY the records that exist are those that the
profile counts, and every setting and the berth's draft stay in their ranges. -/
def Obligations.StepKeepsRecordsAndSettings : Prop :=
  ∀ s t : State, step s = .next t → (s.RecordsOk → t.RecordsOk) ∧ (s.SettingsOk → t.SettingsOk)

/-- Spec 02 R27: the live generation stays within 1..65535 while a set is published, and the live set is replaced by the
end of a live pass alone or made absent. -/
def Obligations.LiveSetComesFromLivePasses : Prop :=
  ∀ (c : Instr) (s t : State), exec c s = .next t →
    (s.GenerationOk → t.GenerationOk) ∧
      (t.engine.live = s.engine.live ∨ t.engine.live = none ∨ c = .livePassEnd)

/-- Spec 07 R119, R120, Table 7.3: in READY and PROFILE FAULT with PFAIL inactive PERMIT is active in POUR and REDUCE and SLOW in
REDUCE and COMPLETE; without power, in RESET and LOADING, and while PFAIL is asserted both are inactive. A loader is permitted to
pour only in READY, while its channel is released, its computed state is POUR or REDUCE, no stronger level is forced, and PFAIL
is inactive. -/
def Obligations.PermitNeedsRelease : Prop :=
  ∀ (s : State) (l : Loader),
    (s.powered = true → s.startUp.phase = .ready ∨ s.startUp.phase = .profileFault → s.pfail = false →
      (s.permit l, s.slow l) = match (s.channel l).output with
        | .pour => (true, false)
        | .reduce => (true, true)
        | .complete => (false, true)
        | .forbid => (false, false)) ∧
    (s.powered = false ∨ s.startUp.phase = .reset ∨ s.startUp.phase = .loading ∨ s.pfail = true →
      s.permit l = false ∧ s.slow l = false) ∧
    (s.LinesOk → s.permit l = true →
      s.ready = true ∧ (s.channel l).released = true ∧ s.pfail = false ∧
        ((s.channel l).computed = .pour ∨ (s.channel l).computed = .reduce) ∧
        (s.channel l).forced ≠ .complete ∧ (s.channel l).forced ≠ .forbid)

/-- Spec 07 R125: a channel becomes released by a RELEASE that names it and by nothing else. -/
def Obligations.OnlyReleaseReleases : Prop :=
  ∀ (c : Instr) (s t : State) (l : Loader), exec c s = .next t → (s.channel l).released = false →
    (t.channel l).released = true →
      ∃ h ls, c = .release h ∧ channelsOfKey h.key.toNat = some ls ∧ l ∈ ls

/-- Spec 00 R1, spec 08 R130, spec 09 R143, spec 12 R171, spec 11 R163: without power nothing but the return of power does
anything, and in RESET and while PFAIL is asserted no link frame does.
That a command whose event cannot come about changes nothing is the model's choice (notes/assumptions/6.md). -/
def Obligations.NothingIsTakenWhileThePartIsDown : Prop :=
  ∀ (c : Instr) (s : State),
    (s.powered = false → c ≠ .powerOn → exec c s = .next s) ∧
    (s.linkUp = false → (requestOf c).isSome = true ∨ inboundOther c = true → exec c s = .next s)

/-- Spec 10 R160: no trial command changes a record, the live set, a valve or pump command, a line or a report; each
changes at most the trial, the engine's state and the ship's reply. -/
def Obligations.TrialCommandsChangeTrialAlone : Prop :=
  ∀ (c : Instr) (s t : State), exec c s = .next t →
    ((∃ h, c = .trialOpen h ∨ c = .trialEvaluate h ∨ c = .trialClose h) ∨ (∃ h ps, c = .trialPut h ps) ∨
      c = .trialPassStart ∨ c = .trialPassEnd) →
    t = { s with
      engine := { s.engine with state := t.engine.state, trial := t.engine.trial, trialDone := t.engine.trialDone }
      ship := t.ship }

/-! ### The arithmetic -/

/-- Spec 02 R29: a quotient rounded half away from zero is the nearest integer, the one farther from zero where two are
equally near; a saturated value is the bottom of the range where it falls below it, the top where it falls above it, and
the value itself otherwise, with the flag SET exactly when it was replaced. -/
def Obligations.RoundingIsNearestHalfAway : Prop :=
  (∀ (n : Int) (d : Nat), 0 < d →
    2 * (roundHalfAway n d * d - n).natAbs ≤ d ∧
      (2 * (roundHalfAway n d * d - n).natAbs = d → n.natAbs < (roundHalfAway n d * d).natAbs)) ∧
  ∀ lo hi v : Int, lo ≤ hi →
    lo ≤ (saturate lo hi v).1 ∧ (saturate lo hi v).1 ≤ hi ∧
      ((saturate lo hi v).2 = true ↔ v < lo ∨ hi < v) ∧ ((saturate lo hi v).2 = false → (saturate lo hi v).1 = v) ∧
      (v < lo → (saturate lo hi v).1 = lo) ∧ (hi < v → (saturate lo hi v).1 = hi)

/-- Spec 02 R29 to R35: the shear, moment, drafts, trim, mean draft and displacement of a pass by their formulas, each rounded
and then saturated at its range, and the ratio of each quantity to the limit of the side on which it stands; so every figure
that a pass publishes lies in its range. R26, R27, R36, Table 2.8: the set carries the generation given, limit set, caution and
maximum draft of the snapshot, and the worst quantity of its figures. The displacement is the lightship mass plus every mass of the snapshot, saturated at
9,999,999 with its flag. Every quantity that has a ratio is NORMAL below the caution permille, LIMIT from 1000, and CAUTION
between. -/
def Obligations.PublishedFiguresLieInRange : Prop :=
  ∀ (h : Hull) (snap : Snapshot) (g : Nat),
    let r := evaluate h snap g
    let total (cs : List Coefficient) : Int := ((cs.zip snap.masses).map fun (c, m) => c.toInt * (m : Int)).sum
    let within (lo hi v : Int) : Int := max lo (min hi v)
    let ratio (v : Int) (up down : Nat) : Nat := min 9999 (v.natAbs * 1000 / (if 0 ≤ v then up else down))
    (r.generation = g ∧ r.limitSet = snap.limitSet ∧ r.caution = snap.caution ∧ r.maxDraft = snap.maxDraft ∧
      r.worst = worstOf r.stations r.trim r.fore r.aft) ∧
    r.stations.length = h.stations.length ∧
    (∀ (i : Nat) (x : StationResult) (d : StationData), r.stations[i]? = some x → h.stations[i]? = some d →
      let lim := match snap.limitSet with
        | .harbour => d.harbour
        | .sea => d.sea
      let sf := d.sf0 + roundHalfAway (total d.c) 32768
      let bm := d.bm0 + roundHalfAway (total d.k) 1000
      x.sf.value = within (-8000000) 8000000 sf ∧ (x.sf.saturated = true ↔ sf < -8000000 ∨ 8000000 < sf) ∧
        x.sf.ratio = ratio x.sf.value lim.sfPositive lim.sfNegative ∧
        x.bm.value = within (-50000000) 50000000 bm ∧ (x.bm.saturated = true ↔ bm < -50000000 ∨ 50000000 < bm) ∧
        x.bm.ratio = ratio x.bm.value lim.hog lim.sag) ∧
    (let lim := match snap.limitSet with
      | .harbour => h.trimHarbour
      | .sea => h.trimSea
    let fore := h.d0Fore + roundHalfAway (total h.phi) 10000
    let aft := h.d0Aft + roundHalfAway (total h.alpha) 10000
    r.fore.value = within 0 40000 fore ∧ (r.fore.saturated = true ↔ fore < 0 ∨ 40000 < fore) ∧
      r.fore.ratio = ratio r.fore.value snap.maxDraft snap.maxDraft ∧
      r.aft.value = within 0 40000 aft ∧ (r.aft.saturated = true ↔ aft < 0 ∨ 40000 < aft) ∧
      r.aft.ratio = ratio r.aft.value snap.maxDraft snap.maxDraft ∧
      r.trim.value = within (-20000) 20000 (r.aft.value - r.fore.value) ∧
      (r.trim.saturated = true ↔ r.aft.value - r.fore.value < -20000 ∨ 20000 < r.aft.value - r.fore.value) ∧
      r.trim.ratio = ratio r.trim.value lim.stern lim.head) ∧
    (∀ x ∈ r.stations, -8000000 ≤ x.sf.value ∧ x.sf.value ≤ 8000000 ∧ x.sf.ratio ≤ 9999 ∧
      -50000000 ≤ x.bm.value ∧ x.bm.value ≤ 50000000 ∧ x.bm.ratio ≤ 9999) ∧
    (-20000 ≤ r.trim.value ∧ r.trim.value ≤ 20000 ∧ r.trim.ratio ≤ 9999) ∧
    (0 ≤ r.fore.value ∧ r.fore.value ≤ 40000 ∧ r.fore.ratio ≤ 9999) ∧
    (0 ≤ r.aft.value ∧ r.aft.value ≤ 40000 ∧ r.aft.ratio ≤ 9999) ∧
    (r.mean : Int) = (r.fore.value + r.aft.value) / 2 ∧ (r.mean : Int) ≤ max r.fore.value r.aft.value ∧
    r.displacement = min 9999999 (h.lightship + snap.masses.sum) ∧
    (r.displacementSaturated = true ↔ 9999999 < h.lightship + snap.masses.sum) ∧
    ∀ q, snap.caution ≤ 1000 → q ∈ (r.stations.flatMap fun x => [x.sf, x.bm]) ++ [r.trim, r.fore, r.aft] →
      (q.status = .normal ↔ q.ratio < snap.caution) ∧
        (q.status = .caution ↔ snap.caution ≤ q.ratio ∧ q.ratio < 1000) ∧ (q.status = .limit ↔ 1000 ≤ q.ratio)

/-- Spec 02 R36: the worst quantity is the first of the candidates, in their order, that has the highest ratio. -/
def Obligations.WorstQuantityIsFirstHighest : Prop :=
  ∀ (stations : List StationResult) (trim fore aft : Quantity),
    let cs := ((stations.zipIdx 1).flatMap fun (r, n) =>
        [(QuantityKind.sf, some n, r.sf), (QuantityKind.bm, some n, r.bm)]) ++
      [(QuantityKind.trim, none, trim), (QuantityKind.fore, none, fore), (QuantityKind.aft, none, aft)]
    ∃ (i : Nat) (kind : QuantityKind) (station : Option Nat) (q : Quantity), cs[i]? = some (kind, station, q) ∧
      worstOf stations trim fore aft =
        { kind := kind, station := station, ratio := q.ratio, status := q.status, side := sideOf kind q.value } ∧
      ∀ (j : Nat) (x : QuantityKind × Option Nat × Quantity), cs[j]? = some x → x.2.2.ratio ≤ q.ratio ∧ (j < i → x.2.2.ratio < q.ratio)

/-- Spec 03 Table 3.3, R41 to R45: the room of a quantity is the largest addition, up to 999,999, that keeps it within the limit
of the side toward which the hold moves it, and 0 where the limit is exhausted. The candidates for a hold's own room and for the
joint room of two holds, each with its limits, scale, coefficient and side, stand in the order that settles ties; own room and
joint room are the first of the smallest of them, the hold room last and in the own room alone. -/
def Obligations.RoomsAreFirstSmallest : Prop :=
  (∀ (v : Int) (up down scale : Nat) (e : Int), 0 < scale →
    signedRoom v up down scale e ≤ 999999 ∧ (e = 0 → signedRoom v up down scale e = 999999) ∧
    (0 < e → (signedRoom v up down scale e : Int) * e ≤ max 0 ((up - v) * scale) ∧
      (signedRoom v up down scale e < 999999 → (up - v) * scale < (signedRoom v up down scale e + 1) * e)) ∧
    (e < 0 → (signedRoom v up down scale e : Int) * -e ≤ max 0 ((v + down) * scale) ∧
      (signedRoom v up down scale e < 999999 → (v + down) * scale < (signedRoom v up down scale e + 1) * -e))) ∧
  (∀ (limit : Nat) (v e : Int),
    draftRoom limit v e ≤ 999999 ∧ (e ≤ 0 → draftRoom limit v e = 999999) ∧
    (0 < e → (draftRoom limit v e : Int) * e ≤ max 0 ((limit - v) * 10000) ∧
      (draftRoom limit v e < 999999 → (limit - v) * 10000 < (draftRoom limit v e + 1) * e))) ∧
  let candidates (h : Hull) (r : ResultSet) (joint : Bool) (e : List Coefficient → Int) : List Room :=
    let toward (up down : Side) (e : Int) : Option Side := if 0 < e then some up else if e < 0 then some down else none
    let lim := match r.limitSet with
      | .harbour => h.trimHarbour
      | .sea => h.trimSea
    let deep (e : Int) : Option Side := if 0 < e then some .deep else none
    (((r.stations.zip h.stations).zipIdx 1).flatMap fun ((q, d), n) =>
      let lim := match r.limitSet with
        | .harbour => d.harbour
        | .sea => d.sea
      [⟨signedRoom q.sf.value lim.sfPositive lim.sfNegative 32768 (e d.c),
          ⟨.sf, some n, toward .positive .negative (e d.c), joint⟩⟩,
        ⟨signedRoom q.bm.value lim.hog lim.sag 1000 (e d.k), ⟨.bm, some n, toward .hog .sag (e d.k), joint⟩⟩]) ++
    [⟨signedRoom r.trim.value lim.stern lim.head 10000 (e h.alpha - e h.phi),
        ⟨.trim, none, toward .stern .head (e h.alpha - e h.phi), joint⟩⟩,
      ⟨draftRoom r.maxDraft r.fore.value (e h.phi), ⟨.fore, none, deep (e h.phi), joint⟩⟩,
      ⟨draftRoom r.maxDraft r.aft.value (e h.alpha), ⟨.aft, none, deep (e h.alpha), joint⟩⟩]
  let coefficient (hold : Nat) (cs : List Coefficient) : Int := (cs[hold - 1]?.getD 0#16).toInt
  let firstSmallest (cs : List Room) (x : Room) : Prop :=
    ∃ i : Nat, cs[i]? = some x ∧ ∀ (j : Nat) (y : Room), cs[j]? = some y → x.amount ≤ y.amount ∧ (j < i → x.amount < y.amount)
  (∀ (h : Hull) (r : ResultSet) (hold room : Nat),
    firstSmallest (candidates h r false (coefficient hold) ++ [⟨room, ⟨.hold, none, none, false⟩⟩]) (ownRoom h r hold room)) ∧
  ∀ (h : Hull) (r : ResultSet) (h1 h2 : Nat),
    firstSmallest (candidates h r true fun cs => coefficient h1 cs + coefficient h2 cs) (jointRoom h r h1 h2)

/-- Spec 03 R46, spec 04 R59: how the strength room of a current pour and its cause are decided; a pour's gates are satisfied while
the tank of each gate present is at or below the gate's maximum mass and FRESH, OVERRANGE or MANUAL. -/
def Obligations.StrengthRoomIsDecidedInOrder : Prop :=
  ∀ (s : State) (p : Pour),
    (s.gatesSatisfied p = true ↔ ∀ g, some g ∈ [p.gate1, p.gate2, p.gate3, p.gate4] →
      (s.tank g.tank).current ≤ g.maxMass ∧ ((s.tank g.tank).status = .fresh ∨ (s.tank g.tank).status = .overrange ∨
        (s.tank g.tank).status = .manual)) ∧
    (s.gatesSatisfied p = false → (s.strengthRoomFor p).amount = 0 ∧ (s.strengthRoomFor p).cause.kind = .gated) ∧
    (s.gatesSatisfied p = true → s.engine.live = none →
      (s.strengthRoomFor p).amount = 0 ∧ (s.strengthRoomFor p).cause.kind = .noResult) ∧
    ∀ r, s.gatesSatisfied p = true → s.engine.live = some r →
      let own := ownRoom s.hull r p.hold (s.holdRoomOf p.hold)
      (∀ a b, p.state = .active → s.activePour .l1 = some a → s.activePour .l2 = some b →
        s.strengthRoomFor p =
          if (jointRoom s.hull r a.hold b.hold).amount < own.amount then jointRoom s.hull r a.hold b.hold else own) ∧
      (p.state ≠ .active ∨ s.activePour .l1 = none ∨ s.activePour .l2 = none → s.strengthRoomFor p = own)

/-- Spec 03 R47, R48: plan remaining, clearance, cause and time-to-limit of a current pour, and the rate it is found
from. R40, R52: the basis generation is the live generation read, 0 while no set is published, and no other field is written. -/
def Obligations.ClearanceAndTimeFollowRoomPlanAndRate : Prop :=
  ∀ (s : State) (p : Pour),
    let q := s.withFigures p
    let plan := p.planned - p.tallied
    q.basis = (s.engine.live.map (·.generation)).getD 0 ∧ q = { p with
      strengthRoom := q.strengthRoom, clearance := q.clearance, timeToLimit := q.timeToLimit, cause := q.cause, basis := q.basis } ∧
    q.clearance = min q.strengthRoom plan ∧ q.strengthRoom = (s.strengthRoomFor p).amount ∧
      (plan < q.strengthRoom → q.cause = { kind := .plan, station := none, side := none, joint := false }) ∧
      (q.strengthRoom ≤ plan → q.cause = (s.strengthRoomFor p).cause) ∧
      ((s.strengthRoomFor p).amount = 0 → q.clearance = 0 ∧ q.cause = (s.strengthRoomFor p).cause) ∧
      q.clearance ≤ plan ∧ q.clearance ≤ (s.holdData p.hold).maxMass - (s.hold p.hold).current ∧
      (q.timeToLimit = if s.rateOfPour p = 0 then 65535 else min 65535 (q.clearance * 360 / s.rateOfPour p)) ∧
      (0 < p.declaredRate → s.rateOfPour p = p.declaredRate) ∧
      (p.declaredRate = 0 → p.state ≠ .active → s.rateOfPour p = 0) ∧
      ∀ l, p.declaredRate = 0 → p.state = .active → p.loader = .one l →
        s.rateOfPour p = (s.pours.estimators.get l).estimate

/-- Spec 03 R49, spec 06 R101: an amount that arrives opens a closed window, is not used inside an open one, and otherwise gives
the estimate and a new window; a loader's estimator takes the rise of the amount, a station's its fall. -/
def Obligations.EstimatorMeasuresWholeWindows : Prop :=
  ∀ (e : Estimator) (falling : Bool) (window : Nat) (now : Second) (amount : Nat),
    (e.window = none → e.arrive falling window now amount = { e with window := some (now, amount) }) ∧
    ∀ start first, e.window = some (start, first) →
      (elapsed start now < window → e.arrive falling window now amount = e) ∧
      (window ≤ elapsed start now →
        let difference : Int := if falling then (first : Int) - amount else (amount : Int) - first
        (e.arrive falling window now amount).window = some (now, amount) ∧
          ((e.arrive falling window now amount).estimate : Int) =
            max 0 (min 20000 (difference * 360 / elapsed start now)))

/-- Spec 01 R10, R11: a reading is taken as at most 30,000; in LEVEL form it is the level, and in ULLAGE form the level is the
datum depth less the reading, at least 0. By a legal sounding table the volume is that of the first breakpoint up to its level,
that of each breakpoint at its level, between two of them the rounded interpolation, a half up, and above the last its volume
with the over-range mark; so it never falls as the level rises. The mass is the volume times the density, rounded, a half up,
and at most the capacity. -/
def Obligations.ConversionIsMonotoneAndBounded : Prop :=
  (∀ (d : TankData) (reading : Nat),
    (d.form = .level → levelOf d reading = min reading 30000) ∧
      ∀ datum, d.form = .ullage → d.datum = some datum →
        (levelOf d reading : Int) = max 0 ((datum : Int) - min reading 30000)) ∧
  (∀ (table : List Breakpoint) (a b : Nat), tableLegal table = true → a ≤ b →
    (volumeAt table a).1 ≤ (volumeAt table b).1 ∧
    (∀ first last, table.head? = some first → table.getLast? = some last →
      first.volume ≤ (volumeAt table a).1 ∧ (volumeAt table a).1 ≤ last.volume ∧
        ((volumeAt table a).2 = true ↔ last.level < a) ∧ (a ≤ first.level → volumeAt table a = (first.volume, false)) ∧
        (last.level < a → volumeAt table a = (last.volume, true))) ∧
    (∀ x ∈ table, volumeAt table x.level = (x.volume, false)) ∧
    ∀ (i : Nat) (x y : Breakpoint), table[i]? = some x → table[i + 1]? = some y → x.level < a → a < y.level →
      let n := (a - x.level) * (y.volume - x.volume)
      let d := y.level - x.level
      volumeAt table a = (x.volume + (2 * n + d) / (2 * d), false)) ∧
  ∀ (d : TankData) (density level : Nat),
    massAt d density level =
      (min d.capacity ((2 * ((volumeAt d.breakpoints level).1 * density) + 10000) / 20000), (volumeAt d.breakpoints level).2)

/-- Spec 04 R58: a loader's current pour is its ACTIVE pour, else its INTERRUPTED pour, else the PLANNED pour of lowest
sequence open to it; there is none exactly where there is no such pour. -/
def Obligations.CurrentPourIsChosenInOrder : Prop :=
  ∀ (s : State) (l : Loader), s.PoursOk →
    (∀ p, s.currentPour l = some p → p ∈ s.pours.list ∧
      ((p.state = .active ∧ p.loader = .one l) ∨
        (p.state = .interrupted ∧ p.loader = .one l ∧
          ∀ q ∈ s.pours.list, ¬(q.state = .active ∧ q.loader = .one l)) ∨
        (p.state = .planned ∧ (p.loader = .one l ∨ p.loader = .either) ∧
          (∀ q ∈ s.pours.list, ¬((q.state = .active ∨ q.state = .interrupted) ∧ q.loader = .one l)) ∧
          ∀ q ∈ s.pours.list, q.state = .planned → q.loader = .one l ∨ q.loader = .either → p.sequence ≤ q.sequence))) ∧
    (s.currentPour l = none ↔ ∀ q ∈ s.pours.list,
      ¬((q.state = .active ∨ q.state = .interrupted) ∧ q.loader = .one l) ∧
        ¬(q.state = .planned ∧ (q.loader = .one l ∨ q.loader = .either)))

/-- Spec 09 R152, R154, R155, Tables 9.2 and 9.5, spec 11 R165: ATTN is active exactly while some unmasked flag is SET: in READY
those of the tanks, stations, channels, the result set, the berth, the profile and the trial; in PROFILE FAULT those of the
channels and the profile; in LOADING those of the profile; in RESET none. Bit n of the mask is the kind of code n. -/
def Obligations.AttnFollowsUnmaskedFlags : Prop :=
  ∀ s : State,
    let shown (flag : Bool) (code : Nat) : Prop := flag = true ∧ s.settings.mask.getLsbD code = false
    let channels : Prop := ∃ l, shown (s.channel l).stateFlag 6 ∨ shown (s.channel l).overrunFlag 7 ∨
      shown (s.channel l).tallyFaultFlag 8
    let profile : Prop := shown s.startUp.purgeDoneFlag 11 ∨ shown s.startUp.profileFlag 13
    (s.attn = true ↔ ∃ e ∈ s.flagRecords, ∃ k ∈ e.kinds, s.settings.mask.getLsbD k.code = false) ∧
    (s.ready = true → (s.attn = true ↔
      (∃ n, s.hasTank n = true ∧ (shown (s.tank n).staleFlag 0 ∨ shown (s.tank n).overrangeFlag 1)) ∨
      (∃ g, s.hasGroup g = true ∧ (shown (s.station g).tripFlag 2 ∨ shown (s.station g).localFlag 3 ∨
        shown (s.station g).doneFlag 4 ∨ shown (s.station g).holdFlag 5)) ∨
      channels ∨ shown s.engine.strengthFlag 9 ∨ shown s.berth.flag 10 ∨ profile ∨ shown s.engine.trialDone 12)) ∧
    (s.powered = true → s.startUp.phase = .profileFault → (s.attn = true ↔ channels ∨ profile)) ∧
    (s.powered = true → s.startUp.phase = .loading → (s.attn = true ↔ profile)) ∧
    (s.powered = false ∨ s.startUp.phase = .reset → s.attn = false)

/-! ### The supply, the resets and the profile -/

/-- Spec 00 R1, spec 01 R14, spec 11 R163: POWER_ON starts the count at 0 in RESET, POWER_LOSS ends it, and across both only
the record memory and the retention marker are kept; a tick adds one to the count, which wraps to 0, and in READY one to
every sounding age, up to 65535, and changes nothing else.
That nothing but the record memory and the marker is kept is DEDUCED (notes/assumptions/15.md); the values that a return of
power gives what is not kept, and PFAIL found inactive, are the model's choice (notes/assumptions/2.md, 6.md). -/
def Obligations.PowerAndTickKeepTheCount : Prop :=
  (∀ s : State, s.powered = false → ∃ t, exec .powerOn s = .next t ∧ t.powered = true ∧ t.pfail = false ∧ t.clock = 0 ∧
    t.startUp = { State.reset.startUp with marker := s.startUp.marker } ∧ s.memoryKept t ∧ t.engine = State.reset.engine ∧
    t.pours.estimators = State.reset.pours.estimators ∧ t.ship = State.reset.ship ∧ t.terminal = State.reset.terminal ∧
    t.field = State.reset.field ∧ t.linesInactive) ∧
  (∀ s : State, s.powered = true → ∃ t, exec .powerLoss s = .next t ∧ t.powered = false ∧ s.memoryKept t ∧
    t.engine = State.reset.engine ∧ t.ship.sending = none ∧ t.terminal.sending = none ∧ t.field.sending = none ∧
    t.field.outbound = [] ∧ t.linesInactive) ∧
  ∀ s : State, s.powered = true →
    (s.ready = true → exec .timeBaseTick s = .next { s with
      clock := s.clock + 1, tanks := s.tanks.map fun t => { t with age := min 65535 (t.age + 1) } }) ∧
    (s.ready = false → exec .timeBaseTick s = .next { s with clock := s.clock + 1 }) ∧
    (s.clock = 4294967295#32 → s.clock + 1 = 0)

/-- Spec 11 R163, spec 08 R142, spec 12 R175: RESET_N asserted holds the part in RESET with its lines inactive, its
exchanges abandoned and its record memory as it stands; the release samples the straps and enters LOADING.
That the assertion already ends the pass, the trial and what the link ports hold is DEDUCED (notes/assumptions/14.md,
15.md); that the release makes the image check value absent until an image is read is the model's choice
(notes/assumptions/28.md). -/
def Obligations.ResetHoldsAndReleaseSamples : Prop :=
  (∀ s : State, s.powered = true → ∃ t, exec .resetNAssert s = .next t ∧ t.startUp = { s.startUp with phase := .reset } ∧
    s.memoryKept t ∧ t.clock = s.clock ∧ t.powered = true ∧ t.pfail = s.pfail ∧ t.linesInactive ∧ t.engine.live = none ∧
    t.engine.trial = none ∧ t.ship.sending = none ∧ t.ship.busyOwed = none ∧ t.terminal.sending = none ∧
    t.terminal.fifo = [] ∧ t.terminal.due = [] ∧ t.field.sending = none ∧ t.field.outbound = []) ∧
  ∀ (s : State) (psel : BitVec 4) (lock : Lock) (retain : Bool), s.powered = true → s.startUp.phase = .reset →
    exec (.resetNRelease psel lock retain) s = .next { s with
      startUp := { s.startUp with
        phase := .loading, index := psel, lock := lock, retain := retain, outcome := none, finding := none
        imageCheck := none, profile := Profile.none, purgeRunning := false, profileFlag := false, purgeDoneFlag := false
        readStart := s.clock, reloading := false }
      engine := State.reset.engine }

/-- Spec 11 R163 to R165: what the check of an image finds, in its order, and PROFILE FAULT entered with the finding: no
record, default settings, cold channels, an invalid marker and the PROFILE flag SET. The image is that of the profile
index's slot, at octet index × 65,536 of the profile memory. A read two seconds old gives NO IMAGE. The ship port is then IDLE
with nothing owed, but that the reply accepting a RELOAD is sent out (spec 09 R143).
Spec 11 R164, spec 00 Table 0.4, spec 01 R6, spec 02 R20: which octets are an image, its counts and its check value, and which
counts and hull data are legal. A CLEARANCE report then carries no pour (spec 08 R137).
That the entry keeps the STARTING replies that wait on the terminal link and the field octets half received is DEDUCED
(notes/assumptions/14.md, 16.md).
That hull data come with the read and that lists of other lengths are out of range is the model's choice
(notes/assumptions/3.md), and so is that a span above 4,000 dm is legal and a group 0 is not (notes/assumptions/24.md). -/
def Obligations.ImageFaultEntersProfileFault : Prop :=
  let faulted (s t : State) (f : Finding) : Prop :=
    t.startUp.phase = .profileFault ∧ t.startUp.finding = some f ∧ t.startUp.outcome = none ∧
      t.startUp.profileFlag = true ∧ t.startUp.marker.valid = false ∧ t.startUp.index = s.startUp.index ∧
      t.holds = [] ∧ t.tanks = [] ∧ t.items = [] ∧ t.pours.list = [] ∧ t.ballast.orders = [] ∧ t.ballast.stations = [] ∧
      t.settings = State.reset.settings ∧ t.engine.live = none ∧
      (∀ l, (t.channel l).output = .forbid ∧ (t.channel l).released = false ∧ t.permit l = false ∧ t.slow l = false ∧
        t.slotFrame (.clearance l) = some (.clearance
          ⟨l, none, none, .forbid, some (.derived .unreleased), none, 0, 65535, 0⟩)) ∧
      t.clock = s.clock ∧ t.field = s.field ∧ s.portStarted t ∧ t.terminal = s.terminal
  (∀ (s : State) (r : ProfileRead), s.powered = true → s.startUp.phase = .loading →
    let image := (r.memory.drop (s.startUp.index.toNat * 65536)).take 65536
    (imagePresent image = false → ∃ t, exec (.profileReadComplete r) s = .next t ∧ faulted s t .noImage) ∧
    (imagePresent image = true →
      (imageCheckValue image ≠ octets16 (imageCrc image) →
        ∃ t, exec (.profileReadComplete r) s = .next t ∧ faulted s t .check) ∧
      (imageCheckValue image = octets16 (imageCrc image) →
        (Counts.legal (imageCounts image) = false →
          ∃ t, exec (.profileReadComplete r) s = .next t ∧ faulted s t .count) ∧
        (Counts.legal (imageCounts image) = true → Hull.legal r.hull (imageCounts image) = false →
          ∃ t, exec (.profileReadComplete r) s = .next t ∧ faulted s t .range)))) ∧
  (∀ s : State, s.powered = true → s.startUp.phase = .loading → 2 ≤ elapsed s.startUp.readStart s.clock →
    ∃ t, exec .profileReadTimeout s = .next t ∧ faulted s t .noImage) ∧
  -- the octets of an image
  (∀ (length : BitVec 16) (rest : List Octet),
    (imagePresent (octets16 length ++ rest) = true ↔
      1 ≤ length.toNat ∧ length.toNat ≤ 65532 ∧ length.toNat + 2 ≤ rest.length) ∧
    ∀ (holds tanks items stations groups : Octet) (body check tail : List Octet), check.length = 2 →
      rest = holds :: tanks :: items :: stations :: groups :: body ++ check ++ tail → length.toNat = 5 + body.length →
      imageCounts (octets16 length ++ rest) = ⟨holds.toNat, tanks.toNat, items.toNat, stations.toNat, groups.toNat⟩ ∧
      imageCheckValue (octets16 length ++ rest) = check ∧ imageCrc (octets16 length ++ rest) =
        crc16 (octets16 length ++ holds :: tanks :: items :: stations :: groups :: body)) ∧
  (∀ image : List Octet, image.length < 2 → imagePresent image = false) ∧
  -- the ranges
  (∀ c : Counts, Counts.legal c = true ↔ (5 ≤ c.holds ∧ c.holds ≤ 9) ∧ (8 ≤ c.tanks ∧ c.tanks ≤ 24) ∧ c.items ≤ 8 ∧
    (4 ≤ c.stations ∧ c.stations ≤ 16) ∧ 1 ≤ c.groups ∧ c.groups ≤ 4) ∧
  ∀ (h : Hull) (c : Counts),
    let compartments := c.holds + c.tanks + c.items
    let within (most x : Nat) : Prop := 1 ≤ x ∧ x ≤ most
    let stationLimits (x : StationLimits) : Prop :=
      within 8000000 x.sfPositive ∧ within 8000000 x.sfNegative ∧ within 50000000 x.hog ∧ within 50000000 x.sag
    Hull.legal h c = true ↔
      (h.holds.length = c.holds ∧ h.tanks.length = c.tanks ∧ h.stations.length = c.stations ∧
        h.phi.length = compartments ∧ h.alpha.length = compartments) ∧
      (∀ d ∈ h.holds, d.spanAft < d.spanFore ∧ within 400000 d.maxMass) ∧
      (∀ d ∈ h.tanks, d.spanAft < d.spanFore ∧ within 150000 d.capacity ∧ within c.groups d.primary ∧
        d.stripMass ≤ d.capacity ∧ (∀ a, d.alternate = some a → within c.groups a ∧ a ≠ d.primary) ∧
        (d.route = .alternate → d.alternate ≠ none) ∧
        (d.form = .ullage → ∃ m, d.datum = some m ∧ within 30000 m) ∧
        (2 ≤ d.breakpoints.length ∧ d.breakpoints.length ≤ 12) ∧ (∀ b ∈ d.breakpoints, b.level ≤ 30000) ∧
        ∀ (i : Nat) (x y : Breakpoint), d.breakpoints[i]? = some x → d.breakpoints[i + 1]? = some y →
          x.level < y.level ∧ x.volume ≤ y.volume) ∧
      (∀ d ∈ h.stations, d.c.length = compartments ∧ d.k.length = compartments ∧
        (-8000000 ≤ d.sf0 ∧ d.sf0 ≤ 8000000) ∧ (-50000000 ≤ d.bm0 ∧ d.bm0 ≤ 50000000) ∧
        stationLimits d.harbour ∧ stationLimits d.sea) ∧
      (∀ x ∈ [h.trimHarbour, h.trimSea], within 20000 x.stern ∧ within 20000 x.head) ∧
      (0 ≤ h.d0Fore ∧ h.d0Fore ≤ 40000) ∧ (0 ≤ h.d0Aft ∧ h.d0Aft ≤ 40000) ∧ within 9999999 h.lightship ∧
      (5000 ≤ h.defaultDraft ∧ h.defaultDraft ≤ 30000)

/-- Spec 11 R164, R166 with spec 01 R18, R19, spec 02 R28, spec 04 R57, R74, spec 05 R84, R90, spec 06 R117, spec 07 R129,
spec 08 R134, spec 09 R143, R151, spec 12 R175: a clean image enters READY, WARM exactly where the marker allows it, with the
records of that outcome and the commands of the start, its hull data loaded with default densities and class timeouts clamped (spec
01 R6, spec 06 R93). COLD gives every record the values of spec 01 Table 1.10, spec 06 Table 6.7 and spec 07 Table 7.5, the tank
fields those of the profile. WARM keeps masses, pours, orders, queues and the kept fields of stations
and channels: each tank is STALE with its strip state ABOVE, each ACTIVE pour INTERRUPTED, each ACTIVE order back at the head of
its group's queue with WARM START, each station OFF with its pump stopped, each channel unreleased. One computation and one
derivation of each channel are owed, and WARM one computation more for each pour interrupted (R57, R72). The silence watch begins
anew (spec 12 R173), and the terminal port is as Table 8.7 has it: nothing received, sent, queued or due, no figure sent last and no
pour noted (spec 08 R142).
That the hull data come with the read is the model's choice (notes/assumptions/3.md). That nothing waits on the terminal link at
READY is DEDUCED (notes/assumptions/14.md), and so are the count of computations and
that the derivations come later (notes/assumptions/7.md), and the output cause UNRELEASED under any forced level
(notes/assumptions/27.md). That under AUTOMATIC too no station looks at a warm start (notes/assumptions/25.md), and that the
commands are placed and their timers started also where PFAIL is asserted (notes/assumptions/26.md), is the model's choice. What
a warm start takes from records that do not fit the counts of its image, which one profile never gives, is left open here. -/
def Obligations.CleanImageEntersReady : Prop :=
  ∀ (s : State) (r : ProfileRead), s.powered = true → s.startUp.phase = .loading →
    let image := (r.memory.drop (s.startUp.index.toNat * 65536)).take 65536
    let check := imageCrc image
    let c := imageCounts image
    let m := s.startUp.marker
    let warm := s.startUp.reloading = false ∧ s.startUp.retain = true ∧ m.valid = true ∧ m.index = s.startUp.index ∧
      m.check = check
    imagePresent image = true → imageCheckValue image = octets16 check → Counts.legal c = true → Hull.legal r.hull c = true →
    ∃ t, exec (.profileReadComplete r) s = .next t ∧ t.startUp.phase = .ready ∧ t.startUp.profileFlag = true ∧
      t.startUp.imageCheck = some check ∧ t.counts = c ∧
      t.hull = { r.hull with
        tanks := r.hull.tanks.map fun d => { d with density := max 9500 (min 10600 d.density) }
        tankValveTimeout := max 5 (min 180 r.hull.tankValveTimeout), lineValveTimeout := max 5 (min 180 r.hull.lineValveTimeout) } ∧
      t.startUp.marker.valid = false ∧ t.engine.dirty = true ∧ t.engine.live = none ∧ t.engine.trial = none ∧
      (∀ l, t.pours.estimators.get l = ⟨none, 0⟩) ∧
      (∀ l, (t.channel l).derivationsOwed = 1 ∧ (t.channel l).released = false ∧ (t.channel l).output = .forbid) ∧
      s.portStarted t ∧ t.terminal =
        { fifo := [], sending := none, due := [], lastClearance := ⟨none, none⟩, lastFore := none, lastAft := none
          noted := ⟨none, none⟩, receiving := none } ∧
      t.field.live = true ∧ t.field.lastFrame = s.clock ∧ t.field.sending = none ∧
      t.field.outbound = t.groupNumbers.map (.pump · .stop) ++ t.tankNumbers.map (fun n => .valve (.tank n) .shut) ++
        t.groupNumbers.map (fun g => .valve (.suction g) .shut) ++ t.groupNumbers.map (fun g => .valve (.overboard g) .shut) ∧
      (∀ v, t.hasValve v = true → (t.valve v).commanded = .shut ∧ (t.valve v).confirmed = false ∧ (t.valve v).owner = none ∧
        (t.valve v).reported = .unknown ∧ (t.valve v).deadline = some (s.clock + BitVec.ofNat 32 (max 5 (min 180
          (match v with | .tank _ => r.hull.tankValveTimeout | _ => r.hull.lineValveTimeout))))) ∧
      (∀ x ∈ t.tanks, x.status = .stale ∧ x.age = 65535 ∧ x.strip = .above) ∧
      (∀ x ∈ t.holds, x.active = none) ∧ (∀ p ∈ t.pours.list, p.state ≠ .active) ∧
      (warm → t.startUp.outcome = some .warm ∧ t.startUp.purgeRunning = m.purge ∧ t.settings = s.settings ∧ t.berth = s.berth ∧
        t.pours.list = s.pours.list.map (fun p => if p.state = .active then { p with state := .interrupted } else p) ∧
        t.pours.computationsOwed = 1 + (s.pours.list.filter fun p => decide (p.state = .active)).length ∧
        (t.ballast.state = if s.startUp.lock = .automatic then .running else .halted) ∧
        (∀ l, t.channel l = { State.reset.channel l with
          forced := (s.channel l).forced, action := (s.channel l).action, lastForbid := (s.channel l).lastForbid
          stateFlag := (s.channel l).stateFlag, overrunFlag := (s.channel l).overrunFlag
          tallyFaultFlag := (s.channel l).tallyFaultFlag, derivationsOwed := 1 }) ∧
        (s.fits c →
          (s.HoldsOk → t.holds = s.holds.map fun x => { x with active := none }) ∧ t.items = s.items ∧
          t.tanks = s.tanks.map (fun x => { x with status := .stale, age := 65535, strip := .above }) ∧
          t.ballast.orders = s.ballast.orders.map (Option.map fun o =>
            if o.state = .active then { o with state := .queued, holdCause := some .warmStart } else o) ∧
          (∀ g, t.hasGroup g = true → t.queue g = (t.tankNumbers.filter fun k =>
              (s.order k).any fun o => decide (o.state = .active ∧ o.group = g)).reverse ++ s.queue g) ∧
          t.ballast.stations = s.ballast.stations.map fun st => { st with
            state := .off, active := none, closing := [], pumpCommanded := .stop, pumpReported := .unknown, switch := .remote
            deadline := none, estimator := ⟨none, 0⟩, lowSince := none, resuming := false })) ∧
      (¬warm → t.startUp.outcome = some .cold ∧ t.startUp.purgeRunning = false ∧ t.settings = State.reset.settings ∧
          t.berth = { maxDraft := r.hull.defaultDraft, source := .profile, flag := false } ∧ t.pours.list = [] ∧
          t.pours.computationsOwed = 1 ∧ t.holds = List.replicate c.holds ⟨0, 0, none, false⟩ ∧ t.items = List.replicate c.items 0 ∧
          t.tanks = r.hull.tanks.map (fun d =>
            { stripMass := d.stripMass, alternate := d.alternate, route := d.route, density := max 9500 (min 10600 d.density)
              current := 0, lastLevel := none, age := 65535, status := .stale, strip := .above, staleFlag := false
              overrangeFlag := false }) ∧
          t.ballast.orders = List.replicate c.tanks none ∧ t.ballast.queues = List.replicate c.groups [] ∧
          t.ballast.state = .halted ∧ (∀ l, t.channel l = { State.reset.channel l with derivationsOwed := 1 }) ∧
          t.ballast.stations = List.replicate c.groups
            { state := .off, active := none, closing := [], pumpCommanded := .stop, pumpReported := .unknown, switch := .remote
              deadline := none, lastTrip := none, priming := 20, rundown := 10, dryRun := 120, minRate := 100, override := 0
              estimator := ⟨none, 0⟩, lowSince := none, resuming := false, tripFlag := false, localFlag := false
              doneFlag := false, holdFlag := false })

/-- Spec 11 R167, spec 07 R128: PFAIL asserted writes the marker in READY, withdraws both releases and forbids both
channels, and drops what the links were hearing; its end makes the marker invalid, leaves both channels unreleased and
restarts the silence watch. At the end a tally deadline that has passed expires (spec 07 R124, R128), and its channel is derived;
a channel without one stands as it stood, and the due order gains the CLEARANCE slots of the outputs that changed and nothing
else. Spec 06 R115: at the end the deadlines of valves and stations that passed, and the changes kept,
are taken once each in the order in which they arose, each as its own command takes it. That a deadline comes before a change
of the same second is DEDUCED, and the order of deadlines of one second free (notes/assumptions/17.md, 1.md); that a deadline has passed where the count less
it, modulo 2^32, is below 2^31, is DEDUCED (notes/assumptions/4.md); that the
derivations at the two edges of PFAIL come within its commands is the model's choice (notes/assumptions/7.md). -/
def Obligations.PfailWithdrawsRelease : Prop :=
  (∀ s : State, s.powered = true → s.pfail = false → ∃ t, exec .pfailAssert s = .next t ∧ t.pfail = true ∧
    (∀ l, t.permit l = false ∧ t.slow l = false) ∧ t.ship.busyOwed = none ∧ t.ship.sending = s.ship.sending ∧
    t.ship.receiving = none ∧ t.terminal.receiving = none ∧ t.field.receiving = none ∧ t.field.outbound = s.field.outbound ∧
    t.ballast = s.ballast ∧ t.pours = s.pours ∧ t.tanks = s.tanks ∧ t.holds = s.holds ∧ t.engine = s.engine ∧
    (s.hasChannels = true → ∀ l, (t.channel l).released = false ∧ (t.channel l).computed = .forbid ∧
      (t.channel l).cause = some .unreleased ∧ (t.channel l).output = .forbid) ∧
    (s.ready = true → t.startUp.marker = ⟨true, s.startUp.index, s.startUp.imageCheck.getD 0, s.startUp.purgeRunning⟩) ∧
    (s.ready = false → t.startUp = s.startUp)) ∧
  (∀ s : State, s.powered = true → s.pfail = true → ∃ t, exec .pfailDeassert s = .next t ∧ t.pfail = false ∧
    t.ship = State.reset.ship ∧ (∀ l, (t.channel l).released = (s.channel l).released) ∧
    (s.ready = true → t.startUp.marker.valid = false ∧ t.field.live = true ∧ t.field.lastFrame = s.clock ∧
      t.ballast.kept = [] ∧ (∀ l, expired (s.channel l).deadline s.clock = true → (t.channel l).timedOut = true ∧
        (t.channel l).deadline = none) ∧
      ∃ (u : State) (passed events : List (Nat × DeferredEvent)),
        u = { s with
          pfail := false, ship := State.reset.ship, startUp := u.startUp, field := u.field, channels := u.channels
          terminal := { s.terminal with due := u.terminal.due }, ballast := { s.ballast with kept := [] }, draws := u.draws } ∧
        u.startUp = { s.startUp with marker := { s.startUp.marker with valid := false } } ∧
        u.field = { s.field with lastFrame := s.clock, live := true } ∧
        (∀ l, (expired (s.channel l).deadline s.clock = false → u.channel l = s.channel l) ∧
          (expired (s.channel l).deadline s.clock = true → (u.channel l).deadline = none ∧ (u.channel l).timedOut = true ∧
            u.followsTests l ∧ (u.channel l).outputFollows ∧
            ((s.channel l).released = false → (u.channel l).output = .forbid) ∧
            (u.channel l).forced = (s.channel l).forced ∧ (u.channel l).action = (s.channel l).action ∧
            (u.channel l).derivationsOwed = (s.channel l).derivationsOwed ∧
            (u.channel l).overrunFlag = (s.channel l).overrunFlag ∧
            (u.channel l).tallyFaultFlag = (s.channel l).tallyFaultFlag ∧
            (u.channel l).stateFlag =
              ((s.channel l).stateFlag || decide ((u.channel l).output ≠ (s.channel l).output)) ∧
            (u.channel l).lastForbid = if (u.channel l).output ≠ (s.channel l).output ∧ (u.channel l).output = .forbid then
              (u.channel l).outputCause else (s.channel l).lastForbid)) ∧
        (∃ gained, u.terminal.due = s.terminal.due ++ gained ∧ gained.Nodup ∧ ∀ x, x ∈ gained ↔
          x ∉ s.terminal.due ∧ ∃ l, x = .clearance l ∧ (u.channel l).output ≠ (s.channel l).output) ∧
        t.channels = u.channels ∧ t.terminal = u.terminal ∧
        passed.Nodup ∧ (∀ n e, (n, e) ∈ passed ↔ n < 2147483648 ∧
          ((∃ v d, e = .valve v ∧ s.hasValve v = true ∧ (s.valve v).deadline = some d ∧ (s.valve v).confirmed = false ∧
              n = elapsed d s.clock) ∨
            ∃ g d, e = .station g ∧ s.hasGroup g = true ∧ (s.station g).deadline = some d ∧ n = elapsed d s.clock)) ∧
        events.Pairwise (fun a b => b.1 ≤ a.1) ∧
        (∀ n, events.filter (·.1 = n) = passed.filter (·.1 = n) ++
          (s.ballast.kept.map fun (at', c) => (elapsed at' s.clock, DeferredEvent.change c)).filter (·.1 = n)) ∧
        t = events.foldl (fun s e => e.2.act s) u) ∧
    (s.ready = false → t = { s with pfail := false, ship := State.reset.ship })) ∧
  ∀ u : State, u.ready = true → u.pfail = false →
    (∀ v, u.hasValve v = true → exec (.valveTravelTimeout v) u = .next ((DeferredEvent.valve v).act u)) ∧
    (∀ g, u.hasGroup g = true → (u.station g).state = .priming →
      exec (.primingExpiry g) u = .next ((DeferredEvent.station g).act u)) ∧
    (∀ g, u.hasGroup g = true → (u.station g).state = .stopping .rundown →
      exec (.rundownExpiry g) u = .next ((DeferredEvent.station g).act u)) ∧
    (∀ g, (u.station g).state ≠ .priming → (u.station g).state ≠ .stopping .rundown → u.haltSettled →
      (DeferredEvent.station g).act u = u) ∧
    (∀ k, u.hasTank k = true → (u.tank k).goesStale u.settings.stale = true → exec (.staleExpiry k) u =
      .next ((DeferredEvent.change (.stale k)).act { u with
        tanks := modify1 u.tanks k fun x => { x with status := .stale, strip := .above, staleFlag := true }
        pours := { u.pours with computationsOwed := u.pours.computationsOwed + 1 } })) ∧
    (∀ k start, u.hasTank k = true → (u.tank k).strip = .settling start → u.settings.settle ≤ elapsed start u.clock →
      exec (.stripSettleExpiry k) u = .next ((DeferredEvent.change (.belowStrip k)).act { u with
        tanks := modify1 u.tanks k fun x => { x with strip := .below } })) ∧
    ∀ snap, u.engine.state = .livePass snap → ∃ (w : State) (r : ResultSet),
      exec .livePassEnd u = .next ((DeferredEvent.change (.publication r)).act w) ∧ w.engine.live = some r ∧
        w = { u with
          engine := w.engine, pours := w.pours, channels := w.channels, terminal := { u.terminal with due := w.terminal.due } }

/-! ### The ship link -/

/-- Spec 09 R144, R156, spec 08 R130, spec 12 R171: a frame with its start octet, its length and its check value, and any
octets but a start octet ahead of it, is read as what its octets carry, and discarded where its check value differs. A ship
frame of a length outside 5..1024, a terminal frame of one outside 4..64 and a field frame of another than 5 is discarded, and
so are octets without a start octet; what a frame of a legal length begins with is incomplete until its last octet. Octets that
leave a frame incomplete are kept with the second of its first octet, octets that can form no frame are dropped, and a ship or
field frame that began two seconds ago is dropped; nothing else changes.
How octets that form no frame come as commands, and that the octets behind a broken frame are dropped with it, is the model's
choice (notes/assumptions/13.md). -/
def Obligations.CheckedFramesAreReadAndOthersDropped : Prop :=
  (∀ (before data check : List Octet), 0x5A#8 ∉ before → 5 ≤ data.length → data.length ≤ 1024 → check.length = 2 →
    let body := octets16 (BitVec.ofNat 16 data.length) ++ data
    shipVerdict (before ++ 0x5A#8 :: body ++ check) =
      if check = octets16 (crc16 body) then shipRequest data else .discarded) ∧
  (∀ (before data check : List Octet), 0x6C#8 ∉ before → 4 ≤ data.length → data.length ≤ 64 → check.length = 2 →
    let body := BitVec.ofNat 8 data.length :: data
    terminalVerdict (before ++ 0x6C#8 :: body ++ check) =
      if check = octets16 (crc16 body) then terminalNotice data else .discarded) ∧
  (∀ (before check : List Octet) (kind ident qualifier : Octet) (value : BitVec 16), 0x3C#8 ∉ before → check.length = 2 →
    let body := 5#8 :: kind :: ident :: qualifier :: octets16 value
    fieldVerdict (before ++ 0x3C#8 :: body ++ check) =
      if check = octets16 (crc16 body) then fieldReport kind ident qualifier value else .discarded) ∧
  -- other lengths, and frames that have not ended
  (∀ (before rest : List Octet) (length : BitVec 16) (n : Octet),
    (0x5A#8 ∉ before → length.toNat < 5 ∨ 1024 < length.toNat →
      shipVerdict (before ++ 0x5A#8 :: octets16 length ++ rest) = .discarded) ∧
    (0x6C#8 ∉ before → n.toNat < 4 ∨ 64 < n.toNat → terminalVerdict (before ++ 0x6C#8 :: n :: rest) = .discarded) ∧
    (0x3C#8 ∉ before → n ≠ 5 → fieldVerdict (before ++ 0x3C#8 :: n :: rest) = .discarded)) ∧
  (∀ (before rest : List Octet) (n k : Nat), 0 < k →
    (let frame := 0x5A#8 :: octets16 (BitVec.ofNat 16 n) ++ rest
     0x5A#8 ∉ before → 5 ≤ n → n ≤ 1024 → rest.length = n + 2 → k < frame.length →
      shipVerdict (before ++ frame.take k) = .incomplete) ∧
    (let frame := 0x6C#8 :: BitVec.ofNat 8 n :: rest
     0x6C#8 ∉ before → 4 ≤ n → n ≤ 64 → rest.length = n + 2 → k < frame.length →
      terminalVerdict (before ++ frame.take k) = .incomplete) ∧
    (let frame := 0x3C#8 :: 5#8 :: rest
     0x3C#8 ∉ before → rest.length = 7 → k < frame.length → fieldVerdict (before ++ frame.take k) = .incomplete)) ∧
  (∀ os : List Octet, (0x5A#8 ∉ os → shipVerdict os = .discarded) ∧ (0x6C#8 ∉ os → terminalVerdict os = .discarded) ∧
    (0x3C#8 ∉ os → fieldVerdict os = .discarded)) ∧
  let kept (r : Option Receiving) (now : Second) (octets : List Octet) (verdict : List Octet → FrameVerdict) :
      Option Receiving :=
    let whole := (r.elim [] (·.octets)) ++ octets
    if verdict whole = .incomplete then some ⟨r.elim now (·.since), whole⟩
    else if verdict whole = .discarded then none else r
  let timed (r : Option Receiving) (now : Second) : Option Receiving :=
    r.filter fun x => decide (elapsed x.since now < 2)
  ∀ s : State, s.linkUp = true →
    (∀ os, exec (.shipFrameDiscard os) s =
      .next { s with ship := { s.ship with receiving := kept s.ship.receiving s.clock os shipVerdict } }) ∧
    (∀ os, exec (.terminalFrameDiscard os) s =
      .next { s with terminal := { s.terminal with receiving := kept s.terminal.receiving s.clock os terminalVerdict } }) ∧
    (∀ os, exec (.fieldFrameDiscard os) s =
      .next { s with field := { s.field with receiving := kept s.field.receiving s.clock os fieldVerdict } }) ∧
    exec .shipFrameIncompleteTimeout s =
      .next { s with ship := { s.ship with receiving := timed s.ship.receiving s.clock } } ∧
    exec .fieldFrameIncompleteTimeout s =
      .next { s with field := { s.field with receiving := timed s.field.receiving s.clock } }

/-- Spec 09 R144, R156, Tables 9.8 to 9.13, spec 08 R130, spec 12 R171: the command that each kind code and payload form of a
checked frame is, on each link, with every other code or form discarded (an unknown ship request kind excepted, which is a request
all the same); and the octets of each frame that the part sends: start octet, fields most significant octet first, check value.
The codes of absent and named values are in part DEDUCED (notes/assumptions/12.md), and so are a reply's missing pair count where it
carries no pair (notes/assumptions/14.md) and the loader and sequence of a notice's reply (notes/assumptions/21.md). -/
def Obligations.FramesCarryTheirCommandsAndReplies : Prop :=
  -- requests of the ship
  (∀ (tag kind table : Octet) (key : BitVec 16) (data : List Octet),
    let h : ShipHead := ⟨tag, table, key⟩
    let verdict := shipRequest (tag :: kind :: table :: octets16 key ++ data)
    let counted (ps : List Pair) : List Octet :=
      BitVec.ofNat 8 ps.length :: ps.flatMap fun p => octets16 p.ident ++ octets32 p.value
    (∀ (k : Nat) (c : Instr), (k, c) ∈ [(1, .look h), (3, .retire h), (16, .run h), (17, .halt h), (18, .rearm h), (19, .release h),
        (21, .endPour h), (22, .restart h), (23, .purge h), (24, .reload h), (25, .trialOpen h), (27, .trialEvaluate h),
        (28, .trialClose h)] → kind.toNat = k →
      (data = [] → verdict = .taken c) ∧ (data ≠ [] → verdict = .discarded)) ∧
    (∀ (k : Nat) (c : List Pair → Instr), (k = 2 ∧ c = .put h) ∨ (k = 20 ∧ c = .force h) ∨ (k = 26 ∧ c = .trialPut h) →
      kind.toNat = k →
      (∀ ps, ps.length < 256 → data = counted ps → verdict = .taken (c ps)) ∧
      ((∀ ps, ps.length < 256 → data ≠ counted ps) → verdict = .discarded)) ∧
    (kind.toNat = 4 →
      (∀ codes : List Octet, codes.length < 256 → data = BitVec.ofNat 8 codes.length :: codes →
        verdict = .taken (.clear h codes)) ∧
      ((∀ codes : List Octet, codes.length < 256 → data ≠ BitVec.ofNat 8 codes.length :: codes) → verdict = .discarded)) ∧
    (kind.toNat ∉ [1, 2, 3, 4, 16, 17, 18, 19, 20, 21, 22, 23, 24, 25, 26, 27, 28] →
      verdict = .taken (.unknownRequestKind kind h))) ∧
  -- notices of the terminal
  (∀ (kind loader : Octet) (sequence : BitVec 16) (v : BitVec 32),
    let verdict := terminalNotice (kind :: loader :: octets16 sequence ++ octets32 v)
    (∀ l, (loader, l) ∈ [(1#8, Loader.l1), (2#8, Loader.l2)] →
      (kind = 1 → verdict = .taken (.pourStart l sequence v)) ∧ (kind = 2 → verdict = .taken (.tally l v)) ∧
      (kind = 3 → verdict = .taken (.pourEnd l v)) ∧ (kind = 5 → v = 0 → verdict = .taken (.reportRequest (.clearance l))) ∧
      (kind = 5 → v = 2 → verdict = .taken (.reportRequest (.pourSummary l)))) ∧
    (kind = 4 → verdict = .taken (.berth v)) ∧ (kind = 5 → v = 1 → verdict = .taken (.reportRequest .draft)) ∧
    (loader ≠ 1 → loader ≠ 2 → kind = 1 ∨ kind = 2 ∨ kind = 3 ∨ (kind = 5 ∧ v ≠ 1) → verdict = .discarded) ∧
    (kind = 5 → 2 < v.toNat → verdict = .discarded) ∧ (kind = 0 ∨ 5 < kind.toNat → verdict = .discarded)) ∧
  (∀ data : List Octet, data.length ≠ 8 → terminalNotice data = .discarded) ∧
  -- reports of the cabinet
  (∀ (kind ident qualifier : Octet) (value : BitVec 16),
    let forms : List (Octet × Nat × Instr) := [(9, 0, .valvePosition ident .shut), (9, 1, .valvePosition ident .opened),
      (9, 2, .valvePosition ident .moving), (9, 3, .valvePosition ident .fault), (10, 0, .pumpStatus ident .stopped),
      (10, 1, .pumpStatus ident .running), (10, 2, .pumpStatus ident .overload), (11, 0, .localSwitch ident .remote),
      (11, 1, .localSwitch ident .localControl)]
    let verdict := fieldReport kind ident qualifier value
    (∀ c, qualifier = 0 → (kind, value.toNat, c) ∈ forms → verdict = .taken c) ∧
    (kind = 12 → qualifier = 0 → verdict = .taken (.sounding ident false value)) ∧
    (kind = 12 → qualifier = 1 → verdict = .taken (.sounding ident true value)) ∧
    (kind = 12 → 1 < qualifier.toNat → verdict = .discarded) ∧
    (kind ≠ 12 → qualifier ≠ 0 ∨ (∀ c, (kind, value.toNat, c) ∉ forms) → verdict = .discarded)) ∧
  -- the frames sent
  let frame (start : Octet) (body : List Octet) : List Octet := start :: body ++ octets16 (crc16 body)
  ∀ s : State,
    (s.ship.sending = none → s.shipOctets = none) ∧
    (∀ (r : Reply) (status : Octet), s.ship.sending = some r →
      (r.status, status) ∈ [(ReplyStatus.done, 0#8), (.accepted, 1#8), (.noRecord, 2#8), (.badField, 3#8), (.badValue, 4#8),
        (.state, 5#8), (.busy, 6#8), (.full, 7#8)] →
      let payload := if r.payload = [] then [] else
        octets16 (BitVec.ofNat 16 r.payload.length) ++ r.payload.flatMap fun p => octets16 p.ident ++ octets32 p.value
      s.shipOctets = some (frame 0x5B (octets16 (BitVec.ofNat 16 (6 + payload.length)) ++
        [r.head.tag, r.kind, status, r.head.table] ++ octets16 r.head.key ++ payload))) ∧
    (let sent (kind : Octet) (loader : Option Loader) (sequence : BitVec 16) (values : List Int) : Option (List Octet) :=
      some (frame 0x6C ([BitVec.ofNat 8 (4 + 4 * values.length), kind, match loader with
        | none => 0
        | some .l1 => 1
        | some .l2 => 2] ++ octets16 sequence ++ values.flatMap fun v => octets32 (BitVec.ofInt 32 v)))
    let number (x : Option Nat) : Int := x.elim (-1) fun n => (n : Int)
    let place {α : Type} [DecidableEq α] (values : List α) (x : Option α) : Int :=
      (x.map fun v => ((values.idxOf v : Nat) : Int)).getD (-1)
    let line : List LineState := [.pour, .reduce, .complete, .forbid]
    let cause : List OutputCause := .forced :: [ChannelCause.unreleased, .profileFault, .strength, .gated, .tallyTimeout,
      .noCurrent, .planMet, .pace, .margin, .caution].map .derived
    (s.terminal.sending = none → s.terminalOctets = none) ∧
    (∀ r : NoticeReply, s.terminal.sending = some (.reply r) → s.terminalOctets = sent 9 r.loader (r.sequence.getD 0)
      [match r.kind with
        | .pourStart => 1
        | .tally => 2
        | .pourEnd => 3
        | .berth => 4,
        if r.refused = none then 0 else 1,
        place [Reason.noPour, .loaderBusy, .notNext, .holdBusy, .gated, .unreleased, .noClearance, .regression, .busy, .starting,
          .profileFault] r.refused]) ∧
    (∀ r : ClearanceReport, s.terminal.sending = some (.clearance r) → s.terminalOctets =
      sent 10 (some r.loader) (BitVec.ofNat 16 (r.sequence.getD 0)) [number r.hold, place line (some r.output),
        place cause r.outputCause, place cause r.lastForbid, r.clearance, r.timeToLimit, r.generation]) ∧
    (∀ r : DraftReport, s.terminal.sending = some (.draft r) → s.terminalOctets = sent 11 none 0
      [r.generation, number (r.figures.map (·.fore)), number (r.figures.map (·.aft)), number (r.figures.map (·.mean)),
        (r.figures.map (·.trim)).getD (-1), number (r.figures.map (·.displacement)), r.maxDraft,
        place [BerthSource.profile, .terminal, .ship] (some r.source), number (r.figures.map (·.worst.ratio)),
        place [QuantityKind.sf, .bm, .trim, .fore, .aft] (r.figures.map (·.worst.kind)),
        number (r.figures.bind (·.worst.station))]) ∧
    ∀ r : SummaryReport, s.terminal.sending = some (.summary r) → s.terminalOctets =
      sent 12 (some r.loader) (BitVec.ofNat 16 r.noted.sequence) [r.noted.hold, r.noted.final, r.massAfter]) ∧
    (s.field.sending = none → s.fieldOctets = none) ∧
    ∀ (c : FieldCommand) (kind ident : Octet) (value : BitVec 16), s.field.sending = some c →
      (∃ (v : ValveId) (p : ValveCommand), c = .valve v p ∧ kind = 1 ∧ ident = (match v with
          | .tank n => BitVec.ofNat 8 n
          | .suction n => BitVec.ofNat 8 (32 + n)
          | .overboard n => BitVec.ofNat 8 (40 + n)) ∧ value = match p with
          | .shut => 0
          | .opened => 1) ∨
        (∃ (g : Nat) (o : PumpOrder), c = .pump g o ∧ kind = 2 ∧ ident = BitVec.ofNat 8 g ∧ value = match o with
          | .stop => 0
          | .start => 1
          | .reduced => 2
          | .full => 3) →
      s.fieldOctets = some (frame 0x3C (5 :: kind :: ident :: 0 :: octets16 value))

/-- Spec 09 R143: a checked request, or any checked frame, that completes while a reply is being sent is owed BUSY, the
latest alone, and does nothing else; the end of a reply sends the BUSY reply owed, or leaves the port IDLE. -/
def Obligations.ShipExchangeOwesBusyOnce : Prop :=
  (∀ (c : Instr) (r : ShipRequest) (s : State), requestOf c = some r ∨ c = .shipFrameBusyOwed r.kind r.head →
    s.linkUp = true → s.ship.sending.isSome = true →
    exec c s = .next { s with ship := { s.ship with busyOwed := some r, receiving := none } }) ∧
  ∀ s : State, s.powered = true → s.ship.sending.isSome = true →
    (∀ r, s.ship.busyOwed = some r → exec .shipReplyEnd s = .next { s with ship := { s.ship with
      sending := some ⟨r.kind, r.head, .busy, []⟩, inHand := none, busyOwed := none } }) ∧
    (s.ship.busyOwed = none → exec .shipReplyEnd s = .next { s with ship := { s.ship with sending := none, inHand := none } })

/-- Spec 09 R145, R146: a LOOK returns the record whole as it stands and changes nothing; BUSY while LOADING but for
PROFILE and SETTINGS, and on the tables that a PURGE holds; NO RECORD for a table or key that names none; a kind outside
the table of kinds is BAD VALUE. Every other request is BUSY while LOADING; while a PURGE runs PUT, RETIRE and CLEAR are BUSY on
the tables it holds, and END POUR, PURGE and the TRIAL actions are BUSY.
Where a record's fields stand in the payload is in part the model's choice (notes/assumptions/12.md). -/
def Obligations.LookReturnsTheRecordWhole : Prop :=
  ∀ (s : State) (h : ShipHead), s.shipIdle →
    let t := Table.ofCode h.table.toNat
    let busy := (s.startUp.phase = .loading ∧ t ≠ some .profile ∧ t ≠ some .settings) ∨
      (s.startUp.purgeRunning = true ∧ (t = some .pour ∨ t = some .order ∨ t = some .trial))
    (busy → exec (.look h) s = .next (s.replied 1 h .busy [])) ∧
    (¬busy → t = none → exec (.look h) s = .next (s.replied 1 h .noRecord [])) ∧
    (∀ x, ¬busy → t = some x → s.recordExists x h.key.toNat = false →
      exec (.look h) s = .next (s.replied 1 h .noRecord [])) ∧
    (∀ x, ¬busy → t = some x → s.recordExists x h.key.toNat = true →
      exec (.look h) s = .next (s.replied 1 h .done (s.lookup x h.key.toNat))) ∧
    (∀ k : Octet, exec (.unknownRequestKind k h) s = .next (s.replied k.toNat h .badValue [])) ∧
    (∀ (i : Instr) (q : ShipRequest), requestOf i = some q → q.head = h → q.kind ≠ 1 →
      (∀ k, i ≠ .unknownRequestKind k h) →
      let holds := t = some .pour ∨ t = some .order ∨ t = some .trial
      let purges := s.startUp.purgeRunning = true ∧
        ((q.kind ∈ [2, 3, 4] ∧ holds) ∨ q.kind ∈ [21, 23, 25, 26, 27, 28])
      (s.startUp.phase = .loading ∨ purges → exec i s = .next (s.replied q.kind.toNat h .busy [])) ∧
      (s.startUp.phase ≠ .loading → ¬purges → q.kind ∈ [3, 4] →
        t = none ∨ (∃ x, t = some x ∧ s.recordExists x h.key.toNat = false) →
        exec i s = .next (s.replied q.kind.toNat h .noRecord [])) ∧
      (s.startUp.phase ≠ .loading → ¬purges → q.kind = 2 →
        t = none ∨ (∃ x, t = some x ∧ s.putExists x h.key.toNat = false) →
        exec i s = .next (s.replied q.kind.toNat h .noRecord [])))

/-- Spec 09 R145, R146, Tables 9.2 and 9.10, spec 11 R165: which keys name a record of each table, and of which a PUT may name one.
The fields of a LOOK of every table, each at its row and place, absent fields as -1: HOLD, TANK and ITEM by spec 01 Tables 1.1 to
1.3, POUR by spec 04 Table 4.1 with spec 03 Table 3.1, ORDER by spec 05 Table 5.1, STATION and VALVE by spec 06 Tables 6.2 and 6.3
with the working rate and the time to target of R101, CHANNEL by spec 07 Table 7.1, BERTH by spec 08 Table 8.2, SETTINGS by spec 09
Table 9.4, PROFILE by spec 11 Table 11.2, RESULT by spec 02 R37 and Table 2.8, CLEARANCE by spec 03 R55, CHANGES by spec 09 R153
and Table 9.9, TRIAL by spec 10 R161 and Table 10.1.
The identifiers of fields in rows of several elements, the order of the pairs of a reply and of the figures in row 10 of TRIAL, the
side of the worst quantity and the cause beside a trial's strength room are in part the model's choice (notes/assumptions/12.md),
and so are limit set and draft of a CLEARANCE at generation 0
(notes/assumptions/24.md). That CHANGES exists in PROFILE FAULT, with its channel and profile flags, as it does in READY is DEDUCED
(notes/assumptions/10.md). -/
def Obligations.LookedUpRecordsCarryTheirFields : Prop :=
  ∀ s : State,
    let numbered (n k : Nat) : Prop := s.ready = true ∧ 1 ≤ k ∧ k ≤ n
    let f (row place : Nat) (v : Int) : Pair := ⟨BitVec.ofNat 16 (256 * row + place), BitVec.ofInt 32 v⟩
    let flag (b : Bool) : Int := if b then 1 else 0
    let number (x : Option Nat) : Int := x.elim (-1) fun n => (n : Int)
    let place {α : Type} [DecidableEq α] (values : List α) (x : Option α) : Int :=
      (x.map fun v => ((values.idxOf v : Nat) : Int)).getD (-1)
    let side (x : Side) : Int := match x with
      | .positive | .hog | .stern | .deep => 0
      | .negative | .sag | .head => 1
    let quantity (q : Quantity) : List Int :=
      [q.value, q.ratio, place [Status.normal, .caution, .limit] (some q.status), flag q.saturated]
    let limits (x : Option LimitSet) : Int := place [LimitSet.harbour, .sea] x
    let worst (w : Worst) : List Int := [place [QuantityKind.sf, .bm, .trim, .fore, .aft] (some w.kind), number w.station, w.ratio,
      place [Status.normal, .caution, .limit] (some w.status), side w.side]
    let row (n : Nat) (vs : List Int) : List Pair := vs.zipIdx.map fun (v, i) => f n i v
    let second (row : Nat) (x : Option Second) : Pair := ⟨BitVec.ofNat 16 (256 * row), x.getD (-1)⟩
    let cause (c : Cause) : List Int := [place [CauseKind.sf, .bm, .trim, .fore, .aft, .hold, .plan, .gated, .noResult,
        .notCurrent] (some c.kind), number c.station, (c.side.map side).getD (-1),
      if c.kind ∈ [CauseKind.sf, .bm, .trim, .fore, .aft] then flag c.joint else -1]
    let room (x : Room) : List Int := (x.amount : Int) :: cause x.cause
    let optRoom (x : Option Room) : List Int := (x.map room).getD [-1, -1, -1, -1, -1]
    (∀ t k, s.recordExists t k = true ↔ match t with
      | .hold | .clearance => numbered s.counts.holds k
      | .tank => numbered s.counts.tanks k
      | .item => numbered s.counts.items k
      | .pour => s.ready = true ∧ ∃ p ∈ s.pours.list, p.sequence = k
      | .order => numbered s.counts.tanks k ∧ (s.order k).isSome
      | .station => numbered s.counts.groups k
      | .valve => (numbered s.counts.tanks k ∧ k ≤ 24) ∨ ∃ g, numbered s.counts.groups g ∧ g ≤ 4 ∧ (k = 32 + g ∨ k = 40 + g)
      | .channel => s.powered = true ∧ (s.startUp.phase = .ready ∨ s.startUp.phase = .profileFault) ∧ (k = 1 ∨ k = 2)
      | .result => s.ready = true ∧ (k = 0 ∨ (1 ≤ k ∧ k ≤ s.counts.stations) ∨ k ∈ [100, 101, 102])
      | .berth | .trial => s.ready = true ∧ k = 0
      | .settings | .profile | .changes => k = 0) ∧
    (∀ t k, s.putExists t k = true ↔ (t = .pour ∧ s.ready = true ∧ 1 ≤ k ∧ k ≤ 999) ∨ (t = .order ∧ numbered s.counts.tanks k) ∨
      (t ≠ .pour ∧ t ≠ .order ∧ s.recordExists t k = true)) ∧
    -- RESULT
    (∀ r k, s.engine.live = some r →
      let x := s.lookup .result k
      let header := [f 1 0 r.generation, f 2 0 (limits (some r.limitSet)), f 3 0 r.caution, f 4 0 r.maxDraft, f 10 0 r.mean,
        f 11 0 r.displacement, f 11 1 (flag r.displacementSaturated)] ++ row 12 (worst r.worst) ++
        [f 13 0 (flag s.engine.strengthFlag)]
      (k = 0 → x = header) ∧ (k = 100 → x = header ++ row 7 (quantity r.trim)) ∧ (k = 101 → x = header ++ row 8 (quantity r.fore)) ∧
      (k = 102 → x = header ++ row 9 (quantity r.aft)) ∧
      ∀ q, k ≤ 16 → 1 ≤ k → r.stations[k - 1]? = some q → x = header ++ row 5 (quantity q.sf) ++ row 6 (quantity q.bm)) ∧
    (∀ k, s.engine.live = none → ∃ rest, s.lookup .result k = f 1 0 0 :: rest ∧ rest.length = (if k = 0 then 12 else
      if k = 100 ∨ k = 101 ∨ k = 102 then 16 else 20) ∧ ∀ p ∈ rest, p.value = BitVec.ofInt 32 (-1)) ∧
    -- CLEARANCE
    (∀ k,
      let other : Option Nat := match s.activePour .l1, s.activePour .l2 with
        | some p, some q => if p.hold = k then some q.hold else if q.hold = k then some p.hold else none
        | _, _ => none
      let left := (s.holdData k).maxMass - (s.hold k).current
      let none' : Room := ⟨0, .noResult, none, none, false⟩
      let own : Room := match s.engine.live with
        | none => none'
        | some r => ownRoom s.hull r k left
      let joint : Option Room := other.map fun o => match s.engine.live with
        | none => none'
        | some r => jointRoom s.hull r k o
      s.lookup .clearance k = row 1 [((s.engine.live.map (·.generation)).getD 0 : Nat), limits (s.engine.live.map (·.limitSet)),
          number (s.engine.live.map (·.maxDraft))] ++ row 2 [(s.hold k).current, left] ++ row 3 (room own) ++ row 4 (optRoom joint) ++
        row 5 [((joint.elim own.amount fun j => min own.amount j.amount) : Nat)] ++ row 6 [number (s.hold k).active]) ∧
    -- CHANGES
    (s.powered = true → s.startUp.phase = .ready ∨ s.startUp.phase = .profileFault →
      let ready := s.startUp.phase = .ready
      let entry (table key : Nat) (flags : List (Nat × Bool)) : Nat × Nat × List Nat :=
        (table, key, (flags.filter (·.2)).map (·.1))
      let channel (l : Loader) : List (Nat × Bool) :=
        [(6, (s.channel l).stateFlag), (7, (s.channel l).overrunFlag), (8, (s.channel l).tallyFaultFlag)]
      let entries := ((if ready then
          (s.tankNumbers.map fun n => entry 2 n [(0, (s.tank n).staleFlag), (1, (s.tank n).overrangeFlag)]) ++
            s.groupNumbers.map fun g => entry 6 g [(2, (s.station g).tripFlag), (3, (s.station g).localFlag),
              (4, (s.station g).doneFlag), (5, (s.station g).holdFlag)]
          else []) ++
        [entry 8 1 (channel .l1), entry 8 2 (channel .l2)] ++
        (if ready then [entry 9 0 [(9, s.engine.strengthFlag)], entry 11 0 [(10, s.berth.flag)]] else []) ++
        [entry 13 0 [(11, s.startUp.purgeDoneFlag), (13, s.startUp.profileFlag)]] ++
        (if ready then [entry 14 0 [(12, s.engine.trialDone)]] else [])).filter fun e => e.2.2 ≠ []
      let masked (n : Nat) : Bool := s.settings.mask.getLsbD n
      ∃ bits : List (BitVec 32), bits.length = entries.length ∧
        s.lookup .changes 0 = f 0 0 ((entries.map fun e => (e.2.2.filter fun n => !masked n).length).sum : Nat) ::
          (entries.zip bits).map (fun (e, b) => ⟨BitVec.ofNat 16 (256 * e.1 + e.2.1), b⟩) ∧
        ∀ (i n : Nat) (e : Nat × Nat × List Nat) (b : BitVec 32), entries[i]? = some e → bits[i]? = some b →
          (b.getLsbD n = true ↔ ∃ k ∈ e.2.2, n = if masked k then k + 16 else k)) ∧
    -- TRIAL
    (s.engine.trial = none → s.lookup .trial 0 = [f 1 0 0, f 2 0 (-1), f 3 0 (-1), f 4 0 (-1), f 5 0 (-1), f 6 0 (-1), f 6 2 (-1),
      f 7 0 (-1), f 8 0 (-1), f 9 0 (-1), f 10 0 (-1), f 11 0 (-1), f 12 0 (flag s.engine.trialDone)]) ∧
    (∀ x, s.engine.trial = some x →
      let result (r : ResultSet) : List Int := [(r.generation : Int), limits (some r.limitSet), r.caution, r.maxDraft] ++
        (r.stations.flatMap fun q => quantity q.sf ++ quantity q.bm) ++ quantity r.trim ++ quantity r.fore ++ quantity r.aft ++
        [(r.mean : Int), r.displacement, flag r.displacementSaturated] ++ worst r.worst
      s.lookup .trial 0 = [f 1 0 1] ++ (x.masses.zipIdx.map fun (m, i) => f 2 (2 * i) m) ++
        [f 3 0 (limits (some x.limitSet)), f 4 0 x.caution, f 5 0 x.maxDraft, f 6 0 (number x.hold1), f 6 2 (number x.hold2),
          f 7 0 (flag x.pending), f 8 0 (flag x.inFlight), f 9 0 x.generation] ++
        row 10 ((x.result.map result).getD [-1]) ++
        row 11 (if x.rooms = [] then [-1] else x.rooms.flatMap fun z => room z.own ++ optRoom z.joint ++ room z.strength) ++
        [f 12 0 (flag s.engine.trialDone)]) ∧
    -- HOLD, ITEM and TANK
    (∀ k, let x := s.hold k
      s.lookup .hold k = [f 1 0 (s.holdData k).spanAft, f 2 0 (s.holdData k).spanFore, f 3 0 (s.holdData k).maxMass, f 4 0 x.initial,
        f 5 0 x.current, f 6 0 (number x.active), f 7 0 (flag x.saturated)] ∧
      s.lookup .item k = [f 1 0 (s.item k)]) ∧
    (∀ k, let d := s.tankData k
      let x := s.tank k
      s.lookup .tank k = row 1 [(d.spanAft : Int), d.spanFore] ++ [f 2 0 d.capacity, f 3 0 x.stripMass, f 4 0 d.primary,
          f 5 0 (number x.alternate), f 6 0 (place [RouteMode.primary, .alternate, .primaryThenAlternate, .firstFree] (some x.route)),
          f 7 0 (place [SoundingForm.level, .ullage] (some d.form)), f 8 0 (if d.form = .ullage then number d.datum else -1)] ++
        row 9 (d.breakpoints.flatMap fun b => [(b.level : Int), b.volume]) ++
        [f 10 0 x.density, f 11 0 x.current, f 12 0 (number x.lastLevel), f 13 0 x.age,
          f 14 0 (place [SoundingStatus.fresh, .stale, .overrange, .manual] (some x.status)), f 15 0 (match x.strip with
            | .above => 0
            | .settling _ => 1
            | .below => 2), second 16 (match x.strip with
            | .settling start => some start
            | _ => none), f 17 0 (if (s.order k).isSome then k else -1)] ++ row 18 [flag x.staleFlag, flag x.overrangeFlag]) ∧
    -- POUR and ORDER
    (∀ k p, s.pour k = some p → s.lookup .pour k = [f 1 0 p.sequence, f 2 0 p.hold,
        f 3 0 (place [PourLoader.one .l1, .one .l2, .either] (some p.loader)), f 4 0 p.planned, f 5 0 p.tallied] ++
      row 6 ([p.gate1, p.gate2, p.gate3, p.gate4].flatMap fun g => [number (g.map (·.tank)), number (g.map (·.maxMass))]) ++
      [f 7 0 (place [PourState.planned, .active, .interrupted, .done] (some p.state)), f 8 0 p.declaredRate] ++
      row 9 ([(p.strengthRoom : Int), p.clearance, p.timeToLimit] ++ (cause p.cause).take 1 ++ [(p.basis : Int)] ++
        (cause p.cause).drop 1) ++ [f 10 0 (flag p.overrunReported)]) ∧
    (∀ k o, s.order k = some o → s.lookup .order k = [f 1 0 k, f 2 0 o.target, f 3 0 o.group,
      f 4 0 (place [OrderState.queued, .active, .done] (some o.state)),
      f 5 0 (if o.state = .queued ∧ k ∈ s.queue o.group then ((s.queue o.group).idxOf k + 1 : Nat) else -1),
      f 6 0 (place [HoldCause.trip, .halt, .localControl, .stale, .stress, .warmStart] o.holdCause),
      f 7 0 (place [Completion.met, .residual] o.completion), f 8 0 (flag o.front)]) ∧
    -- STATION and VALVE
    (∀ g, let st := s.station g
      let rate := if 0 < st.override then st.override else st.estimator.estimate
      let time : Option Nat := st.active.map fun k => if rate = 0 then 65535 else
        min 65535 (((s.tank k).current - ((s.order k).map (·.target)).getD 0) * 360 / rate)
      s.lookup .station g = [f 0 0 (place [SequencerState.halted, .running, .halting] (some s.ballast.state)),
          f 1 0 (place [StationState.off, .lineup, .priming, .discharge, .strip, .changeover, .stopping .rundown, .tripped,
            .localControl] (some (if st.state = .stopping .closing then .stopping .rundown else st.state))),
          f 2 0 (place [StationState.stopping .rundown, .stopping .closing]
            (if st.state = .stopping .rundown ∨ st.state = .stopping .closing then some st.state else none)),
          f 3 0 (number st.active)] ++ (st.closing.zipIdx.map fun (k, i) => f 4 (2 * i) k) ++
        [f 5 0 (place [PumpCommand.stop, .runFull, .runReduced] (some st.pumpCommanded)),
          f 6 0 (place [PumpReported.unknown, .stopped, .running, .overload] (some st.pumpReported)),
          f 7 0 (place [SwitchPosition.remote, .localControl] (some st.switch)), second 8 st.deadline,
          f 9 0 (place [TripCause.valveTimeout, .valveLost, .startFail, .stopFail, .pumpLost, .overload, .dryRun, .linkLost]
            st.lastTrip),
          f 10 0 st.priming, f 11 0 st.rundown, f 12 0 st.dryRun, f 13 0 st.minRate, f 14 0 st.override,
          f 15 0 st.estimator.estimate, second 16 st.lowSince, f 17 0 rate, f 18 0 (number time)] ++
        row 19 [flag st.tripFlag, flag st.localFlag, flag st.doneFlag, flag st.holdFlag]) ∧
    (∀ v k, ((∃ n, 1 ≤ n ∧ n ≤ 24 ∧ v = .tank n ∧ k = n) ∨
        ∃ g, 1 ≤ g ∧ g ≤ 4 ∧ (v = .suction g ∧ k = 32 + g ∨ v = .overboard g ∧ k = 40 + g)) →
      let x := s.valve v
      s.lookup .valve k = [f 1 0 (place [ValveCommand.opened, .shut] (some x.commanded)),
        f 2 0 (place [ValveReported.shut, .opened, .moving, .fault, .unknown] (some x.reported)), f 3 0 (flag x.confirmed),
        second 4 x.deadline] ++ match v with
        | .tank _ => [f 5 0 (number x.owner)]
        | _ => []) ∧
    -- CHANNEL
    (∀ l k, (l, k) ∈ [(Loader.l1, 1), (.l2, 2)] →
      let c := s.channel l
      let state (x : LineState) : Int := place [LineState.pour, .reduce, .complete, .forbid] (some x)
      let causes : List ChannelCause := [.unreleased, .profileFault, .strength, .gated, .tallyTimeout, .noCurrent, .planMet, .pace,
        .margin, .caution]
      let output (x : Option OutputCause) : Int := place (.forced :: causes.map .derived) x
      s.lookup .channel k = [f 1 0 (k - 1), f 2 0 (number c.currentPour), f 3 0 (state c.computed), f 4 0 (place causes c.cause),
        f 5 0 (place [ForcedLevel.none, .reduce, .complete, .forbid] (some c.forced)), f 6 0 (state c.output),
        f 7 0 (output c.outputCause), f 8 0 (output c.lastForbid), f 9 0 (flag c.released), second 10 c.deadline,
        f 11 0 (flag c.timedOut), f 12 0 (place [TimeoutAction.reduce, .forbid] (some c.action))] ++
        row 13 [flag c.stateFlag, flag c.overrunFlag, flag c.tallyFaultFlag]) ∧
    -- BERTH, SETTINGS and PROFILE
    (let x := s.settings
     let u := s.startUp
     let c := s.counts
     s.lookup .berth 0 = [f 1 0 s.berth.maxDraft, f 2 0 (place [BerthSource.profile, .terminal, .ship] (some s.berth.source)),
        f 3 0 (flag s.berth.flag)] ∧
     s.lookup .settings 0 = [f 1 0 (limits (some x.limitSet)), f 2 0 x.caution, f 3 0 x.pace, f 4 0 x.margin, f 5 0 x.reportStep,
        f 6 0 x.draftStep, f 7 0 x.overrun, f 8 0 x.tallyTimeout, f 9 0 x.stale, f 10 0 x.settle, f 11 0 x.rateWindow,
        f 12 0 x.silence, f 13 0 x.mask.toNat] ∧
     s.lookup .profile 0 = [f 1 0 (place [Phase.loading, .ready, .profileFault] (some u.phase)), f 2 0 u.index.toNat,
        f 3 0 (place [Lock.attended, .automatic] (some u.lock)), f 4 0 (flag u.retain),
        f 5 0 (place [StartOutcome.warm, .cold] u.outcome), f 6 0 (place [Finding.noImage, .check, .count, .range] u.finding),
        f 7 0 (number (u.imageCheck.map (·.toNat)))] ++
       row 8 (if u.phase = .ready then [(c.holds : Int), c.tanks, c.items, c.stations, c.groups] else [-1, -1, -1, -1, -1]) ++
       [f 9 0 (flag u.purgeRunning)] ++ row 10 [flag u.profileFlag, flag u.purgeDoneFlag])

/-- Spec 09 R147: a Put that is refused changes nothing and its reply names at most the pair refused; a Put that is taken
replies every field that it names, once each and in the order named, as it then stands.
A PUT of no pair or of more than 16 is BAD VALUE, and R145, Table 9.2: on a table that takes no PUT it is BAD FIELD.
Which pair a refusal names where fields are named twice is the model's choice (notes/assumptions/11.md). -/
def Obligations.PutIsWholeOrRefused : Prop :=
  (∀ (s : State) (h : ShipHead) (ps : List Pair) (x : Table), s.shipIdle → s.startUp.phase ≠ .loading →
    (s.startUp.purgeRunning = true → x ≠ .pour ∧ x ≠ .order ∧ x ≠ .trial) → Table.ofCode h.table.toNat = some x →
    s.putExists x h.key.toNat = true →
    (ps = [] ∨ 16 < ps.length → exec (.put h ps) s = .next (s.replied 2 h .badValue [])) ∧
    (countLegal ps = true → x ∈ [Table.valve, .result, .clearance, .profile, .trial, .changes] →
      ∃ p ∈ ps, exec (.put h ps) s = .next (s.replied 2 h .badField [p]) ∧ ps.head?.map (·.ident) = some p.ident)) ∧
  ∀ (s t : State) (h : ShipHead) (ps : List Pair), s.shipIdle → s.RecordsOk → s.PoursOk →
    exec (.put h ps) s = .next t →
    ∃ r, t.ship.sending = some r ∧ r.kind = 2 ∧ r.head = h ∧
      (r.status ≠ .done → t = s.replied 2 h r.status r.payload ∧ r.payload.length ≤ 1 ∧
        ∀ p ∈ r.payload, p ∈ ps ∧ valueOf ps p.ident = some p.value) ∧
      (r.status = .done → 1 ≤ ps.length ∧ ps.length ≤ 16 ∧ r.payload.map (·.ident) = namedOnce ps ∧
        ∃ x, Table.ofCode h.table.toNat = some x ∧ ∀ p ∈ r.payload, p ∈ t.lookup x h.key.toNat ∨
          (x = .tank ∧ p = ⟨0, BitVec.ofInt 32 (optInt (t.tank h.key.toNat).lastLevel)⟩))

/-! ### PUT, RETIRE and CLEAR -/

/-- Spec 01 R3, R4, R5, spec 04 R71: a PUT of a hold's initial mass or of an item's mass, and what follows from it. Another
field is BAD FIELD and a mass out of its range BAD VALUE.
Which pair a refusal names is DEDUCED (notes/assumptions/11.md). -/
def Obligations.PutStoresMasses : Prop :=
  ∀ (s : State) (h : ShipHead) (ps : List Pair) (m : Nat), s.shipIdle → s.ready = true → s.RecordsOk →
    countLegal ps = true →
    let refuses (field : BitVec 16) (most : Int) : Prop :=
      ((∃ p ∈ ps, p.ident ≠ field) → ∃ p ∈ ps, exec (.put h ps) s = .next (s.replied 2 h .badField [p]) ∧ p.ident ≠ field) ∧
      ∀ v, (∀ p ∈ ps, p.ident = field) → valueOf ps field = some v → v.toInt < 0 ∨ most < v.toInt →
        exec (.put h ps) s = .next (s.replied 2 h .badValue [⟨field, v⟩])
    (h.table = 1 → s.hasHold h.key.toNat = true → refuses (fieldId 4 0) 400000) ∧
    (h.table = 3 → s.hasItem h.key.toNat = true → refuses (fieldId 1 0) 100000) ∧
    (h.table = 1 → s.hasHold h.key.toNat = true → (∀ p ∈ ps, p.ident = fieldId 4 0) → intAt ps 4 0 = some (m : Int) →
      m ≤ 400000 →
      let k := h.key.toNat
      let mass := m + ((s.pours.list.filter fun p => decide (p.hold = k ∧ p.state ≠ .planned)).map (·.tallied)).sum
      let active := (s.pours.list.find? fun p => decide (p.hold = k ∧ p.state = .active)).map (·.sequence)
      let changed := decide (min 400000 mass ≠ (s.hold k).current)
      exec (.put h ps) s = .next { s with
        holds := modify1 s.holds k fun _ => ⟨m, min 400000 mass, active, decide (400000 < mass)⟩
        engine := { s.engine with dirty := s.engine.dirty || changed }
        pours := { s.pours with computationsOwed := s.pours.computationsOwed + changed.toNat }
        ship := (s.replied 2 h .done [pairOf 4 0 m]).ship }) ∧
    (h.table = 3 → s.hasItem h.key.toNat = true → (∀ p ∈ ps, p.ident = fieldId 1 0) → intAt ps 1 0 = some (m : Int) →
      m ≤ 100000 →
      exec (.put h ps) s = .next { s with
        items := modify1 s.items h.key.toNat fun _ => m
        engine := { s.engine with dirty := s.engine.dirty || decide (s.item h.key.toNat ≠ m) }
        ship := (s.replied 2 h .done [pairOf 1 0 m]).ship })

/-- Spec 01 R7 to R9, R15, R17: a PUT of a tank's strip mass, density, manual level, route mode and alternate group, any of them
together. Strip mass and density make the strip state ABOVE; a density converts the last level again; a manual level is taken on a
STALE tank alone, at the density that then stands. A field not listed there is BAD FIELD. A route field is refused STATE while the
tank's order is QUEUED or ACTIVE, and so is a manual level unless the tank is STALE. A strip mass above the capacity, a level
outside 0..30,000, an alternate group that is none of the profile's or the primary, a mode outside Table 1.3, and the mode
ALTERNATE without an alternate group are BAD VALUE; a density clamps.
Which pair a refusal names is DEDUCED (notes/assumptions/11.md). -/
def Obligations.PutStoresTankFields : Prop :=
  ∀ (s : State) (h : ShipHead) (ps : List Pair), s.shipIdle → s.ready = true → s.RecordsOk →
    countLegal ps = true → h.table = 2 → s.hasTank h.key.toNat = true →
    let k := h.key.toNat
    let x := s.tank k
    let d := s.tankData k
    let level := intAt ps 0 0
    let strip := intAt ps 3 0
    let group := intAt ps 5 0
    let route := intAt ps 6 0
    let density := intAt ps 10 0
    let known (i : BitVec 16) : Prop := i ∈ [0, fieldId 3 0, fieldId 5 0, fieldId 6 0, fieldId 10 0]
    let routed := group.isSome = true ∨ route.isSome = true
    let barred := (level.isSome = true ∧ x.status ≠ .stale) ∨ (routed ∧ ∃ o, s.order k = some o ∧ o.state ≠ .done)
    let modes : List (Int × RouteMode) := [(0, .primary), (1, .alternate), (2, .primaryThenAlternate), (3, .firstFree)]
    let stands (mode : RouteMode) : Prop := route = none ∧ mode = x.route ∨ ∃ v, route = some v ∧ (v, mode) ∈ modes
    let alternate : Option Nat := group.elim x.alternate fun a => if a = -1 then none else some a.toNat
    let legal := (∀ v, level = some v → 0 ≤ v ∧ v ≤ 30000) ∧ (∀ v, strip = some v → 0 ≤ v ∧ v ≤ d.capacity) ∧
      (∀ a, group = some a → a = -1 ∨ (1 ≤ a ∧ a ≤ s.counts.groups ∧ a ≠ d.primary)) ∧
      ∃ mode, stands mode ∧ (routed → mode = .alternate → alternate ≠ none)
    ((∃ p ∈ ps, ¬known p.ident) → ∃ p ∈ ps, exec (.put h ps) s = .next (s.replied 2 h .badField [p]) ∧ ¬known p.ident) ∧
    ((∀ p ∈ ps, known p.ident) →
      (barred → ∃ p ∈ ps, exec (.put h ps) s = .next (s.replied 2 h .state [p])) ∧
      (¬barred → ¬legal → ∃ p ∈ ps, exec (.put h ps) s = .next (s.replied 2 h .badValue [p])) ∧
      ∀ mode, ¬barred → legal → stands mode → ∃ t, exec (.put h ps) s = .next t ∧ t.ship.sending.map (·.status) = some .done ∧
        let density' := density.elim x.density fun v => (max 9500 (min 10600 v)).toNat
        let level' := level.elim x.lastLevel fun v => some v.toNat
        let y : Tank := { x with
          density := density', stripMass := strip.elim x.stripMass Int.toNat, route := mode, alternate := alternate
          lastLevel := level', status := if level.isSome then .manual else x.status
          current := if level.isSome || density.isSome then level'.elim x.current fun n => (massAt d density' n).1 else x.current
          strip := if level.isSome || strip.isSome || density.isSome then .above else x.strip }
        let differs := decide (y.current ≠ x.current)
        t.tanks = modify1 s.tanks k (fun _ => y) ∧
          (y.current = x.current → level = none → t = { s with tanks := t.tanks, ship := t.ship }) ∧
          { s with
            tanks := t.tanks, ship := t.ship, engine := { s.engine with dirty := s.engine.dirty || differs }
            pours := { s.pours with
              computationsOwed := s.pours.computationsOwed + (differs || level.isSome).toNat } }.onlyBallast t)

/-- Spec 08 R133, spec 06 R98, spec 07 R118, R122: a PUT of the berth's draft, of a station's intervals and rates and of a
channel's tally-timeout action. A field that a PUT may not name is BAD FIELD, and an action other than REDUCE and FORBID is BAD
VALUE; a draft, an interval and a rate clamp.
That a PUT of an action that differs derives the channel within its own command, also where the channel is not timed out, is the
model's choice (notes/assumptions/7.md); which pair a refusal names is DEDUCED (notes/assumptions/11.md). -/
def Obligations.PutStoresBerthStationAndChannel : Prop :=
  ∀ (s : State) (h : ShipHead) (ps : List Pair), s.shipIdle → countLegal ps = true →
    let takesOnly (fields : List (BitVec 16)) : Prop := (∃ p ∈ ps, p.ident ∉ fields) →
      ∃ p ∈ ps, exec (.put h ps) s = .next (s.replied 2 h .badField [p]) ∧ p.ident ∉ fields
    (s.ready = true → h.table = 11 → h.key = 0 → takesOnly [fieldId 1 0]) ∧
    (h.table = 6 → s.hasGroup h.key.toNat = true →
      takesOnly [fieldId 10 0, fieldId 11 0, fieldId 12 0, fieldId 13 0, fieldId 14 0]) ∧
    (s.startUp.phase ≠ .loading → h.table = 8 → (loaderOfKey h.key.toNat).isSome = true → takesOnly [fieldId 12 0] ∧
      ∀ v, (∀ p ∈ ps, p.ident = fieldId 12 0) → valueOf ps (fieldId 12 0) = some v → v ≠ 0 → v ≠ 1 →
        exec (.put h ps) s = .next (s.replied 2 h .badValue [⟨fieldId 12 0, v⟩])) ∧
    (∀ v, s.ready = true → h.table = 11 → h.key = 0 → (∀ p ∈ ps, p.ident = fieldId 1 0) → intAt ps 1 0 = some v →
      let d := (max 5000 (min 30000 v)).toNat
      exec (.put h ps) s = .next { s with
        berth := { s.berth with maxDraft := d, source := .ship }
        engine := { s.engine with dirty := s.engine.dirty || decide (s.berth.maxDraft ≠ d) }
        terminal := { s.terminal with due :=
          if (s.berth.maxDraft = d ∧ s.berth.source = .ship) ∨ .draft ∈ s.terminal.due then s.terminal.due
          else s.terminal.due ++ [.draft] }
        ship := (s.replied 2 h .done [pairOf 1 0 d]).ship }) ∧
    (s.RecordsOk → h.table = 6 → s.hasGroup h.key.toNat = true → (∀ p ∈ ps, ∃ i, 10 ≤ i ∧ i ≤ 14 ∧ p.ident = fieldId i 0) →
      ∃ t, exec (.put h ps) s = .next t ∧ { s with ship := t.ship }.onlyBallast t ∧
        t.ship.sending.map (·.status) = some .done ∧
        let st := s.station h.key.toNat
        let st' := t.station h.key.toNat
        let stored (i lo hi old : Nat) : Nat := (intAt ps i 0).elim old fun v => (max (lo : Int) (min hi v)).toNat
        st'.priming = stored 10 5 120 st.priming ∧ st'.rundown = stored 11 2 60 st.rundown ∧
          st'.dryRun = stored 12 10 600 st.dryRun ∧ st'.minRate = stored 13 0 5000 st.minRate ∧
          st'.override = stored 14 0 20000 st.override ∧
          (intAt ps 12 0 = none → intAt ps 13 0 = none → t.field = s.field ∧ t.draws = s.draws ∧
            t.ballast = { s.ballast with
              stations := modify1 s.ballast.stations h.key.toNat fun st =>
                { st with priming := st'.priming, rundown := st'.rundown, override := st'.override } })) ∧
    ∀ (l : Loader) (a : TimeoutAction), s.startUp.phase ≠ .loading → h.table = 8 → loaderOfKey h.key.toNat = some l →
      (∀ p ∈ ps, p.ident = fieldId 12 0) → intAt ps 12 0 = some (match a with | .reduce => 0 | .forbid => 1) →
      ∃ t, exec (.put h ps) s = .next t ∧ (t.channel l).action = a ∧ t.ship.sending.map (·.status) = some .done ∧
        t = { s with
          channels := s.channels.put l (t.channel l), terminal := { s.terminal with due := t.terminal.due }, ship := t.ship } ∧
        ((s.channel l).action = a → t.channel l = s.channel l ∧ t.terminal = s.terminal) ∧
        ((s.channel l).action ≠ a → t.followsTests l ∧
          (t.channel l).outputFollows)

/-- Spec 09 R150, spec 02 R22, spec 01 R14, R16, spec 12 R173: a PUT on SETTINGS stores each named field within its range, a
caution outside 500..999 as 950; a new limit set or caution marks the live pass dirty, and a new pace threshold or margin is one
cause of derivation of both channels. A stale interval that a tank's age has reached makes it STALE at once, a settle interval
that its settling has lasted takes it to BELOW, and a silence interval that has passed ends the link's LIVE state; what the
Ballast Sequencer does of it is stated with those expiries. A field outside Table 9.4 is BAD FIELD, and a limit set other than
HARBOUR and SEA or a mask that names a code outside Table 9.5 is BAD VALUE. Which pair a refusal names is DEDUCED
(notes/assumptions/11.md).
That a PUT of the threshold, the margin or both is one cause, and that its derivations are left owed, is the model's choice
(notes/assumptions/7.md); that the shortened intervals act within the PUT is DEDUCED (notes/assumptions/19.md). -/
def Obligations.PutStoresSettings : Prop :=
  ∀ (s : State) (h : ShipHead) (ps : List Pair), s.shipIdle → s.startUp.phase ≠ .loading →
    countLegal ps = true → h.table = 12 → h.key = 0 →
    let known (i : BitVec 16) : Prop := ∃ n, 1 ≤ n ∧ n ≤ 13 ∧ i = fieldId n 0
    let legal := (∀ v, intAt ps 1 0 = some v → v = 0 ∨ v = 1) ∧ ∀ v, valueOf ps (fieldId 13 0) = some v → v.toNat < 2 ^ 14
    ((∃ p ∈ ps, ¬known p.ident) → ∃ p ∈ ps, exec (.put h ps) s = .next (s.replied 2 h .badField [p]) ∧ ¬known p.ident) ∧
    ((∀ p ∈ ps, known p.ident) → ¬legal → ∃ p ∈ ps, exec (.put h ps) s = .next (s.replied 2 h .badValue [p])) ∧
    (s.RecordsOk → (∀ p ∈ ps, known p.ident) → legal → ∃ t, exec (.put h ps) s = .next t ∧ t.ship.sending.map (·.status) = some .done ∧
      let x := s.settings
      let y := t.settings
      let stored (i lo hi old : Nat) : Nat := (intAt ps i 0).elim old fun v => (max (lo : Int) (min hi v)).toNat
      let acts (i : Nat) : Prop := s.ready = true ∧ intAt ps i 0 ≠ none
      let goesStale (k : Nat) : Bool := decide (((s.tank k).status = .fresh ∨ (s.tank k).status = .overrange) ∧
        y.stale ≤ (s.tank k).age)
      let settled (k : Nat) : Prop := ∃ start, (s.tank k).strip = .settling start ∧ y.settle ≤ elapsed start s.clock
      y.limitSet = (intAt ps 1 0).elim x.limitSet (fun v => if v = 0 then .harbour else .sea) ∧
        y.caution = (intAt ps 2 0).elim x.caution (fun v => if 500 ≤ v ∧ v ≤ 999 then v.toNat else 950) ∧
        y.pace = stored 3 0 3600 x.pace ∧ y.margin = stored 4 0 100000 x.margin ∧
        y.reportStep = stored 5 100 100000 x.reportStep ∧ y.draftStep = stored 6 1 1000 x.draftStep ∧
        y.overrun = stored 7 0 50000 x.overrun ∧ y.tallyTimeout = stored 8 5 120 x.tallyTimeout ∧
        y.stale = stored 9 10 600 x.stale ∧ y.settle = stored 10 5 300 x.settle ∧
        y.rateWindow = stored 11 10 600 x.rateWindow ∧ y.silence = stored 12 2 60 x.silence ∧
        y.mask.toNat = (valueOf ps (fieldId 13 0)).elim x.mask.toNat (·.toNat) ∧
        (∀ k, s.hasTank k = true →
          (acts 9 → goesStale k = true → t.tank k = { s.tank k with status := .stale, strip := .above, staleFlag := true }) ∧
          (acts 10 → ¬(acts 9 ∧ goesStale k = true) → settled k → t.tank k = { s.tank k with strip := .below }) ∧
          (¬(acts 9 ∧ goesStale k = true) → ¬(acts 10 ∧ settled k) → t.tank k = s.tank k)) ∧
        (acts 9 → t.pours.computationsOwed = s.pours.computationsOwed + (s.tankNumbers.filter goesStale).length) ∧
        (¬acts 9 → t.pours = s.pours) ∧
        (t.field.live = false ↔ s.field.live = false ∨
          (acts 12 ∧ y.silence ≤ elapsed s.field.lastFrame s.clock)) ∧
        (¬acts 9 → ¬acts 10 → ¬acts 12 → t.ballast = s.ballast ∧ t.field = s.field ∧ t.draws = s.draws) ∧
        { s with
          settings := y
          engine := { s.engine with
            dirty := s.engine.dirty || (s.ready && decide (x.limitSet ≠ y.limitSet ∨ x.caution ≠ y.caution)) }
          channels := if x.pace = y.pace ∧ x.margin = y.margin then s.channels
            else ⟨{ s.channels.l1 with derivationsOwed := s.channels.l1.derivationsOwed + 1 },
              { s.channels.l2 with derivationsOwed := s.channels.l2.derivationsOwed + 1 }⟩
          tanks := t.tanks, pours := { s.pours with computationsOwed := t.pours.computationsOwed }
          field := { s.field with live := t.field.live }, ship := t.ship }.onlyBallast t)

/-- Spec 04 R56, R60 to R62, spec 03 R40: a creating PUT on POUR adds one PLANNED pour with its named values, nothing tallied
and the opening clearance figures; an amending PUT stores every named field of a PLANNED pour, and the planned mass alone of a pour
that runs; any other field of a pour that runs, and every field of a DONE pour, is refused STATE. A field that a PUT may not name
is BAD FIELD; a value out of its range, or a creating PUT without a hold or a planned mass, is BAD VALUE; a creating PUT that finds
48 pours is FULL. A PUT that is taken is one cause of computation.
That tank -1 alone names no gate, as tank and mass -1 together do, is the model's choice, and which pair a refusal names is DEDUCED
(notes/assumptions/11.md). -/
def Obligations.PutCreatesAndAmendsPours : Prop :=
  ∀ (s : State) (h : ShipHead) (ps : List Pair), s.shipIdle → s.ready = true → s.PoursOk →
    s.startUp.purgeRunning = false → countLegal ps = true → h.table = 4 →
    let known (i : BitVec 16) : Prop := i ∈ [fieldId 2 0, fieldId 3 0, fieldId 4 0, fieldId 6 0, fieldId 6 1, fieldId 6 2,
      fieldId 6 3, fieldId 6 4, fieldId 6 5, fieldId 6 6, fieldId 6 7]
    ((∃ p ∈ ps, ¬known p.ident) → s.pour h.key.toNat ≠ none ∨ (1 ≤ h.key.toNat ∧ h.key.toNat ≤ 999) →
      ∃ p ∈ ps, exec (.put h ps) s = .next (s.replied 2 h .badField [p]) ∧ ¬known p.ident) ∧
    ((∀ p ∈ ps, known p.ident) →
    let owed := s.pours.computationsOwed + 1
    let number (row : Nat) (most : Nat) (old : Option Nat) (x : Nat) : Prop :=
      intAt ps row 0 = some (x : Int) ∧ 1 ≤ x ∧ x ≤ most ∨ intAt ps row 0 = none ∧ old = some x
    let loaderNamed (old x : PourLoader) : Prop := intAt ps 3 0 = none ∧ x = old ∨ intAt ps 3 0 = some 0 ∧ x = .one .l1 ∨
      intAt ps 3 0 = some 1 ∧ x = .one .l2 ∨ intAt ps 3 0 = some 2 ∧ x = .either
    let gateNamed (slot : Nat) (old x : Option Gate) : Prop :=
      (intAt ps 6 (2 * slot) = none ∧ intAt ps 6 (2 * slot + 1) = none ∧ x = old) ∨
      (intAt ps 6 (2 * slot) = some (-1) ∧ (intAt ps 6 (2 * slot + 1) = some (-1) ∨ intAt ps 6 (2 * slot + 1) = none) ∧
        x = none) ∨
      ∃ tank most : Nat, intAt ps 6 (2 * slot) = some (tank : Int) ∧ intAt ps 6 (2 * slot + 1) = some (most : Int) ∧
        1 ≤ tank ∧ tank ≤ s.counts.tanks ∧ most ≤ 150000 ∧ x = some ⟨tank, most⟩
    let valuesLegal (oldHold oldPlanned : Option Nat) : Prop := (∃ x, number 2 s.counts.holds oldHold x) ∧
      (∃ x, loaderNamed .either x) ∧ (∃ x, number 4 400000 oldPlanned x) ∧ ∀ slot < 4, ∃ x, gateNamed slot none x
    (s.pour h.key.toNat = none → 1 ≤ h.key.toNat → h.key.toNat ≤ 999 →
      (¬valuesLegal none none → ∃ qs, exec (.put h ps) s = .next (s.replied 2 h .badValue qs) ∧ qs.length ≤ 1 ∧ ∀ q ∈ qs, q ∈ ps) ∧
      (valuesLegal none none → 48 ≤ s.pours.list.length → exec (.put h ps) s = .next (s.replied 2 h .full []))) ∧
    (∀ hold loader planned g1 g2 g3 g4, s.pour h.key.toNat = none → 1 ≤ h.key.toNat → h.key.toNat ≤ 999 →
      s.pours.list.length < 48 → number 2 s.counts.holds none hold → loaderNamed .either loader →
      number 4 400000 none planned → gateNamed 0 none g1 → gateNamed 1 none g2 → gateNamed 2 none g3 → gateNamed 3 none g4 →
      ∃ t, exec (.put h ps) s = .next t ∧ t.PoursOk ∧ t.ship.sending.map (·.status) = some .done ∧
        t = { s with pours := { s.pours with list := t.pours.list, computationsOwed := owed }, ship := t.ship } ∧
        ∀ q, q ∈ t.pours.list ↔ q ∈ s.pours.list ∨ q =
          { sequence := h.key.toNat, hold := hold, loader := loader, planned := planned, tallied := 0, gate1 := g1, gate2 := g2
            gate3 := g3, gate4 := g4, state := .planned, declaredRate := 0, strengthRoom := 0, clearance := 0
            timeToLimit := 65535, cause := ⟨.notCurrent, none, none, false⟩, basis := 0, overrunReported := false }) ∧
    ∀ p, s.pour h.key.toNat = some p →
      (∀ hold loader planned g1 g2 g3 g4,
        p.state = .planned ∨ ((p.state = .active ∨ p.state = .interrupted) ∧ ∀ q ∈ ps, q.ident = fieldId 4 0) →
        number 2 s.counts.holds (some p.hold) hold → loaderNamed p.loader loader → number 4 400000 (some p.planned) planned →
        gateNamed 0 p.gate1 g1 → gateNamed 1 p.gate2 g2 → gateNamed 2 p.gate3 g3 → gateNamed 3 p.gate4 g4 →
        ∃ t, exec (.put h ps) s = .next t ∧ t.ship.sending.map (·.status) = some .done ∧ t = { s with
          pours := { s.pours with
            list := s.pours.list.map fun q => if q.sequence = p.sequence then
              { p with
                hold := hold, loader := loader, planned := planned, gate1 := g1, gate2 := g2, gate3 := g3, gate4 := g4 } else q
            computationsOwed := owed }
          ship := t.ship }) ∧
      (p.state = .done ∨ ((p.state = .active ∨ p.state = .interrupted) ∧ ∃ q ∈ ps, q.ident ≠ fieldId 4 0) →
        ∃ q ∈ ps, exec (.put h ps) s = .next (s.replied 2 h .state [q])) ∧
      (p.state = .planned ∨ ((p.state = .active ∨ p.state = .interrupted) ∧ ∀ q ∈ ps, q.ident = fieldId 4 0) →
        ¬valuesLegal (some p.hold) (some p.planned) → ∃ q ∈ ps, exec (.put h ps) s = .next (s.replied 2 h .badValue [q])))

/-- Spec 05 R77 to R80, R89, Table 5.3: an entering PUT on ORDER files the order: DONE MET where the tank stands at or below its
target, and otherwise QUEUED at the head or tail of the queue of the group named, or of the group that the route mode chooses. Where
the group's station may look it does so at once, and otherwise nothing else changes (spec 06 R103). An amending PUT stores the target of a QUEUED or ACTIVE order and nothing else, and one that
names the group or the front setting is refused STATE. A field that a PUT may not name is BAD FIELD; an entering PUT without a
target, with a group above the count or not permitted, or with a front setting other than NO and YES is BAD VALUE. Which pair a
refusal names is DEDUCED (notes/assumptions/11.md).
That every 32-bit target is of the right form, and clamped, is the model's choice (notes/assumptions/24.md). -/
def Obligations.PutEntersOrders : Prop :=
  ∀ (s : State) (h : ShipHead) (ps : List Pair) (v : Int), s.shipIdle → s.ready = true → s.RecordsOk →
    s.startUp.purgeRunning = false → countLegal ps = true → h.table = 5 → s.hasTank h.key.toNat = true →
    let known (i : BitVec 16) : Prop := i ∈ [fieldId 2 0, fieldId 3 0, fieldId 8 0]
    let k := h.key.toNat
    let target := (max 0 (min ((s.tankData k).capacity : Int) v)).toNat
    let primary := (s.tankData k).primary
    let permitted : List Nat := match (s.tank k).route, (s.tank k).alternate with
      | .primary, _ => [primary]
      | .alternate, a => a.toList
      | .primaryThenAlternate, a | .firstFree, a => primary :: a.toList
    let off (g : Nat) : Prop := g ∈ permitted ∧ 1 ≤ g ∧ g ≤ s.counts.groups ∧ (s.station g).state = .off
    let chosen (g : Nat) : Prop := match (s.tank k).route, (s.tank k).alternate with
      | .primary, _ => g = primary
      | .alternate, a => a = some g
      | .primaryThenAlternate, some a =>
        g = if (s.station primary).state = .tripped ∨ (s.station primary).state = .localControl then a else primary
      | .primaryThenAlternate, none => g = primary
      | .firstFree, _ => (off g ∧ ∀ g', off g' → g ≤ g') ∨ ((∀ g', ¬off g') ∧ g = primary)
    let legal := (∀ g, intAt ps 3 0 = some g → 1 ≤ g ∧ g ≤ s.counts.groups ∧ g.toNat ∈ permitted) ∧
      ∀ f, intAt ps 8 0 = some f → f = 0 ∨ f = 1
    ((∃ p ∈ ps, ¬known p.ident) → ∃ p ∈ ps, exec (.put h ps) s = .next (s.replied 2 h .badField [p]) ∧ ¬known p.ident) ∧
    ((∀ p ∈ ps, known p.ident) → (∀ o, s.order k = some o → o.state = .done) →
      (¬legal → ∃ p ∈ ps, exec (.put h ps) s = .next (s.replied 2 h .badValue [p])) ∧
      (legal → intAt ps 2 0 = none → exec (.put h ps) s = .next (s.replied 2 h .badValue []))) ∧
    ((∀ p ∈ ps, known p.ident) →
    ((∀ o, s.order k = some o → o.state = .done) → intAt ps 2 0 = some v → legal →
      ∀ group : Nat, (intAt ps 3 0 = some (group : Int) ∨ intAt ps 3 0 = none ∧ chosen group) →
      let front := decide (intAt ps 8 0 = some 1)
      let queue := if front then k :: s.queue group else s.queue group ++ [k]
      ∃ t, exec (.put h ps) s = .next t ∧ t.ship.sending.map (·.status) = some .done ∧
        { s with ship := t.ship }.onlyBallast t ∧
        ((s.tank k).current ≤ target → t.field = s.field ∧ t.draws = s.draws ∧ t.ballast = { s.ballast with
          orders := modify1 s.ballast.orders k fun _ => some ⟨target, group, .done, none, some .met, front⟩ }) ∧
        (let u : State := { s with
          ballast := { s.ballast with
            orders := modify1 s.ballast.orders k fun _ => some ⟨target, group, .queued, none, none, front⟩
            queues := modify1 s.ballast.queues group fun _ => queue }
          ship := t.ship }
        target < (s.tank k).current → s.haltSettled →
          (s.ballast.state ≠ .running ∨ (s.station group).state ≠ .off ∨ (s.station group).closing ≠ [] → t = u) ∧
          (s.OrdersOk → u.answered t (· = group))) ∧
        (target < (s.tank k).current → ∃ o, t.order k = some o ∧ o.target = target ∧ o.group = group ∧ o.front = front ∧
          (o.state = .queued ∨ o.state = .active))) ∧
    ∀ o, s.order k = some o → o.state ≠ .done →
      ((∃ p ∈ ps, p.ident ≠ fieldId 2 0) → ∃ p ∈ ps, exec (.put h ps) s = .next (s.replied 2 h .state [p])) ∧
      ((∀ p ∈ ps, p.ident = fieldId 2 0) → intAt ps 2 0 = some v → ∃ t, exec (.put h ps) s = .next t ∧
        t.ship = (s.replied 2 h .done [pairOf 2 0 target]).ship ∧ { s with ship := t.ship }.onlyBallast t ∧
        (o.state = .active ∨ (s.haltSettled ∧ (s.ballast.state ≠ .running ∨ (s.station o.group).state ≠ .off ∨
            (s.station o.group).closing ≠ [])) →
          t = { s with
            ballast := { s.ballast with orders := modify1 s.ballast.orders k fun _ => some { o with target := target } }
            ship := t.ship }) ∧
        (o.state = .queued → s.haltSettled → s.OrdersOk → State.answered { s with
          ballast := { s.ballast with orders := modify1 s.ballast.orders k fun _ => some { o with target := target } }
          ship := t.ship } t (· = o.group)) ∧
        ∃ o', t.order k = some o' ∧ o'.target = target ∧ o'.group = o.group ∧ o'.front = o.front))

/-- Spec 04 R70, spec 01 R4, spec 05 R87, R88: a RETIRE takes a PLANNED or DONE pour off the list, the final tally of a
DONE one folded into its hold's initial mass, and is refused for a pour that runs; it removes a QUEUED or DONE order at
once, and an ACTIVE one with its station told, which no station runs afterwards: from LINEUP its station closes the line, from
PRIMING and CHANGEOVER it stops, and from DISCHARGE and STRIP it takes the next order or stops (spec 06 R104 to R108), the tank's
valve still its own. Spec 01 R2, spec 09 R145: a record of any
other table, which lives with the profile, is refused STATE.
That a RETIRE that changes the mass of the hold is two causes of computation, one for the pour and one for the mass, is DEDUCED
(notes/assumptions/7.md). -/
def Obligations.RetireRemovesPoursAndOrders : Prop :=
  (∀ (s : State) (h : ShipHead) (x : Table), s.shipIdle → s.startUp.phase ≠ .loading → Table.ofCode h.table.toNat = some x →
    x ≠ .pour → x ≠ .order → (x = .trial → s.startUp.purgeRunning = false) → s.recordExists x h.key.toNat = true →
    exec (.retire h) s = .next (s.replied 3 h .state [])) ∧
  (∀ (s : State) (h : ShipHead) (p : Pour), s.shipIdle → s.ready = true → s.PoursOk → s.HoldsOk → s.RecordsOk →
    s.startUp.purgeRunning = false → h.table = 4 → s.pour h.key.toNat = some p →
    (p.state = .active ∨ p.state = .interrupted → exec (.retire h) s = .next (s.replied 3 h .state [])) ∧
    (p.state = .planned ∨ p.state = .done → ∃ t, exec (.retire h) s = .next t ∧
      t.ship = (s.replied 3 h .done []).ship ∧ t.pours.list = s.pours.list.filter (fun q => decide (q ≠ p)) ∧
      t.HoldsOk ∧ (let differs := (t.hold p.hold).current ≠ (s.hold p.hold).current
        t.pours.computationsOwed = s.pours.computationsOwed + 1 + (decide differs).toNat ∧
          t.engine.dirty = (s.engine.dirty || decide differs)) ∧
      (p.state = .planned → t.holds = s.holds ∧ t.engine = s.engine) ∧
      (p.state = .done → ∀ k, s.hasHold k = true →
        (k = p.hold → (t.hold k).initial = min 400000 ((s.hold k).initial + p.tallied) ∧
          ((s.hold k).initial + p.tallied ≤ 400000 → (t.hold k).current = (s.hold k).current)) ∧
        (k ≠ p.hold → t.hold k = s.hold k)) ∧
      (∀ l, { t.channel l with gone := (s.channel l).gone } = s.channel l) ∧
      t = { s with
        holds := t.holds, engine := { s.engine with dirty := t.engine.dirty }, channels := t.channels
        pours := { s.pours with list := t.pours.list, computationsOwed := t.pours.computationsOwed }, ship := t.ship })) ∧
  ∀ (s : State) (h : ShipHead) (o : Order), s.shipIdle → s.ready = true → s.RecordsOk → s.StationsOk →
    s.startUp.purgeRunning = false → h.table = 5 → s.hasTank h.key.toNat = true → s.order h.key.toNat = some o →
    let k := h.key.toNat
    (o.state ≠ .active → exec (.retire h) s = .next { s with
      ballast := { s.ballast with
        orders := modify1 s.ballast.orders k fun _ => none
        queues := modify1 s.ballast.queues o.group fun q => q.filter (· ≠ k) }
      ship := (s.replied 3 h .done []).ship }) ∧
    (o.state = .active → ∃ t, exec (.retire h) s = .next t ∧ t.ship = (s.replied 3 h .accepted []).ship ∧
      { s with ship := t.ship }.onlyBallast t ∧ t.order k = none ∧
      (∀ g, s.hasGroup g = true → (t.station g).active ≠ some k) ∧
      let g := o.group
      let st := s.station g
      let gone : Station := { st with active := none, closing := st.closing ++ [k], lowSince := none, resuming := false }
      s.OrdersOk → s.hasGroup g = true →
        (st.state = .lineup → t.station g = { gone with state := .stopping .closing, deadline := none } ∧
          ∀ v ∈ [ValveId.suction g, .overboard g, .tank k], (t.valve v).commanded = .shut) ∧
        (st.state = .priming ∨ st.state = .changeover → t.station g = { gone with
            state := .stopping .rundown, pumpCommanded := .stop, deadline := some (s.clock + BitVec.ofNat 32 st.rundown) } ∧
          ∀ v, s.hasValve v = true → t.valve v = s.valve v) ∧
        (st.state = .discharge ∨ st.state = .strip → State.handsOver { s with
          ballast := { s.ballast with orders := modify1 s.ballast.orders k fun _ => none } } t g k))

/-- Spec 09 R148, R152, spec 02 R38: a CLEAR makes the named flags of one record CLEAR, whether SET or CLEAR, and changes no other
flag, no other field and no other record; the STRENGTH flag is one for every key of RESULT. An empty list is BAD VALUE, and a kind
that the record does not carry BAD FIELD. -/
def Obligations.ClearClearsTheNamedFlagsAlone : Prop :=
  ∀ (s : State) (h : ShipHead) (codes : List Octet) (x : Table), s.shipIdle → s.startUp.phase ≠ .loading →
    (s.startUp.purgeRunning = true → x ≠ .pour ∧ x ≠ .order ∧ x ≠ .trial) → Table.ofCode h.table.toNat = some x →
    s.recordExists x h.key.toNat = true →
    let key := h.key.toNat
    let after (flag : Bool) (code : Nat) : Bool := flag && !codes.any fun c => decide (c.toNat = code)
    let channel (k : Nat) (c : Channel) : Channel := if key = k then
      { c with
        stateFlag := after c.stateFlag 6, overrunFlag := after c.overrunFlag 7, tallyFaultFlag := after c.tallyFaultFlag 8 } else c
    let cleared : State := match x with
      | .tank => { s with tanks := modify1 s.tanks key fun x => { x with
          staleFlag := after x.staleFlag 0, overrangeFlag := after x.overrangeFlag 1 } }
      | .station => { s with ballast := { s.ballast with stations := modify1 s.ballast.stations key fun x => { x with
          tripFlag := after x.tripFlag 2, localFlag := after x.localFlag 3, doneFlag := after x.doneFlag 4
          holdFlag := after x.holdFlag 5 } } }
      | .channel => { s with channels := ⟨channel 1 s.channels.l1, channel 2 s.channels.l2⟩ }
      | .result => { s with engine := { s.engine with strengthFlag := after s.engine.strengthFlag 9 } }
      | .berth => { s with berth := { s.berth with flag := after s.berth.flag 10 } }
      | .profile => { s with startUp := { s.startUp with
          purgeDoneFlag := after s.startUp.purgeDoneFlag 11, profileFlag := after s.startUp.profileFlag 13 } }
      | .trial => { s with engine := { s.engine with trialDone := after s.engine.trialDone 12 } }
      | _ => s
    (codes = [] → exec (.clear h codes) s = .next (s.replied 4 h .badValue [])) ∧
    (codes ≠ [] → (∃ c ∈ codes, ∀ k ∈ x.flags, k.code ≠ c.toNat) → exec (.clear h codes) s = .next (s.replied 4 h .badField [])) ∧
    (codes ≠ [] → (∀ c ∈ codes, ∃ k ∈ x.flags, k.code = c.toNat) →
      exec (.clear h codes) s = .next { cleared with ship := (s.replied 4 h .done []).ship } ∧
      cleared.flagRecords = s.flagRecords.map fun e => if e.table = x ∧ (e.key = key ∨ x = .result) then
        { e with kinds := e.kinds.filter fun k => !codes.any fun c => decide (k.code = c.toNat) } else e)

/-! ### Actions -/

/-- Spec 06 R91, R92: RUN makes the sequencer RUNNING and moves no station but an OFF one, and each OFF station looks (R103); HALT
returns every order that runs with HALT to the head of its group's queue, its tank a closing tank, and its station goes to STOPPING,
from LINEUP in CLOSING with its three valves commanded SHUT, and otherwise in RUNDOWN with its pump stopped and its valves as they
were (R104 to R109); HALT is DONE at once where every station rests. In PROFILE FAULT RUN is refused STATE and HALT answered DONE
(spec 11 R165). In which order the stations are reached is left open here, and free in the model (notes/assumptions/1.md).
That a key other than 0 is BAD VALUE ahead of every check of state is DEDUCED from spec 09 R149 (notes/assumptions/10.md). -/
def Obligations.RunAndHaltMoveTheSequencer : Prop :=
  ∀ (s : State) (h : ShipHead), s.shipIdle → s.startUp.phase ≠ .loading →
    (h.key ≠ 0 → exec (.run h) s = .next (s.replied 16 h .badValue []) ∧
      exec (.halt h) s = .next (s.replied 17 h .badValue [])) ∧
    (h.key = 0 → (s.ready = false → exec (.run h) s = .next (s.replied 16 h .state [])) ∧
      (s.ready = true → s.ballast.state = .running → exec (.run h) s = .next (s.replied 16 h .done [])) ∧
      (s.ready = true → s.ballast.state ≠ .running → s.RecordsOk → ∃ t, exec (.run h) s = .next t ∧
        t.ship = (s.replied 16 h .done []).ship ∧ { s with ship := t.ship }.onlyBallast t ∧ t.ballast.state = .running ∧
        (s.OrdersOk → State.answered { s with
          ballast := { s.ballast with state := .running }
          ship := t.ship } t fun _ => True) ∧
        ∀ g, s.hasGroup g = true →
          ((s.station g).state ≠ .off ∨ (s.station g).closing ≠ [] → t.station g = s.station g) ∧
          ((s.station g).state = .off → (t.station g).state = .off ∨ (t.station g).state = .lineup)) ∧
      (s.ready = false ∨ s.ballast.state ≠ .running → exec (.halt h) s = .next (s.replied 17 h .done [])) ∧
      (s.ready = true → s.ballast.state = .running → s.RecordsOk → s.StationsOk → ∃ t, exec (.halt h) s = .next t ∧
        { s with ship := t.ship }.onlyBallast t ∧
        ((t.ballast.state = .halted ∧ t.ship = (s.replied 17 h .done []).ship ∧
            ∀ g, s.hasGroup g = true → (t.station g).state.working = false) ∨
          (t.ballast.state = .halting ∧ t.ship = (s.replied 17 h .accepted []).ship ∧
            ∃ g, s.hasGroup g = true ∧ (t.station g).state.working = true)) ∧
        (s.OrdersOk → ∃ gs : List Nat, gs.Perm (s.groupNumbers.filter fun g => (s.station g).state.runs) ∧
          t = { (gs.foldl State.afterHalt { s with ballast := { s.ballast with state := .halting } }).afterRest with
            ship := t.ship, draws := t.draws }) ∧
        ∀ g, s.hasGroup g = true → (t.station g).active = none ∧ (t.station g).state.runs = false ∧
          ((s.station g).state.runs = false → (t.station g).state = (s.station g).state) ∧
          ∀ k o, s.hasTank k = true → (s.station g).active = some k → s.order k = some o →
            t.order k = some { o with state := .queued, holdCause := some .halt }))

/-- Spec 06 R111, spec 09 R149: a REARM takes a TRIPPED station whose pump is reported STOPPED, and no valve of whose line is
in FAULT, to OFF; any other it refuses. A group above the count is NO RECORD, and group 0 is BAD VALUE, which is DEDUCED
(notes/assumptions/10.md). The station then looks for an order (R103), and nothing else changes. -/
def Obligations.RearmTakesAStoppedStationOff : Prop :=
  ∀ (s : State) (h : ShipHead), s.shipIdle → s.startUp.phase ≠ .loading →
    let g := h.key.toNat
    let st := s.station g
    let sound := st.state = .tripped ∧ st.pumpReported = .stopped ∧ (s.valve (.suction g)).reported ≠ .fault ∧
      (s.valve (.overboard g)).reported ≠ .fault ∧ ∀ k ∈ st.closing, (s.valve (.tank k)).reported ≠ .fault
    (s.ready = true → g = 0 → exec (.rearm h) s = .next (s.replied 18 h .badValue [])) ∧
    (s.ready = false ∨ s.counts.groups < g → exec (.rearm h) s = .next (s.replied 18 h .noRecord [])) ∧
    (s.hasGroup g = true → ¬sound → exec (.rearm h) s = .next (s.replied 18 h .state [])) ∧
    (s.hasGroup g = true → sound → s.RecordsOk → ∃ t, exec (.rearm h) s = .next t ∧
      t.ship = (s.replied 18 h .done []).ship ∧ { s with ship := t.ship }.onlyBallast t ∧
      ((t.station g).state = .off ∨ (t.station g).state = .lineup) ∧ (t.station g).lastTrip = st.lastTrip ∧
      (t.station g).tripFlag = st.tripFlag ∧
      (s.ballast.state = .halted → t.field = s.field ∧ t.draws = s.draws ∧ t.ballast = { s.ballast with
        stations := modify1 s.ballast.stations g fun st => { st with state := .off } }) ∧
      (s.OrdersOk → State.answered (State.afterRest { s with
        ballast := { s.ballast with stations := modify1 s.ballast.stations g fun st => { st with state := .off } }
        ship := t.ship }) t (· = g)))

/-- Spec 07 R125, R126, R119, R121: RELEASE releases the channels named and derives anew those that were not released; FORCE
stores the level on the channels named, whose outputs follow at once. Either leaves a channel not named as it stands.
That a RELEASE derives within its own command while a FORCE leaves its derivation owed is the model's choice
(notes/assumptions/7.md), and so is that a RELEASE of a released channel neither derives nor owes (notes/assumptions/24.md). -/
def Obligations.ReleaseAndForceActOnTheChannelsNamed : Prop :=
  ∀ (s : State) (h : ShipHead), s.shipIdle → s.startUp.phase ≠ .loading →
    (channelsOfKey h.key.toNat = none → exec (.release h) s = .next (s.replied 19 h .badValue []) ∧
      ∀ ps, exec (.force h ps) s = .next (s.replied 20 h .badValue [])) ∧
    ∀ ls, channelsOfKey h.key.toNat = some ls →
      let framed (t : State) : Prop := t = { s with
        channels := t.channels, terminal := { s.terminal with due := t.terminal.due }, draws := t.draws, ship := t.ship }
      let follows (t : State) (l : Loader) : Prop :=
        (t.channel l).outputFollows ∧
          ((t.channel l).output ≠ (s.channel l).output → (t.channel l).stateFlag = true ∧ .clearance l ∈ t.terminal.due ∧
            ((t.channel l).output = .forbid → (t.channel l).lastForbid = (t.channel l).outputCause))
      (∃ t, exec (.release h) s = .next t ∧ t.ship = (s.replied 19 h .done []).ship ∧ framed t ∧ ∀ l,
        (l ∉ ls ∨ (s.channel l).released = true → t.channel l = s.channel l) ∧
        (l ∈ ls → (s.channel l).released = false → follows t l ∧ (t.channel l).released = true ∧
          t.followsTests l ∧ (t.channel l).forced = (s.channel l).forced)) ∧
      (∀ (f : ForcedLevel) (v : BitVec 32), v.toNat = (match f with | .none => 0 | .reduce => 1 | .complete => 2 | .forbid => 3) →
        ∃ t, exec (.force h [⟨1, v⟩]) s = .next t ∧ t.ship = (s.replied 20 h .done []).ship ∧ framed t ∧ ∀ l,
          (l ∉ ls → t.channel l = s.channel l) ∧
          (l ∈ ls → follows t l ∧ (t.channel l).forced = f ∧ (t.channel l).released = (s.channel l).released ∧
            (t.channel l).computed = (s.channel l).computed ∧ (t.channel l).cause = (s.channel l).cause ∧
            (t.channel l).derivationsOwed = (s.channel l).derivationsOwed + 1)) ∧
      ∀ ps, (∀ v, ps = [⟨1, v⟩] → 4 ≤ v.toNat) → exec (.force h ps) s = .next (s.replied 20 h .badValue [])

/-- Spec 11 R168 to R170: RESTART and PURGE need the part READY with the sequencer HALTED and no PURGE running, and PURGE no
pour that runs; each PURGE_STEP takes the pour of lowest sequence off the list, its hold standing by its initial mass and the list
that is left (spec 01 R4, spec 04 R70, R71) and every other hold as it stood, and the last one ends the PURGE; RELOAD enters LOADING
for the image named, with the PROFILE and PURGE DONE flags CLEAR, the finding absent, LOCK, RETAIN and the marker as they stood, a
pass in flight abandoned, the trial closed, the channels at the cold values of spec 07 Table 7.5 and every other record gone. A RESTART leaves the stations and valves of spec 06 R117, Table 6.7, each valve's report UNKNOWN, and the
commands of spec 12 R175; it makes the last-sent values absent and keeps the reply FIFO, the due order and the noted pours (spec 08
R142), drops the half-received frames of the three links, and begins the silence watch anew (spec 12 R173). A key other than 0 is
BAD VALUE for RESTART and PURGE (spec 09 R149), ahead of every check of state, which is DEDUCED (notes/assumptions/10.md).
A PURGE_STEP that finds the list empty ends the PURGE, which is the model's choice (notes/assumptions/18.md). How many
computations are owed, one for each pour interrupted, each estimate and each mass changed, is DEDUCED (notes/assumptions/7.md). That
a RESTART derives the channels within its own command (notes/assumptions/7.md), and that this writes the STATE flag and last forbid
cause as any derivation does (notes/assumptions/27.md), is the model's choice. That a RELOAD makes the image check value absent is the
model's choice (notes/assumptions/28.md); that it clears the terminal port and empties the records at once is DEDUCED
(notes/assumptions/14.md, 16.md). -/
def Obligations.RestartPurgeAndReloadNeedThePartAtRest : Prop :=
  ∀ (s : State) (h : ShipHead),
    let rest := s.ready = true ∧ s.ballast.state = .halted ∧ s.startUp.purgeRunning = false
    let runs := ∃ p ∈ s.pours.list, p.state = .active ∨ p.state = .interrupted
    (s.shipIdle → s.startUp.phase ≠ .loading → h.key ≠ 0 → exec (.restart h) s = .next (s.replied 22 h .badValue []) ∧
      (s.startUp.purgeRunning = false → exec (.purge h) s = .next (s.replied 23 h .badValue []))) ∧
    (s.shipIdle → s.startUp.phase ≠ .loading → h.key = 0 →
      (¬rest → exec (.restart h) s = .next (s.replied 22 h .state [])) ∧
      (rest → ∃ t, exec (.restart h) s = .next t ∧
        t = { s with
          holds := s.holds.map fun x => { x with active := none }
          pours := t.pours, engine := { s.engine with dirty := true, trial := none }, channels := t.channels
          terminal := { s.terminal with
            lastClearance := ⟨none, none⟩, lastFore := none, lastAft := none, receiving := none, due := t.terminal.due }
          field := { s.field with outbound := t.field.outbound, live := true, lastFrame := s.clock, receiving := none }
          ballast := { s.ballast with
            stations := t.ballast.stations, tankValves := t.ballast.tankValves, suctionValves := t.ballast.suctionValves
            overboardValves := t.ballast.overboardValves }
          ship := { (s.replied 22 h .done []).ship with busyOwed := none }, draws := t.draws } ∧
        t.pours.list = s.pours.list.map (fun p => if p.state = .active then { p with state := .interrupted } else p) ∧
        (∀ l, t.pours.estimators.get l = ⟨none, 0⟩) ∧
        t.pours.computationsOwed = s.pours.computationsOwed + (s.pours.list.filter fun p => decide (p.state = .active)).length +
          (decide ((s.pours.estimators.get .l1).estimate ≠ 0)).toNat + (decide ((s.pours.estimators.get .l2).estimate ≠ 0)).toNat ∧
        -- the stations, the valves and the commands
        t.ballast.stations = s.ballast.stations.map (fun st => { st with
          state := if st.switch = .localControl then .localControl else .off
          pumpCommanded := if st.switch = .localControl then st.pumpCommanded else .stop
          active := none, closing := [], deadline := none, lowSince := none, lastTrip := none, estimator := ⟨none, 0⟩
          resuming := false }) ∧
        (s.RecordsOk → ∀ v, s.hasValve v = true →
          let sent (timeout : Nat) : Valve := ⟨.shut, .unknown, false, some (s.clock + BitVec.ofNat 32 timeout), none⟩
          let unsent : Valve := { s.valve v with reported := .unknown, confirmed := false, deadline := none, owner := none }
          t.valve v = match v with
            | .tank _ => sent s.hull.tankValveTimeout
            | .suction g | .overboard g => if (s.station g).switch = .localControl then unsent else sent s.hull.lineValveTimeout) ∧
        (let groups := s.groupNumbers.filter fun g => decide ((s.station g).switch = .remote)
         t.field.outbound = groups.map (.pump · .stop) ++ s.tankNumbers.map (fun n => .valve (.tank n) .shut) ++
           groups.map (fun g => .valve (.suction g) .shut) ++ groups.map fun g => .valve (.overboard g) .shut) ∧
        -- the channels
        (∀ l, (t.channel l).released = false ∧ (t.channel l).computed = .forbid ∧ (t.channel l).cause = some .unreleased ∧
          (t.channel l).outputFollows ∧ t.permit l = false ∧ (t.channel l).currentPour = (s.channel l).named ∧
          (t.channel l).stateFlag = ((s.channel l).stateFlag || decide ((t.channel l).output ≠ (s.channel l).output)) ∧
          ((t.channel l).lastForbid = if (t.channel l).output ≠ (s.channel l).output ∧ (t.channel l).output = .forbid then
            (t.channel l).outputCause else (s.channel l).lastForbid) ∧
          ∃ gone, t.channel l = { s.channel l with
            currentPour := (s.channel l).named, computed := .forbid, cause := some .unreleased, released := false
            deadline := none, timedOut := false, output := (t.channel l).output, outputCause := (t.channel l).outputCause
            stateFlag := (t.channel l).stateFlag, lastForbid := (t.channel l).lastForbid, gone := gone }) ∧
        ∃ gained, t.terminal.due = s.terminal.due ++ gained ∧ gained.Nodup ∧ ∀ x, x ∈ gained ↔
          x ∉ s.terminal.due ∧ ∃ l, x = .clearance l ∧ (t.channel l).output ≠ (s.channel l).output)) ∧
    (s.shipIdle → s.startUp.phase ≠ .loading → s.startUp.purgeRunning = false → h.key = 0 →
      (¬rest ∨ runs → exec (.purge h) s = .next (s.replied 23 h .state [])) ∧
      (rest → ¬runs → exec (.purge h) s = .next { s with
        startUp := { s.startUp with purgeRunning := true }, engine := { s.engine with trial := none }
        ballast := { s.ballast with orders := s.ballast.orders.map fun _ => none, queues := s.ballast.queues.map fun _ => [] }
        ship := (s.replied 23 h .accepted []).ship })) ∧
    (s.ready = true → s.pfail = false → s.startUp.purgeRunning = true → s.PoursOk →
      (s.pours.list = [] → exec .purgeStep s = .next { s with
        startUp := { s.startUp with purgeRunning := false, purgeDoneFlag := true } }) ∧
      ∀ p rest, s.pours.list = p :: rest → ∃ t, exec .purgeStep s = .next t ∧
        let differs := decide ((t.hold p.hold).current ≠ (s.hold p.hold).current)
        (s.hasHold p.hold = true → s.RecordsOk → (t.hold p.hold).initial =
          if p.state = .planned then (s.hold p.hold).initial else min 400000 ((s.hold p.hold).initial + p.tallied)) ∧
        (∀ l, { t.channel l with gone := (s.channel l).gone } = s.channel l) ∧
        t = { s with
          startUp := { s.startUp with
            purgeRunning := !rest.isEmpty, purgeDoneFlag := s.startUp.purgeDoneFlag || rest.isEmpty }
          holds := modify1 s.holds p.hold fun x => Hold.standing { x with
            initial := if p.state = .planned then x.initial else min 400000 (x.initial + p.tallied) } rest p.hold
          engine := { s.engine with dirty := s.engine.dirty || differs }
          pours := { s.pours with list := rest, computationsOwed := s.pours.computationsOwed + 1 + differs.toNat }
          channels := t.channels }) ∧
    (s.shipIdle → s.startUp.phase ≠ .loading →
      (15 < h.key.toNat → exec (.reload h) s = .next (s.replied 24 h .badValue [])) ∧
      (h.key.toNat ≤ 15 → ¬(s.startUp.phase = .profileFault ∨ (rest ∧ ¬runs)) →
        exec (.reload h) s = .next (s.replied 24 h .state [])) ∧
      (h.key.toNat ≤ 15 → s.startUp.phase = .profileFault ∨ (rest ∧ ¬runs) → ∃ t, exec (.reload h) s = .next t ∧
        t.ship.sending = some ⟨24, h, .accepted, []⟩ ∧ (∀ l, t.permit l = false ∧ t.slow l = false) ∧
        t.startUp.index.toNat = h.key.toNat ∧
        t = { s with
          startUp := { s.startUp with
            phase := .loading, index := t.startUp.index, profileFlag := false, purgeDoneFlag := false, purgeRunning := false
            finding := none, outcome := none, imageCheck := none, profile := ⟨default, default⟩, readStart := s.clock
            reloading := true }
          engine := { state := .idle, dirty := false, live := none, strengthFlag := false, trial := none, trialDone := false }
          holds := [], tanks := [], items := [], pours := ⟨[], ⟨⟨none, 0⟩, ⟨none, 0⟩⟩, 0⟩
          ballast := ⟨.halted, [], [], [], [], [], [], []⟩
          channels :=
            let cold : Channel :=
              { currentPour := none, named := none, computed := .forbid, cause := some .unreleased, forced := .none
                output := .forbid, outputCause := some (.derived .unreleased), lastForbid := none, released := false
                deadline := none, timedOut := false, action := .forbid, stateFlag := false, overrunFlag := false
                tallyFaultFlag := false, derivationsOwed := 0, gone := [] }
            ⟨cold, cold⟩
          terminal :=
            { fifo := [], sending := none, due := [], lastClearance := ⟨none, none⟩, lastFore := none, lastAft := none
              noted := ⟨none, none⟩, receiving := none }
          field := { s.field with outbound := [], sending := none }
          ship := { (s.replied 24 h .accepted []).ship with busyOwed := none } }))

/-- Spec 10 R157 to R159, R162: TRIAL OPEN copies the masses and inputs that stand, TRIAL PUT stores whole, TRIAL EVALUATE
makes a pass pending, TRIAL CLOSE closes; each is STATE where the trial does not stand so, and in PROFILE FAULT (spec 11 R165). A
TRIAL PUT of a field not in Table 10.1 or of a mass beyond the compartments is BAD FIELD; one of another limit set, of a hold that
is none of the profile's, or of the same hold twice is BAD VALUE; a key other than 0 is BAD VALUE for each (spec 09 R149).
That the key is judged ahead of every check of state, and which pair a refusal names, is DEDUCED (notes/assumptions/10.md,
11.md). -/
def Obligations.TrialRequestsSetUpTheTrial : Prop :=
  (∀ (s : State) (h : ShipHead) (ps : List Pair), s.shipIdle → s.startUp.phase ≠ .loading → s.startUp.purgeRunning = false →
    ∀ (i : Instr) (n : Nat), (i, n) ∈ [(Instr.trialOpen h, 25), (.trialPut h ps, 26), (.trialEvaluate h, 27), (.trialClose h, 28)] →
      (h.key ≠ 0 → exec i s = .next (s.replied n h .badValue [])) ∧
      (h.key = 0 → s.ready = false → exec i s = .next (s.replied n h .state []))) ∧
  ∀ (s : State) (h : ShipHead), s.shipIdle → s.ready = true → s.startUp.purgeRunning = false → h.key = 0 →
    let with' (k : Nat) (st : ReplyStatus) (ps : List Pair) (t : Option Trial) : State :=
      { s with engine := { s.engine with trial := t }, ship := (s.replied k h st ps).ship }
    (s.engine.trial.isSome = true → exec (.trialOpen h) s = .next (s.replied 25 h .state [])) ∧
    (s.engine.trial = none →
      exec (.trialOpen h) s = .next (with' 25 .done [] (some
        ⟨s.holds.map (·.current) ++ s.tanks.map (·.current) ++ s.items, s.settings.limitSet, s.settings.caution,
          s.berth.maxDraft, none, none, false, false, 0, none, []⟩)) ∧
      (∀ ps, exec (.trialPut h ps) s = .next (s.replied 26 h .state [])) ∧
      exec (.trialEvaluate h) s = .next (s.replied 27 h .state []) ∧ exec (.trialClose h) s = .next (s.replied 28 h .done [])) ∧
    ∀ x, s.engine.trial = some x →
      exec (.trialEvaluate h) s = .next (with' 27 .accepted [] (some { x with pending := true })) ∧
      exec (.trialClose h) s = .next (with' 28 .done [] none) ∧
      (∀ ps, (ps = [] ∨ 16 < ps.length) → exec (.trialPut h ps) s = .next (s.replied 26 h .badValue [])) ∧
      ∀ ps, countLegal ps = true →
        let known (i : BitVec 16) : Prop := i ∈ [fieldId 3 0, fieldId 4 0, fieldId 5 0, fieldId 6 0, fieldId 6 2] ∨
          ∃ n < s.counts.holds + s.counts.tanks + s.counts.items, i = fieldId 2 (2 * n)
        let element (i : Nat) (old : Option Nat) : Option Nat :=
          (intAt ps 6 i).elim old fun v => if v = -1 then none else some v.toNat
        let legal := (∀ v, intAt ps 3 0 = some v → v = 0 ∨ v = 1) ∧
          (∀ i ∈ [0, 2], ∀ v, intAt ps 6 i = some v → v = -1 ∨ 1 ≤ v ∧ v ≤ s.counts.holds) ∧
          (intAt ps 6 0 = none ∧ intAt ps 6 2 = none ∨ element 0 x.hold1 = none ∨ element 0 x.hold1 ≠ element 2 x.hold2)
        ((∃ p ∈ ps, ¬known p.ident) →
          ∃ p ∈ ps, exec (.trialPut h ps) s = .next (s.replied 26 h .badField [p]) ∧ ¬known p.ident) ∧
        ((∀ p ∈ ps, known p.ident) → ¬legal → ∃ p ∈ ps, exec (.trialPut h ps) s = .next (s.replied 26 h .badValue [p])) ∧
        ((∀ p ∈ ps, known p.ident) → legal → ∃ (t : State) (y : Trial), exec (.trialPut h ps) s = .next t ∧ t.engine.trial = some y ∧
          t.ship.sending.map (·.status) = some .done ∧
          t = { s with engine := { s.engine with trial := some y }, ship := t.ship } ∧
          y.masses.length = x.masses.length ∧
          (∀ i m m', x.masses[i]? = some m → y.masses[i]? = some m' →
            m' = (intAt ps 2 (2 * i)).elim m fun v => (max 0 (min (s.massLimit i : Int) v)).toNat) ∧
          y.limitSet = (intAt ps 3 0).elim x.limitSet (fun v => if v = 0 then .harbour else .sea) ∧
          y.caution = (intAt ps 4 0).elim x.caution (fun v => if 500 ≤ v ∧ v ≤ 999 then v.toNat else 950) ∧
          y.maxDraft = (intAt ps 5 0).elim x.maxDraft (fun v => (max 5000 (min 30000 v)).toNat) ∧
          y.hold1 = element 0 x.hold1 ∧ y.hold2 = element 2 x.hold2 ∧ y.pending = x.pending ∧ y.inFlight = x.inFlight ∧
          y.generation = x.generation ∧ y.result = x.result ∧ y.rooms = x.rooms)

/-! ### Pours -/

/-- Spec 04 R63, R64, Table 4.5: POUR START is refused for the first check that fails, in their order, with nothing changed
but the reply; where none fails the pour is ACTIVE and bound, with its declared rate, its loader's estimator closed and
tally timer started; its hold stands by its initial mass and the list, a changed mass marking the live pass dirty (spec 01 R4,
spec 02 R23, spec 04 R71), and every other hold as it stood. A reply that finds four waiting is lost.
That it owes one computation, and one more for a changed estimate and for a changed mass of the hold, is DEDUCED, and that the
derivation of the started timer is left owed is the model's choice (notes/assumptions/7.md). -/
def Obligations.PourStartIsCheckedInOrder : Prop :=
  ∀ (s : State) (l : Loader) (n : BitVec 16) (rate : BitVec 32), s.linkUp = true → s.ready = true → s.PoursOk →
    let k := n.toNat
    let is (f : Pour → Bool) : Bool := (s.pour k).any f
    let checks : List (Reason × Bool) :=
      [(.busy, s.startUp.purgeRunning), (.noPour, (s.pour k).isNone),
       (.loaderBusy, s.pours.list.any fun q => decide (q.state = .active ∧ q.loader = .one l)),
       (.notNext, is fun p => decide (¬((p.state = .planned ∨ p.state = .interrupted) ∧
         (p.loader = .one l ∨ p.loader = .either) ∧ s.currentPour l = some p))),
       (.holdBusy, is fun p => s.pours.list.any fun q => decide (q.state = .active ∧ q.hold = p.hold ∧ q.sequence ≠ k)),
       (.gated, is fun p => !s.gatesSatisfied p), (.unreleased, !(s.channel l).released),
       (.noClearance, is fun p => decide (p.clearance = 0))]
    let port (reason : Option Reason) : TerminalPort := { s.terminal with
      receiving := none
      fifo := if s.terminal.fifo.length < 4 then s.terminal.fifo ++ [⟨.pourStart, some l, some n, reason⟩] else s.terminal.fifo }
    (∀ c, checks.find? (·.2) = some c → exec (.pourStart l n rate) s = .next { s with terminal := port (some c.1) }) ∧
    (checks.find? (·.2) = none → ∃ (t : State) (p : Pour), s.pour k = some p ∧ exec (.pourStart l n rate) s = .next t ∧
      let differs := decide ((t.hold p.hold).current ≠ (s.hold p.hold).current)
      t.pours = ⟨s.pours.list.map fun q => if q.sequence = k then
          { q with state := .active, loader := .one l, declaredRate := (max 0 (min 20000 rate.toInt)).toNat } else q,
        s.pours.estimators.put l ⟨none, 0⟩,
        s.pours.computationsOwed + 1 + (decide ((s.pours.estimators.get l).estimate ≠ 0)).toNat +
          differs.toNat⟩ ∧
      (s.RecordsOk → s.hasHold p.hold = true → (t.hold p.hold).active = some k) ∧ (s.HoldsOk → t.HoldsOk) ∧
      t.terminal = port none ∧
      t = { s with
        pours := t.pours, holds := modify1 s.holds p.hold (·.standing t.pours.list p.hold)
        engine := { s.engine with dirty := s.engine.dirty || differs }, terminal := t.terminal
        channels := s.channels.put l { s.channel l with
          deadline := some (s.clock + BitVec.ofNat 32 s.settings.tallyTimeout), timedOut := false, derivationsOwed := (s.channel l).derivationsOwed + 1 } })

/-- Spec 04 R65 to R69, R71, spec 03 R49 to R51, spec 07 R124: a tally at or above the tallied mass is taken without reply, feeds
the estimator and restarts the tally timer; a lower one SETs TALLY FAULT and is refused REGRESSION. POUR END makes the pour
DONE at its final tally, stops the timer and makes the POUR SUMMARY due. Without an ACTIVE pour both are refused NO POUR. END POUR
makes an INTERRUPTED pour DONE at its tallied mass and resets the estimator of its loader; a sequence not in the list is NO
RECORD, as every sequence is in PROFILE FAULT (spec 11 R165), and a pour in any other state STATE. Each has the hold of its pour stand by its initial mass and the list, a changed mass
marking the live pass dirty (spec 01 R4, spec 02 R23), and leaves every other hold as it stood.
That each owes one computation, and one more for a changed estimate and for a changed mass of the hold, is DEDUCED, and that the
derivation of the restarted or stopped tally timer is left owed is the model's choice (notes/assumptions/7.md). -/
def Obligations.TallyAndPourEndActOnTheActivePour : Prop :=
  (∀ (s : State) (h : ShipHead), s.shipIdle → s.startUp.phase = .profileFault → s.startUp.purgeRunning = false →
    exec (.endPour h) s = .next (s.replied 21 h .noRecord [])) ∧
  (∀ (s : State) (h : ShipHead), s.shipIdle → s.ready = true → s.startUp.purgeRunning = false → s.PoursOk →
    (s.pour h.key.toNat = none → exec (.endPour h) s = .next (s.replied 21 h .noRecord [])) ∧
    ∀ p, s.pour h.key.toNat = some p →
      (p.state ≠ .interrupted → exec (.endPour h) s = .next (s.replied 21 h .state [])) ∧
      (p.state = .interrupted → ∃ t, exec (.endPour h) s = .next t ∧ t.ship = (s.replied 21 h .done []).ship ∧
        let differs := decide ((t.hold p.hold).current ≠ (s.hold p.hold).current)
        t.pours.list = s.pours.list.map (fun q => if q = p then { q with state := .done } else q) ∧
        (s.HoldsOk → t.HoldsOk ∧ t.holds = s.holds ∧ t.engine = s.engine) ∧
        t.pours.computationsOwed = s.pours.computationsOwed + 1 +
          (decide (p.loader = .one .l1 ∧ (s.pours.estimators.get .l1).estimate ≠ 0 ∨
            p.loader = .one .l2 ∧ (s.pours.estimators.get .l2).estimate ≠ 0)).toNat + differs.toNat ∧
        (∀ l, t.pours.estimators.get l = if p.loader = .one l then ⟨none, 0⟩ else s.pours.estimators.get l) ∧
        t = { s with
          pours := t.pours, holds := modify1 s.holds p.hold (·.standing t.pours.list p.hold)
          engine := { s.engine with dirty := s.engine.dirty || differs }, ship := t.ship })) ∧
  ∀ (s : State) (l : Loader) (v : BitVec 32), s.linkUp = true → s.ready = true → s.PoursOk →
    let amount := (min 999999 v.toInt)
    let port (r : List NoticeReply) : TerminalPort := { s.terminal with
      receiving := none, fifo := if s.terminal.fifo.length < 4 then s.terminal.fifo ++ r else s.terminal.fifo }
    (s.activePour l = none →
      exec (.tally l v) s = .next { s with terminal := port [⟨.tally, some l, none, some .noPour⟩] } ∧
      exec (.pourEnd l v) s = .next { s with terminal := port [⟨.pourEnd, some l, none, some .noPour⟩] }) ∧
    ∀ p, s.activePour l = some p →
      let overran := decide (p.planned + s.settings.overrun < amount.toNat ∧ p.overrunReported = false)
      let taken := { p with tallied := amount.toNat, overrunReported := p.overrunReported || overran }
      (amount < p.tallied → exec (.tally l v) s = .next { s with
        channels := s.channels.put l { s.channel l with tallyFaultFlag := true }
        terminal := port [⟨.tally, some l, none, some .regression⟩] }) ∧
      let differs (t : State) : Bool := decide ((t.hold p.hold).current ≠ (s.hold p.hold).current)
      let framed (t : State) : State := { s with
        pours := t.pours, holds := modify1 s.holds p.hold (·.standing t.pours.list p.hold)
        engine := { s.engine with dirty := s.engine.dirty || differs t }, terminal := t.terminal, channels := t.channels }
      ((p.tallied : Int) ≤ amount → ∃ t, exec (.tally l v) s = .next t ∧ t = framed t ∧
        t.pours = ⟨s.pours.list.map fun q => if q = p then taken else q,
          s.pours.estimators.put l ((s.pours.estimators.get l).arrive false s.settings.rateWindow s.clock amount.toNat),
          s.pours.computationsOwed + 1 + (decide ((t.pours.estimators.get l).estimate ≠ (s.pours.estimators.get l).estimate)).toNat +
            (differs t).toNat⟩ ∧
        (s.HoldsOk → t.HoldsOk) ∧ t.terminal = port [] ∧
        t.channels = s.channels.put l { s.channel l with
          deadline := some (s.clock + BitVec.ofNat 32 s.settings.tallyTimeout), timedOut := false
          derivationsOwed := (s.channel l).derivationsOwed + 1, overrunFlag := (s.channel l).overrunFlag || overran }) ∧
      ∃ t, exec (.pourEnd l v) s = .next t ∧ t = framed t ∧
        let final := if (p.tallied : Int) ≤ amount then taken else p
        t.pours = ⟨s.pours.list.map fun q => if q = p then { final with state := .done } else q,
          s.pours.estimators.put l ⟨none, 0⟩,
          s.pours.computationsOwed + 1 + (decide ((s.pours.estimators.get l).estimate ≠ 0)).toNat + (differs t).toNat⟩ ∧
        (s.HoldsOk → t.HoldsOk) ∧
        t.terminal = { port [⟨.pourEnd, some l, none, none⟩] with
          due := if .pourSummary l ∈ s.terminal.due then s.terminal.due else s.terminal.due ++ [.pourSummary l]
          noted := s.terminal.noted.put l (some ⟨p.sequence, p.hold, final.tallied⟩) } ∧
        t.channels = s.channels.put l { s.channel l with
          deadline := none, timedOut := false, derivationsOwed := (s.channel l).derivationsOwed + 1
          overrunFlag := (s.channel l).overrunFlag || (decide ((p.tallied : Int) ≤ amount) && overran)
          tallyFaultFlag := (s.channel l).tallyFaultFlag || decide (amount < p.tallied) }

/-! ### Passes, computations and derivations -/

/-- Spec 02 R24 to R27, R38, spec 10 R159, R160: an IDLE engine takes a live pass where live dirty is SET and otherwise a
pending trial pass, with its inputs as they stand; the end of a live pass publishes the set of those inputs with the next
generation and SETs the STRENGTH flag where a quantity's status differs from that in the set replaced, NORMAL for each where there
was none; and the end of a trial pass stores the figures with the trial, with the rooms of the holds that it took by the rules
of Clearance on the trial's set and the trial's hold masses. Spec 08 R139: a publication makes the DRAFT slot due
where a draft lies the draft step or more from the one last sent, or none was sent. Spec 06 R115: under PFAIL the Ballast
Sequencer is told at its end; that the publication is kept with its second and its set is DEDUCED (notes/assumptions/17.md).
That a publication leaves one derivation of each channel owed (notes/assumptions/7.md), and that the draft step is tested within
the end of the live pass (notes/assumptions/23.md), is the model's choice. -/
def Obligations.PassesPublishWhatTheyTook : Prop :=
  ∀ s : State, s.ready = true →
    (s.engine.state = .idle → s.engine.dirty = true → exec .livePassStart s = .next { s with
      engine := { s.engine with
        dirty := false
        state := .livePass ⟨s.holds.map (·.current) ++ s.tanks.map (·.current) ++ s.items, s.settings.limitSet,
          s.settings.caution, s.berth.maxDraft⟩ } }) ∧
    (∀ x, s.engine.state = .idle → s.engine.dirty = false → s.engine.trial = some x → x.pending = true →
      exec .trialPassStart s = .next { s with
        engine := { s.engine with
          trial := some { x with pending := false, inFlight := true }
          state := .trialPass ⟨x.masses, x.limitSet, x.caution, x.maxDraft⟩ x.hold1 x.hold2 } }) ∧
    (∀ snap, s.engine.state = .livePass snap → ∃ (t : State) (r : ResultSet), exec .livePassEnd s = .next t ∧
      r = evaluate s.hull snap (if s.generation = 65535 then 1 else s.generation + 1) ∧
      t.engine = { s.engine with
        state := .idle, live := some r, strengthFlag := t.engine.strengthFlag } ∧
      (let statuses (x : ResultSet) : List Status :=
        (x.stations.flatMap fun q => [q.sf.status, q.bm.status]) ++ [x.trim.status, x.fore.status, x.aft.status]
       let changed : Prop := match s.engine.live with
        | some x => statuses r ≠ statuses x
        | none => ∃ a ∈ statuses r, a ≠ .normal
       (t.engine.strengthFlag = true ↔ s.engine.strengthFlag = true ∨ changed)) ∧
      t.pours = { s.pours with computationsOwed := s.pours.computationsOwed + 1 } ∧
      (∀ l, t.channel l = { s.channel l with derivationsOwed := (s.channel l).derivationsOwed + 1 }) ∧
      (let far (last : Option Nat) (d : Int) : Prop := ∀ x, last = some x → s.settings.draftStep ≤ (d - x).natAbs
      (far s.terminal.lastFore r.fore.value ∨ far s.terminal.lastAft r.aft.value → t.terminal.due =
        if .draft ∈ s.terminal.due then s.terminal.due else s.terminal.due ++ [.draft]) ∧
      (¬(far s.terminal.lastFore r.fore.value ∨ far s.terminal.lastAft r.aft.value) → t.terminal.due = s.terminal.due)) ∧
      (s.pfail = true → t.ballast = { s.ballast with kept := s.ballast.kept ++ [(s.clock, KeptChange.publication r)] } ∧
        t.field = s.field) ∧
      { s with engine := t.engine, pours := t.pours, channels := t.channels, terminal := { s.terminal with due := t.terminal.due } }.onlyBallast t) ∧
    ∀ snap h1 h2, s.engine.state = .trialPass snap h1 h2 →
      (∀ x, s.engine.trial = some x → x.inFlight = true → ∃ y, exec .trialPassEnd s = .next { s with
          engine := { s.engine with state := .idle, trial := some y, trialDone := true } } ∧
        y.result = some (evaluate s.hull snap y.generation) ∧
        y.generation = (if x.generation = 65535 then 1 else x.generation + 1) ∧ y.inFlight = false ∧
        (let r := evaluate s.hull snap y.generation
         let own (a : Nat) : Room := ownRoom s.hull r a ((s.holdData a).maxMass - (nth1 snap.masses a).getD 0)
         let smaller (o j : Room) : Room := if j.amount < o.amount then j else o
         y.rooms = match h1, h2 with
           | none, none => []
           | some a, none | none, some a => [⟨a, own a, none, own a⟩]
           | some a, some b =>
             [⟨a, own a, some (jointRoom s.hull r a b), smaller (own a) (jointRoom s.hull r a b)⟩,
               ⟨b, own b, some (jointRoom s.hull r b a), smaller (own b) (jointRoom s.hull r b a)⟩]) ∧
        { y with result := x.result, generation := x.generation, inFlight := x.inFlight, rooms := x.rooms } = x) ∧
      ((∀ x, s.engine.trial = some x → x.inFlight = false) → exec .trialPassEnd s = .next { s with
        engine := { s.engine with state := .idle } })

/-- Spec 03 R51 to R53, spec 08 R138, spec 07 R121 to R124, R127, Tables 7.1, 7.4: a computation owed writes the figures of the
current pours and of no other, names each loader's current pour to its channel and makes its CLEARANCE slot due where the clearance
lies the report step or more from the one last sent; a derivation owed stores the pour so named as the channel's current pour and
gives the state and cause of the first test that holds, and the output that follows; the expiry of a tally timer is derived at
once. Where a derivation changes the output state the STATE flag is SET, an entry into FORBID writes the last forbid cause, and the
loader's CLEARANCE slot is made due; no other field of a channel and no other slot changes. A channel that permits pouring so
derived has strength room in its current pour. Each takes one of those owed and leaves the rest.
That the expiry derives within its own command, storing the pour named last as any derivation does, and that the other causes
leave a derivation owed, is the model's choice (notes/assumptions/7.md), and so is that both report-step tests of a computation are
made within it, before any derivation (notes/assumptions/23.md); that a pour which has left the list is read as it stood, and kept
while the channel names it, is DEDUCED (notes/assumptions/8.md). -/
def Obligations.FiguresReachTheLines : Prop :=
  ∀ s : State,
    -- the channel derived, `c` being it with what the command itself stored
    let derives (c : Channel) (t : State) (l : Loader) : Prop :=
      let x := t.channel l
      let changed := decide (x.output ≠ c.output)
      t.followsTests l ∧ x.outputFollows ∧
        x = { c with
          currentPour := c.named, computed := x.computed, cause := x.cause, output := x.output, outputCause := x.outputCause
          stateFlag := c.stateFlag || changed
          lastForbid := if changed = true ∧ x.output = .forbid then x.outputCause else c.lastForbid
          gone := c.gone.filter fun p => decide (c.named = some p.sequence) } ∧
        t = { s with
          channels := s.channels.put l x
          terminal := { s.terminal with due := if changed = true ∧ .clearance l ∉ s.terminal.due then
            s.terminal.due ++ [.clearance l] else s.terminal.due } } ∧
        (x.computed = .pour ∨ x.computed = .reduce → ∃ p, t.channelPour l = some p ∧ 0 < p.strengthRoom ∧ p.tallied < p.planned)
    (∀ n, s.ready = true → s.pours.computationsOwed = n + 1 → s.PoursOk → ∃ t, exec .clearanceComputation s = .next t ∧
      t.pours.list = s.pours.list.map (fun p => if s.currentPour .l1 = some p ∨ s.currentPour .l2 = some p then
        s.withFigures p else p) ∧
      t.pours.computationsOwed = n ∧ t.pours.estimators = s.pours.estimators ∧
      (∀ l, t.channel l = { s.channel l with
        named := (s.currentPour l).map (·.sequence), derivationsOwed := (s.channel l).derivationsOwed + 1 }) ∧
      (∃ gained, t.terminal.due = s.terminal.due ++ gained ∧ gained.Nodup ∧ ∀ x, x ∈ gained ↔ x ∉ s.terminal.due ∧
        ∃ l, x = .clearance l ∧ let amount := ((s.currentPour l).map fun p => (s.withFigures p).clearance).getD 0
          ∀ last, s.terminal.lastClearance.get l = some last → s.settings.reportStep ≤ max amount last - min amount last) ∧
      t = { s with pours := t.pours, channels := t.channels, terminal := { s.terminal with due := t.terminal.due } }) ∧
    (∀ l n, s.hasChannels = true → (s.channel l).derivationsOwed = n + 1 → ∃ t, exec (.channelDerivation l) s = .next t ∧
      derives { s.channel l with derivationsOwed := n } t l) ∧
    (s.pours.computationsOwed = 0 → exec .clearanceComputation s = .next s) ∧
    (∀ l, (s.channel l).derivationsOwed = 0 → exec (.channelDerivation l) s = .next s) ∧
    ∀ l, s.ready = true → s.pfail = false → expired (s.channel l).deadline s.clock = true →
      ∃ t, exec (.tallyTimerExpiry l) s = .next t ∧ derives { s.channel l with deadline := none, timedOut := true } t l

/-! ### The terminal link -/

/-- Spec 08 R130 to R132, R135 to R137, R139 to R141, Tables 8.4 to 8.6, spec 11 R165: a BERTH stores the draft and source and is
ACCEPTED; a REPORT REQUEST makes its slot due; the link sends the oldest reply first, else the first slot of the due order whose
report can be formed, with what the records hold; every notice is answered STARTING while LOADING, and in PROFILE FAULT a pour
notice NO POUR and a BERTH PROFILE FAULT.
That a due slot whose report cannot be formed is passed over and stays due is DEDUCED (notes/assumptions/14.md), and so are the
pour that has left the list, read as it stood, and one of its sequence created since, read in its place (notes/assumptions/8.md),
and the replies' loader and sequence (notes/assumptions/21.md). -/
def Obligations.TerminalAnswersAndReports : Prop :=
  ∀ s : State,
    let join (slot : Slot) : List Slot := if slot ∈ s.terminal.due then s.terminal.due else s.terminal.due ++ [slot]
    let add (r : NoticeReply) : List NoticeReply := if s.terminal.fifo.length < 4 then s.terminal.fifo ++ [r] else s.terminal.fifo
    (s.linkUp = true → s.ready = true → ∀ v : BitVec 32,
      let d := (max 5000 (min 30000 v.toInt)).toNat
      let differs := decide (s.berth.maxDraft ≠ d)
      exec (.berth v) s = .next { s with
        berth := ⟨d, .terminal, s.berth.flag || differs⟩, engine := { s.engine with dirty := s.engine.dirty || differs }
        terminal := { s.terminal with
          receiving := none, fifo := add ⟨.berth, none, none, none⟩
          due := if s.berth.maxDraft = d ∧ s.berth.source = .terminal then s.terminal.due else join .draft } }) ∧
    (s.linkUp = true → s.startUp.phase = .loading → ∀ (c : Instr) (r : NoticeReply),
      ((∃ l n v, c = .pourStart l n v ∧ r = ⟨.pourStart, some l, some n, some .starting⟩) ∨
        (∃ l v, c = .tally l v ∧ r = ⟨.tally, some l, none, some .starting⟩) ∨
        (∃ l v, c = .pourEnd l v ∧ r = ⟨.pourEnd, some l, none, some .starting⟩) ∨
        ∃ v, c = .berth v ∧ r = ⟨.berth, none, none, some .starting⟩) →
      exec c s = .next { s with terminal := { s.terminal with receiving := none, fifo := add r } }) ∧
    (s.linkUp = true → s.startUp.phase = .profileFault → ∀ (c : Instr) (r : NoticeReply),
      ((∃ l n v, c = .pourStart l n v ∧ r = ⟨.pourStart, some l, some n, some .noPour⟩) ∨
        (∃ l v, c = .tally l v ∧ r = ⟨.tally, some l, none, some .noPour⟩) ∨
        (∃ l v, c = .pourEnd l v ∧ r = ⟨.pourEnd, some l, none, some .noPour⟩) ∨
        ∃ v, c = .berth v ∧ r = ⟨.berth, none, none, some .profileFault⟩) →
      exec c s = .next { s with terminal := { s.terminal with receiving := none, fifo := add r } }) ∧
    -- the reports
    (∀ l, let c := s.channel l
      let report (sequence hold : Option Nat) (clearance time generation : Nat) : Option TerminalFrame :=
        some (.clearance ⟨l, sequence, hold, c.output, c.outputCause, c.lastForbid, clearance, time, generation⟩)
      (c.currentPour = none →
        s.slotFrame (.clearance l) = report none none 0 65535 ((s.engine.live.map (·.generation)).getD 0)) ∧
      ∀ n p, c.currentPour = some n →
        s.pour n = some p ∨ (s.pour n = none ∧ c.gone.find? (·.sequence = n) = some p) →
        s.slotFrame (.clearance l) = report (some n) (some p.hold) p.clearance p.timeToLimit p.basis) ∧
    (s.startUp.phase = .profileFault → s.slotFrame .draft = none) ∧
    (s.startUp.phase ≠ .profileFault → (s.engine.live = none →
        s.slotFrame .draft = some (.draft ⟨0, none, s.berth.maxDraft, s.berth.source⟩)) ∧
      ∀ r, s.engine.live = some r → s.slotFrame .draft = some (.draft ⟨r.generation,
        some ⟨r.fore.value.toNat, r.aft.value.toNat, r.mean, r.trim.value, r.displacement, r.worst⟩, s.berth.maxDraft,
        s.berth.source⟩)) ∧
    (∀ l, s.slotFrame (.pourSummary l) = (s.terminal.noted.get l).map fun n =>
      .summary ⟨l, n, (s.hold n.hold).current⟩) ∧
    (s.linkUp = true → ∀ slot, exec (.reportRequest slot) s = .next { s with terminal := { s.terminal with
      receiving := none
      due := if s.startUp.phase = .loading ∨ (s.startUp.phase = .profileFault ∧ slot = .draft) ∨
        (match slot with | .pourSummary l => (s.terminal.noted.get l).isNone | _ => false) = true then s.terminal.due else join slot } }) ∧
    (s.linkUp = true → s.terminal.sending = none →
      (∀ r rest, s.terminal.fifo = r :: rest → exec .terminalSendStart s = .next { s with
        terminal := { s.terminal with fifo := rest, sending := some (.reply r) } }) ∧
      (s.terminal.fifo = [] → s.DueOk →
        (∀ pre slot post f, s.terminal.due = pre ++ slot :: post → (∀ x ∈ pre, s.slotFrame x = none) → s.slotFrame slot = some f →
          ∃ t, exec .terminalSendStart s = .next t ∧ t.terminal.sending = some f ∧ t.terminal.due = pre ++ post ∧
            t.terminal.fifo = [] ∧ t.terminal.noted = s.terminal.noted ∧
            (∀ r, f = .clearance r → t.terminal.lastClearance = s.terminal.lastClearance.put r.loader (some r.clearance)) ∧
            (∀ r, f = .draft r → t.terminal.lastFore = r.figures.map (·.fore) ∧ t.terminal.lastAft = r.figures.map (·.aft)) ∧
            t = { s with terminal := t.terminal }) ∧
        ((∀ x ∈ s.terminal.due, s.slotFrame x = none) → exec .terminalSendStart s = .next s))) ∧
    (s.powered = true → exec .terminalFrameEnd s = .next { s with terminal := { s.terminal with sending := none } })

/-! ### The field link, the tanks and the ballast stations -/

/-- Spec 12 R173, R174, spec 06 R114: the link sends the head of its list; the silence watch expires once the interval has
passed since the last frame, and trips every station that works with LINK LOST, each whole as R110 gives (its order returned with
TRIP, the line and tank valves commanded SHUT, the queue rerouted). A station in OFF stays as it stands, but where a
trip reroutes an order to its queue: then it may look (spec 05 R85, spec 06 R103).
That the expiry's command changes nothing before the interval has passed is the model's choice (notes/assumptions/6.md); in which
order the stations trip is left open here, and free in the model (notes/assumptions/1.md). That every look comes after the last
trip, so that a station in OFF is answered as OFF and keeps its last trip cause, is the model's choice
(notes/assumptions/29.md). -/
def Obligations.FieldLinkSendsAndWatches : Prop :=
  ∀ s : State,
    (s.linkUp = true → s.field.sending = none → (s.field.outbound = [] → exec .fieldSendStart s = .next s) ∧
      ∀ c rest, s.field.outbound = c :: rest → exec .fieldSendStart s = .next { s with
        field := { s.field with outbound := rest, sending := some c } }) ∧
    (s.powered = true → exec .fieldFrameEnd s = .next { s with field := { s.field with sending := none } }) ∧
    (s.ready = true → s.pfail = false → s.field.live = true →
      (elapsed s.field.lastFrame s.clock < s.settings.silence → exec .fieldSilenceExpiry s = .next s) ∧
      (s.settings.silence ≤ elapsed s.field.lastFrame s.clock → s.RecordsOk → ∃ t, exec .fieldSilenceExpiry s = .next t ∧
        t.field.live = false ∧ { s with field := { s.field with live := false } }.onlyBallast t ∧
        (s.OrdersOk → s.haltSettled → ∃ gs : List Nat, gs.Perm (s.groupNumbers.filter fun g => (s.station g).state.working) ∧
          let heard : State := { s with
            field := { s.field with live := false }
            ballast := { s.ballast with stations := s.ballast.stations.map fun st =>
              if st.state = .tripped then { st with lastTrip := some .linkLost } else st }
            draws := t.draws }
          let u := gs.foldl (fun u g => u.afterTrip g .linkLost) heard
          u.answered t fun h => ∃ k ∈ u.queue h, k ∉ s.queue h) ∧
        ∀ g, s.hasGroup g = true →
          ((s.station g).state.working = true → t.trippedBy g .linkLost) ∧
          ((s.station g).state = .tripped → (t.station g).state = .tripped ∧ (t.station g).lastTrip = some .linkLost) ∧
          ((s.station g).state = .localControl → (t.station g).state = .localControl ∧
            (t.station g).lastTrip = (s.station g).lastTrip) ∧
          ((s.station g).state = .off → ((t.station g).state = .off ∨ (t.station g).state = .lineup) ∧
            (t.station g).lastTrip = (s.station g).lastTrip ∧ (t.station g).tripFlag = (s.station g).tripFlag ∧
            (s.OrdersOk → s.ballast.state ≠ .running ∨ (s.station g).closing ≠ [] ∨
                (∀ k o, s.order k = some o → o.state ≠ .done → o.group ≠ g → ¬(s.tank k).permits (s.tankData k).primary g) →
              t.station g = s.station g))))

/-- Spec 01 R10 to R17: a good sounding stores level, mass, age, status and strip state; a BAD one stores nothing; a tank
whose age reaches the stale interval becomes STALE, and one that has settled for the interval goes to BELOW. Each leaves
every other tank as it stands. Spec 12 R172: a sounding of no tank of the profile does nothing but restart the silence watch, and
in LOADING and PROFILE FAULT no sounding does anything. Spec 06 R115: under PFAIL the Ballast Sequencer is told of an expiry at the end of PFAIL.
That an expiry's command changes nothing where its condition does not hold is the model's choice (notes/assumptions/6.md); how a
change is kept under PFAIL is DEDUCED (notes/assumptions/17.md). -/
def Obligations.SoundingsAndExpiriesMoveTheTank : Prop :=
  (∀ (s : State) (n : Octet) (good : Bool) (reading : BitVec 16), s.linkUp = true →
    (s.ready = true → s.hasTank n.toNat = false → exec (.sounding n good reading) s = .next s.heardField) ∧
    (s.ready = false → exec (.sounding n good reading) s = .next { s with field := { s.field with receiving := none } })) ∧
  ∀ (s : State) (n : Octet) (reading : BitVec 16), s.ready = true → s.RecordsOk → s.hasTank n.toNat = true →
    let k := n.toNat
    let x := s.tank k
    let d := s.tankData k
    (s.linkUp = true → exec (.sounding n false reading) s = .next s.heardField ∧
      ∃ (t : State) (y : Tank), exec (.sounding n true reading) s = .next t ∧ t.tanks = modify1 s.tanks k (fun _ => y) ∧
        (let level := levelOf d reading.toNat
         let m := massAt d x.density level
         y = { x with
          lastLevel := some level, current := m.1, age := 0, status := if m.2 then .overrange else .fresh
          overrangeFlag := x.overrangeFlag || (m.2 && decide (x.status ≠ .overrange))
          strip := if x.stripMass < m.1 then .above else match x.strip with
            | .above => .settling s.clock
            | st => st }) ∧
        { s.heardField with
          tanks := t.tanks
          engine := { s.engine with dirty := s.engine.dirty || decide (y.current ≠ x.current) }
          pours := { s.pours with
            computationsOwed := s.pours.computationsOwed +
              (decide (y.current ≠ x.current ∨ x.status = SoundingStatus.stale)).toNat } }.onlyBallast t) ∧
    ((x.status = .stale ∨ x.status = .manual ∨ x.age < s.settings.stale → exec (.staleExpiry k) s = .next s) ∧
      (x.status = .fresh ∨ x.status = .overrange → s.settings.stale ≤ x.age → ∃ t, exec (.staleExpiry k) s = .next t ∧
        t.tanks = modify1 s.tanks k (fun _ => { x with status := .stale, strip := .above, staleFlag := true }) ∧
        (s.pfail = true → t.ballast = { s.ballast with kept := s.ballast.kept ++ [(s.clock, KeptChange.stale k)] } ∧ t.field = s.field) ∧
        { s with
          tanks := t.tanks, pours := { s.pours with computationsOwed := s.pours.computationsOwed + 1 } }.onlyBallast t)) ∧
    (∀ start, x.strip = .settling start →
      (elapsed start s.clock < s.settings.settle → exec (.stripSettleExpiry k) s = .next s) ∧
      (s.settings.settle ≤ elapsed start s.clock → ∃ t, exec (.stripSettleExpiry k) s = .next t ∧
        t.tanks = modify1 s.tanks k (fun _ => { x with strip := .below }) ∧
        (s.pfail = true → t.ballast = { s.ballast with kept := s.ballast.kept ++ [(s.clock, KeptChange.belowStrip k)] } ∧ t.field = s.field) ∧
        { s with tanks := t.tanks }.onlyBallast t))

/-- Spec 05 R81 to R83, R85, spec 06 R91, R103, Table 5.4: which order is eligible; at a RUN each OFF station without a closing
tank scans its queue, an order found met being DONE MET and the first eligible one taken, with which the station enters LINEUP, its
three valves commanded OPEN and the tank valve owned; and a station that goes to LOCAL reroutes its queue, its own order returned at
the head with LOCAL, each order that has another permitted group moving to that group's tail, and the OFF stations that gained an
order, or for which a tank valve was released, then look. -/
def Obligations.StationsScanAndRerouteTheirQueues : Prop :=
  (∀ (s : State) (k : Nat) (o : Order), s.hasTank k = true → s.order k = some o →
    (s.eligible k = true ↔ ((s.tank k).status = .fresh ∨ (s.tank k).status = .overrange) ∧ o.target < (s.tank k).current ∧
      (s.valve (.tank k)).owner = none ∧
      ∀ r, s.engine.live = some r → ¬s.worsened r (s.counts.holds + (k - 1)) (-1) (· ≠ .normal))) ∧
  (∀ (s : State) (h : ShipHead), s.shipIdle → s.ready = true → h.key = 0 → s.ballast.state ≠ .running → s.RecordsOk →
    s.QueuesOk → ∃ t, exec (.run h) s = .next t ∧
      ∀ g, s.hasGroup g = true → (s.station g).state = .off → (s.station g).closing = [] → s.scanned t g ∧
        ((t.station g).active = none → (t.station g).state = .off) ∧
        ∀ k, (t.station g).active = some k → (t.station g).state = .lineup ∧ (t.valve (.tank k)).owner = some g ∧
          (t.valve (.tank k)).commanded = .opened ∧ (t.valve (.suction g)).commanded = .opened ∧
          (t.valve (.overboard g)).commanded = .opened) ∧
  ∀ (s : State) (n : Octet), s.linkUp = true → s.RecordsOk → s.hasGroup n.toNat = true →
    (s.station n.toNat).state ≠ .localControl → ∃ t, exec (.localSwitch n .localControl) s = .next t ∧
      let g := n.toNat
      let walk := (s.station g).active.toList ++ s.queue g
      let other := s.movesTo g
      let u := s.heardField.afterLocal g
      (s.OrdersOk → (∀ k, (s.station g).active = some k → other k = none → (t.queue g).head? = some k) ∧
        u.answered t fun h => (∃ k, (s.valve (.tank k)).owner = some g) ∨ ∃ k ∈ u.queue h, k ∉ s.queue h) ∧
      (s.ballast.state ≠ .running →
        (∀ g', s.hasGroup g' = true → t.queue g' =
          (if g' = g then walk.filter fun k => decide (other k = none) else s.queue g') ++
            walk.filter fun k => decide (other k = some g')) ∧
        ∀ k o, s.hasTank k = true → s.order k = some o →
          let o' := if (s.station g).active = some k then { o with state := .queued, holdCause := some .localControl } else o
          (k ∉ walk → t.order k = some o) ∧
          (k ∈ walk → t.order k = some { o' with group := (other k).getD o.group }))

/-- Spec 06 R101, R103, R106 to R108, R113, spec 01 R17, Table 1.8, spec 05 R83, R84: a station that pumps a tank takes each good
sounding into its estimator, which takes the fall of the mass, and its dry-run watch; a mass at or below the target, by sounding or
PUT, completes the order as MET; a tank gone STALE and a published set with a LIMIT that the discharge worsens return the order
to the head of its queue with STALE or STRESS; a tank gone BELOW takes a station in DISCHARGE to STRIP. A station that has given
up its order scans its queue while RUNNING: with an order taken it stands in CHANGEOVER, its pump as it was, and with none it goes
to STOPPING, its pump stopped. -/
def Obligations.PumpingStationsAnswerTheirTank : Prop :=
  ∀ (s : State) (g k : Nat) (o : Order), s.ready = true → s.pfail = false → s.RecordsOk → s.StationsOk → s.OrdersOk →
    s.hasGroup g = true → s.hasTank k = true → (s.station g).state = .discharge ∨ (s.station g).state = .strip →
    (s.station g).active = some k → s.order k = some o →
    let st := s.station g
    let x := s.tank k
    let withOrder (u : State) (o' : Order) (queue : List Nat) (st' : Station) : State := { u with
      ballast := { u.ballast with
        orders := modify1 u.ballast.orders k fun _ => some o'
        queues := modify1 u.ballast.queues g fun _ => queue
        stations := modify1 u.ballast.stations g fun _ => st' } }
    let completed (u : State) : State :=
      withOrder u { o with state := .done, completion := some .met, holdCause := none } (s.queue g) { st with doneFlag := true }
    let interrupted (u : State) (cause : HoldCause) : State :=
      withOrder u { o with state := .queued, holdCause := some cause } (k :: s.queue g) { st with holdFlag := true }
    (∀ (n : Octet) (reading : BitVec 16), s.linkUp = true → n.toNat = k →
      let m := (massAt (s.tankData k) x.density (levelOf (s.tankData k) reading.toNat)).1
      ∃ t, exec (.sounding n true reading) s = .next t ∧
        (m ≤ o.target → t.order k = (completed s).order k ∧ (t.station g).doneFlag = true ∧ (completed s).handsOver t g k) ∧
        (o.target < m →
          let e := st.estimator.arrive true s.settings.rateWindow s.clock m
          let measured := ∃ start first, st.estimator.window = some (start, first) ∧
            s.settings.rateWindow ≤ elapsed start s.clock
          t.order k = some o ∧ ∃ low, t.station g = { st with estimator := e, lowSince := low } ∧
            (¬measured → low = st.lowSince) ∧ (measured → st.minRate ≤ e.estimate → low = none) ∧
            (measured → e.estimate < st.minRate → low = some (st.lowSince.getD s.clock)))) ∧
    (∀ (h : ShipHead) (ps : List Pair) (v : Int) (level : Nat), s.shipIdle → countLegal ps = true → h.table = 2 →
      h.key.toNat = k → (∀ p ∈ ps, p.ident = fieldId 10 0) → intAt ps 10 0 = some v → x.lastLevel = some level →
      let m := (massAt (s.tankData k) (max 9500 (min 10600 v)).toNat level).1
      ∃ t, exec (.put h ps) s = .next t ∧
        (m ≠ x.current → m ≤ o.target → t.order k = (completed s).order k ∧ (t.station g).doneFlag = true ∧
          (completed s).handsOver t g k) ∧
        (m = x.current ∨ o.target < m → t.order k = some o ∧ t.station g = st)) ∧
    (o.target < x.current → x.status = .fresh ∨ x.status = .overrange → s.settings.stale ≤ x.age →
      ∃ t, exec (.staleExpiry k) s = .next t ∧ (t.station g).holdFlag = true ∧
        t.order k = some { o with state := .queued, holdCause := some .stale } ∧ (t.queue g).head? = some k ∧
        (interrupted { s with tanks := modify1 s.tanks k fun x => { x with status := .stale } } .stale).handsOver t g k) ∧
    (∀ snap, o.target < x.current → s.engine.state = .livePass snap → ∃ (t : State) (r : ResultSet),
      exec .livePassEnd s = .next t ∧ t.engine.live = some r ∧
        (s.worsened r (s.counts.holds + (k - 1)) (-1) (· = .limit) → (t.station g).holdFlag = true ∧
          t.order k = some { o with state := .queued, holdCause := some .stress } ∧ (t.queue g).head? = some k ∧
          (interrupted { s with engine := { s.engine with live := some r } } .stress).handsOver t g k) ∧
        (¬s.worsened r (s.counts.holds + (k - 1)) (-1) (· = .limit) → t.order k = some o ∧ t.station g = st)) ∧
    ∀ start, x.strip = .settling start → s.settings.settle ≤ elapsed start s.clock →
      ∃ t, exec (.stripSettleExpiry k) s = .next t ∧ t.order k = some o ∧
        (st.state = .strip → t.station g = st) ∧
        (st.state = .discharge → t.station g = { st with
          state := .strip, pumpCommanded := .runReduced, estimator := ⟨none, 0⟩
          lowSince := if 0 < st.minRate then some s.clock else none })

/-- Spec 06 R94 to R97, R99, R104, R106, R108, R109: a report as commanded confirms: the position is recorded, the travel timer
stops, and where the valve's station does not wait for it nothing else changes, but that OFF stations look where a tank valve is
released (R103); another report that finds the valve confirmed is a
departure, and a travel timer that runs out a fault, each of which trips a station that works, whole as R110 gives, and is the last
trip cause of one that is TRIPPED (R111); any other report is recorded alone. Spec 12 R172: a report of no valve of the profile
does nothing but restart the silence watch, and in LOADING and PROFILE FAULT no report does anything. The last OPEN of a lineup, of whichever of its three valves, starts the pump. SHUT of an owned tank valve ends its ownership;
the last SHUT of a line in CLOSING takes the station to OFF; in CHANGEOVER the OPEN of the new tank's valve shuts the old one's,
and the SHUT of the old one's takes the station to DISCHARGE with its pump at RUN FULL and the four tests of the entry, or trips it
where the pump may not run.
That VALVE_TRAVEL_TIMEOUT does nothing where no deadline is reached or the valve is confirmed is the model's choice
(notes/assumptions/6.md), and when a deadline is reached is DEDUCED (notes/assumptions/4.md). That the line which is not open at
the SHUT of the old valve trips the station with VALVE LOST, also where its pump runs full already and no FULL would be sent, is
DEDUCED (notes/assumptions/20.md). -/
def Obligations.ValveReportsConfirmOrTrip : Prop :=
  (∀ (s : State) (key : Octet) (c : PositionReport), s.linkUp = true →
    (s.ready = true → (∀ v, valveOfKey key.toNat = some v → s.hasValve v = false) →
      exec (.valvePosition key c) s = .next s.heardField) ∧
    (s.ready = false → exec (.valvePosition key c) s = .next { s with field := { s.field with receiving := none } })) ∧
  ∀ (s : State) (v : ValveId), s.ready = true → s.pfail = false → s.RecordsOk → s.hasValve v = true →
    let x := s.valve v
    let names (c : PositionReport) (p : ValveReported) : Prop := (c, p) ∈ [(PositionReport.shut, ValveReported.shut),
      (.opened, .opened), (.moving, .moving), (.fault, .fault)]
    -- a departure or a timeout, recorded in `u`, answered by the valve's station
    let trips (u t : State) (c : TripCause) : Prop := (s.stationOf v = none → s.haltSettled → t = u) ∧
      ∀ g, s.stationOf v = some g → s.hasGroup g = true →
        ((s.station g).state.working = true → t.trippedBy g c ∧ (s.OrdersOk → u.trips t g c)) ∧
        ((s.station g).state.working = false → s.haltSettled → t = if (s.station g).state = .tripped then
          u.updStation g ({ · with lastTrip := some c }) else u)
    let asCommanded (p : ValveReported) : Prop := (x.commanded = .opened ∧ p = .opened) ∨ (x.commanded = .shut ∧ p = .shut)
    (∀ (key : Octet) (c : PositionReport) (p : ValveReported), valveOfKey key.toNat = some v → names c p →
      (asCommanded p → ∃ t, exec (.valvePosition key c) s = .next t ∧ s.heardField.onlyBallast t ∧
        (s.stationOf v = none → (s.haltSettled → t = s.heardField.updValve v fun x =>
          { x with reported := p, confirmed := true, deadline := none })) ∧
        ∀ g, s.stationOf v = some g → s.hasGroup g = true →
          let st := s.station g
          (∀ k, st.state = .lineup → st.active = some k → v ∈ [.suction g, .overboard g, .tank k] → x.commanded = .opened →
            (∀ w ∈ [ValveId.suction g, .overboard g, .tank k], w ≠ v → s.confirmedAt w .opened = true) →
            (t.station g).state = .priming ∧ (t.station g).pumpCommanded = .runFull ∧
              (t.station g).deadline = some (s.clock + BitVec.ofNat 32 st.priming) ∧
              t.valve v = { x with reported := .opened, confirmed := true, deadline := none }) ∧
          (∀ k, v = .tank k → x.commanded = .shut → s.OwnersOk → k ∉ (t.station g).closing ∧
            (s.ballast.state ≠ .running → (t.valve v).owner = none)) ∧
          (st.state = .stopping .closing → x.commanded = .shut →
            (v ∈ [ValveId.suction g, .overboard g] ∨ ∃ k ∈ st.closing, v = .tank k) →
            (∀ w ∈ [ValveId.suction g, .overboard g] ++ st.closing.map .tank, w ≠ v → s.confirmedAt w .shut = true) →
            ((t.station g).state = .off ∨ (s.ballast.state = .running ∧ (t.station g).state = .lineup))) ∧
          (∀ n, v = .tank n → st.state = .changeover → st.active = some n → x.commanded = .opened → s.OwnersOk →
            ∀ k ∈ st.closing, s.hasTank k = true → (t.valve (.tank k)).commanded = .shut) ∧
          (s.StationsOk → s.OrdersOk →
            let u := s.heardField.afterConfirm v p
            let released := (∃ k, v = .tank k) ∧ p = .shut
            let isOpen (w : ValveId) : Prop := u.confirmedAt w .opened = true
            let station (f : Station → Station) (l : List FieldCommand) : State := { u with
              ballast := { u.ballast with stations := modify1 u.ballast.stations g f }, field := { u.field with outbound := l } }
            let lastOpen := st.state = .lineup ∧ p = .opened ∧ isOpen (.suction g) ∧ isOpen (.overboard g) ∧
              ∃ k, st.active = some k ∧ isOpen (.tank k)
            let lastShut := st.state = .stopping .closing ∧ p = .shut ∧
              ∀ w ∈ [ValveId.suction g, .overboard g] ++ (u.station g).closing.map .tank, u.confirmedAt w .shut = true
            let newOpen := st.state = .changeover ∧ p = .opened ∧ ∃ n, st.active = some n ∧ v = .tank n
            let oldShut := st.state = .changeover ∧ p = .shut ∧ ∃ k, st.closing = [k] ∧ v = .tank k
            (lastOpen → t = station (fun st => { st with
                state := .priming, pumpCommanded := .runFull, deadline := some (s.clock + BitVec.ofNat 32 st.priming) })
              (placeIn (.pump g .start) u.field.outbound)) ∧
            (lastShut → (station ({ · with state := .off }) u.field.outbound).afterRest.answered t fun h => h = g ∨ released) ∧
            (newOpen → t = u.afterCommands false .shut (st.closing.map .tank)) ∧
            (oldShut → isOpen (.suction g) → isOpen (.overboard g) → (∀ n, st.active = some n → isOpen (.tank n)) →
              (station ({ · with pumpCommanded := .runFull }) (if st.pumpCommanded = .runReduced then
                placeIn (.pump g .full) u.field.outbound else u.field.outbound)).enters t g fun _ => True) ∧
            (¬lastOpen → ¬lastShut → ¬newOpen → ¬oldShut → u.afterRest.answered t fun _ => released)) ∧
          ∀ n k o, v = .tank k → x.commanded = .shut → st.state = .changeover → st.closing = [k] → st.active = some n →
            s.OwnersOk → s.order n = some o →
            let lineOpen := s.confirmedAt (.suction g) .opened = true ∧ s.confirmedAt (.overboard g) .opened = true ∧
              s.confirmedAt (.tank n) .opened = true
            let u : State := (s.heardField.updValve v fun x => { x with
              reported := p, confirmed := true, deadline := none, owner := none }).updStation g ({ · with closing := [] })
            (¬lineOpen → t.trippedBy g .valveLost ∧
              (s.OrdersOk → (u.afterTrip g .valveLost).answered t fun _ => True)) ∧
            (lineOpen → o.target < (s.tank n).current → (s.tank n).status ≠ .stale → s.stressed s.engine.live n = false →
              (s.tank n).strip ≠ .below → t.station g = { st with
                state := .discharge, pumpCommanded := .runFull, closing := [], deadline := none, estimator := ⟨none, 0⟩
                lowSince := if 0 < st.minRate then some s.clock else none })) ∧
      (¬asCommanded p → x.confirmed = true → ∃ t, exec (.valvePosition key c) s = .next t ∧ s.heardField.onlyBallast t ∧
        (t.valve v).reported = p ∧ (t.valve v).confirmed = false ∧
        trips (s.heardField.updValve v fun x => { x with reported := p, confirmed := false }) t .valveLost) ∧
      (¬asCommanded p → x.confirmed = false → s.haltSettled → exec (.valvePosition key c) s = .next
        (s.heardField.updValve v fun x => { x with reported := p }))) ∧
    (expired x.deadline s.clock = true → x.confirmed = false → ∃ t, exec (.valveTravelTimeout v) s = .next t ∧
      s.onlyBallast t ∧ (t.valve v).reported = .fault ∧
      trips (s.updValve v fun x => { x with reported := .fault, deadline := none }) t .valveTimeout) ∧
    (expired x.deadline s.clock = false ∨ x.confirmed = true → exec (.valveTravelTimeout v) s = .next s)

/-- Spec 06 R100, R110, R112: a PUMP STATUS is recorded, and trips the station, whole, where its state does not admit it; a LOCAL
SWITCH is recorded, and takes the station into LOCAL or out of it. The station that goes to LOCAL sends nothing: its order is returned
with LOCAL to the head of its group's queue and the queue rerouted (spec 05 R84, R85, Table 5.9), it owns no tank valve, the travel
timers of the valves that it owned and of its suction and overboard valves do not run, and the OFF stations that gained an order, or
for which a tank valve was released, look (R103). Spec 12 R172: in LOADING and PROFILE FAULT no such report
does anything. -/
def Obligations.PumpAndSwitchReportsMoveTheStation : Prop :=
  (∀ (s : State) (n : Octet), s.linkUp = true → s.ready = false →
    let dropped : State := { s with field := { s.field with receiving := none } }
    (∀ p, exec (.pumpStatus n p) s = .next dropped) ∧ ∀ p, exec (.localSwitch n p) s = .next dropped) ∧
  ∀ (s : State) (n : Octet), s.linkUp = true → s.ready = true → s.RecordsOk →
    let g := n.toNat
    let st := s.station g
    let cause (p : PumpReport) : Option TripCause := match p, st.state with
      | .overload, .tripped | .overload, .localControl => none
      | .overload, _ => some .overload
      | .stopped, .discharge | .stopped, .strip | .stopped, .changeover => some .pumpLost
      | .running, .off | .running, .lineup | .running, .stopping .closing => some .stopFail
      | _, _ => none
    let reported (p : PumpReport) : PumpReported := match p with
      | .stopped => .stopped
      | .running => .running
      | .overload => .overload
    let only (f : Station → Station) : State := { s.heardField with
      ballast := { s.ballast with stations := modify1 s.ballast.stations g f } }
    (s.hasGroup g = false → (∀ p, exec (.pumpStatus n p) s = .next s.heardField) ∧
      ∀ p, exec (.localSwitch n p) s = .next s.heardField) ∧
    (s.hasGroup g = true → ∀ p,
      (∀ c, cause p = some c → ∃ t, exec (.pumpStatus n p) s = .next t ∧ s.heardField.onlyBallast t ∧ t.trippedBy g c ∧
        (t.station g).pumpReported = reported p ∧
        (s.OrdersOk → (only ({ · with pumpReported := reported p })).trips t g c)) ∧
      (cause p = none → s.haltSettled → exec (.pumpStatus n p) s = .next (only fun st => { st with
        pumpReported := reported p
        lastTrip := if p = .overload ∧ st.state = .tripped then some .overload else st.lastTrip }))) ∧
    (s.hasGroup g = true →
      (st.state ≠ .localControl → ∃ t, exec (.localSwitch n .localControl) s = .next t ∧ s.heardField.onlyBallast t ∧
        t.station g = { st with
          state := .localControl, switch := .localControl, active := none, closing := [], deadline := none
          lowSince := none, resuming := false, localFlag := true } ∧
        (t.valve (.suction g)).deadline = none ∧ (t.valve (.overboard g)).deadline = none ∧
        (∀ k, (t.valve (.tank k)).owner ≠ some g) ∧
        (s.OrdersOk →
          let u := s.heardField.afterLocal g
          u.answered t fun h => (∃ k, (s.valve (.tank k)).owner = some g) ∨ ∃ k ∈ u.queue h, k ∉ s.queue h) ∧
        (s.ballast.state ≠ .running → t.field.outbound = s.field.outbound ∧
          (∀ k, s.hasTank k = true → t.valve (.tank k) = if (s.valve (.tank k)).owner = some g then
            { s.valve (.tank k) with owner := none, deadline := none } else s.valve (.tank k)) ∧
          (∀ g', s.hasGroup g' = true → ∀ v ∈ [ValveId.suction g', .overboard g'], t.valve v =
            if g' = g then { s.valve v with deadline := none } else s.valve v) ∧
          ∀ k o, s.hasTank k = true → st.active = some k → s.order k = some o → ∃ o', t.order k = some o' ∧
            o'.state = .queued ∧ o'.holdCause = some .localControl ∧ o'.target = o.target)) ∧
      (st.state = .localControl → exec (.localSwitch n .remote) s = .next { s.heardField with
        ballast := { s.ballast with
          state := if s.ballast.state = .halted then .halting else s.ballast.state
          stations := modify1 s.ballast.stations g fun st => { st with
            state := .stopping .rundown, switch := .remote, pumpCommanded := .stop, resuming := true, localFlag := true
            deadline := some (s.clock + BitVec.ofNat 32 st.rundown) } }
        field := { s.heardField.field with outbound := placeIn (.pump g .stop) s.field.outbound } }) ∧
      (s.haltSettled →
        (st.state = .localControl → exec (.localSwitch n .localControl) s = .next (only ({ · with switch := .localControl }))) ∧
        (st.state ≠ .localControl → exec (.localSwitch n .remote) s = .next (only ({ · with switch := .remote })))))

/-- Spec 06 R101, R103, R105 to R110, R112, R113: at the priming deadline a pump that does not report RUNNING is a trip and a
station otherwise enters DISCHARGE with its four tests; at the rundown deadline one that does not report STOPPED is a trip and the
line is otherwise closed: SV, OV and the valve of each closing tank commanded SHUT, those of the line sent again after LOCAL, and
the station is in CLOSING, or in OFF where all of it stands confirmed SHUT; a dry run trips a station in DISCHARGE and completes the order of one in STRIP as RESIDUAL. Each trip is taken whole: the order returned with TRIP at the head of its queue, the
line and tank valves commanded SHUT, the queue rerouted, and the stations that gained an order told.
When a deadline counts as reached is DEDUCED (notes/assumptions/4.md). -/
def Obligations.StationDeadlinesMoveTheStation : Prop :=
  ∀ (s : State) (g : Nat), s.ready = true → s.pfail = false → s.RecordsOk → s.hasGroup g = true →
    let st := s.station g
    (st.state = .priming → expired st.deadline s.clock = true →
      ∃ t, exec (.primingExpiry g) s = .next t ∧ s.onlyBallast t ∧
        (st.pumpReported ≠ .running → t.trippedBy g .startFail ∧ (s.OrdersOk → s.trips t g .startFail)) ∧
        (st.pumpReported = .running → s.StationsOk → s.OrdersOk → s.enters t g fun _ => False) ∧
        ∀ k o, st.pumpReported = .running → st.active = some k → s.order k = some o → o.target < (s.tank k).current →
          (s.tank k).status ≠ .stale → s.stressed s.engine.live k = false → (s.tank k).strip ≠ .below →
          t = { s with ballast := { s.ballast with stations := modify1 s.ballast.stations g fun st => { st with
            state := .discharge, deadline := none, estimator := ⟨none, 0⟩
            lowSince := if 0 < st.minRate then some s.clock else none } } }) ∧
    (st.state = .stopping .rundown → expired st.deadline s.clock = true →
      ∃ t, exec (.rundownExpiry g) s = .next t ∧ s.onlyBallast t ∧
        (st.pumpReported ≠ .stopped → t.trippedBy g .stopFail ∧ (s.OrdersOk → s.trips t g .stopFail)) ∧
        (st.pumpReported = .stopped → s.OrdersOk → (s.afterClosing g).afterRest.answered t (· = g)) ∧
        (st.pumpReported = .stopped → s.ballast.state ≠ .running → ((t.station g).state = .stopping .closing ∨
            (t.station g).state = .off ∧ ∀ k ∈ (t.station g).closing, t.confirmedAt (.tank k) .shut = true) ∧
          (t.valve (.suction g)).commanded = .shut ∧ (t.valve (.overboard g)).commanded = .shut)) ∧
    (∀ since, st.lowSince = some since → st.dryRun ≤ elapsed since s.clock →
      (st.state = .discharge → ∃ t, exec (.dryRunCondition g) s = .next t ∧ s.onlyBallast t ∧ t.trippedBy g .dryRun ∧
        (s.OrdersOk → s.trips t g .dryRun)) ∧
      ∀ k o, st.state = .strip → st.active = some k → s.hasTank k = true → s.order k = some o →
        (∀ g', k ∉ s.queue g') → ∃ t, exec (.dryRunCondition g) s = .next t ∧ s.onlyBallast t ∧
          t.order k = some { o with state := .done, completion := some .residual, holdCause := none } ∧
          (t.station g).doneFlag = true ∧
          (s.OrdersOk → State.handsOver { s with ballast := { s.ballast with
            orders := modify1 s.ballast.orders k fun _ => some { o with
              state := .done, completion := some .residual, holdCause := none }
            stations := modify1 s.ballast.stations g fun st => { st with doneFlag := true } } } t g k))
end

