-- ==== Sys2Proof/Laws/State.lean ====
section
/-! SUPPORT. What each update of the state leaves as it stands, field by field. -/

namespace Sys2Proof.Machine

@[simp] theorem State.updHold_pending (h : Nat) (f : Hold → Hold) (s : State) : (s.updHold h f).pending = s.pending :=
  rfl
@[simp] theorem State.updHold_powered (h : Nat) (f : Hold → Hold) (s : State) : (s.updHold h f).powered = s.powered :=
  rfl
@[simp] theorem State.updHold_pfail (h : Nat) (f : Hold → Hold) (s : State) : (s.updHold h f).pfail = s.pfail := rfl
@[simp] theorem State.updHold_clock (h : Nat) (f : Hold → Hold) (s : State) : (s.updHold h f).clock = s.clock := rfl
@[simp] theorem State.updHold_startUp (h : Nat) (f : Hold → Hold) (s : State) : (s.updHold h f).startUp = s.startUp :=
  rfl
@[simp] theorem State.updHold_tanks (h : Nat) (f : Hold → Hold) (s : State) : (s.updHold h f).tanks = s.tanks := rfl
@[simp] theorem State.updHold_items (h : Nat) (f : Hold → Hold) (s : State) : (s.updHold h f).items = s.items := rfl
@[simp] theorem State.updHold_berth (h : Nat) (f : Hold → Hold) (s : State) : (s.updHold h f).berth = s.berth := rfl
@[simp] theorem State.updHold_settings (h : Nat) (f : Hold → Hold) (s : State) : (s.updHold h f).settings = s.settings :=
  rfl
@[simp] theorem State.updHold_engine (h : Nat) (f : Hold → Hold) (s : State) : (s.updHold h f).engine = s.engine :=
  rfl
@[simp] theorem State.updHold_pours (h : Nat) (f : Hold → Hold) (s : State) : (s.updHold h f).pours = s.pours := rfl
@[simp] theorem State.updHold_ballast (h : Nat) (f : Hold → Hold) (s : State) : (s.updHold h f).ballast = s.ballast :=
  rfl
@[simp] theorem State.updHold_channels (h : Nat) (f : Hold → Hold) (s : State) : (s.updHold h f).channels = s.channels :=
  rfl
@[simp] theorem State.updHold_ship (h : Nat) (f : Hold → Hold) (s : State) : (s.updHold h f).ship = s.ship := rfl
@[simp] theorem State.updHold_terminal (h : Nat) (f : Hold → Hold) (s : State) : (s.updHold h f).terminal = s.terminal :=
  rfl
@[simp] theorem State.updHold_field (h : Nat) (f : Hold → Hold) (s : State) : (s.updHold h f).field = s.field := rfl
@[simp] theorem State.updHold_draws (h : Nat) (f : Hold → Hold) (s : State) : (s.updHold h f).draws = s.draws := rfl

@[simp] theorem State.updTank_pending (n : Nat) (f : Tank → Tank) (s : State) : (s.updTank n f).pending = s.pending :=
  rfl
@[simp] theorem State.updTank_powered (n : Nat) (f : Tank → Tank) (s : State) : (s.updTank n f).powered = s.powered :=
  rfl
@[simp] theorem State.updTank_pfail (n : Nat) (f : Tank → Tank) (s : State) : (s.updTank n f).pfail = s.pfail := rfl
@[simp] theorem State.updTank_clock (n : Nat) (f : Tank → Tank) (s : State) : (s.updTank n f).clock = s.clock := rfl
@[simp] theorem State.updTank_startUp (n : Nat) (f : Tank → Tank) (s : State) : (s.updTank n f).startUp = s.startUp :=
  rfl
@[simp] theorem State.updTank_holds (n : Nat) (f : Tank → Tank) (s : State) : (s.updTank n f).holds = s.holds := rfl
@[simp] theorem State.updTank_items (n : Nat) (f : Tank → Tank) (s : State) : (s.updTank n f).items = s.items := rfl
@[simp] theorem State.updTank_berth (n : Nat) (f : Tank → Tank) (s : State) : (s.updTank n f).berth = s.berth := rfl
@[simp] theorem State.updTank_settings (n : Nat) (f : Tank → Tank) (s : State) : (s.updTank n f).settings = s.settings :=
  rfl
@[simp] theorem State.updTank_engine (n : Nat) (f : Tank → Tank) (s : State) : (s.updTank n f).engine = s.engine :=
  rfl
@[simp] theorem State.updTank_pours (n : Nat) (f : Tank → Tank) (s : State) : (s.updTank n f).pours = s.pours := rfl
@[simp] theorem State.updTank_ballast (n : Nat) (f : Tank → Tank) (s : State) : (s.updTank n f).ballast = s.ballast :=
  rfl
@[simp] theorem State.updTank_channels (n : Nat) (f : Tank → Tank) (s : State) : (s.updTank n f).channels = s.channels :=
  rfl
@[simp] theorem State.updTank_ship (n : Nat) (f : Tank → Tank) (s : State) : (s.updTank n f).ship = s.ship := rfl
@[simp] theorem State.updTank_terminal (n : Nat) (f : Tank → Tank) (s : State) : (s.updTank n f).terminal = s.terminal :=
  rfl
@[simp] theorem State.updTank_field (n : Nat) (f : Tank → Tank) (s : State) : (s.updTank n f).field = s.field := rfl
@[simp] theorem State.updTank_draws (n : Nat) (f : Tank → Tank) (s : State) : (s.updTank n f).draws = s.draws := rfl

@[simp] theorem State.setOrder_pending (n : Nat) (o : Option Order) (s : State) : (s.setOrder n o).pending = s.pending :=
  rfl
@[simp] theorem State.setOrder_powered (n : Nat) (o : Option Order) (s : State) : (s.setOrder n o).powered = s.powered :=
  rfl
@[simp] theorem State.setOrder_pfail (n : Nat) (o : Option Order) (s : State) : (s.setOrder n o).pfail = s.pfail :=
  rfl
@[simp] theorem State.setOrder_clock (n : Nat) (o : Option Order) (s : State) : (s.setOrder n o).clock = s.clock :=
  rfl
@[simp] theorem State.setOrder_startUp (n : Nat) (o : Option Order) (s : State) : (s.setOrder n o).startUp = s.startUp :=
  rfl
@[simp] theorem State.setOrder_holds (n : Nat) (o : Option Order) (s : State) : (s.setOrder n o).holds = s.holds :=
  rfl
@[simp] theorem State.setOrder_tanks (n : Nat) (o : Option Order) (s : State) : (s.setOrder n o).tanks = s.tanks :=
  rfl
@[simp] theorem State.setOrder_items (n : Nat) (o : Option Order) (s : State) : (s.setOrder n o).items = s.items :=
  rfl
@[simp] theorem State.setOrder_berth (n : Nat) (o : Option Order) (s : State) : (s.setOrder n o).berth = s.berth :=
  rfl
@[simp] theorem State.setOrder_settings (n : Nat) (o : Option Order) (s : State) : (s.setOrder n o).settings = s.settings :=
  rfl
@[simp] theorem State.setOrder_engine (n : Nat) (o : Option Order) (s : State) : (s.setOrder n o).engine = s.engine :=
  rfl
@[simp] theorem State.setOrder_pours (n : Nat) (o : Option Order) (s : State) : (s.setOrder n o).pours = s.pours :=
  rfl
@[simp] theorem State.setOrder_channels (n : Nat) (o : Option Order) (s : State) : (s.setOrder n o).channels = s.channels :=
  rfl
@[simp] theorem State.setOrder_ship (n : Nat) (o : Option Order) (s : State) : (s.setOrder n o).ship = s.ship := rfl
@[simp] theorem State.setOrder_terminal (n : Nat) (o : Option Order) (s : State) : (s.setOrder n o).terminal = s.terminal :=
  rfl
@[simp] theorem State.setOrder_field (n : Nat) (o : Option Order) (s : State) : (s.setOrder n o).field = s.field :=
  rfl
@[simp] theorem State.setOrder_draws (n : Nat) (o : Option Order) (s : State) : (s.setOrder n o).draws = s.draws :=
  rfl

@[simp] theorem State.setOrder_ballast_state (n : Nat) (o : Option Order) (s : State) : (s.setOrder n o).ballast.state = s.ballast.state :=
  rfl
@[simp] theorem State.setOrder_ballast_queues (n : Nat) (o : Option Order) (s : State) : (s.setOrder n o).ballast.queues = s.ballast.queues :=
  rfl
@[simp] theorem State.setOrder_ballast_stations (n : Nat) (o : Option Order) (s : State) : (s.setOrder n o).ballast.stations = s.ballast.stations :=
  rfl
@[simp] theorem State.setOrder_ballast_tankValves (n : Nat) (o : Option Order) (s : State) : (s.setOrder n o).ballast.tankValves = s.ballast.tankValves :=
  rfl
@[simp] theorem State.setOrder_ballast_suctionValves (n : Nat) (o : Option Order) (s : State) : (s.setOrder n o).ballast.suctionValves = s.ballast.suctionValves :=
  rfl
@[simp] theorem State.setOrder_ballast_overboardValves (n : Nat) (o : Option Order) (s : State) : (s.setOrder n o).ballast.overboardValves = s.ballast.overboardValves :=
  rfl
@[simp] theorem State.setOrder_ballast_kept (n : Nat) (o : Option Order) (s : State) : (s.setOrder n o).ballast.kept = s.ballast.kept :=
  rfl

@[simp] theorem State.updOrder_pending (n : Nat) (f : Order → Order) (s : State) : (s.updOrder n f).pending = s.pending :=
  rfl
@[simp] theorem State.updOrder_powered (n : Nat) (f : Order → Order) (s : State) : (s.updOrder n f).powered = s.powered :=
  rfl
@[simp] theorem State.updOrder_pfail (n : Nat) (f : Order → Order) (s : State) : (s.updOrder n f).pfail = s.pfail :=
  rfl
@[simp] theorem State.updOrder_clock (n : Nat) (f : Order → Order) (s : State) : (s.updOrder n f).clock = s.clock :=
  rfl
@[simp] theorem State.updOrder_startUp (n : Nat) (f : Order → Order) (s : State) : (s.updOrder n f).startUp = s.startUp :=
  rfl
@[simp] theorem State.updOrder_holds (n : Nat) (f : Order → Order) (s : State) : (s.updOrder n f).holds = s.holds :=
  rfl
@[simp] theorem State.updOrder_tanks (n : Nat) (f : Order → Order) (s : State) : (s.updOrder n f).tanks = s.tanks :=
  rfl
@[simp] theorem State.updOrder_items (n : Nat) (f : Order → Order) (s : State) : (s.updOrder n f).items = s.items :=
  rfl
@[simp] theorem State.updOrder_berth (n : Nat) (f : Order → Order) (s : State) : (s.updOrder n f).berth = s.berth :=
  rfl
@[simp] theorem State.updOrder_settings (n : Nat) (f : Order → Order) (s : State) : (s.updOrder n f).settings = s.settings :=
  rfl
@[simp] theorem State.updOrder_engine (n : Nat) (f : Order → Order) (s : State) : (s.updOrder n f).engine = s.engine :=
  rfl
@[simp] theorem State.updOrder_pours (n : Nat) (f : Order → Order) (s : State) : (s.updOrder n f).pours = s.pours :=
  rfl
@[simp] theorem State.updOrder_channels (n : Nat) (f : Order → Order) (s : State) : (s.updOrder n f).channels = s.channels :=
  rfl
@[simp] theorem State.updOrder_ship (n : Nat) (f : Order → Order) (s : State) : (s.updOrder n f).ship = s.ship := rfl
@[simp] theorem State.updOrder_terminal (n : Nat) (f : Order → Order) (s : State) : (s.updOrder n f).terminal = s.terminal :=
  rfl
@[simp] theorem State.updOrder_field (n : Nat) (f : Order → Order) (s : State) : (s.updOrder n f).field = s.field :=
  rfl
@[simp] theorem State.updOrder_draws (n : Nat) (f : Order → Order) (s : State) : (s.updOrder n f).draws = s.draws :=
  rfl

@[simp] theorem State.updOrder_ballast_state (n : Nat) (f : Order → Order) (s : State) : (s.updOrder n f).ballast.state = s.ballast.state :=
  rfl
@[simp] theorem State.updOrder_ballast_queues (n : Nat) (f : Order → Order) (s : State) : (s.updOrder n f).ballast.queues = s.ballast.queues :=
  rfl
@[simp] theorem State.updOrder_ballast_stations (n : Nat) (f : Order → Order) (s : State) : (s.updOrder n f).ballast.stations = s.ballast.stations :=
  rfl
@[simp] theorem State.updOrder_ballast_tankValves (n : Nat) (f : Order → Order) (s : State) : (s.updOrder n f).ballast.tankValves = s.ballast.tankValves :=
  rfl
@[simp] theorem State.updOrder_ballast_suctionValves (n : Nat) (f : Order → Order) (s : State) : (s.updOrder n f).ballast.suctionValves = s.ballast.suctionValves :=
  rfl
@[simp] theorem State.updOrder_ballast_overboardValves (n : Nat) (f : Order → Order) (s : State) : (s.updOrder n f).ballast.overboardValves = s.ballast.overboardValves :=
  rfl
@[simp] theorem State.updOrder_ballast_kept (n : Nat) (f : Order → Order) (s : State) : (s.updOrder n f).ballast.kept = s.ballast.kept :=
  rfl

@[simp] theorem State.setQueue_pending (g : Nat) (q : List Nat) (s : State) : (s.setQueue g q).pending = s.pending :=
  rfl
@[simp] theorem State.setQueue_powered (g : Nat) (q : List Nat) (s : State) : (s.setQueue g q).powered = s.powered :=
  rfl
@[simp] theorem State.setQueue_pfail (g : Nat) (q : List Nat) (s : State) : (s.setQueue g q).pfail = s.pfail := rfl
@[simp] theorem State.setQueue_clock (g : Nat) (q : List Nat) (s : State) : (s.setQueue g q).clock = s.clock := rfl
@[simp] theorem State.setQueue_startUp (g : Nat) (q : List Nat) (s : State) : (s.setQueue g q).startUp = s.startUp :=
  rfl
@[simp] theorem State.setQueue_holds (g : Nat) (q : List Nat) (s : State) : (s.setQueue g q).holds = s.holds := rfl
@[simp] theorem State.setQueue_tanks (g : Nat) (q : List Nat) (s : State) : (s.setQueue g q).tanks = s.tanks := rfl
@[simp] theorem State.setQueue_items (g : Nat) (q : List Nat) (s : State) : (s.setQueue g q).items = s.items := rfl
@[simp] theorem State.setQueue_berth (g : Nat) (q : List Nat) (s : State) : (s.setQueue g q).berth = s.berth := rfl
@[simp] theorem State.setQueue_settings (g : Nat) (q : List Nat) (s : State) : (s.setQueue g q).settings = s.settings :=
  rfl
@[simp] theorem State.setQueue_engine (g : Nat) (q : List Nat) (s : State) : (s.setQueue g q).engine = s.engine := rfl
@[simp] theorem State.setQueue_pours (g : Nat) (q : List Nat) (s : State) : (s.setQueue g q).pours = s.pours := rfl
@[simp] theorem State.setQueue_channels (g : Nat) (q : List Nat) (s : State) : (s.setQueue g q).channels = s.channels :=
  rfl
@[simp] theorem State.setQueue_ship (g : Nat) (q : List Nat) (s : State) : (s.setQueue g q).ship = s.ship := rfl
@[simp] theorem State.setQueue_terminal (g : Nat) (q : List Nat) (s : State) : (s.setQueue g q).terminal = s.terminal :=
  rfl
@[simp] theorem State.setQueue_field (g : Nat) (q : List Nat) (s : State) : (s.setQueue g q).field = s.field := rfl
@[simp] theorem State.setQueue_draws (g : Nat) (q : List Nat) (s : State) : (s.setQueue g q).draws = s.draws := rfl

@[simp] theorem State.setQueue_ballast_state (g : Nat) (q : List Nat) (s : State) : (s.setQueue g q).ballast.state = s.ballast.state :=
  rfl
@[simp] theorem State.setQueue_ballast_orders (g : Nat) (q : List Nat) (s : State) : (s.setQueue g q).ballast.orders = s.ballast.orders :=
  rfl
@[simp] theorem State.setQueue_ballast_stations (g : Nat) (q : List Nat) (s : State) : (s.setQueue g q).ballast.stations = s.ballast.stations :=
  rfl
@[simp] theorem State.setQueue_ballast_tankValves (g : Nat) (q : List Nat) (s : State) : (s.setQueue g q).ballast.tankValves = s.ballast.tankValves :=
  rfl
@[simp] theorem State.setQueue_ballast_suctionValves (g : Nat) (q : List Nat) (s : State) : (s.setQueue g q).ballast.suctionValves = s.ballast.suctionValves :=
  rfl
@[simp] theorem State.setQueue_ballast_overboardValves (g : Nat) (q : List Nat) (s : State) : (s.setQueue g q).ballast.overboardValves = s.ballast.overboardValves :=
  rfl
@[simp] theorem State.setQueue_ballast_kept (g : Nat) (q : List Nat) (s : State) : (s.setQueue g q).ballast.kept = s.ballast.kept :=
  rfl

@[simp] theorem State.updStation_pending (g : Nat) (f : Station → Station) (s : State) : (s.updStation g f).pending = s.pending :=
  rfl
@[simp] theorem State.updStation_powered (g : Nat) (f : Station → Station) (s : State) : (s.updStation g f).powered = s.powered :=
  rfl
@[simp] theorem State.updStation_pfail (g : Nat) (f : Station → Station) (s : State) : (s.updStation g f).pfail = s.pfail :=
  rfl
@[simp] theorem State.updStation_clock (g : Nat) (f : Station → Station) (s : State) : (s.updStation g f).clock = s.clock :=
  rfl
@[simp] theorem State.updStation_startUp (g : Nat) (f : Station → Station) (s : State) : (s.updStation g f).startUp = s.startUp :=
  rfl
@[simp] theorem State.updStation_holds (g : Nat) (f : Station → Station) (s : State) : (s.updStation g f).holds = s.holds :=
  rfl
@[simp] theorem State.updStation_tanks (g : Nat) (f : Station → Station) (s : State) : (s.updStation g f).tanks = s.tanks :=
  rfl
@[simp] theorem State.updStation_items (g : Nat) (f : Station → Station) (s : State) : (s.updStation g f).items = s.items :=
  rfl
@[simp] theorem State.updStation_berth (g : Nat) (f : Station → Station) (s : State) : (s.updStation g f).berth = s.berth :=
  rfl
@[simp] theorem State.updStation_settings (g : Nat) (f : Station → Station) (s : State) : (s.updStation g f).settings = s.settings :=
  rfl
@[simp] theorem State.updStation_engine (g : Nat) (f : Station → Station) (s : State) : (s.updStation g f).engine = s.engine :=
  rfl
@[simp] theorem State.updStation_pours (g : Nat) (f : Station → Station) (s : State) : (s.updStation g f).pours = s.pours :=
  rfl
@[simp] theorem State.updStation_channels (g : Nat) (f : Station → Station) (s : State) : (s.updStation g f).channels = s.channels :=
  rfl
@[simp] theorem State.updStation_ship (g : Nat) (f : Station → Station) (s : State) : (s.updStation g f).ship = s.ship :=
  rfl
@[simp] theorem State.updStation_terminal (g : Nat) (f : Station → Station) (s : State) : (s.updStation g f).terminal = s.terminal :=
  rfl
@[simp] theorem State.updStation_field (g : Nat) (f : Station → Station) (s : State) : (s.updStation g f).field = s.field :=
  rfl
@[simp] theorem State.updStation_draws (g : Nat) (f : Station → Station) (s : State) : (s.updStation g f).draws = s.draws :=
  rfl

@[simp] theorem State.updStation_ballast_state (g : Nat) (f : Station → Station) (s : State) : (s.updStation g f).ballast.state = s.ballast.state :=
  rfl
@[simp] theorem State.updStation_ballast_orders (g : Nat) (f : Station → Station) (s : State) : (s.updStation g f).ballast.orders = s.ballast.orders :=
  rfl
@[simp] theorem State.updStation_ballast_queues (g : Nat) (f : Station → Station) (s : State) : (s.updStation g f).ballast.queues = s.ballast.queues :=
  rfl
@[simp] theorem State.updStation_ballast_tankValves (g : Nat) (f : Station → Station) (s : State) : (s.updStation g f).ballast.tankValves = s.ballast.tankValves :=
  rfl
@[simp] theorem State.updStation_ballast_suctionValves (g : Nat) (f : Station → Station) (s : State) : (s.updStation g f).ballast.suctionValves = s.ballast.suctionValves :=
  rfl
@[simp] theorem State.updStation_ballast_overboardValves (g : Nat) (f : Station → Station) (s : State) : (s.updStation g f).ballast.overboardValves = s.ballast.overboardValves :=
  rfl
@[simp] theorem State.updStation_ballast_kept (g : Nat) (f : Station → Station) (s : State) : (s.updStation g f).ballast.kept = s.ballast.kept :=
  rfl

@[simp] theorem State.updValve_pending (v : ValveId) (f : Valve → Valve) (s : State) : (s.updValve v f).pending = s.pending :=
  by cases v <;> rfl
@[simp] theorem State.updValve_powered (v : ValveId) (f : Valve → Valve) (s : State) : (s.updValve v f).powered = s.powered :=
  by cases v <;> rfl
@[simp] theorem State.updValve_pfail (v : ValveId) (f : Valve → Valve) (s : State) : (s.updValve v f).pfail = s.pfail :=
  by cases v <;> rfl
@[simp] theorem State.updValve_clock (v : ValveId) (f : Valve → Valve) (s : State) : (s.updValve v f).clock = s.clock :=
  by cases v <;> rfl
@[simp] theorem State.updValve_startUp (v : ValveId) (f : Valve → Valve) (s : State) : (s.updValve v f).startUp = s.startUp :=
  by cases v <;> rfl
@[simp] theorem State.updValve_holds (v : ValveId) (f : Valve → Valve) (s : State) : (s.updValve v f).holds = s.holds :=
  by cases v <;> rfl
@[simp] theorem State.updValve_tanks (v : ValveId) (f : Valve → Valve) (s : State) : (s.updValve v f).tanks = s.tanks :=
  by cases v <;> rfl
@[simp] theorem State.updValve_items (v : ValveId) (f : Valve → Valve) (s : State) : (s.updValve v f).items = s.items :=
  by cases v <;> rfl
@[simp] theorem State.updValve_berth (v : ValveId) (f : Valve → Valve) (s : State) : (s.updValve v f).berth = s.berth :=
  by cases v <;> rfl
@[simp] theorem State.updValve_settings (v : ValveId) (f : Valve → Valve) (s : State) : (s.updValve v f).settings = s.settings :=
  by cases v <;> rfl
@[simp] theorem State.updValve_engine (v : ValveId) (f : Valve → Valve) (s : State) : (s.updValve v f).engine = s.engine :=
  by cases v <;> rfl
@[simp] theorem State.updValve_pours (v : ValveId) (f : Valve → Valve) (s : State) : (s.updValve v f).pours = s.pours :=
  by cases v <;> rfl
@[simp] theorem State.updValve_channels (v : ValveId) (f : Valve → Valve) (s : State) : (s.updValve v f).channels = s.channels :=
  by cases v <;> rfl
@[simp] theorem State.updValve_ship (v : ValveId) (f : Valve → Valve) (s : State) : (s.updValve v f).ship = s.ship :=
  by cases v <;> rfl
@[simp] theorem State.updValve_terminal (v : ValveId) (f : Valve → Valve) (s : State) : (s.updValve v f).terminal = s.terminal :=
  by cases v <;> rfl
@[simp] theorem State.updValve_field (v : ValveId) (f : Valve → Valve) (s : State) : (s.updValve v f).field = s.field :=
  by cases v <;> rfl
@[simp] theorem State.updValve_draws (v : ValveId) (f : Valve → Valve) (s : State) : (s.updValve v f).draws = s.draws :=
  by cases v <;> rfl

@[simp] theorem State.updValve_ballast_state (v : ValveId) (f : Valve → Valve) (s : State) : (s.updValve v f).ballast.state = s.ballast.state :=
  by cases v <;> rfl
@[simp] theorem State.updValve_ballast_orders (v : ValveId) (f : Valve → Valve) (s : State) : (s.updValve v f).ballast.orders = s.ballast.orders :=
  by cases v <;> rfl
@[simp] theorem State.updValve_ballast_queues (v : ValveId) (f : Valve → Valve) (s : State) : (s.updValve v f).ballast.queues = s.ballast.queues :=
  by cases v <;> rfl
@[simp] theorem State.updValve_ballast_stations (v : ValveId) (f : Valve → Valve) (s : State) : (s.updValve v f).ballast.stations = s.ballast.stations :=
  by cases v <;> rfl
@[simp] theorem State.updValve_ballast_kept (v : ValveId) (f : Valve → Valve) (s : State) : (s.updValve v f).ballast.kept = s.ballast.kept :=
  by cases v <;> rfl

@[simp] theorem State.updChannel_pending (l : Loader) (f : Channel → Channel) (s : State) : (s.updChannel l f).pending = s.pending :=
  rfl
@[simp] theorem State.updChannel_powered (l : Loader) (f : Channel → Channel) (s : State) : (s.updChannel l f).powered = s.powered :=
  rfl
@[simp] theorem State.updChannel_pfail (l : Loader) (f : Channel → Channel) (s : State) : (s.updChannel l f).pfail = s.pfail :=
  rfl
@[simp] theorem State.updChannel_clock (l : Loader) (f : Channel → Channel) (s : State) : (s.updChannel l f).clock = s.clock :=
  rfl
@[simp] theorem State.updChannel_startUp (l : Loader) (f : Channel → Channel) (s : State) : (s.updChannel l f).startUp = s.startUp :=
  rfl
@[simp] theorem State.updChannel_holds (l : Loader) (f : Channel → Channel) (s : State) : (s.updChannel l f).holds = s.holds :=
  rfl
@[simp] theorem State.updChannel_tanks (l : Loader) (f : Channel → Channel) (s : State) : (s.updChannel l f).tanks = s.tanks :=
  rfl
@[simp] theorem State.updChannel_items (l : Loader) (f : Channel → Channel) (s : State) : (s.updChannel l f).items = s.items :=
  rfl
@[simp] theorem State.updChannel_berth (l : Loader) (f : Channel → Channel) (s : State) : (s.updChannel l f).berth = s.berth :=
  rfl
@[simp] theorem State.updChannel_settings (l : Loader) (f : Channel → Channel) (s : State) : (s.updChannel l f).settings = s.settings :=
  rfl
@[simp] theorem State.updChannel_engine (l : Loader) (f : Channel → Channel) (s : State) : (s.updChannel l f).engine = s.engine :=
  rfl
@[simp] theorem State.updChannel_pours (l : Loader) (f : Channel → Channel) (s : State) : (s.updChannel l f).pours = s.pours :=
  rfl
@[simp] theorem State.updChannel_ballast (l : Loader) (f : Channel → Channel) (s : State) : (s.updChannel l f).ballast = s.ballast :=
  rfl
@[simp] theorem State.updChannel_ship (l : Loader) (f : Channel → Channel) (s : State) : (s.updChannel l f).ship = s.ship :=
  rfl
@[simp] theorem State.updChannel_terminal (l : Loader) (f : Channel → Channel) (s : State) : (s.updChannel l f).terminal = s.terminal :=
  rfl
@[simp] theorem State.updChannel_field (l : Loader) (f : Channel → Channel) (s : State) : (s.updChannel l f).field = s.field :=
  rfl
@[simp] theorem State.updChannel_draws (l : Loader) (f : Channel → Channel) (s : State) : (s.updChannel l f).draws = s.draws :=
  rfl

@[simp] theorem State.updPour_pending (n : Nat) (f : Pour → Pour) (s : State) : (s.updPour n f).pending = s.pending :=
  rfl
@[simp] theorem State.updPour_powered (n : Nat) (f : Pour → Pour) (s : State) : (s.updPour n f).powered = s.powered :=
  rfl
@[simp] theorem State.updPour_pfail (n : Nat) (f : Pour → Pour) (s : State) : (s.updPour n f).pfail = s.pfail := rfl
@[simp] theorem State.updPour_clock (n : Nat) (f : Pour → Pour) (s : State) : (s.updPour n f).clock = s.clock := rfl
@[simp] theorem State.updPour_startUp (n : Nat) (f : Pour → Pour) (s : State) : (s.updPour n f).startUp = s.startUp :=
  rfl
@[simp] theorem State.updPour_holds (n : Nat) (f : Pour → Pour) (s : State) : (s.updPour n f).holds = s.holds := rfl
@[simp] theorem State.updPour_tanks (n : Nat) (f : Pour → Pour) (s : State) : (s.updPour n f).tanks = s.tanks := rfl
@[simp] theorem State.updPour_items (n : Nat) (f : Pour → Pour) (s : State) : (s.updPour n f).items = s.items := rfl
@[simp] theorem State.updPour_berth (n : Nat) (f : Pour → Pour) (s : State) : (s.updPour n f).berth = s.berth := rfl
@[simp] theorem State.updPour_settings (n : Nat) (f : Pour → Pour) (s : State) : (s.updPour n f).settings = s.settings :=
  rfl
@[simp] theorem State.updPour_engine (n : Nat) (f : Pour → Pour) (s : State) : (s.updPour n f).engine = s.engine :=
  rfl
@[simp] theorem State.updPour_ballast (n : Nat) (f : Pour → Pour) (s : State) : (s.updPour n f).ballast = s.ballast :=
  rfl
@[simp] theorem State.updPour_channels (n : Nat) (f : Pour → Pour) (s : State) : (s.updPour n f).channels = s.channels :=
  rfl
@[simp] theorem State.updPour_ship (n : Nat) (f : Pour → Pour) (s : State) : (s.updPour n f).ship = s.ship := rfl
@[simp] theorem State.updPour_terminal (n : Nat) (f : Pour → Pour) (s : State) : (s.updPour n f).terminal = s.terminal :=
  rfl
@[simp] theorem State.updPour_field (n : Nat) (f : Pour → Pour) (s : State) : (s.updPour n f).field = s.field := rfl
@[simp] theorem State.updPour_draws (n : Nat) (f : Pour → Pour) (s : State) : (s.updPour n f).draws = s.draws := rfl

@[simp] theorem State.updPour_pours_estimators (n : Nat) (f : Pour → Pour) (s : State) : (s.updPour n f).pours.estimators = s.pours.estimators :=
  rfl
@[simp] theorem State.updPour_pours_computationsOwed (n : Nat) (f : Pour → Pour) (s : State) : (s.updPour n f).pours.computationsOwed = s.pours.computationsOwed :=
  rfl

@[simp] theorem State.markDirty_pending (s : State) : (s.markDirty).pending = s.pending :=
  by unfold State.markDirty; split <;> rfl
@[simp] theorem State.markDirty_powered (s : State) : (s.markDirty).powered = s.powered :=
  by unfold State.markDirty; split <;> rfl
@[simp] theorem State.markDirty_pfail (s : State) : (s.markDirty).pfail = s.pfail :=
  by unfold State.markDirty; split <;> rfl
@[simp] theorem State.markDirty_clock (s : State) : (s.markDirty).clock = s.clock :=
  by unfold State.markDirty; split <;> rfl
@[simp] theorem State.markDirty_startUp (s : State) : (s.markDirty).startUp = s.startUp :=
  by unfold State.markDirty; split <;> rfl
@[simp] theorem State.markDirty_holds (s : State) : (s.markDirty).holds = s.holds :=
  by unfold State.markDirty; split <;> rfl
@[simp] theorem State.markDirty_tanks (s : State) : (s.markDirty).tanks = s.tanks :=
  by unfold State.markDirty; split <;> rfl
@[simp] theorem State.markDirty_items (s : State) : (s.markDirty).items = s.items :=
  by unfold State.markDirty; split <;> rfl
@[simp] theorem State.markDirty_berth (s : State) : (s.markDirty).berth = s.berth :=
  by unfold State.markDirty; split <;> rfl
@[simp] theorem State.markDirty_settings (s : State) : (s.markDirty).settings = s.settings :=
  by unfold State.markDirty; split <;> rfl
@[simp] theorem State.markDirty_pours (s : State) : (s.markDirty).pours = s.pours :=
  by unfold State.markDirty; split <;> rfl
@[simp] theorem State.markDirty_ballast (s : State) : (s.markDirty).ballast = s.ballast :=
  by unfold State.markDirty; split <;> rfl
@[simp] theorem State.markDirty_channels (s : State) : (s.markDirty).channels = s.channels :=
  by unfold State.markDirty; split <;> rfl
@[simp] theorem State.markDirty_ship (s : State) : (s.markDirty).ship = s.ship :=
  by unfold State.markDirty; split <;> rfl
@[simp] theorem State.markDirty_terminal (s : State) : (s.markDirty).terminal = s.terminal :=
  by unfold State.markDirty; split <;> rfl
@[simp] theorem State.markDirty_field (s : State) : (s.markDirty).field = s.field :=
  by unfold State.markDirty; split <;> rfl
@[simp] theorem State.markDirty_draws (s : State) : (s.markDirty).draws = s.draws :=
  by unfold State.markDirty; split <;> rfl

@[simp] theorem State.markDirty_engine_state (s : State) : (s.markDirty).engine.state = s.engine.state :=
  by unfold State.markDirty; split <;> rfl
@[simp] theorem State.markDirty_engine_live (s : State) : (s.markDirty).engine.live = s.engine.live :=
  by unfold State.markDirty; split <;> rfl
@[simp] theorem State.markDirty_engine_strengthFlag (s : State) : (s.markDirty).engine.strengthFlag = s.engine.strengthFlag :=
  by unfold State.markDirty; split <;> rfl
@[simp] theorem State.markDirty_engine_trial (s : State) : (s.markDirty).engine.trial = s.engine.trial :=
  by unfold State.markDirty; split <;> rfl
@[simp] theorem State.markDirty_engine_trialDone (s : State) : (s.markDirty).engine.trialDone = s.engine.trialDone :=
  by unfold State.markDirty; split <;> rfl

@[simp] theorem State.oweComputation_pending (s : State) : (s.oweComputation).pending = s.pending :=
  by unfold State.oweComputation; split <;> rfl
@[simp] theorem State.oweComputation_powered (s : State) : (s.oweComputation).powered = s.powered :=
  by unfold State.oweComputation; split <;> rfl
@[simp] theorem State.oweComputation_pfail (s : State) : (s.oweComputation).pfail = s.pfail :=
  by unfold State.oweComputation; split <;> rfl
@[simp] theorem State.oweComputation_clock (s : State) : (s.oweComputation).clock = s.clock :=
  by unfold State.oweComputation; split <;> rfl
@[simp] theorem State.oweComputation_startUp (s : State) : (s.oweComputation).startUp = s.startUp :=
  by unfold State.oweComputation; split <;> rfl
@[simp] theorem State.oweComputation_holds (s : State) : (s.oweComputation).holds = s.holds :=
  by unfold State.oweComputation; split <;> rfl
@[simp] theorem State.oweComputation_tanks (s : State) : (s.oweComputation).tanks = s.tanks :=
  by unfold State.oweComputation; split <;> rfl
@[simp] theorem State.oweComputation_items (s : State) : (s.oweComputation).items = s.items :=
  by unfold State.oweComputation; split <;> rfl
@[simp] theorem State.oweComputation_berth (s : State) : (s.oweComputation).berth = s.berth :=
  by unfold State.oweComputation; split <;> rfl
@[simp] theorem State.oweComputation_settings (s : State) : (s.oweComputation).settings = s.settings :=
  by unfold State.oweComputation; split <;> rfl
@[simp] theorem State.oweComputation_engine (s : State) : (s.oweComputation).engine = s.engine :=
  by unfold State.oweComputation; split <;> rfl
@[simp] theorem State.oweComputation_ballast (s : State) : (s.oweComputation).ballast = s.ballast :=
  by unfold State.oweComputation; split <;> rfl
@[simp] theorem State.oweComputation_channels (s : State) : (s.oweComputation).channels = s.channels :=
  by unfold State.oweComputation; split <;> rfl
@[simp] theorem State.oweComputation_ship (s : State) : (s.oweComputation).ship = s.ship :=
  by unfold State.oweComputation; split <;> rfl
@[simp] theorem State.oweComputation_terminal (s : State) : (s.oweComputation).terminal = s.terminal :=
  by unfold State.oweComputation; split <;> rfl
@[simp] theorem State.oweComputation_field (s : State) : (s.oweComputation).field = s.field :=
  by unfold State.oweComputation; split <;> rfl
@[simp] theorem State.oweComputation_draws (s : State) : (s.oweComputation).draws = s.draws :=
  by unfold State.oweComputation; split <;> rfl

@[simp] theorem State.oweComputation_pours_list (s : State) : (s.oweComputation).pours.list = s.pours.list :=
  by unfold State.oweComputation; split <;> rfl
@[simp] theorem State.oweComputation_pours_estimators (s : State) : (s.oweComputation).pours.estimators = s.pours.estimators :=
  by unfold State.oweComputation; split <;> rfl

/-- In READY a cause of computation adds one computation to those owed. -/
theorem State.oweComputation_adds_one {s : State} (h : s.ready = true) :
    s.oweComputation = { s with pours.computationsOwed := s.pours.computationsOwed + 1 } := by
  simp [State.oweComputation, h]

@[simp] theorem State.oweDerivation_pending (l : Loader) (s : State) : (s.oweDerivation l).pending = s.pending := rfl
@[simp] theorem State.oweDerivation_powered (l : Loader) (s : State) : (s.oweDerivation l).powered = s.powered := rfl
@[simp] theorem State.oweDerivation_pfail (l : Loader) (s : State) : (s.oweDerivation l).pfail = s.pfail := rfl
@[simp] theorem State.oweDerivation_clock (l : Loader) (s : State) : (s.oweDerivation l).clock = s.clock := rfl
@[simp] theorem State.oweDerivation_startUp (l : Loader) (s : State) : (s.oweDerivation l).startUp = s.startUp := rfl
@[simp] theorem State.oweDerivation_holds (l : Loader) (s : State) : (s.oweDerivation l).holds = s.holds := rfl
@[simp] theorem State.oweDerivation_tanks (l : Loader) (s : State) : (s.oweDerivation l).tanks = s.tanks := rfl
@[simp] theorem State.oweDerivation_items (l : Loader) (s : State) : (s.oweDerivation l).items = s.items := rfl
@[simp] theorem State.oweDerivation_berth (l : Loader) (s : State) : (s.oweDerivation l).berth = s.berth := rfl
@[simp] theorem State.oweDerivation_settings (l : Loader) (s : State) : (s.oweDerivation l).settings = s.settings :=
  rfl
@[simp] theorem State.oweDerivation_engine (l : Loader) (s : State) : (s.oweDerivation l).engine = s.engine := rfl
@[simp] theorem State.oweDerivation_pours (l : Loader) (s : State) : (s.oweDerivation l).pours = s.pours := rfl
@[simp] theorem State.oweDerivation_ballast (l : Loader) (s : State) : (s.oweDerivation l).ballast = s.ballast := rfl
@[simp] theorem State.oweDerivation_ship (l : Loader) (s : State) : (s.oweDerivation l).ship = s.ship := rfl
@[simp] theorem State.oweDerivation_terminal (l : Loader) (s : State) : (s.oweDerivation l).terminal = s.terminal :=
  rfl
@[simp] theorem State.oweDerivation_field (l : Loader) (s : State) : (s.oweDerivation l).field = s.field := rfl
@[simp] theorem State.oweDerivation_draws (l : Loader) (s : State) : (s.oweDerivation l).draws = s.draws := rfl

@[simp] theorem State.oweDerivations_pending (s : State) : (s.oweDerivations).pending = s.pending := rfl
@[simp] theorem State.oweDerivations_powered (s : State) : (s.oweDerivations).powered = s.powered := rfl
@[simp] theorem State.oweDerivations_pfail (s : State) : (s.oweDerivations).pfail = s.pfail := rfl
@[simp] theorem State.oweDerivations_clock (s : State) : (s.oweDerivations).clock = s.clock := rfl
@[simp] theorem State.oweDerivations_startUp (s : State) : (s.oweDerivations).startUp = s.startUp := rfl
@[simp] theorem State.oweDerivations_holds (s : State) : (s.oweDerivations).holds = s.holds := rfl
@[simp] theorem State.oweDerivations_tanks (s : State) : (s.oweDerivations).tanks = s.tanks := rfl
@[simp] theorem State.oweDerivations_items (s : State) : (s.oweDerivations).items = s.items := rfl
@[simp] theorem State.oweDerivations_berth (s : State) : (s.oweDerivations).berth = s.berth := rfl
@[simp] theorem State.oweDerivations_settings (s : State) : (s.oweDerivations).settings = s.settings := rfl
@[simp] theorem State.oweDerivations_engine (s : State) : (s.oweDerivations).engine = s.engine := rfl
@[simp] theorem State.oweDerivations_pours (s : State) : (s.oweDerivations).pours = s.pours := rfl
@[simp] theorem State.oweDerivations_ballast (s : State) : (s.oweDerivations).ballast = s.ballast := rfl
@[simp] theorem State.oweDerivations_ship (s : State) : (s.oweDerivations).ship = s.ship := rfl
@[simp] theorem State.oweDerivations_terminal (s : State) : (s.oweDerivations).terminal = s.terminal := rfl
@[simp] theorem State.oweDerivations_field (s : State) : (s.oweDerivations).field = s.field := rfl
@[simp] theorem State.oweDerivations_draws (s : State) : (s.oweDerivations).draws = s.draws := rfl

@[simp] theorem State.makeDue_pending (x : Slot) (s : State) : (s.makeDue x).pending = s.pending :=
  by unfold State.makeDue; split <;> rfl
@[simp] theorem State.makeDue_powered (x : Slot) (s : State) : (s.makeDue x).powered = s.powered :=
  by unfold State.makeDue; split <;> rfl
@[simp] theorem State.makeDue_pfail (x : Slot) (s : State) : (s.makeDue x).pfail = s.pfail :=
  by unfold State.makeDue; split <;> rfl
@[simp] theorem State.makeDue_clock (x : Slot) (s : State) : (s.makeDue x).clock = s.clock :=
  by unfold State.makeDue; split <;> rfl
@[simp] theorem State.makeDue_startUp (x : Slot) (s : State) : (s.makeDue x).startUp = s.startUp :=
  by unfold State.makeDue; split <;> rfl
@[simp] theorem State.makeDue_holds (x : Slot) (s : State) : (s.makeDue x).holds = s.holds :=
  by unfold State.makeDue; split <;> rfl
@[simp] theorem State.makeDue_tanks (x : Slot) (s : State) : (s.makeDue x).tanks = s.tanks :=
  by unfold State.makeDue; split <;> rfl
@[simp] theorem State.makeDue_items (x : Slot) (s : State) : (s.makeDue x).items = s.items :=
  by unfold State.makeDue; split <;> rfl
@[simp] theorem State.makeDue_berth (x : Slot) (s : State) : (s.makeDue x).berth = s.berth :=
  by unfold State.makeDue; split <;> rfl
@[simp] theorem State.makeDue_settings (x : Slot) (s : State) : (s.makeDue x).settings = s.settings :=
  by unfold State.makeDue; split <;> rfl
@[simp] theorem State.makeDue_engine (x : Slot) (s : State) : (s.makeDue x).engine = s.engine :=
  by unfold State.makeDue; split <;> rfl
@[simp] theorem State.makeDue_pours (x : Slot) (s : State) : (s.makeDue x).pours = s.pours :=
  by unfold State.makeDue; split <;> rfl
@[simp] theorem State.makeDue_ballast (x : Slot) (s : State) : (s.makeDue x).ballast = s.ballast :=
  by unfold State.makeDue; split <;> rfl
@[simp] theorem State.makeDue_channels (x : Slot) (s : State) : (s.makeDue x).channels = s.channels :=
  by unfold State.makeDue; split <;> rfl
@[simp] theorem State.makeDue_ship (x : Slot) (s : State) : (s.makeDue x).ship = s.ship :=
  by unfold State.makeDue; split <;> rfl
@[simp] theorem State.makeDue_field (x : Slot) (s : State) : (s.makeDue x).field = s.field :=
  by unfold State.makeDue; split <;> rfl
@[simp] theorem State.makeDue_draws (x : Slot) (s : State) : (s.makeDue x).draws = s.draws :=
  by unfold State.makeDue; split <;> rfl

@[simp] theorem State.makeDue_terminal_fifo (x : Slot) (s : State) : (s.makeDue x).terminal.fifo = s.terminal.fifo :=
  by unfold State.makeDue; split <;> rfl
@[simp] theorem State.makeDue_terminal_sending (x : Slot) (s : State) : (s.makeDue x).terminal.sending = s.terminal.sending :=
  by unfold State.makeDue; split <;> rfl
@[simp] theorem State.makeDue_terminal_lastClearance (x : Slot) (s : State) : (s.makeDue x).terminal.lastClearance = s.terminal.lastClearance :=
  by unfold State.makeDue; split <;> rfl
@[simp] theorem State.makeDue_terminal_lastFore (x : Slot) (s : State) : (s.makeDue x).terminal.lastFore = s.terminal.lastFore :=
  by unfold State.makeDue; split <;> rfl
@[simp] theorem State.makeDue_terminal_lastAft (x : Slot) (s : State) : (s.makeDue x).terminal.lastAft = s.terminal.lastAft :=
  by unfold State.makeDue; split <;> rfl
@[simp] theorem State.makeDue_terminal_noted (x : Slot) (s : State) : (s.makeDue x).terminal.noted = s.terminal.noted :=
  by unfold State.makeDue; split <;> rfl
@[simp] theorem State.makeDue_terminal_receiving (x : Slot) (s : State) : (s.makeDue x).terminal.receiving = s.terminal.receiving :=
  by unfold State.makeDue; split <;> rfl

@[simp] theorem State.placeCommand_pending (c : FieldCommand) (s : State) : (s.placeCommand c).pending = s.pending :=
  rfl
@[simp] theorem State.placeCommand_powered (c : FieldCommand) (s : State) : (s.placeCommand c).powered = s.powered :=
  rfl
@[simp] theorem State.placeCommand_pfail (c : FieldCommand) (s : State) : (s.placeCommand c).pfail = s.pfail := rfl
@[simp] theorem State.placeCommand_clock (c : FieldCommand) (s : State) : (s.placeCommand c).clock = s.clock := rfl
@[simp] theorem State.placeCommand_startUp (c : FieldCommand) (s : State) : (s.placeCommand c).startUp = s.startUp :=
  rfl
@[simp] theorem State.placeCommand_holds (c : FieldCommand) (s : State) : (s.placeCommand c).holds = s.holds := rfl
@[simp] theorem State.placeCommand_tanks (c : FieldCommand) (s : State) : (s.placeCommand c).tanks = s.tanks := rfl
@[simp] theorem State.placeCommand_items (c : FieldCommand) (s : State) : (s.placeCommand c).items = s.items := rfl
@[simp] theorem State.placeCommand_berth (c : FieldCommand) (s : State) : (s.placeCommand c).berth = s.berth := rfl
@[simp] theorem State.placeCommand_settings (c : FieldCommand) (s : State) : (s.placeCommand c).settings = s.settings :=
  rfl
@[simp] theorem State.placeCommand_engine (c : FieldCommand) (s : State) : (s.placeCommand c).engine = s.engine := rfl
@[simp] theorem State.placeCommand_pours (c : FieldCommand) (s : State) : (s.placeCommand c).pours = s.pours := rfl
@[simp] theorem State.placeCommand_ballast (c : FieldCommand) (s : State) : (s.placeCommand c).ballast = s.ballast :=
  rfl
@[simp] theorem State.placeCommand_channels (c : FieldCommand) (s : State) : (s.placeCommand c).channels = s.channels :=
  rfl
@[simp] theorem State.placeCommand_ship (c : FieldCommand) (s : State) : (s.placeCommand c).ship = s.ship := rfl
@[simp] theorem State.placeCommand_terminal (c : FieldCommand) (s : State) : (s.placeCommand c).terminal = s.terminal :=
  rfl
@[simp] theorem State.placeCommand_draws (c : FieldCommand) (s : State) : (s.placeCommand c).draws = s.draws := rfl

@[simp] theorem State.placeCommand_field_sending (c : FieldCommand) (s : State) : (s.placeCommand c).field.sending = s.field.sending :=
  rfl
@[simp] theorem State.placeCommand_field_live (c : FieldCommand) (s : State) : (s.placeCommand c).field.live = s.field.live :=
  rfl
@[simp] theorem State.placeCommand_field_lastFrame (c : FieldCommand) (s : State) : (s.placeCommand c).field.lastFrame = s.field.lastFrame :=
  rfl
@[simp] theorem State.placeCommand_field_receiving (c : FieldCommand) (s : State) : (s.placeCommand c).field.receiving = s.field.receiving :=
  rfl

@[simp] theorem State.placeReply_pending (r : NoticeReply) (s : State) : (s.placeReply r).pending = s.pending :=
  by unfold State.placeReply; split <;> rfl
@[simp] theorem State.placeReply_powered (r : NoticeReply) (s : State) : (s.placeReply r).powered = s.powered :=
  by unfold State.placeReply; split <;> rfl
@[simp] theorem State.placeReply_pfail (r : NoticeReply) (s : State) : (s.placeReply r).pfail = s.pfail :=
  by unfold State.placeReply; split <;> rfl
@[simp] theorem State.placeReply_clock (r : NoticeReply) (s : State) : (s.placeReply r).clock = s.clock :=
  by unfold State.placeReply; split <;> rfl
@[simp] theorem State.placeReply_startUp (r : NoticeReply) (s : State) : (s.placeReply r).startUp = s.startUp :=
  by unfold State.placeReply; split <;> rfl
@[simp] theorem State.placeReply_holds (r : NoticeReply) (s : State) : (s.placeReply r).holds = s.holds :=
  by unfold State.placeReply; split <;> rfl
@[simp] theorem State.placeReply_tanks (r : NoticeReply) (s : State) : (s.placeReply r).tanks = s.tanks :=
  by unfold State.placeReply; split <;> rfl
@[simp] theorem State.placeReply_items (r : NoticeReply) (s : State) : (s.placeReply r).items = s.items :=
  by unfold State.placeReply; split <;> rfl
@[simp] theorem State.placeReply_berth (r : NoticeReply) (s : State) : (s.placeReply r).berth = s.berth :=
  by unfold State.placeReply; split <;> rfl
@[simp] theorem State.placeReply_settings (r : NoticeReply) (s : State) : (s.placeReply r).settings = s.settings :=
  by unfold State.placeReply; split <;> rfl
@[simp] theorem State.placeReply_engine (r : NoticeReply) (s : State) : (s.placeReply r).engine = s.engine :=
  by unfold State.placeReply; split <;> rfl
@[simp] theorem State.placeReply_pours (r : NoticeReply) (s : State) : (s.placeReply r).pours = s.pours :=
  by unfold State.placeReply; split <;> rfl
@[simp] theorem State.placeReply_ballast (r : NoticeReply) (s : State) : (s.placeReply r).ballast = s.ballast :=
  by unfold State.placeReply; split <;> rfl
@[simp] theorem State.placeReply_channels (r : NoticeReply) (s : State) : (s.placeReply r).channels = s.channels :=
  by unfold State.placeReply; split <;> rfl
@[simp] theorem State.placeReply_ship (r : NoticeReply) (s : State) : (s.placeReply r).ship = s.ship :=
  by unfold State.placeReply; split <;> rfl
@[simp] theorem State.placeReply_field (r : NoticeReply) (s : State) : (s.placeReply r).field = s.field :=
  by unfold State.placeReply; split <;> rfl
@[simp] theorem State.placeReply_draws (r : NoticeReply) (s : State) : (s.placeReply r).draws = s.draws :=
  by unfold State.placeReply; split <;> rfl

@[simp] theorem State.placeReply_terminal_sending (r : NoticeReply) (s : State) : (s.placeReply r).terminal.sending = s.terminal.sending :=
  by unfold State.placeReply; split <;> rfl
@[simp] theorem State.placeReply_terminal_due (r : NoticeReply) (s : State) : (s.placeReply r).terminal.due = s.terminal.due :=
  by unfold State.placeReply; split <;> rfl
@[simp] theorem State.placeReply_terminal_lastClearance (r : NoticeReply) (s : State) : (s.placeReply r).terminal.lastClearance = s.terminal.lastClearance :=
  by unfold State.placeReply; split <;> rfl
@[simp] theorem State.placeReply_terminal_lastFore (r : NoticeReply) (s : State) : (s.placeReply r).terminal.lastFore = s.terminal.lastFore :=
  by unfold State.placeReply; split <;> rfl
@[simp] theorem State.placeReply_terminal_lastAft (r : NoticeReply) (s : State) : (s.placeReply r).terminal.lastAft = s.terminal.lastAft :=
  by unfold State.placeReply; split <;> rfl
@[simp] theorem State.placeReply_terminal_noted (r : NoticeReply) (s : State) : (s.placeReply r).terminal.noted = s.terminal.noted :=
  by unfold State.placeReply; split <;> rfl
@[simp] theorem State.placeReply_terminal_receiving (r : NoticeReply) (s : State) : (s.placeReply r).terminal.receiving = s.terminal.receiving :=
  by unfold State.placeReply; split <;> rfl

@[simp] theorem State.setEstimator_pending (l : Loader) (e : Estimator) (s : State) : (s.setEstimator l e).pending = s.pending := by
  unfold State.setEstimator; dsimp only; split <;> simp
@[simp] theorem State.setEstimator_powered (l : Loader) (e : Estimator) (s : State) : (s.setEstimator l e).powered = s.powered := by
  unfold State.setEstimator; dsimp only; split <;> simp
@[simp] theorem State.setEstimator_pfail (l : Loader) (e : Estimator) (s : State) : (s.setEstimator l e).pfail = s.pfail := by
  unfold State.setEstimator; dsimp only; split <;> simp
@[simp] theorem State.setEstimator_clock (l : Loader) (e : Estimator) (s : State) : (s.setEstimator l e).clock = s.clock := by
  unfold State.setEstimator; dsimp only; split <;> simp
@[simp] theorem State.setEstimator_startUp (l : Loader) (e : Estimator) (s : State) : (s.setEstimator l e).startUp = s.startUp := by
  unfold State.setEstimator; dsimp only; split <;> simp
@[simp] theorem State.setEstimator_holds (l : Loader) (e : Estimator) (s : State) : (s.setEstimator l e).holds = s.holds := by
  unfold State.setEstimator; dsimp only; split <;> simp
@[simp] theorem State.setEstimator_tanks (l : Loader) (e : Estimator) (s : State) : (s.setEstimator l e).tanks = s.tanks := by
  unfold State.setEstimator; dsimp only; split <;> simp
@[simp] theorem State.setEstimator_items (l : Loader) (e : Estimator) (s : State) : (s.setEstimator l e).items = s.items := by
  unfold State.setEstimator; dsimp only; split <;> simp
@[simp] theorem State.setEstimator_berth (l : Loader) (e : Estimator) (s : State) : (s.setEstimator l e).berth = s.berth := by
  unfold State.setEstimator; dsimp only; split <;> simp
@[simp] theorem State.setEstimator_settings (l : Loader) (e : Estimator) (s : State) : (s.setEstimator l e).settings = s.settings := by
  unfold State.setEstimator; dsimp only; split <;> simp
@[simp] theorem State.setEstimator_engine (l : Loader) (e : Estimator) (s : State) : (s.setEstimator l e).engine = s.engine := by
  unfold State.setEstimator; dsimp only; split <;> simp
@[simp] theorem State.setEstimator_ballast (l : Loader) (e : Estimator) (s : State) : (s.setEstimator l e).ballast = s.ballast := by
  unfold State.setEstimator; dsimp only; split <;> simp
@[simp] theorem State.setEstimator_channels (l : Loader) (e : Estimator) (s : State) : (s.setEstimator l e).channels = s.channels := by
  unfold State.setEstimator; dsimp only; split <;> simp
@[simp] theorem State.setEstimator_ship (l : Loader) (e : Estimator) (s : State) : (s.setEstimator l e).ship = s.ship := by
  unfold State.setEstimator; dsimp only; split <;> simp
@[simp] theorem State.setEstimator_terminal (l : Loader) (e : Estimator) (s : State) : (s.setEstimator l e).terminal = s.terminal := by
  unfold State.setEstimator; dsimp only; split <;> simp
@[simp] theorem State.setEstimator_field (l : Loader) (e : Estimator) (s : State) : (s.setEstimator l e).field = s.field := by
  unfold State.setEstimator; dsimp only; split <;> simp
@[simp] theorem State.setEstimator_draws (l : Loader) (e : Estimator) (s : State) : (s.setEstimator l e).draws = s.draws := by
  unfold State.setEstimator; dsimp only; split <;> simp
@[simp] theorem State.setEstimator_pours_list (l : Loader) (e : Estimator) (s : State) :
    (s.setEstimator l e).pours.list = s.pours.list := by
  unfold State.setEstimator; dsimp only; split <;> simp
@[simp] theorem State.setEstimator_pours_estimators (l : Loader) (e : Estimator) (s : State) :
    (s.setEstimator l e).pours.estimators = s.pours.estimators.put l e := by
  unfold State.setEstimator; dsimp only; split <;> simp

@[simp] theorem State.resetEstimator_pending (l : Loader) (s : State) : (s.resetEstimator l).pending = s.pending :=
  State.setEstimator_pending l _ s
@[simp] theorem State.resetEstimator_powered (l : Loader) (s : State) : (s.resetEstimator l).powered = s.powered :=
  State.setEstimator_powered l _ s
@[simp] theorem State.resetEstimator_pfail (l : Loader) (s : State) : (s.resetEstimator l).pfail = s.pfail :=
  State.setEstimator_pfail l _ s
@[simp] theorem State.resetEstimator_clock (l : Loader) (s : State) : (s.resetEstimator l).clock = s.clock :=
  State.setEstimator_clock l _ s
@[simp] theorem State.resetEstimator_startUp (l : Loader) (s : State) : (s.resetEstimator l).startUp = s.startUp :=
  State.setEstimator_startUp l _ s
@[simp] theorem State.resetEstimator_holds (l : Loader) (s : State) : (s.resetEstimator l).holds = s.holds :=
  State.setEstimator_holds l _ s
@[simp] theorem State.resetEstimator_tanks (l : Loader) (s : State) : (s.resetEstimator l).tanks = s.tanks :=
  State.setEstimator_tanks l _ s
@[simp] theorem State.resetEstimator_items (l : Loader) (s : State) : (s.resetEstimator l).items = s.items :=
  State.setEstimator_items l _ s
@[simp] theorem State.resetEstimator_berth (l : Loader) (s : State) : (s.resetEstimator l).berth = s.berth :=
  State.setEstimator_berth l _ s
@[simp] theorem State.resetEstimator_settings (l : Loader) (s : State) : (s.resetEstimator l).settings = s.settings :=
  State.setEstimator_settings l _ s
@[simp] theorem State.resetEstimator_engine (l : Loader) (s : State) : (s.resetEstimator l).engine = s.engine :=
  State.setEstimator_engine l _ s
@[simp] theorem State.resetEstimator_ballast (l : Loader) (s : State) : (s.resetEstimator l).ballast = s.ballast :=
  State.setEstimator_ballast l _ s
@[simp] theorem State.resetEstimator_channels (l : Loader) (s : State) : (s.resetEstimator l).channels = s.channels :=
  State.setEstimator_channels l _ s
@[simp] theorem State.resetEstimator_ship (l : Loader) (s : State) : (s.resetEstimator l).ship = s.ship :=
  State.setEstimator_ship l _ s
@[simp] theorem State.resetEstimator_terminal (l : Loader) (s : State) : (s.resetEstimator l).terminal = s.terminal :=
  State.setEstimator_terminal l _ s
@[simp] theorem State.resetEstimator_field (l : Loader) (s : State) : (s.resetEstimator l).field = s.field :=
  State.setEstimator_field l _ s
@[simp] theorem State.resetEstimator_draws (l : Loader) (s : State) : (s.resetEstimator l).draws = s.draws :=
  State.setEstimator_draws l _ s
@[simp] theorem State.resetEstimator_pours_list (l : Loader) (s : State) :
    (s.resetEstimator l).pours.list = s.pours.list :=
  State.setEstimator_pours_list l _ s

@[simp] theorem State.feedEstimator_pending (l : Loader) (n : Nat) (s : State) : (s.feedEstimator l n).pending = s.pending :=
  State.setEstimator_pending l _ s
@[simp] theorem State.feedEstimator_powered (l : Loader) (n : Nat) (s : State) : (s.feedEstimator l n).powered = s.powered :=
  State.setEstimator_powered l _ s
@[simp] theorem State.feedEstimator_pfail (l : Loader) (n : Nat) (s : State) : (s.feedEstimator l n).pfail = s.pfail :=
  State.setEstimator_pfail l _ s
@[simp] theorem State.feedEstimator_clock (l : Loader) (n : Nat) (s : State) : (s.feedEstimator l n).clock = s.clock :=
  State.setEstimator_clock l _ s
@[simp] theorem State.feedEstimator_startUp (l : Loader) (n : Nat) (s : State) : (s.feedEstimator l n).startUp = s.startUp :=
  State.setEstimator_startUp l _ s
@[simp] theorem State.feedEstimator_holds (l : Loader) (n : Nat) (s : State) : (s.feedEstimator l n).holds = s.holds :=
  State.setEstimator_holds l _ s
@[simp] theorem State.feedEstimator_tanks (l : Loader) (n : Nat) (s : State) : (s.feedEstimator l n).tanks = s.tanks :=
  State.setEstimator_tanks l _ s
@[simp] theorem State.feedEstimator_items (l : Loader) (n : Nat) (s : State) : (s.feedEstimator l n).items = s.items :=
  State.setEstimator_items l _ s
@[simp] theorem State.feedEstimator_berth (l : Loader) (n : Nat) (s : State) : (s.feedEstimator l n).berth = s.berth :=
  State.setEstimator_berth l _ s
@[simp] theorem State.feedEstimator_settings (l : Loader) (n : Nat) (s : State) : (s.feedEstimator l n).settings = s.settings :=
  State.setEstimator_settings l _ s
@[simp] theorem State.feedEstimator_engine (l : Loader) (n : Nat) (s : State) : (s.feedEstimator l n).engine = s.engine :=
  State.setEstimator_engine l _ s
@[simp] theorem State.feedEstimator_ballast (l : Loader) (n : Nat) (s : State) : (s.feedEstimator l n).ballast = s.ballast :=
  State.setEstimator_ballast l _ s
@[simp] theorem State.feedEstimator_channels (l : Loader) (n : Nat) (s : State) : (s.feedEstimator l n).channels = s.channels :=
  State.setEstimator_channels l _ s
@[simp] theorem State.feedEstimator_ship (l : Loader) (n : Nat) (s : State) : (s.feedEstimator l n).ship = s.ship :=
  State.setEstimator_ship l _ s
@[simp] theorem State.feedEstimator_terminal (l : Loader) (n : Nat) (s : State) : (s.feedEstimator l n).terminal = s.terminal :=
  State.setEstimator_terminal l _ s
@[simp] theorem State.feedEstimator_field (l : Loader) (n : Nat) (s : State) : (s.feedEstimator l n).field = s.field :=
  State.setEstimator_field l _ s
@[simp] theorem State.feedEstimator_draws (l : Loader) (n : Nat) (s : State) : (s.feedEstimator l n).draws = s.draws :=
  State.setEstimator_draws l _ s
@[simp] theorem State.feedEstimator_pours_list (l : Loader) (n : Nat) (s : State) :
    (s.feedEstimator l n).pours.list = s.pours.list :=
  State.setEstimator_pours_list l _ s

@[simp] theorem State.restartSilence_pending (s : State) : (s.restartSilence).pending = s.pending := rfl
@[simp] theorem State.restartSilence_powered (s : State) : (s.restartSilence).powered = s.powered := rfl
@[simp] theorem State.restartSilence_pfail (s : State) : (s.restartSilence).pfail = s.pfail := rfl
@[simp] theorem State.restartSilence_clock (s : State) : (s.restartSilence).clock = s.clock := rfl
@[simp] theorem State.restartSilence_startUp (s : State) : (s.restartSilence).startUp = s.startUp := rfl
@[simp] theorem State.restartSilence_holds (s : State) : (s.restartSilence).holds = s.holds := rfl
@[simp] theorem State.restartSilence_tanks (s : State) : (s.restartSilence).tanks = s.tanks := rfl
@[simp] theorem State.restartSilence_items (s : State) : (s.restartSilence).items = s.items := rfl
@[simp] theorem State.restartSilence_berth (s : State) : (s.restartSilence).berth = s.berth := rfl
@[simp] theorem State.restartSilence_settings (s : State) : (s.restartSilence).settings = s.settings := rfl
@[simp] theorem State.restartSilence_engine (s : State) : (s.restartSilence).engine = s.engine := rfl
@[simp] theorem State.restartSilence_pours (s : State) : (s.restartSilence).pours = s.pours := rfl
@[simp] theorem State.restartSilence_ballast (s : State) : (s.restartSilence).ballast = s.ballast := rfl
@[simp] theorem State.restartSilence_channels (s : State) : (s.restartSilence).channels = s.channels := rfl
@[simp] theorem State.restartSilence_ship (s : State) : (s.restartSilence).ship = s.ship := rfl
@[simp] theorem State.restartSilence_terminal (s : State) : (s.restartSilence).terminal = s.terminal := rfl
@[simp] theorem State.restartSilence_draws (s : State) : (s.restartSilence).draws = s.draws := rfl

@[simp] theorem State.restartSilence_field_outbound (s : State) : (s.restartSilence).field.outbound = s.field.outbound :=
  rfl
@[simp] theorem State.restartSilence_field_sending (s : State) : (s.restartSilence).field.sending = s.field.sending :=
  rfl
@[simp] theorem State.restartSilence_field_receiving (s : State) : (s.restartSilence).field.receiving = s.field.receiving :=
  rfl

@[simp] theorem State.setTrial_pending (t : Option Trial) (s : State) : (s.setTrial t).pending = s.pending := rfl
@[simp] theorem State.setTrial_powered (t : Option Trial) (s : State) : (s.setTrial t).powered = s.powered := rfl
@[simp] theorem State.setTrial_pfail (t : Option Trial) (s : State) : (s.setTrial t).pfail = s.pfail := rfl
@[simp] theorem State.setTrial_clock (t : Option Trial) (s : State) : (s.setTrial t).clock = s.clock := rfl
@[simp] theorem State.setTrial_startUp (t : Option Trial) (s : State) : (s.setTrial t).startUp = s.startUp := rfl
@[simp] theorem State.setTrial_holds (t : Option Trial) (s : State) : (s.setTrial t).holds = s.holds := rfl
@[simp] theorem State.setTrial_tanks (t : Option Trial) (s : State) : (s.setTrial t).tanks = s.tanks := rfl
@[simp] theorem State.setTrial_items (t : Option Trial) (s : State) : (s.setTrial t).items = s.items := rfl
@[simp] theorem State.setTrial_berth (t : Option Trial) (s : State) : (s.setTrial t).berth = s.berth := rfl
@[simp] theorem State.setTrial_settings (t : Option Trial) (s : State) : (s.setTrial t).settings = s.settings := rfl
@[simp] theorem State.setTrial_pours (t : Option Trial) (s : State) : (s.setTrial t).pours = s.pours := rfl
@[simp] theorem State.setTrial_ballast (t : Option Trial) (s : State) : (s.setTrial t).ballast = s.ballast := rfl
@[simp] theorem State.setTrial_channels (t : Option Trial) (s : State) : (s.setTrial t).channels = s.channels := rfl
@[simp] theorem State.setTrial_ship (t : Option Trial) (s : State) : (s.setTrial t).ship = s.ship := rfl
@[simp] theorem State.setTrial_terminal (t : Option Trial) (s : State) : (s.setTrial t).terminal = s.terminal := rfl
@[simp] theorem State.setTrial_field (t : Option Trial) (s : State) : (s.setTrial t).field = s.field := rfl
@[simp] theorem State.setTrial_draws (t : Option Trial) (s : State) : (s.setTrial t).draws = s.draws := rfl

@[simp] theorem State.setTrial_engine_state (t : Option Trial) (s : State) : (s.setTrial t).engine.state = s.engine.state :=
  rfl
@[simp] theorem State.setTrial_engine_dirty (t : Option Trial) (s : State) : (s.setTrial t).engine.dirty = s.engine.dirty :=
  rfl
@[simp] theorem State.setTrial_engine_live (t : Option Trial) (s : State) : (s.setTrial t).engine.live = s.engine.live :=
  rfl
@[simp] theorem State.setTrial_engine_strengthFlag (t : Option Trial) (s : State) : (s.setTrial t).engine.strengthFlag = s.engine.strengthFlag :=
  rfl
@[simp] theorem State.setTrial_engine_trialDone (t : Option Trial) (s : State) : (s.setTrial t).engine.trialDone = s.engine.trialDone :=
  rfl

end Sys2Proof.Machine
end

