-- ==== Sys2Proof/Laws/Ballast.lean ====
section
/-! SUPPORT. What the operations of the Ballast Sequencer can do: they change its own records, the outbound list and the
count of free choices, and nothing else; the outbound list keeps one command for each target. -/

namespace Sys2Proof.Machine

/-! ### The outbound list -/

theorem sameTarget_comm (a b : FieldCommand) : a.sameTarget b = b.sameTarget a := by
  cases a <;> cases b <;> simp [FieldCommand.sameTarget, eq_comm]

theorem sameTarget_trans {a b c : FieldCommand} (h : a.sameTarget b = true) :
    a.sameTarget c = b.sameTarget c := by
  cases a <;> cases b <;> cases c <;> simp_all [FieldCommand.sameTarget]

theorem placeIn_distinct (c : FieldCommand) (l : List FieldCommand) (h : l.Pairwise distinctTargets) :
    (placeIn c l).Pairwise distinctTargets := by
  unfold placeIn
  split
  · rw [List.pairwise_map]
    refine h.imp ?_
    intro a b hab
    unfold distinctTargets at *
    split <;> split <;> rename_i h1 h2
    · rw [← sameTarget_trans h1, h2] at hab
      exact absurd hab (by simp)
    · simpa using h2
    · rw [sameTarget_comm]
      simpa using h1
    · exact hab
  · rename_i hn
    rw [List.pairwise_append]
    refine ⟨h, by simp, ?_⟩
    intro a ha b hb
    simp only [List.mem_singleton] at hb
    subst hb
    unfold distinctTargets
    rw [sameTarget_comm]
    by_contra hc
    exact hn (List.any_eq_true.2 ⟨a, ha, by simpa using hc⟩)

/-! ### The frame -/

/-- From `s` to `t` only the Ballast Sequencer, the outbound list and the count of free choices may have changed; the
lists keep their lengths and the outbound list its distinct targets. -/
structure BallastFrame (s t : State) : Prop where
  rest : t = { s with ballast := t.ballast, field := { s.field with outbound := t.field.outbound }, draws := t.draws }
  outbound : s.OutboundOk → t.OutboundOk
  shape : t.ballast.shape = s.ballast.shape

theorem BallastFrame.refl (s : State) : BallastFrame s s := ⟨rfl, id, rfl⟩

theorem BallastFrame.trans {s t u : State} (h : BallastFrame s t) (k : BallastFrame t u) : BallastFrame s u := by
  refine ⟨?_, k.outbound ∘ h.outbound, k.shape.trans h.shape⟩
  have h1 := h.rest
  have k1 := k.rest
  rw [h1] at k1
  exact k1

theorem BallastFrame.ite {s t u : State} {p : Prop} [Decidable p] (h : BallastFrame s t) (k : BallastFrame s u) :
    BallastFrame s (if p then t else u) := by
  split <;> assumption

theorem BallastFrame.foldl {α : Type} {f : State → α → State} (h : ∀ s a, BallastFrame s (f s a)) (l : List α)
    (s : State) : BallastFrame s (l.foldl f s) := by
  induction l generalizing s with
  | nil => exact .refl s
  | cons a l ih => exact (h s a).trans (ih _)

theorem BallastFrame.draw (s : State) (n : Nat) : BallastFrame s { s with draws := n } := ⟨rfl, id, rfl⟩

theorem BallastFrame.unordered {α : Type} {acts : α → State → Bool} {f : α → State → State}
    (h : ∀ a s, BallastFrame s (f a s)) (l : List α) (s : State) : BallastFrame s (unordered acts f l s) := by
  unfold Machine.unordered
  split
  · exact .foldl (fun s a => h a s) l s
  · exact (BallastFrame.draw s _).trans (.foldl (fun s a => h a s) _ _)

@[simp] theorem modify1_length {α : Type} (l : List α) (n : Nat) (f : α → α) : (modify1 l n f).length = l.length := by
  unfold modify1
  split <;> simp

theorem setOrder_frame (n : Nat) (o : Option Order) (s : State) : BallastFrame s (s.setOrder n o) :=
  ⟨rfl, id, by simp [State.setOrder, Sequencer.shape]⟩

theorem updOrder_frame (n : Nat) (f : Order → Order) (s : State) : BallastFrame s (s.updOrder n f) :=
  ⟨rfl, id, by simp [State.updOrder, Sequencer.shape]⟩

theorem setQueue_frame (g : Nat) (q : List Nat) (s : State) : BallastFrame s (s.setQueue g q) :=
  ⟨rfl, id, by simp [State.setQueue, Sequencer.shape]⟩

theorem updStation_frame (g : Nat) (f : Station → Station) (s : State) : BallastFrame s (s.updStation g f) :=
  ⟨rfl, id, by simp [State.updStation, Sequencer.shape]⟩

theorem updValve_frame (v : ValveId) (f : Valve → Valve) (s : State) : BallastFrame s (s.updValve v f) := by
  cases v <;> exact ⟨rfl, id, by simp [State.updValve, Sequencer.shape]⟩

theorem sequencerState_frame (x : SequencerState) (s : State) : BallastFrame s { s with ballast.state := x } :=
  ⟨rfl, id, rfl⟩

theorem kept_frame (x : List (Second × KeptChange)) (s : State) : BallastFrame s { s with ballast.kept := x } :=
  ⟨rfl, id, rfl⟩

theorem placeCommand_frame (c : FieldCommand) (s : State) : BallastFrame s (s.placeCommand c) :=
  ⟨rfl, placeIn_distinct c _, rfl⟩

/-! ### Commands and ownership -/

theorem sendValve_frame (v : ValveId) (p : ValveCommand) (s : State) : BallastFrame s (s.sendValve v p) :=
  (updValve_frame _ _ _).trans (placeCommand_frame _ _)

theorem commandValve_frame (v : ValveId) (p : ValveCommand) (s : State) : BallastFrame s (s.commandValve v p) :=
  .ite (.refl s) (sendValve_frame _ _ _)

theorem sendPump_frame (g : Nat) (c : PumpCommand) (s : State) : BallastFrame s (s.sendPump g c) :=
  (updStation_frame _ _ _).trans (placeCommand_frame _ _)

theorem commandPump_frame (g : Nat) (c : PumpCommand) (s : State) : BallastFrame s (s.commandPump g c) :=
  .ite (.refl s) (sendPump_frame _ _ _)

theorem ownTank_frame (g t : Nat) (s : State) : BallastFrame s (s.ownTank g t) := updValve_frame _ _ _

theorem releaseIfShut_frame (t : Nat) (s : State) : BallastFrame s (s.releaseIfShut t) := by
  unfold State.releaseIfShut
  split
  · exact .ite ((updValve_frame _ _ _).trans (updStation_frame _ _ _)) (.refl s)
  · exact .refl s

theorem shutTank_frame (t : Nat) (s : State) : BallastFrame s (s.shutTank t) :=
  (commandValve_frame _ _ _).trans (releaseIfShut_frame _ _)

theorem shutTanks_frame (ts : List Nat) (s : State) : BallastFrame s (ts.foldl (fun s t => s.shutTank t) s) :=
  .foldl (fun s t => shutTank_frame t s) ts s

/-! ### Orders and queues -/

theorem scan_frame (g : Nat) (s : State) : BallastFrame s (s.scan g) := by
  unfold State.scan
  have h := ((BallastFrame.foldl (fun s t => updOrder_frame t (Order.complete .met) s)
    (s.scanQueue (s.queue g)).1 s).trans
      (setQueue_frame g (s.scanQueue (s.queue g)).2.2 _)).trans
        (updStation_frame g (fun st => { st with
          doneFlag := st.doneFlag || !(s.scanQueue (s.queue g)).1.isEmpty
          active := (s.scanQueue (s.queue g)).2.1 }) _)
  dsimp only
  split
  · exact h.trans (updOrder_frame _ _ _)
  · exact h

theorem returnOrder_frame (g : Nat) (c : HoldCause) (s : State) : BallastFrame s (s.returnOrder g c) := by
  unfold State.returnOrder
  split
  · exact ((updOrder_frame _ _ _).trans (setQueue_frame _ _ _)).trans (updStation_frame _ _ _)
  · exact .refl s

theorem moveOrder_frame (t h : Nat) (s : State) : BallastFrame s (s.moveOrder t h) :=
  (setQueue_frame _ _ _).trans (updOrder_frame _ _ _)

theorem reroute_frame (g : Nat) (s : State) : BallastFrame s (s.reroute g) := by
  unfold State.reroute
  refine (setQueue_frame _ _ _).trans (.foldl (fun s' t => ?_) _ _)
  split
  · exact moveOrder_frame _ _ _
  · exact .refl _

/-! ### Station transitions -/

theorem addClosing_frame (g t : Nat) (s : State) : BallastFrame s (s.addClosing g t) := updStation_frame _ _ _

theorem enterRundown_frame (g : Nat) (s : State) : BallastFrame s (s.enterRundown g) :=
  (commandPump_frame _ _ _).trans (updStation_frame _ _ _)

theorem closingTest_frame (g : Nat) (s : State) : BallastFrame s (s.closingTest g) :=
  .ite (updStation_frame _ _ _) (.refl s)

theorem enterClosing_frame (g : Nat) (s : State) : BallastFrame s (s.enterClosing g) := by
  unfold State.enterClosing
  dsimp only
  have line (v : ValveId) (s' : State) :
      BallastFrame s' (if (s.station g).resuming = true then s'.sendValve v .shut else s'.commandValve v .shut) :=
    .ite (sendValve_frame _ _ _) (commandValve_frame _ _ _)
  exact ((((updStation_frame _ _ _).trans (line _ _)).trans (line _ _)).trans (shutTanks_frame _ _)).trans
    (closingTest_frame _ _)

theorem enterLineup_frame (g t : Nat) (s : State) : BallastFrame s (s.enterLineup g t) :=
  ((((updStation_frame _ _ _).trans (commandValve_frame _ _ _)).trans (commandValve_frame _ _ _)).trans
    (commandValve_frame _ _ _)).trans (ownTank_frame _ _ _)

theorem look_frame (g : Nat) (s : State) : BallastFrame s (s.look g) := by
  unfold State.look
  split
  · dsimp only
    split
    · exact (scan_frame _ _).trans (enterLineup_frame _ _ _)
    · exact scan_frame _ _
  · exact .refl s

theorem enterChangeover_frame (g t : Nat) (s : State) : BallastFrame s (s.enterChangeover g t) := by
  unfold State.enterChangeover
  have h := (updStation_frame g (fun st => { st with active := none, lowSince := none }) s).trans
    (addClosing_frame g t _)
  dsimp only
  split
  · split
    · have k := ((h.trans (scan_frame g _)).trans
        (updStation_frame g (fun st => { st with state := .changeover }) _)).trans
          ((commandValve_frame (.tank ‹Nat›) .opened _).trans (ownTank_frame g ‹Nat› _))
      exact .ite (k.trans (shutTanks_frame _ _)) k
    · exact (h.trans (scan_frame g _)).trans (enterRundown_frame _ _)
  · exact h.trans (enterRundown_frame _ _)

theorem completeOrder_frame (g : Nat) (c : Completion) (s : State) : BallastFrame s (s.completeOrder g c) := by
  unfold State.completeOrder
  split
  · exact ((updOrder_frame _ _ _).trans (updStation_frame _ _ _)).trans (enterChangeover_frame _ _ _)
  · exact .refl s

theorem interrupt_frame (g : Nat) (c : HoldCause) (s : State) : BallastFrame s (s.interrupt g c) := by
  unfold State.interrupt
  split
  · exact ((returnOrder_frame _ _ _).trans (updStation_frame _ _ _)).trans (enterChangeover_frame _ _ _)
  · exact .refl s

theorem restartWatch_frame (g : Nat) (s : State) : BallastFrame s (s.restartWatch g) := updStation_frame _ _ _

theorem enterStrip_frame (g : Nat) (s : State) : BallastFrame s (s.enterStrip g) :=
  ((commandPump_frame _ _ _).trans (updStation_frame _ _ _)).trans (restartWatch_frame _ _)

theorem enterDischarge_frame (g : Nat) (s : State) : BallastFrame s (s.enterDischarge g) := by
  unfold State.enterDischarge
  have h := (updStation_frame g (fun st => { st with state := .discharge, deadline := none }) s).trans
    (restartWatch_frame g _)
  dsimp only
  split
  · exact .ite (h.trans (completeOrder_frame _ _ _)) (.ite (h.trans (interrupt_frame _ _ _))
      (.ite (h.trans (interrupt_frame _ _ _)) (.ite (h.trans (enterStrip_frame _ _)) h)))
  · exact h

theorem trip_frame (g : Nat) (c : TripCause) (s : State) : BallastFrame s (s.trip g c) := by
  unfold State.trip
  exact (((((((updStation_frame _ _ _).trans (commandPump_frame _ _ _)).trans (commandValve_frame _ _ _)).trans
    (commandValve_frame _ _ _)).trans (returnOrder_frame _ _ _)).trans (updStation_frame _ _ _)).trans
      (shutTanks_frame _ _)).trans (reroute_frame _ _)

theorem tripWorking_frame (g : Nat) (c : TripCause) (s : State) : BallastFrame s (s.tripWorking g c) :=
  .ite (trip_frame _ _ _) (.ite (updStation_frame _ _ _) (.refl s))

theorem enterLocal_frame (g : Nat) (s : State) : BallastFrame s (s.enterLocal g) := by
  unfold State.enterLocal
  exact (((((returnOrder_frame _ _ _).trans (.foldl (fun s t => updValve_frame _ _ s) _ _)).trans
    (updValve_frame _ _ _)).trans (updValve_frame _ _ _)).trans (updStation_frame _ _ _)).trans (reroute_frame _ _)

theorem leaveLocal_frame (g : Nat) (s : State) : BallastFrame s (s.leaveLocal g) := by
  unfold State.leaveLocal
  have h := (sendPump_frame g .stop s).trans
    (updStation_frame g (fun st => { st with
      state := .stopping .rundown, deadline := some (later s.clock st.rundown), resuming := true
      localFlag := true }) _)
  exact .ite (h.trans (sequencerState_frame _ _)) h

theorem orderGone_frame (g t : Nat) (s : State) : BallastFrame s (s.orderGone g t) := by
  unfold State.orderGone
  have h := (updStation_frame g (fun st => { st with active := none }) s).trans (addClosing_frame g t _)
  split
  · exact h.trans (enterClosing_frame _ _)
  · exact h.trans (enterRundown_frame _ _)
  · exact h.trans (enterRundown_frame _ _)
  · exact enterChangeover_frame _ _ _
  · exact enterChangeover_frame _ _ _
  · exact .refl s

theorem haltStation_frame (g : Nat) (s : State) : BallastFrame s (s.haltStation g) := by
  unfold State.haltStation
  have h (t : Nat) := (returnOrder_frame g .halt s).trans (addClosing_frame g t _)
  split
  · exact (h _).trans (enterClosing_frame _ _)
  all_goals first
    | exact (h _).trans (enterRundown_frame _ _)
    | exact .refl s

/-! ### Reports and deadlines -/

theorem lineupTest_frame (g : Nat) (s : State) : BallastFrame s (s.lineupTest g) :=
  .ite ((commandPump_frame _ _ _).trans (updStation_frame _ _ _)) (.refl s)

theorem changeoverTest_frame (g : Nat) (s : State) : BallastFrame s (s.changeoverTest g) :=
  .ite (.ite ((commandPump_frame _ _ _).trans (enterDischarge_frame _ _)) (trip_frame _ _ _)) (.refl s)

theorem valveConfirmed_frame (v : ValveId) (s : State) : BallastFrame s (s.valveConfirmed v) := by
  unfold State.valveConfirmed
  split
  · exact .refl s
  · split
    · exact .ite (((releaseIfShut_frame _ _).trans (changeoverTest_frame _ _)).trans (closingTest_frame _ _))
        (.ite (shutTanks_frame _ _) (lineupTest_frame _ _))
    · exact (lineupTest_frame _ _).trans (closingTest_frame _ _)

theorem valveReport_frame (v : ValveId) (p : ValveReported) (s : State) : BallastFrame s (s.valveReport v p) := by
  unfold State.valveReport
  refine .ite ((updValve_frame _ _ _).trans (valveConfirmed_frame _ _)) (.ite ?_ (updValve_frame _ _ _))
  dsimp only
  split
  · exact (updValve_frame _ _ _).trans (tripWorking_frame _ _ _)
  · exact updValve_frame _ _ _

theorem travelTimeout_frame (v : ValveId) (s : State) : BallastFrame s (s.travelTimeout v) := by
  unfold State.travelTimeout
  dsimp only
  split
  · exact (updValve_frame _ _ _).trans (tripWorking_frame _ _ _)
  · exact updValve_frame _ _ _

theorem pumpReport_frame (g : Nat) (p : PumpReport) (s : State) : BallastFrame s (s.pumpReport g p) := by
  unfold State.pumpReport
  have h := updStation_frame g (fun st => { st with pumpReported := PumpReport.reported p }) s
  dsimp only
  split <;> first
    | exact h.trans (trip_frame _ _ _)
    | exact h.trans (tripWorking_frame _ _ _)
    | exact h

theorem primingEnds_frame (g : Nat) (s : State) : BallastFrame s (s.primingEnds g) := by
  unfold State.primingEnds
  have h := updStation_frame g (fun st => { st with deadline := none }) s
  exact .ite (h.trans (enterDischarge_frame _ _)) (h.trans (trip_frame _ _ _))

theorem rundownEnds_frame (g : Nat) (s : State) : BallastFrame s (s.rundownEnds g) := by
  unfold State.rundownEnds
  have h := updStation_frame g (fun st => { st with deadline := none }) s
  exact .ite (h.trans (enterClosing_frame _ _)) (h.trans (trip_frame _ _ _))

theorem watchRate_frame (g : Nat) (s : State) : BallastFrame s (s.watchRate g) := updStation_frame _ _ _

theorem dryRunActs_frame (g : Nat) (s : State) : BallastFrame s (s.dryRunActs g) :=
  .ite (.ite (trip_frame _ _ _) (completeOrder_frame _ _ _)) (.refl s)

/-! ### Changes handed on -/

theorem feedStation_frame (g m : Nat) (s : State) : BallastFrame s (s.feedStation g m) := by
  unfold State.feedStation
  dsimp only
  refine .ite ?_ (.refl s)
  exact .ite ((updStation_frame _ _ _).trans (watchRate_frame _ _)) (updStation_frame _ _ _)

theorem completionCheck_frame (g t : Nat) (s : State) : BallastFrame s (s.completionCheck g t) :=
  .ite (completeOrder_frame _ _ _) (.refl s)

theorem ballastSounding_frame (t : Nat) (s : State) : BallastFrame s (s.ballastSounding t) :=
  .foldl (fun s g => (feedStation_frame g _ s).trans (completionCheck_frame g t _)) _ s

theorem ballastPutMass_frame (t : Nat) (s : State) : BallastFrame s (s.ballastPutMass t) :=
  .foldl (fun s g => completionCheck_frame g t s) _ s

theorem ballastStale_frame (t : Nat) (s : State) : BallastFrame s (s.ballastStale t) :=
  .foldl (fun s g => .ite (interrupt_frame g .stale s) (.refl s)) _ s

theorem ballastBelow_frame (t : Nat) (s : State) : BallastFrame s (s.ballastBelow t) :=
  .foldl (fun s g => .ite (enterStrip_frame g s) (.refl s)) _ s

theorem ballastPublication_frame (r : ResultSet) (s : State) : BallastFrame s (s.ballastPublication r) :=
  .unordered (fun g s => .ite (interrupt_frame g .stress s) (.refl s)) _ s

theorem haltTest_frame (s : State) : BallastFrame s s.haltTest := .ite (sequencerState_frame _ _) (.refl s)

theorem settle_frame (all : Bool) (before s : State) : BallastFrame s (s.settle all before) :=
  (haltTest_frame s).trans (.unordered (fun g s => look_frame g s) _ _)

theorem handBallast_frame (c : KeptChange) {act : State → State} (h : ∀ s, BallastFrame s (act s)) (s : State) :
    BallastFrame s (s.handBallast c act) :=
  .ite (kept_frame _ s) ((h s).trans (settle_frame _ _ _))

theorem keptChange_frame (c : KeptChange) (s : State) : BallastFrame s (c.act s) := by
  cases c
  · exact ballastPublication_frame _ _
  · exact ballastStale_frame _ _
  · exact ballastBelow_frame _ _

theorem stateTimerEnds_frame (g : Nat) (s : State) : BallastFrame s (s.stateTimerEnds g) := by
  unfold State.stateTimerEnds
  split
  · exact primingEnds_frame _ _
  · exact rundownEnds_frame _ _
  · exact .refl s

theorem deferredEvent_frame (e : DeferredEvent) (s : State) : BallastFrame s (e.act s) := by
  cases e
  · exact .ite ((travelTimeout_frame _ _).trans (settle_frame _ _ _)) (.refl s)
  · exact .ite ((stateTimerEnds_frame _ _).trans (settle_frame _ _ _)) (.refl s)
  · exact (keptChange_frame _ _).trans (settle_frame _ _ _)

theorem takeDeferred_frame (s : State) : BallastFrame s s.takeDeferred := by
  unfold State.takeDeferred
  have h (n : Nat) : BallastFrame s { s with ballast.kept := [], draws := n } := ⟨rfl, id, rfl⟩
  exact (h _).trans (.foldl (fun s e => deferredEvent_frame e s) _ _)

/-! ### Looks, intervals and requests of the Ballast Sequencer -/

theorem linkLost_frame (s : State) : BallastFrame s s.linkLost :=
  (BallastFrame.unordered (fun g s => tripWorking_frame g .linkLost s) _ s).trans (settle_frame _ _ _)

theorem applyDryRun_frame (g : Nat) (s : State) : BallastFrame s (s.applyDryRun g) :=
  .ite (((watchRate_frame _ _).trans (dryRunActs_frame _ _)).trans (settle_frame _ _ _)) (.refl s)

theorem enterOrder_frame (t : Nat) (ps : List Pair) (s : State) : BallastFrame s (s.enterOrder t ps) :=
  .ite (((setOrder_frame _ _ _).trans (setQueue_frame _ _ _)).trans (settle_frame _ _ _)) (setOrder_frame _ _ _)

theorem amendOrder_frame (t : Nat) (o : Order) (ps : List Pair) (s : State) :
    BallastFrame s (s.amendOrder t o ps) := by
  unfold State.amendOrder
  split
  · exact .refl s
  · exact .ite (((updOrder_frame _ _ _).trans (look_frame _ _)).trans (settle_frame _ _ _)) (updOrder_frame _ _ _)

theorem removeOrder_frame (t : Nat) (o : Order) (s : State) : BallastFrame s (s.removeOrder t o) :=
  (setQueue_frame _ _ _).trans (setOrder_frame _ _ _)

theorem retireActive_frame (t : Nat) (s : State) : BallastFrame s (s.retireActive t) :=
  ((setOrder_frame _ _ _).trans (.foldl (fun s g => orderGone_frame g t s) _ _)).trans (settle_frame _ _ _)

theorem runSequencer_frame (s : State) : BallastFrame s s.runSequencer :=
  .ite (.refl s) ((sequencerState_frame _ _).trans (settle_frame _ _ _))

theorem haltSequencer_frame (s : State) : BallastFrame s s.haltSequencer :=
  ((sequencerState_frame _ _).trans (.unordered (fun g s => haltStation_frame g s) _ _)).trans (settle_frame _ _ _)

theorem switchReport_frame (g : Nat) (p : SwitchPosition) (s : State) : BallastFrame s (s.switchReport g p) :=
  .ite ((updStation_frame _ _ _).trans (enterLocal_frame _ _))
    (.ite ((updStation_frame _ _ _).trans (leaveLocal_frame _ _)) (updStation_frame _ _ _))

end Sys2Proof.Machine
end

