-- ==== Sys2Proof/Laws/Operations.lean ====
section
/-! SUPPORT. What each shared operation can do, said once: numbered lists, free orders, requests, Puts, notices, field
frames, derivations and computations. -/

namespace Sys2Proof.Machine

/-! ### Numbered lists and ranges -/

/-- Changing element `n` changes what is read at `n` and nothing else. -/
theorem nth1_modify1 {α : Type} (l : List α) (n m : Nat) (f : α → α) :
    nth1 (modify1 l n f) m = if m = n then (nth1 l m).map f else nth1 l m := by
  cases n <;> cases m <;> simp [nth1, modify1, List.getElem?_modify]
  rename_i n m
  by_cases h : m = n
  · simp [h]
  · simp [h, Ne.symm h]

/-- A clamped value lies in the range. -/
theorem clamp_mem {lo hi : Nat} (h : lo ≤ hi) (v : Int) : lo ≤ clamp lo hi v ∧ clamp lo hi v ≤ hi := by
  unfold clamp; split
  · omega
  · split <;> omega

/-- A value of the range is stored as it is. -/
theorem clamp_of_mem {lo hi : Nat} {v : Int} (h : (lo : Int) ≤ v ∧ v ≤ hi) : (clamp lo hi v : Int) = v := by
  unfold clamp; split
  · omega
  · split <;> omega

/-! ### Free orders -/

/-- Every number stands for an order of the same parties. -/
theorem permute_perm {α : Type} (n k : Nat) (l : List α) : (permute n k l).Perm l := by
  induction n generalizing k l with
  | zero => exact List.Perm.refl _
  | succ n ih =>
    unfold permute
    split
    · rename_i a h
      obtain ⟨hk, rfl⟩ := List.getElem?_eq_some_iff.mp h
      exact ((ih _ _).cons _).trans (List.getElem_cons_eraseIdx_perm hk)
    · exact List.Perm.refl _

/-- What each party keeps and drawing an order keeps, the parties keep together. -/
theorem unordered_keeps {α : Type} {acts : α → State → Bool} {f : α → State → State} {l : List α} {s : State}
    (P : State → Prop) (draw : ∀ s, P s → P { s with draws := s.draws + 1 })
    (act : ∀ a ∈ l, ∀ s, P s → P (f a s)) (h : P s) : P (unordered acts f l s) := by
  have fold (xs : List α) (hx : ∀ a ∈ xs, a ∈ l) (s : State) (hs : P s) : P (xs.foldl (fun s a => f a s) s) := by
    induction xs generalizing s with
    | nil => exact hs
    | cons a xs ih =>
      exact ih (fun b hb => hx b (.tail _ hb)) _ (act a (hx a (.head _)) s hs)
  unfold unordered
  split
  · exact fold l (fun _ h => h) s h
  · exact fold _ (fun a ha => (permute_perm _ _ l).mem_iff.mp ha) _ (draw s h)

/-! ### Requests of the ship link -/

/-- A request that the link does not take changes nothing. -/
theorem takeRequest_down {kind : Nat} {head : ShipHead} {respond : State → Answer} {s : State}
    (h : s.linkUp = false) : s.takeRequest kind head respond = s := by simp [State.takeRequest, h]

/-- A request that completes in HANDLING is owed a BUSY reply and nothing else. -/
theorem takeRequest_handling {kind : Nat} {head : ShipHead} {respond : State → Answer} {s : State} {r : Reply}
    (h : s.linkUp = true) (busy : s.ship.sending = some r) :
    s.takeRequest kind head respond =
      { s with ship.busyOwed := some ⟨BitVec.ofNat 8 kind, head⟩, ship.receiving := none } := by
  simp [State.takeRequest, h, busy]

/-- A request taken in IDLE is answered whole and its reply begins to be sent. -/
theorem takeRequest_idle {kind : Nat} {head : ShipHead} {respond : State → Answer} {s : State} (h : s.shipIdle) :
    s.takeRequest kind head respond =
      { (respond s).state with
        ship := { (respond s).state.ship with
          sending := some ⟨BitVec.ofNat 8 kind, head, (respond s).status, (respond s).payload⟩
          inHand := some ⟨BitVec.ofNat 8 kind, head⟩
          receiving := none } } := by
  simp [State.takeRequest, h.1, h.2]

/-- An answer that changes nothing leaves the state replied to. -/
theorem takeRequest_answer {kind : Nat} {head : ShipHead} {respond : State → Answer} {s : State} {status : ReplyStatus}
    {payload : List Pair} (h : s.shipIdle) (r : respond s = ⟨status, payload, s⟩) :
    s.takeRequest kind head respond = s.replied kind head status payload := by
  rw [takeRequest_idle h, r]; rfl

/-- A record request is refused without effect, or answered by the rule that owns the table. -/
theorem recordRequest_cases {s : State} {head : ShipHead} {look : Bool} {named : State → Table → Nat → Bool}
    {respond : Table → Nat → State → Answer} :
    s.recordRequest head look named respond = s.answer .busy ∨
      s.recordRequest head look named respond = s.answer .noRecord ∨
      ∃ t, Table.ofCode head.table.toNat = some t ∧ named s t head.key.toNat = true ∧
        s.recordRequest head look named respond = respond t head.key.toNat s := by
  unfold State.recordRequest
  dsimp only
  split
  · exact .inl rfl
  · split
    · exact .inl rfl
    · split
      · exact .inr (.inl rfl)
      · rename_i t ht
        split
        · rename_i hn; exact .inr (.inr ⟨t, ht, hn, rfl⟩)
        · exact .inr (.inl rfl)

/-- An action is refused BUSY without effect, or answered by its own rule. -/
theorem actionRequest_cases {s : State} {waits : Bool} {respond : State → Answer} :
    (s.loading || waits && s.startUp.purgeRunning) = true ∧ s.actionRequest waits respond = s.answer .busy ∨
      (s.loading || waits && s.startUp.purgeRunning) = false ∧ s.actionRequest waits respond = respond s := by
  unfold State.actionRequest
  cases h : (s.loading || waits && s.startUp.purgeRunning) <;> simp

/-- A Put is refused whole or taken whole. -/
theorem takePut_cases {s : State} {ps : List Pair} {checks : List PutCheck} {store : State → State}
    {record : State → List Pair} :
    (∃ status pairs, firstFailure (effective ps) checks = some (status, pairs) ∧
      s.takePut ps checks store record = ⟨status, pairs, s⟩) ∨
    firstFailure (effective ps) checks = none ∧
      s.takePut ps checks store record = ⟨.done, storedPairs ps (record (store s)), store s⟩ := by
  unfold State.takePut
  split
  · rename_i status pairs h; exact .inl ⟨status, pairs, h, rfl⟩
  · rename_i h; exact .inr ⟨h, rfl⟩

/-! ### Notices and field frames -/

/-- A notice that the link does not take changes nothing. -/
theorem takeNotice_down {kind : NoticeKind} {l : Option Loader} {q : Option (BitVec 16)} {r : Reason}
    {act : State → State} {s : State} (h : s.linkUp = false) : s.takeNotice kind l q r act = s := by
  simp [State.takeNotice, h]

/-- A notice taken in READY is acted on. -/
theorem takeNotice_ready {kind : NoticeKind} {l : Option Loader} {q : Option (BitVec 16)} {r : Reason}
    {act : State → State} {s : State} (h : s.linkUp = true) (p : s.startUp.phase = .ready) :
    s.takeNotice kind l q r act = act { s with terminal.receiving := none } := by
  simp [State.takeNotice, h, p]

/-- A field frame that the link does not take changes nothing. -/
theorem takeField_down {present : State → Bool} {act : State → State} {s : State} (h : s.linkUp = false) :
    s.takeField present act = s := by simp [State.takeField, h]

/-- A field frame taken in READY restarts the silence watch, and is acted on where it names something. -/
theorem takeField_ready {present : State → Bool} {act : State → State} {s : State} (h : s.linkUp = true)
    (p : s.ready = true) :
    s.takeField present act =
      if present { s with field.receiving := none }.restartSilence then
        act { s with field.receiving := none }.restartSilence
      else { s with field.receiving := none }.restartSilence := by
  simp only [State.ready, Bool.and_eq_true, decide_eq_true_eq] at p
  simp [State.takeField, h, State.ready, p.1, p.2]

/-! ### Derivations and computations -/

/-- From `s` to `t` at most the channels, the due order and the count of free choices differ. -/
def State.onlyChannels (s t : State) : Prop :=
  t = { s with channels := t.channels, terminal := { s.terminal with due := t.terminal.due }, draws := t.draws }

theorem onlyChannels_refl (s : State) : s.onlyChannels s := rfl

theorem onlyChannels_trans {s t u : State} (h : s.onlyChannels t) (k : t.onlyChannels u) : s.onlyChannels u := by
  unfold State.onlyChannels at *; rw [k, h]

theorem updChannel_onlyChannels (s : State) (l : Loader) (f : Channel → Channel) : s.onlyChannels (s.updChannel l f) := rfl

theorem makeDue_onlyChannels (s : State) (x : Slot) : s.onlyChannels (s.makeDue x) := by
  unfold State.makeDue State.onlyChannels; split <;> rfl

/-- Rewriting an output changes its channel and the due order alone. -/
theorem rewriteOutput_frame (s : State) (l : Loader) : s.onlyChannels (s.rewriteOutput l) := by
  unfold State.rewriteOutput; dsimp only; split
  · exact updChannel_onlyChannels s l _
  · exact onlyChannels_trans (updChannel_onlyChannels s l _) (makeDue_onlyChannels _ _)

/-- The tests taken on a channel change it and the due order alone. -/
theorem takeTests_frame (s : State) (l : Loader) : s.onlyChannels (s.takeTests l) :=
  onlyChannels_trans (updChannel_onlyChannels s l _) (rewriteOutput_frame _ l)

/-- A derivation changes its channel and the due order alone. -/
theorem deriveChannel_frame (s : State) (l : Loader) : s.onlyChannels (s.deriveChannel l) := by
  unfold State.deriveChannel; split
  · exact onlyChannels_trans (updChannel_onlyChannels s l _) (takeTests_frame _ l)
  · exact onlyChannels_refl s

/-- Derivations without order between them change channels, the due order and the count of free choices alone. -/
theorem deriveBoth_frame (s : State) (ls : List Loader) : s.onlyChannels (s.deriveBoth ls) :=
  unordered_keeps (s.onlyChannels ·) (fun _ h => onlyChannels_trans h rfl)
    (fun l _ t h => onlyChannels_trans h (deriveChannel_frame t l)) (onlyChannels_refl s)

/-- A derivation owed changes its channel and the due order alone. -/
theorem takeDerivation_frame (s : State) (l : Loader) : s.onlyChannels (s.takeDerivation l) :=
  onlyChannels_trans (updChannel_onlyChannels s l _) (deriveChannel_frame _ l)

/-- An expired tally timer changes its channel and the due order alone. -/
theorem expireTallyTimer_frame (s : State) (l : Loader) : s.onlyChannels (s.expireTallyTimer l) :=
  onlyChannels_trans (updChannel_onlyChannels s l _) (deriveChannel_frame _ l)

/-- The report-step test changes the due order alone. -/
theorem reportStepTest_frame (s : State) (l : Loader) : s.onlyChannels (s.reportStepTest l) := by
  unfold State.reportStepTest; split
  · exact makeDue_onlyChannels s _
  · split
    · exact makeDue_onlyChannels s _
    · exact onlyChannels_refl s

/-- Naming a loader's current pour to its channel changes the channel alone (spec 07 R122). -/
theorem handCurrentPour_frame (s : State) (l : Loader) : s.onlyChannels (s.handCurrentPour l) := by
  unfold State.handCurrentPour State.oweDerivation
  exact onlyChannels_trans (updChannel_onlyChannels s l _) (updChannel_onlyChannels _ l _)

/-- A computation writes the figures of the list, and beyond the list changes channels and the due order alone. -/
theorem compute_frame (s : State) :
    { s with pours.list := s.listWithFigures, pours.computationsOwed := s.pours.computationsOwed - 1 }.onlyChannels s.compute :=
  onlyChannels_trans (handCurrentPour_frame _ .l1) (onlyChannels_trans (handCurrentPour_frame _ .l2)
    (onlyChannels_trans (reportStepTest_frame _ .l1) (reportStepTest_frame _ .l2)))

/-- What a channel is once it stores the pour named: nothing differs but the current pour and the pours kept for it. -/
@[simp] theorem Channel.storeNamed_currentPour (c : Channel) : c.storeNamed.currentPour = c.named := rfl
@[simp] theorem Channel.storeNamed_named (c : Channel) : c.storeNamed.named = c.named := rfl
@[simp] theorem Channel.storeNamed_released (c : Channel) : c.storeNamed.released = c.released := rfl
@[simp] theorem Channel.storeNamed_forced (c : Channel) : c.storeNamed.forced = c.forced := rfl
@[simp] theorem Channel.storeNamed_output (c : Channel) : c.storeNamed.output = c.output := rfl
@[simp] theorem Channel.storeNamed_deadline (c : Channel) : c.storeNamed.deadline = c.deadline := rfl
@[simp] theorem Channel.storeNamed_timedOut (c : Channel) : c.storeNamed.timedOut = c.timedOut := rfl
@[simp] theorem Channel.storeNamed_derivationsOwed (c : Channel) : c.storeNamed.derivationsOwed = c.derivationsOwed := rfl

/-- A pour kept for a channel is the one that it names. -/
theorem Channel.mem_storeNamed_gone {c : Channel} {p : Pour} (h : p ∈ c.storeNamed.gone) :
    c.storeNamed.currentPour = some p.sequence := by
  simpa [Channel.storeNamed] using (List.mem_filter.mp h).2

/-- What the ship port is after a start-up, by whether the reply that accepted a RELOAD is being sent (spec 09 R143). -/
theorem ShipPort.started_cases (p : ShipPort) :
    ((∃ r, p.sending = some r ∧ r.kind = 24 ∧ r.status = .accepted) ∧ p.started = { p with busyOwed := none }) ∨
      ((¬∃ r, p.sending = some r ∧ r.kind = 24 ∧ r.status = .accepted) ∧
        p.started = { p with sending := none, inHand := none, busyOwed := none }) := by
  by_cases h : p.sending.any (fun r => decide (r.kind = 24 ∧ r.status = .accepted)) = true
  · refine .inl ⟨by simpa [Option.any_eq_true] using h, ?_⟩
    simp only [ShipPort.started, h, if_true]
  · refine .inr ⟨by simpa [Option.any_eq_true] using h, ?_⟩
    simp only [ShipPort.started, h]; rfl

/-- A release changes channels, the due order and the count of free choices alone. -/
theorem release_frame (s : State) (ls : List Loader) : s.onlyChannels (s.release ls) := by
  have fold (xs : List Loader) (t : State) (h : s.onlyChannels t) :
      s.onlyChannels (xs.foldl (fun s l => s.updChannel l ({ · with released := true })) t) := by
    induction xs generalizing t with
    | nil => exact h
    | cons l xs ih => exact ih _ (onlyChannels_trans h (updChannel_onlyChannels t l _))
  exact onlyChannels_trans (fold ls s (onlyChannels_refl s)) (deriveBoth_frame _ _)

/-- R119 spelled out is what a rewritten output holds. -/
theorem outputFollows_iff (c : Channel) : c.outputFollows ↔ (c.output, c.outputCause) = c.outputs := by
  obtain ⟨_, _, computed, cause, forced, output, outputCause⟩ := c
  cases computed <;> cases forced <;> cases output <;>
    simp [Channel.outputFollows, Channel.outputs, ForcedLevel.state?, LineState.rank]

/-! ### Hold mass -/

/-- The Pour Controller derives a hold as R4 and R71 have it stand. -/
theorem Hold.derivedFrom_eq_standing (x : Hold) (l : List Pour) (h : Nat) : x.derivedFrom l h = x.standing l h := rfl

/-- Deriving a hold rewrites that hold alone; a current mass that differs marks the live pass dirty and owes a computation. -/
theorem State.deriveHold_eq (h : Nat) (s : State) (hr : s.ready = true) :
    s.deriveHold h =
      let t := s.updHold h (·.standing s.pours.list h)
      let differs := decide ((t.hold h).current ≠ (s.hold h).current)
      { t with
        engine := { s.engine with dirty := s.engine.dirty || differs }
        pours := { s.pours with computationsOwed := s.pours.computationsOwed + differs.toNat } } := by
  show (if ((s.updHold h (·.standing s.pours.list h)).hold h).current = (s.hold h).current then
    s.updHold h (·.standing s.pours.list h) else (s.updHold h (·.standing s.pours.list h)).markDirty.oweComputation) = _
  by_cases same : ((s.updHold h (·.standing s.pours.list h)).hold h).current = (s.hold h).current
  · rw [if_pos same]; simp [same]; rfl
  · rw [if_neg same, show (s.updHold h (·.standing s.pours.list h)).markDirty = _ from if_pos hr]
    refine (if_pos hr).trans ?_
    simp [same]

/-! ### What the statements say of commands, trips, LOCAL and STOPPING (spec 05 R84, R85, spec 06 R92 to R112) -/

/-- The group that a rerouted order goes to is the Ballast Sequencer's own choice of it. -/
theorem movesTo_eq_otherGroup (s : State) (g k : Nat) : s.movesTo g k = s.otherGroup g k := rfl

/-- A rerouting changes orders and queues alone. -/
theorem afterReroute_onlyBallast (s : State) (g : Nat) (c : HoldCause) : s.onlyBallast (s.afterReroute g c) := rfl

/-- A trip changes the Ballast Sequencer and the outbound list alone. -/
theorem afterTrip_onlyBallast (s : State) (g : Nat) (c : TripCause) : s.onlyBallast (s.afterTrip g c) := rfl

@[simp] theorem afterTrip_tank (s : State) (g : Nat) (c : TripCause) (k : Nat) : (s.afterTrip g c).tank k = s.tank k := rfl
@[simp] theorem afterTrip_counts (s : State) (g : Nat) (c : TripCause) : (s.afterTrip g c).counts = s.counts := rfl
@[simp] theorem afterTrip_engine (s : State) (g : Nat) (c : TripCause) : (s.afterTrip g c).engine = s.engine := rfl

/-- A trip changes the record of the station that trips, and no other. -/
theorem afterTrip_station (s : State) (g h : Nat) (c : TripCause) (ne : h ≠ g) :
    (s.afterTrip g c).station h = s.station h := by
  show (nth1 (modify1 (modify1 s.ballast.stations g _) g _) h).getD default = (nth1 s.ballast.stations h).getD default
  rw [nth1_modify1, if_neg ne, nth1_modify1, if_neg ne]

/-- An element of a list that is changed by its number. -/
theorem nth1_map_zipIdx {α β : Type} (l : List α) (f : α × Nat → β) (n : Nat) :
    nth1 ((l.zipIdx 1).map f) n = (nth1 l n).map fun x => f (x, n) := by
  cases n with
  | zero => rfl
  | succ n => simp [nth1, Nat.add_comm]; rfl

/-- Commands to valves change the valves named alone, and of those the ones that are sent a command. -/
theorem afterCommands_tankValves (s : State) (again : Bool) (p : ValveCommand) (vs : List ValveId) (n : Nat) :
    nth1 (s.afterCommands again p vs).ballast.tankValves n = (nth1 s.ballast.tankValves n).map fun x =>
      if .tank n ∈ vs ∧ (again = true ∨ x.commanded ≠ p) then
        { x with
          commanded := p, confirmed := false, deadline := some (s.clock + BitVec.ofNat 32 s.hull.tankValveTimeout) } else x :=
  nth1_map_zipIdx _ _ _

theorem afterCommands_suctionValves (s : State) (again : Bool) (p : ValveCommand) (vs : List ValveId) (n : Nat) :
    nth1 (s.afterCommands again p vs).ballast.suctionValves n = (nth1 s.ballast.suctionValves n).map fun x =>
      if .suction n ∈ vs ∧ (again = true ∨ x.commanded ≠ p) then
        { x with
          commanded := p, confirmed := false, deadline := some (s.clock + BitVec.ofNat 32 s.hull.lineValveTimeout) } else x :=
  nth1_map_zipIdx _ _ _

theorem afterCommands_overboardValves (s : State) (again : Bool) (p : ValveCommand) (vs : List ValveId) (n : Nat) :
    nth1 (s.afterCommands again p vs).ballast.overboardValves n = (nth1 s.ballast.overboardValves n).map fun x =>
      if .overboard n ∈ vs ∧ (again = true ∨ x.commanded ≠ p) then
        { x with
          commanded := p, confirmed := false, deadline := some (s.clock + BitVec.ofNat 32 s.hull.lineValveTimeout) } else x :=
  nth1_map_zipIdx _ _ _

@[simp] theorem afterCommands_station (s : State) (again : Bool) (p : ValveCommand) (vs : List ValveId) (g : Nat) :
    (s.afterCommands again p vs).station g = s.station g := rfl
@[simp] theorem afterCommands_order (s : State) (again : Bool) (p : ValveCommand) (vs : List ValveId) (k : Nat) :
    (s.afterCommands again p vs).order k = s.order k := rfl
@[simp] theorem afterCommands_queue (s : State) (again : Bool) (p : ValveCommand) (vs : List ValveId) (g : Nat) :
    (s.afterCommands again p vs).queue g = s.queue g := rfl
@[simp] theorem afterStop_valve (s : State) (g : Nat) (v : ValveId) : (s.afterStop g).valve v = s.valve v := by cases v <;> rfl
@[simp] theorem afterRest_station (s : State) (g : Nat) : s.afterRest.station g = s.station g := rfl
@[simp] theorem afterRest_valve (s : State) (v : ValveId) : s.afterRest.valve v = s.valve v := by cases v <;> rfl
@[simp] theorem afterRest_queue (s : State) (g : Nat) : s.afterRest.queue g = s.queue g := rfl
@[simp] theorem afterRest_order (s : State) (k : Nat) : s.afterRest.order k = s.order k := rfl
@[simp] theorem afterRest_outbound (s : State) : s.afterRest.field.outbound = s.field.outbound := rfl

/-- The test for HALTED that the statements make is the Ballast Sequencer's own. -/
theorem haltTest_eq_afterRest (s : State) : s.haltTest = s.afterRest := by
  unfold State.haltTest State.afterRest State.allRest
  split <;> rfl

/-- Commands, a stop, LOCAL and the entries into STOPPING change the Ballast Sequencer and the outbound list alone. -/
theorem afterCommands_onlyBallast (s : State) (again : Bool) (p : ValveCommand) (vs : List ValveId) :
    s.onlyBallast (s.afterCommands again p vs) := rfl

theorem afterLocal_onlyBallast (s : State) (g : Nat) : s.onlyBallast (s.afterLocal g) := rfl

theorem afterRundown_onlyBallast (s : State) (g : Nat) : s.onlyBallast (s.afterRundown g) := rfl

theorem afterClosing_onlyBallast (s : State) (g : Nat) : s.onlyBallast (s.afterClosing g) := rfl

theorem afterHalt_onlyBallast (s : State) (g : Nat) : s.onlyBallast (s.afterHalt g) := by
  unfold State.afterHalt State.afterReturn
  split <;> split <;> rfl

/-- Where no station may look, a cause told to the stations changes nothing. -/
theorem answered_refl (s : State) (told : Nat → Prop)
    (none : ∀ g, told g → s.ballast.state ≠ .running ∨ (s.station g).state ≠ .off ∨ (s.station g).closing ≠ []) :
    s.answered s told := by
  have idle (g : Nat) : ¬(s.hasGroup g = true ∧ s.ballast.state = .running ∧ (s.station g).state = .off ∧
      (s.station g).closing = [] ∧ told g) := fun ⟨_, r, o, c, t⟩ => (none g t).elim (· r) (·.elim (· o) (· c))
  exact ⟨rfl, rfl, rfl, fun g h => absurd h (idle g), fun _ _ _ => ⟨rfl, rfl, rfl, rfl⟩, fun _ _ => rfl, fun _ _ => rfl,
    ⟨[], .nil, fun g => ⟨fun h => absurd h List.not_mem_nil, fun h => absurd h (idle g)⟩, rfl⟩, fun _ => rfl⟩

end Sys2Proof.Machine
end

