-- ==== Sys2Proof/Tests/Slice0.lean ====
section
/-! SUPPORT. Tests: ill-formed commands refused, frames and check values, worked examples of the manual, one step of each
family of commands, and for each obligation with hypotheses a state and operands that meet them. -/

namespace Sys2Proof.Tests

open Sys2Proof Sys2Proof.Machine

-- the kernel checks the tests one after another, so that none of them waits on a thread of its own
set_option Elab.async false

/-! ### Small values to test with -/

/-- A request head for a table and a key. -/
def head (table key : Nat) : ShipHead := ⟨7, BitVec.ofNat 8 table, BitVec.ofNat 16 key⟩

/-- A tank of 10,000 tenths with a straight sounding table. -/
def tankData (primary : Nat) (alternate : Option Nat) (route : RouteMode) : TankData :=
  { spanAft := 0, spanFore := 1, capacity := 10000, stripMass := 300, primary := primary, alternate := alternate
    route := route, form := .level, datum := none, breakpoints := [⟨0, 0⟩, ⟨10000, 10000⟩], density := 10000 }

/-- Limits of a small hull. -/
def limits : StationLimits := ⟨80000, 80000, 500000, 500000⟩

/-- Hull data of two holds, two tanks, one item and one station. -/
def hull : Hull :=
  { holds := [⟨0, 1, 90000⟩, ⟨1, 2, 90000⟩]
    tanks := [tankData 1 (some 2) .primaryThenAlternate, tankData 1 none .primary]
    stations := [{ sf0 := 0, bm0 := 0, c := [100, 200, 300, 400, 0], k := [1, 2, 3, 4, 0], harbour := limits, sea := limits }]
    phi := [10, 10, 10, 10, 0], alpha := [12, 12, 12, 12, 0], d0Fore := 3000, d0Aft := 4000, lightship := 20000
    trimHarbour := ⟨5000, 5000⟩, trimSea := ⟨5000, 5000⟩, defaultDraft := 15000, tankValveTimeout := 60
    lineValveTimeout := 30 }

/-- Hull data that a clean image can carry. -/
def legalHull : Hull :=
  { hull with
    holds := List.replicate 5 ⟨0, 1, 90000⟩, tanks := List.replicate 8 (tankData 1 none .primary)
    stations := List.replicate 4 { hull.stations.head! with c := List.replicate 13 1, k := List.replicate 13 1 }
    phi := List.replicate 13 10, alpha := List.replicate 13 12 }

/-- A memory whose slot 0 holds an image of the counts and body octets given, with its check value. -/
def image (counts : List Octet) : ProfileRead :=
  let octets := octets16 (BitVec.ofNat 16 counts.length) ++ counts
  ⟨octets ++ octets16 (crc16 octets), legalHull⟩

/-- A part in READY with the small hull, cold and HALTED, and nothing owed. -/
def ready : State :=
  { State.reset with
    startUp := { StartUp.inReset with phase := .ready, profile := ⟨⟨2, 2, 1, 1, 2⟩, hull⟩, outcome := some .cold }
    holds := [coldHold, coldHold]
    tanks := hull.tanks.map coldTank
    items := [0]
    ballast := { Sequencer.empty with
      orders := [none, none], queues := [[], []], stations := [coldStation, coldStation]
      tankValves := [startValve 0 60, startValve 0 60], suctionValves := [startValve 0 30, startValve 0 30]
      overboardValves := [startValve 0 30, startValve 0 30] } }

/-- A PLANNED pour of hold 1. -/
def pour (n : Nat) : Pour := { newPour n with hold := 1, planned := 5000 }

/-- READY with pours in the list. -/
def withPours (l : List Pour) : State := { ready with pours := { ready.pours with list := l } }

/-- READY with one station as given. -/
def withStation (st : Station) : State :=
  { ready with ballast := { ready.ballast with stations := [st, coldStation], orders := [some order, none] } }
where
  /-- An ACTIVE order of tank 1. -/
  order : Order := { target := 100, group := 1, state := .active, holdCause := none, completion := none, front := false }

/-- READY with tank 1 as given. -/
def withTank (x : Tank) : State := { ready with tanks := [x, coldTank (tankData 1 none .primary)] }

/-- A valve that stands confirmed OPEN. -/
def openValve : Valve := { commanded := .opened, reported := .opened, confirmed := true, deadline := none, owner := none }

/-- What a step answers, where it is a next state. -/
def after (c : Instr) (s : State) : Option State :=
  match exec c s with
  | .next t => some t
  | _ => none

/-! ### Ill-formed commands are refused -/

theorem test_too_many_pairs_refused : (Instr.put (head 1 1) (List.replicate 170 ⟨0, 0⟩)).wellFormed = false := by decide +kernel

theorem test_too_many_trial_pairs_refused :
    (Instr.trialPut (head 0 0) (List.replicate 170 ⟨0, 0⟩)).wellFormed = false := by decide +kernel

theorem test_too_many_force_pairs_refused :
    (Instr.force (head 0 1) (List.replicate 170 ⟨0, 0⟩)).wellFormed = false := by decide +kernel

theorem test_too_many_codes_refused : (Instr.clear (head 2 1) (List.replicate 256 0)).wellFormed = false := by decide +kernel

theorem test_known_kind_refused : (Instr.unknownRequestKind 17 (head 0 0)).wellFormed = false := by decide +kernel

theorem test_misfit_image_refused :
    (Instr.profileReadComplete ⟨[0, 5, 9, 8, 0, 4, 1, 0, 0], hull⟩).wellFormed = false ∧
      (Instr.profileReadComplete (image [5, 8, 0, 4, 1])).wellFormed = true := by decide +kernel

theorem test_tank_number_refused : (Instr.staleExpiry 25).wellFormed = false := by decide +kernel

theorem test_settle_number_refused : (Instr.stripSettleExpiry 0).wellFormed = false := by decide +kernel

theorem test_valve_number_refused :
    (Instr.valveTravelTimeout (.suction 5)).wellFormed = false ∧ (Instr.valveTravelTimeout (.tank 25)).wellFormed = false ∧
      (Instr.valveTravelTimeout (.overboard 0)).wellFormed = false := by decide +kernel

theorem test_group_number_refused :
    (Instr.primingExpiry 5).wellFormed = false ∧ (Instr.rundownExpiry 0).wellFormed = false ∧
      (Instr.dryRunCondition 5).wellFormed = false := by decide +kernel

theorem test_taken_ship_frame_refused :
    (Instr.shipFrameDiscard (framed 0x5A#8 [0, 5, 1, 1, 1, 0, 1])).wellFormed = false := by decide +kernel

theorem test_taken_terminal_frame_refused :
    (Instr.terminalFrameDiscard (framed 0x6C#8 [8, 4, 0, 0, 0, 0, 0, 0x3A, 0x98])).wellFormed = false := by decide +kernel

theorem test_taken_field_frame_refused :
    (Instr.fieldFrameDiscard (framed 0x3C#8 [5, 12, 1, 1, 0, 100])).wellFormed = false := by decide +kernel

/-! ### Check values and frames (spec 09 R156) -/

/-- The check value of the nine octets of "123456789" (spec 09 R156). -/
theorem test_crc_check_value :
    crc16 [0x31, 0x32, 0x33, 0x34, 0x35, 0x36, 0x37, 0x38, 0x39] = 0x29B1 := by decide +kernel

theorem test_look_frame_read :
    shipVerdict (0 :: framed 0x5A#8 [0, 5, 9, 1, 13, 0, 0]) = .taken (.look ⟨9, 13, 0⟩) := by decide +kernel

theorem test_put_frame_read :
    shipVerdict (framed 0x5A#8 [0, 12, 9, 2, 3, 0, 1, 1, 1, 0, 0, 0, 0, 100]) =
      .taken (.put ⟨9, 3, 1⟩ [⟨0x0100, 100⟩]) := by decide +kernel

theorem test_ship_frame_damaged : shipVerdict [0x5A, 0, 5, 9, 1, 13, 0, 0, 0, 0] = .discarded := by decide +kernel

theorem test_tally_frame_read :
    terminalVerdict (framed 0x6C#8 [8, 2, 1, 0, 0, 0, 0, 0x03, 0xE8]) = .taken (.tally .l1 1000) := by decide +kernel

theorem test_valve_frame_read :
    fieldVerdict (framed 0x3C#8 [5, 9, 33, 0, 0, 1]) = .taken (.valvePosition 33 .opened) := by decide +kernel

theorem test_field_frame_bad_code : fieldVerdict (framed 0x3C#8 [5, 9, 33, 0, 0, 4]) = .discarded := by decide +kernel

theorem test_reply_octets :
    (Reply.octets ⟨1, ⟨9, 3, 1⟩, .done, [⟨0x0100, 100⟩]⟩).take 16 =
      [0x5B, 0, 14, 9, 1, 0, 3, 0, 1, 0, 1, 1, 0, 0, 0, 0] := by decide +kernel

/-! ### Worked cases of the manual -/

/-- Tank T5 of spec 01 Table 1.4. -/
def t5 : TankData :=
  { tankData 1 none .primary with capacity := 10200, breakpoints := [⟨500, 1800⟩, ⟨2000, 9800⟩], density := 10250 }

/-- Spec 01 Table 1.4, and the density put after it. -/
theorem test_conversions_of_t5 :
    [1250, 1251, 2000, 2100, 300].map (fun r => massAt t5 10250 (levelOf t5 r)) =
      [(5945, false), (5950, false), (10045, false), (10045, true), (1845, false)] ∧
    massAt t5 10600 2100 = (10200, true) := by decide +kernel

/-- Spec 01 section 1.5.1: the same tank in ULLAGE form with datum depth 2,400. -/
theorem test_ullage_levels :
    levelOf { t5 with form := .ullage, datum := some 2400 } 1150 = 1250 ∧
      levelOf { t5 with form := .ullage, datum := some 2400 } 2600 = 0 := by decide +kernel

/-- Station S4 of spec 02 Table 2.9, for compartments H3, H4 and T5. -/
def s4 : StationData :=
  { sf0 := -120000, bm0 := 150000, c := [16384, -8192, 4096], k := [2400, -3650, 1000]
    harbour := ⟨95000, 80000, 420000, 380000⟩, sea := ⟨95000, 80000, 420000, 380000⟩ }

/-- The snapshot of spec 02 section 2.6, with H3 as given. -/
def snapshot41 (h3 : Nat) : Snapshot := { masses := [h3, 60000, 32000], limitSet := .harbour, caution := 950, maxDraft := 12500 }

/-- Spec 02 Tables 2.10 and 2.11. -/
theorem test_s4_of_generation_41 :
    stationResult (snapshot41 180000) s4 = ⟨⟨-41000, 512, .normal, false⟩, ⟨395000, 940, .normal, false⟩⟩ := by
  decide +kernel

/-- Spec 02 Table 2.13. -/
theorem test_edge_of_the_hog_limit :
    (stationResult (snapshot41 190416) s4).bm = ⟨419998, 999, .caution, false⟩ ∧
      (stationResult (snapshot41 190417) s4).bm = ⟨420001, 1000, .limit, false⟩ := by decide +kernel

/-- Spec 02 Table 2.12: the aft draft's quotient of 4,959.5 is rounded away from zero. -/
theorem test_aft_draft_rounds_away :
    6900 + roundHalfAway 49595000 10000 = 11860 ∧ ratioOf 11860 12500 = 948 ∧ ratioOf 20 3000 = 6 := by decide +kernel

/-- Spec 02 section 2.6.2. -/
theorem test_saturated_shear :
    saturate (-8000000) 8000000 (7900000 + 150000) = (8000000, true) ∧ ratioOf 8000000 95000 = 9999 := by decide +kernel

/-- Spec 03 Table 3.7, the room of each candidate of H3. -/
theorem test_rooms_of_h3 :
    signedRoom (-41000) 95000 80000 32768 16384 = 272000 ∧ signedRoom 395000 420000 380000 1000 2400 = 10416 ∧
      signedRoom 20 3000 2500 10000 (-60) = 420000 ∧ draftRoom 12500 11840 100 = 66000 ∧
      draftRoom 12500 11860 40 = 160000 := by decide +kernel

/-- Spec 03 Table 3.8. -/
theorem test_rooms_of_h4 :
    signedRoom (-41000) 95000 80000 32768 (-8192) = 156000 ∧ signedRoom 395000 420000 380000 1000 (-3650) = 212328 ∧
      signedRoom 20 3000 2500 10000 20 = 999999 ∧ draftRoom 12500 11840 60 = 110000 := by decide +kernel

/-- Spec 03 Table 3.10: the times-to-limit of pours 7 and 12. -/
theorem test_times_to_limit : timeToLimitOf 10416 6000 = 624 ∧ timeToLimitOf 41250 7200 = 2062 ∧ timeToLimitOf 9 0 = 65535 := by
  decide +kernel

/-- Spec 03 Table 3.13, tally by tally. -/
theorem test_estimator_of_l1 :
    ([(1010, 1200), (1040, 1700), (1070, 2200), (1100, 2700)].foldl
        (fun (e : Estimator) (x : Nat × Nat) => e.arrive false 60 (BitVec.ofNat 32 x.1) x.2) .closed) = ⟨some (1070, 2200), 6000⟩ ∧
      (Estimator.arrive ⟨some (1070, 2200), 6000⟩ false 60 1135 3400) = ⟨some (1135, 3400), 6646⟩ := by decide +kernel

/-- Spec 05 section 5.11: discharging T6 worsens a hog BM at CAUTION, and discharging T5 does not. -/
theorem test_stress_hold_of_t6 :
    dischargeWorsens ⟨398790, 949, .caution, false⟩ (-800) = true ∧
      dischargeWorsens ⟨398790, 949, .caution, false⟩ 1000 = false := by decide +kernel

/-- Spec 00 R1: a deadline across the wrap of the count. -/
theorem test_deadline_across_the_wrap :
    reached (later 4294967290 10) 3 = false ∧ reached (later 4294967290 10) 4 = true := by decide +kernel

/-! ### One step of each family -/

theorem test_power_on : (after .powerOn { ready with powered := false, clock := 9 }).map (·.clock) = some 0 := by decide +kernel

theorem test_tick_wraps : (after .timeBaseTick { ready with clock := 4294967295 }).map (·.clock) = some 0 := by decide +kernel

theorem test_release_of_reset_loads :
    (after (.resetNRelease 3 .attended true) .reset).map (fun t => (t.startUp.phase, t.startUp.index)) = some (.loading, 3) := by
  decide +kernel

theorem test_damaged_image_faults :
    (after (.profileReadComplete ⟨[0, 5, 5, 8, 0, 4, 1, 0, 0], hull⟩)
      { State.reset with startUp := { StartUp.inReset with phase := .loading } }).map (·.startUp.finding) = some (some .check) := by
  decide +kernel

/-- Spec 11 R164: the image of profile index 1 begins at octet 65,536. -/
theorem test_slot_one_begins_at_octet_65536 (first image : List Octet) (h : Hull) (hf : first.length = 65536)
    (hi : image.length ≤ 65536) : ProfileRead.slot ⟨first ++ image, h⟩ 1 = image := by
  simp [ProfileRead.slot, slotAddress, slotOctets, ← hf, List.take_of_length_le (by omega : image.length ≤ first.length)]

theorem test_silent_memory_faults :
    (after .profileReadTimeout
      { State.reset with clock := 2, startUp := { StartUp.inReset with phase := .loading } }).map (·.startUp.finding) =
      some (some .noImage) := by decide +kernel

theorem test_pfail_writes_marker : (after .pfailAssert ready).map (·.startUp.marker.valid) = some true := by decide +kernel

theorem test_look_settings :
    ((after (.look (head 12 0)) ready).bind (·.ship.sending)).map (fun r => (r.status, r.payload.length)) = some (.done, 13) := by
  decide +kernel

theorem test_put_hold :
    (after (.put (head 1 2) [pairOf 4 0 5, pairOf 4 0 800]) ready).map (fun t => (t.hold 2).current) = some 800 := by
  decide +kernel

theorem test_put_hold_out_of_range :
    ((after (.put (head 1 2) [pairOf 4 0 400001]) ready).bind (·.ship.sending)).map (·.status) = some .badValue := by
  decide +kernel

theorem test_put_caution_out_of_range :
    (after (.put (head 12 0) [pairOf 2 0 1000]) ready).map (·.settings.caution) = some 950 := by decide +kernel

theorem test_put_pour_needs_its_plan :
    ((after (.put (head 4 7) [pairOf 2 0 1]) ready).bind (·.ship.sending)).map (·.status) = some .badValue := by
  decide +kernel

theorem test_order_below_target_is_met :
    (after (.put (head 5 1) [pairOf 2 0 100]) ready).map (fun t => (t.order 1).bind (·.completion)) = some (some .met) := by
  decide +kernel

theorem test_retire_active_pour_refused :
    ((after (.retire (head 4 7)) (withPours [{ pour 7 with state := .active, loader := .one .l1 }])).bind
      (·.ship.sending)).map (·.status) = some .state := by decide +kernel

theorem test_clear_foreign_kind_refused :
    ((after (.clear (head 2 1) [2]) ready).bind (·.ship.sending)).map (·.status) = some .badField := by decide +kernel

theorem test_run_opens_the_line :
    (after (.run (head 0 0)) { withTank { coldTank (tankData 1 none .primary) with current := 5000, status := .fresh } with
      ballast := { ready.ballast with orders := [some ⟨100, 1, .queued, none, none, false⟩, none], queues := [[1], []] } }).map
      (fun t => ((t.station 1).state, (t.station 1).active, t.field.outbound)) =
      some (.lineup, some 1, [.valve (.suction 1) .opened, .valve (.overboard 1) .opened, .valve (.tank 1) .opened]) := by
  decide +kernel

theorem test_release_l2 :
    (after (.release (head 0 2)) ready).map (fun t => (t.channels.l1.released, t.channels.l2.computed, t.channels.l2.output)) =
      some (false, .complete, .complete) := by decide +kernel

theorem test_force_keeps_the_stronger_state :
    (after (.force (head 0 1) [⟨1, 1⟩]) ready).map (fun t => (t.channels.l1.forced, t.channels.l1.output)) =
      some (.reduce, .forbid) := by decide +kernel

theorem test_restart_refused_while_running :
    ((after (.restart (head 0 0)) { ready with ballast := { ready.ballast with state := .running } }).bind
      (·.ship.sending)).map (·.status) = some .state := by decide +kernel

theorem test_purge_step_folds :
    (after .purgeStep { withPours [{ pour 7 with state := .done, tallied := 900 }] with
      startUp := { ready.startUp with purgeRunning := true } }).map
      (fun t => ((t.hold 1).initial, t.pours.list.length, t.startUp.purgeDoneFlag)) = some (900, 0, true) := by decide +kernel

theorem test_reload_wants_an_index :
    ((after (.reload (head 0 16)) ready).bind (·.ship.sending)).map (·.status) = some .badValue := by decide +kernel

theorem test_trial_put_without_a_trial :
    ((after (.trialPut (head 0 0) [pairOf 4 0 900]) ready).bind (·.ship.sending)).map (·.status) = some .state := by
  decide +kernel

theorem test_tally_regression :
    (after (.tally .l1 99) (withPours [{ pour 7 with state := .active, loader := .one .l1, tallied := 100 }])).map
      (fun t => (t.channels.l1.tallyFaultFlag, t.terminal.fifo.map (·.refused))) = some (true, [some .regression]) := by
  decide +kernel

theorem test_pour_end_notes_the_pour :
    (after (.pourEnd .l1 300) (withPours [{ pour 7 with state := .active, loader := .one .l1, tallied := 100 }])).map
      (fun t => (t.terminal.noted.l1, t.terminal.due)) = some (some ⟨7, 1, 300⟩, [.pourSummary .l1]) := by decide +kernel

/-- Spec 03 R51: two tallies are two causes, and each has its own computation and step test. -/
theorem test_two_causes_are_two_computations :
    let s := withPours [{ pour 7 with state := .active, loader := .one .l1 }]
    ((after (.tally .l1 5) s).bind (after (.tally .l1 6))).map (·.pours.computationsOwed) = some 4 ∧
      (((after (.tally .l1 5) s).bind (after .clearanceComputation)).bind (after .clearanceComputation)).map
        (fun t => (t.pours.computationsOwed, t.channels.l1.derivationsOwed)) = some (0, 3) := by decide +kernel

theorem test_berth_below_range : (after (.berth 4999) ready).map (·.berth.maxDraft) = some 5000 := by decide +kernel

theorem test_sounding_meets_the_order :
    (after (.sounding 1 true 100) { withStation { coldStation with state := .discharge, active := some 1, pumpCommanded := .runFull } with
      tanks := [{ coldTank (tankData 1 none .primary) with current := 500, status := .fresh }, coldTank (tankData 1 none .primary)] }).map
      (fun t => ((t.station 1).state, (t.order 1).map (·.state))) = some (.stopping .rundown, some .done) := by decide +kernel

theorem test_overload_trips :
    (after (.pumpStatus 1 .overload) ready).map (fun t => ((t.station 1).state, (t.station 1).lastTrip)) =
      some (.tripped, some .overload) := by decide +kernel

theorem test_local_switch_reroutes :
    (after (.localSwitch 1 .localControl) (withStation { coldStation with state := .lineup, active := some 1 })).map
      (fun t => ((t.station 1).state, (t.order 1).bind (·.holdCause), t.queue 1, t.queue 2)) =
      some (.localControl, some .localControl, [], [1]) := by decide +kernel

theorem test_valve_departs :
    (after (.valvePosition 33 .moving) { withStation { coldStation with state := .lineup, active := some 1 } with
      ballast := { (withStation { coldStation with state := .lineup, active := some 1 }).ballast with
        suctionValves := [openValve, openValve] } }).map (fun t => ((t.station 1).lastTrip, (t.valve (.suction 1)).commanded)) =
      some (some .valveLost, .shut) := by decide +kernel

theorem test_stale_expiry :
    (after (.staleExpiry 1) (withTank { coldTank (tankData 1 none .primary) with status := .fresh, age := 30 })).map
      (fun t => ((t.tank 1).status, (t.tank 1).staleFlag)) = some (.stale, true) := by decide +kernel

/-! ### The hypotheses of the obligations can be met -/

/-- Holds that agree with the pours, from a test of the list. -/
theorem holdsOk_of (s : State)
    (h : (s.holds.zipIdx.all fun p => decide (p.1 = p.1.derivedFrom s.pours.list (p.2 + 1))) = true) : s.HoldsOk := by
  intro i x hx
  have := List.all_eq_true.mp h (x, i) (List.mem_zipIdx_iff_getElem?.mpr hx)
  simpa using this

/-- Pours, the first ACTIVE on L1 in hold 1, the second INTERRUPTED on L2, the third PLANNED. -/
def threePours : State :=
  { withPours [{ pour 1 with state := .active, loader := .one .l1, tallied := 100 },
      { pour 8 with hold := 2, state := .interrupted, loader := .one .l2, tallied := 40 }, pour 999] with
    holds := [⟨10, 110, some 1, false⟩, ⟨0, 40, none, false⟩] }

/-- A set with the figures of the small hull at rest. -/
def liveSet : ResultSet := evaluate hull ready.liveSnapshot 65535

/-- READY with a set published, and the pours of `threePours`. -/
def published : State := { threePours with engine := { Engine.idle with live := some liveSet } }

/-- READY with a station in DISCHARGE whose order is tank 1's, taken on the line that stands open. -/
def discharging : State :=
  let s := withStation { coldStation with state := .discharge, active := some 1, pumpCommanded := .runFull, pumpReported := .running }
  { s with ballast := { s.ballast with
      state := .running, tankValves := [{ openValve with owner := some 1 }, startValve 0 60]
      suctionValves := [openValve, openValve], overboardValves := [openValve, openValve] } }

/-- LOADING, its read begun at second 0. -/
def loading : State := { State.reset with clock := 2, startUp := { StartUp.inReset with phase := .loading } }

/-- A tank in use, one tenth above a target of 100, STALE and BELOW just due. -/
def dueTank : Tank :=
  { coldTank (tankData 1 none .primary) with
    current := 101, lastLevel := some 101, status := .fresh, age := 30, strip := .settling 0 }

/-- An ACTIVE order of tank 1 and a QUEUED one of tank 2. -/
def twoOrders : List (Option Order) :=
  [some ⟨100, 1, .active, none, none, false⟩, some ⟨0, 1, .queued, none, none, false⟩] ++ List.replicate 6 none

/-- READY with the legal hull, its one station discharging tank 1, tank 2's order waiting and a live pass in flight. -/
def pumping : State :=
  { State.reset with
    clock := 20
    startUp := { StartUp.inReset with phase := .ready, profile := ⟨⟨5, 8, 0, 4, 1⟩, legalHull⟩, outcome := some .cold }
    engine := { Engine.idle with state := .livePass ⟨List.replicate 13 0, .harbour, 950, 15000⟩ }
    holds := List.replicate 5 coldHold
    tanks := dueTank :: List.replicate 7 (coldTank (tankData 1 none .primary))
    ballast := { Sequencer.empty with
      state := .running, orders := twoOrders, queues := [[2]]
      stations := [{ coldStation with state := .discharge, active := some 1, pumpCommanded := .runFull, pumpReported := .running }]
      tankValves := { openValve with owner := some 1 } :: List.replicate 7 (startValve 0 60)
      suctionValves := [openValve], overboardValves := [openValve] } }

/-- The same under a hull whose shears stand at the limit, each tenth taken out of a tank raising them. -/
def stressedPumping : State :=
  { pumping with
    startUp := { pumping.startUp with
      profile := ⟨⟨5, 8, 0, 4, 1⟩, { legalHull with
        stations := List.replicate 4 { legalHull.stations.head! with sf0 := 80000, c := List.replicate 13 (-1) } }⟩ } }

/-- READY and HALTED with a QUEUED order of tank 1, which stands above its target. -/
def waiting : State :=
  { withTank { coldTank (tankData 1 none .primary) with current := 5000, status := .fresh } with
    ballast := { ready.ballast with orders := [some ⟨100, 1, .queued, none, none, false⟩, none], queues := [[1], []] } }

theorem test_witness_StepRunsFrontCommand : State.reset.pending = [] := rfl

theorem test_witness_StepKeepsPortLists :
    let s := { ready with
      pending := [.terminalSendStart]
      terminal := { TerminalPort.cleared with fifo := List.replicate 4 ⟨.tally, some .l1, none, some .noPour⟩, due := [.draft, .clearance .l2] }
      field := { FieldPort.cleared 0 with outbound := [.pump 1 .stop, .pump 2 .stop, .valve (.tank 1) .shut] } }
    s.FifoOk ∧ s.DueOk ∧ s.OutboundOk ∧ s.PortOk ∧ ∃ t, step s = .next t := by
  refine ⟨?_, ?_, ?_, fun _ => rfl, _, rfl⟩
  · unfold State.FifoOk; decide +kernel
  · unfold State.DueOk; decide +kernel
  · unfold State.OutboundOk distinctTargets; decide +kernel

theorem threePours_pours : threePours.PoursOk := by unfold State.PoursOk; decide +kernel

theorem threePours_started : threePours.StartedOk := by
  refine ⟨by decide +kernel, fun l => ?_, by decide +kernel⟩
  unfold Pour.heldBy; cases l <;> decide +kernel

theorem threePours_holds : threePours.HoldsOk := holdsOk_of _ (by decide +kernel)

theorem test_witness_StepKeepsPoursAndHoldMasses :
    let s := { threePours with pending := [.pourEnd .l1 100] }
    s.PoursOk ∧ s.StartedOk ∧ s.HoldsOk ∧ ∃ t, step s = .next t :=
  ⟨threePours_pours, threePours_started, threePours_holds, _, rfl⟩

theorem ready_lines : ready.LinesOk := by
  intro l; unfold Channel.Ok Channel.outputFollows; cases l <;> decide +kernel

theorem test_witness_StepKeepsLines : ({ ready with pending := [.pfailAssert] }).LinesOk := ready_lines

theorem nth1_none {α : Type} {l : List α} {n b : Nat} (hl : l.length ≤ b) (hn : ¬n ≤ b) : nth1 l n = none := by
  obtain ⟨m, rfl⟩ : ∃ m, n = m + 1 := ⟨n - 1, by omega⟩
  exact List.getElem?_eq_none (by omega)

/-- Records, stations, orders, queues and tank valves agree where they do for the numbers up to a bound of the lists. -/
theorem sound_of {s : State} (b : Nat)
    (h : (s.ballast.orders.length ≤ b ∧ s.ballast.queues.length ≤ b ∧ s.ballast.stations.length ≤ b ∧
        s.ballast.tankValves.length ≤ b) ∧
      (∀ g ≤ b, (s.queue g).Nodup ∧
        ∀ t ∈ s.queue g, (s.order t).any (fun o => decide (o.state = .queued ∧ o.group = g)) = true) ∧
      (∀ t ≤ b, (s.order t).all (fun o => decide ((o.state = .queued → t ∈ s.queue o.group) ∧
        (o.state = .active → (s.station o.group).active = some t) ∧
        (o.state ≠ .done → o.group = (s.tankData t).primary ∧ (s.tank t).route ≠ .alternate))) = true) ∧
      (∀ g ≤ b, ((s.station g).active.toList ++ (s.station g).closing).Nodup ∧
        (∀ t ∈ (s.station g).active.toList ++ (s.station g).closing, (s.valve (.tank t)).owner = some g) ∧
        ∀ t ∈ (s.station g).active.toList, (s.valve (.tank t)).commanded = .opened ∧
          (s.order t).any (fun o => decide (o.state = .active ∧ o.group = g)) = true) ∧
      (∀ t ≤ b, ∀ g ∈ (s.valve (.tank t)).owner.toList,
        t ∈ (s.station g).active.toList ++ (s.station g).closing ∧ s.confirmedAt (.tank t) .shut = false) ∧
      (s.ballast.state = .halted → ∀ st ∈ s.ballast.stations, st.state.working = false) ∧
      ((∀ x ∈ s.tanks, (x.alternate.all fun a => decide (1 ≤ a ∧ a ≤ s.ballast.queues.length)) = true ∧
        (x.route = .alternate → x.alternate ≠ none)) ∧ Hull.legal s.hull s.counts = true) ∧
      (∀ st ∈ s.ballast.stations, st.active.isSome = st.state.runs ∧ st.state.admits st.pumpCommanded = true) ∧
      s.holds.length = s.counts.holds ∧ s.tanks.length = s.counts.tanks ∧ s.items.length = s.counts.items ∧
      s.ballast.shape = [s.counts.tanks, s.counts.groups, s.counts.groups, s.counts.tanks, s.counts.groups, s.counts.groups]) :
    s.RecordsOk ∧ s.StationsOk ∧ s.OrdersOk := by
  obtain ⟨hb, hq, ho, hs, hv, hh, hr, hst, hrec⟩ := h
  have noOrder : ∀ t, ¬t ≤ b → s.order t = none := fun t h => by rw [State.order, nth1_none hb.1 h]; rfl
  have noQueue : ∀ g, ¬g ≤ b → s.queue g = [] := fun g h => by rw [State.queue, nth1_none hb.2.1 h]; rfl
  have noStation : ∀ g, ¬g ≤ b → (s.station g).active = none ∧ (s.station g).closing = [] := fun g h => by
    rw [State.station, nth1_none hb.2.2.1 h]; exact ⟨rfl, rfl⟩
  have noValve : ∀ t, ¬t ≤ b → (s.valve (.tank t)).owner = none := fun t h => by
    show ((nth1 s.ballast.tankValves t).getD default).owner = none
    rw [nth1_none hb.2.2.2 h]; rfl
  have order : ∀ t o, s.order t = some o → (o.state = .queued → t ∈ s.queue o.group) ∧
      (o.state = .active → (s.station o.group).active = some t) ∧
      (o.state ≠ .done → o.group = (s.tankData t).primary ∧ (s.tank t).route ≠ .alternate) := fun t o h => by
    have := ho t (Decidable.byContradiction fun hn => by simp [noOrder t hn] at h)
    rw [h] at this; exact of_decide_eq_true this
  have active : ∀ g t, (s.station g).active = some t → g ≤ b := fun g t h =>
    Decidable.byContradiction fun hn => by simp [noStation g hn] at h
  refine ⟨fun _ => hrec, hst, ⟨fun g => ?_, fun g t h => ?_, fun t o h => (order t o h).1⟩, ⟨fun g t h => ?_, fun t o h => (order t o h).2.1⟩,
    ⟨fun g => ?_, fun g t => ⟨fun h => ?_, fun h => ?_⟩, fun g t h => ?_, fun g t h => ?_⟩, hh, fun x hx => ⟨?_, (hr.1 x hx).2⟩,
    fun _ => ⟨hr.2, fun t o h hd => ?_⟩⟩
  · by_cases hg : g ≤ b
    · exact (hq g hg).1
    · simp [noQueue g hg]
  · have hg : g ≤ b := Decidable.byContradiction fun hn => by simp [noQueue g hn] at h
    have := (hq g hg).2 t h
    cases ho' : s.order t with
    | none => simp [ho'] at this
    | some o => exact ⟨o, rfl, by simpa [ho'] using this⟩
  · have := ((hs g (active g t h)).2.2 t (by simp [h])).2
    cases ho' : s.order t with
    | none => simp [ho'] at this
    | some o => exact ⟨o, rfl, by simpa [ho'] using this⟩
  · by_cases hg : g ≤ b
    · exact (hs g hg).1
    · simp [noStation g hg]
  · have ht : t ≤ b := Decidable.byContradiction fun hn => by simp [noValve t hn] at h
    have := (hv t ht g (by simp [h])).1
    simpa using this
  · have hg : g ≤ b := Decidable.byContradiction fun hn => by simp [noStation g hn] at h
    exact (hs g hg).2.1 t (by simpa using h)
  · exact ((hs g (active g t h)).2.2 t (by simp [h])).1
  · have ht : t ≤ b := Decidable.byContradiction fun hn => by simp [noValve t hn] at h
    exact (hv t ht g (by simp [h])).2
  · intro a ha
    have := (hr.1 x hx).1
    simpa [ha] using this
  · obtain ⟨hp, hn⟩ := (order t o h).2.2 hd
    unfold Tank.permits
    split <;> simp_all

theorem pumping_sound : pumping.RecordsOk ∧ pumping.StationsOk ∧ pumping.OrdersOk := sound_of 8 (by decide +kernel)

theorem pumping_orders : pumping.OrdersOk := pumping_sound.2.2

theorem pumping_stations : pumping.StationsOk := pumping_sound.2.1

theorem pumping_records : pumping.RecordsOk := pumping_sound.1

theorem pumping_idle : pumping.shipIdle := by unfold State.shipIdle; decide +kernel

theorem test_witness_StepKeepsOrdersAndQueues :
    let s := { pumping with pending := [.sounding 1 true 100] }
    s.RecordsOk ∧ s.StationsOk ∧ s.OrdersOk ∧
      (∀ r rest, s.pending = .profileReadComplete r :: rest →
        s.startsWarm (imageCrc (r.slot s.startUp.index)) = true → s.fits (imageCounts (r.slot s.startUp.index)) ∧
          ∀ k o d, s.order k = some o → o.state ≠ .done → r.hull.tanks[k - 1]? = some d →
            (s.tank k).permits d.primary o.group) ∧
      ∃ t, step s = .next t :=
  ⟨pumping_records, pumping_stations, pumping_orders, fun r rest h => by simp at h, _, rfl⟩

theorem test_witness_StepKeepsStations :
    discharging.StationsOk ∧ ∃ t, step { discharging with pending := [.dryRunCondition 1] } = .next t := by
  refine ⟨?_, _, rfl⟩
  unfold State.StationsOk Station.Ok; decide +kernel

theorem ready_records : ready.RecordsOk := fun _ => by unfold State.fits; decide +kernel

theorem discharging_records : discharging.RecordsOk := fun _ => by unfold State.fits; decide +kernel

theorem threePours_records : threePours.RecordsOk := fun _ => by unfold State.fits; decide +kernel

theorem test_witness_StepKeepsRecordsAndSettings : ready.RecordsOk ∧ ready.SettingsOk := by
  refine ⟨ready_records, ?_⟩
  unfold State.SettingsOk; decide +kernel

theorem test_witness_LiveSetComesFromLivePasses :
    published.GenerationOk ∧ (∃ t, exec .livePassEnd { published with
      engine := { published.engine with state := .livePass ready.liveSnapshot } } = .next t) := by
  refine ⟨fun r h => ?_, _, rfl⟩
  cases h; decide +kernel

theorem test_witness_PermitNeedsRelease :
    let s := { ready with channels := ⟨{ Channel.cold with released := true, computed := .pour, cause := none, output := .pour, outputCause := none }, .cold⟩ }
    s.LinesOk ∧ s.permit .l1 = true ∧ s.powered = true ∧ s.startUp.phase = .ready ∧ s.pfail = false ∧
      loading.startUp.phase = .loading := by
  refine ⟨fun l => ?_, by decide +kernel⟩
  unfold Channel.Ok Channel.outputFollows; cases l <;> decide +kernel

theorem test_witness_OnlyReleaseReleases :
    (ready.channel .l2).released = false ∧
      (after (.release (head 0 2)) ready).map (fun t => (t.channel .l2).released) = some true := by decide +kernel

theorem test_witness_NothingIsTakenWhileThePartIsDown :
    ({ ready with powered := false }).linkUp = false ∧ ({ ready with pfail := true }).linkUp = false ∧ State.reset.linkUp = false ∧
      (requestOf (.run (head 0 0))).isSome = true ∧ inboundOther (.tally .l1 5) = true := by decide +kernel

theorem test_witness_TrialCommandsChangeTrialAlone : ∃ t, exec (.trialOpen (head 0 0)) ready = .next t := ⟨_, rfl⟩

theorem test_witness_RoundingIsNearestHalfAway : 2 * (roundHalfAway (-15) 10 * 10 - -15).natAbs = 10 ∧ (1 : Int) ≤ 1 := by
  decide +kernel

theorem test_witness_PublishedFiguresLieInRange :
    let r := evaluate hull ready.liveSnapshot 1
    r.stations.length = 1 ∧ hull.stations.length = 1 ∧ ready.liveSnapshot.caution ≤ 1000 ∧
      r.fore ∈ (r.stations.flatMap fun x => [x.sf, x.bm]) ++ [r.trim, r.fore, r.aft] := by decide +kernel

theorem test_witness_RoomsAreFirstSmallest :
    (0 < 1) ∧ signedRoom 80000 80000 80000 1 1 = 0 ∧ signedRoom 0 80000 80000 1 (-1) = 80000 ∧ draftRoom 15000 15000 1 = 0 := by
  decide +kernel

theorem test_witness_StrengthRoomIsDecidedInOrder :
    let p := { pour 1 with state := .active, loader := .one .l1 }
    let q := { pour 2 with hold := 2, state := .active, loader := .one .l2 }
    let both := { published with pours := { published.pours with list := [p, q] } }
    let empty (x : SoundingStatus) : State := withTank { coldTank (tankData 1 none .primary) with status := x }
    [SoundingStatus.fresh, .overrange, .manual, .stale].map (fun x =>
        (empty x).gatesSatisfied { p with gate3 := some ⟨1, 0⟩ }) = [true, true, true, false] ∧
      ready.gatesSatisfied p = true ∧ ready.engine.live = none ∧ both.gatesSatisfied p = true ∧ both.engine.live.isSome = true ∧
      both.activePour .l1 = some p ∧ both.activePour .l2 = some q ∧ published.activePour .l2 = none := by decide +kernel

theorem test_witness_ClearanceAndTimeFollowRoomPlanAndRate :
    let p := { pour 1 with state := .active, loader := .one .l1, tallied := 5000 }
    p.planned - p.tallied < (published.strengthRoomFor p).amount ∧
      (published.strengthRoomFor { p with planned := 400000 }).amount ≤ 400000 - p.tallied ∧ p.declaredRate = 0 ∧
      0 < ({ p with declaredRate := 20000 } : Pour).declaredRate ∧ published.rateOfPour p = 0 ∧
      (ready.strengthRoomFor p).amount = 0 := by decide +kernel

theorem test_witness_EstimatorMeasuresWholeWindows :
    Estimator.closed.window = none ∧ elapsed (BitVec.ofNat 32 1010) 1069 < 60 ∧ 60 ≤ elapsed (BitVec.ofNat 32 1010) 1070 ∧
      Estimator.arrive ⟨some (1010, 5000), 0⟩ true 60 1070 4000 = ⟨some (1070, 4000), 6000⟩ := by
  decide +kernel

theorem test_witness_ConversionIsMonotoneAndBounded :
    t5.form = .level ∧ ({ t5 with form := .ullage, datum := some 30000 }).datum = some 30000 ∧
      tableLegal t5.breakpoints = true ∧ t5.breakpoints.head? = some ⟨500, 1800⟩ ∧ t5.breakpoints.getLast? = some ⟨2000, 9800⟩ ∧
      (volumeAt t5.breakpoints 2000).2 = false ∧ (volumeAt t5.breakpoints 2001).2 = true ∧
      t5.breakpoints[0]? = some ⟨500, 1800⟩ ∧ t5.breakpoints[0 + 1]? = some ⟨2000, 9800⟩ ∧ 500 < 501 ∧ 1999 < 2000 := by
  decide +kernel

theorem test_witness_CurrentPourIsChosenInOrder :
    threePours.PoursOk ∧ (threePours.currentPour .l1).map (·.sequence) = some 1 ∧
      (threePours.currentPour .l2).map (·.sequence) = some 8 ∧ ready.currentPour .l1 = none ∧
      ((withPours [pour 3]).currentPour .l2).map (·.sequence) = some 3 :=
  ⟨threePours_pours, by decide +kernel⟩

theorem test_witness_AttnFollowsUnmaskedFlags :
    let s := { ready with engine := { Engine.idle with strengthFlag := true } }
    loading.powered = true ∧ loading.startUp.phase = .loading ∧ State.reset.startUp.phase = .reset ∧ s.ready = true ∧
      s.attn = true ∧ ({ s with settings := { Settings.default with mask := 0x200 } }).attn = false ∧
      ({ loading with startUp := { loading.startUp with phase := .profileFault, profileFlag := true } }).attn = true ∧
      s.hasTank 2 = true ∧ s.hasGroup 2 = true := by decide +kernel

theorem test_witness_PowerAndTickKeepTheCount :
    ({ ready with powered := false }).powered = false ∧ ready.powered = true ∧ ready.ready = true ∧ loading.powered = true ∧
      loading.ready = false ∧ (after .timeBaseTick { ready with tanks := [{ ready.tank 1 with age := 65535 }] }).map
        (fun t => (t.tank 1).age) = some 65535 := by decide +kernel

theorem test_witness_ResetHoldsAndReleaseSamples :
    ready.powered = true ∧ State.reset.powered = true ∧ State.reset.startUp.phase = .reset := by decide +kernel

theorem test_witness_ImageFaultEntersProfileFault :
    let counts : List Octet := [5, 8, 1, 4, 1]
    loading.powered = true ∧ loading.startUp.phase = .loading ∧ imagePresent (ProfileRead.slot ⟨[], legalHull⟩ 0) = false ∧
      imageFinding [0, 5, 5, 8, 0, 4, 1, 0, 0] legalHull = some .check ∧
      imageFinding ((image [4, 8, 0, 4, 1]).slot 0) legalHull = some .count ∧
      imageFinding ((image counts).slot 0) legalHull = some .range ∧
      2 ≤ elapsed loading.startUp.readStart loading.clock ∧
      ((image counts).memory = octets16 5 ++ (counts ++ octets16 (crc16 (octets16 5 ++ counts)))) ∧
      (octets16 (crc16 (octets16 5 ++ counts))).length = 2 ∧ (5 : BitVec 16).toNat = 5 + ([] : List Octet).length ∧
      ([0] : List Octet).length < 2 := by decide +kernel

/-- LOADING after a restart of the part with a marker that names the image, and the records of `pumping`. -/
def marked : State :=
  { pumping with
    startUp := { loading.startUp with retain := true, marker := ⟨true, 0, imageCrc ((image [5, 8, 0, 4, 1]).slot 0), true⟩ } }

theorem test_witness_CleanImageEntersReady :
    let os := (image [5, 8, 0, 4, 1]).slot 0
    marked.HoldsOk ∧ marked.fits (imageCounts os) ∧ loading.powered = true ∧ loading.startUp.phase = .loading ∧
      imagePresent os = true ∧ imageCheckValue os = octets16 (imageCrc os) ∧ Counts.legal (imageCounts os) = true ∧
      Hull.legal legalHull (imageCounts os) = true ∧ loading.startsWarm (imageCrc os) = false ∧
      marked.startsWarm (imageCrc os) = true := by
  refine ⟨holdsOk_of _ (by decide +kernel), ?_, by decide +kernel⟩
  unfold State.fits; decide +kernel

/-- Spec 04 R57, R72: at a warm start READY is one cause of computation, and each ACTIVE pour made INTERRUPTED another. -/
theorem test_warm_start_owes_the_interrupted_pour :
    (after (.profileReadComplete (image [5, 8, 0, 4, 1])) { marked with
      pours := { marked.pours with list := [{ pour 3 with state := .active, loader := .one .l1 }, pour 4] } }).map
      (fun t => (t.pours.computationsOwed, t.pours.list.map (·.state))) = some (2, [.interrupted, .planned]) := by decide +kernel

theorem test_witness_PfailWithdrawsRelease :
    let s := { pumping with
      pfail := true
      ballast := { pumping.ballast with
        suctionValves := [{ openValve with confirmed := false, deadline := some 5 }], kept := [(5, .stale 1)] } }
    let u := { pumping with
      ballast := { pumping.ballast with stations := [{ coldStation with state := .priming }] } }
    ready.powered = true ∧ ready.pfail = false ∧ ready.hasChannels = true ∧ ready.ready = true ∧ loading.ready = false ∧
      s.powered = true ∧ s.pfail = true ∧ s.ready = true ∧
      expired ({ Channel.cold with deadline := some 7 }).deadline 7 = true ∧ expired (s.channel .l2).deadline s.clock = false ∧
      s.hasValve (.suction 1) = true ∧ (s.valve (.suction 1)).deadline = some 5 ∧ elapsed 5 s.clock = 15 ∧
      (after .pfailDeassert s).map (fun t => ((t.station 1).lastTrip, (t.order 1).map (·.state), t.ballast.kept)) =
        some (some .valveTimeout, some .queued, []) ∧
      u.ready = true ∧ u.pfail = false ∧ (u.station 1).state = .priming ∧
      (pumping.station 1).state ≠ .priming ∧ (pumping.station 1).state ≠ .stopping .rundown ∧ pumping.ballast.state ≠ .halting ∧
      (pumping.tank 1).goesStale pumping.settings.stale = true ∧ (pumping.tank 1).strip = .settling 0 ∧
      pumping.settings.settle ≤ elapsed 0 pumping.clock ∧
      pumping.engine.state = .livePass ⟨List.replicate 13 0, .harbour, 950, 15000⟩ := by decide +kernel

theorem test_witness_CheckedFramesAreReadAndOthersDropped :
    ready.linkUp = true ∧ 0x5A#8 ∉ ([0, 1] : List Octet) ∧ shipVerdict [0x5A#8, 0] = .incomplete ∧ shipVerdict [1] = .discarded ∧
      ([1, 2, 3, 4, 5] : List Octet).length = 5 ∧ (octets16 0).length = 2 ∧
      (4 : BitVec 16).toNat < 5 ∧ 1024 < (1025 : BitVec 16).toNat ∧ (3 : Octet).toNat < 4 ∧ 64 < (65 : Octet).toNat ∧
      (∀ n ∈ [4, 5, 64, 1024], (List.replicate (n + 2) (0 : Octet)).length = n + 2 ∧
        n + 2 < (1#8 :: List.replicate (n + 2) 0).length) ∧
      0x3C#8 ∉ ([4, 5] : List Octet) ∧ [[0x3C, 4, 0x3C, 5], [0x3C, 0x3C, 5], [0x3C, 5, 9, 1, 0]].map fieldVerdict =
        [.discarded, .discarded, .incomplete] := by decide +kernel

/-- READY with a reply being sent. -/
def replying : State := { ready with ship := { ShipPort.idle with sending := some ⟨16, head 0 0, .done, []⟩ } }

theorem test_witness_FramesCarryTheirCommandsAndReplies :
    let ask (kind : Octet) (data : List Octet) : FrameVerdict := shipRequest (9 :: kind :: 13 :: octets16 0x0102 ++ data)
    let h : ShipHead := ⟨9, 13, 0x0102⟩
    [ask 28 [], ask 28 [0], ask 2 (1 :: octets16 0x0100 ++ octets32 7), ask 4 [1, 5], ask 4 [2, 5], ask 5 [3]] =
        [.taken (.trialClose h), .discarded, .taken (.put h [⟨0x0100, 7⟩]), .taken (.clear h [5]), .discarded,
          .taken (.unknownRequestKind 5 h)] ∧
      terminalNotice (1 :: 2 :: octets16 7 ++ octets32 500) = .taken (.pourStart .l2 7 500) ∧
      terminalNotice (4 :: 0 :: octets16 0 ++ octets32 9000) = .taken (.berth 9000) ∧
      terminalNotice (5 :: 3 :: octets16 0 ++ octets32 2) = .discarded ∧ ([] : List Octet).length ≠ 8 ∧
      fieldReport 12 3 1 100 = .taken (.sounding 3 true 100) ∧ fieldReport 11 2 0 1 = .taken (.localSwitch 2 .localControl) ∧
      fieldReport 11 2 1 1 = .discarded ∧ ready.shipOctets = none ∧
      ({ ready with field := { ready.field with sending := some (.valve (.overboard 2) .opened) } }).fieldOctets.map (List.take 7) =
        some [0x3C, 5, 1, 42, 0, 0, 1] ∧
      ({ ready with terminal := { ready.terminal with
        sending := some (.reply ⟨.berth, none, none, some .profileFault⟩) } }).terminalOctets.map (List.take 18) =
        some [0x6C, 16, 9, 0, 0, 0, 0, 0, 0, 4, 0, 0, 0, 1, 0, 0, 0, 10] := by decide +kernel

theorem test_witness_ShipExchangeOwesBusyOnce :
    requestOf (.halt (head 0 0)) = some ⟨17, head 0 0⟩ ∧ replying.linkUp = true ∧ replying.ship.sending.isSome = true ∧
      replying.powered = true ∧ replying.ship.busyOwed = none := by decide +kernel

theorem ready_idle : ready.shipIdle := by unfold State.shipIdle; decide +kernel

theorem threePours_idle : threePours.shipIdle := by unfold State.shipIdle; decide +kernel

theorem test_witness_LookReturnsTheRecordWhole :
    ready.shipIdle ∧ loading.shipIdle ∧ Table.ofCode 15 = some .changes ∧ Table.ofCode 16 = none ∧
      ready.recordExists .hold 2 = true ∧ ready.recordExists .hold 3 = false ∧ loading.recordExists .profile 0 = true ∧
      requestOf (.retire (head 1 3)) = some ⟨3, head 1 3⟩ ∧ requestOf (.trialPut (head 0 0) []) = some ⟨26, head 0 0⟩ ∧
      ready.putExists .pour 7 = true ∧ ready.putExists .hold 3 = false ∧ ready.startUp.purgeRunning = false := by
  refine ⟨ready_idle, ?_, ?_⟩
  · unfold State.shipIdle; decide +kernel
  · decide +kernel

theorem test_witness_LookedUpRecordsCarryTheirFields :
    let s := { published with engine := { published.engine with trial := some ready.newTrial, strengthFlag := true } }
    let raised := { ready with tanks := ready.tanks.map fun (x : Tank) => { x with overrangeFlag := true } }
    s.engine.live = some liveSet ∧ (liveSet.stations[1 - 1]?).isSome = true ∧ ready.engine.live = none ∧
      s.engine.trial.isSome = true ∧ ready.engine.trial = none ∧ s.powered = true ∧ s.startUp.phase = .ready ∧
      s.lookup .changes 0 = [⟨0, 1⟩, ⟨0x0900, 0x200⟩] ∧ (s.pour 8).isSome = true ∧ (discharging.order 1).isSome = true ∧
      (s.lookup .pour 8).map (·.value.toInt) = [8, 2, 1, 5000, 40] ++ List.replicate 8 (-1) ++
        [2, 0, 0, 0, 65535, 9, 0, -1, -1, -1, 0] ∧
      ({ raised with settings := { Settings.default with mask := 2 } }).lookup .changes 0 =
        [⟨0, 0⟩, ⟨0x0201, 0x20000⟩, ⟨0x0202, 0x20000⟩] := by decide +kernel

theorem test_witness_PutIsWholeOrRefused :
    ready.shipIdle ∧ ready.RecordsOk ∧ ready.PoursOk ∧ (∃ t, exec (.put (head 1 2) [pairOf 4 0 5]) ready = .next t) ∧
      ready.startUp.phase ≠ .loading ∧ ready.startUp.purgeRunning = false ∧ Table.ofCode 7 = some .valve ∧
      ready.putExists .valve 1 = true ∧ countLegal [pairOf 1 0 1] = true ∧
      16 < (List.replicate 17 (pairOf 1 0 1)).length := by
  refine ⟨ready_idle, ready_records, ?_, ⟨_, rfl⟩, by decide +kernel⟩
  unfold State.PoursOk; decide +kernel

theorem test_witness_PutStoresMasses :
    ready.shipIdle ∧ ready.ready = true ∧ ready.RecordsOk ∧ countLegal [pairOf 4 0 400000] = true ∧ (head 1 2).table = 1 ∧
      ready.hasHold 2 = true ∧ intAt [pairOf 4 0 400000] 4 0 = some 400000 ∧ (head 3 1).table = 3 ∧ ready.hasItem 1 = true ∧
      intAt [pairOf 1 0 0] 1 0 = some 0 ∧ (pairOf 5 0 1).ident ≠ fieldId 4 0 ∧
      valueOf [pairOf 4 0 400001] (fieldId 4 0) = some 400001 ∧ 400000 < (400001 : BitVec 32).toInt ∧
      valueOf [pairOf 1 0 (-1)] (fieldId 1 0) = some (-1) ∧ (-1 : BitVec 32).toInt < 0 :=
  ⟨ready_idle, by decide +kernel, ready_records, by decide +kernel⟩

theorem test_witness_PutStoresTankFields :
    ready.shipIdle ∧ ready.RecordsOk ∧ (head 2 2).table = 2 ∧ ready.hasTank 2 = true ∧ intAt [pairOf 3 0 10000] 3 0 = some 10000 ∧
      intAt [pairOf 10 0 9499] 10 0 = some 9499 ∧ intAt [⟨0, 30000⟩] 0 0 = some 30000 ∧ (ready.tank 2).status = .stale ∧
      ((withTank { coldTank (tankData 1 none .primary) with status := .fresh }).tank 1).status ≠ .stale ∧
      (discharging.order 1).map (·.state) = some .active ∧ ready.order 2 = none ∧
      intAt [pairOf 5 0 2, pairOf 6 0 1] 5 0 = some 2 ∧ intAt [pairOf 5 0 2, pairOf 6 0 1] 6 0 = some 1 ∧
      intAt [pairOf 5 0 (-1), pairOf 6 0 3] 5 0 = some (-1) ∧ (ready.tankData 2).primary = 1 ∧ ready.counts.groups = 2 ∧
      [pairOf 6 0 1, pairOf 6 0 4, pairOf 5 0 1, pairOf 5 0 0, pairOf 5 0 3, pairOf 5 0 2].map (fun p =>
        ((after (.put (head 2 2) [p]) ready).bind (·.ship.sending)).map (·.status)) =
        [some .badValue, some .badValue, some .badValue, some .badValue, some .badValue, some .done] ∧
      countLegal [pairOf 3 0 10001] = true ∧ intAt [pairOf 3 0 10001] 3 0 = some 10001 ∧
      (pairOf 4 0 1).ident ∉ [0, fieldId 3 0, fieldId 5 0, fieldId 6 0, fieldId 10 0] ∧
      (after (.put (head 2 2) [pairOf 10 0 9000, ⟨0, 1000⟩, pairOf 3 0 10000, pairOf 6 0 3, pairOf 5 0 2]) ready).map (·.tank 2) =
        some { ready.tank 2 with
          density := 9500, stripMass := 10000, lastLevel := some 1000, current := 950, route := .firstFree, alternate := some 2
          status := .manual } :=
  ⟨ready_idle, ready_records, by decide +kernel⟩

theorem test_witness_PutStoresBerthStationAndChannel :
    ready.shipIdle ∧ ready.RecordsOk ∧ (∀ p ∈ [pairOf 14 0 20000], ∃ i, 10 ≤ i ∧ i ≤ 14 ∧ p.ident = fieldId i 0) ∧
      countLegal [pairOf 1 0 30001] = true ∧ (head 11 0).table = 11 ∧ (head 6 2).table = 6 ∧
      ready.hasGroup 2 = true ∧ (head 8 2).table = 8 ∧ loaderOfKey 2 = some .l2 ∧ intAt [pairOf 12 0 0] 12 0 = some 0 ∧
      (pairOf 2 0 1).ident ∉ [fieldId 1 0] ∧ (pairOf 15 0 1).ident ∉ [fieldId 10 0, fieldId 11 0, fieldId 12 0, fieldId 13 0, fieldId 14 0] ∧
      valueOf [pairOf 12 0 2] (fieldId 12 0) = some 2 := by
  refine ⟨ready_idle, ready_records, fun p hp => ?_, by decide +kernel⟩
  exact ⟨14, by decide, by decide, by simp only [List.mem_singleton] at hp; subst hp; decide +kernel⟩

theorem test_witness_PutStoresSettings :
    let s := { withTank { dueTank with age := 10 } with clock := 5 }
    let ps := [pairOf 3 0 3601, pairOf 9 0 9, pairOf 10 0 4, pairOf 12 0 1, pairOf 13 0 16383]
    s.shipIdle ∧ s.RecordsOk ∧ (∀ p ∈ ps, ∃ i, 1 ≤ i ∧ i ≤ 13 ∧ p.ident = fieldId i 0) ∧
      s.startUp.phase ≠ .loading ∧ s.ready = true ∧ countLegal ps = true ∧ (head 12 0).table = 12 ∧ intAt ps 1 0 = none ∧
      valueOf ps (fieldId 13 0) = some 16383 ∧ valueOf [pairOf 13 0 16384] (fieldId 13 0) = some 16384 ∧
      intAt [pairOf 1 0 2] 1 0 = some 2 ∧
      [pairOf 14 0 1, pairOf 1 0 2, pairOf 13 0 16384].map (fun p =>
        ((after (.put (head 12 0) [p]) s).bind (·.ship.sending)).map (·.status)) = [some .badField, some .badValue, some .badValue] ∧
      (after (.put (head 12 0) [pairOf 9 0 9]) s).map (fun t => ((t.tank 1).status, t.settings.stale, t.pours.computationsOwed)) =
        some (.stale, 10, 1) ∧
      (after (.put (head 12 0) [pairOf 12 0 1]) s).map (fun t => (t.settings.silence, t.field.live)) = some (2, false) ∧
      (after (.put (head 12 0) [pairOf 10 0 4]) s).map (fun t => ((t.tank 1).status, (t.tank 1).strip)) = some (.fresh, .below) := by
  refine ⟨?_, fun _ => ?_, fun p hp => ?_, by decide +kernel⟩
  · unfold State.shipIdle; decide +kernel
  · unfold State.fits; decide +kernel
  · have h : ∀ p ∈ [pairOf 3 0 3601, pairOf 9 0 9, pairOf 10 0 4, pairOf 12 0 1, pairOf 13 0 16383],
        ∃ i ∈ [3, 9, 10, 12, 13], p.ident = fieldId i 0 := by decide +kernel
    obtain ⟨i, hi, e⟩ := h p hp
    simp only [List.mem_cons, List.not_mem_nil, or_false] at hi
    exact ⟨i, by omega, by omega, e⟩

theorem test_witness_PutCreatesAndAmendsPours :
    let ps := [pairOf 2 0 2, pairOf 4 0 400000, pairOf 6 6 2, pairOf 6 7 150000]
    let gates := [pairOf 6 0 (-1), pairOf 6 2 (-1), pairOf 6 3 (-1), pairOf 3 0 2]
    let finished := withPours [{ pour 7 with state := .done }]
    threePours.shipIdle ∧ threePours.ready = true ∧ threePours.PoursOk ∧ threePours.startUp.purgeRunning = false ∧
      countLegal ps = true ∧ intAt ps 4 0 = some 400000 ∧ threePours.pour 2 = none ∧ intAt ps 2 0 = some 2 ∧ intAt ps 3 0 = none ∧
      intAt ps 6 6 = some 2 ∧ intAt ps 6 7 = some 150000 ∧ intAt ps 6 0 = none ∧ threePours.counts.tanks = 2 ∧
      threePours.counts.holds = 2 ∧ (threePours.pour 8).map (·.state) = some .interrupted ∧
      (threePours.pour 999).map (·.state) = some .planned ∧ (finished.pour 7).map (·.state) = some .done ∧
      intAt gates 6 0 = some (-1) ∧ intAt gates 6 1 = none ∧ intAt gates 6 2 = some (-1) ∧ intAt gates 6 3 = some (-1) ∧
      intAt gates 3 0 = some 2 ∧
      (after (.put (head 4 999) gates) threePours).map (fun t => (t.pour 999).map (·.loader)) = some (some .either) ∧
      [[pairOf 9 0 1], [pairOf 2 0 1], [pairOf 2 0 3, pairOf 4 0 1], [pairOf 2 0 1, pairOf 4 0 1]].map (fun ps =>
        ((after (.put (head 4 1) ps) (withPours ((List.range 48).map fun n => pour (n + 2)))).bind (·.ship.sending)).map (·.status)) =
        [some .badField, some .badValue, some .badValue, some .full] := by
  exact ⟨threePours_idle, by decide +kernel, threePours_pours, by decide +kernel⟩

/-- `pumping` with its station OFF, no order and no owned valve. -/
def parked : State :=
  { pumping with
    ballast := { pumping.ballast with
      orders := List.replicate 8 none, queues := [[]], stations := [coldStation]
      tankValves := List.replicate 8 (startValve 0 60) } }

theorem parked_sound : parked.RecordsOk ∧ parked.StationsOk ∧ parked.OrdersOk := sound_of 8 (by decide +kernel)

theorem parked_orders : parked.OrdersOk := parked_sound.2.2

theorem parked_idle : parked.shipIdle := by unfold State.shipIdle; decide +kernel

theorem parked_records : parked.RecordsOk := parked_sound.1

theorem parked_settled : parked.haltSettled := fun h => absurd h.1 (by decide +kernel)

theorem pumping_settled : pumping.haltSettled := fun h => absurd h.1 (by decide +kernel)

/-- `s` with its one station put in place of the one that stands. -/
def manned (s : State) (st : Station) : State := { s with ballast := { s.ballast with stations := [st] } }

theorem test_witness_PutEntersOrders :
    let tripped := { ready with ballast := { ready.ballast with stations := [{ coldStation with state := .tripped }, coldStation] } }
    let free := { tripped with tanks := [{ tripped.tank 1 with route := .firstFree }, tripped.tank 2] }
    let entered (s : State) : Option Nat := (after (.put (head 5 1) [pairOf 2 0 0]) s).bind fun t => (t.order 1).map (·.group)
    let waits := { parked with tanks := dueTank :: parked.tanks.drop 1 }
    ready.shipIdle ∧ ready.RecordsOk ∧ (pumping.shipIdle ∧ pumping.RecordsOk ∧ pumping.OrdersOk ∧ pumping.haltSettled) ∧
      (waits.shipIdle ∧ waits.RecordsOk ∧ waits.OrdersOk ∧ waits.haltSettled) ∧ (head 5 1).table = 5 ∧
      ready.hasTank 1 = true ∧ ready.order 1 = none ∧
      intAt [pairOf 2 0 (-1), pairOf 3 0 2, pairOf 8 0 1] 3 0 = some 2 ∧ ready.ballast.state = .halted ∧
      (ready.tank 1).route = .primaryThenAlternate ∧ (ready.tank 1).alternate = some 2 ∧
      [ready, tripped, free].map entered = [some 1, some 2, some 2] ∧
      (ready.tank 1).current ≤ 0 ∧
      0 < ((withTank { coldTank (tankData 1 none .primary) with current := 1 }).tank 1).current ∧
      [[pairOf 4 0 1], [pairOf 3 0 2], [pairOf 2 0 1, pairOf 3 0 3], [pairOf 2 0 1, pairOf 8 0 2]].map (fun ps =>
        ((after (.put (head 5 1) ps) ready).bind (·.ship.sending)).map fun r => (r.status, r.payload.length)) =
        [some (.badField, 1), some (.badValue, 0), some (.badValue, 1), some (.badValue, 1)] ∧
      (pumping.order 1).map (·.state) = some .active ∧ (pumping.order 2).map (·.state) = some .queued ∧ pumping.ballast.state ≠ .halting ∧ (pumping.station 1).state ≠ .off ∧
      (waits.ballast.state = .running ∧ (waits.station 1).state = .off ∧
        (after (.put (head 5 1) [pairOf 2 0 0]) waits).map (fun t => ((t.station 1).state, t.queue 1)) = some (.lineup, [])) := by
  have waits := sound_of (s := { parked with tanks := dueTank :: parked.tanks.drop 1 }) 8 (by decide +kernel)
  exact ⟨ready_idle, ready_records, ⟨pumping_idle, pumping_records, pumping_orders, pumping_settled⟩,
    ⟨parked_idle, waits.1, waits.2.2, parked_settled⟩, by decide +kernel⟩

theorem test_witness_RetireRemovesPoursAndOrders :
    let lining := manned pumping { coldStation with state := .lineup, active := some 1 }
    let priming := manned pumping { coldStation with state := .priming, active := some 1, pumpCommanded := .runFull }
    threePours.shipIdle ∧ threePours.PoursOk ∧ threePours.HoldsOk ∧ threePours.RecordsOk ∧
      (pumping.shipIdle ∧ pumping.RecordsOk ∧ pumping.StationsOk ∧ pumping.OrdersOk) ∧ (lining.StationsOk ∧ lining.OrdersOk) ∧
      (priming.StationsOk ∧ priming.OrdersOk) ∧ (threePours.pour 999).map (·.state) = some .planned ∧
      (threePours.pour 1).map (·.state) = some .active ∧ Table.ofCode 1 = some .hold ∧ threePours.recordExists .hold 2 = true ∧
      (pumping.order 1).map (fun o => (o.state, o.group)) = some (.active, 1) ∧ pumping.hasTank 1 = true ∧
      (pumping.station 1).state = .discharge ∧ (lining.station 1).state = .lineup ∧ (priming.station 1).state = .priming ∧
      (after (.retire (head 5 1)) lining).map (fun t =>
        ((t.station 1).state, (t.station 1).closing, (t.valve (.tank 1)).commanded)) = some (.stopping .closing, [1], .shut) := by
  exact ⟨threePours_idle, threePours_pours, threePours_holds, threePours_records,
    ⟨pumping_idle, pumping_records, pumping_stations, pumping_orders⟩, (sound_of 8 (by decide +kernel)).2,
    (sound_of 8 (by decide +kernel)).2, by decide +kernel⟩

theorem test_witness_ClearClearsTheNamedFlagsAlone :
    ready.shipIdle ∧ ready.startUp.phase ≠ .loading ∧ Table.ofCode 6 = some .station ∧ ready.recordExists .station 2 = true ∧
      (∃ c ∈ [(0 : Octet)], ∀ k ∈ Table.station.flags, k.code ≠ c.toNat) ∧
      (∀ c ∈ [(2 : Octet), 5], ∃ k ∈ Table.station.flags, k.code = c.toNat) ∧
      (after (.clear (head 2 1) [1]) (withTank { dueTank with staleFlag := true, overrangeFlag := true })).map (·.tank 1) =
        some { dueTank with staleFlag := true } :=
  ⟨ready_idle, by decide +kernel⟩

theorem test_witness_RunAndHaltMoveTheSequencer :
    let halted := { parked with ballast := { parked.ballast with state := .halted } }
    let lining := manned pumping { coldStation with state := .lineup, active := some 1 }
    let halt (s : State) := (after (.halt (head 0 0)) s).map fun t =>
      (t.queue 1, (t.order 1).bind (·.holdCause), (t.station 1).state, (t.valve (.tank 1)).commanded)
    (ready.shipIdle ∧ ready.RecordsOk ∧ ready.ballast.state ≠ .running) ∧
      (halted.shipIdle ∧ halted.RecordsOk ∧ halted.OrdersOk ∧ halted.ballast.state ≠ .running) ∧
      (pumping.shipIdle ∧ pumping.RecordsOk ∧ pumping.StationsOk ∧ pumping.OrdersOk ∧ pumping.ballast.state = .running) ∧
      (lining.StationsOk ∧ lining.OrdersOk ∧ lining.ballast.state = .running) ∧
      halt pumping = some ([1, 2], some .halt, .stopping .rundown, .opened) ∧
      halt lining = some ([1, 2], some .halt, .stopping .closing, .shut) ∧
      (pumping.station 1).active = some 1 ∧ (pumping.order 1).isSome = true := by
  have halted := sound_of (s := { parked with ballast := { parked.ballast with state := .halted } }) 8 (by decide +kernel)
  have lining := sound_of (s := manned pumping { coldStation with state := .lineup, active := some 1 }) 8 (by decide +kernel)
  exact ⟨⟨ready_idle, ready_records, by decide +kernel⟩, ⟨parked_idle, halted.1, halted.2.2, by decide +kernel⟩,
    ⟨pumping_idle, pumping_records, pumping_stations, pumping_orders, rfl⟩, ⟨lining.2.1, lining.2.2, rfl⟩, by decide +kernel⟩

theorem test_witness_RearmTakesAStoppedStationOff :
    let s := withStation { coldStation with state := .tripped, pumpReported := .stopped }
    let u := manned parked { coldStation with state := .tripped, pumpReported := .stopped }
    (u.shipIdle ∧ u.RecordsOk ∧ u.OrdersOk ∧ u.mayRearm 1 = true) ∧
      s.shipIdle ∧ s.RecordsOk ∧ s.startUp.phase ≠ .loading ∧ s.hasGroup 1 = true ∧ s.ready = true ∧
      s.counts.groups < 3 ∧ s.mayRearm 1 = true ∧ s.mayRearm 2 = false := by
  have u := sound_of (s := manned parked { coldStation with state := .tripped, pumpReported := .stopped }) 8 (by decide +kernel)
  refine ⟨⟨parked_idle, u.1, u.2.2, by decide +kernel⟩, ?_, fun _ => by unfold State.fits; decide +kernel, by decide +kernel⟩
  unfold State.shipIdle; decide +kernel

theorem test_witness_ReleaseAndForceActOnTheChannelsNamed :
    ready.shipIdle ∧ ready.startUp.phase ≠ .loading ∧ channelsOfKey 3 = some [.l1, .l2] ∧ channelsOfKey 4 = none ∧
      (3 : BitVec 32).toNat = 3 :=
  ⟨ready_idle, by decide +kernel⟩

theorem test_witness_RestartPurgeAndReloadNeedThePartAtRest :
    ready.shipIdle ∧ threePours.shipIdle ∧ threePours.PoursOk ∧ threePours.RecordsOk ∧ ready.ready = true ∧
      ready.ballast.state = .halted ∧ ready.startUp.purgeRunning = false ∧ ready.pourRuns = false ∧
      threePours.pourRuns = true ∧ (head 0 15).key.toNat ≤ 15 ∧ 15 < (head 0 16).key.toNat ∧ threePours.hasHold 1 = true ∧
      (head 0 1).key ≠ 0 ∧ threePours.hasValve (.suction 2) = true ∧ (threePours.station 2).switch = .remote ∧
      (after .purgeStep { withPours [{ pour 3 with state := .done, tallied := 70 }] with
        startUp := { ready.startUp with purgeRunning := true } }).map (fun t => (t.holds, t.engine.dirty)) =
        some ([⟨70, 70, none, false⟩, coldHold], true) ∧
      (after (.reload (head 0 5)) { ready with startUp := { ready.startUp with profileFlag := true, purgeDoneFlag := true } }).map
        (fun t => (t.startUp.index, t.startUp.profileFlag, t.startUp.purgeDoneFlag)) = some (5, false, false) ∧
      (after (.restart (head 0 0)) { threePours with
        terminal := { threePours.terminal with lastFore := some 3000 }
        field := { threePours.field with receiving := some ⟨0, [0x3C]⟩, live := false } }).map (fun t =>
          (t.terminal.lastFore, t.field.receiving, t.field.live)) = some (none, none, true) :=
  ⟨ready_idle, threePours_idle, threePours_pours, threePours_records, by decide +kernel⟩

theorem test_witness_TrialRequestsSetUpTheTrial :
    let s := { ready with engine := { Engine.idle with trial := some ready.newTrial } }
    let ps := [pairOf 3 0 1, pairOf 6 0 2, pairOf 6 2 (-1), pairOf 2 8 5]
    ready.shipIdle ∧ ready.engine.trial = none ∧ s.shipIdle ∧ s.engine.trial.isSome = true ∧ countLegal ps = true ∧
      intAt ps 3 0 = some 1 ∧ intAt ps 6 0 = some 2 ∧ intAt ps 6 2 = some (-1) ∧
      (pairOf 2 8 5).ident = fieldId 2 (2 * 4) ∧ 4 < s.counts.holds + s.counts.tanks + s.counts.items ∧
      (head 0 1).key ≠ 0 ∧ ready.startUp.phase ≠ .loading ∧
      ({ ready with startUp := { ready.startUp with phase := .profileFault } }).ready = false ∧
      [[pairOf 2 10 5], [pairOf 3 0 2], [pairOf 6 0 3], [pairOf 6 0 2, pairOf 6 2 2]].map (fun ps =>
        ((after (.trialPut (head 0 0) ps) s).bind (·.ship.sending)).map (·.status)) =
        [some .badField, some .badValue, some .badValue, some .badValue] := by
  refine ⟨ready_idle, by decide +kernel, ?_, by decide +kernel⟩
  unfold State.shipIdle; decide +kernel

theorem test_witness_PourStartIsCheckedInOrder :
    let s := { withPours [{ pour 7 with clearance := 1 }] with channels := ⟨{ Channel.cold with released := true }, .cold⟩ }
    s.linkUp = true ∧ s.ready = true ∧ s.PoursOk ∧ s.startRefusal .l1 7 = none ∧ s.startRefusal .l2 7 = some .unreleased ∧
      s.startRefusal .l1 8 = some .noPour ∧ threePours.startRefusal .l1 1 = some .loaderBusy ∧
      threePours.startRefusal .l2 999 = some .notNext ∧ threePours.startRefusal .l2 8 = some .unreleased ∧
      (withPours [pour 7]).hasHold 1 = true := by
  refine ⟨by decide +kernel, by decide +kernel, ?_, by decide +kernel⟩
  unfold State.PoursOk; decide +kernel

theorem test_witness_TallyAndPourEndActOnTheActivePour :
    threePours.shipIdle ∧ threePours.PoursOk ∧ threePours.HoldsOk ∧
      ({ loading with startUp := { loading.startUp with phase := .profileFault } }).shipIdle ∧ threePours.linkUp = true ∧
      threePours.ready = true ∧ (threePours.activePour .l1).map (·.tallied) = some 100 ∧ threePours.activePour .l2 = none ∧
      min 999999 (BitVec.toInt 99#32) < (100 : Nat) ∧ ((100 : Nat) : Int) ≤ min 999999 (BitVec.toInt 100#32) ∧
      threePours.startUp.purgeRunning = false ∧ (threePours.pour 8).map (·.state) = some .interrupted ∧
      (threePours.pour 1).map (·.state) = some .active ∧ threePours.pour 2 = none :=
  ⟨threePours_idle, threePours_pours, threePours_holds, by unfold State.shipIdle; decide +kernel, by decide +kernel⟩

theorem test_witness_PassesPublishWhatTheyTook :
    let pending := { ready.newTrial with pending := true, hold1 := some 1, hold2 := some 2 }
    let s := { ready with engine := { Engine.idle with trial := some pending } }
    let flying := { ready with engine := { Engine.idle with
      trial := some { pending with inFlight := true }, state := .trialPass ready.liveSnapshot (some 1) (some 2) } }
    ({ ready with engine := { Engine.idle with dirty := true } }).ready = true ∧ s.engine.dirty = false ∧ pending.pending = true ∧
      published.generation = 65535 ∧ pumping.ready = true ∧ (after .livePassEnd pumping).map (·.terminal.due) = some [.draft] ∧
      (after .livePassEnd { pumping with terminal := { pumping.terminal with
        lastFore := some 3001, lastAft := some 4000 }, settings := { pumping.settings with draftStep := 2 } }).map
          (·.terminal.due) = some [] ∧
      (after .trialPassEnd flying).map (fun t => (t.engine.trialDone, t.engine.trial.map fun x =>
        (x.inFlight, x.rooms.map fun z => (z.hold, z.joint.isSome)))) = some (true, some (false, [(1, true), (2, true)])) := by
  decide +kernel

theorem test_witness_FiguresReachTheLines :
    let s := { threePours with pours := { threePours.pours with computationsOwed := 0 + 1 } }
    s.PoursOk ∧ s.ready = true ∧ s.pours.computationsOwed = 0 + 1 ∧
      ({ ready with channels := ⟨{ Channel.cold with derivationsOwed := 1 + 1 }, .cold⟩ }).hasChannels = true ∧
      ready.pours.computationsOwed = 0 ∧ (ready.channel .l1).derivationsOwed = 0 ∧
      ready.pfail = false ∧ expired ({ Channel.cold with deadline := some 0 }).deadline ready.clock = true :=
  ⟨threePours_pours, by decide +kernel⟩

/-- Spec 08 R137: a report that is sent between a computation and the derivation after it names the pour stored at the last
derivation, and the one that the computation named only after the next. -/
theorem test_report_names_the_pour_of_the_last_derivation :
    let s := withPours [pour 3]
    let named (t : State) : Option Nat × Option (Option Nat) := (t.channels.l1.named, match t.slotFrame (.clearance .l1) with
      | some (.clearance r) => some r.sequence
      | _ => none)
    let computed := after .clearanceComputation { s with pours := { s.pours with computationsOwed := 1 } }
    computed.map named = some (some 3, some none) ∧
      (computed.bind (after (.channelDerivation .l1))).map named = some (some 3, some (some 3)) := by decide +kernel

theorem test_witness_TerminalAnswersAndReports :
    let fault := { loading with startUp := { loading.startUp with phase := .profileFault } }
    let naming := { withPours [pour 3] with channels := ⟨{ Channel.cold with currentPour := some 3 }, .cold⟩ }
    ready.linkUp = true ∧ ready.ready = true ∧ loading.linkUp = true ∧ loading.startUp.phase = .loading ∧
      ready.terminal.sending = none ∧ ready.terminal.fifo = [] ∧ ready.slotFrame (.pourSummary .l1) = none ∧
      (ready.slotFrame .draft).isSome = true ∧ fault.linkUp = true ∧ fault.startUp.phase = .profileFault ∧
      (after (.berth 9000) fault).map (fun t => t.terminal.fifo.map (·.refused)) = some [some .profileFault] ∧
      (naming.channel .l1).currentPour = some 3 ∧ (naming.pour 3).isSome = true ∧ (ready.channel .l1).currentPour = none ∧
      published.engine.live = some liveSet ∧
      (after .terminalSendStart { ready with terminal := { TerminalPort.cleared with due := [.pourSummary .l1, .draft] } }).map
        (·.terminal.due) = some [.pourSummary .l1] := by decide +kernel

theorem test_witness_FieldLinkSendsAndWatches :
    let s := { discharging with clock := 10 }
    (parked.RecordsOk ∧ parked.OrdersOk ∧ parked.haltSettled) ∧ (pumping.RecordsOk ∧ pumping.OrdersOk ∧ pumping.haltSettled) ∧
      s.RecordsOk ∧ s.linkUp = true ∧ s.field.sending = none ∧ s.ready = true ∧ s.pfail = false ∧ s.field.live = true ∧
      s.settings.silence ≤ elapsed s.field.lastFrame s.clock ∧ elapsed s.field.lastFrame 9 < s.settings.silence ∧
      (s.station 1).state.working = true ∧ parked.ready = true ∧ parked.hasGroup 1 = true ∧ (parked.station 1).state = .off ∧
      parked.ballast.state = .running ∧ parked.pfail = false ∧ parked.field.live = true ∧
      parked.settings.silence ≤ elapsed parked.field.lastFrame parked.clock ∧
      (after .fieldSilenceExpiry pumping).map (fun t => (t.queue 1, (t.order 1).bind (·.holdCause), (t.valve (.tank 1)).commanded)) =
        some ([1, 2], some .trip, .shut) :=
  ⟨⟨parked_records, parked_orders, parked_settled⟩, ⟨pumping_records, pumping_orders, pumping_settled⟩, discharging_records,
    by decide +kernel⟩

theorem test_witness_SoundingsAndExpiriesMoveTheTank :
    let x := { coldTank (tankData 1 none .primary) with status := .fresh, age := 30, strip := .settling 0 }
    let s := withTank x
    s.ready = true ∧ s.RecordsOk ∧ s.hasTank (1 : Octet).toNat = true ∧ s.linkUp = true ∧ (s.tank 1).status = .fresh ∧
      s.settings.stale ≤ (s.tank 1).age ∧ (s.tank 1).strip = .settling 0 ∧ elapsed 0 19 < s.settings.settle ∧
      s.settings.settle ≤ elapsed 0 20 ∧ (ready.tank 1).status = .stale ∧ ready.hasTank (9 : Octet).toNat = false ∧
      ready.linkUp = true ∧ ready.ready = true ∧ loading.linkUp = true ∧ loading.ready = false :=
  ⟨by decide +kernel, fun _ => by unfold State.fits; decide +kernel, by decide +kernel⟩

theorem waiting_queues : waiting.QueuesOk := by
  have hq : ∀ g, waiting.queue g = if g = 1 then [1] else []
    | 0 | 1 | 2 => rfl
    | g + 3 => by rw [if_neg (by omega)]; rfl
  have ho : ∀ k, waiting.order k = if k = 1 then some ⟨100, 1, .queued, none, none, false⟩ else none
    | 0 | 1 | 2 => rfl
    | k + 3 => by rw [if_neg (by omega)]; rfl
  refine ⟨fun g => ?_, fun g k h => ?_, fun k o h hs => ?_⟩
  · rw [hq]; split <;> decide
  · rw [hq] at h; split at h <;> simp_all
  · rw [ho] at h; split at h <;> simp_all; subst h; simp_all

/-- The hull and station of `pumping` with a second group, whose station is OFF and which tank 1's route permits. -/
def fleet : State :=
  { pumping with
    startUp := { pumping.startUp with profile := ⟨⟨5, 8, 0, 4, 2⟩, legalHull⟩ }
    tanks := { dueTank with route := .primaryThenAlternate, alternate := some 2 } :: pumping.tanks.drop 1
    ballast := { pumping.ballast with
      queues := [[2], []], stations := pumping.ballast.stations ++ [coldStation]
      suctionValves := [openValve, startValve 0 60], overboardValves := [openValve, startValve 0 60] } }

theorem fleet_sound : fleet.RecordsOk ∧ fleet.StationsOk ∧ fleet.OrdersOk := sound_of 8 (by decide +kernel)

/-- Spec 05 R85, spec 06 R103, R112: at LOCAL the order of tank 1 goes to group 2, whose station looks and takes it. -/
theorem test_local_reroutes_to_a_station_that_looks :
    (after (.localSwitch 1 .localControl) fleet).map (fun t =>
      ((t.queue 1, t.queue 2), (t.station 1).state, (t.station 2).state, t.order 1)) =
      some (([2], []), .localControl, .lineup, some ⟨100, 2, .active, none, none, false⟩) := by decide +kernel

theorem test_witness_StationsScanAndRerouteTheirQueues :
    (fleet.RecordsOk ∧ fleet.OrdersOk ∧ fleet.linkUp = true ∧ fleet.hasGroup (1 : Octet).toNat = true ∧
      fleet.ballast.state = .running ∧ (fleet.station 1).state = .discharge) ∧
    (pumping.RecordsOk ∧ pumping.OrdersOk ∧ pumping.linkUp = true ∧ pumping.movesTo 1 1 = none ∧
      (after (.localSwitch 1 .localControl) pumping).map (fun t => (t.queue 1, (t.order 1).bind (·.holdCause))) =
        some ([1, 2], some .localControl)) ∧
    waiting.shipIdle ∧ waiting.ready = true ∧ waiting.ballast.state ≠ .running ∧ waiting.RecordsOk ∧ waiting.QueuesOk ∧
      waiting.hasTank 1 = true ∧ (waiting.order 1).isSome = true ∧ waiting.eligible 1 = true ∧
      (waiting.station 1).state = .off ∧ (waiting.station 1).closing = [] ∧ waiting.linkUp = true ∧
      waiting.hasGroup (1 : Octet).toNat = true ∧ (waiting.station 1).state ≠ .localControl := by
  refine ⟨⟨fleet_sound.1, fleet_sound.2.2, by decide +kernel⟩, ⟨pumping_records, pumping_orders, by decide +kernel⟩, ?_,
    by decide +kernel, by decide +kernel, fun _ => ?_, waiting_queues, by decide +kernel⟩
  · unfold State.shipIdle; decide +kernel
  · unfold State.fits; decide +kernel

/-- Spec 02 Table 2.7: where no quantity is at LIMIT, none is worsened. -/
theorem not_worsened_of (s : State) (r : ResultSet) (i : Nat)
    (h : ∀ q ∈ (r.stations.flatMap fun x => [x.sf, x.bm]) ++ [r.trim, r.fore, r.aft], q.status ≠ .limit) :
    ¬s.worsened r i (-1) (· = .limit) := by
  rintro (⟨n, x, d, hx, -, (h' | h')⟩ | h' | h' | h')
  · exact h x.sf (by simp; exact .inl ⟨x, List.mem_of_getElem? hx, .inl rfl⟩) h'.1
  · exact h x.bm (by simp; exact .inl ⟨x, List.mem_of_getElem? hx, .inr rfl⟩) h'.1
  · exact h r.trim (by simp) h'.1
  · exact h r.fore (by simp) h'.1
  · exact h r.aft (by simp) h'.1

theorem test_witness_PumpingStationsAnswerTheirTank :
    let snap : Snapshot := ⟨List.replicate 13 0, .harbour, 950, 15000⟩
    (pumping.ready = true ∧ pumping.pfail = false ∧ pumping.RecordsOk ∧ pumping.StationsOk ∧ pumping.OrdersOk ∧
      pumping.hasGroup 1 = true ∧ pumping.hasTank 1 = true ∧ (pumping.station 1).state = .discharge ∧
      (pumping.station 1).active = some 1 ∧ (pumping.order 1).map (·.target) = some 100) ∧
    (pumping.linkUp = true ∧
      [100, 101].map (fun n => (massAt (pumping.tankData 1) 10000 (levelOf (pumping.tankData 1) n)).1) = [100, 101]) ∧
    (pumping.shipIdle ∧ (head 2 1).table = 2 ∧ intAt [pairOf 10 0 9800] 10 0 = some 9800 ∧
      (massAt (pumping.tankData 1) 9800 101).1 = 99 ∧ (massAt (pumping.tankData 1) 10000 101).1 = 101) ∧
    (100 < (pumping.tank 1).current ∧ (pumping.tank 1).status = .fresh ∧ pumping.settings.stale ≤ (pumping.tank 1).age) ∧
    (pumping.engine.state = .livePass snap ∧
      ¬pumping.worsened (evaluate pumping.hull snap 1) (5 + (1 - 1)) (-1) (· = .limit) ∧
      stressedPumping.worsened (evaluate stressedPumping.hull snap 1) (5 + (1 - 1)) (-1) (· = .limit)) ∧
    (pumping.tank 1).strip = .settling 0 ∧ pumping.settings.settle ≤ elapsed 0 pumping.clock :=
  ⟨⟨by decide +kernel, by decide +kernel, pumping_records, pumping_stations, pumping_orders, by decide +kernel⟩,
    by decide +kernel, ⟨pumping_idle, by decide +kernel⟩, by decide +kernel,
    ⟨by decide +kernel, not_worsened_of _ _ _ (by decide +kernel),
      .inl ⟨0, _, _, rfl, rfl, .inl (by decide +kernel)⟩⟩, by decide +kernel⟩

theorem test_witness_ValveReportsConfirmOrTrip :
    let with' (st : Station) (suction tank1 tank2 : Valve) : State := { pumping with
      ballast := { pumping.ballast with
        stations := [st], suctionValves := [suction]
        tankValves := tank1 :: tank2 :: List.replicate 6 (startValve 0 60) } }
    let awaited : Valve := { openValve with confirmed := false, deadline := some 0 }
    let owned : Valve := { openValve with owner := some 1 }
    let shutting : Valve := { awaited with commanded := .shut, owner := some 1 }
    let lineup := with' { coldStation with state := .lineup, active := some 1 } awaited owned (startValve 0 60)
    let changing := with' { (pumping.station 1) with state := .changeover, active := some 2, closing := [1] } openValve shutting owned
    let tripped := manned parked { coldStation with state := .tripped }
    let awaitingTank := with' { coldStation with state := .lineup, active := some 1 } openValve { awaited with owner := some 1 }
      (startValve 0 60)
    let changes (s : State) : State := { s with
      ballast := { s.ballast with orders := [none, some ⟨0, 1, .active, none, none, false⟩] ++ List.replicate 6 none, queues := [[]] } }
    let opening := changes (with' { (pumping.station 1) with state := .changeover, active := some 2, closing := [1] } openValve owned
      { awaited with owner := some 1 })
    let shut := changes changing
    let closing (suction tank1 : Valve) (tanks : List Nat) : State :=
      let s := with' { coldStation with state := .stopping .closing, closing := tanks } suction tank1 (startValve 0 60)
      { s with ballast := { s.ballast with
          orders := List.replicate 8 none, queues := [[]], overboardValves := [{ startValve 0 60 with confirmed := true }] } }
    let lastLine := closing (startValve 0 60) (startValve 0 60) []
    let lastTank := closing { startValve 0 60 with confirmed := true } { startValve 0 60 with owner := some 1 } [1]
    (∀ s ∈ [pumping, lineup, awaitingTank, opening, shut, lastLine, lastTank], s.RecordsOk ∧ s.StationsOk ∧ s.OrdersOk) ∧
    [after (.valvePosition 1 .opened) awaitingTank, after (.valvePosition 2 .opened) opening,
      after (.valvePosition 33 .shut) lastLine, after (.valvePosition 1 .shut) lastTank,
      after (.valvePosition 33 .opened) pumping].map (fun t => t.map fun t =>
        ((t.station 1).state, (t.station 1).closing, (t.valve (.tank 1)).owner, (t.valve (.tank 1)).commanded)) =
      [some (.priming, [], some 1, .opened), some (.changeover, [1], some 1, .shut), some (.off, [], none, .shut),
        some (.off, [], none, .shut), some (.discharge, [], some 1, .opened)] ∧
    (pumping.RecordsOk ∧ pumping.OrdersOk ∧ pumping.haltSettled ∧ tripped.haltSettled) ∧
    (pumping.ready = true ∧ pumping.pfail = false ∧ pumping.hasValve (.suction 1) = true ∧
      valveOfKey (33 : Octet).toNat = some (.suction 1) ∧ pumping.stationOf (.tank 2) = none ∧
      (pumping.valve (.suction 1)).confirmed = true ∧ (pumping.station 1).state.working = true) ∧
    (lineup.stationOf (.suction 1) = some 1 ∧ (lineup.station 1).state = .lineup ∧ lineup.confirmedAt (.overboard 1) .opened = true ∧
      lineup.confirmedAt (.tank 1) .opened = true ∧ (lineup.valve (.suction 1)).commanded = .opened ∧
      expired (lineup.valve (.suction 1)).deadline lineup.clock = true ∧ (lineup.valve (.suction 1)).confirmed = false) ∧
    (after (.valvePosition 33 .opened) lineup).map (fun t => (t.station 1).state) = some .priming ∧
    ((after (.valvePosition 1 .shut) changing).map fun t => ((t.station 1).state, (t.station 1).closing, (t.valve (.tank 1)).owner)) =
      some (.stopping .rundown, [2], none) ∧
    (after (.valvePosition 1 .shut) { changing with
      tanks := [dueTank, { dueTank with strip := .above }] ++ List.replicate 6 (coldTank (tankData 1 none .primary)) }).map
      (fun t => ((t.station 1).state, (t.station 1).pumpCommanded)) = some (.discharge, .runFull) ∧
    ((after (.valvePosition 33 .shut) pumping).map (fun t =>
      (t.queue 1, (t.order 1).bind (·.holdCause), (t.valve (.tank 1)).commanded)) = some ([1, 2], some .trip, .shut)) ∧
    tripped.stationOf (.suction 1) = some 1 ∧ (tripped.station 1).state.working = false ∧ valveOfKey (30 : Octet).toNat = none ∧
    valveOfKey (34 : Octet).toNat = some (.suction 2) ∧ pumping.hasValve (.suction 2) = false ∧ loading.linkUp = true ∧
    loading.ready = false :=
  ⟨by
    simp only [List.forall_mem_cons, List.not_mem_nil, false_imp_iff, implies_true, and_true]
    exact ⟨pumping_sound, sound_of 8 (by decide +kernel), sound_of 8 (by decide +kernel), sound_of 8 (by decide +kernel),
      sound_of 8 (by decide +kernel), sound_of 8 (by decide +kernel), sound_of 8 (by decide +kernel)⟩, by decide +kernel,
    ⟨pumping_records, pumping_orders, pumping_settled, fun h => absurd h.1 (by decide +kernel)⟩, by decide +kernel⟩

theorem discharging_settled : discharging.haltSettled := by
  intro h; exact absurd h.1 (by decide +kernel)

theorem test_witness_PumpAndSwitchReportsMoveTheStation :
    let halting := { discharging with ballast := { discharging.ballast with state := .halting } }
    discharging.RecordsOk ∧ discharging.haltSettled ∧ (pumping.RecordsOk ∧ pumping.OrdersOk) ∧
      (fleet.RecordsOk ∧ fleet.OrdersOk ∧ fleet.linkUp = true ∧ fleet.ready = true ∧ (fleet.station 1).state = .discharge ∧
        fleet.ballast.state = .running) ∧ (parked.RecordsOk ∧ parked.OrdersOk) ∧ discharging.linkUp = true ∧ discharging.ready = true ∧
      discharging.hasGroup (1 : Octet).toNat = true ∧ discharging.hasGroup (3 : Octet).toNat = false ∧
      (discharging.station 1).state = .discharge ∧ halting.hasTank 1 = true ∧ (halting.station 1).active = some 1 ∧
      (halting.order 1).isSome = true ∧ (halting.valve (.tank 1)).owner = some 1 ∧
      (after (.localSwitch 1 .localControl) halting).map (fun t =>
        ((t.valve (.tank 1)).owner, (t.valve (.tank 2)).deadline, (t.valve (.suction 1)).deadline)) = some (none, some 60, none) ∧
      ((withStation { coldStation with state := .localControl }).station 1).state = .localControl ∧
      loading.linkUp = true ∧ loading.ready = false ∧ parked.linkUp = true ∧ parked.ready = true :=
  ⟨discharging_records, discharging_settled, ⟨pumping_records, pumping_orders⟩,
    ⟨fleet_sound.1, fleet_sound.2.2, by decide +kernel⟩, ⟨parked_records, parked_orders⟩, by decide +kernel⟩

/-- The station of `pumping` at its priming deadline, its tank as given. -/
def primed (x : Tank) : State :=
  { manned pumping { pumping.station 1 with state := .priming, deadline := some 0 } with tanks := x :: pumping.tanks.drop 1 }

/-- The same under the hull of `stressedPumping`, with a published set that has a quantity at LIMIT. -/
def primedStressed : State :=
  { primed dueTank with
    startUp := stressedPumping.startUp
    engine := { Engine.idle with live := some (evaluate stressedPumping.hull ⟨List.replicate 13 0, .harbour, 950, 15000⟩ 1) } }

/-- A station at its rundown deadline with its pump stopped, its line valves and the valve of tank 1 as given. -/
def stopping (closing : List Nat) (resuming : Bool) (line tank1 : Valve) : State :=
  { parked with ballast := { parked.ballast with
      stations := [{ coldStation with
        state := .stopping .rundown, closing := closing, resuming := resuming, pumpReported := .stopped, deadline := some 0 }]
      suctionValves := [line], overboardValves := [line], tankValves := tank1 :: List.replicate 7 (startValve 0 60) } }

/-- A valve confirmed SHUT. -/
def shutValve : Valve := { startValve 0 60 with confirmed := true, deadline := none }

/-- Spec 06 R106: the entry into DISCHARGE, and its four tests in their order. -/
theorem test_entry_into_discharge_makes_its_tests :
    [primed dueTank, primed { dueTank with current := 100 }, primed { dueTank with status := .stale },
      primed { dueTank with strip := .below }, primedStressed].map (fun s => (after (.primingExpiry 1) s).map fun t =>
        ((t.station 1).state, (t.order 1).bind (·.holdCause))) =
      [some (.discharge, none), some (.stopping .rundown, none), some (.stopping .rundown, some .stale), some (.strip, none),
        some (.stopping .rundown, some .stress)] := by decide +kernel

/-- Spec 06 R109, R112: at the rundown deadline a line is commanded SHUT, a line shut already is sent SHUT again after LOCAL, and
otherwise its station is OFF. -/
theorem test_rundown_closes_the_line :
    [stopping [1] false openValve { openValve with owner := some 1 }, stopping [] true shutValve (startValve 0 60),
      stopping [] false shutValve (startValve 0 60)].map (fun s => (after (.rundownExpiry 1) s).map fun t =>
        ((t.station 1).state, t.field.outbound)) =
      [some (.stopping .closing, [.valve (.suction 1) .shut, .valve (.overboard 1) .shut, .valve (.tank 1) .shut]),
        some (.stopping .closing, [.valve (.suction 1) .shut, .valve (.overboard 1) .shut]), some (.off, [])] := by
  decide +kernel

theorem test_witness_StationDeadlinesMoveTheStation :
    let priming := withStation { coldStation with state := .priming, active := some 1, pumpReported := .running, deadline := some 0 }
    let rundown := withStation { coldStation with state := .stopping .rundown, pumpReported := .stopped, deadline := some 0 }
    let strip := withStation { coldStation with state := .strip, active := some 1, lowSince := some 0, dryRun := 0 }
    (∀ s ∈ [primed dueTank, primed { dueTank with current := 100 }, primed { dueTank with status := .stale },
        primed { dueTank with strip := .below }, primedStressed, stopping [1] false openValve { openValve with owner := some 1 },
        stopping [] true shutValve (startValve 0 60), stopping [] false shutValve (startValve 0 60),
        manned pumping { pumping.station 1 with
          state := .strip, pumpCommanded := .runReduced, lowSince := some 0, dryRun := 20 }],
      s.RecordsOk ∧ s.StationsOk ∧ s.OrdersOk) ∧
    (∃ r, primedStressed.engine.live = some r ∧ primedStressed.worsened r (5 + (1 - 1)) (-1) (· = .limit)) ∧
    priming.RecordsOk ∧
      (manned pumping { coldStation with
        state := .priming, active := some 1, pumpCommanded := .runFull, deadline := some 0 }).OrdersOk ∧
      (manned parked { coldStation with state := .stopping .rundown, deadline := some 0 }).OrdersOk ∧
      (manned pumping { pumping.station 1 with lowSince := some 0, dryRun := 20 }).OrdersOk ∧
      priming.ready = true ∧ priming.pfail = false ∧ priming.hasGroup 1 = true ∧
      expired (priming.station 1).deadline priming.clock = true ∧ (priming.station 1).active = some 1 ∧
      (rundown.station 1).pumpReported = .stopped ∧ expired (rundown.station 1).deadline rundown.clock = true ∧
      rundown.ballast.state ≠ .running ∧ (strip.station 1).dryRun ≤ elapsed 0 strip.clock ∧
      (strip.order 1).isSome = true ∧ strip.hasTank 1 = true ∧ 1 ∉ strip.queue 1 ∧
      (priming.order 1).any (fun o => decide (o.target < ({ priming with
        tanks := [{ coldTank (tankData 1 none .primary) with current := 101, status := .fresh }] }.tank 1).current)) = true :=
  ⟨by
    simp only [List.forall_mem_cons, List.not_mem_nil, false_imp_iff, implies_true, and_true]
    exact ⟨sound_of 8 (by decide +kernel), sound_of 8 (by decide +kernel), sound_of 8 (by decide +kernel),
      sound_of 8 (by decide +kernel), sound_of 8 (by decide +kernel), sound_of 8 (by decide +kernel),
      sound_of 8 (by decide +kernel), sound_of 8 (by decide +kernel), sound_of 8 (by decide +kernel)⟩,
    ⟨_, rfl, .inl ⟨0, _, _, rfl, rfl, .inl (by decide +kernel)⟩⟩,
    fun _ => by unfold State.fits; decide +kernel, (sound_of 8 (by decide +kernel)).2.2,
    (sound_of 8 (by decide +kernel)).2.2, (sound_of 8 (by decide +kernel)).2.2, by decide +kernel⟩

end Sys2Proof.Tests
end

