-- ==== Sys2Proof/Proofs/Scope.lean ====
section
/-! PROOFS. The scope of the commands: every one completes and leaves the queue, none acts on a part that is down, and the
supply and the Time Base keep the count. First what the shared operations keep, said once for any property of the state. -/

namespace Sys2Proof.Machine

/-! ### Properties that requests, notices and field frames keep -/

section Keeps

variable {P : State → Prop} {s : State}

/-- An action keeps what its own rule's answer keeps. -/
theorem actionRequest_keeps {waits : Bool} {respond : State → Answer} (answer : P (respond s).state) (h : P s) :
    P (s.actionRequest waits respond).state := by
  obtain ⟨_, busy⟩ | ⟨_, taken⟩ := actionRequest_cases (s := s) (waits := waits) (respond := respond)
  · rw [busy]; exact h
  · rw [taken]; exact answer

/-- A record request keeps what the answers of the tables' rules keep. -/
theorem recordRequest_keeps {head : ShipHead} {look : Bool} {named : State → Table → Nat → Bool}
    {respond : Table → Nat → State → Answer} (answer : ∀ t k, P (respond t k s).state) (h : P s) :
    P (s.recordRequest head look named respond).state := by
  obtain busy | unnamed | ⟨t, _, _, taken⟩ :=
    recordRequest_cases (s := s) (head := head) (look := look) (named := named) (respond := respond)
  · rw [busy]; exact h
  · rw [unnamed]; exact h
  · rw [taken]; exact answer t _

theorem keyless_keeps {head : ShipHead} {respond : State → Answer} (answer : P (respond s).state) (h : P s) :
    P (s.keyless head respond).state := by
  unfold State.keyless; split
  · exact answer
  · exact h

theorem unlessFault_keeps {respond : State → Answer} (answer : P (respond s).state) (h : P s) :
    P (s.unlessFault respond).state := by
  unfold State.unlessFault; split
  · exact answer
  · exact h

/-- A trial action keeps what its own rule's answer keeps. -/
theorem trialRequest_keeps {head : ShipHead} {respond : State → Answer} (answer : P (respond s).state) (h : P s) :
    P (s.trialRequest head respond).state :=
  actionRequest_keeps (keyless_keeps (unlessFault_keeps answer h) h) h

/-- A Put keeps what its storing keeps. -/
theorem takePut_keeps {ps : List Pair} {checks : List PutCheck} {store : State → State} {record : State → List Pair}
    (stored : P (store s)) (h : P s) : P (s.takePut ps checks store record).state := by
  obtain ⟨_, _, _, refused⟩ | ⟨_, taken⟩ :=
    takePut_cases (s := s) (ps := ps) (checks := checks) (store := store) (record := record)
  · rw [refused]; exact h
  · rw [taken]; exact stored

/-- A request of the ship link keeps what the ship port does not concern and the answer keeps. -/
theorem takeRequest_keeps {kind : Nat} {head : ShipHead} {respond : State → Answer}
    (port : ∀ t p, P t → P { t with ship := p }) (answer : P (respond s).state) (h : P s) :
    P (s.takeRequest kind head respond) := by
  unfold State.takeRequest; split
  · dsimp only; split
    · exact port s _ h
    · exact port _ _ answer
  · exact h

/-- A notice keeps what the terminal port does not concern and its own rule keeps. -/
theorem takeNotice_keeps {kind : NoticeKind} {l : Option Loader} {q : Option (BitVec 16)} {r : Reason}
    {act : State → State} (port : ∀ t p, P t → P { t with terminal := p }) (acts : ∀ t, P t → P (act t)) (h : P s) :
    P (s.takeNotice kind l q r act) := by
  have reply (t : State) (x : NoticeReply) (ht : P t) : P (t.placeReply x) := by
    unfold State.placeReply; split
    · exact port t _ ht
    · exact ht
  unfold State.takeNotice; split
  · have taken := port s { s.terminal with receiving := none } h
    dsimp only; split
    · exact acts _ taken
    · exact reply _ _ taken
    · exact reply _ _ taken
    · exact reply _ _ taken
  · exact h

/-- A field frame keeps what the field port does not concern and its own rule keeps. -/
theorem takeField_keeps {present : State → Bool} {act : State → State}
    (port : ∀ t p, P t → P { t with field := p }) (acts : ∀ t, P t → P (act t)) (h : P s) :
    P (s.takeField present act) := by
  unfold State.takeField; split
  · have taken := port s { s.field with receiving := none } h
    dsimp only; split
    · have watched := port { s with field.receiving := none } { s.field with
        receiving := none, lastFrame := s.clock, live := true } taken
      split
      · exact acts _ watched
      · exact watched
    · exact taken
  · exact h

/-- A guarded operation keeps what it keeps where it acts. -/
theorem guarded_keeps {p : Prop} [Decidable p] {t : State} (acts : P t) (h : P s) : P (if p then t else s) := by
  split
  · exact acts
  · exact h

end Keeps

/-! ### Frames of the Ballast Sequencer and of the channels -/

theorem warmReturn_frame (t : Nat) (s : State) : BallastFrame s (s.warmReturn t) := by
  unfold State.warmReturn; split
  · exact .ite ((updOrder_frame _ _ _).trans (setQueue_frame _ _ _)) (.refl s)
  · exact .refl s

theorem pfailChannels_frame (s : State) : s.onlyChannels s.pfailChannels :=
  onlyChannels_trans (updChannel_onlyChannels s .l1 _)
    (onlyChannels_trans (updChannel_onlyChannels _ .l2 _) (deriveBoth_frame _ _))

theorem expireTallies_frame (s : State) : s.onlyChannels s.expireTallies :=
  unordered_keeps (s.onlyChannels ·) (fun _ h => onlyChannels_trans h rfl)
    (fun l _ _ h => guarded_keeps (onlyChannels_trans h (expireTallyTimer_frame _ l)) h) (onlyChannels_refl s)

theorem storeAction_frame (l : Loader) (a : TimeoutAction) (s : State) : s.onlyChannels (s.storeAction l a) := by
  unfold State.storeAction; split
  · exact onlyChannels_refl s
  · exact onlyChannels_trans (updChannel_onlyChannels s l _) (deriveChannel_frame _ l)

theorem force_frame (ls : List Loader) (f : ForcedLevel) (s : State) : s.onlyChannels (s.force ls f) := by
  have store (xs : List Loader) (t : State) (h : s.onlyChannels t) :
      s.onlyChannels (xs.foldl (fun s l => (s.updChannel l ({ · with forced := f })).oweDerivation l) t) := by
    induction xs generalizing t with
    | nil => exact h
    | cons l xs ih =>
      exact ih _ (onlyChannels_trans h
        (onlyChannels_trans (updChannel_onlyChannels t l _) (updChannel_onlyChannels _ l _)))
  unfold State.force
  exact unordered_keeps (s.onlyChannels ·) (fun _ h => onlyChannels_trans h rfl)
    (fun l _ t h => onlyChannels_trans h (rewriteOutput_frame t l)) (store ls s (onlyChannels_refl s))

/-! ### The frame of the Pour Controller -/

/-- From `s` to `t` at most what the Pour Controller writes and hands on differs: the holds, the dirty mark of the live pass,
the pour records, the channels, the terminal port and the count of free choices. -/
def State.onlyPours (s t : State) : Prop :=
  t = { s with
    holds := t.holds, engine := { s.engine with dirty := t.engine.dirty }, pours := t.pours
    channels := t.channels, terminal := t.terminal, draws := t.draws }

theorem onlyPours_refl (s : State) : s.onlyPours s := rfl

theorem onlyPours_trans {s t u : State} (h : s.onlyPours t) (k : t.onlyPours u) : s.onlyPours u := by
  unfold State.onlyPours at *; rw [k, h]

theorem updHold_onlyPours (h : Nat) (f : Hold → Hold) (s : State) : s.onlyPours (s.updHold h f) := rfl

theorem updPour_onlyPours (n : Nat) (f : Pour → Pour) (s : State) : s.onlyPours (s.updPour n f) := rfl

theorem updChannel_onlyPours (l : Loader) (f : Channel → Channel) (s : State) : s.onlyPours (s.updChannel l f) := rfl

theorem oweDerivation_onlyPours (l : Loader) (s : State) : s.onlyPours (s.oweDerivation l) := rfl

theorem markDirty_onlyPours (s : State) : s.onlyPours s.markDirty := by
  unfold State.markDirty; split <;> rfl

theorem oweComputation_onlyPours (s : State) : s.onlyPours s.oweComputation := by
  unfold State.oweComputation; split <;> rfl

theorem makeDue_onlyPours (x : Slot) (s : State) : s.onlyPours (s.makeDue x) := by
  unfold State.makeDue; split <;> rfl

theorem setPours_onlyPours (ps : List Pour) (s : State) : s.onlyPours { s with pours.list := ps } := rfl

/-- What the Pour Controller does before a cause of computation. -/
theorem onlyPours_oweComputation {s t : State} (h : s.onlyPours t) : s.onlyPours t.oweComputation :=
  onlyPours_trans h (oweComputation_onlyPours t)

theorem deriveHold_onlyPours (h : Nat) (s : State) : s.onlyPours (s.deriveHold h) := by
  unfold State.deriveHold; dsimp only; split
  · exact updHold_onlyPours h _ s
  · exact onlyPours_oweComputation (onlyPours_trans (updHold_onlyPours h _ s) (markDirty_onlyPours _))

theorem setEstimator_onlyPours (l : Loader) (e : Estimator) (s : State) : s.onlyPours (s.setEstimator l e) := by
  unfold State.setEstimator; dsimp only; split
  · rfl
  · exact onlyPours_oweComputation rfl

theorem resetEstimator_onlyPours (l : Loader) (s : State) : s.onlyPours (s.resetEstimator l) :=
  setEstimator_onlyPours l _ s

theorem feedEstimator_onlyPours (l : Loader) (n : Nat) (s : State) : s.onlyPours (s.feedEstimator l n) :=
  setEstimator_onlyPours l _ s

theorem startTallyTimer_onlyPours (l : Loader) (s : State) : s.onlyPours (s.startTallyTimer l) :=
  onlyPours_trans (updChannel_onlyPours l _ s) (oweDerivation_onlyPours l _)

theorem stopTallyTimer_onlyPours (l : Loader) (s : State) : s.onlyPours (s.stopTallyTimer l) :=
  onlyPours_trans (updChannel_onlyPours l _ s) (oweDerivation_onlyPours l _)

theorem overrunTest_onlyPours (l : Loader) (n : Nat) (s : State) : s.onlyPours (s.overrunTest l n) := by
  unfold State.overrunTest; split
  · exact onlyPours_refl s
  · exact guarded_keeps (onlyPours_trans (updPour_onlyPours n _ s) (updChannel_onlyPours l _ _)) (onlyPours_refl s)

theorem acceptStart_onlyPours (l : Loader) (n : Nat) (rate : Int) (s : State) :
    s.onlyPours (s.acceptStart l n rate) :=
  onlyPours_oweComputation (onlyPours_trans (onlyPours_trans (onlyPours_trans (updPour_onlyPours n _ s)
    (deriveHold_onlyPours _ _)) (resetEstimator_onlyPours l _)) (startTallyTimer_onlyPours l _))

theorem acceptTally_onlyPours (l : Loader) (p : Pour) (amount : Nat) (s : State) :
    s.onlyPours (s.acceptTally l p amount) :=
  onlyPours_oweComputation (onlyPours_trans (onlyPours_trans (onlyPours_trans (onlyPours_trans
    (updPour_onlyPours _ _ s) (deriveHold_onlyPours _ _)) (feedEstimator_onlyPours l _ _)) (overrunTest_onlyPours l _ _))
    (startTallyTimer_onlyPours l _))

theorem takeFinal_onlyPours (l : Loader) (p : Pour) (final : Int) (s : State) : s.onlyPours (s.takeFinal l p final) := by
  unfold State.takeFinal; split
  · exact onlyPours_trans (updPour_onlyPours _ _ s) (overrunTest_onlyPours l _ _)
  · exact updChannel_onlyPours l _ s

theorem noteEnd_onlyPours (l : Loader) (n : Nat) (s : State) : s.onlyPours (s.noteEnd l n) := by
  unfold State.noteEnd; split <;> rfl

theorem endActive_onlyPours (l : Loader) (p : Pour) (final : Int) (s : State) : s.onlyPours (s.endActive l p final) := by
  have done := onlyPours_trans (takeFinal_onlyPours l p final s) (updPour_onlyPours p.sequence ({ · with state := .done }) _)
  have noted := onlyPours_trans (onlyPours_trans (onlyPours_trans done (deriveHold_onlyPours p.hold _))
    (resetEstimator_onlyPours l _)) (noteEnd_onlyPours l p.sequence _)
  exact onlyPours_oweComputation (onlyPours_trans (onlyPours_trans noted (makeDue_onlyPours _ _))
    (stopTallyTimer_onlyPours l _))

theorem closePour_onlyPours (p : Pour) (s : State) : s.onlyPours (s.closePour p) := by
  have done := onlyPours_trans (updPour_onlyPours p.sequence ({ · with state := .done }) s) (deriveHold_onlyPours p.hold _)
  unfold State.closePour; dsimp only; split
  · exact onlyPours_oweComputation (onlyPours_trans done (resetEstimator_onlyPours _ _))
  · exact onlyPours_oweComputation done

theorem removePour_onlyPours (p : Pour) (s : State) : s.onlyPours (s.removePour p) := by
  have kept : s.onlyPours (s.keepGone p) :=
    onlyPours_trans (updChannel_onlyPours .l1 _ s) (updChannel_onlyPours .l2 _ _)
  have folded : s.onlyPours (if p.state = .planned then s.keepGone p else (s.keepGone p).fold p.hold p.tallied) := by
    split
    · exact kept
    · exact onlyPours_trans kept (updHold_onlyPours _ _ _)
  exact onlyPours_oweComputation (onlyPours_trans (onlyPours_trans folded (setPours_onlyPours _ _))
    (deriveHold_onlyPours _ _))

theorem createPour_onlyPours (n : Nat) (ps : List Pair) (s : State) : s.onlyPours (s.createPour n ps).state :=
  takePut_keeps (P := (s.onlyPours ·)) (onlyPours_oweComputation (setPours_onlyPours _ s)) (onlyPours_refl s)

theorem amendPour_onlyPours (n : Nat) (p : Pour) (ps : List Pair) (s : State) : s.onlyPours (s.amendPour n p ps).state :=
  takePut_keeps (P := (s.onlyPours ·)) (onlyPours_oweComputation (updPour_onlyPours n _ s)) (onlyPours_refl s)

end Sys2Proof.Machine
end

