-- ==== Sys2Proof/Proofs/Queue.lean ====
section
/-! PROOFS. No operation touches the queue of commands. -/

namespace Sys2Proof.Machine

/-- `t` has the queue of `s`. -/
def State.sameQueue (s t : State) : Prop := t.pending = s.pending

theorem sameQueue_trans {s t u : State} (h : s.sameQueue t) (k : t.sameQueue u) : s.sameQueue u := Eq.trans k h

theorem BallastFrame.sameQueue {s t : State} (h : BallastFrame s t) : s.sameQueue t := by
  unfold State.sameQueue; rw [h.rest]

theorem State.onlyChannels.sameQueue {s t : State} (h : s.onlyChannels t) : s.sameQueue t := by
  unfold State.sameQueue; rw [h]

theorem State.onlyPours.sameQueue {s t : State} (h : s.onlyPours t) : s.sameQueue t := by
  unfold State.sameQueue; rw [h]

theorem markDirty_sameQueue (s : State) : s.sameQueue s.markDirty := State.markDirty_pending s

theorem oweComputation_sameQueue (s : State) : s.sameQueue s.oweComputation := State.oweComputation_pending s

theorem makeDue_sameQueue (x : Slot) (s : State) : s.sameQueue (s.makeDue x) := State.makeDue_pending x s

theorem placeReply_sameQueue (r : NoticeReply) (s : State) : s.sameQueue (s.placeReply r) := State.placeReply_pending r s

theorem settle_sameQueue (all : Bool) (before s : State) : s.sameQueue (s.settle all before) :=
  (settle_frame all before s).sameQueue

/-- What a step of the Ballast Sequencer leaves in the queue its looks leave there too. -/
theorem sameQueue_settle {s t before : State} {all : Bool} (h : s.sameQueue t) : s.sameQueue (t.settle all before) :=
  sameQueue_trans h (settle_sameQueue all before t)

/-! ### Start-up, supply and PFAIL -/

theorem warmRecords_sameQueue (s : State) : s.sameQueue s.warmRecords :=
  (BallastFrame.foldl (fun s t => warmReturn_frame t s) _ _).sameQueue

theorem coldRecords_sameQueue (s : State) : s.sameQueue s.coldRecords := rfl

theorem withStartValves_sameQueue (s : State) : s.sameQueue s.withStartValves := rfl

theorem enterReady_sameQueue (o : StartOutcome) (check : BitVec 16) (s : State) : s.sameQueue (s.enterReady o check) := rfl

theorem loadClean_sameQueue (image : List Octet) (h : Hull) (s : State) : s.sameQueue (s.loadClean image h) := by
  have entered (o : StartOutcome) {t : State} (ht : s.sameQueue t) :
      s.sameQueue (t.withStartValves.enterReady o (imageCrc image)) :=
    sameQueue_trans (sameQueue_trans ht (withStartValves_sameQueue t)) (enterReady_sameQueue o _ _)
  have loaded : s.sameQueue { s with startUp.profile := loadedProfile image h } := rfl
  unfold State.loadClean; dsimp only; split
  · exact entered .warm (sameQueue_trans loaded (warmRecords_sameQueue _))
  · exact entered .cold (sameQueue_trans loaded (coldRecords_sameQueue _))

theorem enterFault_sameQueue (f : Finding) (s : State) : s.sameQueue (s.enterFault f) := rfl

theorem resumeReady_sameQueue (s : State) : s.sameQueue s.resumeReady := by
  have watched : s.sameQueue
    { s with startUp.marker := { s.startUp.marker with valid := false } }.restartSilence := rfl
  unfold State.resumeReady
  exact sameQueue_trans (sameQueue_trans watched (expireTallies_frame _).sameQueue) (takeDeferred_frame _).sameQueue

theorem writeMarker_sameQueue (s : State) : s.sameQueue s.writeMarker := rfl

theorem restart_sameQueue (s : State) : s.sameQueue s.restart := (deriveBoth_frame _ _).sameQueue

theorem purgeTest_sameQueue (s : State) : s.sameQueue s.purgeTest := guarded_keeps rfl rfl

theorem purgeOne_sameQueue (s : State) : s.sameQueue s.purgeOne := by
  unfold State.purgeOne; split
  · exact purgeTest_sameQueue s
  · exact sameQueue_trans (removePour_onlyPours _ s).sameQueue (purgeTest_sameQueue _)

/-! ### Intervals, soundings and publications -/

theorem handBallast_sameQueue (c : KeptChange) (s : State) : s.sameQueue (s.handBallast c c.act) :=
  (handBallast_frame c (keptChange_frame c) s).sameQueue

theorem staleExpires_sameQueue (t : Nat) (s : State) : s.sameQueue (s.staleExpires t) :=
  guarded_keeps (sameQueue_trans (oweComputation_sameQueue (s.updTank t Tank.staled)) (handBallast_sameQueue (.stale t) _)) rfl

theorem settleExpires_sameQueue (t : Nat) (s : State) : s.sameQueue (s.settleExpires t) :=
  guarded_keeps (handBallast_sameQueue (.belowStrip t) (s.updTank t ({ · with strip := .below }))) rfl

theorem silenceExpires_sameQueue (s : State) : s.sameQueue s.silenceExpires :=
  guarded_keeps (linkLost_frame { s with field.live := false }).sameQueue rfl

theorem intervalEffect_sameQueue (e : IntervalEffect) (s : State) : s.sameQueue (e.act s) := by
  cases e with
  | stale t => exact staleExpires_sameQueue t s
  | settle t => exact settleExpires_sameQueue t s
  | silence => exact silenceExpires_sameQueue s

/-- The marks that a changed mass leaves: the pass dirty, a computation owed. -/
theorem massMarks_sameQueue (p q : Bool) (s : State) :
    s.sameQueue (if q then (if p then s.markDirty else s).oweComputation else if p then s.markDirty else s) := by
  have marked : s.sameQueue (if p then s.markDirty else s) := guarded_keeps (markDirty_sameQueue s) rfl
  exact guarded_keeps (sameQueue_trans marked (oweComputation_sameQueue _)) marked

theorem handSounding_sameQueue (t : Nat) (before : Tank) (s : State) : s.sameQueue (s.handSounding t before) := by
  unfold State.handSounding; dsimp only
  exact sameQueue_settle (sameQueue_trans (massMarks_sameQueue _ _ s) (ballastSounding_frame t _).sameQueue)

theorem goodSounding_sameQueue (t reading : Nat) (s : State) : s.sameQueue (s.goodSounding t reading) :=
  handSounding_sameQueue t _ (s.updTank t _)

theorem draftStepTest_sameQueue (r : ResultSet) (s : State) : s.sameQueue (s.draftStepTest r) :=
  guarded_keeps (makeDue_sameQueue .draft s) rfl

theorem publish_sameQueue (r : ResultSet) (s : State) : s.sameQueue (s.publish r) := by
  refine sameQueue_trans (sameQueue_trans ?_ (draftStepTest_sameQueue r _)) (handBallast_sameQueue (.publication r) _)
  exact oweComputation_sameQueue _

/-! ### Puts -/

theorem putHold_sameQueue (h : Nat) (ps : List Pair) (s : State) : s.sameQueue (s.putHold h ps).state := by
  refine takePut_keeps ?_ rfl
  split
  · exact (deriveHold_onlyPours h (s.updHold h _)).sameQueue
  · rfl

theorem putItem_sameQueue (i : Nat) (ps : List Pair) (s : State) : s.sameQueue (s.putItem i ps).state := by
  refine takePut_keeps ?_ rfl
  split
  · unfold State.storeItem; dsimp only; split
    · rfl
    · exact markDirty_sameQueue { s with items := _ }
  · rfl

theorem handTankPut_sameQueue (t : Nat) (before : Tank) (s : State) : s.sameQueue (s.handTankPut t before) := by
  have marked := massMarks_sameQueue (decide ((s.tank t).current ≠ before.current))
    (decide ((s.tank t).current ≠ before.current) ||
      decide (before.status = .stale ∧ (s.tank t).status ≠ .stale)) s
  have told := guarded_keeps (p := decide ((s.tank t).current ≠ before.current) = true)
    (sameQueue_trans marked (ballastPutMass_frame t _).sameQueue) marked
  exact guarded_keeps (sameQueue_settle told) told

theorem putTank_sameQueue (t : Nat) (ps : List Pair) (s : State) : s.sameQueue (s.putTank t ps).state :=
  takePut_keeps (handTankPut_sameQueue t _ (s.updTank t _)) rfl

theorem putPour_sameQueue (n : Nat) (ps : List Pair) (s : State) : s.sameQueue (s.putPour n ps).state := by
  unfold State.putPour; split
  · exact (createPour_onlyPours n ps s).sameQueue
  · exact (amendPour_onlyPours n _ ps s).sameQueue

theorem putNewOrder_sameQueue (t : Nat) (ps : List Pair) (s : State) : s.sameQueue (s.putNewOrder t ps).state :=
  takePut_keeps (enterOrder_frame t ps s).sameQueue rfl

theorem putOrder_sameQueue (t : Nat) (ps : List Pair) (s : State) : s.sameQueue (s.putOrder t ps).state := by
  unfold State.putOrder; split
  · exact putNewOrder_sameQueue t ps s
  · split
    · exact putNewOrder_sameQueue t ps s
    · exact takePut_keeps (amendOrder_frame t _ ps s).sameQueue rfl

theorem putStation_sameQueue (g : Nat) (ps : List Pair) (s : State) : s.sameQueue (s.putStation g ps).state :=
  takePut_keeps (guarded_keeps (applyDryRun_frame g (s.updStation g _)).sameQueue rfl) rfl

theorem putChannel_sameQueue (l : Loader) (ps : List Pair) (s : State) : s.sameQueue (s.putChannel l ps).state := by
  refine takePut_keeps ?_ rfl
  split
  · exact (storeAction_frame l _ s).sameQueue
  · rfl

theorem storeBerth_sameQueue (draft : Nat) (source : BerthSource) (s : State) :
    s.sameQueue (s.storeBerth draft source) := by
  have stored : s.sameQueue { s with berth.maxDraft := draft, berth.source := source } := rfl
  unfold State.storeBerth; dsimp only; split
  · exact sameQueue_trans stored (sameQueue_trans (markDirty_sameQueue _) (makeDue_sameQueue .draft _))
  · exact guarded_keeps (sameQueue_trans stored (makeDue_sameQueue .draft _)) stored

theorem putBerth_sameQueue (ps : List Pair) (s : State) : s.sameQueue (s.putBerth ps).state := by
  refine takePut_keeps ?_ rfl
  split
  · exact storeBerth_sameQueue _ _ s
  · rfl

/-- The marks that stored settings leave: the pass dirty, derivations owed. -/
theorem settingsMarks_sameQueue (p q : Prop) [Decidable p] [Decidable q] (s : State) :
    s.sameQueue (if q then (if p then s.markDirty else s).oweDerivations else if p then s.markDirty else s) := by
  have marked : s.sameQueue (if p then s.markDirty else s) := guarded_keeps (markDirty_sameQueue s) rfl
  split
  · exact marked
  · exact marked

theorem storeSettings_sameQueue (ps : List Pair) (s : State) : s.sameQueue (s.storeSettings ps) := by
  have stored := settingsMarks_sameQueue
    (s.settings.limitSet ≠ (s.settings.afterPut ps).limitSet ∨ s.settings.caution ≠ (s.settings.afterPut ps).caution)
    (s.settings.pace ≠ (s.settings.afterPut ps).pace ∨ s.settings.margin ≠ (s.settings.afterPut ps).margin)
    { s with settings := s.settings.afterPut ps }
  exact guarded_keeps (unordered_keeps s.sameQueue (fun _ h => h)
    (fun e _ _ h => sameQueue_trans h (intervalEffect_sameQueue e _)) stored) stored

theorem putSettings_sameQueue (ps : List Pair) (s : State) : s.sameQueue (s.putSettings ps).state :=
  takePut_keeps (storeSettings_sameQueue ps s) rfl

theorem putRecord_sameQueue (t : Table) (k : Nat) (ps : List Pair) (s : State) :
    s.sameQueue (s.putRecord t k ps).state := by
  unfold State.putRecord; split
  · cases t with
    | hold => exact putHold_sameQueue k ps s
    | tank => exact putTank_sameQueue k ps s
    | item => exact putItem_sameQueue k ps s
    | pour => exact putPour_sameQueue k ps s
    | order => exact putOrder_sameQueue k ps s
    | station => exact putStation_sameQueue k ps s
    | channel =>
      dsimp only
      cases loaderOfKey k with
      | none => rfl
      | some l => exact putChannel_sameQueue l ps s
    | berth => exact putBerth_sameQueue ps s
    | settings => exact putSettings_sameQueue ps s
    | valve | result | clearance | profile | trial | changes => rfl
  · rfl

/-! ### RETIRE, CLEAR and the actions -/

theorem retireRecord_sameQueue (t : Table) (k : Nat) (s : State) : s.sameQueue (s.retireRecord t k).state := by
  unfold State.retireRecord; split
  · unfold State.retirePour; split
    · rfl
    · split
      · exact (removePour_onlyPours _ s).sameQueue
      · rfl
  · unfold State.retireOrder; split
    · rfl
    · split
      · exact (retireActive_frame k s).sameQueue
      · exact (removeOrder_frame k _ s).sameQueue
  · rfl

theorem clearFlag_sameQueue (t : Table) (key : Nat) (f : FlagKind) (s : State) : s.sameQueue (s.clearFlag t key f) := by
  unfold State.clearFlag; split <;> rfl

theorem clearFlags_sameQueue (t : Table) (key : Nat) (fs : List FlagKind) (s : State) :
    s.sameQueue (s.clearFlags t key fs) := by
  unfold State.clearFlags
  induction fs generalizing s with
  | nil => rfl
  | cons f fs ih => exact sameQueue_trans (clearFlag_sameQueue t key f s) (ih _)

theorem clearRecord_sameQueue (codes : List Octet) (t : Table) (k : Nat) (s : State) :
    s.sameQueue (s.clearRecord codes t k).state := by
  unfold State.clearRecord; split
  · rfl
  · split
    · rfl
    · split
      · rfl
      · exact clearFlags_sameQueue t k _ s

theorem haltAnswer_sameQueue (s : State) : s.sameQueue s.haltAnswer.state := by
  unfold State.haltAnswer; split
  · exact (haltSequencer_frame s).sameQueue
  · rfl

theorem rearmAnswer_sameQueue (g : Nat) (s : State) : s.sameQueue (s.rearmAnswer g).state := by
  unfold State.rearmAnswer; split
  · rfl
  · split
    · rfl
    · split
      · exact settle_sameQueue _ _ (s.updStation g _)
      · rfl

theorem endPourAnswer_sameQueue (n : Nat) (s : State) : s.sameQueue (s.endPourAnswer n).state := by
  unfold State.endPourAnswer; split
  · split
    · rfl
    · split
      · exact (closePour_onlyPours _ s).sameQueue
      · rfl
  · rfl

theorem trialPutAnswer_sameQueue (ps : List Pair) (s : State) : s.sameQueue (s.trialPutAnswer ps).state := by
  unfold State.trialPutAnswer; split
  · rfl
  · split
    · exact takePut_keeps rfl rfl
    · rfl

/-! ### Notices and the terminal port -/

theorem terminalBerth_sameQueue (draft : Nat) (s : State) : s.sameQueue (s.terminalBerth draft) := by
  have stored := storeBerth_sameQueue draft .terminal s
  unfold State.terminalBerth; dsimp only; split
  · exact stored
  · exact stored

theorem sendNext_sameQueue (s : State) : s.sameQueue s.sendNext := by
  unfold State.sendNext; split
  · rfl
  · split <;> rfl

end Sys2Proof.Machine
end

