-- ==== Sys2Proof/Proofs/Completes.lean ====
section
/-! PROOFS. Every command completes and leaves the queue, by the operation that it carries out. -/

namespace Sys2Proof.Machine

/-! ### Commands by the link that they come on -/

/-- A command of the part's own leaves the queue where the operation behind its condition does. -/
theorem guarded_sameQueue {p : Prop} [Decidable p] {s t : State} (acts : s.sameQueue t) :
    s.sameQueue (if p then t else s) := guarded_keeps acts rfl

theorem takeRequest_sameQueue {kind : Nat} {head : ShipHead} {respond : State → Answer} {s : State}
    (answer : s.sameQueue (respond s).state) : s.sameQueue (s.takeRequest kind head respond) :=
  takeRequest_keeps (fun _ _ h => h) answer rfl

/-- A record request leaves the queue where the tables' rules do. -/
theorem recordCommand_sameQueue {kind : Nat} {head : ShipHead} {look : Bool} {named : State → Table → Nat → Bool}
    {respond : Table → Nat → State → Answer} {s : State} (answer : ∀ t k, s.sameQueue (respond t k s).state) :
    s.sameQueue (s.takeRequest kind head fun s => s.recordRequest head look named respond) :=
  takeRequest_sameQueue (recordRequest_keeps answer rfl)

/-- An action leaves the queue where its own rule does. -/
theorem actionCommand_sameQueue {kind : Nat} {head : ShipHead} {waits : Bool} {respond : State → Answer} {s : State}
    (answer : s.sameQueue (respond s).state) :
    s.sameQueue (s.takeRequest kind head fun s => s.actionRequest waits respond) :=
  takeRequest_sameQueue (actionRequest_keeps answer rfl)

/-- A trial action leaves the queue where its own rule does. -/
theorem trialCommand_sameQueue {kind : Nat} {head : ShipHead} {respond : State → Answer} {s : State}
    (answer : s.sameQueue (respond s).state) :
    s.sameQueue (s.takeRequest kind head fun s => s.trialRequest head respond) :=
  takeRequest_sameQueue (trialRequest_keeps answer rfl)

theorem takeNotice_sameQueue {kind : NoticeKind} {l : Option Loader} {q : Option (BitVec 16)} {r : Reason}
    {act : State → State} {s : State} (acts : ∀ t : State, t.sameQueue (act t)) :
    s.sameQueue (s.takeNotice kind l q r act) :=
  takeNotice_keeps (fun _ _ h => h) (fun _ h => sameQueue_trans h (acts _)) rfl

theorem takeField_sameQueue {present : State → Bool} {act : State → State} {s : State}
    (acts : ∀ t : State, t.sameQueue (act t)) : s.sameQueue (s.takeField present act) :=
  takeField_keeps (fun _ _ h => h) (fun _ h => sameQueue_trans h (acts _)) rfl

/-! ### Commands that carry out more than one operation -/

/-- The command completes in a state with the queue of `s`. -/
def State.completes (s : State) (o : Host.Outcome State Fault Refusal) : Prop := ∃ t, o = .next t ∧ s.sameQueue t

theorem completes_next {s t : State} (h : s.sameQueue t) : s.completes (.next t) := ⟨t, rfl, h⟩

theorem execPowerOn_completes (s : State) : s.completes (execPowerOn s) := by
  refine completes_next ?_
  split <;> rfl

theorem execProfileReadComplete_completes (read : ProfileRead) (s : State) :
    s.completes (execProfileReadComplete read s) := by
  refine completes_next (guarded_sameQueue ?_)
  split
  · exact enterFault_sameQueue _ s
  · exact loadClean_sameQueue _ _ s

theorem execPfailAssert_completes (s : State) : s.completes (execPfailAssert s) := by
  refine completes_next (guarded_sameQueue ?_)
  have asserted : s.sameQueue { s with
    pfail := true, ship.busyOwed := none, ship.receiving := none, terminal.receiving := none
    field.receiving := none } := rfl
  have marked := guarded_keeps (P := s.sameQueue) (p := s.ready = true)
    (sameQueue_trans asserted (writeMarker_sameQueue _)) asserted
  exact guarded_keeps (sameQueue_trans marked (pfailChannels_frame _).sameQueue) marked

theorem execPfailDeassert_completes (s : State) : s.completes (execPfailDeassert s) := by
  refine completes_next (guarded_sameQueue ?_)
  have deasserted : s.sameQueue { s with pfail := false, ship := .idle } := rfl
  exact guarded_keeps (sameQueue_trans deasserted (resumeReady_sameQueue _)) deasserted

theorem execRelease_completes (head : ShipHead) (s : State) : s.completes (execRelease head s) := by
  refine completes_next (actionCommand_sameQueue ?_)
  split
  · exact (release_frame s _).sameQueue
  · rfl

theorem execForce_completes (head : ShipHead) (pairs : List Pair) (s : State) : s.completes (execForce head pairs s) := by
  refine completes_next (actionCommand_sameQueue ?_)
  split
  · exact (force_frame _ _ s).sameQueue
  · rfl

theorem execRestart_completes (head : ShipHead) (s : State) : s.completes (execRestart head s) := by
  refine completes_next (actionCommand_sameQueue (keyless_keeps ?_ rfl))
  split
  · exact restart_sameQueue s
  · rfl

theorem execPurge_completes (head : ShipHead) (s : State) : s.completes (execPurge head s) := by
  refine completes_next (actionCommand_sameQueue (keyless_keeps ?_ rfl))
  split <;> rfl

theorem execReload_completes (head : ShipHead) (s : State) : s.completes (execReload head s) := by
  refine completes_next (actionCommand_sameQueue ?_)
  split
  · rfl
  · split <;> rfl

theorem execTrialOpen_completes (head : ShipHead) (s : State) : s.completes (execTrialOpen head s) := by
  refine completes_next (trialCommand_sameQueue ?_)
  split <;> rfl

theorem execTrialEvaluate_completes (head : ShipHead) (s : State) : s.completes (execTrialEvaluate head s) := by
  refine completes_next (trialCommand_sameQueue ?_)
  split <;> rfl

theorem execLivePassEnd_completes (s : State) : s.completes (execLivePassEnd s) := by
  refine completes_next (guarded_sameQueue ?_)
  split
  · exact publish_sameQueue _ s
  · rfl

theorem execTrialPassStart_completes (s : State) : s.completes (execTrialPassStart s) := by
  refine completes_next (guarded_sameQueue ?_)
  split
  · exact guarded_sameQueue rfl
  · rfl

theorem execTrialPassEnd_completes (s : State) : s.completes (execTrialPassEnd s) := by
  refine completes_next (guarded_sameQueue ?_)
  split
  · split
    · split <;> rfl
    · rfl
  · rfl

theorem execPourStart_completes (l : Loader) (n : BitVec 16) (rate : BitVec 32) (s : State) :
    s.completes (execPourStart l n rate s) := by
  refine completes_next (takeNotice_sameQueue fun t => ?_)
  split
  · exact placeReply_sameQueue _ t
  · exact sameQueue_trans (acceptStart_onlyPours l _ _ t).sameQueue (placeReply_sameQueue _ _)

theorem execTally_completes (l : Loader) (amount : BitVec 32) (s : State) : s.completes (execTally l amount s) := by
  refine completes_next (takeNotice_sameQueue fun t => ?_)
  split
  · exact placeReply_sameQueue _ t
  · split
    · exact (acceptTally_onlyPours l _ _ t).sameQueue
    · exact placeReply_sameQueue _ (t.tallyFault l)

theorem execPourEnd_completes (l : Loader) (final : BitVec 32) (s : State) : s.completes (execPourEnd l final s) := by
  refine completes_next (takeNotice_sameQueue fun t => ?_)
  split
  · exact placeReply_sameQueue _ t
  · exact sameQueue_trans (endActive_onlyPours l _ _ t).sameQueue (placeReply_sameQueue _ _)

theorem execBerth_completes (draft : BitVec 32) (s : State) : s.completes (execBerth draft s) :=
  completes_next (takeNotice_sameQueue fun t =>
    sameQueue_trans (terminalBerth_sameQueue _ t) (placeReply_sameQueue _ _))

theorem execReportRequest_completes (slot : Slot) (s : State) : s.completes (execReportRequest slot s) := by
  have taken : s.sameQueue { s with terminal.receiving := none } := rfl
  refine completes_next (guarded_sameQueue ?_)
  dsimp only; split
  · exact taken
  · exact sameQueue_trans taken (makeDue_sameQueue slot _)

theorem execValvePosition_completes (key : Octet) (position : PositionReport) (s : State) :
    s.completes (execValvePosition key position s) := by
  refine completes_next (takeField_sameQueue fun t => ?_)
  split
  · exact sameQueue_settle (valveReport_frame _ _ t).sameQueue
  · rfl

/-! ### Every command -/

/-- Settles O2: each command is one operation of the model, and no operation touches the queue. -/
theorem execCompletesAndKeepsQueue : Obligations.ExecCompletesAndKeepsQueue := by
  intro c s
  show s.completes (exec c s)
  cases c with
  | powerOn => exact execPowerOn_completes s
  | powerLoss | timeBaseTick | resetNAssert | resetNRelease => exact completes_next (guarded_sameQueue rfl)
  | profileReadComplete read => exact execProfileReadComplete_completes read s
  | profileReadTimeout => exact completes_next (guarded_sameQueue (enterFault_sameQueue .noImage s))
  | pfailAssert => exact execPfailAssert_completes s
  | pfailDeassert => exact execPfailDeassert_completes s
  | shipFrameDiscard | shipFrameIncompleteTimeout | shipFrameBusyOwed | shipReplyEnd =>
    exact completes_next (guarded_sameQueue rfl)
  | look => exact completes_next (recordCommand_sameQueue fun _ _ => rfl)
  | put _ pairs => exact completes_next (recordCommand_sameQueue fun t k => putRecord_sameQueue t k pairs s)
  | retire => exact completes_next (recordCommand_sameQueue fun t k => retireRecord_sameQueue t k s)
  | clear _ codes => exact completes_next (recordCommand_sameQueue fun t k => clearRecord_sameQueue codes t k s)
  | run =>
    exact completes_next (actionCommand_sameQueue
      (keyless_keeps (unlessFault_keeps (runSequencer_frame s).sameQueue rfl) rfl))
  | halt => exact completes_next (actionCommand_sameQueue (keyless_keeps (haltAnswer_sameQueue s) rfl))
  | rearm => exact completes_next (actionCommand_sameQueue (rearmAnswer_sameQueue _ s))
  | release head => exact execRelease_completes head s
  | force head pairs => exact execForce_completes head pairs s
  | endPour => exact completes_next (actionCommand_sameQueue (endPourAnswer_sameQueue _ s))
  | restart head => exact execRestart_completes head s
  | purge head => exact execPurge_completes head s
  | purgeStep => exact completes_next (guarded_sameQueue (purgeOne_sameQueue s))
  | reload head => exact execReload_completes head s
  | trialOpen head => exact execTrialOpen_completes head s
  | trialPut _ pairs => exact completes_next (trialCommand_sameQueue (trialPutAnswer_sameQueue pairs s))
  | trialEvaluate head => exact execTrialEvaluate_completes head s
  | trialClose => exact completes_next (trialCommand_sameQueue rfl)
  | unknownRequestKind => exact completes_next (takeRequest_sameQueue rfl)
  | livePassStart => exact completes_next (guarded_sameQueue rfl)
  | livePassEnd => exact execLivePassEnd_completes s
  | trialPassStart => exact execTrialPassStart_completes s
  | trialPassEnd => exact execTrialPassEnd_completes s
  | clearanceComputation => exact completes_next (guarded_sameQueue (compute_frame s).sameQueue)
  | channelDerivation l => exact completes_next (guarded_sameQueue (takeDerivation_frame s l).sameQueue)
  | tallyTimerExpiry l => exact completes_next (guarded_sameQueue (expireTallyTimer_frame s l).sameQueue)
  | pourStart l n rate => exact execPourStart_completes l n rate s
  | tally l amount => exact execTally_completes l amount s
  | pourEnd l final => exact execPourEnd_completes l final s
  | berth draft => exact execBerth_completes draft s
  | reportRequest slot => exact execReportRequest_completes slot s
  | terminalSendStart => exact completes_next (guarded_sameQueue (sendNext_sameQueue s))
  | terminalFrameDiscard | terminalFrameEnd => exact completes_next (guarded_sameQueue rfl)
  | sounding =>
    exact completes_next (takeField_sameQueue fun t => guarded_sameQueue (goodSounding_sameQueue _ _ t))
  | valvePosition key position => exact execValvePosition_completes key position s
  | pumpStatus _ status =>
    exact completes_next (takeField_sameQueue fun t => sameQueue_settle (pumpReport_frame _ status t).sameQueue)
  | localSwitch _ position =>
    exact completes_next (takeField_sameQueue fun t => sameQueue_settle (switchReport_frame _ position t).sameQueue)
  | fieldFrameDiscard | fieldFrameIncompleteTimeout | fieldSendStart | fieldFrameEnd =>
    exact completes_next (guarded_sameQueue rfl)
  | fieldSilenceExpiry => exact completes_next (silenceExpires_sameQueue s)
  | staleExpiry tank => exact completes_next (guarded_sameQueue (staleExpires_sameQueue tank s))
  | stripSettleExpiry tank => exact completes_next (guarded_sameQueue (settleExpires_sameQueue tank s))
  | valveTravelTimeout v => exact completes_next (guarded_sameQueue (sameQueue_settle (travelTimeout_frame v s).sameQueue))
  | primingExpiry g => exact completes_next (guarded_sameQueue (sameQueue_settle (primingEnds_frame g s).sameQueue))
  | rundownExpiry g => exact completes_next (guarded_sameQueue (sameQueue_settle (rundownEnds_frame g s).sameQueue))
  | dryRunCondition g => exact completes_next (guarded_sameQueue (sameQueue_settle (dryRunActs_frame g s).sameQueue))

end Sys2Proof.Machine
end

