-- ==== Sys2Proof/Proofs/Down.lean ====
section
/-! PROOFS. A part that is down: without power only the return of power acts, and no frame is taken while the links are
down. -/

namespace Sys2Proof.Machine

/-! ### What stands without power -/

theorem linkUp_of_unpowered {s : State} (off : s.powered = false) : s.linkUp = false := by simp [State.linkUp, off]

theorem ready_of_unpowered {s : State} (off : s.powered = false) : s.ready = false := by simp [State.ready, off]

theorem hasChannels_of_unpowered {s : State} (off : s.powered = false) : s.hasChannels = false := by
  simp [State.hasChannels, off]

theorem ballastUp_of_unpowered {s : State} (off : s.powered = false) : s.ballastUp = false := by
  simp [State.ballastUp, ready_of_unpowered off]

theorem hasTank_of_unpowered {s : State} (off : s.powered = false) (t : Nat) : s.hasTank t = false := by
  simp [State.hasTank, ready_of_unpowered off]

theorem silenceDue_of_unpowered {s : State} (off : s.powered = false) : s.silenceDue = false := by
  simp [State.silenceDue, ballastUp_of_unpowered off]

/-! ### Frames -/

/-- A command whose condition does not hold changes nothing. -/
theorem next_ite_neg {p : Prop} [Decidable p] {s t : State} (h : ¬p) :
    (.next (if p then t else s) : Host.Outcome State Fault Refusal) = .next s := congrArg _ (if_neg h)

/-- No link frame is taken while the links are down (spec 08 R130, spec 09 R143, spec 12 R171). -/
theorem exec_frame_down {c : Instr} {s : State} (down : s.linkUp = false)
    (frame : (requestOf c).isSome = true ∨ inboundOther c = true) : exec c s = .next s := by
  have up : ¬s.linkUp = true := by simp [down]
  cases c with
  | look | put | retire | clear | run | halt | rearm | release | force | endPour | restart | purge | reload | trialOpen
  | trialPut | trialEvaluate | trialClose | unknownRequestKind => exact congrArg _ (takeRequest_down down)
  | pourStart | tally | pourEnd | berth => exact congrArg _ (takeNotice_down down)
  | sounding | valvePosition | pumpStatus | localSwitch => exact congrArg _ (takeField_down down)
  | shipFrameBusyOwed => exact next_ite_neg fun h => up h.1
  | shipFrameDiscard | shipFrameIncompleteTimeout | terminalFrameDiscard | reportRequest | fieldFrameDiscard
  | fieldFrameIncompleteTimeout => exact next_ite_neg up
  | _ => exact frame.elim (absurd · Bool.false_ne_true) (absurd · Bool.false_ne_true)

/-! ### The part's own events -/

/-- Without power nothing but the return of power does anything (spec 00 R1). -/
theorem exec_unpowered {c : Instr} {s : State} (off : s.powered = false) (notOn : c ≠ .powerOn) : exec c s = .next s := by
  have down := linkUp_of_unpowered off
  have unpowered : ¬s.powered = true := by simp [off]
  have notReady : ¬s.ready = true := by simp [ready_of_unpowered off]
  have frozen : ¬s.ballastUp = true := by simp [ballastUp_of_unpowered off]
  cases c with
  | powerOn => exact absurd rfl notOn
  | powerLoss | timeBaseTick | resetNAssert | terminalFrameEnd | fieldFrameEnd => exact next_ite_neg unpowered
  | resetNRelease | profileReadComplete | profileReadTimeout | pfailAssert | pfailDeassert | shipReplyEnd =>
    exact next_ite_neg fun h => unpowered h.1
  | livePassEnd | trialPassEnd => exact next_ite_neg notReady
  | livePassStart | trialPassStart | clearanceComputation => exact next_ite_neg fun h => notReady h.1
  | channelDerivation => exact next_ite_neg fun h => by simp [hasChannels_of_unpowered off] at h
  | purgeStep | tallyTimerExpiry | valveTravelTimeout | primingExpiry | rundownExpiry | dryRunCondition =>
    exact next_ite_neg fun h => frozen h.1
  | fieldSilenceExpiry => exact next_ite_neg (by simp [silenceDue_of_unpowered off])
  | staleExpiry t | stripSettleExpiry t => exact next_ite_neg (by simp [hasTank_of_unpowered off])
  | terminalSendStart => exact next_ite_neg fun h => by simp [State.maySend, down] at h
  | fieldSendStart => exact next_ite_neg (by simp [down])
  | look | put | retire | clear | run | halt | rearm | release | force | endPour | restart | purge | reload | trialOpen
  | trialPut | trialEvaluate | trialClose | unknownRequestKind => exact exec_frame_down down (.inl rfl)
  | _ => exact exec_frame_down down (.inr rfl)

/-- Settles O13, by the condition that each command waits for. -/
theorem nothingIsTakenWhileThePartIsDown : Obligations.NothingIsTakenWhileThePartIsDown :=
  fun _ _ => ⟨exec_unpowered, exec_frame_down⟩

end Sys2Proof.Machine
end

