-- ==== Sys2Proof/Proofs/Supply.lean ====
section
/-! PROOFS. The supply: the loader estimators outlast a loss of power in the model, so the return of power does not find them
as after reset. -/

namespace Sys2Proof.Machine

/-- The loss of power: only what `State.retained` holds is kept. -/
theorem exec_powerLoss_powered {s : State} (on : s.powered = true) :
    exec .powerLoss s = .next { s.retained with powered := false } :=
  congrArg Host.Outcome.next (if_pos on)

/-- The return of power: all but what `State.retained` holds is as after reset. -/
theorem exec_powerOn_unpowered {s : State} (off : s.powered = false) : exec .powerOn s = .next s.retained :=
  congrArg Host.Outcome.next (if_neg (by simp [off]))

/-- What is kept across a loss of power has the loader estimators among it. -/
theorem retained_estimators (s : State) : s.retained.pours.estimators = s.pours.estimators := rfl

/-- A part held in RESET, as RESET_N leaves it, whose estimator of loader 1 has measured 600 t/h. -/
def measuredPart : State :=
  { State.reset with pours := { PourController.empty with estimators := ⟨{ window := none, estimate := 600 }, .closed⟩ } }

/-- The same part once its power is lost. -/
def measuredPartUnpowered : State := { measuredPart.retained with powered := false }

/-- The unpowered part is what a loss of power leaves of the other. -/
theorem exec_powerLoss_measuredPart : exec .powerLoss measuredPart = .next measuredPartUnpowered :=
  exec_powerLoss_powered rfl

/-- The return of power to that part gives an estimator that is not the one after reset. -/
theorem exec_powerOn_measuredPartUnpowered :
    ∃ t, exec .powerOn measuredPartUnpowered = .next t ∧ t.pours.estimators.l1.estimate = 600 ∧
      State.reset.pours.estimators.l1.estimate = 0 :=
  ⟨_, exec_powerOn_unpowered rfl, by simp [retained_estimators, measuredPartUnpowered, measuredPart], rfl⟩

/-- Refutes O25: the return of power does not close the loader estimators, which the loss of power has kept. -/
theorem not_powerAndTickKeepTheCount : ¬ Obligations.PowerAndTickKeepTheCount := by
  rintro ⟨powerOn, -, -⟩
  obtain ⟨t, claimed, -, -, -, -, -, -, closed, -⟩ := powerOn measuredPartUnpowered rfl
  obtain ⟨u, run, measured, atReset⟩ := exec_powerOn_measuredPartUnpowered
  obtain rfl : t = u := by rw [claimed] at run; exact Host.Outcome.next.inj run
  rw [closed, atReset] at measured
  exact absurd measured (by decide)

end Sys2Proof.Machine
end

