-- ==== Sys2Proof/Proofs/Form.lean ====
section
/-! PROOFS. What the counted records and the ranges of the settings rest on: the phase, the counts, the lengths of the record
lists, the settings and the maximum draft. Almost every operation leaves all of it as it stands. -/

namespace Sys2Proof.Machine

/-! ### The form of a state -/

/-- What the counted records and the ranges of the settings rest on. -/
def State.form (s : State) : Phase × Counts × List Nat × Settings × Nat :=
  (s.startUp.phase, s.counts, [s.holds.length, s.tanks.length, s.items.length] ++ s.ballast.shape, s.settings,
    s.berth.maxDraft)

/-- `t` has the form of `s`. -/
def State.sameForm (s t : State) : Prop := t.form = s.form

theorem sameForm_trans {s t u : State} (h : s.sameForm t) (k : t.sameForm u) : s.sameForm u := Eq.trans k h

/-- From `s` to `t` the counted records and the ranges of the settings are kept. -/
def State.keepsForm (s t : State) : Prop := (s.RecordsOk → t.RecordsOk) ∧ (s.SettingsOk → t.SettingsOk)

theorem keepsForm_refl (s : State) : s.keepsForm s := ⟨id, id⟩

theorem keepsForm_trans {s t u : State} (h : s.keepsForm t) (k : t.keepsForm u) : s.keepsForm u :=
  ⟨k.1 ∘ h.1, k.2 ∘ h.2⟩

/-- A state of the same form stands as the other does. -/
theorem State.sameForm.keeps {s t : State} (h : s.sameForm t) : s.keepsForm t := by
  simp only [State.sameForm, State.form, Prod.mk.injEq, List.cons_append, List.nil_append, List.cons.injEq] at h
  obtain ⟨phase, counts, ⟨holds, tanks, items, shape⟩, settings, draft⟩ := h
  unfold State.keepsForm State.RecordsOk State.fits State.SettingsOk
  rw [phase, counts, holds, tanks, items, shape, settings, draft]
  exact ⟨id, id⟩

/-- A change of the Ballast Sequencer keeps the form. -/
theorem BallastFrame.sameForm {s t : State} (h : BallastFrame s t) : s.sameForm t := by
  unfold State.sameForm State.form
  rw [h.shape, h.rest]; rfl

theorem BallastFrame.settings {s t : State} (h : BallastFrame s t) : t.settings = s.settings := by rw [h.rest]

theorem BallastFrame.berth {s t : State} (h : BallastFrame s t) : t.berth = s.berth := by rw [h.rest]

theorem State.onlyChannels.sameForm {s t : State} (h : s.onlyChannels t) : s.sameForm t := by
  unfold State.sameForm; rw [h]; rfl

/-- A change of the Pour Controller that loses no hold keeps the form. -/
theorem State.onlyPours.sameForm {s t : State} (h : s.onlyPours t) (holds : t.holds.length = s.holds.length) :
    s.sameForm t := by
  unfold State.sameForm State.form
  rw [holds, h]; rfl

/-! ### Records of compartments and marks -/

theorem updHold_sameForm (h : Nat) (f : Hold → Hold) (s : State) : s.sameForm (s.updHold h f) := by
  simp [State.sameForm, State.form, State.updHold, State.counts]

theorem updTank_sameForm (t : Nat) (f : Tank → Tank) (s : State) : s.sameForm (s.updTank t f) := by
  simp [State.sameForm, State.form, State.updTank, State.counts]

theorem markDirty_sameForm (s : State) : s.sameForm s.markDirty := guarded_keeps rfl rfl

theorem oweComputation_sameForm (s : State) : s.sameForm s.oweComputation := guarded_keeps rfl rfl

theorem oweDerivations_sameForm (s : State) : s.sameForm s.oweDerivations := rfl

theorem makeDue_sameForm (x : Slot) (s : State) : s.sameForm (s.makeDue x) := (makeDue_onlyChannels s x).sameForm

theorem placeReply_sameForm (r : NoticeReply) (s : State) : s.sameForm (s.placeReply r) := guarded_keeps rfl rfl

/-- What a step of the Ballast Sequencer keeps its looks keep too. -/
theorem sameForm_settle {s t before : State} {all : Bool} (h : s.sameForm t) : s.sameForm (t.settle all before) :=
  sameForm_trans h (settle_frame all before t).sameForm

/-! ### Pours: no hold is lost -/

@[simp] theorem updHold_holds_length (h : Nat) (f : Hold → Hold) (s : State) :
    (s.updHold h f).holds.length = s.holds.length := modify1_length s.holds h f

@[simp] theorem deriveHold_holds_length (h : Nat) (s : State) : (s.deriveHold h).holds.length = s.holds.length := by
  unfold State.deriveHold; dsimp only; split <;> simp

@[simp] theorem overrunTest_holds (l : Loader) (n : Nat) (s : State) : (s.overrunTest l n).holds = s.holds := by
  unfold State.overrunTest; split
  · rfl
  · split <;> rfl

@[simp] theorem noteEnd_holds (l : Loader) (n : Nat) (s : State) : (s.noteEnd l n).holds = s.holds := by
  unfold State.noteEnd; split <;> rfl

@[simp] theorem takeFinal_holds (l : Loader) (p : Pour) (final : Int) (s : State) :
    (s.takeFinal l p final).holds = s.holds := by
  unfold State.takeFinal; split
  · exact overrunTest_holds _ _ _
  · rfl

theorem acceptStart_sameForm (l : Loader) (n : Nat) (rate : Int) (s : State) : s.sameForm (s.acceptStart l n rate) :=
  (acceptStart_onlyPours l n rate s).sameForm (by simp [State.acceptStart, State.startTallyTimer])

theorem acceptTally_sameForm (l : Loader) (p : Pour) (amount : Nat) (s : State) :
    s.sameForm (s.acceptTally l p amount) :=
  (acceptTally_onlyPours l p amount s).sameForm (by simp [State.acceptTally, State.startTallyTimer])

theorem endActive_sameForm (l : Loader) (p : Pour) (final : Int) (s : State) : s.sameForm (s.endActive l p final) :=
  (endActive_onlyPours l p final s).sameForm (by simp [State.endActive, State.stopTallyTimer])

theorem closePour_sameForm (p : Pour) (s : State) : s.sameForm (s.closePour p) := by
  refine (closePour_onlyPours p s).sameForm ?_
  unfold State.closePour; dsimp only; split <;> simp

theorem removePour_sameForm (p : Pour) (s : State) : s.sameForm (s.removePour p) := by
  refine (removePour_onlyPours p s).sameForm ?_
  unfold State.removePour; dsimp only; split <;> simp [State.fold, State.keepGone]

/-! ### Intervals, soundings and publications -/

theorem handBallast_sameForm (c : KeptChange) (s : State) : s.sameForm (s.handBallast c c.act) :=
  (handBallast_frame c (keptChange_frame c) s).sameForm

theorem staleExpires_sameForm (t : Nat) (s : State) : s.sameForm (s.staleExpires t) :=
  guarded_keeps (sameForm_trans (sameForm_trans (updTank_sameForm t Tank.staled s) (oweComputation_sameForm _))
    (handBallast_sameForm (.stale t) _)) rfl

theorem settleExpires_sameForm (t : Nat) (s : State) : s.sameForm (s.settleExpires t) :=
  guarded_keeps (sameForm_trans (updTank_sameForm t ({ · with strip := .below }) s)
    (handBallast_sameForm (.belowStrip t) _)) rfl

theorem silenceExpires_sameForm (s : State) : s.sameForm s.silenceExpires :=
  guarded_keeps (linkLost_frame { s with field.live := false }).sameForm rfl

theorem intervalEffect_sameForm (e : IntervalEffect) (s : State) : s.sameForm (e.act s) := by
  cases e with
  | stale t => exact staleExpires_sameForm t s
  | settle t => exact settleExpires_sameForm t s
  | silence => exact silenceExpires_sameForm s

/-- The marks that a changed mass leaves: the pass dirty, a computation owed. -/
theorem massMarks_sameForm (p q : Bool) (s : State) :
    s.sameForm (if q then (if p then s.markDirty else s).oweComputation else if p then s.markDirty else s) := by
  have marked : s.sameForm (if p then s.markDirty else s) := guarded_keeps (markDirty_sameForm s) rfl
  exact guarded_keeps (sameForm_trans marked (oweComputation_sameForm _)) marked

theorem goodSounding_sameForm (t reading : Nat) (s : State) : s.sameForm (s.goodSounding t reading) := by
  unfold State.goodSounding State.handSounding; dsimp only
  exact sameForm_settle (sameForm_trans (sameForm_trans (updTank_sameForm t _ s) (massMarks_sameForm _ _ _))
    (ballastSounding_frame t _).sameForm)

theorem publish_sameForm (r : ResultSet) (s : State) : s.sameForm (s.publish r) := by
  have tested (t : State) : t.sameForm (t.draftStepTest r) := guarded_keeps (makeDue_sameForm .draft t) rfl
  have handed (t : State) : t.sameForm
      ((t.oweComputation.oweDerivations.draftStepTest r).handBallast (.publication r) (State.ballastPublication r)) :=
    sameForm_trans (sameForm_trans (oweComputation_sameForm t) (oweDerivations_sameForm _))
      (sameForm_trans (tested _) (handBallast_sameForm (.publication r) _))
  exact handed { s with
    engine.state := .idle, engine.live := some r
    engine.strengthFlag := s.engine.strengthFlag || statusChanged s.engine.live r }

/-! ### Puts that store neither settings nor a draft -/

theorem storeItem_sameForm (i m : Nat) (s : State) : s.sameForm (s.storeItem i m) := by
  have stored : s.sameForm { s with items := modify1 s.items i fun _ => m } := by
    simp [State.sameForm, State.form, State.counts]
  exact guarded_keeps stored (sameForm_trans stored (markDirty_sameForm _))

theorem handTankPut_sameForm (t : Nat) (before : Tank) (s : State) : s.sameForm (s.handTankPut t before) := by
  have marked := massMarks_sameForm (decide ((s.tank t).current ≠ before.current))
    (decide ((s.tank t).current ≠ before.current) ||
      decide (before.status = .stale ∧ (s.tank t).status ≠ .stale)) s
  have told := guarded_keeps (p := decide ((s.tank t).current ≠ before.current) = true)
    (sameForm_trans marked (ballastPutMass_frame t _).sameForm) marked
  exact guarded_keeps (sameForm_settle told) told

theorem putHold_sameForm (h : Nat) (ps : List Pair) (s : State) : s.sameForm (s.putHold h ps).state := by
  refine takePut_keeps ?_ rfl
  split
  · exact sameForm_trans (updHold_sameForm h _ s)
      ((deriveHold_onlyPours h _).sameForm (deriveHold_holds_length h _))
  · rfl

theorem putItem_sameForm (i : Nat) (ps : List Pair) (s : State) : s.sameForm (s.putItem i ps).state := by
  refine takePut_keeps ?_ rfl
  split
  · exact storeItem_sameForm i _ s
  · rfl

theorem putTank_sameForm (t : Nat) (ps : List Pair) (s : State) : s.sameForm (s.putTank t ps).state :=
  takePut_keeps (sameForm_trans (updTank_sameForm t _ s) (handTankPut_sameForm t _ _)) rfl

theorem putPour_sameForm (n : Nat) (ps : List Pair) (s : State) : s.sameForm (s.putPour n ps).state := by
  unfold State.putPour; split
  · refine takePut_keeps (sameForm_trans ?_ (oweComputation_sameForm _)) rfl
    rfl
  · exact takePut_keeps (oweComputation_sameForm (s.updPour n _)) rfl

theorem putOrder_sameForm (t : Nat) (ps : List Pair) (s : State) : s.sameForm (s.putOrder t ps).state := by
  have entered : s.sameForm (s.putNewOrder t ps).state := takePut_keeps (enterOrder_frame t ps s).sameForm rfl
  unfold State.putOrder; split
  · exact entered
  · split
    · exact entered
    · exact takePut_keeps (amendOrder_frame t _ ps s).sameForm rfl

theorem putStation_sameForm (g : Nat) (ps : List Pair) (s : State) : s.sameForm (s.putStation g ps).state :=
  have stored := (updStation_frame g (·.afterPut ps) s).sameForm
  takePut_keeps (guarded_keeps (sameForm_trans stored (applyDryRun_frame g _).sameForm) stored) rfl

theorem putChannel_sameForm (l : Loader) (ps : List Pair) (s : State) : s.sameForm (s.putChannel l ps).state := by
  refine takePut_keeps ?_ rfl
  split
  · exact (storeAction_frame l _ s).sameForm
  · rfl

/-! ### RETIRE, CLEAR and the actions -/

theorem retireRecord_sameForm (t : Table) (k : Nat) (s : State) : s.sameForm (s.retireRecord t k).state := by
  unfold State.retireRecord; split
  · unfold State.retirePour; split
    · rfl
    · split
      · exact removePour_sameForm _ s
      · rfl
  · unfold State.retireOrder; split
    · rfl
    · split
      · dsimp only
        exact (retireActive_frame k s).sameForm
      · exact (removeOrder_frame k _ s).sameForm
  · rfl

theorem clearFlag_sameForm (t : Table) (key : Nat) (f : FlagKind) (s : State) : s.sameForm (s.clearFlag t key f) := by
  unfold State.clearFlag; split
  case h_1 | h_2 => exact updTank_sameForm key _ s
  case h_3 | h_4 | h_5 | h_6 => exact (updStation_frame key _ s).sameForm
  all_goals rfl

theorem clearRecord_sameForm (codes : List Octet) (t : Table) (k : Nat) (s : State) :
    s.sameForm (s.clearRecord codes t k).state := by
  have cleared (fs : List FlagKind) (s : State) : s.sameForm (s.clearFlags t k fs) := by
    unfold State.clearFlags
    induction fs generalizing s with
    | nil => rfl
    | cons f fs ih => exact sameForm_trans (clearFlag_sameForm t k f s) (ih _)
  unfold State.clearRecord; split
  · rfl
  · split
    · rfl
    · split
      · rfl
      · exact cleared _ s

theorem haltAnswer_sameForm (s : State) : s.sameForm s.haltAnswer.state := by
  unfold State.haltAnswer; split
  · dsimp only
    exact (haltSequencer_frame s).sameForm
  · rfl

theorem rearmAnswer_sameForm (g : Nat) (s : State) : s.sameForm (s.rearmAnswer g).state := by
  unfold State.rearmAnswer; split
  · rfl
  · split
    · rfl
    · split
      · dsimp only
        exact sameForm_settle (updStation_frame g ({ · with state := .off }) s).sameForm
      · rfl

theorem endPourAnswer_sameForm (n : Nat) (s : State) : s.sameForm (s.endPourAnswer n).state := by
  unfold State.endPourAnswer; split
  · split
    · rfl
    · split
      · exact closePour_sameForm _ s
      · rfl
  · rfl

theorem trialPutAnswer_sameForm (ps : List Pair) (s : State) : s.sameForm (s.trialPutAnswer ps).state := by
  unfold State.trialPutAnswer; split
  · rfl
  · split
    · exact takePut_keeps rfl rfl
    · rfl

theorem restart_sameForm (s : State) : s.sameForm s.restart := by
  refine sameForm_trans ?_ (deriveBoth_frame _ _).sameForm
  simp [State.sameForm, State.form, State.counts, State.restartBallast, State.restartLine, Sequencer.shape]

theorem purge_sameForm (s : State) : s.sameForm s.purge := by
  simp [State.sameForm, State.form, State.counts, State.purge, Sequencer.shape]

theorem purgeOne_sameForm (s : State) : s.sameForm s.purgeOne := by
  have tested (t : State) : t.sameForm t.purgeTest := guarded_keeps rfl rfl
  unfold State.purgeOne; split
  · exact tested s
  · exact sameForm_trans (removePour_sameForm _ s) (tested _)

/-! ### PFAIL and the terminal port -/

theorem resumeReady_sameForm (s : State) : s.sameForm s.resumeReady := by
  have watched : s.sameForm { s with startUp.marker := { s.startUp.marker with valid := false } }.restartSilence := rfl
  exact sameForm_trans (sameForm_trans watched (expireTallies_frame _).sameForm) (takeDeferred_frame _).sameForm

theorem sendNext_sameForm (s : State) : s.sameForm s.sendNext := by
  unfold State.sendNext; split
  · rfl
  · split <;> rfl

end Sys2Proof.Machine
end

