-- ==== Sys2Proof/Proofs/Records.lean ====
section
/-! PROOFS. Every step keeps the counted records and the ranges of the settings: READY is entered with the records that the
profile counts, and a stored setting or draft is taken into its range. -/

namespace Sys2Proof.Machine

/-! ### The start of READY -/

@[simp] theorem keptOver_length {α : Type} (kept cold : List α) : (keptOver kept cold).length = cold.length := by
  simp [keptOver]

@[simp] theorem derivedHolds_length (l : List Pour) (hs : List Hold) : (derivedHolds l hs).length = hs.length := by
  simp [derivedHolds]

/-- The records that a start lays out are those that the profile counts; the valves are still to come. -/
structure State.LaidOut (s : State) : Prop where
  holds : s.holds.length = s.counts.holds
  tanks : s.tanks.length = s.counts.tanks
  items : s.items.length = s.counts.items
  orders : s.ballast.orders.length = s.counts.tanks
  queues : s.ballast.queues.length = s.counts.groups
  stations : s.ballast.stations.length = s.counts.groups

/-- A state of the same form has its records laid out as the other. -/
theorem State.LaidOut.of_sameForm {s t : State} (h : s.LaidOut) (same : s.sameForm t) : t.LaidOut := by
  simp only [State.sameForm, State.form, Prod.mk.injEq, List.cons_append, List.nil_append, List.cons.injEq] at same
  obtain ⟨-, counts, ⟨holds, tanks, items, shape⟩, -⟩ := same
  simp only [Sequencer.shape, List.cons.injEq] at shape
  obtain ⟨orders, queues, stations, -⟩ := shape
  exact ⟨by rw [holds, counts, h.holds], by rw [tanks, counts, h.tanks], by rw [items, counts, h.items],
    by rw [orders, counts, h.orders], by rw [queues, counts, h.queues], by rw [stations, counts, h.stations]⟩

/-- With the valves of a start the records laid out are those that the profile counts. -/
theorem State.LaidOut.records {s : State} (h : s.LaidOut) (o : StartOutcome) (check : BitVec 16) :
    (s.withStartValves.enterReady o check).RecordsOk := by
  intro _
  refine ⟨h.holds, h.tanks, h.items, ?_⟩
  show s.withStartValves.ballast.shape = _
  simp only [State.withStartValves, Sequencer.shape, h.orders, h.queues, h.stations, List.length_replicate]
  rfl

theorem coldRecords_laidOut {s : State} (tanks : s.hull.tanks.length = s.counts.tanks) : s.coldRecords.LaidOut where
  holds := List.length_replicate
  tanks := (List.length_map ..).trans tanks
  items := List.length_replicate
  orders := List.length_replicate
  queues := List.length_replicate
  stations := List.length_replicate

/-- The orders that a warm start returns change the Ballast Sequencer alone. -/
theorem warmReturns_frame (s : State) : BallastFrame s (s.tankNumbers.foldl (fun s t => s.warmReturn t) s) :=
  .foldl (fun s t => warmReturn_frame t s) _ _

/-- Kept records are laid over the cold ones, so the lists are as long as the profile counts. -/
theorem warmRecords_laidOut {s : State} (tanks : s.hull.tanks.length = s.counts.tanks) : s.warmRecords.LaidOut := by
  refine State.LaidOut.of_sameForm ?_ (warmReturns_frame _).sameForm
  exact ⟨by simp [State.counts], by simpa [State.counts] using tanks, by simp [State.counts], by simp [State.counts],
    by simp [State.counts], by simp [State.counts]⟩

theorem warmRecords_settings (s : State) : s.warmRecords.settings = s.settings := (warmReturns_frame _).settings

theorem warmRecords_berth (s : State) : s.warmRecords.berth = s.berth := (warmReturns_frame _).berth

/-- Legal hull data give as many tanks as are counted, and a default draft in the berth's range (spec 01 R6). -/
theorem Hull.tanks_and_draft_of_legal {h : Hull} {c : Counts} (legal : Hull.legal h c = true) :
    h.tanks.length = c.tanks ∧ 5000 ≤ h.defaultDraft ∧ h.defaultDraft ≤ 30000 := by
  simp only [Hull.legal, Hull.fits, Bool.and_eq_true, decide_eq_true_eq] at legal
  omega

/-- An image without finding has legal hull data. -/
theorem hull_legal_of_clean {image : List Octet} {h : Hull} (clean : imageFinding image h = none) :
    Hull.legal h (imageCounts image) = true := by
  unfold imageFinding at clean
  split_ifs at clean with absent broken counts range
  simpa using range

theorem settingsOk_congr {s t : State} (settings : t.settings = s.settings) (berth : t.berth = s.berth) (h : s.SettingsOk) :
    t.SettingsOk := by
  unfold State.SettingsOk at h ⊢
  rw [settings, berth]; exact h

theorem settings_default_ok (s : State) (settings : s.settings = .default) (least : 5000 ≤ s.berth.maxDraft)
    (most : s.berth.maxDraft ≤ 30000) : s.SettingsOk := by
  unfold State.SettingsOk
  rw [settings]
  simp [Settings.default, least, most]

/-- A state out of READY keeps the ranges where it keeps the settings. -/
theorem keepsForm_of_unready {s t : State} (phase : t.startUp.phase ≠ .ready) (settings : t.settings = s.settings)
    (berth : t.berth = s.berth) : s.keepsForm t :=
  ⟨fun _ ready => absurd ready phase, settingsOk_congr settings berth⟩

/-- Neither the valves of a start nor the entry into READY touch the settings or the draft. -/
theorem enterReady_settings (o : StartOutcome) (check : BitVec 16) (s : State) :
    (s.withStartValves.enterReady o check).settings = s.settings := rfl

theorem enterReady_berth (o : StartOutcome) (check : BitVec 16) (s : State) :
    (s.withStartValves.enterReady o check).berth = s.berth := rfl

/-- A clean image enters READY with the records it counts; the settings are kept or take their defaults (spec 11 R166). -/
theorem loadClean_keepsForm {image : List Octet} {h : Hull} (s : State) (clean : imageFinding image h = none) :
    s.keepsForm (s.loadClean image h) := by
  obtain ⟨tanks, least, most⟩ := Hull.tanks_and_draft_of_legal (hull_legal_of_clean clean)
  let u : State := { s with startUp.profile := loadedProfile image h }
  have counted : u.hull.tanks.length = u.counts.tanks := (List.length_map ..).trans tanks
  have warm (check : BitVec 16) : s.keepsForm (u.warmRecords.withStartValves.enterReady .warm check) := by
    refine ⟨fun _ => (warmRecords_laidOut counted).records _ _, settingsOk_congr ?_ ?_⟩
    · rw [enterReady_settings, warmRecords_settings]
    · rw [enterReady_berth, warmRecords_berth]
  have cold (check : BitVec 16) : s.keepsForm (u.coldRecords.withStartValves.enterReady .cold check) := by
    refine ⟨fun _ => (coldRecords_laidOut counted).records _ _, fun _ => settings_default_ok _ ?_ ?_ ?_⟩
    · rw [enterReady_settings]; rfl
    · rw [enterReady_berth]; exact least
    · rw [enterReady_berth]; exact most
  unfold State.loadClean; dsimp only; split
  · exact warm _
  · exact cold _

/-- PROFILE FAULT is not READY, and its settings are the defaults (spec 11 R165). -/
theorem enterFault_keepsForm (f : Finding) (s : State) : s.keepsForm (s.enterFault f) := by
  refine ⟨fun _ ready => ?_, fun ok => ?_⟩
  · exact absurd ready (by simp [State.enterFault, State.oweDerivations, State.oweDerivation, State.updChannel])
  · obtain ⟨-, -, -, -, -, -, -, -, -, -, -, least, most⟩ := ok
    exact settings_default_ok _ rfl least most

/-! ### Settings and drafts stored -/

theorem caution_in_range (v : Int) : 500 ≤ cautionOf v ∧ cautionOf v ≤ 999 := by
  unfold cautionOf inRange
  split
  · rename_i h; simp only [decide_eq_true_eq] at h; omega
  · omega

/-- A value put into its range, or kept where none is put, lies in the range. -/
theorem elim_clamp_mem {lo hi old : Nat} (v : Option Int) (range : lo ≤ hi) (h : lo ≤ old ∧ old ≤ hi) :
    lo ≤ v.elim old (clamp lo hi) ∧ v.elim old (clamp lo hi) ≤ hi := by
  cases v with
  | none => exact h
  | some v => exact clamp_mem range v

theorem elim_clamp_le {hi old : Nat} (v : Option Int) (h : old ≤ hi) : v.elim old (clamp 0 hi) ≤ hi :=
  (elim_clamp_mem v (Nat.zero_le hi) ⟨Nat.zero_le old, h⟩).2

/-- A PUT takes every setting into its range (spec 09 R150, Table 9.4). -/
theorem afterPut_settingsOk (ps : List Pair) {s : State} (h : s.SettingsOk) :
    { s with settings := s.settings.afterPut ps }.SettingsOk := by
  obtain ⟨caution, pace, margin, reportStep, draftStep, overrun, tally, stale, settle, rate, silence, berth⟩ := h
  refine ⟨?_, elim_clamp_le _ pace, elim_clamp_le _ margin, elim_clamp_mem _ (by decide) reportStep,
    elim_clamp_mem _ (by decide) draftStep, elim_clamp_le _ overrun, elim_clamp_mem _ (by decide) tally,
    elim_clamp_mem _ (by decide) stale, elim_clamp_mem _ (by decide) settle, elim_clamp_mem _ (by decide) rate,
    elim_clamp_mem _ (by decide) silence, berth⟩
  show 500 ≤ (intAt ps 2 0).elim s.settings.caution cautionOf ∧ (intAt ps 2 0).elim s.settings.caution cautionOf ≤ 999
  cases intAt ps 2 0 with
  | none => exact caution
  | some v => exact caution_in_range v

theorem storeSettings_keepsForm (ps : List Pair) (s : State) : s.keepsForm (s.storeSettings ps) := by
  have stored : s.keepsForm { s with settings := s.settings.afterPut ps } := ⟨id, afterPut_settingsOk ps⟩
  have marks (p q : Prop) [Decidable p] [Decidable q] (s : State) :
      s.sameForm (if q then (if p then s.markDirty else s).oweDerivations else if p then s.markDirty else s) := by
    have marked : s.sameForm (if p then s.markDirty else s) := guarded_keeps (markDirty_sameForm s) rfl
    split
    · exact marked
    · exact marked
  have handed := keepsForm_trans stored (marks
    (s.settings.limitSet ≠ (s.settings.afterPut ps).limitSet ∨ s.settings.caution ≠ (s.settings.afterPut ps).caution)
    (s.settings.pace ≠ (s.settings.afterPut ps).pace ∨ s.settings.margin ≠ (s.settings.afterPut ps).margin) _).keeps
  exact guarded_keeps (unordered_keeps s.keepsForm (fun _ h => h)
    (fun e _ _ h => keepsForm_trans h (intervalEffect_sameForm e _).keeps) handed) handed

/-- A maximum draft is taken into its range by whichever party gives it (spec 08 R132, R133). -/
theorem storeBerth_keepsForm (v : Int) (source : BerthSource) (s : State) :
    s.keepsForm (s.storeBerth (berthDraft v) source) := by
  have stored : s.keepsForm { s with berth.maxDraft := berthDraft v, berth.source := source } := by
    refine ⟨id, ?_⟩
    rintro ⟨caution, pace, margin, reportStep, draftStep, overrun, tally, stale, settle, rate, silence, -⟩
    exact ⟨caution, pace, margin, reportStep, draftStep, overrun, tally, stale, settle, rate, silence,
      clamp_mem (by decide) v⟩
  unfold State.storeBerth; dsimp only; split
  · exact keepsForm_trans stored (sameForm_trans (markDirty_sameForm _) (makeDue_sameForm .draft _)).keeps
  · exact guarded_keeps (keepsForm_trans stored (makeDue_sameForm .draft _).keeps) stored

theorem terminalBerth_keepsForm (v : Int) (s : State) : s.keepsForm (s.terminalBerth (berthDraft v)) := by
  have stored := storeBerth_keepsForm v .terminal s
  unfold State.terminalBerth; dsimp only; split
  · exact stored
  · exact stored

theorem putRecord_keepsForm (t : Table) (k : Nat) (ps : List Pair) (s : State) :
    s.keepsForm (s.putRecord t k ps).state := by
  unfold State.putRecord; split
  · cases t with
    | hold => exact (putHold_sameForm k ps s).keeps
    | tank => exact (putTank_sameForm k ps s).keeps
    | item => exact (putItem_sameForm k ps s).keeps
    | pour => exact (putPour_sameForm k ps s).keeps
    | order => exact (putOrder_sameForm k ps s).keeps
    | station => exact (putStation_sameForm k ps s).keeps
    | channel =>
      dsimp only
      cases loaderOfKey k with
      | none => exact keepsForm_refl s
      | some l => exact (putChannel_sameForm l ps s).keeps
    | berth =>
      refine takePut_keeps ?_ (keepsForm_refl s)
      split
      · exact storeBerth_keepsForm _ .ship s
      · exact keepsForm_refl s
    | settings => exact takePut_keeps (storeSettings_keepsForm ps s) (keepsForm_refl s)
    | valve | result | clearance | profile | trial | changes => exact keepsForm_refl s
  · exact keepsForm_refl s

/-! ### Commands by the link that they come on -/

/-- The command completes in a state that keeps the counted records and the ranges. -/
def State.keepsFormIn (s : State) (o : Host.Outcome State Fault Refusal) : Prop := ∀ t, o = .next t → s.keepsForm t

theorem keepsFormIn_next {s t : State} (h : s.keepsForm t) : s.keepsFormIn (.next t) := by
  rintro _ ⟨⟩; exact h

/-- A command of the part's own keeps the form where the operation behind its condition does. -/
theorem guarded_keepsForm {p : Prop} [Decidable p] {s t : State} (acts : s.sameForm t) :
    s.keepsFormIn (.next (if p then t else s)) := keepsFormIn_next (guarded_keeps acts rfl : s.sameForm _).keeps

theorem takeRequest_keepsForm {kind : Nat} {head : ShipHead} {respond : State → Answer} {s : State}
    (answer : s.keepsForm (respond s).state) : s.keepsFormIn (.next (s.takeRequest kind head respond)) :=
  keepsFormIn_next (takeRequest_keeps (P := s.keepsForm) (fun _ _ h => h) answer (keepsForm_refl s))

/-- A record request keeps the form where the tables' rules do. -/
theorem recordCommand_keepsForm {kind : Nat} {head : ShipHead} {look : Bool} {named : State → Table → Nat → Bool}
    {respond : Table → Nat → State → Answer} {s : State} (answer : ∀ t k, s.keepsForm (respond t k s).state) :
    s.keepsFormIn (.next (s.takeRequest kind head fun s => s.recordRequest head look named respond)) :=
  takeRequest_keepsForm (recordRequest_keeps answer (keepsForm_refl s))

/-- An action keeps the form where its own rule does. -/
theorem actionCommand_keepsForm {kind : Nat} {head : ShipHead} {waits : Bool} {respond : State → Answer} {s : State}
    (answer : s.keepsForm (respond s).state) :
    s.keepsFormIn (.next (s.takeRequest kind head fun s => s.actionRequest waits respond)) :=
  takeRequest_keepsForm (actionRequest_keeps answer (keepsForm_refl s))

/-- A trial action keeps the form where its own rule does. -/
theorem trialCommand_keepsForm {kind : Nat} {head : ShipHead} {respond : State → Answer} {s : State}
    (answer : s.sameForm (respond s).state) :
    s.keepsFormIn (.next (s.takeRequest kind head fun s => s.trialRequest head respond)) :=
  takeRequest_keepsForm (trialRequest_keeps answer.keeps (keepsForm_refl s))

theorem takeNotice_keepsForm {kind : NoticeKind} {l : Option Loader} {q : Option (BitVec 16)} {r : Reason}
    {act : State → State} {s : State} (acts : ∀ t : State, t.keepsForm (act t)) :
    s.keepsFormIn (.next (s.takeNotice kind l q r act)) :=
  keepsFormIn_next (takeNotice_keeps (P := s.keepsForm) (fun _ _ h => h) (fun _ h => keepsForm_trans h (acts _))
    (keepsForm_refl s))

theorem takeField_keepsForm {present : State → Bool} {act : State → State} {s : State}
    (acts : ∀ t : State, t.sameForm (act t)) : s.keepsFormIn (.next (s.takeField present act)) :=
  keepsFormIn_next (takeField_keeps (P := s.sameForm) (fun _ _ h => h) (fun _ h => sameForm_trans h (acts _)) rfl).keeps

/-! ### Commands that carry out more than one operation -/

/-- What is kept across a loss of power stands in RESET (spec 11 R163). -/
theorem retained_unready (s : State) : s.retained.startUp.phase ≠ .ready := by
  simp [State.retained, State.reset, StartUp.inReset]

theorem execPowerOn_keepsForm (s : State) : s.keepsFormIn (execPowerOn s) := by
  refine keepsFormIn_next ?_
  split
  · exact keepsForm_refl s
  · exact keepsForm_of_unready (retained_unready s) rfl rfl

theorem execPowerLoss_keepsForm (s : State) : s.keepsFormIn (execPowerLoss s) :=
  keepsFormIn_next (guarded_keeps (keepsForm_of_unready (retained_unready s) rfl rfl) (keepsForm_refl s))

theorem execTimeBaseTick_keepsForm (s : State) : s.keepsFormIn (execTimeBaseTick s) := by
  refine guarded_keepsForm ?_
  split
  · simp [State.sameForm, State.form, State.counts]
  · rfl

theorem execProfileReadComplete_keepsForm (read : ProfileRead) (s : State) :
    s.keepsFormIn (execProfileReadComplete read s) := by
  refine keepsFormIn_next (guarded_keeps ?_ (keepsForm_refl s))
  split
  · exact enterFault_keepsForm _ s
  · rename_i clean; exact loadClean_keepsForm s clean

theorem execPfailAssert_keepsForm (s : State) : s.keepsFormIn (execPfailAssert s) := by
  refine guarded_keepsForm ?_
  have asserted : s.sameForm { s with
    pfail := true, ship.busyOwed := none, ship.receiving := none, terminal.receiving := none
    field.receiving := none } := rfl
  have marked := guarded_keeps (P := s.sameForm) (p := s.ready = true) (t := State.writeMarker _) asserted asserted
  exact guarded_keeps (sameForm_trans marked (pfailChannels_frame _).sameForm) marked

theorem execPfailDeassert_keepsForm (s : State) : s.keepsFormIn (execPfailDeassert s) := by
  refine guarded_keepsForm ?_
  have deasserted : s.sameForm { s with pfail := false, ship := .idle } := rfl
  exact guarded_keeps (sameForm_trans deasserted (resumeReady_sameForm _)) deasserted

theorem execRelease_keepsForm (head : ShipHead) (s : State) : s.keepsFormIn (execRelease head s) := by
  refine actionCommand_keepsForm ?_
  split
  · exact (release_frame s _).sameForm.keeps
  · exact keepsForm_refl s

theorem execForce_keepsForm (head : ShipHead) (pairs : List Pair) (s : State) :
    s.keepsFormIn (execForce head pairs s) := by
  refine actionCommand_keepsForm ?_
  split
  · exact (force_frame _ _ s).sameForm.keeps
  · exact keepsForm_refl s

theorem execRestart_keepsForm (head : ShipHead) (s : State) : s.keepsFormIn (execRestart head s) := by
  refine actionCommand_keepsForm (keyless_keeps ?_ (keepsForm_refl s))
  split
  · exact (restart_sameForm s).keeps
  · exact keepsForm_refl s

theorem execPurge_keepsForm (head : ShipHead) (s : State) : s.keepsFormIn (execPurge head s) := by
  refine actionCommand_keepsForm (keyless_keeps ?_ (keepsForm_refl s))
  split
  · exact (purge_sameForm s).keeps
  · exact keepsForm_refl s

theorem execReload_keepsForm (head : ShipHead) (s : State) : s.keepsFormIn (execReload head s) := by
  refine actionCommand_keepsForm ?_
  split
  · exact keepsForm_refl s
  · split
    · exact keepsForm_of_unready (by simp [State.reload, State.enterLoading]) rfl rfl
    · exact keepsForm_refl s

theorem execTrialOpen_keepsForm (head : ShipHead) (s : State) : s.keepsFormIn (execTrialOpen head s) := by
  refine trialCommand_keepsForm ?_
  split <;> rfl

theorem execTrialEvaluate_keepsForm (head : ShipHead) (s : State) : s.keepsFormIn (execTrialEvaluate head s) := by
  refine trialCommand_keepsForm ?_
  split <;> rfl

theorem execLivePassEnd_keepsForm (s : State) : s.keepsFormIn (execLivePassEnd s) := by
  refine guarded_keepsForm ?_
  split
  · exact publish_sameForm _ s
  · rfl

theorem execTrialPassStart_keepsForm (s : State) : s.keepsFormIn (execTrialPassStart s) := by
  refine guarded_keepsForm ?_
  split
  · exact guarded_keeps rfl rfl
  · rfl

theorem execTrialPassEnd_keepsForm (s : State) : s.keepsFormIn (execTrialPassEnd s) := by
  refine guarded_keepsForm ?_
  split
  · split
    · split <;> rfl
    · rfl
  · rfl

theorem execPourStart_keepsForm (l : Loader) (n : BitVec 16) (rate : BitVec 32) (s : State) :
    s.keepsFormIn (execPourStart l n rate s) := by
  refine takeNotice_keepsForm fun t => ?_
  split
  · exact (placeReply_sameForm _ t).keeps
  · exact (sameForm_trans (acceptStart_sameForm l _ _ t) (placeReply_sameForm _ _)).keeps

theorem execTally_keepsForm (l : Loader) (amount : BitVec 32) (s : State) : s.keepsFormIn (execTally l amount s) := by
  refine takeNotice_keepsForm fun t => ?_
  split
  · exact (placeReply_sameForm _ t).keeps
  · split
    · exact (acceptTally_sameForm l _ _ t).keeps
    · exact (placeReply_sameForm _ (t.tallyFault l)).keeps

theorem execPourEnd_keepsForm (l : Loader) (final : BitVec 32) (s : State) :
    s.keepsFormIn (execPourEnd l final s) := by
  refine takeNotice_keepsForm fun t => ?_
  split
  · exact (placeReply_sameForm _ t).keeps
  · exact (sameForm_trans (endActive_sameForm l _ _ t) (placeReply_sameForm _ _)).keeps

theorem execBerth_keepsForm (draft : BitVec 32) (s : State) : s.keepsFormIn (execBerth draft s) :=
  takeNotice_keepsForm fun t => keepsForm_trans (terminalBerth_keepsForm _ t) (placeReply_sameForm _ _).keeps

theorem execReportRequest_keepsForm (slot : Slot) (s : State) : s.keepsFormIn (execReportRequest slot s) := by
  have taken : s.sameForm { s with terminal.receiving := none } := rfl
  refine guarded_keepsForm ?_
  dsimp only; split
  · exact taken
  · exact sameForm_trans taken (makeDue_sameForm slot _)

theorem execValvePosition_keepsForm (key : Octet) (position : PositionReport) (s : State) :
    s.keepsFormIn (execValvePosition key position s) := by
  refine takeField_keepsForm fun t => ?_
  split
  · exact sameForm_settle (valveReport_frame _ _ t).sameForm
  · rfl

/-! ### Every command -/

theorem exec_keepsForm (c : Instr) (s : State) : s.keepsFormIn (exec c s) := by
  cases c with
  | powerOn => exact execPowerOn_keepsForm s
  | powerLoss => exact execPowerLoss_keepsForm s
  | timeBaseTick => exact execTimeBaseTick_keepsForm s
  | resetNAssert | resetNRelease =>
    exact keepsFormIn_next (guarded_keeps
      (keepsForm_of_unready (by simp [State.enterReset, State.enterLoading]) rfl rfl) (keepsForm_refl s))
  | profileReadComplete read => exact execProfileReadComplete_keepsForm read s
  | profileReadTimeout =>
    exact keepsFormIn_next (guarded_keeps (enterFault_keepsForm .noImage s) (keepsForm_refl s))
  | pfailAssert => exact execPfailAssert_keepsForm s
  | pfailDeassert => exact execPfailDeassert_keepsForm s
  | shipFrameDiscard | shipFrameIncompleteTimeout | shipFrameBusyOwed | shipReplyEnd => exact guarded_keepsForm rfl
  | look => exact recordCommand_keepsForm fun _ _ => keepsForm_refl s
  | put _ pairs => exact recordCommand_keepsForm fun t k => putRecord_keepsForm t k pairs s
  | retire => exact recordCommand_keepsForm fun t k => (retireRecord_sameForm t k s).keeps
  | clear _ codes => exact recordCommand_keepsForm fun t k => (clearRecord_sameForm codes t k s).keeps
  | run =>
    have ran : s.keepsForm s.runSequencer := (runSequencer_frame s).sameForm.keeps
    exact actionCommand_keepsForm
      (keyless_keeps (unlessFault_keeps ran (keepsForm_refl s)) (keepsForm_refl s))
  | halt => exact actionCommand_keepsForm (keyless_keeps (haltAnswer_sameForm s).keeps (keepsForm_refl s))
  | rearm => exact actionCommand_keepsForm (rearmAnswer_sameForm _ s).keeps
  | release head => exact execRelease_keepsForm head s
  | force head pairs => exact execForce_keepsForm head pairs s
  | endPour => exact actionCommand_keepsForm (endPourAnswer_sameForm _ s).keeps
  | restart head => exact execRestart_keepsForm head s
  | purge head => exact execPurge_keepsForm head s
  | purgeStep => exact guarded_keepsForm (purgeOne_sameForm s)
  | reload head => exact execReload_keepsForm head s
  | trialOpen head => exact execTrialOpen_keepsForm head s
  | trialPut _ pairs => exact trialCommand_keepsForm (trialPutAnswer_sameForm pairs s)
  | trialEvaluate head => exact execTrialEvaluate_keepsForm head s
  | trialClose => exact trialCommand_keepsForm rfl
  | unknownRequestKind => exact takeRequest_keepsForm (keepsForm_refl s)
  | livePassStart => exact guarded_keepsForm rfl
  | livePassEnd => exact execLivePassEnd_keepsForm s
  | trialPassStart => exact execTrialPassStart_keepsForm s
  | trialPassEnd => exact execTrialPassEnd_keepsForm s
  | clearanceComputation =>
    exact guarded_keepsForm (compute_frame s).sameForm
  | channelDerivation l => exact guarded_keepsForm (takeDerivation_frame s l).sameForm
  | tallyTimerExpiry l => exact guarded_keepsForm (expireTallyTimer_frame s l).sameForm
  | pourStart l n rate => exact execPourStart_keepsForm l n rate s
  | tally l amount => exact execTally_keepsForm l amount s
  | pourEnd l final => exact execPourEnd_keepsForm l final s
  | berth draft => exact execBerth_keepsForm draft s
  | reportRequest slot => exact execReportRequest_keepsForm slot s
  | terminalSendStart => exact guarded_keepsForm (sendNext_sameForm s)
  | terminalFrameDiscard | terminalFrameEnd => exact guarded_keepsForm rfl
  | sounding =>
    exact takeField_keepsForm fun t => guarded_keeps (goodSounding_sameForm _ _ t) rfl
  | valvePosition key position => exact execValvePosition_keepsForm key position s
  | pumpStatus _ status =>
    exact takeField_keepsForm fun t => sameForm_settle (pumpReport_frame _ status t).sameForm
  | localSwitch _ position =>
    exact takeField_keepsForm fun t => sameForm_settle (switchReport_frame _ position t).sameForm
  | fieldFrameDiscard | fieldFrameIncompleteTimeout | fieldSendStart | fieldFrameEnd => exact guarded_keepsForm rfl
  | fieldSilenceExpiry => exact keepsFormIn_next (silenceExpires_sameForm s).keeps
  | staleExpiry tank => exact guarded_keepsForm (staleExpires_sameForm tank s)
  | stripSettleExpiry tank => exact guarded_keepsForm (settleExpires_sameForm tank s)
  | valveTravelTimeout v => exact guarded_keepsForm (sameForm_settle (travelTimeout_frame v s).sameForm)
  | primingExpiry g => exact guarded_keepsForm (sameForm_settle (primingEnds_frame g s).sameForm)
  | rundownExpiry g => exact guarded_keepsForm (sameForm_settle (rundownEnds_frame g s).sameForm)
  | dryRunCondition g => exact guarded_keepsForm (sameForm_settle (dryRunActs_frame g s).sameForm)

/-- Settles O9: each command keeps what the records and the settings rest on, but for the starts, which lay the counted records
out, and for the settings and drafts stored, which are taken into their ranges. -/
theorem stepKeepsRecordsAndSettings : Obligations.StepKeepsRecordsAndSettings := by
  intro s t run
  unfold step at run
  split at run
  · obtain rfl := Host.Outcome.next.inj run
    exact keepsForm_refl s
  · rename_i c rest _
    exact exec_keepsForm c { s with pending := rest } t run

end Sys2Proof.Machine
end

