-- ==== Sys2Proof/Proofs/Conversion.lean ====
section
/-! PROOFS. The conversion of a reading: the level by the sounding form, the volume by the sounding table, the mass by the
density. A table is walked breakpoint by breakpoint, so each fact about it is an induction on the breakpoints above. -/

namespace Sys2Proof.Machine

/-! ### Rounding -/

theorem roundHalfUp_mono {n m : Nat} (d : Nat) (h : n ≤ m) : roundHalfUp n d ≤ roundHalfUp m d :=
  Nat.div_le_div_right (by omega)

/-- A whole number of units is rounded to itself. -/
theorem roundHalfUp_mul {d : Nat} (pos : 0 < d) (k : Nat) : roundHalfUp (d * k) d = k := by
  unfold roundHalfUp
  rw [show 2 * (d * k) + d = d + 2 * d * k by ring, Nat.add_mul_div_left _ _ (by omega), Nat.div_eq_of_lt (by omega),
    Nat.zero_add]

/-! ### Sounding tables -/

/-- The breakpoint lies below another in level, and not above it in volume. -/
def lowerThan (a b : Breakpoint) : Prop := a.level < b.level ∧ a.volume ≤ b.volume

/-- Each breakpoint of a legal table lies below all that follow (spec 01 R6). -/
theorem pairwise_lowerThan_of_tableLegal {table : List Breakpoint} (legal : tableLegal table = true) :
    table.Pairwise lowerThan := by
  have steps : (table.zip (table.drop 1)).all (fun (a, b) => decide (a.level < b.level ∧ a.volume ≤ b.volume)) = true := by
    simp only [tableLegal, Bool.and_eq_true] at legal
    exact legal.2
  clear legal
  induction table with
  | nil => exact .nil
  | cons a rest ih =>
    cases rest with
    | nil => exact List.pairwise_singleton _ a
    | cons b rest =>
      simp only [List.drop_succ_cons, List.drop_zero, List.zip_cons_cons, List.all_cons, Bool.and_eq_true,
        decide_eq_true_eq] at steps ih
      obtain ⟨step, steps⟩ := steps
      have above := ih steps
      refine List.pairwise_cons.2 ⟨fun x hx => ?_, above⟩
      obtain rfl | hx := List.mem_cons.1 hx
      · exact step
      · obtain ⟨level, volume⟩ := (List.pairwise_cons.1 above).1 x hx
        obtain ⟨level', volume'⟩ := step
        exact ⟨by omega, by omega⟩

/-- Up to a breakpoint's level the volume is the breakpoint's. -/
theorem volumeFrom_of_le {b : Breakpoint} {rest : List Breakpoint} {level : Nat} (h : level ≤ b.level) :
    volumeFrom b rest level = (b.volume, false) := by
  cases rest <;> simp [volumeFrom, h]

/-- Between two neighbours the volume is interpolated. -/
theorem volumeFrom_of_between {b b' : Breakpoint} {rest : List Breakpoint} {level : Nat} (above : b.level < level)
    (below : level < b'.level) :
    volumeFrom b (b' :: rest) level =
      (b.volume + roundHalfUp ((level - b.level) * (b'.volume - b.volume)) (b'.level - b.level), false) := by
  simp [volumeFrom, Nat.not_le.2 above, below]

/-- From the next breakpoint's level on the table above decides. -/
theorem volumeFrom_of_next_le {b b' : Breakpoint} {rest : List Breakpoint} {level : Nat} (step : b.level < b'.level)
    (h : b'.level ≤ level) : volumeFrom b (b' :: rest) level = volumeFrom b' rest level := by
  simp [volumeFrom, Nat.not_le.2 (Nat.lt_of_lt_of_le step h), Nat.not_lt.2 h]

/-- Short of the next breakpoint the volume rises from the one to at most the other. -/
theorem volumeFrom_le_next {b b' : Breakpoint} {rest : List Breakpoint} {level : Nat} (step : lowerThan b b')
    (below : level < b'.level) : (volumeFrom b (b' :: rest) level).1 ≤ b'.volume := by
  obtain ⟨levels, volumes⟩ := step
  obtain le | above := le_or_gt level b.level
  · rw [volumeFrom_of_le le]; exact volumes
  · rw [volumeFrom_of_between above below]
    have rise : roundHalfUp ((level - b.level) * (b'.volume - b.volume)) (b'.level - b.level) ≤ b'.volume - b.volume :=
      calc roundHalfUp ((level - b.level) * (b'.volume - b.volume)) (b'.level - b.level)
          ≤ roundHalfUp ((b'.level - b.level) * (b'.volume - b.volume)) (b'.level - b.level) :=
            roundHalfUp_mono _ (Nat.mul_le_mul_right _ (by omega))
        _ = b'.volume - b.volume := roundHalfUp_mul (by omega) _
    show b.volume + _ ≤ b'.volume
    omega

theorem le_volumeFrom {b : Breakpoint} {rest : List Breakpoint} (legal : (b :: rest).Pairwise lowerThan)
    (level : Nat) : b.volume ≤ (volumeFrom b rest level).1 := by
  induction rest generalizing b with
  | nil => exact Nat.le_refl _
  | cons b' rest ih =>
    obtain ⟨above, legal⟩ := List.pairwise_cons.1 legal
    obtain ⟨levels, volumes⟩ := above b' List.mem_cons_self
    obtain below | next := lt_or_ge level b'.level
    · obtain le | above := le_or_gt level b.level
      · rw [volumeFrom_of_le le]
      · rw [volumeFrom_of_between above below]; exact Nat.le_add_right _ _
    · rw [volumeFrom_of_next_le levels next]
      exact volumes.trans (ih legal)

/-- The volume never falls as the level rises. -/
theorem volumeFrom_mono {b : Breakpoint} {rest : List Breakpoint} (legal : (b :: rest).Pairwise lowerThan)
    {a c : Nat} (h : a ≤ c) : (volumeFrom b rest a).1 ≤ (volumeFrom b rest c).1 := by
  induction rest generalizing b with
  | nil => exact Nat.le_refl _
  | cons b' rest ih =>
    obtain ⟨above, legal'⟩ := List.pairwise_cons.1 legal
    have step := above b' List.mem_cons_self
    obtain le | aboveA := le_or_gt a b.level
    · rw [volumeFrom_of_le le]; exact le_volumeFrom legal c
    obtain belowC | nextC := lt_or_ge c b'.level
    · rw [volumeFrom_of_between aboveA (by omega), volumeFrom_of_between (by omega) belowC]
      exact Nat.add_le_add_left (roundHalfUp_mono _ (Nat.mul_le_mul_right _ (by omega))) _
    rw [volumeFrom_of_next_le step.1 nextC]
    obtain belowA | nextA := lt_or_ge a b'.level
    · exact (volumeFrom_le_next step belowA).trans (le_volumeFrom legal' c)
    · rw [volumeFrom_of_next_le step.1 nextA]
      exact ih legal'

/-- At each breakpoint's level the volume is the breakpoint's. -/
theorem volumeFrom_of_mem {b x : Breakpoint} {rest : List Breakpoint} (legal : (b :: rest).Pairwise lowerThan)
    (h : x ∈ b :: rest) : volumeFrom b rest x.level = (x.volume, false) := by
  induction rest generalizing b with
  | nil => obtain rfl := List.mem_singleton.1 h; exact volumeFrom_of_le (Nat.le_refl _)
  | cons b' rest ih =>
    obtain ⟨above, legal⟩ := List.pairwise_cons.1 legal
    obtain rfl | h := List.mem_cons.1 h
    · exact volumeFrom_of_le (Nat.le_refl _)
    · have next : b'.level ≤ x.level := by
        obtain rfl | h := List.mem_cons.1 h
        · exact Nat.le_refl _
        · exact Nat.le_of_lt ((List.pairwise_cons.1 legal).1 x h).1
      rw [volumeFrom_of_next_le (above b' List.mem_cons_self).1 next]
      exact ih legal h

/-- Above the last breakpoint its volume stands with the over-range mark, and up to it without. -/
theorem volumeFrom_last {b last : Breakpoint} {rest : List Breakpoint} (legal : (b :: rest).Pairwise lowerThan)
    (h : (b :: rest).getLast? = some last) (level : Nat) :
    (last.level < level → volumeFrom b rest level = (last.volume, true)) ∧
      (level ≤ last.level → (volumeFrom b rest level).2 = false) := by
  induction rest generalizing b with
  | nil =>
    obtain rfl : b = last := by simpa using h
    exact ⟨fun beyond => by simp [volumeFrom, beyond], fun le => by simp [volumeFrom, le]⟩
  | cons b' rest ih =>
    obtain ⟨above, legal⟩ := List.pairwise_cons.1 legal
    have levels := (above b' List.mem_cons_self).1
    obtain ⟨beyond, within⟩ := ih legal (by simpa using h)
    obtain below | next := lt_or_ge level b'.level
    · have short : b'.level ≤ last.level := by
        obtain rfl | mem := List.mem_cons.1 (List.mem_of_getLast? (by simpa using h : (b' :: rest).getLast? = some last))
        · exact Nat.le_refl _
        · exact Nat.le_of_lt ((List.pairwise_cons.1 legal).1 last mem).1
      refine ⟨fun beyond => by omega, fun _ => ?_⟩
      obtain le | above := le_or_gt level b.level
      · rw [volumeFrom_of_le le]
      · rw [volumeFrom_of_between above below]
    · rw [volumeFrom_of_next_le levels next]
      exact ⟨beyond, within⟩

/-- Between a breakpoint and the next the volume is interpolated. -/
theorem volumeFrom_of_neighbours {b x y : Breakpoint} {rest : List Breakpoint}
    (legal : (b :: rest).Pairwise lowerThan) {i level : Nat} (hx : (b :: rest)[i]? = some x)
    (hy : (b :: rest)[i + 1]? = some y) (above : x.level < level) (below : level < y.level) :
    volumeFrom b rest level =
      (x.volume + roundHalfUp ((level - x.level) * (y.volume - x.volume)) (y.level - x.level), false) := by
  induction rest generalizing b i with
  | nil => simp at hy
  | cons b' rest ih =>
    obtain ⟨higher, legal⟩ := List.pairwise_cons.1 legal
    cases i with
    | zero =>
      obtain rfl : b = x := by simpa using hx
      obtain rfl : b' = y := by simpa using hy
      exact volumeFrom_of_between above below
    | succ i =>
      have mem : x ∈ b' :: rest := List.mem_of_getElem? (by simpa using hx)
      have next : b'.level ≤ level := by
        obtain rfl | mem := List.mem_cons.1 mem
        · omega
        · have := ((List.pairwise_cons.1 legal).1 x mem).1; omega
      rw [volumeFrom_of_next_le (higher b' List.mem_cons_self).1 next]
      exact ih legal (by simpa using hx) (by simpa using hy)

/-! ### The conversion -/

theorem levelOf_level {d : TankData} (form : d.form = .level) (reading : Nat) : levelOf d reading = min reading 30000 := by
  simp [levelOf, form]

theorem levelOf_ullage {d : TankData} {datum : Nat} (form : d.form = .ullage) (depth : d.datum = some datum)
    (reading : Nat) : (levelOf d reading : Int) = max 0 ((datum : Int) - min reading 30000) := by
  simp only [levelOf, form, depth, Option.getD_some]
  omega

/-- A legal table has a first breakpoint, from which it is walked. -/
theorem volumeAt_of_tableLegal {table : List Breakpoint} (legal : tableLegal table = true) :
    ∃ b rest, table = b :: rest ∧ volumeAt table = volumeFrom b rest ∧ (b :: rest).Pairwise lowerThan := by
  cases table with
  | nil => simp [tableLegal] at legal
  | cons b rest => exact ⟨b, rest, rfl, rfl, pairwise_lowerThan_of_tableLegal legal⟩

/-- By a legal table the volume lies between the first breakpoint's and the last's, and is marked above the last. -/
theorem volumeFrom_range {b first last : Breakpoint} {rest : List Breakpoint}
    (legal : (b :: rest).Pairwise lowerThan) (hfirst : (b :: rest).head? = some first)
    (hlast : (b :: rest).getLast? = some last) (level : Nat) :
    first.volume ≤ (volumeFrom b rest level).1 ∧ (volumeFrom b rest level).1 ≤ last.volume ∧
      ((volumeFrom b rest level).2 = true ↔ last.level < level) ∧
      (level ≤ first.level → volumeFrom b rest level = (first.volume, false)) ∧
      (last.level < level → volumeFrom b rest level = (last.volume, true)) := by
  obtain rfl : b = first := by simpa using hfirst
  obtain ⟨beyond, within⟩ := volumeFrom_last legal hlast level
  have atLast : volumeFrom b rest last.level = (last.volume, false) :=
    volumeFrom_of_mem legal (List.mem_of_getLast? hlast)
  refine ⟨le_volumeFrom legal level, ?_, ⟨fun marked => ?_, fun h => by rw [beyond h]⟩, volumeFrom_of_le, beyond⟩
  · obtain le | above := le_or_gt level last.level
    · exact (volumeFrom_mono legal le).trans (by rw [atLast])
    · rw [beyond above]
  · by_contra h
    rw [within (by omega)] at marked
    exact absurd marked (by decide)

/-- Settles O22: the level by its form, the volume by walking the table, the mass by its definition. -/
theorem conversionIsMonotoneAndBounded : Obligations.ConversionIsMonotoneAndBounded := by
  refine ⟨fun d reading => ⟨fun form => levelOf_level form reading, fun _ form depth => levelOf_ullage form depth reading⟩,
    fun table a c legal h => ?_, fun _ _ _ => rfl⟩
  obtain ⟨b, rest, rfl, walk, legal⟩ := volumeAt_of_tableLegal legal
  rw [walk]
  exact ⟨volumeFrom_mono legal h, fun _ _ first last => volumeFrom_range legal first last a,
    fun _ => volumeFrom_of_mem legal, fun _ _ _ hx hy => volumeFrom_of_neighbours legal hx hy⟩

end Sys2Proof.Machine
end

