-- ==== Sys2Proof/Proofs/PutPairs.lean ====
section
/-! PROOFS. The pairs of a Put and its checks, for every table: the value that a field takes, the first pair that fails, and
the exchange that answers a Put of a record that exists (spec 09 R143, R145, R147). -/

namespace Sys2Proof.Machine

/-! ### The value that a field takes -/

/-- A later pair decides before an earlier one. -/
theorem valueOf_cons (p : Pair) (ps : List Pair) (i : BitVec 16) :
    valueOf (p :: ps) i = (valueOf ps i).or (if p.ident = i then some p.value else none) := by
  have fold (ps : List Pair) (acc : Option (BitVec 32)) :
      ps.foldl (fun acc p => if p.ident = i then some p.value else acc) acc = (valueOf ps i).or acc := by
    induction ps generalizing acc with
    | nil => rfl
    | cons q ps ih =>
      unfold valueOf
      rw [List.foldl_cons, List.foldl_cons, ih, ih, Option.or_assoc]
      split <;> simp
  exact fold ps _

/-- The value that a field takes is that of some pair. -/
theorem mem_of_valueOf {ps : List Pair} {i : BitVec 16} {v : BitVec 32} (h : valueOf ps i = some v) : ⟨i, v⟩ ∈ ps := by
  induction ps with
  | nil => exact absurd h (by simp [valueOf])
  | cons p ps ih =>
    rw [valueOf_cons, Option.or_eq_some_iff] at h
    obtain h | ⟨-, h⟩ := h
    · exact .tail _ (ih h)
    · split at h
      · rename_i named
        obtain rfl := Option.some.inj h
        exact named ▸ .head _
      · exact absurd h (by simp)

/-- A field takes a value where some pair names it. -/
theorem exists_valueOf {ps : List Pair} {p : Pair} (h : p ∈ ps) : ∃ v, valueOf ps p.ident = some v := by
  induction ps with
  | nil => exact absurd h List.not_mem_nil
  | cons q ps ih =>
    rw [valueOf_cons]
    obtain rfl | h := List.mem_cons.1 h
    · cases valueOf ps p.ident <;> simp
    · obtain ⟨v, hv⟩ := ih h
      simp [hv]

theorem mem_namedOnce {ps : List Pair} {i : BitVec 16} : i ∈ namedOnce ps ↔ ∃ p ∈ ps, p.ident = i := by
  induction ps with
  | nil => simp [namedOnce]
  | cons p ps ih =>
    simp only [namedOnce, List.mem_cons, List.mem_filter, ih, exists_eq_or_imp, decide_eq_true_eq]
    by_cases named : p.ident = i
    · simp [named]
    · simp [named, Ne.symm named]

/-- A Put that names one field names it once. -/
theorem namedOnce_of_forall {ps : List Pair} {i : BitVec 16} (nonempty : ps ≠ []) (all : ∀ p ∈ ps, p.ident = i) :
    namedOnce ps = [i] := by
  obtain ⟨p, ps, rfl⟩ := List.exists_cons_of_ne_nil nonempty
  rw [namedOnce, all p (.head _), List.filter_eq_nil_iff.2]
  intro j mem
  obtain ⟨q, hq, rfl⟩ := mem_namedOnce.1 mem
  simp [all q (.tail _ hq)]

/-- The pairs as they will have been applied are those that carry the value their field takes. -/
theorem mem_effective {ps : List Pair} {p : Pair} : p ∈ effective ps ↔ valueOf ps p.ident = some p.value := by
  simp only [effective, List.mem_filterMap, Option.map_eq_some_iff]
  constructor
  · rintro ⟨i, -, v, h, rfl⟩
    exact h
  · exact fun h => ⟨p.ident, mem_namedOnce.2 ⟨_, mem_of_valueOf h, rfl⟩, p.value, h, rfl⟩

theorem mem_of_mem_effective {ps : List Pair} {p : Pair} (h : p ∈ effective ps) : p ∈ ps :=
  mem_of_valueOf (mem_effective.1 h)

theorem exists_effective {ps : List Pair} {p : Pair} (h : p ∈ ps) : ∃ q ∈ effective ps, q.ident = p.ident := by
  obtain ⟨v, hv⟩ := exists_valueOf h
  exact ⟨⟨p.ident, v⟩, mem_effective.2 hv, rfl⟩

/-- The integer that a field takes is carried by an effective pair. -/
theorem intAt_eq_some {ps : List Pair} {row place : Nat} {v : Int} :
    intAt ps row place = some v ↔ ∃ p ∈ effective ps, p.ident = fieldId row place ∧ p.value.toInt = v := by
  simp only [intAt, Option.map_eq_some_iff]
  constructor
  · rintro ⟨w, h, rfl⟩
    exact ⟨⟨_, w⟩, mem_effective.2 h, rfl, rfl⟩
  · rintro ⟨p, mem, named, rfl⟩
    exact ⟨p.value, named ▸ mem_effective.1 mem, rfl⟩

/-! ### The checks in their order -/

/-- A check that some pair fails refuses the Put with such a pair. -/
theorem firstFailure_of_fails {ps : List Pair} {c : PutCheck} (cs : List PutCheck) (h : ∃ p ∈ ps, c.fails p = true) :
    ∃ p ∈ ps, c.fails p = true ∧ firstFailure ps (c :: cs) = some (c.status, [p]) := by
  obtain ⟨p, found⟩ := Option.isSome_iff_exists.1 (List.find?_isSome.2 h)
  exact ⟨p, List.mem_of_find?_eq_some found, List.find?_some found, by simp [firstFailure, found]⟩

/-- A check that every pair passes leaves the Put to the checks that follow. -/
theorem firstFailure_of_passes {ps : List Pair} {c : PutCheck} (cs : List PutCheck) (pairs : ∀ p ∈ ps, c.fails p = false)
    (whole : c.whole = false) : firstFailure ps (c :: cs) = firstFailure ps cs := by
  have passed : ps.find? c.fails = none := List.find?_eq_none.2 fun p h => by simp [pairs p h]
  simp [firstFailure, passed, whole]

/-- A field that a Put may not name is BAD FIELD before every other check. -/
theorem firstFailure_unknownField {ps : List Pair} {allowed : List (BitVec 16)} (cs : List PutCheck)
    (h : ∃ p ∈ ps, p.ident ∉ allowed) :
    ∃ p ∈ ps, p.ident ∉ allowed ∧ firstFailure (effective ps) (unknownField allowed :: cs) = some (.badField, [p]) := by
  obtain ⟨p, mem, unknown⟩ := h
  obtain ⟨q, eff, same⟩ := exists_effective mem
  obtain ⟨r, eff', fails, first⟩ := firstFailure_of_fails (c := unknownField allowed) cs
    ⟨q, eff, by simpa [unknownField, same] using unknown⟩
  exact ⟨r, mem_of_mem_effective eff', by simpa [unknownField] using fails, first⟩

theorem firstFailure_knownFields {ps : List Pair} {allowed : List (BitVec 16)} (cs : List PutCheck)
    (h : ∀ p ∈ ps, p.ident ∈ allowed) :
    firstFailure (effective ps) (unknownField allowed :: cs) = firstFailure (effective ps) cs :=
  firstFailure_of_passes cs (fun p mem => by simpa [unknownField] using h p (mem_of_mem_effective mem)) rfl

/-! ### The answer of a Put -/

theorem takePut_refused {s : State} {ps : List Pair} {checks : List PutCheck} {store : State → State}
    {record : State → List Pair} {status : ReplyStatus} {pairs : List Pair}
    (h : firstFailure (effective ps) checks = some (status, pairs)) :
    s.takePut ps checks store record = ⟨status, pairs, s⟩ := by
  simp [State.takePut, h]

theorem takePut_taken {s : State} {ps : List Pair} {checks : List PutCheck} {store : State → State}
    {record : State → List Pair} (h : firstFailure (effective ps) checks = none) :
    s.takePut ps checks store record = ⟨.done, storedPairs ps (record (store s)), store s⟩ := by
  simp [State.takePut, h]

/-- The reply to a Put of one field carries that field of the record. -/
theorem storedPairs_of_forall {ps : List Pair} {i : BitVec 16} (nonempty : ps ≠ []) (all : ∀ p ∈ ps, p.ident = i)
    (record : List Pair) : storedPairs ps record = (record.find? (·.ident = i)).toList := by
  rw [storedPairs, namedOnce_of_forall nonempty all, List.filterMap_cons]
  cases record.find? (·.ident = i) <;> rfl

/-- In READY a Put of a record that exists, on a table that no PURGE holds, is answered by the table's rule, and its reply
begins to be sent. -/
theorem exec_put {s : State} {h : ShipHead} {ps : List Pair} {x : Table} (idle : s.shipIdle) (ready : s.ready = true)
    (code : Table.ofCode h.table.toNat = some x) (free : Table.purged (some x) = false)
    (named : s.putExists x h.key.toNat = true) {a : Answer}
    (answer : s.putRecord x h.key.toNat ps = a) :
    exec (.put h ps) s = .next (a.state.replied 2 h a.status a.payload) := by
  have loaded : s.loading = false := by
    simp only [State.ready, Bool.and_eq_true, decide_eq_true_eq] at ready
    simp [State.loading, ready.2]
  have taken : s.recordRequest h false State.putExists (fun t k s => s.putRecord t k ps) = a := by
    simp [State.recordRequest, loaded, code, free, named, answer]
  show Host.Outcome.next (s.takeRequest 2 h _) = _
  rw [takeRequest_idle idle, taken]
  rfl

/-! ### What a change leaves for other blocks in READY -/

theorem markDirty_eq {s : State} (ready : s.ready = true) :
    s.markDirty = { s with engine := { s.engine with dirty := true } } := if_pos ready

theorem oweComputation_eq {s : State} (ready : s.ready = true) :
    s.oweComputation = { s with pours := { s.pours with computationsOwed := s.pours.computationsOwed + 1 } } :=
  if_pos ready

/-- The marks that a changed mass leaves: the pass dirty, a computation owed. -/
theorem massMarks_eq {s : State} (ready : s.ready = true) (p q : Bool) :
    (if q then (if p then s.markDirty else s).oweComputation else if p then s.markDirty else s) = { s with
      engine := { s.engine with dirty := s.engine.dirty || p }
      pours := { s.pours with computationsOwed := s.pours.computationsOwed + q.toNat } } := by
  have marked : (if p then s.markDirty else s) = { s with engine := { s.engine with dirty := s.engine.dirty || p } } := by
    cases p with
    | false => simp
    | true => rw [if_pos rfl, markDirty_eq ready, Bool.or_true]
  rw [marked]
  cases q with
  | false => rfl
  | true => exact oweComputation_eq (s := { s with engine := { s.engine with dirty := s.engine.dirty || p } }) ready

/-! ### Numbered records -/

/-- A number from 1 to the length of a list names an element of it. -/
theorem nth1_eq_some_getD {α : Type} {l : List α} {n : Nat} (d : α) (h : 1 ≤ n ∧ n ≤ l.length) :
    nth1 l n = some ((nth1 l n).getD d) := by
  obtain ⟨n, rfl⟩ := Nat.exists_eq_add_of_le' h.1
  simp [nth1, List.getElem?_eq_getElem (show n < l.length by omega)]

/-- What a changed element is. -/
theorem nth1_modify1_self {α : Type} {l : List α} {n : Nat} {a : α} (h : nth1 l n = some a) (f : α → α) :
    nth1 (modify1 l n f) n = some (f a) := by
  rw [nth1_modify1, if_pos rfl, h]; rfl

/-- A change of an element depends on what it makes of that element alone. -/
theorem modify1_congr {α : Type} {l : List α} {n : Nat} {a : α} {f g : α → α} (h : nth1 l n = some a) (same : f a = g a) :
    modify1 l n f = modify1 l n g := by
  cases n with
  | zero => rfl
  | succ n =>
    refine List.ext_getElem? fun i => ?_
    simp only [modify1, List.getElem?_modify]
    obtain rfl | ne := eq_or_ne n i
    · rw [show l[n]? = some a from h]; simp [same]
    · simp [ne]

theorem modify1_modify1 {α : Type} (l : List α) (n : Nat) (f g : α → α) :
    modify1 (modify1 l n f) n g = modify1 l n (g ∘ f) := by
  cases n with
  | zero => rfl
  | succ n => exact List.modify_modify_eq f g n l

end Sys2Proof.Machine
end

