-- ==== Sys2Proof/Proofs/PutMasses.lean ====
section
/-! PROOFS. A PUT of a hold's initial mass or of an item's mass (spec 01 R3 to R5, spec 04 R71): the one field that each table
takes, and what its storing hands on. -/

namespace Sys2Proof.Machine

/-! ### A Put that takes one mass -/

/-- The checks of a table whose one field is a mass. -/
def massChecks (field : BitVec 16) (most : Int) : List PutCheck :=
  [unknownField [field], ⟨.badValue, valueFails field fun v => !inRange 0 most v, false⟩]

theorem putHold_eq (h : Nat) (ps : List Pair) (s : State) :
    s.putHold h ps = s.takePut ps (massChecks (fieldId 4 0) 400000)
      (fun s => match intAt ps 4 0 with
        | some v => (s.updHold h ({ · with initial := v.toNat })).deriveHold h
        | none => s)
      (fun s => holdRecord (s.holdData h) (s.hold h)) := rfl

theorem putItem_eq (i : Nat) (ps : List Pair) (s : State) :
    s.putItem i ps = s.takePut ps (massChecks (fieldId 1 0) 100000)
      (fun s => match intAt ps 1 0 with
        | some v => s.storeItem i v.toNat
        | none => s)
      (fun s => itemRecord (s.item i)) := rfl

theorem massChecks_unknown {ps : List Pair} {field : BitVec 16} (most : Int) (h : ∃ p ∈ ps, p.ident ≠ field) :
    ∃ p ∈ ps, p.ident ≠ field ∧ firstFailure (effective ps) (massChecks field most) = some (.badField, [p]) := by
  obtain ⟨p, mem, unknown, first⟩ := firstFailure_unknownField (allowed := [field]) _ (by simpa using h)
  exact ⟨p, mem, by simpa using unknown, first⟩

/-- Where the field alone is named, its value decides. -/
theorem massChecks_known {ps : List Pair} {field : BitVec 16} (most : Int) (all : ∀ p ∈ ps, p.ident = field) :
    firstFailure (effective ps) (massChecks field most) =
      firstFailure (effective ps) [⟨.badValue, valueFails field fun v => !inRange 0 most v, false⟩] :=
  firstFailure_knownFields _ (by simpa using all)

theorem massChecks_outOfRange {ps : List Pair} {field : BitVec 16} {most : Int} {v : BitVec 32}
    (all : ∀ p ∈ ps, p.ident = field) (value : valueOf ps field = some v) (out : v.toInt < 0 ∨ most < v.toInt) :
    firstFailure (effective ps) (massChecks field most) = some (.badValue, [⟨field, v⟩]) := by
  rw [massChecks_known most all]
  obtain ⟨p, mem, -, first⟩ := firstFailure_of_fails
    (c := ⟨.badValue, valueFails field fun v => !inRange 0 most v, false⟩) [] (ps := effective ps)
    ⟨⟨field, v⟩, mem_effective.2 value, by simp [valueFails, inRange]; omega⟩
  have named := all p (mem_of_mem_effective mem)
  have carried : v = p.value := Option.some.inj (value ▸ named ▸ mem_effective.1 mem)
  rw [first, ← named, carried]

theorem massChecks_inRange {ps : List Pair} {row place : Nat} {most : Int} {m : Nat}
    (all : ∀ p ∈ ps, p.ident = fieldId row place) (value : intAt ps row place = some (m : Int)) (range : (m : Int) ≤ most) :
    firstFailure (effective ps) (massChecks (fieldId row place) most) = none := by
  rw [massChecks_known most all]
  refine firstFailure_of_passes [] (fun p mem => ?_) rfl
  have carried : some p.value.toInt = some (m : Int) := by
    rw [← value, intAt, ← all p (mem_of_mem_effective mem), mem_effective.1 mem]; rfl
  simp only [valueFails, Option.some.inj carried]
  simp [inRange, range]

theorem ne_nil_of_countLegal {ps : List Pair} (legal : countLegal ps = true) : ps ≠ [] := by
  rintro rfl; exact absurd legal (by decide)

/-! ### What is stored -/

/-- In READY the records that exist are those counted, so a number in range names one. -/
theorem State.RecordsOk.fits {s : State} (ok : s.RecordsOk) (ready : s.ready = true) : s.fits s.counts := by
  simp only [State.ready, Bool.and_eq_true, decide_eq_true_eq] at ready
  exact ok ready.2

theorem nth1_hold {s : State} {k : Nat} (ready : s.ready = true) (ok : s.RecordsOk) (counted : s.hasHold k = true) :
    nth1 s.holds k = some (s.hold k) := by
  obtain ⟨holds, -⟩ := ok.fits ready
  simp only [State.hasHold, Bool.and_eq_true, decide_eq_true_eq] at counted
  exact nth1_eq_some_getD default (by rw [holds]; exact counted.2)

theorem nth1_item {s : State} {k : Nat} (ready : s.ready = true) (ok : s.RecordsOk) (counted : s.hasItem k = true) :
    nth1 s.items k = some (s.item k) := by
  obtain ⟨-, -, items, -⟩ := ok.fits ready
  simp only [State.hasItem, Bool.and_eq_true, decide_eq_true_eq] at counted
  exact nth1_eq_some_getD 0 (by rw [items]; exact counted.2)

/-- What a changed hold is. -/
theorem hold_of_modify1 {s t : State} {k : Nat} {f : Hold → Hold} (h : nth1 s.holds k = some (s.hold k))
    (changed : t.holds = modify1 s.holds k f) : t.hold k = f (s.hold k) := by
  rw [State.hold, changed, nth1_modify1_self h]; rfl

/-- A hold's initial mass stored: the hold stands by it and the list, and a changed current mass is handed on (R4, R71). -/
theorem storeInitial_eq {s : State} {k : Nat} (ready : s.ready = true) (h : nth1 s.holds k = some (s.hold k)) (m : Nat) :
    (s.updHold k ({ · with initial := m })).deriveHold k =
      let mass := m + ((s.pours.list.filter fun p => decide (p.hold = k ∧ p.state ≠ .planned)).map (·.tallied)).sum
      let active := (s.pours.list.find? fun p => decide (p.hold = k ∧ p.state = .active)).map (·.sequence)
      let changed := decide (min 400000 mass ≠ (s.hold k).current)
      { s with
        holds := modify1 s.holds k fun _ => ⟨m, min 400000 mass, active, decide (400000 < mass)⟩
        engine := { s.engine with dirty := s.engine.dirty || changed }
        pours := { s.pours with computationsOwed := s.pours.computationsOwed + changed.toNat } } := by
  have stored := hold_of_modify1 (t := s.updHold k ({ · with initial := m })) h rfl
  have derived := hold_of_modify1 h
    (show ((s.updHold k ({ · with initial := m })).updHold k (·.standing s.pours.list k)).holds = _ from
      modify1_modify1 s.holds k _ _)
  rw [State.deriveHold_eq k (s.updHold k _) ready]
  simp only [State.updHold_pours, derived, stored]
  simp only [State.updHold, modify1_modify1, Function.comp_def, Hold.standing]
  rfl

theorem storeItem_eq {s : State} (ready : s.ready = true) (i m : Nat) :
    s.storeItem i m = { s with
      items := modify1 s.items i fun _ => m
      engine := { s.engine with dirty := s.engine.dirty || decide (s.item i ≠ m) } } := by
  unfold State.storeItem
  by_cases same : s.item i = m
  · simp [same]
  · exact (if_neg same).trans
      ((markDirty_eq (s := { s with items := modify1 s.items i fun _ => m }) ready).trans (by simp [same]))

/-! ### The two tables -/

theorem putHold_taken {s : State} {ps : List Pair} {k m : Nat} (ready : s.ready = true) (legal : countLegal ps = true)
    (h : nth1 s.holds k = some (s.hold k)) (all : ∀ p ∈ ps, p.ident = fieldId 4 0) (value : intAt ps 4 0 = some (m : Int))
    (range : m ≤ 400000) :
    s.putHold k ps = ⟨.done, [pairOf 4 0 m], (s.updHold k ({ · with initial := m })).deriveHold k⟩ := by
  have named (d : HoldData) (x : Hold) : (holdRecord d x).find? (fun p => p.ident = fieldId 4 0) = some (pairOf 4 0 x.initial) :=
    rfl
  have stored : (((s.updHold k ({ · with initial := m })).deriveHold k).hold k).initial = m :=
    congrArg Hold.initial (hold_of_modify1 h (congrArg State.holds (storeInitial_eq ready h m)))
  rw [putHold_eq, takePut_taken (massChecks_inRange all value (by exact_mod_cast range)),
    storedPairs_of_forall (ne_nil_of_countLegal legal) all, named, value]
  simp only [Int.toNat_natCast, stored, Option.toList_some]

theorem putItem_taken {s : State} {ps : List Pair} {i m : Nat} (ready : s.ready = true) (legal : countLegal ps = true)
    (h : nth1 s.items i = some (s.item i)) (all : ∀ p ∈ ps, p.ident = fieldId 1 0) (value : intAt ps 1 0 = some (m : Int))
    (range : m ≤ 100000) : s.putItem i ps = ⟨.done, [pairOf 1 0 m], s.storeItem i m⟩ := by
  have named (n : Nat) : (itemRecord n).find? (fun p => p.ident = fieldId 1 0) = some (pairOf 1 0 n) := rfl
  have stored : (s.storeItem i m).item i = m := by
    rw [storeItem_eq ready, State.item, nth1_modify1_self h]; rfl
  rw [putItem_eq, takePut_taken (massChecks_inRange all value (by exact_mod_cast range)),
    storedPairs_of_forall (ne_nil_of_countLegal legal) all, named, value]
  simp only [Int.toNat_natCast, stored, Option.toList_some]

/-- Settles O36: each table takes one mass. -/
theorem putStoresMasses : Obligations.PutStoresMasses := by
  intro s h ps m idle ready ok legal refuses
  have hold (code : h.table = 1) (named : s.hasHold h.key.toNat = true) {a : Answer}
      (answer : s.putHold h.key.toNat ps = a) : exec (.put h ps) s = .next (a.state.replied 2 h a.status a.payload) :=
    exec_put (x := .hold) idle ready (by rw [code]; decide) rfl named ((if_pos legal).trans answer)
  have item (code : h.table = 3) (named : s.hasItem h.key.toNat = true) {a : Answer}
      (answer : s.putItem h.key.toNat ps = a) : exec (.put h ps) s = .next (a.state.replied 2 h a.status a.payload) :=
    exec_put (x := .item) idle ready (by rw [code]; decide) rfl named ((if_pos legal).trans answer)
  refine ⟨fun code named => ⟨fun unknown => ?_, fun v all value out => ?_⟩,
    fun code named => ⟨fun unknown => ?_, fun v all value out => ?_⟩,
    fun code named all value range => ?_, fun code named all value range => ?_⟩
  · obtain ⟨p, mem, ne, first⟩ := massChecks_unknown 400000 unknown
    exact ⟨p, mem, hold code named (takePut_refused first), ne⟩
  · exact hold code named (takePut_refused (massChecks_outOfRange all value out))
  · obtain ⟨p, mem, ne, first⟩ := massChecks_unknown 100000 unknown
    exact ⟨p, mem, item code named (takePut_refused first), ne⟩
  · exact item code named (takePut_refused (massChecks_outOfRange all value out))
  · have stands := nth1_hold ready ok named
    rw [hold code named (putHold_taken ready legal stands all value range), storeInitial_eq ready stands]
    rfl
  · have stands := nth1_item ready ok named
    rw [item code named (putItem_taken ready legal stands all value range), storeItem_eq ready]
    rfl

end Sys2Proof.Machine
end

