-- ==== Sys2Proof/Proofs/Soundings.lean ====
section
/-! PROOFS. Soundings and the two expiries of a tank (spec 01 R10 to R17): what the tank becomes, what is marked for other
blocks, and what the Ballast Sequencer is told. -/

namespace Sys2Proof.Machine

/-! ### The Ballast Sequencer told of a tank -/

theorem BallastFrame.onlyBallast {s t : State} (h : BallastFrame s t) : s.onlyBallast t := h.rest

/-- Where the Ballast Sequencer alone acts, the tanks stand. -/
theorem State.onlyBallast.tanks {s t : State} (h : s.onlyBallast t) : t.tanks = s.tanks := by rw [h]

/-- A change handed to the Ballast Sequencer concerns it alone; under PFAIL it is kept with its second (spec 06 R115). -/
theorem handBallast_spec (c : KeptChange) (s : State) :
    s.onlyBallast (s.handBallast c c.act) ∧ (s.pfail = true →
      (s.handBallast c c.act).ballast = { s.ballast with kept := s.ballast.kept ++ [(s.clock, c)] } ∧
        (s.handBallast c c.act).field = s.field) := by
  refine ⟨(handBallast_frame c (keptChange_frame c) s).onlyBallast, fun pfail => ?_⟩
  rw [State.handBallast, if_pos pfail]
  exact ⟨rfl, rfl⟩

/-! ### The tank -/

theorem nth1_tank {s : State} {k : Nat} (ready : s.ready = true) (ok : s.RecordsOk) (counted : s.hasTank k = true) :
    nth1 s.tanks k = some (s.tank k) := by
  obtain ⟨-, tanks, -⟩ := ok.fits ready
  simp only [State.hasTank, Bool.and_eq_true, decide_eq_true_eq] at counted
  exact nth1_eq_some_getD default (by rw [tanks]; exact counted.2)

/-- A tank changed is the tank that the change makes of it, and no other tank differs. -/
theorem updTank_eq {s : State} {k : Nat} (h : nth1 s.tanks k = some (s.tank k)) (f : Tank → Tank) :
    s.updTank k f = { s with tanks := modify1 s.tanks k fun _ => f (s.tank k) } := by
  rw [State.updTank, modify1_congr (g := fun _ => f (s.tank k)) h rfl]

/-- What a changed tank is. -/
theorem tank_of_modify1 {s t : State} {k : Nat} {f : Tank → Tank} (h : nth1 s.tanks k = some (s.tank k))
    (changed : t.tanks = modify1 s.tanks k f) : t.tank k = f (s.tank k) := by
  rw [State.tank, changed, nth1_modify1_self h]; rfl

/-- A good sounding stored, field by field (R12, R16). -/
theorem sounded_eq (x : Tank) (d : TankData) (now : Second) (reading : Nat) :
    x.sounded d now reading =
      let level := levelOf d reading
      let m := massAt d x.density level
      { x with
        lastLevel := some level, current := m.1, age := 0, status := if m.2 then .overrange else .fresh
        overrangeFlag := x.overrangeFlag || (m.2 && decide (x.status ≠ .overrange))
        strip := if x.stripMass < m.1 then .above else match x.strip with
          | .above => .settling now
          | st => st } := by
  obtain ⟨_, _, _, _, _, _, _, _, strip, _, _⟩ := x
  cases strip <;> rfl

/-- A tank goes STALE where it is neither STALE nor MANUAL and its age has reached the interval (R14). -/
theorem goesStale_eq_false {x : Tank} {interval : Nat}
    (h : x.status = .stale ∨ x.status = .manual ∨ x.age < interval) : x.goesStale interval = false := by
  obtain stale | manual | young := h
  · simp [Tank.goesStale, stale]
  · simp [Tank.goesStale, manual]
  · simp [Tank.goesStale, young]

/-! ### Soundings -/

/-- A sounding heard in READY restarts the silence watch, and a good one of a tank of the profile is stored (R172). -/
theorem exec_sounding_ready {s : State} (up : s.linkUp = true) (ready : s.ready = true) (n : Octet) (good : Bool)
    (reading : BitVec 16) :
    exec (.sounding n good reading) s = .next (if s.hasTank n.toNat then
      if good then s.heardField.goodSounding n.toNat reading.toNat else s.heardField
    else s.heardField) :=
  congrArg Host.Outcome.next (takeField_ready up ready)

/-- Out of READY a sounding heard ends the frame half received and does nothing else. -/
theorem exec_sounding_unready {s : State} (up : s.linkUp = true) (unready : s.ready = false) (n : Octet) (good : Bool)
    (reading : BitVec 16) :
    exec (.sounding n good reading) s = .next { s with field := { s.field with receiving := none } } := by
  refine congrArg Host.Outcome.next ((if_pos up).trans (if_neg ?_))
  show ¬s.ready = true
  simp [unready]

/-- What a good sounding hands on (Table 1.8): a changed mass and the end of STALE are marked, and the Ballast Sequencer is
told. -/
theorem handSounding_spec {s : State} (ready : s.ready = true) (t : Nat) (before : Tank) :
    { s with
      engine := { s.engine with dirty := s.engine.dirty || decide ((s.tank t).current ≠ before.current) }
      pours := { s.pours with
        computationsOwed := s.pours.computationsOwed +
          (decide ((s.tank t).current ≠ before.current) || decide (before.status = SoundingStatus.stale)).toNat } }.onlyBallast
      (s.handSounding t before) := by
  have marked := massMarks_eq ready (decide ((s.tank t).current ≠ before.current))
    (decide ((s.tank t).current ≠ before.current) || decide (before.status = SoundingStatus.stale))
  rw [← marked]
  exact ((ballastSounding_frame t _).trans (settle_frame true s _)).onlyBallast

/-- A good sounding stores the tank and hands the change on. -/
theorem goodSounding_spec {s : State} {k : Nat} (ready : s.ready = true) (h : nth1 s.tanks k = some (s.tank k))
    (reading : Nat) :
    let x := s.tank k
    let y := x.sounded (s.tankData k) s.clock reading
    { s with
      tanks := modify1 s.tanks k fun _ => y
      engine := { s.engine with dirty := s.engine.dirty || decide (y.current ≠ x.current) }
      pours := { s.pours with
        computationsOwed := s.pours.computationsOwed +
          (decide (y.current ≠ x.current ∨ x.status = SoundingStatus.stale)).toNat } }.onlyBallast
      (s.goodSounding k reading) := by
  intro x y
  have stored : s.updTank k (·.sounded (s.tankData k) s.clock reading) =
    { s with tanks := modify1 s.tanks k fun _ => y } := updTank_eq h _
  have handed := handSounding_spec (s := { s with tanks := modify1 s.tanks k fun _ => y }) ready k x
  rw [tank_of_modify1 (t := { s with tanks := modify1 s.tanks k fun _ => y }) h rfl] at handed
  rw [State.goodSounding, stored, Bool.decide_or]
  exact handed

/-! ### Expiries -/

/-- A tank whose age has reached the interval becomes STALE, a computation is owed, and the Ballast Sequencer is told. -/
theorem staleExpires_spec {s : State} {k : Nat} (ready : s.ready = true) (h : nth1 s.tanks k = some (s.tank k))
    (due : (s.tank k).goesStale s.settings.stale = true) :
    { s with
      tanks := modify1 s.tanks k fun _ => (s.tank k).staled
      pours := { s.pours with computationsOwed := s.pours.computationsOwed + 1 } }.onlyBallast (s.staleExpires k) ∧
      (s.pfail = true → (s.staleExpires k).ballast =
        { s.ballast with kept := s.ballast.kept ++ [(s.clock, KeptChange.stale k)] } ∧ (s.staleExpires k).field = s.field) := by
  have owed := oweComputation_eq (s := { s with tanks := modify1 s.tanks k fun _ => (s.tank k).staled }) ready
  have acts : s.staleExpires k = _ := if_pos due
  rw [acts, updTank_eq h, owed]
  exact handBallast_spec (.stale k) _

/-- A tank that has settled for the interval goes to BELOW, and the Ballast Sequencer is told. -/
theorem settleExpires_spec {s : State} {k : Nat} (h : nth1 s.tanks k = some (s.tank k))
    (due : (s.tank k).strip.settled s.clock s.settings.settle = true) :
    { s with tanks := modify1 s.tanks k fun _ => { s.tank k with strip := .below } }.onlyBallast (s.settleExpires k) ∧
      (s.pfail = true → (s.settleExpires k).ballast =
        { s.ballast with kept := s.ballast.kept ++ [(s.clock, KeptChange.belowStrip k)] } ∧
          (s.settleExpires k).field = s.field) := by
  have acts : s.settleExpires k = _ := if_pos due
  rw [acts, updTank_eq h]
  exact handBallast_spec (.belowStrip k) _

theorem exec_staleExpiry {s : State} {k : Nat} (counted : s.hasTank k = true) :
    exec (.staleExpiry k) s = .next (s.staleExpires k) := congrArg Host.Outcome.next (if_pos counted)

theorem exec_stripSettleExpiry {s : State} {k : Nat} (counted : s.hasTank k = true) :
    exec (.stripSettleExpiry k) s = .next (s.settleExpires k) := congrArg Host.Outcome.next (if_pos counted)

/-- Settles O55: what a sounding stores and hands on, and what each expiry does where its interval has passed. -/
theorem soundingsAndExpiriesMoveTheTank : Obligations.SoundingsAndExpiriesMoveTheTank := by
  refine ⟨fun s n good reading up => ⟨fun ready absent => ?_, fun unready => exec_sounding_unready up unready n good reading⟩,
    fun s n reading ready ok counted => ?_⟩
  · rw [exec_sounding_ready up ready, if_neg (by simp [absent])]
  have stands := nth1_tank ready ok counted
  refine ⟨fun up => ⟨?_, ?_⟩, ⟨fun early => ?_, fun fresh old => ?_⟩,
    fun start settling => ⟨fun early => ?_, fun due => ?_⟩⟩
  · rw [exec_sounding_ready up ready, if_pos counted]; rfl
  · have spec := goodSounding_spec (s := s.heardField) ready stands reading.toNat
    have tanks := spec.tanks
    have run : exec (.sounding n true reading) s = .next (s.heardField.goodSounding n.toNat reading.toNat) := by
      rw [exec_sounding_ready up ready, if_pos counted, if_pos rfl]
    refine ⟨s.heardField.goodSounding n.toNat reading.toNat,
      (s.tank n.toNat).sounded (s.tankData n.toNat) s.clock reading.toNat, run, tanks, sounded_eq _ _ _ _, ?_⟩
    rw [tanks]; exact spec
  · rw [exec_staleExpiry counted, State.staleExpires, if_neg (by simp [goesStale_eq_false early])]
  · obtain ⟨spec, kept⟩ := staleExpires_spec ready stands (by simp [Tank.goesStale, fresh, old])
    have tanks := spec.tanks
    refine ⟨_, exec_staleExpiry counted, tanks, kept, ?_⟩
    rw [tanks]; exact spec
  · rw [exec_stripSettleExpiry counted, State.settleExpires, if_neg (by simp [StripState.settled, settling, early])]
  · obtain ⟨spec, kept⟩ := settleExpires_spec stands (by simp [StripState.settled, settling, due])
    have tanks := spec.tanks
    refine ⟨_, exec_stripSettleExpiry counted, tanks, kept, ?_⟩
    rw [tanks]; exact spec

end Sys2Proof.Machine
end

