-- ==== Sys2Proof/Proofs/PutTank.lean ====
section
/-! PROOFS. A PUT of a tank's strip mass, density, manual level, route mode and alternate group (spec 01 R7 to R9, R15, R17): which
Puts its state bars, which values are legal, what the tank becomes, and what the change hands on. -/

namespace Sys2Proof.Machine

/-! ### Fields named -/

theorem intAt_isSome {ps : List Pair} {row place : Nat} :
    (intAt ps row place).isSome = true ↔ ∃ p ∈ effective ps, p.ident = fieldId row place := by
  rw [Option.isSome_iff_exists]
  simp only [intAt_eq_some]
  exact ⟨fun ⟨_, p, mem, named, _⟩ => ⟨p, mem, named⟩, fun ⟨p, mem, named⟩ => ⟨_, p, mem, named, rfl⟩⟩

/-- No pair fails on a field's value where the value that the field takes is not bad. -/
theorem valueFails_eq_false {ps : List Pair} {row place : Nat} {bad : Int → Bool} :
    (∀ p ∈ effective ps, valueFails (fieldId row place) bad p = false) ↔
      ∀ v, intAt ps row place = some v → bad v = false := by
  simp only [intAt_eq_some]
  constructor
  · rintro h _ ⟨p, mem, named, rfl⟩
    simpa [valueFails, named] using h p mem
  · intro h p mem
    by_cases named : p.ident = fieldId row place
    · simpa [valueFails, named] using h _ ⟨p, mem, named, rfl⟩
    · simp [valueFails, named]

/-- The Put names a route field. -/
def putRouted (ps : List Pair) : Prop := (intAt ps 5 0).isSome = true ∨ (intAt ps 6 0).isSome = true

theorem putRouted_iff {ps : List Pair} :
    putRouted ps ↔ ∃ p ∈ effective ps, p.ident = fieldId 5 0 ∨ p.ident = fieldId 6 0 := by
  simp only [putRouted, intAt_isSome, and_or_left, exists_or]

/-! ### What the tank's state bars -/

/-- The Put names a manual level of a tank that is not STALE, or a route field of one whose order is QUEUED or ACTIVE. -/
def State.putBarred (s : State) (k : Nat) (ps : List Pair) : Prop :=
  ((intAt ps 0 0).isSome = true ∧ (s.tank k).status ≠ .stale) ∨
    (putRouted ps ∧ ∃ o, s.order k = some o ∧ o.state ≠ .done)

theorem tankStateFails_iff {s : State} {k : Nat} {ps : List Pair} :
    (∃ p ∈ effective ps, s.tankStateFails k p = true) ↔ s.putBarred k ps := by
  have lives : s.orderLives k = true ↔ ∃ o, s.order k = some o ∧ o.state ≠ .done := by
    simp [State.orderLives, Option.any_eq_true]
  simp only [State.putBarred, State.tankStateFails, Bool.or_eq_true, Bool.and_eq_true, decide_eq_true_eq, lives,
    putRouted_iff, intAt_isSome, and_or_left, exists_or]
  refine or_congr ⟨?_, ?_⟩ ⟨?_, ?_⟩
  · rintro ⟨p, mem, named, fresh⟩; exact ⟨⟨p, mem, named⟩, fresh⟩
  · rintro ⟨⟨p, mem, named⟩, fresh⟩; exact ⟨p, mem, named, fresh⟩
  · rintro ⟨p, mem, named, alive⟩; exact ⟨named.imp (⟨p, mem, ·⟩) (⟨p, mem, ·⟩), alive⟩
  · rintro ⟨⟨p, mem, named⟩ | ⟨p, mem, named⟩, alive⟩
    · exact ⟨p, mem, .inl named, alive⟩
    · exact ⟨p, mem, .inr named, alive⟩

/-! ### Which values are legal -/

/-- The route mode that the tank will have: its own, or that of Table 1.3 that the Put names. -/
def modeStands (ps : List Pair) (x : Tank) (mode : RouteMode) : Prop :=
  intAt ps 6 0 = none ∧ mode = x.route ∨ ∃ v, intAt ps 6 0 = some v ∧
    (v, mode) ∈ [((0 : Int), RouteMode.primary), (1, .alternate), (2, .primaryThenAlternate), (3, .firstFree)]

/-- The alternate group that the tank will have, a value -1 naming none. -/
def alternateNamed (ps : List Pair) (x : Tank) : Option Nat :=
  (intAt ps 5 0).elim x.alternate fun a => if a = -1 then none else some a.toNat

/-- The values of a Put are legal for the tank (R7 to R9, R15). -/
def State.putLegal (s : State) (k : Nat) (ps : List Pair) : Prop :=
  (∀ v, intAt ps 0 0 = some v → 0 ≤ v ∧ v ≤ 30000) ∧
    (∀ v, intAt ps 3 0 = some v → 0 ≤ v ∧ v ≤ (s.tankData k).capacity) ∧
    (∀ a, intAt ps 5 0 = some a → a = -1 ∨ (1 ≤ a ∧ a ≤ s.counts.groups ∧ a ≠ (s.tankData k).primary)) ∧
    ∃ mode, modeStands ps (s.tank k) mode ∧
      (putRouted ps → mode = .alternate → alternateNamed ps (s.tank k) ≠ none)

theorem namedAt_routeModes {v : Int} {mode : RouteMode} : namedAt routeModes v = some mode ↔
    (v, mode) ∈ [((0 : Int), RouteMode.primary), (1, .alternate), (2, .primaryThenAlternate), (3, .firstFree)] := by
  constructor
  · intro h
    unfold namedAt at h
    split at h
    · exact absurd h (by simp)
    · rename_i nonneg
      obtain ⟨n, rfl⟩ := Int.eq_ofNat_of_zero_le (Int.not_lt.1 nonneg)
      rw [Int.toNat_natCast] at h
      match n, h with
      | 0, h | 1, h | 2, h | 3, h => obtain rfl := Option.some.inj h; simp
      | n + 4, h => exact absurd h (by simp [routeModes])
  · simp only [List.mem_cons, Prod.mk.injEq, List.not_mem_nil, or_false]
    rintro (⟨rfl, rfl⟩ | ⟨rfl, rfl⟩ | ⟨rfl, rfl⟩ | ⟨rfl, rfl⟩) <;> rfl

theorem routeAfter_eq_some {ps : List Pair} {x : Tank} {mode : RouteMode} :
    routeAfter ps x = some mode ↔ modeStands ps x mode := by
  unfold routeAfter modeStands
  cases intAt ps 6 0 with
  | none => simp [eq_comm]
  | some v => simp only [namedAt_routeModes]; simp

/-- With a legal group the Put leaves the alternate group that it names. -/
theorem alternateAfter_eq {ps : List Pair} {x : Tank} (legal : ∀ a, intAt ps 5 0 = some a → a = -1 ∨ 1 ≤ a) :
    alternateAfter ps x = alternateNamed ps x := by
  unfold alternateAfter alternateNamed
  cases h : intAt ps 5 0 with
  | none => rfl
  | some a =>
    obtain rfl | pos := legal a h
    · rfl
    · simp [groupOrNone, show ¬a < 0 by omega, show a ≠ -1 by omega]

/-- No pair fails on its value exactly where the values are legal. -/
theorem tankValueFails_iff {s : State} {k : Nat} {ps : List Pair} :
    (∀ p ∈ effective ps, s.tankValueFails k ps p = false) ↔ s.putLegal k ps := by
  have routed (c : Prop) [Decidable c] : (∀ p ∈ effective ps,
      (decide (p.ident = fieldId 5 0 ∨ p.ident = fieldId 6 0) && decide c) = false) ↔ (putRouted ps → ¬c) := by
    rw [putRouted_iff]
    simp only [Bool.and_eq_false_imp, decide_eq_true_eq, decide_eq_false_iff_not]
    exact ⟨fun h ⟨p, mem, named⟩ => h p mem named, fun h p mem named => h ⟨p, mem, named⟩⟩
  simp only [State.tankValueFails, Bool.or_eq_false_iff, imp_and, forall_and, and_assoc]
  rw [show manualLevelId = fieldId 0 0 from rfl]
  simp only [valueFails_eq_false, routed]
  have group (a : Int) : (decide (a ≠ -1) && (!inRange 1 s.counts.groups a || decide (a = (s.tankData k).primary))) = false ↔
      a = -1 ∨ (1 ≤ a ∧ a ≤ s.counts.groups ∧ a ≠ (s.tankData k).primary) := by
    by_cases absent : a = -1 <;> simp [inRange, absent, and_assoc]
  have range (hi v : Int) : (!inRange 0 hi v) = false ↔ 0 ≤ v ∧ v ≤ hi := by simp [inRange]
  simp only [group, range]
  refine and_congr_right fun _ => and_congr_right fun _ => and_congr_right fun legal => ?_
  rw [alternateAfter_eq fun a h => (legal a h).imp_right And.left]
  constructor
  · rintro ⟨named, alternate⟩
    have stands : ∃ mode, routeAfter ps (s.tank k) = some mode := by
      unfold routeAfter
      cases h : intAt ps 6 0 with
      | none => exact ⟨_, rfl⟩
      | some v => exact Option.isSome_iff_exists.1 (by simpa using named v h)
    obtain ⟨mode, stands⟩ := stands
    exact ⟨mode, routeAfter_eq_some.1 stands, fun r m absent => alternate r ⟨m ▸ stands, absent⟩⟩
  · rintro ⟨mode, stands, alternate⟩
    have after := routeAfter_eq_some.2 stands
    refine ⟨fun v h => ?_, fun r ⟨m, absent⟩ =>
      alternate r (Option.some.inj (after.symm.trans m)) absent⟩
    unfold routeAfter at after
    rw [h] at after
    simp [show namedAt routeModes v = some mode from after]

/-! ### What the tank becomes -/

theorem clamp_density (v : Int) : clamp 9500 10600 v = (max 9500 (min 10600 v)).toNat := by
  unfold clamp; split
  · omega
  · split <;> omega

/-- A tank with the fields of a Put stored, field by field: a density and a manual level are converted, and each but the route makes
the strip state ABOVE (R7 to R9, R15). -/
def Tank.stored (x : Tank) (d : TankData) (ps : List Pair) (mode : RouteMode) : Tank :=
  let level := intAt ps 0 0
  let strip := intAt ps 3 0
  let density := intAt ps 10 0
  let density' := density.elim x.density fun v => (max 9500 (min 10600 v)).toNat
  let level' := level.elim x.lastLevel fun v => some v.toNat
  { x with
    density := density', stripMass := strip.elim x.stripMass Int.toNat, route := mode
    alternate := alternateNamed ps x, lastLevel := level', status := if level.isSome then .manual else x.status
    current := if level.isSome || density.isSome then level'.elim x.current fun n => (massAt d density' n).1 else x.current
    strip := if level.isSome || strip.isSome || density.isSome then .above else x.strip }

/-- The route fields after a Put depend on the tank by its own route fields alone. -/
theorem routeAfter_eq_elim (ps : List Pair) (x : Tank) :
    routeAfter ps x = (intAt ps 6 0).elim (some x.route) (namedAt routeModes) := by
  unfold routeAfter; cases intAt ps 6 0 <;> rfl

theorem alternateAfter_eq_elim (ps : List Pair) (x : Tank) :
    alternateAfter ps x = (intAt ps 5 0).elim x.alternate groupOrNone := by
  unfold alternateAfter; cases intAt ps 5 0 <;> rfl

theorem afterPut_eq_stored {x : Tank} {d : TankData} {ps : List Pair} {mode : RouteMode}
    (route : routeAfter ps x = some mode) (alternate : alternateAfter ps x = alternateNamed ps x) :
    x.afterPut d ps = x.stored d ps mode := by
  simp only [routeAfter_eq_elim, alternateAfter_eq_elim] at route alternate
  unfold Tank.afterPut Tank.stored
  simp only [routeAfter_eq_elim, alternateAfter_eq_elim, ← clamp_density]
  cases intAt ps 10 0 with
  | none => cases intAt ps 3 0 <;> cases intAt ps 0 0 <;> simp [Tank.withManualLevel, route, alternate]
  | some v =>
    cases last : x.lastLevel <;> cases intAt ps 3 0 <;> cases intAt ps 0 0 <;>
      simp [Tank.withDensity, Tank.withManualLevel, last, route, alternate]

/-! ### What the change hands on -/

/-- A changed mass is marked and handed to the Ballast Sequencer, and so is the end of STALE (Table 1.8). -/
theorem handTankPut_spec {s : State} (ready : s.ready = true) (t : Nat) (before : Tank) :
    { s with
      engine := { s.engine with dirty := s.engine.dirty || decide ((s.tank t).current ≠ before.current) }
      pours := { s.pours with
        computationsOwed := s.pours.computationsOwed + (decide ((s.tank t).current ≠ before.current) ||
          decide (before.status = SoundingStatus.stale ∧ (s.tank t).status ≠ SoundingStatus.stale)).toNat } }.onlyBallast
      (s.handTankPut t before) := by
  have marked := massMarks_eq ready (decide ((s.tank t).current ≠ before.current))
    (decide ((s.tank t).current ≠ before.current) ||
      decide (before.status = SoundingStatus.stale ∧ (s.tank t).status ≠ .stale))
  rw [← marked]
  have told (u : State) : BallastFrame u
      (if decide ((s.tank t).current ≠ before.current) = true then u.ballastPutMass t else u) :=
    .ite (ballastPutMass_frame t u) (.refl u)
  exact (BallastFrame.ite ((told _).trans (settle_frame true s _)) (told _)).onlyBallast

/-- A Put that leaves the mass and the status of the tank hands nothing on. -/
theorem handTankPut_same {s : State} {t : Nat} {before : Tank} (mass : (s.tank t).current = before.current)
    (status : (s.tank t).status = before.status) : s.handTankPut t before = s := by
  simp [State.handTankPut, mass, status]

/-- A reply that begins to be sent concerns the ship port alone. -/
theorem State.onlyBallast.replied {s t : State} (h : s.onlyBallast t) (kind : Nat) (head : ShipHead) (status : ReplyStatus)
    (payload : List Pair) :
    { s with ship := (t.replied kind head status payload).ship }.onlyBallast (t.replied kind head status payload) := by
  unfold State.onlyBallast at h ⊢
  rw [h]; rfl

/-! ### The Put -/

/-- The state once a Put of a tank is taken. -/
def State.tankPutStored (s : State) (k : Nat) (ps : List Pair) : State :=
  (s.updTank k (·.afterPut (s.tankData k) ps)).handTankPut k (s.tank k)

theorem putTank_unknown {s : State} {k : Nat} {ps : List Pair}
    (h : ∃ p ∈ ps, p.ident ∉ [manualLevelId, fieldId 3 0, fieldId 5 0, fieldId 6 0, fieldId 10 0]) :
    ∃ p ∈ ps, s.putTank k ps = ⟨.badField, [p], s⟩ ∧
      p.ident ∉ [manualLevelId, fieldId 3 0, fieldId 5 0, fieldId 6 0, fieldId 10 0] := by
  obtain ⟨p, mem, unknown, first⟩ := firstFailure_unknownField _ h
  exact ⟨p, mem, takePut_refused first, unknown⟩

section Known

variable {s : State} {k : Nat} {ps : List Pair}
  (known : ∀ p ∈ ps, p.ident ∈ [manualLevelId, fieldId 3 0, fieldId 5 0, fieldId 6 0, fieldId 10 0])

include known

theorem putTank_barred (barred : s.putBarred k ps) : ∃ p ∈ ps, s.putTank k ps = ⟨.state, [p], s⟩ := by
  obtain ⟨p, mem, -, first⟩ := firstFailure_of_fails (c := ⟨.state, s.tankStateFails k, false⟩)
    [⟨.badValue, s.tankValueFails k ps, false⟩] (tankStateFails_iff.2 barred)
  exact ⟨p, mem_of_mem_effective mem, takePut_refused ((firstFailure_knownFields _ known).trans first)⟩

/-- Where the tank's state bars no field the values decide. -/
theorem firstFailure_unbarred (free : ¬s.putBarred k ps) :
    firstFailure (effective ps)
      [unknownField [manualLevelId, fieldId 3 0, fieldId 5 0, fieldId 6 0, fieldId 10 0],
        ⟨.state, s.tankStateFails k, false⟩, ⟨.badValue, s.tankValueFails k ps, false⟩] =
      firstFailure (effective ps) [⟨.badValue, s.tankValueFails k ps, false⟩] := by
  rw [firstFailure_knownFields _ known]
  refine firstFailure_of_passes _ (fun p mem => ?_) rfl
  exact Bool.eq_false_iff.2 fun fails => free (tankStateFails_iff.1 ⟨p, mem, fails⟩)

theorem putTank_illegal (free : ¬s.putBarred k ps) (illegal : ¬s.putLegal k ps) :
    ∃ p ∈ ps, s.putTank k ps = ⟨.badValue, [p], s⟩ := by
  have fails : ∃ p ∈ effective ps, s.tankValueFails k ps p = true := by
    by_contra passes
    exact illegal (tankValueFails_iff.1 fun p mem => Bool.eq_false_iff.2 fun fails => passes ⟨p, mem, fails⟩)
  obtain ⟨p, mem, -, first⟩ := firstFailure_of_fails (c := ⟨.badValue, s.tankValueFails k ps, false⟩) [] fails
  exact ⟨p, mem_of_mem_effective mem, takePut_refused ((firstFailure_unbarred known free).trans first)⟩

theorem putTank_taken (free : ¬s.putBarred k ps) (legal : s.putLegal k ps) :
    ∃ payload, s.putTank k ps = ⟨.done, payload, s.tankPutStored k ps⟩ :=
  ⟨_, takePut_taken ((firstFailure_unbarred known free).trans
    (firstFailure_of_passes [] (tankValueFails_iff.2 legal) rfl))⟩

end Known

/-- A taken Put stores the tank, and of the rest only what the change hands on differs. -/
theorem tankPutStored_spec {s : State} {k : Nat} {ps : List Pair} {mode : RouteMode} (ready : s.ready = true)
    (h : nth1 s.tanks k = some (s.tank k)) (free : ¬s.putBarred k ps) (legal : s.putLegal k ps)
    (stands : modeStands ps (s.tank k) mode) :
    let x := s.tank k
    let y := x.stored (s.tankData k) ps mode
    let differs := decide (y.current ≠ x.current)
    (y.current = x.current → intAt ps 0 0 = none →
      s.tankPutStored k ps = { s with tanks := modify1 s.tanks k fun _ => y }) ∧
      { s with
        tanks := modify1 s.tanks k fun _ => y
        engine := { s.engine with dirty := s.engine.dirty || differs }
        pours := { s.pours with
          computationsOwed := s.pours.computationsOwed + (differs || (intAt ps 0 0).isSome).toNat } }.onlyBallast
        (s.tankPutStored k ps) := by
  intro x y differs
  obtain ⟨-, -, group, -⟩ := legal
  let u : State := { s with tanks := modify1 s.tanks k fun _ => y }
  have becomes : x.afterPut (s.tankData k) ps = y :=
    afterPut_eq_stored (routeAfter_eq_some.2 stands) (alternateAfter_eq fun a h => (group a h).imp_right And.left)
  have stored : s.updTank k (·.afterPut (s.tankData k) ps) = u := by rw [updTank_eq h, becomes]
  have tank : u.tank k = y := tank_of_modify1 (f := fun _ => y) h rfl
  have ends : decide (x.status = SoundingStatus.stale ∧ y.status ≠ .stale) = (intAt ps 0 0).isSome := by
    cases level : intAt ps 0 0 with
    | none => simp [show y.status = x.status by simp [y, Tank.stored, level]]
    | some v =>
      have stale : x.status = .stale := by
        by_contra fresh
        exact free (.inl ⟨by rw [level]; rfl, fresh⟩)
      simp [stale, show y.status = .manual by simp [y, Tank.stored, level]]
  have handed := handTankPut_spec (s := u) ready k x
  rw [tank, ends] at handed
  rw [State.tankPutStored, stored]
  refine ⟨fun same noLevel => handTankPut_same (by rw [tank]; exact same) ?_, handed⟩
  rw [tank]; simp [y, Tank.stored, noLevel, x]

/-- Settles O37: the checks in their order, then what is stored and handed on. -/
theorem putStoresTankFields : Obligations.PutStoresTankFields := by
  intro s h ps idle ready ok count code counted k x d level strip group route density known routed barred modes stands
    alternate legal
  have put {a : Answer} (answer : s.putTank k ps = a) : exec (.put h ps) s = .next (a.state.replied 2 h a.status a.payload) :=
    exec_put (x := .tank) idle ready (by rw [code]; decide) rfl counted ((if_pos count).trans answer)
  refine ⟨fun unknown => ?_, fun all => ⟨fun bars => ?_, fun free illegal => ?_, fun mode free fits stood => ?_⟩⟩
  · obtain ⟨p, mem, answer, ne⟩ := putTank_unknown (s := s) (k := k) unknown
    exact ⟨p, mem, put answer, ne⟩
  · obtain ⟨p, mem, answer⟩ := putTank_barred all (k := k) bars
    exact ⟨p, mem, put answer⟩
  · obtain ⟨p, mem, answer⟩ := putTank_illegal all (k := k) free illegal
    exact ⟨p, mem, put answer⟩
  · obtain ⟨payload, answer⟩ := putTank_taken all (k := k) free fits
    obtain ⟨same, frame⟩ := tankPutStored_spec ready (nth1_tank ready ok counted) free fits stood
    have replied := frame.replied 2 h .done payload
    have tanks := replied.tanks
    refine ⟨(s.tankPutStored k ps).replied 2 h .done payload, put answer, rfl, tanks, fun mass noLevel => ?_, ?_⟩
    · rw [tanks, same mass noLevel]; rfl
    · rw [tanks]; exact replied

end Sys2Proof.Machine
end

