-- ==== Sys2Proof/Proofs/Rounding.lean ====
section
/-! PROOFS. Rounding and saturation (spec 02 R29). -/

namespace Sys2Proof.Machine

/-! ### Rounding -/

/-- A sum not below zero is rounded up from the half: twice the sum lies less than a divisor above the rounded multiple's
double and at most a divisor below it. -/
theorem roundHalfAway_of_nonneg {n : Int} (sum : 0 ≤ n) {d : Nat} (pos : 0 < d) :
    2 * n - d < 2 * (roundHalfAway n d * d) ∧ 2 * (roundHalfAway n d * d) ≤ 2 * n + d := by
  have whole := Int.mul_ediv_add_emod (2 * n + d) (2 * d)
  have least := Int.emod_nonneg (2 * n + d) (show (2 * d : Int) ≠ 0 by omega)
  have most := Int.emod_lt_of_pos (2 * n + d) (show (0 : Int) < 2 * d by omega)
  have double : 2 * (roundHalfAway n d * d) = 2 * d * ((2 * n + d) / (2 * d)) := by rw [roundHalfAway, if_pos sum]; ring
  omega

/-- Sums of opposite sign are rounded to opposite quotients. -/
theorem roundHalfAway_neg (n : Int) (d : Nat) : roundHalfAway (-n) d = -roundHalfAway n d := by
  have half : ((d : Int) / (2 * d)) = 0 := by
    rcases Nat.eq_zero_or_pos d with rfl | pos
    · rfl
    · exact Int.ediv_eq_zero_of_lt (by omega) (by omega)
  obtain below | rfl | above := lt_trichotomy n 0
  · rw [roundHalfAway, if_pos (by omega), roundHalfAway, if_neg (by omega), neg_neg]
  · simp [roundHalfAway, half]
  · rw [roundHalfAway, if_neg (by omega), roundHalfAway, if_pos (by omega), neg_neg]

/-- A rounded quotient is the nearest one, and of two equally near the one farther from zero. -/
theorem roundHalfAway_nearest (n : Int) {d : Nat} (pos : 0 < d) :
    2 * (roundHalfAway n d * d - n).natAbs ≤ d ∧
      (2 * (roundHalfAway n d * d - n).natAbs = d → n.natAbs < (roundHalfAway n d * d).natAbs) := by
  obtain sum | sum := le_total 0 n
  · have near := roundHalfAway_of_nonneg sum pos
    omega
  · have near := roundHalfAway_of_nonneg (n := -n) (by omega) pos
    rw [roundHalfAway_neg, neg_mul] at near
    omega

/-! ### Saturation -/

/-- A saturated value is the value held between the two ends of the range. -/
theorem saturate_value {lo hi : Int} (range : lo ≤ hi) (v : Int) : (saturate lo hi v).1 = max lo (min hi v) := by
  unfold saturate; split
  · omega
  · split <;> omega

/-- The saturation flag is SET exactly outside the range. -/
theorem saturate_flag (lo hi v : Int) : (saturate lo hi v).2 = true ↔ v < lo ∨ hi < v := by
  unfold saturate; split
  · simp [*]
  · split <;> simp [*]

/-- Settles O15: the nearest quotient by the remainder of the division, the saturated value as a maximum and a minimum. -/
theorem roundingIsNearestHalfAway : Obligations.RoundingIsNearestHalfAway := by
  refine ⟨fun n d pos => roundHalfAway_nearest n pos, fun lo hi v range => ?_⟩
  have flag := saturate_flag lo hi v
  have inside : (saturate lo hi v).2 = false → ¬(v < lo ∨ hi < v) := by simp [← flag]
  rw [saturate_value range]
  exact ⟨by omega, by omega, flag, fun clear => by have := inside clear; omega, by omega, by omega⟩

end Sys2Proof.Machine
end

