-- ==== Sys2Proof/Proofs/Figures.lean ====
section
/-! PROOFS. The figures of a pass (spec 02 R29 to R36): what a quantity is made of, the ranges that saturation gives, and the
worst quantity. -/

namespace Sys2Proof.Machine

/-! ### Sums, ratios and statuses -/

/-- The weighted sum taken pair by pair. -/
theorem weighted_eq_sum_zip (cs : List Coefficient) (ms : List Nat) :
    weighted cs ms = ((cs.zip ms).map fun (c, m) => c.toInt * (m : Int)).sum := by
  have pairs : (cs.zip ms).map (fun (c, m) => c.toInt * (m : Int)) =
      List.zipWith (fun (c : Coefficient) (m : Nat) => c.toInt * (m : Int)) cs ms := List.map_zip_eq_zipWith
  have cast : (ms >>= fun (a : Nat) => pure (a : Int)) = ms.map fun (a : Nat) => (a : Int) := bind_pure_comp _ _
  rw [pairs, weighted, cast, List.zipWith_map_right]

theorem ratioOf_le (v : Int) (limit : Nat) : ratioOf v limit ≤ 9999 := Nat.min_le_left _ _

/-- The statuses cut the ratios at the caution permille and at 1000 (R35). -/
theorem statusOf_iff {caution : Nat} (permille : caution ≤ 1000) (ratio : Nat) :
    (statusOf caution ratio = .normal ↔ ratio < caution) ∧
      (statusOf caution ratio = .caution ↔ caution ≤ ratio ∧ ratio < 1000) ∧
      (statusOf caution ratio = .limit ↔ 1000 ≤ ratio) := by
  unfold statusOf; split
  · simp; omega
  · split
    · simp; omega
    · simp; omega

/-- A quantity made of a saturated value stands in the range and tells whether the value did. -/
theorem quantityOf_saturate (caution up down : Nat) {lo hi : Int} (range : lo ≤ hi) (v : Int) :
    let q := quantityOf caution up down (saturate lo hi v)
    q.value = max lo (min hi v) ∧ (q.saturated = true ↔ v < lo ∨ hi < v) ∧
      q.ratio = min 9999 (q.value.natAbs * 1000 / (if 0 ≤ q.value then up else down)) :=
  ⟨saturate_value range v, saturate_flag lo hi v, rfl⟩

/-- A quantity made of a saturated value lies in its range. -/
theorem quantityOf_range (caution up down : Nat) {lo hi : Int} (range : lo ≤ hi) (v : Int) :
    let q := quantityOf caution up down (saturate lo hi v)
    lo ≤ q.value ∧ q.value ≤ hi ∧ q.ratio ≤ 9999 := by
  intro q
  have held : q.value = max lo (min hi v) := saturate_value range v
  exact ⟨by omega, by omega, ratioOf_le _ _⟩

/-! ### The quantities of a set -/

/-- The station results of a pass are those of the hull's stations, one by one. -/
theorem evaluate_stations (h : Hull) (snap : Snapshot) (g : Nat) :
    (evaluate h snap g).stations = h.stations.map (stationResult snap) := rfl

/-- The shear and the moment of a station by their formulas (R30, R31). -/
theorem stationResult_spec (snap : Snapshot) (d : StationData) :
    let x := stationResult snap d
    let lim := StationData.limitsOf d snap.limitSet
    let sf := d.sf0 + roundHalfAway (weighted d.c snap.masses) 32768
    let bm := d.bm0 + roundHalfAway (weighted d.k snap.masses) 1000
    x.sf.value = max (-8000000) (min 8000000 sf) ∧ (x.sf.saturated = true ↔ sf < -8000000 ∨ 8000000 < sf) ∧
      x.sf.ratio = min 9999 (x.sf.value.natAbs * 1000 / (if 0 ≤ x.sf.value then lim.sfPositive else lim.sfNegative)) ∧
      x.bm.value = max (-50000000) (min 50000000 bm) ∧ (x.bm.saturated = true ↔ bm < -50000000 ∨ 50000000 < bm) ∧
      x.bm.ratio = min 9999 (x.bm.value.natAbs * 1000 / (if 0 ≤ x.bm.value then lim.hog else lim.sag)) := by
  intro x lim sf bm
  obtain ⟨sfValue, sfFlag, sfRatio⟩ := quantityOf_saturate snap.caution lim.sfPositive lim.sfNegative
    (show (-8000000 : Int) ≤ 8000000 by decide) sf
  obtain ⟨bmValue, bmFlag, bmRatio⟩ := quantityOf_saturate snap.caution lim.hog lim.sag
    (show (-50000000 : Int) ≤ 50000000 by decide) bm
  exact ⟨sfValue, sfFlag, sfRatio, bmValue, bmFlag, bmRatio⟩

/-- The shear and the moment of a station lie in their ranges. -/
theorem stationResult_range (snap : Snapshot) (d : StationData) :
    let x := stationResult snap d;
    -8000000 ≤ x.sf.value ∧ x.sf.value ≤ 8000000 ∧ x.sf.ratio ≤ 9999 ∧
      -50000000 ≤ x.bm.value ∧ x.bm.value ≤ 50000000 ∧ x.bm.ratio ≤ 9999 := by
  intro x
  obtain ⟨least, most, ratio⟩ : -8000000 ≤ x.sf.value ∧ x.sf.value ≤ 8000000 ∧ x.sf.ratio ≤ 9999 :=
    quantityOf_range _ _ _ (by decide) _
  exact ⟨least, most, ratio, quantityOf_range _ _ _ (by decide) _⟩

/-- The drafts and the trim by their formulas (R32). -/
theorem evaluate_hull_spec (h : Hull) (snap : Snapshot) (g : Nat) :
    let r := evaluate h snap g
    let lim := Hull.trimOf h snap.limitSet
    let fore := h.d0Fore + roundHalfAway (weighted h.phi snap.masses) 10000
    let aft := h.d0Aft + roundHalfAway (weighted h.alpha snap.masses) 10000
    let trim := r.aft.value - r.fore.value
    let ratio (v : Int) (up down : Nat) : Nat := min 9999 (v.natAbs * 1000 / (if 0 ≤ v then up else down))
    r.fore.value = max 0 (min 40000 fore) ∧ (r.fore.saturated = true ↔ fore < 0 ∨ 40000 < fore) ∧
      r.fore.ratio = ratio r.fore.value snap.maxDraft snap.maxDraft ∧
      r.aft.value = max 0 (min 40000 aft) ∧ (r.aft.saturated = true ↔ aft < 0 ∨ 40000 < aft) ∧
      r.aft.ratio = ratio r.aft.value snap.maxDraft snap.maxDraft ∧
      r.trim.value = max (-20000) (min 20000 trim) ∧ (r.trim.saturated = true ↔ trim < -20000 ∨ 20000 < trim) ∧
      r.trim.ratio = ratio r.trim.value lim.stern lim.head := by
  intro r lim fore aft trim ratio
  obtain ⟨foreValue, foreFlag, foreRatio⟩ := quantityOf_saturate snap.caution snap.maxDraft snap.maxDraft
    (show (0 : Int) ≤ 40000 by decide) fore
  obtain ⟨aftValue, aftFlag, aftRatio⟩ := quantityOf_saturate snap.caution snap.maxDraft snap.maxDraft
    (show (0 : Int) ≤ 40000 by decide) aft
  obtain ⟨trimValue, trimFlag, trimRatio⟩ := quantityOf_saturate snap.caution lim.stern lim.head
    (show (-20000 : Int) ≤ 20000 by decide) trim
  exact ⟨foreValue, foreFlag, foreRatio, aftValue, aftFlag, aftRatio, trimValue, trimFlag, trimRatio⟩

/-- The status of every quantity of a set is that of its ratio, by the caution of the snapshot. -/
theorem evaluate_status {h : Hull} {snap : Snapshot} {g : Nat} {q : Quantity}
    (mem : q ∈ ((evaluate h snap g).stations.flatMap fun x => [x.sf, x.bm]) ++
      [(evaluate h snap g).trim, (evaluate h snap g).fore, (evaluate h snap g).aft]) :
    q.status = statusOf snap.caution q.ratio := by
  rw [List.mem_append, List.mem_flatMap] at mem
  obtain ⟨x, hx, mem⟩ | mem := mem
  · obtain ⟨d, -, rfl⟩ := List.mem_map.mp hx
    obtain rfl | rfl : q = (stationResult snap d).sf ∨ q = (stationResult snap d).bm := by simpa using mem
    · rfl
    · rfl
  · obtain rfl | rfl | rfl : q = _ ∨ q = _ ∨ q = _ := by simpa using mem
    · rfl
    · rfl
    · rfl

/-- The drafts of a set lie in 0..40,000 mm. -/
theorem evaluate_fore_range (h : Hull) (snap : Snapshot) (g : Nat) :
    let q := (evaluate h snap g).fore
    0 ≤ q.value ∧ q.value ≤ 40000 ∧ q.ratio ≤ 9999 := quantityOf_range _ _ _ (by decide) _

theorem evaluate_aft_range (h : Hull) (snap : Snapshot) (g : Nat) :
    let q := (evaluate h snap g).aft
    0 ≤ q.value ∧ q.value ≤ 40000 ∧ q.ratio ≤ 9999 := quantityOf_range _ _ _ (by decide) _

/-- The mean draft is half the sum of the drafts, rounded down, and so not above the deeper one (R32). -/
theorem evaluate_mean (h : Hull) (snap : Snapshot) (g : Nat) :
    let r := evaluate h snap g
    (r.mean : Int) = (r.fore.value + r.aft.value) / 2 ∧ (r.mean : Int) ≤ max r.fore.value r.aft.value := by
  intro r
  obtain ⟨fore, -, -⟩ : 0 ≤ r.fore.value ∧ _ := evaluate_fore_range h snap g
  obtain ⟨aft, -, -⟩ : 0 ≤ r.aft.value ∧ _ := evaluate_aft_range h snap g
  have half : (r.mean : Int) = (r.fore.value + r.aft.value) / 2 :=
    Int.toNat_of_nonneg (show 0 ≤ (r.fore.value + r.aft.value) / 2 by omega)
  exact ⟨half, by omega⟩

/-- Settles O16, from what each quantity is made of. -/
theorem publishedFiguresLieInRange : Obligations.PublishedFiguresLieInRange := by
  intro h snap g r total within ratio
  have sums (cs : List Coefficient) : total cs = weighted cs snap.masses := (weighted_eq_sum_zip cs _).symm
  obtain ⟨mean, between⟩ := evaluate_mean h snap g
  refine ⟨⟨rfl, rfl, rfl, rfl, rfl⟩, by simp [r, evaluate_stations], fun i x d at_x at_d => ?_, ?_, fun x mem => ?_,
    quantityOf_range _ _ _ (by decide) _, evaluate_fore_range h snap g, evaluate_aft_range h snap g, mean, between, rfl,
    decide_eq_true_iff, fun q permille mem => ?_⟩
  · obtain rfl : stationResult snap d = x := by simpa [r, evaluate_stations, at_d] using at_x
    have spec := stationResult_spec snap d
    rw [sums, sums]
    cases limits : snap.limitSet with
    | harbour => rw [limits] at spec; exact spec
    | sea => rw [limits] at spec; exact spec
  · have spec := evaluate_hull_spec h snap g
    rw [sums, sums]
    cases limits : snap.limitSet with
    | harbour => rw [limits] at spec; exact spec
    | sea => rw [limits] at spec; exact spec
  · obtain ⟨d, -, rfl⟩ := List.mem_map.mp mem
    exact stationResult_range snap d
  · rw [evaluate_status mem]
    exact statusOf_iff permille q.ratio

/-! ### The worst quantity -/

/-- Going through the candidates keeps the first of the highest ratio. -/
theorem highest_first (best : QuantityKind × Option Nat × Quantity) (xs : List (QuantityKind × Option Nat × Quantity)) :
    ∃ i : Nat, (best :: xs)[i]? = some (highest best xs) ∧ ∀ (j : Nat) (x : QuantityKind × Option Nat × Quantity),
      (best :: xs)[j]? = some x → x.2.2.ratio ≤ (highest best xs).2.2.ratio ∧
        (j < i → x.2.2.ratio < (highest best xs).2.2.ratio) := by
  induction xs generalizing best with
  | nil =>
    refine ⟨0, rfl, fun j x at_j => ?_⟩
    obtain ⟨rfl, rfl⟩ : j = 0 ∧ best = x := by cases j <;> simp_all
    simp [highest]
  | cons y ys ih =>
    rw [highest]
    by_cases higher : best.2.2.ratio < y.2.2.ratio
    · rw [if_pos higher]
      obtain ⟨i, at_i, first⟩ := ih y
      have most := (first 0 y rfl).1
      refine ⟨i + 1, at_i, fun j x at_j => ?_⟩
      cases j with
      | zero => obtain rfl := Option.some.inj at_j; omega
      | succ j => exact (first j x at_j).imp_right fun before lt => before (by omega)
    · rw [if_neg higher]
      obtain ⟨i, at_i, first⟩ := ih best
      have most := (first 0 best rfl).1
      cases i with
      | zero =>
        refine ⟨0, at_i, fun j x at_j => ⟨?_, fun before => absurd before (Nat.not_lt_zero j)⟩⟩
        match j with
        | 0 => obtain rfl := Option.some.inj at_j; exact most
        | 1 => obtain rfl := Option.some.inj at_j; omega
        | j + 2 => exact (first (j + 1) x at_j).1
      | succ i =>
        have below := (first 0 best rfl).2 (Nat.succ_pos i)
        refine ⟨i + 2, at_i, fun j x at_j => ?_⟩
        match j with
        | 0 => obtain rfl := Option.some.inj at_j; omega
        | 1 => obtain rfl := Option.some.inj at_j; omega
        | j + 2 => exact (first (j + 1) x at_j).imp_right fun before lt => before (by omega)

/-- Settles O17: the worst quantity is what going through the candidates keeps. -/
theorem worstQuantityIsFirstHighest : Obligations.WorstQuantityIsFirstHighest := by
  intro stations trim fore aft cs
  cases candidates : worstCandidates stations trim fore aft with
  | nil => simp [worstCandidates] at candidates
  | cons x xs =>
    obtain ⟨i, at_i, first⟩ := highest_first x xs
    have same : cs = x :: xs := candidates
    rw [worstOf, candidates, same]
    exact ⟨i, _, _, _, at_i, rfl, first⟩

end Sys2Proof.Machine
end

