-- ==== Sys2Proof/Proofs/Passes.lean ====
section
/-! PROOFS. Live and trial passes (spec 02 R24 to R38, spec 08 R139, spec 10 R159, R160): the inputs that a pass takes, what a
publication hands on, and the rooms of a trial. -/

namespace Sys2Proof.Machine

/-! ### The draft-step test (spec 08 R139) -/

/-- No draft was sent, or the one last sent lies the draft step or more away. -/
def farFrom (draftStep : Nat) (last : Option Nat) (draft : Int) : Prop :=
  ∀ x : Nat, last = some x → draftStep ≤ (draft - x).natAbs

/-- A draft of the set is far from the one last sent. -/
def State.draftMoved (s : State) (r : ResultSet) : Prop :=
  farFrom s.settings.draftStep s.terminal.lastFore r.fore.value ∨ farFrom s.settings.draftStep s.terminal.lastAft r.aft.value

theorem stepApart_toNat_iff {draft : Int} (nonneg : 0 ≤ draft) (draftStep last : Nat) :
    stepApart draftStep draft.toNat last = true ↔ draftStep ≤ (draft - last).natAbs := by
  simp only [stepApart, decide_eq_true_iff]; omega

/-- A slot made due joins the tail of the due order unless it is due already. -/
theorem makeDue_eq (x : Slot) (s : State) :
    s.makeDue x = { s with terminal := { s.terminal with
      due := if x ∈ s.terminal.due then s.terminal.due else s.terminal.due ++ [x] } } := by
  by_cases due : x ∈ s.terminal.due
  · rw [State.makeDue, if_pos due, if_pos due]
  · rw [State.makeDue, if_neg due, if_neg due]

/-- The test makes DRAFT due exactly where a draft has moved. -/
theorem draftStepTest_cases {r : ResultSet} (fore : 0 ≤ r.fore.value) (aft : 0 ≤ r.aft.value) (s : State) :
    (s.draftMoved r → s.draftStepTest r = s.makeDue .draft) ∧ (¬s.draftMoved r → s.draftStepTest r = s) := by
  unfold State.draftStepTest State.draftMoved farFrom
  cases s.terminal.lastFore with
  | none => simp
  | some x => cases s.terminal.lastAft with
    | none => simp
    | some y =>
      simp only [Bool.or_eq_true, stepApart_toNat_iff fore, stepApart_toNat_iff aft, Option.some.injEq, forall_eq']
      exact ⟨fun h => if_pos h, fun h => if_neg h⟩

/-- The test changes the due order alone. -/
theorem draftStepTest_frame (r : ResultSet) (s : State) :
    s.draftStepTest r = { s with terminal := { s.terminal with due := (s.draftStepTest r).terminal.due } } :=
  guarded_keeps (P := fun t => t = { s with terminal := { s.terminal with due := t.terminal.due } })
    (by rw [makeDue_eq]) rfl

/-! ### The end of a live pass -/

/-- The STRENGTH flag is SET where a status differs from that in the set replaced, NORMAL where there was none (R38). -/
theorem statusChanged_iff (old : Option ResultSet) (r : ResultSet) :
    statusChanged old r = true ↔ match old with
      | some x => r.statuses ≠ x.statuses
      | none => ∃ a ∈ r.statuses, a ≠ .normal := by
  cases old with
  | none => simp [statusChanged]
  | some x => exact decide_eq_true_iff.trans ne_comm

/-- What a publication changes before the draft-step test: the engine publishes the set, and a computation and the derivation of
each channel are owed. -/
def State.publishing (s : State) (r : ResultSet) : State :=
  { s with
    engine := { s.engine with
      state := .idle, live := some r, strengthFlag := s.engine.strengthFlag || statusChanged s.engine.live r }
    pours := { s.pours with computationsOwed := s.pours.computationsOwed + 1 } }.oweDerivations

theorem publishing_channel (s : State) (r : ResultSet) (l : Loader) :
    (s.publishing r).channel l = { s.channel l with derivationsOwed := (s.channel l).derivationsOwed + 1 } := by
  cases l <;> rfl

theorem publish_eq {s : State} (ready : s.ready = true) (r : ResultSet) :
    s.publish r = ((s.publishing r).draftStepTest r).handBallast (.publication r) (KeptChange.publication r).act := by
  have owed := oweComputation_eq (s := { s with
    engine.state := .idle, engine.live := some r
    engine.strengthFlag := s.engine.strengthFlag || statusChanged s.engine.live r }) ready
  unfold State.publish
  dsimp only
  rw [owed]; rfl

/-- A publication changes the engine, the causes owed and the due order; the Ballast Sequencer is told of the set. -/
theorem publish_spec {s : State} (ready : s.ready = true) (r : ResultSet) :
    let t := s.publish r
    (t.engine = (s.publishing r).engine ∧ t.pours = (s.publishing r).pours ∧ t.channels = (s.publishing r).channels ∧
      t.terminal.due = ((s.publishing r).draftStepTest r).terminal.due) ∧
    (s.pfail = true → t.ballast = { s.ballast with kept := s.ballast.kept ++ [(s.clock, KeptChange.publication r)] } ∧
      t.field = s.field) ∧
    { s with
      engine := t.engine, pours := t.pours, channels := t.channels
      terminal := { s.terminal with due := t.terminal.due } }.onlyBallast t := by
  obtain ⟨told, kept⟩ := handBallast_spec (.publication r) ((s.publishing r).draftStepTest r)
  rw [← publish_eq ready, draftStepTest_frame] at told kept
  generalize s.publish r = t at told kept ⊢
  refine ⟨?_, kept, ?_⟩
  · rw [told]; exact ⟨rfl, rfl, rfl, rfl⟩
  · unfold State.onlyBallast at told ⊢
    rw [told]; rfl

/-- The end of a live pass publishes the set of the inputs that it took, with the next generation. -/
theorem exec_livePassEnd {s : State} (ready : s.ready = true) {snap : Snapshot} (taken : s.engine.state = .livePass snap) :
    exec .livePassEnd s = .next (s.publish (evaluate s.hull snap (nextGeneration s.generation))) := by
  show execLivePassEnd s = _
  simp [execLivePassEnd, ready, taken]

/-- DRAFT joins the due order where a draft has moved, and nothing does otherwise. -/
theorem publishing_due {s : State} {r : ResultSet} (fore : 0 ≤ r.fore.value) (aft : 0 ≤ r.aft.value) :
    (s.draftMoved r → ((s.publishing r).draftStepTest r).terminal.due =
      if Slot.draft ∈ s.terminal.due then s.terminal.due else s.terminal.due ++ [Slot.draft]) ∧
    (¬s.draftMoved r → ((s.publishing r).draftStepTest r).terminal.due = s.terminal.due) := by
  obtain ⟨moved, stood⟩ := draftStepTest_cases fore aft (s.publishing r)
  refine ⟨fun h => ?_, fun h => ?_⟩
  · rw [moved h, makeDue_eq]; rfl
  · rw [stood h]; rfl

/-! ### Trial passes -/

/-- The hold room of a trial is counted from the masses of the pass. -/
theorem trialHoldRoom_eq (s : State) (snap : Snapshot) (a : Nat) :
    trialHoldRoom s.hull snap a = (s.holdData a).maxMass - (nth1 snap.masses a).getD 0 := by
  cases a with
  | zero => exact (Nat.zero_sub _).trans (Nat.zero_sub _).symm
  | succ n => rfl

/-- The rooms of the trial holds, by which of them are present (R160). -/
theorem trialRooms_eq (s : State) (r : ResultSet) (snap : Snapshot) (h1 h2 : Option Nat) :
    let own (a : Nat) : Room := ownRoom s.hull r a ((s.holdData a).maxMass - (nth1 snap.masses a).getD 0)
    let smaller (o j : Room) : Room := if j.amount < o.amount then j else o
    trialRooms s.hull r snap h1 h2 = match h1, h2 with
      | none, none => []
      | some a, none | none, some a => [⟨a, own a, none, own a⟩]
      | some a, some b =>
        [⟨a, own a, some (jointRoom s.hull r a b), smaller (own a) (jointRoom s.hull r a b)⟩,
          ⟨b, own b, some (jointRoom s.hull r b a), smaller (own b) (jointRoom s.hull r b a)⟩] := by
  cases h1 <;> cases h2 <;> simp [trialRooms, trialRoomOf, trialHoldRoom_eq, strengthRoomOf]

/-- The end of a trial pass stores the figures with the trial that is still in flight. -/
theorem exec_trialPassEnd {s : State} (ready : s.ready = true) {snap : Snapshot} {h1 h2 : Option Nat}
    (taken : s.engine.state = .trialPass snap h1 h2) {x : Trial} (trial : s.engine.trial = some x) (flying : x.inFlight = true) :
    exec .trialPassEnd s = .next { s with
      engine := { s.engine with state := .idle, trial := some (x.published s.hull snap h1 h2), trialDone := true } } := by
  show execTrialPassEnd s = _
  simp [execTrialPassEnd, ready, taken, trial, flying]

/-- The figures of a trial pass whose trial is no longer in flight are discarded. -/
theorem exec_trialPassEnd_discarded {s : State} (ready : s.ready = true) {snap : Snapshot} {h1 h2 : Option Nat}
    (taken : s.engine.state = .trialPass snap h1 h2) (ended : ∀ x, s.engine.trial = some x → x.inFlight = false) :
    exec .trialPassEnd s = .next { s with engine := { s.engine with state := .idle } } := by
  show execTrialPassEnd s = _
  cases trial : s.engine.trial with
  | none => simp [execTrialPassEnd, ready, taken, trial]
  | some x => simp [execTrialPassEnd, ready, taken, trial, ended x trial]

/-- Settles O51: the guards of the starts, what a publication changes, and the trial's figures and rooms. -/
theorem passesPublishWhatTheyTook : Obligations.PassesPublishWhatTheyTook := by
  intro s ready
  refine ⟨fun idle dirty => congrArg _ (if_pos ⟨ready, idle, dirty⟩), fun x idle clean trial waiting => ?_,
    fun snap taken => ?_, fun snap h1 h2 taken => ⟨fun x trial flying => ?_, exec_trialPassEnd_discarded ready taken⟩⟩
  · show execTrialPassStart s = _
    simp [execTrialPassStart, ready, idle, clean, trial, waiting, Trial.snapshot]
  · let r := evaluate s.hull snap (nextGeneration s.generation)
    obtain ⟨⟨engine, pours, channels, due⟩, kept, frame⟩ := publish_spec ready r
    obtain ⟨moved, stood⟩ := publishing_due (s := s) (evaluate_fore_range s.hull snap _).1 (evaluate_aft_range s.hull snap _).1
    refine ⟨s.publish r, r, exec_livePassEnd ready taken, rfl, ?_, ?_, pours, fun l => ?_, ⟨due ▸ moved, due ▸ stood⟩,
      kept, frame⟩
    · rw [engine]; rfl
    · rw [engine]
      exact Bool.or_eq_true_iff.trans (or_congr_right (statusChanged_iff s.engine.live r))
    · rw [State.channel, channels]
      exact publishing_channel s r l
  · exact ⟨x.published s.hull snap h1 h2, exec_trialPassEnd ready taken trial flying, rfl, rfl, rfl,
      trialRooms_eq s _ snap h1 h2, rfl⟩

end Sys2Proof.Machine
end

