-- ==== Sys2Proof/Proofs/LiveSet.lean ====
section
/-! PROOFS. The live set (spec 02 R26, R27): the end of a live pass alone replaces it, every other command leaves it published as
it is or makes it absent, and its generation stays within 1..65535. -/

namespace Sys2Proof.Machine

/-! ### States between which the live set is kept or made absent -/

/-- The live set of `t` is that of `s`, or absent. -/
def State.keepsLive (s t : State) : Prop := t.engine.live = s.engine.live ∨ t.engine.live = none

theorem keepsLive_refl (s : State) : s.keepsLive s := .inl rfl

theorem keepsLive_trans {s t u : State} (h : s.keepsLive t) (k : t.keepsLive u) : s.keepsLive u := by
  obtain same | absent := k
  · rw [State.keepsLive, same]; exact h
  · exact .inr absent

/-- A set kept has the generation that it had. -/
theorem State.keepsLive.generationOk {s t : State} (h : s.keepsLive t) (ok : s.GenerationOk) : t.GenerationOk := by
  intro r live
  obtain same | absent := h
  · exact ok r (same ▸ live)
  · rw [absent] at live; cases live

theorem BallastFrame.keepsLive {s t : State} (h : BallastFrame s t) : s.keepsLive t := .inl (by rw [h.rest])

theorem State.onlyChannels.keepsLive {s t : State} (h : s.onlyChannels t) : s.keepsLive t := .inl (by rw [h])

theorem State.onlyPours.keepsLive {s t : State} (h : s.onlyPours t) : s.keepsLive t := .inl (by rw [h])

theorem placeReply_keepsLive (r : NoticeReply) (s : State) : s.keepsLive (s.placeReply r) :=
  .inl (congrArg Engine.live (State.placeReply_engine r s))

/-- What a step of the Ballast Sequencer keeps its looks keep too. -/
theorem keepsLive_settle {s t before : State} {all : Bool} (h : s.keepsLive t) : s.keepsLive (t.settle all before) :=
  keepsLive_trans h (settle_frame all before t).keepsLive

/-! ### Soundings and intervals -/

/-- The marks that a changed mass leaves: the pass dirty, a computation owed. -/
theorem massMarks_keepsLive (p q : Bool) (s : State) :
    s.keepsLive (if q then (if p then s.markDirty else s).oweComputation else if p then s.markDirty else s) := by
  have marked : s.onlyPours (if p then s.markDirty else s) := guarded_keeps (markDirty_onlyPours s) (onlyPours_refl s)
  exact guarded_keeps (onlyPours_oweComputation marked).keepsLive marked.keepsLive

theorem goodSounding_keepsLive (t reading : Nat) (s : State) : s.keepsLive (s.goodSounding t reading) := by
  unfold State.goodSounding State.handSounding; dsimp only
  exact keepsLive_settle (keepsLive_trans (massMarks_keepsLive _ _ (s.updTank t _)) (ballastSounding_frame t _).keepsLive)

theorem handBallast_keepsLive (c : KeptChange) (s : State) : s.keepsLive (s.handBallast c c.act) :=
  (handBallast_frame c (keptChange_frame c) s).keepsLive

theorem staleExpires_keepsLive (t : Nat) (s : State) : s.keepsLive (s.staleExpires t) :=
  guarded_keeps (keepsLive_trans (oweComputation_onlyPours (s.updTank t Tank.staled)).keepsLive
    (handBallast_keepsLive (.stale t) _)) (keepsLive_refl s)

theorem settleExpires_keepsLive (t : Nat) (s : State) : s.keepsLive (s.settleExpires t) :=
  guarded_keeps (handBallast_keepsLive (.belowStrip t) (s.updTank t ({ · with strip := .below }))) (keepsLive_refl s)

theorem silenceExpires_keepsLive (s : State) : s.keepsLive s.silenceExpires := by
  have silent : s.keepsLive { s with field.live := false } := .inl rfl
  exact guarded_keeps (keepsLive_trans silent (linkLost_frame _).keepsLive) (keepsLive_refl s)

theorem intervalEffect_keepsLive (e : IntervalEffect) (s : State) : s.keepsLive (e.act s) := by
  cases e with
  | stale t => exact staleExpires_keepsLive t s
  | settle t => exact settleExpires_keepsLive t s
  | silence => exact silenceExpires_keepsLive s

/-! ### Puts -/

theorem putHold_keepsLive (h : Nat) (ps : List Pair) (s : State) : s.keepsLive (s.putHold h ps).state := by
  refine takePut_keeps ?_ (keepsLive_refl s)
  split
  · exact (deriveHold_onlyPours h (s.updHold h _)).keepsLive
  · exact keepsLive_refl s

theorem putItem_keepsLive (i : Nat) (ps : List Pair) (s : State) : s.keepsLive (s.putItem i ps).state := by
  refine takePut_keeps ?_ (keepsLive_refl s)
  split
  · exact guarded_keeps (.inl rfl) (markDirty_onlyPours { s with items := _ }).keepsLive
  · exact keepsLive_refl s

theorem handTankPut_keepsLive (t : Nat) (before : Tank) (s : State) : s.keepsLive (s.handTankPut t before) := by
  have marked := massMarks_keepsLive (decide ((s.tank t).current ≠ before.current))
    (decide ((s.tank t).current ≠ before.current) ||
      decide (before.status = .stale ∧ (s.tank t).status ≠ .stale)) s
  have told := guarded_keeps (p := decide ((s.tank t).current ≠ before.current) = true)
    (keepsLive_trans marked (ballastPutMass_frame t _).keepsLive) marked
  exact guarded_keeps (keepsLive_settle told) told

theorem putPour_keepsLive (n : Nat) (ps : List Pair) (s : State) : s.keepsLive (s.putPour n ps).state := by
  unfold State.putPour; split
  · exact (createPour_onlyPours n ps s).keepsLive
  · exact (amendPour_onlyPours n _ ps s).keepsLive

theorem putOrder_keepsLive (t : Nat) (ps : List Pair) (s : State) : s.keepsLive (s.putOrder t ps).state := by
  have entered : s.keepsLive (s.putNewOrder t ps).state :=
    takePut_keeps (enterOrder_frame t ps s).keepsLive (keepsLive_refl s)
  unfold State.putOrder; split
  · exact entered
  · split
    · exact entered
    · exact takePut_keeps (amendOrder_frame t _ ps s).keepsLive (keepsLive_refl s)

theorem putStation_keepsLive (g : Nat) (ps : List Pair) (s : State) : s.keepsLive (s.putStation g ps).state :=
  takePut_keeps (guarded_keeps (applyDryRun_frame g (s.updStation g _)).keepsLive (.inl rfl)) (keepsLive_refl s)

theorem putChannel_keepsLive (l : Loader) (ps : List Pair) (s : State) : s.keepsLive (s.putChannel l ps).state := by
  refine takePut_keeps ?_ (keepsLive_refl s)
  split
  · exact (storeAction_frame l _ s).keepsLive
  · exact keepsLive_refl s

theorem storeBerth_keepsLive (draft : Nat) (source : BerthSource) (s : State) : s.keepsLive (s.storeBerth draft source) := by
  have stored : s.keepsLive { s with berth.maxDraft := draft, berth.source := source } := .inl rfl
  unfold State.storeBerth; dsimp only; split
  · exact keepsLive_trans stored (onlyPours_trans (markDirty_onlyPours _) (makeDue_onlyPours .draft _)).keepsLive
  · exact guarded_keeps (keepsLive_trans stored (makeDue_onlyPours .draft _).keepsLive) stored

theorem putBerth_keepsLive (ps : List Pair) (s : State) : s.keepsLive (s.putBerth ps).state := by
  refine takePut_keeps ?_ (keepsLive_refl s)
  split
  · exact storeBerth_keepsLive _ _ s
  · exact keepsLive_refl s

theorem storeSettings_keepsLive (ps : List Pair) (s : State) : s.keepsLive (s.storeSettings ps) := by
  have marked (p q : Prop) [Decidable p] [Decidable q] (t : State) :
      t.onlyPours (if q then (if p then t.markDirty else t).oweDerivations else if p then t.markDirty else t) := by
    have dirtied : t.onlyPours (if p then t.markDirty else t) := guarded_keeps (markDirty_onlyPours t) (onlyPours_refl t)
    exact guarded_keeps (onlyPours_trans dirtied
      (onlyPours_trans (oweDerivation_onlyPours .l1 _) (oweDerivation_onlyPours .l2 _))) dirtied
  have stored := (marked
    (s.settings.limitSet ≠ (s.settings.afterPut ps).limitSet ∨ s.settings.caution ≠ (s.settings.afterPut ps).caution)
    (s.settings.pace ≠ (s.settings.afterPut ps).pace ∨ s.settings.margin ≠ (s.settings.afterPut ps).margin)
    { s with settings := s.settings.afterPut ps }).keepsLive
  exact guarded_keeps (unordered_keeps s.keepsLive (fun _ h => h)
    (fun e _ _ h => keepsLive_trans h (intervalEffect_keepsLive e _)) stored) stored

theorem putRecord_keepsLive (t : Table) (k : Nat) (ps : List Pair) (s : State) : s.keepsLive (s.putRecord t k ps).state := by
  unfold State.putRecord; split
  · cases t with
    | hold => exact putHold_keepsLive k ps s
    | tank => exact takePut_keeps (handTankPut_keepsLive k _ (s.updTank k _)) (keepsLive_refl s)
    | item => exact putItem_keepsLive k ps s
    | pour => exact putPour_keepsLive k ps s
    | order => exact putOrder_keepsLive k ps s
    | station => exact putStation_keepsLive k ps s
    | channel =>
      dsimp only
      cases loaderOfKey k with
      | none => exact keepsLive_refl s
      | some l => exact putChannel_keepsLive l ps s
    | berth => exact putBerth_keepsLive ps s
    | settings => exact takePut_keeps (storeSettings_keepsLive ps s) (keepsLive_refl s)
    | valve | result | clearance | profile | trial | changes => exact keepsLive_refl s
  · exact keepsLive_refl s

/-! ### RETIRE, CLEAR and the actions -/

theorem retireRecord_keepsLive (t : Table) (k : Nat) (s : State) : s.keepsLive (s.retireRecord t k).state := by
  unfold State.retireRecord; split
  · unfold State.retirePour; split
    · exact keepsLive_refl s
    · split
      · exact (removePour_onlyPours _ s).keepsLive
      · exact keepsLive_refl s
  · unfold State.retireOrder; split
    · exact keepsLive_refl s
    · split
      · dsimp only
        exact (retireActive_frame k s).keepsLive
      · exact (removeOrder_frame k _ s).keepsLive
  · exact keepsLive_refl s

theorem clearFlag_keepsLive (t : Table) (key : Nat) (f : FlagKind) (s : State) : s.keepsLive (s.clearFlag t key f) := by
  unfold State.clearFlag; split <;> exact .inl rfl

theorem clearRecord_keepsLive (codes : List Octet) (t : Table) (k : Nat) (s : State) :
    s.keepsLive (s.clearRecord codes t k).state := by
  have cleared (fs : List FlagKind) (s : State) : s.keepsLive (s.clearFlags t k fs) := by
    unfold State.clearFlags
    induction fs generalizing s with
    | nil => exact keepsLive_refl s
    | cons f fs ih => exact keepsLive_trans (clearFlag_keepsLive t k f s) (ih _)
  unfold State.clearRecord; split
  · exact keepsLive_refl s
  · split
    · exact keepsLive_refl s
    · split
      · exact keepsLive_refl s
      · exact cleared _ s

theorem haltAnswer_keepsLive (s : State) : s.keepsLive s.haltAnswer.state := by
  unfold State.haltAnswer; split
  · dsimp only
    exact (haltSequencer_frame s).keepsLive
  · exact keepsLive_refl s

theorem rearmAnswer_keepsLive (g : Nat) (s : State) : s.keepsLive (s.rearmAnswer g).state := by
  unfold State.rearmAnswer; split
  · exact keepsLive_refl s
  · split
    · exact keepsLive_refl s
    · split
      · exact (settle_frame _ _ (s.updStation g _)).keepsLive
      · exact keepsLive_refl s

theorem endPourAnswer_keepsLive (n : Nat) (s : State) : s.keepsLive (s.endPourAnswer n).state := by
  unfold State.endPourAnswer; split
  · split
    · exact keepsLive_refl s
    · split
      · exact (closePour_onlyPours _ s).keepsLive
      · exact keepsLive_refl s
  · exact keepsLive_refl s

theorem trialPutAnswer_keepsLive (ps : List Pair) (s : State) : s.keepsLive (s.trialPutAnswer ps).state := by
  unfold State.trialPutAnswer; split
  · exact keepsLive_refl s
  · split
    · exact takePut_keeps (.inl rfl) (keepsLive_refl s)
    · exact keepsLive_refl s

theorem purgeOne_keepsLive (s : State) : s.keepsLive s.purgeOne := by
  have tested (t : State) : t.keepsLive t.purgeTest := guarded_keeps (.inl rfl) (keepsLive_refl t)
  unfold State.purgeOne; split
  · exact tested s
  · exact keepsLive_trans (removePour_onlyPours _ s).keepsLive (tested _)

theorem terminalBerth_keepsLive (draft : Nat) (s : State) : s.keepsLive (s.terminalBerth draft) := by
  have stored := storeBerth_keepsLive draft .terminal s
  unfold State.terminalBerth; dsimp only; split
  · exact stored
  · exact stored

theorem sendNext_keepsLive (s : State) : s.keepsLive s.sendNext := by
  unfold State.sendNext; split
  · exact .inl rfl
  · split
    · exact .inl rfl
    · exact keepsLive_refl s

/-! ### Commands by the link that they come on -/

/-- The command completes in a state in which the live set is kept or absent. -/
def State.keepsLiveIn (s : State) (o : Host.Outcome State Fault Refusal) : Prop := ∀ t, o = .next t → s.keepsLive t

theorem keepsLiveIn_next {s t : State} (h : s.keepsLive t) : s.keepsLiveIn (.next t) := by
  rintro _ ⟨⟩; exact h

/-- A command of the part's own keeps the live set where the operation behind its condition does. -/
theorem guarded_keepsLive {p : Prop} [Decidable p] {s t : State} (acts : s.keepsLive t) :
    s.keepsLiveIn (.next (if p then t else s)) := keepsLiveIn_next (guarded_keeps acts (keepsLive_refl s))

theorem takeRequest_keepsLive {kind : Nat} {head : ShipHead} {respond : State → Answer} {s : State}
    (answer : s.keepsLive (respond s).state) : s.keepsLiveIn (.next (s.takeRequest kind head respond)) :=
  keepsLiveIn_next (takeRequest_keeps (P := s.keepsLive) (fun _ _ h => h) answer (keepsLive_refl s))

/-- A record request keeps the live set where the tables' rules do. -/
theorem recordCommand_keepsLive {kind : Nat} {head : ShipHead} {look : Bool} {named : State → Table → Nat → Bool}
    {respond : Table → Nat → State → Answer} {s : State} (answer : ∀ t k, s.keepsLive (respond t k s).state) :
    s.keepsLiveIn (.next (s.takeRequest kind head fun s => s.recordRequest head look named respond)) :=
  takeRequest_keepsLive (recordRequest_keeps answer (keepsLive_refl s))

/-- An action keeps the live set where its own rule does. -/
theorem actionCommand_keepsLive {kind : Nat} {head : ShipHead} {waits : Bool} {respond : State → Answer} {s : State}
    (answer : s.keepsLive (respond s).state) :
    s.keepsLiveIn (.next (s.takeRequest kind head fun s => s.actionRequest waits respond)) :=
  takeRequest_keepsLive (actionRequest_keeps answer (keepsLive_refl s))

/-- An action without a key keeps the live set where its own rule does. -/
theorem keylessCommand_keepsLive {kind : Nat} {head : ShipHead} {waits : Bool} {respond : State → Answer} {s : State}
    (answer : s.keepsLive (respond s).state) :
    s.keepsLiveIn (.next (s.takeRequest kind head fun s => s.actionRequest waits fun s => s.keyless head respond)) :=
  actionCommand_keepsLive (keyless_keeps answer (keepsLive_refl s))

/-- A trial action keeps the live set where its own rule does. -/
theorem trialCommand_keepsLive {kind : Nat} {head : ShipHead} {respond : State → Answer} {s : State}
    (answer : s.keepsLive (respond s).state) :
    s.keepsLiveIn (.next (s.takeRequest kind head fun s => s.trialRequest head respond)) :=
  takeRequest_keepsLive (trialRequest_keeps answer (keepsLive_refl s))

theorem takeNotice_keepsLive {kind : NoticeKind} {l : Option Loader} {q : Option (BitVec 16)} {r : Reason}
    {act : State → State} {s : State} (acts : ∀ t : State, t.keepsLive (act t)) :
    s.keepsLiveIn (.next (s.takeNotice kind l q r act)) :=
  keepsLiveIn_next (takeNotice_keeps (P := s.keepsLive) (fun _ _ h => h) (fun _ h => keepsLive_trans h (acts _))
    (keepsLive_refl s))

theorem takeField_keepsLive {present : State → Bool} {act : State → State} {s : State}
    (acts : ∀ t : State, t.keepsLive (act t)) : s.keepsLiveIn (.next (s.takeField present act)) :=
  keepsLiveIn_next (takeField_keeps (P := s.keepsLive) (fun _ _ h => h) (fun _ h => keepsLive_trans h (acts _))
    (keepsLive_refl s))

/-! ### Commands that carry out more than one operation -/

/-- A start leaves no live set: the engine begins IDLE (R28). -/
theorem execProfileReadComplete_keepsLive (read : ProfileRead) (s : State) :
    s.keepsLiveIn (execProfileReadComplete read s) := by
  refine guarded_keepsLive ?_
  split
  · exact .inr rfl
  · unfold State.loadClean; dsimp only; split
    · exact .inr rfl
    · exact .inr rfl

theorem execPfailAssert_keepsLive (s : State) : s.keepsLiveIn (execPfailAssert s) := by
  have derived (t : State) (h : s.keepsLive t) : s.keepsLive (if s.hasChannels then t.pfailChannels else t) :=
    guarded_keeps (keepsLive_trans h (pfailChannels_frame t).keepsLive) h
  refine guarded_keepsLive (derived _ ?_)
  split <;> exact .inl rfl

theorem resumeReady_keepsLive (s : State) : s.keepsLive s.resumeReady := by
  have watched : s.keepsLive
    { s with startUp.marker := { s.startUp.marker with valid := false } }.restartSilence := .inl rfl
  exact keepsLive_trans (keepsLive_trans watched (expireTallies_frame _).keepsLive) (takeDeferred_frame _).keepsLive

theorem execPfailDeassert_keepsLive (s : State) : s.keepsLiveIn (execPfailDeassert s) := by
  have deasserted : s.keepsLive { s with pfail := false, ship := .idle } := .inl rfl
  exact guarded_keepsLive (guarded_keeps (keepsLive_trans deasserted (resumeReady_keepsLive _)) deasserted)

theorem execRelease_keepsLive (head : ShipHead) (s : State) : s.keepsLiveIn (execRelease head s) := by
  refine actionCommand_keepsLive ?_
  split
  · exact (release_frame s _).keepsLive
  · exact keepsLive_refl s

theorem execForce_keepsLive (head : ShipHead) (pairs : List Pair) (s : State) : s.keepsLiveIn (execForce head pairs s) := by
  refine actionCommand_keepsLive ?_
  split
  · exact (force_frame _ _ s).keepsLive
  · exact keepsLive_refl s

theorem execRestart_keepsLive (head : ShipHead) (s : State) : s.keepsLiveIn (execRestart head s) := by
  refine keylessCommand_keepsLive ?_
  split
  · exact (deriveBoth_frame _ _).keepsLive
  · exact keepsLive_refl s

theorem execPurge_keepsLive (head : ShipHead) (s : State) : s.keepsLiveIn (execPurge head s) := by
  refine keylessCommand_keepsLive ?_
  split
  · exact .inl rfl
  · exact keepsLive_refl s

theorem execReload_keepsLive (head : ShipHead) (s : State) : s.keepsLiveIn (execReload head s) := by
  refine actionCommand_keepsLive ?_
  split
  · exact keepsLive_refl s
  · split
    · exact .inr rfl
    · exact keepsLive_refl s

theorem execTrialOpen_keepsLive (head : ShipHead) (s : State) : s.keepsLiveIn (execTrialOpen head s) := by
  refine trialCommand_keepsLive ?_
  split <;> exact .inl rfl

theorem execTrialEvaluate_keepsLive (head : ShipHead) (s : State) : s.keepsLiveIn (execTrialEvaluate head s) := by
  refine trialCommand_keepsLive ?_
  split <;> exact .inl rfl

theorem execTrialPassStart_keepsLive (s : State) : s.keepsLiveIn (execTrialPassStart s) := by
  refine guarded_keepsLive ?_
  split
  · exact guarded_keeps (.inl rfl) (keepsLive_refl s)
  · exact keepsLive_refl s

theorem execTrialPassEnd_keepsLive (s : State) : s.keepsLiveIn (execTrialPassEnd s) := by
  refine guarded_keepsLive ?_
  split
  · split
    · split <;> exact .inl rfl
    · exact .inl rfl
  · exact keepsLive_refl s

theorem execPourStart_keepsLive (l : Loader) (n : BitVec 16) (rate : BitVec 32) (s : State) :
    s.keepsLiveIn (execPourStart l n rate s) := by
  refine takeNotice_keepsLive fun t => ?_
  split
  · exact placeReply_keepsLive _ t
  · exact keepsLive_trans (acceptStart_onlyPours l _ _ t).keepsLive (placeReply_keepsLive _ _)

theorem execTally_keepsLive (l : Loader) (amount : BitVec 32) (s : State) : s.keepsLiveIn (execTally l amount s) := by
  refine takeNotice_keepsLive fun t => ?_
  split
  · exact placeReply_keepsLive _ t
  · split
    · exact (acceptTally_onlyPours l _ _ t).keepsLive
    · exact placeReply_keepsLive _ (t.tallyFault l)

theorem execPourEnd_keepsLive (l : Loader) (final : BitVec 32) (s : State) : s.keepsLiveIn (execPourEnd l final s) := by
  refine takeNotice_keepsLive fun t => ?_
  split
  · exact placeReply_keepsLive _ t
  · exact keepsLive_trans (endActive_onlyPours l _ _ t).keepsLive (placeReply_keepsLive _ _)

theorem execReportRequest_keepsLive (slot : Slot) (s : State) : s.keepsLiveIn (execReportRequest slot s) := by
  refine guarded_keepsLive ?_
  dsimp only; split
  · exact .inl rfl
  · exact (makeDue_onlyPours slot { s with terminal.receiving := none }).keepsLive

theorem execValvePosition_keepsLive (key : Octet) (position : PositionReport) (s : State) :
    s.keepsLiveIn (execValvePosition key position s) := by
  refine takeField_keepsLive fun t => ?_
  split
  · exact keepsLive_settle (valveReport_frame _ _ t).keepsLive
  · exact keepsLive_refl t

/-! ### Every command but the end of a live pass -/

theorem exec_keepsLive {c : Instr} (other : c ≠ .livePassEnd) (s : State) : s.keepsLiveIn (exec c s) := by
  cases c with
  | livePassEnd => exact absurd rfl other
  | powerOn =>
    refine keepsLiveIn_next ?_
    split
    · exact keepsLive_refl s
    · exact .inr rfl
  | powerLoss | resetNAssert | resetNRelease => exact guarded_keepsLive (.inr rfl)
  | profileReadComplete read => exact execProfileReadComplete_keepsLive read s
  | profileReadTimeout => exact guarded_keepsLive (.inr rfl)
  | timeBaseTick | shipFrameDiscard | shipFrameIncompleteTimeout | shipFrameBusyOwed | shipReplyEnd | livePassStart
  | terminalFrameDiscard | terminalFrameEnd | fieldFrameDiscard | fieldFrameIncompleteTimeout | fieldSendStart
  | fieldFrameEnd => exact guarded_keepsLive (.inl rfl)
  | pfailAssert => exact execPfailAssert_keepsLive s
  | pfailDeassert => exact execPfailDeassert_keepsLive s
  | look => exact recordCommand_keepsLive fun _ _ => keepsLive_refl s
  | put _ pairs => exact recordCommand_keepsLive fun t k => putRecord_keepsLive t k pairs s
  | retire => exact recordCommand_keepsLive fun t k => retireRecord_keepsLive t k s
  | clear _ codes => exact recordCommand_keepsLive fun t k => clearRecord_keepsLive codes t k s
  | run => exact keylessCommand_keepsLive (unlessFault_keeps (runSequencer_frame s).keepsLive (keepsLive_refl s))
  | halt => exact keylessCommand_keepsLive (haltAnswer_keepsLive s)
  | rearm => exact actionCommand_keepsLive (rearmAnswer_keepsLive _ s)
  | release head => exact execRelease_keepsLive head s
  | force head pairs => exact execForce_keepsLive head pairs s
  | endPour => exact actionCommand_keepsLive (endPourAnswer_keepsLive _ s)
  | restart head => exact execRestart_keepsLive head s
  | purge head => exact execPurge_keepsLive head s
  | purgeStep => exact guarded_keepsLive (purgeOne_keepsLive s)
  | reload head => exact execReload_keepsLive head s
  | trialOpen head => exact execTrialOpen_keepsLive head s
  | trialPut _ pairs => exact trialCommand_keepsLive (trialPutAnswer_keepsLive pairs s)
  | trialEvaluate head => exact execTrialEvaluate_keepsLive head s
  | trialClose => exact trialCommand_keepsLive (.inl rfl)
  | unknownRequestKind => exact takeRequest_keepsLive (keepsLive_refl s)
  | trialPassStart => exact execTrialPassStart_keepsLive s
  | trialPassEnd => exact execTrialPassEnd_keepsLive s
  | clearanceComputation => exact guarded_keepsLive (compute_frame s).keepsLive
  | channelDerivation l => exact guarded_keepsLive (takeDerivation_frame s l).keepsLive
  | tallyTimerExpiry l => exact guarded_keepsLive (expireTallyTimer_frame s l).keepsLive
  | pourStart l n rate => exact execPourStart_keepsLive l n rate s
  | tally l amount => exact execTally_keepsLive l amount s
  | pourEnd l final => exact execPourEnd_keepsLive l final s
  | berth =>
    exact takeNotice_keepsLive fun t => keepsLive_trans (terminalBerth_keepsLive _ t) (placeReply_keepsLive _ _)
  | reportRequest slot => exact execReportRequest_keepsLive slot s
  | terminalSendStart => exact guarded_keepsLive (sendNext_keepsLive s)
  | sounding =>
    exact takeField_keepsLive fun t => guarded_keeps (goodSounding_keepsLive _ _ t) (keepsLive_refl t)
  | valvePosition key position => exact execValvePosition_keepsLive key position s
  | pumpStatus _ status => exact takeField_keepsLive fun t => keepsLive_settle (pumpReport_frame _ status t).keepsLive
  | localSwitch _ position =>
    exact takeField_keepsLive fun t => keepsLive_settle (switchReport_frame _ position t).keepsLive
  | fieldSilenceExpiry => exact keepsLiveIn_next (silenceExpires_keepsLive s)
  | staleExpiry tank => exact guarded_keepsLive (staleExpires_keepsLive tank s)
  | stripSettleExpiry tank => exact guarded_keepsLive (settleExpires_keepsLive tank s)
  | valveTravelTimeout v => exact guarded_keepsLive (keepsLive_settle (travelTimeout_frame v s).keepsLive)
  | primingExpiry g => exact guarded_keepsLive (keepsLive_settle (primingEnds_frame g s).keepsLive)
  | rundownExpiry g => exact guarded_keepsLive (keepsLive_settle (rundownEnds_frame g s).keepsLive)
  | dryRunCondition g => exact guarded_keepsLive (keepsLive_settle (dryRunActs_frame g s).keepsLive)

/-! ### The end of a live pass -/

/-- The generation after one of the range, or after none, lies in the range: 65535 is followed by 1 (R27). -/
theorem nextGeneration_range {g : Nat} (range : g ≤ 65535) : 1 ≤ nextGeneration g ∧ nextGeneration g ≤ 65535 := by
  unfold nextGeneration; split <;> omega

theorem State.GenerationOk.generation_le {s : State} (ok : s.GenerationOk) : s.generation ≤ 65535 := by
  unfold State.generation; split
  · rename_i r live; exact (ok r live).2
  · omega

/-- The end of a live pass leaves the state, or publishes a set with the next generation. -/
theorem exec_livePassEnd_generationOk {s t : State} (ok : s.GenerationOk) (run : exec .livePassEnd s = .next t) :
    t.GenerationOk := by
  obtain rfl := Host.Outcome.next.inj run
  by_cases ready : s.ready = true
  · rw [if_pos ready]
    split
    · rename_i snap _
      intro r live
      obtain ⟨⟨engine, -⟩, -⟩ := publish_spec ready (evaluate s.hull snap (nextGeneration s.generation))
      rw [engine] at live
      obtain rfl := Option.some.inj live
      exact nextGeneration_range ok.generation_le
    · exact ok
  · rw [if_neg ready]; exact ok

/-- Settles O10: every command but the end of a live pass keeps the set or makes it absent, and that end gives the set the next
generation. -/
theorem liveSetComesFromLivePasses : Obligations.LiveSetComesFromLivePasses := by
  intro c s t run
  by_cases ends : c = .livePassEnd
  · subst ends
    exact ⟨fun ok => exec_livePassEnd_generationOk ok run, .inr (.inr rfl)⟩
  · have kept : s.keepsLive t := exec_keepsLive ends s t run
    exact ⟨kept.generationOk, kept.imp_right .inl⟩

end Sys2Proof.Machine
end

