-- ==== Sys2Proof/Proofs/Rooms.lean ====
section
/-! PROOFS. Rooms (spec 03 Table 3.3, R41 to R45): the room of one quantity as the largest safe addition, the candidates of own and
joint room in their order, and the first of the smallest of them. -/

namespace Sys2Proof.Machine

/-! ### Room for one quantity -/

theorem boundedRoom_le (n : Int) (scale : Nat) (e : Int) : boundedRoom n scale e ≤ 999999 := by
  unfold boundedRoom; split
  · exact Nat.zero_le _
  · exact Nat.min_le_left _ _

/-- Only the magnitude of the coefficient counts. -/
theorem boundedRoom_neg (n : Int) (scale : Nat) (e : Int) : boundedRoom n scale (-e) = boundedRoom n scale e := by
  rw [boundedRoom, boundedRoom, Int.natAbs_neg]

/-- A bounded room is the largest addition that keeps within the numerator: 0 where that is exhausted, otherwise the quotient. -/
theorem boundedRoom_largest (n : Int) (scale : Nat) {e : Int} (pos : 0 < e) :
    (boundedRoom n scale e : Int) * e ≤ max 0 (n * scale) ∧
      (boundedRoom n scale e < 999999 → n * scale < (boundedRoom n scale e + 1) * e) := by
  by_cases exhausted : n ≤ 0
  · have spent : n * scale ≤ 0 := Int.mul_nonpos_of_nonpos_of_nonneg exhausted (by omega)
    rw [boundedRoom, if_pos exhausted]
    omega
  · lift n to Nat using by omega
    lift e to Nat using by omega
    have room : boundedRoom n scale e = min 999999 (n * scale / e) := if_neg exhausted
    have quotient := Nat.div_mul_le_self (n * scale) e
    have next := Nat.lt_mul_of_div_lt (Nat.lt_succ_self (n * scale / e)) (by omega : 0 < e)
    have fits : boundedRoom n scale e * e ≤ n * scale :=
      (Nat.mul_le_mul_right e (room ▸ Nat.min_le_right _ _)).trans quotient
    refine ⟨le_max_of_le_right (mod_cast fits), fun below => ?_⟩
    have whole : boundedRoom n scale e = n * scale / e := by omega
    rw [whole]
    exact mod_cast next

/-- The room of a signed quantity, by the side to which the coefficient moves it (Table 3.3). -/
theorem signedRoom_largest (v : Int) (up down scale : Nat) (e : Int) :
    signedRoom v up down scale e ≤ 999999 ∧ (e = 0 → signedRoom v up down scale e = 999999) ∧
    (0 < e → (signedRoom v up down scale e : Int) * e ≤ max 0 ((up - v) * scale) ∧
      (signedRoom v up down scale e < 999999 → (up - v) * scale < (signedRoom v up down scale e + 1) * e)) ∧
    (e < 0 → (signedRoom v up down scale e : Int) * -e ≤ max 0 ((v + down) * scale) ∧
      (signedRoom v up down scale e < 999999 → (v + down) * scale < (signedRoom v up down scale e + 1) * -e)) := by
  obtain below | rfl | above := lt_trichotomy e 0
  · have room : signedRoom v up down scale e = boundedRoom (v + down) scale (-e) := by
      rw [boundedRoom_neg, signedRoom, if_neg (by omega), if_neg (by omega)]
    rw [room]
    exact ⟨boundedRoom_le _ _ _, by omega, by omega, fun _ => boundedRoom_largest _ _ (by omega)⟩
  · have room : signedRoom v up down scale 0 = 999999 := rfl
    rw [room]; omega
  · have room : signedRoom v up down scale e = boundedRoom (up - v) scale e := by
      rw [signedRoom, if_neg (by omega), if_pos above]
    rw [room]
    exact ⟨boundedRoom_le _ _ _, by omega, fun _ => boundedRoom_largest _ _ above, by omega⟩

/-- The room of a draft, which only an addition that deepens it uses up (R42). -/
theorem draftRoom_largest (limit : Nat) (v e : Int) :
    draftRoom limit v e ≤ 999999 ∧ (e ≤ 0 → draftRoom limit v e = 999999) ∧
    (0 < e → (draftRoom limit v e : Int) * e ≤ max 0 ((limit - v) * 10000) ∧
      (draftRoom limit v e < 999999 → (limit - v) * 10000 < (draftRoom limit v e + 1) * e)) := by
  by_cases deepens : 0 < e
  · have room : draftRoom limit v e = boundedRoom (limit - v) 10000 e := if_pos deepens
    rw [room]
    exact ⟨boundedRoom_le _ _ _, by omega, fun _ => boundedRoom_largest _ _ deepens⟩
  · have room : draftRoom limit v e = 999999 := if_neg deepens
    rw [room]; omega

/-! ### The candidates -/

/-- One of two sides, or none, by the sign of the coefficient. -/
theorem side_of_sign (e : Int) (up down : Side) :
    (if e = 0 then none else some (if 0 < e then up else down)) =
      if 0 < e then some up else if e < 0 then some down else none := by
  obtain below | rfl | above := lt_trichotomy e 0
  · simp [below, below.ne, below.not_gt]
  · rfl
  · simp [above, above.ne']

theorem movedToward_sf (e : Int) :
    movedToward .sf e = if 0 < e then some .positive else if e < 0 then some .negative else none := side_of_sign e _ _

theorem movedToward_bm (e : Int) :
    movedToward .bm e = if 0 < e then some .hog else if e < 0 then some .sag else none := side_of_sign e _ _

theorem movedToward_trim (e : Int) :
    movedToward .trim e = if 0 < e then some .stern else if e < 0 then some .head else none := side_of_sign e _ _

/-- A draft has the one side DEEP. -/
theorem movedToward_draft {kind : QuantityKind} (draft : kind = .fore ∨ kind = .aft) (e : Int) :
    movedToward kind e = if 0 < e then some .deep else none := by
  by_cases flat : e = 0
  · simp [movedToward, flat]
  · obtain rfl | rfl := draft <;> simp [movedToward, flat]

theorem summed_one (cs : List Coefficient) (hold : Nat) :
    summed cs [holdIndex hold] = (cs[hold - 1]?.getD 0#16).toInt := by
  simp [summed, coefficientAt, holdIndex]

theorem summed_two (cs : List Coefficient) (h1 h2 : Nat) :
    summed cs [holdIndex h1, holdIndex h2] = (cs[h1 - 1]?.getD 0#16).toInt + (cs[h2 - 1]?.getD 0#16).toInt := by
  simp [summed, coefficientAt, holdIndex]

/-! ### The first of the smallest -/

/-- The room stands in the list, none of the list is smaller, and those before it are larger. -/
def firstOfSmallest (cs : List Room) (x : Room) : Prop :=
  ∃ i : Nat, cs[i]? = some x ∧ ∀ (j : Nat) (y : Room), cs[j]? = some y → x.amount ≤ y.amount ∧ (j < i → x.amount < y.amount)

/-- Going through the rooms keeps one that is smaller than those before it and not larger than those after it. -/
theorem smallest_split (best : Room) (xs : List Room) :
    ∃ before after, best :: xs = before ++ smallest best xs :: after ∧
      (∀ y ∈ before, (smallest best xs).amount < y.amount) ∧ ∀ y ∈ after, (smallest best xs).amount ≤ y.amount := by
  induction xs generalizing best with
  | nil => exact ⟨[], [], rfl, by simp, by simp⟩
  | cons z zs ih =>
    rw [smallest]
    by_cases smaller : z.amount < best.amount
    · rw [if_pos smaller]
      obtain ⟨before, after, split, larger, least⟩ := ih z
      have le_z : (smallest z zs).amount ≤ z.amount := by
        obtain mem | same | mem : z ∈ before ∨ z = smallest z zs ∨ z ∈ after := by
          simpa [split] using List.mem_cons_self (a := z) (l := zs)
        · exact (larger z mem).le
        · exact (congrArg Room.amount same).ge
        · exact least z mem
      exact ⟨best :: before, after, by rw [split]; rfl, List.forall_mem_cons.mpr ⟨by omega, larger⟩, least⟩
    · rw [if_neg smaller]
      obtain ⟨before, after, split, larger, least⟩ := ih best
      cases before with
      | nil =>
        obtain ⟨same, rfl⟩ := List.cons.inj split
        exact ⟨[], z :: zs, by rw [← same]; rfl, by simp,
          List.forall_mem_cons.mpr ⟨same ▸ not_lt.mp smaller, least⟩⟩
      | cons b before =>
        obtain ⟨rfl, rest⟩ := List.cons.inj split
        have lt_best := larger best List.mem_cons_self
        refine ⟨best :: z :: before, after, congrArg (best :: z :: ·) rest, ?_, least⟩
        exact List.forall_mem_cons.mpr ⟨lt_best, List.forall_mem_cons.mpr
          ⟨by omega, fun y mem => larger y (List.mem_cons_of_mem _ mem)⟩⟩

/-- Going through the rooms keeps the first of the smallest. -/
theorem smallest_firstOfSmallest (best : Room) (xs : List Room) : firstOfSmallest (best :: xs) (smallest best xs) := by
  obtain ⟨before, after, split, larger, least⟩ := smallest_split best xs
  rw [split]
  refine ⟨before.length, by simp, fun j y at_j => ?_⟩
  obtain early | rfl | late := lt_trichotomy j before.length
  · rw [List.getElem?_append_left early] at at_j
    have lt := larger y (List.mem_of_getElem? at_j)
    exact ⟨lt.le, fun _ => lt⟩
  · obtain rfl : smallest best xs = y := by simpa using at_j
    simp
  · obtain ⟨k, rfl⟩ := Nat.exists_eq_add_of_lt late
    have mem : y ∈ after := List.mem_of_getElem? (i := k) (by simpa [List.getElem?_append_right, add_assoc] using at_j)
    exact ⟨least y mem, by omega⟩

/-- The smallest of a list with a last room is the first of the smallest of them all. -/
theorem smallestOf_firstOfSmallest (rooms : List Room) (last : Room) :
    firstOfSmallest (rooms ++ [last]) (smallestOf rooms last) := by
  cases rooms with
  | nil => exact smallest_firstOfSmallest last []
  | cons x xs => exact smallest_firstOfSmallest x (xs ++ [last])

/-- The own room of a hold is the first of the smallest of its candidates and, last, its hold room (R44). -/
theorem ownRoom_firstOfSmallest (h : Hull) (r : ResultSet) (hold room : Nat) :
    firstOfSmallest (candidateRooms h r false [holdIndex hold] ++ [⟨room, plainCause .hold⟩]) (ownRoom h r hold room) :=
  smallestOf_firstOfSmallest _ _

/-- The joint room of two holds is the first of the smallest of their candidates: the trim and the drafts are always there (R45). -/
theorem jointRoom_firstOfSmallest (h : Hull) (r : ResultSet) (h1 h2 : Nat) :
    firstOfSmallest (candidateRooms h r true [holdIndex h1, holdIndex h2]) (jointRoom h r h1 h2) := by
  cases rooms : candidateRooms h r true [holdIndex h1, holdIndex h2] with
  | nil => simp [candidateRooms, hullRooms] at rooms
  | cons x xs => rw [jointRoom, rooms]; exact smallest_firstOfSmallest x xs

/-- Settles O18: rooms as quotients, the candidates one by one, and what going through them keeps. -/
theorem roomsAreFirstSmallest : Obligations.RoomsAreFirstSmallest := by
  refine ⟨fun v up down scale e _ => signedRoom_largest v up down scale e, draftRoom_largest, ?_⟩
  intro candidates coefficient firstSmallest
  have same (h : Hull) (r : ResultSet) (joint : Bool) (e : List Coefficient → Int) (is : List Nat)
      (sums : ∀ cs, summed cs is = e cs) : candidates h r joint e = candidateRooms h r joint is := by
    simp only [candidateRooms, stationRooms, hullRooms, sums, movedToward_sf, movedToward_bm, movedToward_trim,
      movedToward_draft (kind := .fore) (.inl rfl), movedToward_draft (kind := .aft) (.inr rfl)]
    rfl
  refine ⟨fun h r hold room => ?_, fun h r h1 h2 => ?_⟩
  · rw [same h r false (coefficient hold) [holdIndex hold] fun cs => summed_one cs hold]
    exact ownRoom_firstOfSmallest h r hold room
  · rw [same h r true (fun cs => coefficient h1 cs + coefficient h2 cs) [holdIndex h1, holdIndex h2] fun cs => summed_two cs h1 h2]
    exact jointRoom_firstOfSmallest h r h1 h2

end Sys2Proof.Machine
end

