-- ==== Sys2Proof/Proofs/Clearance.lean ====
section
/-! PROOFS. The figures of a current pour (spec 03 R46 to R49, spec 04 R59, spec 06 R101): its gates, its strength room, clearance and
time-to-limit, and the rate estimators. -/

namespace Sys2Proof.Machine

/-! ### Gates and strength room (spec 03 R46, spec 04 R59) -/

theorem gateSatisfied_iff (s : State) (g : Gate) :
    s.gateSatisfied g = true ↔ (s.tank g.tank).current ≤ g.maxMass ∧ ((s.tank g.tank).status = .fresh ∨
      (s.tank g.tank).status = .overrange ∨ (s.tank g.tank).status = .manual) := by
  have notStale (x : SoundingStatus) : x ≠ .stale ↔ x = .fresh ∨ x = .overrange ∨ x = .manual := by cases x <;> simp
  rw [State.gateSatisfied, decide_eq_true_iff, notStale]

theorem gatesSatisfied_iff (s : State) (p : Pour) :
    s.gatesSatisfied p = true ↔ ∀ g, some g ∈ [p.gate1, p.gate2, p.gate3, p.gate4] → s.gateSatisfied g = true := by
  simp only [State.gatesSatisfied, Pour.gates, List.all_eq_true, List.reduceOption_mem_iff]

theorem strengthRoomFor_gated {s : State} {p : Pour} (gated : s.gatesSatisfied p = false) :
    s.strengthRoomFor p = ⟨0, plainCause .gated⟩ := by
  simp [State.strengthRoomFor, gated]

theorem strengthRoomFor_noResult {s : State} {p : Pour} (satisfied : s.gatesSatisfied p = true) (unpublished : s.engine.live = none) :
    s.strengthRoomFor p = ⟨0, plainCause .noResult⟩ := by
  simp [State.strengthRoomFor, satisfied, unpublished]

theorem strengthRoomFor_published {s : State} {p : Pour} {r : ResultSet} (satisfied : s.gatesSatisfied p = true)
    (live : s.engine.live = some r) :
    s.strengthRoomFor p =
      if p.state = .active then strengthRoomOf (ownRoom s.hull r p.hold (s.holdRoomOf p.hold)) (s.jointRoom? r)
      else ownRoom s.hull r p.hold (s.holdRoomOf p.hold) := by
  simp [State.strengthRoomFor, satisfied, live]

theorem jointRoom?_both {s : State} {a b : Pour} (first : s.activePour .l1 = some a) (second : s.activePour .l2 = some b)
    (r : ResultSet) : s.jointRoom? r = some (jointRoom s.hull r a.hold b.hold) := by
  rw [State.jointRoom?, first, second]

theorem jointRoom?_none {s : State} (missing : s.activePour .l1 = none ∨ s.activePour .l2 = none) (r : ResultSet) :
    s.jointRoom? r = none := by
  unfold State.jointRoom?
  split
  · simp_all
  · rfl

/-- Settles O19, gate by gate and then by what the gates, the live set and the two ACTIVE pours decide. -/
theorem strengthRoomIsDecidedInOrder : Obligations.StrengthRoomIsDecidedInOrder := by
  intro s p
  refine ⟨?_, fun gated => ?_, fun satisfied unpublished => ?_, fun r satisfied live => ⟨fun a b active first second => ?_,
    fun single => ?_⟩⟩
  · simp only [gatesSatisfied_iff, gateSatisfied_iff]
  · rw [strengthRoomFor_gated gated]; exact ⟨rfl, rfl⟩
  · rw [strengthRoomFor_noResult satisfied unpublished]; exact ⟨rfl, rfl⟩
  · rw [strengthRoomFor_published satisfied live, if_pos active, jointRoom?_both first second]; rfl
  · rw [strengthRoomFor_published satisfied live]
    split
    · rename_i active
      rw [jointRoom?_none (single.resolve_left (not_not.mpr active))]; rfl
    · rfl

/-! ### Clearance and time-to-limit (spec 03 R47, R48) -/

/-- Joint room can only lower a strength room. -/
theorem strengthRoomOf_le (own : Room) (joint : Option Room) : (strengthRoomOf own joint).amount ≤ own.amount := by
  cases joint with
  | none => exact Nat.le_refl _
  | some j =>
    rw [strengthRoomOf]
    split
    · rename_i smaller; exact Nat.le_of_lt smaller
    · exact Nat.le_refl _

/-- The hold room is the last candidate of the own room. -/
theorem ownRoom_le (h : Hull) (r : ResultSet) (hold room : Nat) : (ownRoom h r hold room).amount ≤ room := by
  obtain ⟨_, _, least⟩ := ownRoom_firstOfSmallest h r hold room
  exact (least _ ⟨room, plainCause .hold⟩ List.getElem?_concat_length).1

/-- A strength room fits into the hold. -/
theorem strengthRoomFor_le (s : State) (p : Pour) : (s.strengthRoomFor p).amount ≤ s.holdRoomOf p.hold := by
  cases satisfied : s.gatesSatisfied p with
  | false => rw [strengthRoomFor_gated satisfied]; exact Nat.zero_le _
  | true => cases live : s.engine.live with
    | none => rw [strengthRoomFor_noResult satisfied live]; exact Nat.zero_le _
    | some r =>
      have own := ownRoom_le s.hull r p.hold (s.holdRoomOf p.hold)
      rw [strengthRoomFor_published satisfied live]
      split
      · exact (strengthRoomOf_le _ _).trans own
      · exact own

theorem generation_eq (s : State) : s.generation = (s.engine.live.map (·.generation)).getD 0 := by
  cases live : s.engine.live <;> simp [State.generation, live]

theorem rateOfPour_declared {s : State} {p : Pour} (declared : 0 < p.declaredRate) : s.rateOfPour p = p.declaredRate :=
  if_pos declared

theorem rateOfPour_waiting {s : State} {p : Pour} (undeclared : p.declaredRate = 0) (waits : p.state ≠ .active) :
    s.rateOfPour p = 0 := by
  unfold State.rateOfPour
  rw [if_neg (by omega)]
  split
  · contradiction
  · rfl

theorem rateOfPour_estimated {s : State} {p : Pour} {l : Loader} (undeclared : p.declaredRate = 0) (active : p.state = .active)
    (bound : p.loader = .one l) : s.rateOfPour p = (s.pours.estimators.get l).estimate := by
  simp [State.rateOfPour, undeclared, active, bound]

/-- The cause of a clearance is PLAN where the plan remaining is smaller than the strength room, and the room's otherwise. -/
theorem withFigures_cause (s : State) (p : Pour) :
    (p.planned - p.tallied < (s.strengthRoomFor p).amount → (s.withFigures p).cause = plainCause .plan) ∧
      ((s.strengthRoomFor p).amount ≤ p.planned - p.tallied → (s.withFigures p).cause = (s.strengthRoomFor p).cause) :=
  ⟨fun plan => if_pos plan, fun room => if_neg (not_lt.mpr room)⟩

/-- Settles O20, figure by figure. -/
theorem clearanceAndTimeFollowRoomPlanAndRate : Obligations.ClearanceAndTimeFollowRoomPlanAndRate := by
  intro s p q plan
  have fits : (s.strengthRoomFor p).amount ≤ (s.holdData p.hold).maxMass - (s.hold p.hold).current := strengthRoomFor_le s p
  have clearance : q.clearance = min (s.strengthRoomFor p).amount plan := rfl
  obtain ⟨byPlan, byRoom⟩ := withFigures_cause s p
  exact ⟨generation_eq s, rfl, clearance, rfl, byPlan, byRoom, fun noRoom => ⟨by omega, byRoom (by omega)⟩, by omega, by omega, rfl,
    rateOfPour_declared, rateOfPour_waiting, fun l => rateOfPour_estimated⟩

/-! ### Rate estimators (spec 03 R49, spec 06 R101) -/

theorem arrive_closed {e : Estimator} (closed : e.window = none) (falling : Bool) (window : Nat) (now : Second) (amount : Nat) :
    e.arrive falling window now amount = { e with window := some (now, amount) } := by
  rw [Estimator.arrive, closed]

theorem arrive_inside {e : Estimator} {start now : Second} {first window : Nat} (opened : e.window = some (start, first))
    (inside : elapsed start now < window) (falling : Bool) (amount : Nat) : e.arrive falling window now amount = e := by
  simp [Estimator.arrive, opened, inside]

theorem arrive_ended {e : Estimator} {start now : Second} {first window : Nat} (opened : e.window = some (start, first))
    (ended : window ≤ elapsed start now) (falling : Bool) (amount : Nat) :
    e.arrive falling window now amount =
      ⟨some (now, amount), rateOver (if falling then (first : Int) - amount else (amount : Int) - first) (elapsed start now)⟩ := by
  simp [Estimator.arrive, opened, ended]

theorem clamp_zero (hi : Nat) (v : Int) : (clamp 0 hi v : Int) = max 0 (min (hi : Int) v) := by
  unfold clamp; split
  · omega
  · split <;> omega

/-- Settles O21: a closed window, one that is still open, and one that has passed. -/
theorem estimatorMeasuresWholeWindows : Obligations.EstimatorMeasuresWholeWindows := by
  intro e falling window now amount
  refine ⟨fun closed => arrive_closed closed falling window now amount, fun start first opened =>
    ⟨fun inside => arrive_inside opened inside falling amount, fun ended => ?_⟩⟩
  rw [arrive_ended opened ended]
  exact ⟨rfl, clamp_zero 20000 _⟩

end Sys2Proof.Machine
end

