-- ==== Sys2Proof/Proofs/Derivations.lean ====
section
/-! PROOFS. Derivations of a channel (spec 07 R119 to R124, R127, Table 7.4): its tests in their order, and the whole channel that a
derivation leaves. -/

namespace Sys2Proof.Machine

/-! ### One value for each loader -/

@[simp] theorem PerLoader.get_put {α : Type} (p : PerLoader α) (l : Loader) (a : α) : (p.put l a).get l = a := by cases l <;> rfl

@[simp] theorem PerLoader.put_put {α : Type} (p : PerLoader α) (l : Loader) (a b : α) : (p.put l a).put l b = p.put l b := by
  cases l <;> rfl

@[simp] theorem updChannel_channel (l : Loader) (f : Channel → Channel) (s : State) :
    (s.updChannel l f).channel l = f (s.channel l) := PerLoader.get_put _ _ _

theorem updChannel_channel_other {l m : Loader} (other : l ≠ m) (f : Channel → Channel) (s : State) :
    (s.updChannel l f).channel m = s.channel m := by
  cases l <;> cases m
  · exact absurd rfl other
  · rfl
  · rfl
  · exact absurd rfl other

theorem updChannel_updChannel (l : Loader) (f g : Channel → Channel) (s : State) :
    (s.updChannel l f).updChannel l g = s.updChannel l fun c => g (f c) := by
  simp [State.updChannel]

/-! ### The tests in their order (spec 07 Table 7.4) -/

/-- What two lists give pair by pair, some element of it being in question. -/
theorem exists_mem_zipWith {α β γ : Type} (f : α → β → γ) (as : List α) (bs : List β) (P : γ → Prop) :
    (∃ c ∈ List.zipWith f as bs, P c) ↔ ∃ (n : Nat) (a : α) (b : β), as[n]? = some a ∧ bs[n]? = some b ∧ P (f a b) := by
  constructor
  · rintro ⟨c, mem, holds⟩
    obtain ⟨n, at_n⟩ := List.mem_iff_getElem?.mp mem
    obtain ⟨a, b, at_a, at_b, rfl⟩ := List.getElem?_zipWith_eq_some.mp at_n
    exact ⟨n, a, b, at_a, at_b, holds⟩
  · rintro ⟨n, a, b, at_a, at_b, holds⟩
    exact ⟨f a b, List.mem_of_getElem? (List.getElem?_zipWith_eq_some.mpr ⟨a, b, at_a, at_b, rfl⟩), holds⟩

/-- The caution test is that some quantity at CAUTION stands on the side toward which adding to the hold moves it (R123). -/
theorem cautionWorsenedBy_iff (s : State) (r : ResultSet) (hold : Nat) :
    cautionWorsenedBy s.hull r hold = true ↔ s.worsened r (hold - 1) 1 (· = .caution) := by
  simp only [cautionWorsenedBy, influences, State.worsened, List.any_append, Bool.or_eq_true, List.any_flatten,
    List.any_eq_true, exists_mem_zipWith]
  simp [addingWorsens, coefficientAt, holdIndex]

/-- The decision is that of the first test of the list that holds. -/
def decidedBy (tests : List (Prop × LineState × Option ChannelCause)) (d : LineState × Option ChannelCause) : Prop :=
  ∃ (i : Nat) (test : Prop), tests[i]? = some (test, d.1, d.2) ∧ test ∧
    ∀ (j : Nat) (x : Prop × LineState × Option ChannelCause), j < i → tests[j]? = some x → ¬x.1

theorem followsTests_iff (s : State) (l : Loader) :
    s.followsTests l ↔ decidedBy (s.derivationTests l) ((s.channel l).computed, (s.channel l).cause) := Iff.rfl

theorem decidedBy_head {test : Prop} (d : LineState × Option ChannelCause)
    (rest : List (Prop × LineState × Option ChannelCause)) (holds : test) : decidedBy ((test, d) :: rest) d :=
  ⟨0, test, rfl, holds, fun j _ before => absurd before (Nat.not_lt_zero j)⟩

theorem decidedBy_tail {test : Prop} {d e : LineState × Option ChannelCause}
    {rest : List (Prop × LineState × Option ChannelCause)} (fails : ¬test) (later : decidedBy rest d) :
    decidedBy ((test, e) :: rest) d := by
  obtain ⟨i, p, at_i, holds, first⟩ := later
  refine ⟨i + 1, p, at_i, holds, fun j x before at_j => ?_⟩
  cases j with
  | zero => obtain rfl := Option.some.inj at_j; exact fails
  | succ j => exact first j x (Nat.lt_of_succ_lt_succ before) at_j

/-- A conditional decides by its test first. -/
theorem decidedBy_ite {p test : Prop} [Decidable p] {d e : LineState × Option ChannelCause}
    {rest : List (Prop × LineState × Option ChannelCause)} (same : p ↔ test) (later : ¬p → decidedBy rest d) :
    decidedBy ((test, e) :: rest) (if p then e else d) := by
  by_cases holds : p
  · rw [if_pos holds]; exact decidedBy_head e rest (same.mp holds)
  · rw [if_neg holds]; exact decidedBy_tail (fun h => holds (same.mpr h)) (later holds)

theorem cautionTest_iff (s : State) (p : Pour) :
    s.cautionTest p = true ↔ ∃ q, some p = some q ∧ ∃ r, s.engine.live = some r ∧ s.worsened r (q.hold - 1) 1 (· = .caution) := by
  cases live : s.engine.live with
  | none => simp [State.cautionTest, live]
  | some r => simp [State.cautionTest, live, cautionWorsenedBy_iff]

/-- A derivation takes the tests of Table 7.4 in their order (R121). -/
theorem derived_decidedBy (s : State) (l : Loader) : decidedBy (s.derivationTests l) (s.derived l) := by
  unfold State.derived State.derivationTests
  refine decidedBy_ite Iff.rfl fun _ => decidedBy_ite Iff.rfl fun _ => decidedBy_ite (by simp [Option.any_eq_true]) fun _ =>
    decidedBy_ite (by simp [Option.any_eq_true]) fun _ => decidedBy_ite Iff.rfl fun _ => ?_
  cases named : s.channelPour l with
  | none => exact decidedBy_head _ _ rfl
  | some p =>
    refine decidedBy_tail (by simp) (decidedBy_ite ?_ fun _ => decidedBy_ite ?_ fun _ => decidedBy_ite ?_ fun _ =>
      decidedBy_ite ?_ fun _ => decidedBy_ite Iff.rfl fun _ => decidedBy_head _ _ trivial)
    · simp [Pour.planRemaining, Nat.sub_eq_zero_iff_le]
    · simp [State.paceTest]
    · simp [State.marginTest]
    · exact cautionTest_iff s p

/-- Past the FORBID tests a permission needs a pour whose plan is not met. -/
theorem unforbidden_permits {s : State} {c : Channel} {named : Option Pour}
    (permits : (s.unforbidden c named).1 = .pour ∨ (s.unforbidden c named).1 = .reduce) :
    ∃ p, named = some p ∧ p.tallied < p.planned := by
  cases named with
  | none => simp [State.unforbidden] at permits
  | some p =>
    by_cases met : p.planRemaining = 0
    · simp [State.unforbidden, met] at permits
    · exact ⟨p, rfl, Nat.lt_of_sub_ne_zero met⟩

/-- A derivation that permits pouring has found strength room and plan remaining in the channel's current pour. -/
theorem derived_permits {s : State} {l : Loader} (permits : (s.derived l).1 = .pour ∨ (s.derived l).1 = .reduce) :
    ∃ p, s.channelPour l = some p ∧ 0 < p.strengthRoom ∧ p.tallied < p.planned := by
  unfold State.derived at permits
  dsimp only at permits
  split_ifs at permits with _ _ exhausted gated
  case neg =>
    obtain ⟨p, named, unmet⟩ := unforbidden_permits permits
    rw [named] at exhausted gated
    have room : p.strengthRoom ≠ 0 := by simp_all
    exact ⟨p, named, Nat.pos_of_ne_zero room, unmet⟩
  all_goals simp at permits

/-! ### The channel that a derivation leaves -/

/-- The channel with the output that follows, and where its state is a new one the STATE flag and the last forbid cause (R119, R127). -/
def Channel.rewritten (c : Channel) : Channel :=
  let out := c.outputs
  let changed := decide (out.1 ≠ c.output)
  { c with
    output := out.1, outputCause := out.2, stateFlag := c.stateFlag || changed
    lastForbid := if changed = true ∧ out.1 = .forbid then out.2 else c.lastForbid }

/-- The channel on which the tests have been taken with a decision. -/
def Channel.decided (c : Channel) (d : LineState × Option ChannelCause) : Channel :=
  Channel.rewritten { c with computed := d.1, cause := d.2 }

theorem Channel.decided_outputFollows (c : Channel) (d : LineState × Option ChannelCause) : (c.decided d).outputFollows :=
  (outputFollows_iff _).mpr rfl

/-- The state with a channel rewritten, its CLEARANCE slot made due where the output state is a new one. -/
def State.withChannel (s : State) (l : Loader) (before x : Channel) : State :=
  { s with
    channels := s.channels.put l x
    terminal := { s.terminal with due := if decide (x.output ≠ before.output) = true ∧ .clearance l ∉ s.terminal.due then
      s.terminal.due ++ [.clearance l] else s.terminal.due } }

theorem updChannel_withChannel (s : State) (l : Loader) (f : Channel → Channel) (before x : Channel) :
    (s.updChannel l f).withChannel l before x = s.withChannel l before x := by
  simp [State.updChannel, State.withChannel]

theorem rewriteOutput_eq (l : Loader) (s : State) :
    s.rewriteOutput l = s.withChannel l (s.channel l) (s.channel l).rewritten := by
  by_cases same : (s.channels.get l).outputs.1 = (s.channels.get l).output
  · simp [State.rewriteOutput, State.withChannel, Channel.rewritten, State.updChannel, State.channel, same]
  · simp only [State.rewriteOutput, State.withChannel, Channel.rewritten, State.updChannel, State.channel, makeDue_eq,
      ne_eq, same, not_false_eq_true, decide_true, true_and, ite_not, Bool.or_true]
    rfl

/-- The tests taken on a channel rewrite it by their decision. -/
theorem takeTests_eq (l : Loader) (s : State) :
    s.takeTests l = s.withChannel l (s.channel l) ((s.channel l).decided (s.derived l)) := by
  rw [State.takeTests, rewriteOutput_eq, updChannel_withChannel, updChannel_channel]; rfl

/-- The tests of a channel do not read what they decide. -/
theorem withChannel_derivationTests (s : State) (l : Loader) (before : Channel) (d : LineState × Option ChannelCause) :
    (s.withChannel l before ((s.channel l).decided d)).derivationTests l = s.derivationTests l := by
  cases l <;> rfl

theorem withChannel_channelPour (s : State) (l : Loader) (before : Channel) (d : LineState × Option ChannelCause) :
    (s.withChannel l before ((s.channel l).decided d)).channelPour l = s.channelPour l := by
  cases l <;> rfl

/-- From `s` to `t` a channel has been derived, `c` being it with what the command itself stored: it follows its tests, its output
follows, and nothing but its decision, the pour stored and what a new output state marks differs. -/
def State.derives (s : State) (c : Channel) (t : State) (l : Loader) : Prop :=
  let x := t.channel l
  let changed := decide (x.output ≠ c.output)
  t.followsTests l ∧ x.outputFollows ∧
    x = { c with
      currentPour := c.named, computed := x.computed, cause := x.cause, output := x.output, outputCause := x.outputCause
      stateFlag := c.stateFlag || changed
      lastForbid := if changed = true ∧ x.output = .forbid then x.outputCause else c.lastForbid
      gone := c.gone.filter fun p => decide (c.named = some p.sequence) } ∧
    t = { s with
      channels := s.channels.put l x
      terminal := { s.terminal with due := if changed = true ∧ .clearance l ∉ s.terminal.due then
        s.terminal.due ++ [.clearance l] else s.terminal.due } } ∧
    (x.computed = .pour ∨ x.computed = .reduce → ∃ p, t.channelPour l = some p ∧ 0 < p.strengthRoom ∧ p.tallied < p.planned)

/-- A derivation of a channel on which the command has stored something. -/
theorem deriveChannel_derives {s : State} (there : s.hasChannels = true) (l : Loader) (f : Channel → Channel) :
    s.derives (f (s.channel l)) ((s.updChannel l f).deriveChannel l) l := by
  let w := s.updChannel l fun c => (f c).storeNamed
  have stored : w.channel l = (f (s.channel l)).storeNamed := updChannel_channel l _ s
  have derived : (s.updChannel l f).deriveChannel l = w.withChannel l (w.channel l) ((w.channel l).decided (w.derived l)) := by
    rw [← takeTests_eq, State.deriveChannel, if_pos (show (s.updChannel l f).hasChannels = true from there), updChannel_updChannel]
  have rewritten : ((s.updChannel l f).deriveChannel l).channel l = (w.channel l).decided (w.derived l) := by
    rw [derived]; exact PerLoader.get_put _ _ _
  unfold State.derives
  dsimp only
  rw [rewritten, derived, withChannel_channelPour]
  refine ⟨?_, Channel.decided_outputFollows _ _, ?_, ?_, derived_permits⟩
  · rw [followsTests_iff, withChannel_derivationTests, ← derived, rewritten]; exact derived_decidedBy w l
  · rw [stored]; rfl
  · rw [stored, updChannel_withChannel]; rfl

end Sys2Proof.Machine
end

