-- ==== Sys2Proof/Proofs/Computations.lean ====
section
/-! PROOFS. Computations of the Clearance Unit and the commands of the Loader Interlock (spec 03 R51 to R53, spec 07 R122, R124,
spec 08 R138): the figures of the current pours, what they hand on, and the derivations that follow. -/

namespace Sys2Proof.Machine

/-! ### Current pours and their figures -/

theorem currentPour_mem {s : State} {l : Loader} {p : Pour} (current : s.currentPour l = some p) : p ∈ s.pours.list := by
  simp only [State.currentPour, State.activePour, Option.or_eq_some_iff] at current
  obtain active | ⟨-, interrupted | ⟨-, planned⟩⟩ := current
  · exact List.mem_of_find?_eq_some active
  · exact List.mem_of_find?_eq_some interrupted
  · exact List.mem_of_find?_eq_some planned

/-- No two pours of the list share a sequence (R56). -/
theorem State.PoursOk.eq_of_sequence {s : State} (ok : s.PoursOk) {p q : Pour} (hp : p ∈ s.pours.list) (hq : q ∈ s.pours.list)
    (same : p.sequence = q.sequence) : p = q := by
  have distinct : (s.pours.list.map (·.sequence)).Nodup := List.pairwise_map.mpr (ok.1.imp Nat.ne_of_lt)
  exact List.inj_on_of_nodup_map distinct hp hq same

/-- A pour as a computation leaves it: its figures written where it is a current pour. -/
def State.figuresWritten (s : State) (p : Pour) : Pour :=
  if s.currentPour .l1 = some p ∨ s.currentPour .l2 = some p then s.withFigures p else p

theorem figuresWritten_of_current {s : State} {l : Loader} {p : Pour} (current : s.currentPour l = some p) :
    s.figuresWritten p = s.withFigures p := by
  cases l with
  | l1 => exact if_pos (.inl current)
  | l2 => exact if_pos (.inr current)

theorem figuresWritten_sequence (s : State) (p : Pour) : (s.figuresWritten p).sequence = p.sequence := by
  unfold State.figuresWritten; split <;> rfl

theorem figuresWritten_state (s : State) (p : Pour) : (s.figuresWritten p).state = p.state := by
  unfold State.figuresWritten; split <;> rfl

theorem figuresWritten_loader (s : State) (p : Pour) : (s.figuresWritten p).loader = p.loader := by
  unfold State.figuresWritten; split <;> rfl

/-- A computation writes the figures of the current pours and of no other (R52). -/
theorem listWithFigures_eq {s : State} (ok : s.PoursOk) : s.listWithFigures = s.pours.list.map s.figuresWritten := by
  refine List.map_congr_left fun p mem => ?_
  have current (l : Loader) : (∃ q, s.currentPour l = some q ∧ q.sequence = p.sequence) ↔ s.currentPour l = some p :=
    ⟨fun ⟨q, current, same⟩ => ok.eq_of_sequence (currentPour_mem current) mem same ▸ current, fun h => ⟨p, h, rfl⟩⟩
  have named : p.sequence ∈ ([Loader.l1, .l2].filterMap s.currentPour).map (·.sequence) ↔
      s.currentPour .l1 = some p ∨ s.currentPour .l2 = some p := by
    simp [← current, List.mem_filterMap, or_and_right, exists_or]
  simp only [named, State.figuresWritten]

theorem currentPour_congr {s t : State} (pours : t.pours = s.pours) (l : Loader) : t.currentPour l = s.currentPour l := by
  unfold State.currentPour State.activePour; rw [pours]

/-- A list whose pours keep their state and loader has the same current pours. -/
theorem currentPour_map {s t : State} {f : Pour → Pour} (list : t.pours.list = s.pours.list.map f)
    (state : ∀ p, (f p).state = p.state) (loader : ∀ p, (f p).loader = p.loader) (l : Loader) :
    t.currentPour l = (s.currentPour l).map f := by
  simp [State.currentPour, State.activePour, list, List.find?_map, state, loader, Pour.openTo, Option.map_or]

/-! ### What a computation hands on -/

/-- The figures written and one cause taken. -/
def State.figured (s : State) : State :=
  { s with pours.list := s.listWithFigures, pours.computationsOwed := s.pours.computationsOwed - 1 }

/-- The current pours named to both channels. -/
def State.handed (s : State) : State := (s.figured.handCurrentPour .l1).handCurrentPour .l2

theorem compute_eq (s : State) : s.compute = (s.handed.reportStepTest .l1).reportStepTest .l2 := rfl

theorem handed_pours (s : State) : s.handed.pours = s.figured.pours := rfl

theorem figured_currentPour {s : State} (ok : s.PoursOk) (l : Loader) :
    s.figured.currentPour l = (s.currentPour l).map s.figuresWritten :=
  currentPour_map (listWithFigures_eq ok) (figuresWritten_state s) (figuresWritten_loader s) l

theorem handCurrentPour_eq (l : Loader) (s : State) : s.handCurrentPour l = s.updChannel l fun c =>
    { c with named := (s.currentPour l).map (·.sequence), derivationsOwed := c.derivationsOwed + 1 } := by
  rw [State.handCurrentPour, State.oweDerivation, updChannel_updChannel]

theorem handCurrentPour_channel_self (l : Loader) (s : State) : (s.handCurrentPour l).channel l = { s.channel l with
    named := (s.currentPour l).map (·.sequence), derivationsOwed := (s.channel l).derivationsOwed + 1 } := by
  rw [handCurrentPour_eq, updChannel_channel]

theorem handCurrentPour_channel_other {l m : Loader} (other : l ≠ m) (s : State) :
    (s.handCurrentPour l).channel m = s.channel m := by
  rw [handCurrentPour_eq, updChannel_channel_other other]

theorem handed_channel {s : State} (ok : s.PoursOk) (l : Loader) :
    s.handed.channel l = { s.channel l with
      named := (s.currentPour l).map (·.sequence), derivationsOwed := (s.channel l).derivationsOwed + 1 } := by
  have named : (s.figured.currentPour l).map (·.sequence) = (s.currentPour l).map (·.sequence) := by
    simp [figured_currentPour ok, Function.comp_def, figuresWritten_sequence]
  have stood : s.figured.channel l = s.channel l := rfl
  rw [← named, ← stood, State.handed]
  cases l with
  | l1 => rw [handCurrentPour_channel_other (by decide), handCurrentPour_channel_self]
  | l2 =>
    have current : (s.figured.handCurrentPour .l1).currentPour .l2 = s.figured.currentPour .l2 := currentPour_congr rfl .l2
    rw [handCurrentPour_channel_self, handCurrentPour_channel_other (by decide), current]

/-- The clearance that a report of the loader would carry is that of its current pour, or 0. -/
theorem handed_reportedClearance {s : State} (ok : s.PoursOk) (l : Loader) :
    s.handed.reportedClearance l = ((s.currentPour l).map fun p => (s.withFigures p).clearance).getD 0 := by
  have written : s.handed.currentPour l = (s.currentPour l).map s.figuresWritten :=
    (currentPour_congr (handed_pours s) l).trans (figured_currentPour ok l)
  rw [State.reportedClearance, written]
  cases current : s.currentPour l with
  | none => rfl
  | some p => exact congrArg Pour.clearance (figuresWritten_of_current current)

/-- No clearance was sent, or the one last sent lies the report step or more away (R138). -/
def State.clearanceMoved (s : State) (l : Loader) : Prop :=
  ∀ last, s.terminal.lastClearance.get l = some last →
    s.settings.reportStep ≤ max (s.reportedClearance l) last - min (s.reportedClearance l) last

theorem reportStepTest_cases (l : Loader) (s : State) :
    (s.clearanceMoved l → s.reportStepTest l = s.makeDue (.clearance l)) ∧ (¬s.clearanceMoved l → s.reportStepTest l = s) := by
  unfold State.clearanceMoved State.reportStepTest
  cases s.terminal.lastClearance.get l with
  | none => simp
  | some last =>
    simp only [Option.some.injEq, forall_eq']
    exact ⟨fun h => if_pos h, fun h => if_neg h⟩

/-- From `s` to `t` at most the due order differs. -/
def State.onlyDue (s t : State) : Prop := t = { s with terminal := { s.terminal with due := t.terminal.due } }

theorem onlyDue_trans {s t u : State} (h : s.onlyDue t) (k : t.onlyDue u) : s.onlyDue u := by
  unfold State.onlyDue at *; rw [k, h]

theorem State.onlyDue.pours {s t : State} (h : s.onlyDue t) : t.pours = s.pours := by rw [h]

theorem State.onlyDue.channels {s t : State} (h : s.onlyDue t) : t.channels = s.channels := by rw [h]

theorem reportStepTest_onlyDue (l : Loader) (s : State) : s.onlyDue (s.reportStepTest l) := by
  obtain ⟨moved, stood⟩ := reportStepTest_cases l s
  by_cases h : s.clearanceMoved l
  · rw [moved h, makeDue_eq]; rfl
  · rw [stood h]; rfl

/-- From one due order to another the slots that satisfy `P` have joined the tail, but for those that stood in it. -/
def duesGained (due due' : List Slot) (P : Slot → Prop) : Prop :=
  ∃ gained, due' = due ++ gained ∧ gained.Nodup ∧ ∀ x, x ∈ gained ↔ x ∉ due ∧ P x

theorem reportStepTest_gained (l : Loader) (s : State) :
    duesGained s.terminal.due (s.reportStepTest l).terminal.due fun x => x = .clearance l ∧ s.clearanceMoved l := by
  obtain ⟨moved, stood⟩ := reportStepTest_cases l s
  by_cases h : s.clearanceMoved l
  · rw [moved h, makeDue_eq]
    by_cases due : Slot.clearance l ∈ s.terminal.due
    · refine ⟨[], by simp [due], List.nodup_nil, fun x => iff_of_false List.not_mem_nil ?_⟩
      rintro ⟨absent, rfl, -⟩; exact absent due
    · refine ⟨[.clearance l], by simp [due], List.nodup_singleton _, fun x => ?_⟩
      simp only [List.mem_singleton, h, and_true]
      exact ⟨fun same => ⟨same ▸ due, same⟩, And.right⟩
  · rw [stood h]
    exact ⟨[], by simp, List.nodup_nil, by simp [h]⟩

theorem duesGained_trans {a b c : List Slot} {P Q : Slot → Prop} (first : duesGained a b P) (second : duesGained b c Q) :
    duesGained a c fun x => P x ∨ Q x := by
  obtain ⟨xs, rfl, nodup, mem⟩ := first
  obtain ⟨ys, rfl, nodup', mem'⟩ := second
  have apart : xs.Disjoint ys := fun x hx hy => ((mem' x).mp hy).1 (List.mem_append_right a hx)
  refine ⟨xs ++ ys, List.append_assoc _ _ _, nodup.append nodup' apart, fun x => ?_⟩
  rw [List.mem_append, mem', mem, List.mem_append, mem]
  tauto

/-- The report-step test of one loader leaves that of the other as it stood. -/
theorem reportStepTest_clearanceMoved (l m : Loader) (s : State) : (s.reportStepTest l).clearanceMoved m ↔ s.clearanceMoved m := by
  rw [reportStepTest_onlyDue l s]; exact Iff.rfl

/-- A computation makes the CLEARANCE slots due whose clearance has moved. -/
theorem compute_gained (s : State) : duesGained s.terminal.due s.compute.terminal.due fun x =>
    ∃ l, x = .clearance l ∧ s.handed.clearanceMoved l := by
  have both := duesGained_trans (reportStepTest_gained .l1 s.handed) (reportStepTest_gained .l2 (s.handed.reportStepTest .l1))
  simp only [reportStepTest_clearanceMoved] at both
  have loaders (x : Slot) : (∃ l, x = .clearance l ∧ s.handed.clearanceMoved l) ↔
      (x = .clearance .l1 ∧ s.handed.clearanceMoved .l1) ∨ (x = .clearance .l2 ∧ s.handed.clearanceMoved .l2) :=
    ⟨fun ⟨l, h⟩ => by cases l; exacts [.inl h, .inr h], fun h => h.elim (⟨_, ·⟩) (⟨_, ·⟩)⟩
  simp only [loaders]
  exact both

/-- Past the naming of the current pours a computation changes the due order alone. -/
theorem compute_onlyDue (s : State) : s.handed.onlyDue s.compute :=
  onlyDue_trans (reportStepTest_onlyDue .l1 s.handed) (reportStepTest_onlyDue .l2 _)

/-- From `s` to `t` at most the pours, the channels and the due order differ. -/
def State.onlyFigures (s t : State) : Prop :=
  t = { s with pours := t.pours, channels := t.channels, terminal := { s.terminal with due := t.terminal.due } }

theorem onlyFigures_trans {s t u : State} (h : s.onlyFigures t) (k : t.onlyFigures u) : s.onlyFigures u := by
  unfold State.onlyFigures at *; rw [k, h]

theorem State.onlyDue.onlyFigures {s t : State} (h : s.onlyDue t) : s.onlyFigures t := by
  unfold State.onlyFigures; rw [h]

theorem handCurrentPour_onlyFigures (l : Loader) (s : State) : s.onlyFigures (s.handCurrentPour l) := by
  rw [handCurrentPour_eq]; rfl

theorem compute_onlyFigures (s : State) : s.onlyFigures s.compute := by
  have figured : s.onlyFigures s.figured := rfl
  have handed : s.onlyFigures s.handed :=
    onlyFigures_trans (onlyFigures_trans figured (handCurrentPour_onlyFigures .l1 _)) (handCurrentPour_onlyFigures .l2 _)
  exact onlyFigures_trans handed (compute_onlyDue s).onlyFigures

/-! ### The commands -/

theorem exec_clearanceComputation {s : State} {n : Nat} (ready : s.ready = true) (owed : s.pours.computationsOwed = n + 1) :
    exec .clearanceComputation s = .next s.compute :=
  congrArg _ (if_pos ⟨ready, by omega⟩)

theorem exec_channelDerivation {s : State} {l : Loader} {n : Nat} (there : s.hasChannels = true)
    (owed : (s.channel l).derivationsOwed = n + 1) : exec (.channelDerivation l) s = .next (s.takeDerivation l) :=
  congrArg _ (if_pos ⟨there, by omega⟩)

theorem exec_tallyTimerExpiry {s : State} {l : Loader} (ready : s.ready = true) (noPfail : s.pfail = false)
    (passed : expired (s.channel l).deadline s.clock = true) :
    exec (.tallyTimerExpiry l) s = .next (s.expireTallyTimer l) :=
  congrArg _ (if_pos ⟨by simp [State.ballastUp, ready, noPfail], passed⟩)

theorem hasChannels_of_ready {s : State} (ready : s.ready = true) : s.hasChannels = true := by
  simp only [State.ready, Bool.and_eq_true, decide_eq_true_eq] at ready
  simp [State.hasChannels, ready.1, ready.2]

/-- Settles O52: a computation by what it writes, hands on and makes due; a derivation owed and an expiry as derivations of a channel
on which the command has stored something. -/
theorem figuresReachTheLines : Obligations.FiguresReachTheLines := by
  intro s derives
  refine ⟨fun n ready owed ok => ?_, fun l n there owed => ?_, fun settled => ?_, fun l settled => ?_,
    fun l ready noPfail passed => ?_⟩
  · have gained := compute_gained s
    simp only [State.clearanceMoved, handed_reportedClearance ok] at gained
    refine ⟨s.compute, exec_clearanceComputation ready owed, ?_, ?_, ?_, fun l => ?_, gained, ?_⟩
    · rw [(compute_onlyDue s).pours]; exact listWithFigures_eq ok
    · rw [(compute_onlyDue s).pours]; exact congrArg (· - 1) owed
    · rw [(compute_onlyDue s).pours]; rfl
    · rw [State.channel, (compute_onlyDue s).channels]; exact handed_channel ok l
    · exact compute_onlyFigures s
  · have owes : { s.channel l with derivationsOwed := n } =
        { s.channel l with derivationsOwed := (s.channel l).derivationsOwed - 1 } := by rw [owed]; rfl
    exact ⟨s.takeDerivation l, exec_channelDerivation there owed, owes ▸ deriveChannel_derives there l _⟩
  · exact congrArg _ (if_neg (by omega))
  · exact congrArg _ (if_neg (by omega))
  · exact ⟨s.expireTallyTimer l, exec_tallyTimerExpiry ready noPfail passed,
      deriveChannel_derives (hasChannels_of_ready ready) l ({ · with deadline := none, timedOut := true })⟩

end Sys2Proof.Machine
end

