-- ==== Sys2Proof/Proofs/PourList.lean ====
section
/-! PROOFS. The pour list and the hold masses (spec 04 R56, R58, R64, R71, spec 01 R4): on what of the list they rest, and what
each operation of the Pour Controller keeps of them. -/

namespace Sys2Proof.Machine

/-! ### What a hold's mass rests on -/

/-- What a pour adds to a hold that it has been started in: its sequence, whether it is ACTIVE, and its tally (spec 04 R71). -/
def Pour.shareOf (k : Nat) (p : Pour) : Option (Nat × Bool × Nat) :=
  if p.hold = k ∧ p.state ≠ .planned then some (p.sequence, decide (p.state = .active), p.tallied) else none

/-- The shares of a list in a hold, in the order of the list. -/
def sharesIn (l : List Pour) (k : Nat) : List (Nat × Bool × Nat) := l.filterMap (Pour.shareOf k)

theorem shareOf_of_counts {p : Pour} {k : Nat} (counts : p.hold = k ∧ p.state ≠ .planned) :
    p.shareOf k = some (p.sequence, decide (p.state = .active), p.tallied) := if_pos counts

theorem shareOf_of_not_counts {p : Pour} {k : Nat} (not : ¬(p.hold = k ∧ p.state ≠ .planned)) : p.shareOf k = none :=
  if_neg not

theorem shareOf_of_ne {p : Pour} {k : Nat} (other : p.hold ≠ k) : p.shareOf k = none := if_neg fun h => other h.1

theorem shareOf_of_planned {p : Pour} (planned : p.state = .planned) (k : Nat) : p.shareOf k = none :=
  if_neg fun h => h.2 planned

theorem talliesIn_eq_shares (l : List Pour) (k : Nat) : talliesIn l k = ((sharesIn l k).map (·.2.2)).sum := by
  unfold talliesIn sharesIn
  induction l with
  | nil => rfl
  | cons p l ih =>
    by_cases counts : p.hold = k ∧ p.state ≠ .planned
    · rw [List.filter_cons_of_pos (by simpa using counts), List.filterMap_cons_some (shareOf_of_counts counts)]
      simp only [List.map_cons, List.sum_cons, ih]
    · rw [List.filter_cons_of_neg (by simpa using counts), List.filterMap_cons_none (shareOf_of_not_counts counts), ih]

theorem activeIn_eq_shares (l : List Pour) (k : Nat) :
    activeIn l k = ((sharesIn l k).find? (·.2.1)).map (·.1) := by
  unfold activeIn sharesIn
  induction l with
  | nil => rfl
  | cons p l ih =>
    by_cases counts : p.hold = k ∧ p.state ≠ .planned
    · rw [List.filterMap_cons_some (shareOf_of_counts counts)]
      by_cases active : p.state = .active
      · simp [counts.1, active]
      · simpa [active] using ih
    · have idle : ¬(p.hold = k ∧ p.state = .active) := fun h => counts ⟨h.1, by simp [h.2]⟩
      rw [List.filterMap_cons_none (shareOf_of_not_counts counts), List.find?_cons_of_neg (by simpa using idle), ih]

/-- A hold derived anew depends on the list by the shares in that hold alone. -/
theorem derivedFrom_congr {l l' : List Pour} {k : Nat} (same : sharesIn l' k = sharesIn l k) (x : Hold) :
    x.derivedFrom l' k = x.derivedFrom l k := by
  simp only [Hold.derivedFrom, talliesIn_eq_shares, activeIn_eq_shares, same]

/-- Deriving a hold a second time changes nothing. -/
theorem derivedFrom_derivedFrom (x : Hold) (l : List Pour) (k : Nat) :
    (x.derivedFrom l k).derivedFrom l k = x.derivedFrom l k := rfl

/-- A changed list has the same shares in a hold where every pour of it has. -/
theorem sharesIn_map {l : List Pour} {g : Pour → Pour} {k : Nat} (same : ∀ p ∈ l, (g p).shareOf k = p.shareOf k) :
    sharesIn (l.map g) k = sharesIn l k := by
  unfold sharesIn
  rw [List.filterMap_map]
  exact List.filterMap_congr same

/-- A list loses no share in a hold where none of the pours that leave it has one. -/
theorem sharesIn_filter {l : List Pour} {stays : Pour → Bool} {k : Nat}
    (shareless : ∀ p ∈ l, stays p = false → p.shareOf k = none) : sharesIn (l.filter stays) k = sharesIn l k := by
  unfold sharesIn
  rw [List.filterMap_filter]
  refine List.filterMap_congr fun p mem => ?_
  cases leaves : stays p with
  | false => simp [shareless p mem leaves]
  | true => simp

/-! ### Holds that stand by the list -/

/-- Every hold but one stands by its initial mass and the list. No hold has number 0. -/
def State.HoldsOkBut (s : State) (h : Nat) : Prop :=
  ∀ k x, k ≠ h → nth1 s.holds k = some x → x = x.derivedFrom s.pours.list k

theorem holdsOkBut_zero (s : State) : s.HoldsOkBut 0 ↔ s.HoldsOk := by
  constructor
  · exact fun h i x at_ => h (i + 1) x (Nat.succ_ne_zero i) at_
  · intro h k x pos at_
    obtain ⟨i, rfl⟩ := Nat.exists_eq_succ_of_ne_zero pos
    exact h i x at_

theorem State.HoldsOk.but {s : State} (ok : s.HoldsOk) (h : Nat) : s.HoldsOkBut h := fun k x _ at_ => by
  rw [← holdsOkBut_zero] at ok
  cases k with
  | zero => exact absurd at_ (by simp [nth1])
  | succ i => exact ok (i + 1) x (Nat.succ_ne_zero i) at_

/-- Deriving the hold that may not stand by the list makes every hold do so. -/
theorem State.HoldsOkBut.derive {s : State} {h : Nat} (ok : s.HoldsOkBut h) : (s.deriveHold h).HoldsOk := by
  have stands : (s.updHold h (·.derivedFrom s.pours.list h)).HoldsOk := by
    rw [← holdsOkBut_zero]
    intro k x _ at_
    simp only [State.updHold, nth1_modify1] at at_ ⊢
    split at at_
    · rename_i same
      subst same
      obtain ⟨y, -, rfl⟩ := Option.map_eq_some_iff.1 at_
      exact (derivedFrom_derivedFrom y _ _).symm
    · rename_i other
      exact ok k x other at_
  unfold State.deriveHold State.markDirty State.oweComputation
  dsimp only
  split_ifs <;> exact stands

/-! ### Pours that claim no more than before -/

/-- `q`, which `p` has become, is ACTIVE, started and bound only as `p` was. -/
def Pour.yields (p q : Pour) : Prop :=
  (q.state = .active → p.state = .active ∧ q.hold = p.hold) ∧
    (q.state = .active ∨ q.state = .interrupted → (p.state = .active ∨ p.state = .interrupted) ∧ q.loader = p.loader)

/-- A pour that keeps its state, its hold and its loader claims no more. -/
theorem yields_of_same {p q : Pour} (state : q.state = p.state) (hold : q.hold = p.hold) (loader : q.loader = p.loader) :
    p.yields q := ⟨fun h => ⟨state ▸ h, hold⟩, fun h => ⟨state ▸ h, loader⟩⟩

/-- A PLANNED or DONE pour claims nothing. -/
theorem yields_of_idle {p q : Pour} (active : q.state ≠ .active) (interrupted : q.state ≠ .interrupted) : p.yields q :=
  ⟨fun h => absurd h active, fun h => h.elim (absurd · active) (absurd · interrupted)⟩

theorem Pour.yields.heldBy {p q : Pour} (y : p.yields q) {l : Loader} (h : q.heldBy l) : p.heldBy l := by
  obtain ⟨bound, runs⟩ := h
  obtain ⟨ran, same⟩ := y.2 runs
  exact ⟨same ▸ bound, ran⟩

/-- Where no pour claims more than before, the bindings stand. -/
theorem startedOk_map {s t : State} {g : Pour → Pour} (list : t.pours.list = s.pours.list.map g)
    (yields : ∀ p ∈ s.pours.list, p.yields (g p)) (ok : s.StartedOk) : t.StartedOk := by
  obtain ⟨bound, apart, alone⟩ := ok
  unfold State.StartedOk
  simp only [list, List.forall_mem_map, List.pairwise_map]
  refine ⟨fun p mem runs => ?_, fun l => (apart l).imp_of_mem fun hp hq free h => ?_, alone.imp_of_mem fun hp hq free h => ?_⟩
  · obtain ⟨ran, same⟩ := (yields p mem).2 runs
    rw [same]; exact bound p mem ran
  · exact free ⟨(yields _ hp).heldBy h.1, (yields _ hq).heldBy h.2⟩
  · obtain ⟨first, second, hold⟩ := h
    obtain ⟨was, same⟩ := (yields _ hp).1 first
    obtain ⟨was', same'⟩ := (yields _ hq).1 second
    exact free ⟨was, was', same ▸ same' ▸ hold⟩

/-- A list whose pours keep their sequences keeps its order. -/
theorem poursOk_map {s t : State} {g : Pour → Pour} (list : t.pours.list = s.pours.list.map g)
    (sequence : ∀ p, (g p).sequence = p.sequence) (ok : s.PoursOk) : t.PoursOk := by
  obtain ⟨sorted, short, range⟩ := ok
  unfold State.PoursOk
  simp only [list, List.forall_mem_map, List.pairwise_map, List.length_map, sequence]
  exact ⟨sorted, short, range⟩

/-! ### States between which the list and the masses are kept -/

/-- From `s` to `t` the pour list and its bindings are kept, and the hold masses but for that of one hold. -/
def State.keepsPoursBut (h : Nat) (s t : State) : Prop :=
  s.PoursOk → t.PoursOk ∧ (s.StartedOk → t.StartedOk) ∧ (s.HoldsOkBut h → t.HoldsOkBut h)

/-- From `s` to `t` the pour list, its bindings and the hold masses are kept. -/
def State.keepsPours (s t : State) : Prop :=
  s.PoursOk → t.PoursOk ∧ (s.StartedOk → t.StartedOk) ∧ (s.HoldsOk → t.HoldsOk)

theorem keepsPours_refl (s : State) : s.keepsPours s := fun ok => ⟨ok, id, id⟩

theorem keepsPours_trans {s t u : State} (first : s.keepsPours t) (second : t.keepsPours u) : s.keepsPours u := fun ok =>
  have ⟨pours, started, holds⟩ := first ok
  have ⟨pours', started', holds'⟩ := second pours
  ⟨pours', started' ∘ started, holds' ∘ holds⟩

theorem keepsPoursBut_trans {h : Nat} {s t u : State} (first : s.keepsPoursBut h t) (second : t.keepsPoursBut h u) :
    s.keepsPoursBut h u := fun ok =>
  have ⟨pours, started, holds⟩ := first ok
  have ⟨pours', started', holds'⟩ := second pours
  ⟨pours', started' ∘ started, holds' ∘ holds⟩

/-- What keeps the mass of every hold but one keeps them all once that hold is derived. -/
theorem State.keepsPoursBut.derive {h : Nat} {s t : State} (k : s.keepsPoursBut h t) : s.keepsPours (t.deriveHold h) := by
  intro ok
  obtain ⟨pours, started, holds⟩ := k ok
  have list : (t.deriveHold h).pours.list = t.pours.list := by
    unfold State.deriveHold State.markDirty State.oweComputation
    dsimp only
    split_ifs <;> rfl
  refine ⟨?_, fun was => ?_, fun was => (holds (was.but h)).derive⟩
  · unfold State.PoursOk; rw [list]; exact pours
  · unfold State.StartedOk; rw [list]; exact started was

theorem keepsPours_iff_but_zero {s t : State} : s.keepsPours t ↔ s.keepsPoursBut 0 t := by
  simp only [State.keepsPours, State.keepsPoursBut, holdsOkBut_zero]

/-! ### Operations that leave the list and the holds as they stand -/

/-- `t` has the holds and the pour list of `s`. -/
def State.samePours (s t : State) : Prop := (t.holds, t.pours.list) = (s.holds, s.pours.list)

theorem samePours_trans {s t u : State} (h : s.samePours t) (k : t.samePours u) : s.samePours u := Eq.trans k h

theorem State.samePours.keepsBut {s t : State} (same : s.samePours t) (h : Nat) : s.keepsPoursBut h t := by
  obtain ⟨holds, list⟩ := Prod.mk.inj same
  unfold State.keepsPoursBut State.PoursOk State.StartedOk State.HoldsOkBut
  rw [holds, list]
  exact fun ok => ⟨ok, id, id⟩

theorem State.samePours.keeps {s t : State} (same : s.samePours t) : s.keepsPours t :=
  keepsPours_iff_but_zero.2 (same.keepsBut 0)

theorem BallastFrame.samePours {s t : State} (h : BallastFrame s t) : s.samePours t := by
  unfold State.samePours; rw [h.rest]

theorem State.onlyChannels.samePours {s t : State} (h : s.onlyChannels t) : s.samePours t := by
  unfold State.samePours; rw [h]

theorem markDirty_samePours (s : State) : s.samePours s.markDirty := guarded_keeps rfl rfl

theorem oweComputation_samePours (s : State) : s.samePours s.oweComputation := guarded_keeps rfl rfl

theorem makeDue_samePours (x : Slot) (s : State) : s.samePours (s.makeDue x) := (makeDue_onlyChannels s x).samePours

theorem placeReply_samePours (r : NoticeReply) (s : State) : s.samePours (s.placeReply r) := guarded_keeps rfl rfl

theorem setEstimator_samePours (l : Loader) (e : Estimator) (s : State) : s.samePours (s.setEstimator l e) :=
  guarded_keeps (p := e.estimate = (s.pours.estimators.get l).estimate) rfl
    (oweComputation_samePours { s with pours.estimators := s.pours.estimators.put l e })

theorem noteEnd_samePours (l : Loader) (n : Nat) (s : State) : s.samePours (s.noteEnd l n) := by
  unfold State.noteEnd; split <;> rfl

theorem updHold_keepsBut (h : Nat) (f : Hold → Hold) (s : State) : s.keepsPoursBut h (s.updHold h f) := by
  refine fun ok => ⟨ok, id, fun stand k x other at_ => stand k x other ?_⟩
  simpa only [State.updHold, nth1_modify1, if_neg other] using at_

/-! ### Changes of pours -/

/-- A change of the list keeps all but a hold's mass where no pour claims more and no other hold's share changes. -/
theorem map_keepsPoursBut {s t : State} {g : Pour → Pour} {h : Nat} (list : t.pours.list = s.pours.list.map g)
    (holds : t.holds = s.holds) (sequence : ∀ p, (g p).sequence = p.sequence)
    (yields : ∀ p ∈ s.pours.list, p.yields (g p))
    (shares : ∀ p ∈ s.pours.list, ∀ k, k ≠ h → (g p).shareOf k = p.shareOf k) : s.keepsPoursBut h t := by
  refine fun ok => ⟨poursOk_map list sequence ok, startedOk_map list yields, fun stand k x other at_ => ?_⟩
  rw [list, derivedFrom_congr (sharesIn_map fun p mem => shares p mem k other)]
  exact stand k x other (holds ▸ at_)

/-- A pour that keeps its sequence, hold, loader, state and tally keeps what the list and the masses rest on. -/
def Pour.sameCore (p q : Pour) : Prop :=
  (q.sequence, q.hold, q.loader, q.state, q.tallied) = (p.sequence, p.hold, p.loader, p.state, p.tallied)

theorem sameCore_map_keepsBut {s t : State} {g : Pour → Pour} {h : Nat} (list : t.pours.list = s.pours.list.map g)
    (holds : t.holds = s.holds) (core : ∀ p : Pour, p.sameCore (g p)) : s.keepsPoursBut h t := by
  simp only [Pour.sameCore, Prod.mk.injEq] at core
  refine map_keepsPoursBut list holds (fun p => (core p).1) (fun p _ => ?_) (fun p _ k _ => ?_)
  · obtain ⟨-, hold, loader, state, -⟩ := core p
    exact yields_of_same state hold loader
  · obtain ⟨sequence, hold, -, state, tallied⟩ := core p
    simp only [Pour.shareOf, sequence, hold, state, tallied]

/-- A change of one pour of a hold that claims no more keeps all but that hold's mass. -/
theorem updPour_keepsBut {s : State} {n h : Nat} {f : Pour → Pour} (sequence : ∀ p, (f p).sequence = p.sequence)
    (hold : ∀ p ∈ s.pours.list, p.sequence = n → p.hold = h ∧ (f p).hold = h)
    (yields : ∀ p ∈ s.pours.list, p.sequence = n → p.yields (f p)) : s.keepsPoursBut h (s.updPour n f) := by
  refine map_keepsPoursBut rfl rfl (fun p => ?_) (fun p mem => ?_) (fun p mem k other => ?_)
  · split
    · exact sequence p
    · rfl
  · split
    · rename_i named; exact yields p mem named
    · exact yields_of_same rfl rfl rfl
  · split
    · rename_i named
      obtain ⟨was, is⟩ := hold p mem named
      rw [shareOf_of_ne (by rw [is]; exact other.symm), shareOf_of_ne (by rw [was]; exact other.symm)]
    · rfl

/-! ### The pour of a sequence -/

/-- The pour that a sequence names stands in the list with that sequence. -/
theorem mem_of_pour {s : State} {n : Nat} {p : Pour} (named : s.pour n = some p) : p ∈ s.pours.list ∧ p.sequence = n :=
  ⟨List.mem_of_find?_eq_some named, by simpa using List.find?_some named⟩

/-- In a list that shares no sequence each pour is the one that its sequence names. -/
theorem State.PoursOk.pour_eq {s : State} (ok : s.PoursOk) {p : Pour} (mem : p ∈ s.pours.list) :
    s.pour p.sequence = some p := by
  obtain ⟨q, found⟩ := Option.isSome_iff_exists.1
    (List.find?_isSome (p := fun q : Pour => decide (q.sequence = p.sequence)).2 ⟨p, mem, by simp⟩)
  obtain ⟨hq, same⟩ := mem_of_pour found
  rw [State.pour, found, ok.eq_of_sequence hq mem same]

theorem pour_eq_none_iff {s : State} {n : Nat} : s.pour n = none ↔ ∀ p ∈ s.pours.list, p.sequence ≠ n := by
  simp [State.pour]

/-- The ACTIVE pour of a loader stands in the list, ACTIVE and bound to it. -/
theorem mem_of_activePour {s : State} {l : Loader} {p : Pour} (active : s.activePour l = some p) :
    p ∈ s.pours.list ∧ p.state = .active ∧ p.loader = .one l :=
  ⟨List.mem_of_find?_eq_some active, by simpa using List.find?_some active⟩

theorem activePour_eq_none_iff {s : State} {l : Loader} :
    s.activePour l = none ↔ ∀ p ∈ s.pours.list, ¬(p.state = .active ∧ p.loader = .one l) := by
  simp [State.activePour]

/-! ### Tallies and ends (spec 04 R65 to R69) -/

/-- A tally, or the end of the pour, changes the mass of the pour's hold alone. -/
theorem updPour_of_mem_keepsBut {s : State} {p : Pour} (mem : p ∈ s.pours.list) {f : Pour → Pour}
    (sequence : ∀ q, (f q).sequence = q.sequence) (hold : ∀ q, (f q).hold = q.hold) (yields : ∀ q : Pour, q.yields (f q)) :
    s.keepsPoursBut p.hold (s.updPour p.sequence f) := fun ok =>
  updPour_keepsBut sequence (fun q hq named => by rw [hold, ok.eq_of_sequence hq mem named]; exact ⟨rfl, rfl⟩)
    (fun q _ _ => yields q) ok

/-- A change of the pour of a sequence, and another of the same pour, are one change. -/
theorem updPour_updPour {f : Pour → Pour} (sequence : ∀ q, (f q).sequence = q.sequence) (n : Nat) (g : Pour → Pour)
    (s : State) : (s.updPour n f).updPour n g = s.updPour n fun q => g (f q) := by
  have twice (q : Pour) : (if (if q.sequence = n then f q else q).sequence = n then
      g (if q.sequence = n then f q else q) else if q.sequence = n then f q else q) = if q.sequence = n then g (f q) else q := by
    by_cases named : q.sequence = n <;> simp [named, sequence]
  simp only [State.updPour, List.map_map, Function.comp_def, twice]

/-- The pour of a sequence once it is changed. -/
theorem pour_updPour {s : State} {n : Nat} {p : Pour} (named : s.pour n = some p) {f : Pour → Pour}
    (sequence : ∀ q, (f q).sequence = q.sequence) : (s.updPour n f).pour n = some (f p) := by
  have same : ((fun q : Pour => decide (q.sequence = n)) ∘ fun q => if q.sequence = n then f q else q) =
      fun q => decide (q.sequence = n) := by
    funext q
    by_cases here : q.sequence = n <;> simp [here, sequence]
  rw [State.pour] at named ⊢
  simp only [State.updPour, List.find?_map, same, named]
  simp [show p.sequence = n by simpa using List.find?_some named]

/-- The overrun test of a pour has failed for the first time (R67). -/
def State.overruns (s : State) (p : Pour) : Bool :=
  decide (p.planned + s.settings.overrun < p.tallied ∧ p.overrunReported = false)

/-- A pour once its overrun test has been made: marked where it has failed now or before. -/
def Pour.tested (failed : Bool) (p : Pour) : Pour := { p with overrunReported := p.overrunReported || failed }

/-- A channel once the overrun test of its loader's pour has been made. -/
def Channel.tested (failed : Bool) (c : Channel) : Channel := { c with overrunFlag := c.overrunFlag || failed }

/-- A pour at a tallied mass. -/
def Pour.talliedAt (amount : Nat) (p : Pour) : Pour := { p with tallied := amount }

/-- A pour that has ended. -/
def Pour.ended (p : Pour) : Pour := { p with state := .done }

theorem Pour.tested_false : Pour.tested false = id := funext fun p => by simp [Pour.tested]

theorem Pour.tested_true : Pour.tested true = ({ · with overrunReported := true }) := funext fun p => by simp [Pour.tested]

theorem Channel.tested_false : Channel.tested false = id := funext fun c => by simp [Channel.tested]

theorem Channel.tested_true : Channel.tested true = ({ · with overrunFlag := true }) := funext fun c => by
  simp [Channel.tested]

theorem updPour_id (n : Nat) (s : State) : s.updPour n id = s := by simp [State.updPour]

theorem updChannel_id (l : Loader) (s : State) : s.updChannel l id = s := by cases l <;> rfl

/-- The overrun test marks the pour and its loader's channel where it fails for the first time, and changes nothing else. -/
theorem overrunTest_eq {s : State} {n : Nat} {p : Pour} (named : s.pour n = some p) (l : Loader) :
    s.overrunTest l n = (s.updPour n (Pour.tested (s.overruns p))).updChannel l (Channel.tested (s.overruns p)) := by
  unfold State.overrunTest
  rw [named]
  by_cases fails : p.planned + s.settings.overrun < p.tallied ∧ p.overrunReported = false
  · rw [State.overruns, decide_eq_true fails, Pour.tested_true, Channel.tested_true]
    exact if_pos fails
  · rw [State.overruns, decide_eq_false fails, Pour.tested_false, Channel.tested_false, updPour_id, updChannel_id]
    exact if_neg fails

theorem overrunTest_keepsPours (l : Loader) (n : Nat) (s : State) : s.keepsPours (s.overrunTest l n) := by
  cases named : s.pour n with
  | none => rw [State.overrunTest, named]; exact keepsPours_refl s
  | some p =>
    rw [overrunTest_eq named]
    refine keepsPours_trans (t := s.updPour n (Pour.tested (s.overruns p))) ?_ (show State.samePours _ _ from rfl).keeps
    refine keepsPours_iff_but_zero.2 (sameCore_map_keepsBut rfl rfl fun q => ?_)
    split <;> rfl

theorem acceptTally_keepsPours (l : Loader) {p : Pour} (amount : Nat) {s : State} (mem : p ∈ s.pours.list) :
    s.keepsPours (s.acceptTally l p amount) := by
  have tallied : s.keepsPoursBut p.hold (s.updPour p.sequence ({ · with tallied := amount })) :=
    updPour_of_mem_keepsBut mem (fun _ => rfl) (fun _ => rfl) fun _ => yields_of_same rfl rfl rfl
  have handed (t : State) : t.samePours (t.startTallyTimer l).oweComputation := oweComputation_samePours _
  exact keepsPours_trans tallied.derive (keepsPours_trans (setEstimator_samePours l _ _).keeps
    (keepsPours_trans (overrunTest_keepsPours l _ _) (handed _).keeps))

/-- A final tally at or above the tallied mass is taken by the pour, and tested for overrun (R68). -/
theorem takeFinal_eq_taken {s : State} {p : Pour} {final : Int} (named : s.pour p.sequence = some p)
    (least : (p.tallied : Int) ≤ amountOf final) (l : Loader) :
    s.takeFinal l p final =
      let overran := s.overruns (p.talliedAt (amountOf final).toNat)
      (s.updPour p.sequence fun q => (q.talliedAt (amountOf final).toNat).tested overran).updChannel l (Channel.tested overran) := by
  have kept (q : Pour) : (q.talliedAt (amountOf final).toNat).sequence = q.sequence := rfl
  refine (if_pos least).trans ((overrunTest_eq (pour_updPour named kept) l).trans ?_)
  exact congrArg (State.updChannel l _) (updPour_updPour kept _ _ s)

/-- A pour as the final tally of the pour `p` leaves it: taken and tested where it is at or above the tallied mass (R68). -/
def State.atFinal (s : State) (p : Pour) (final : Int) (q : Pour) : Pour :=
  if (p.tallied : Int) ≤ amountOf final then
    (q.talliedAt (amountOf final).toNat).tested (s.overruns (p.talliedAt (amountOf final).toNat))
  else q

/-- The channel as the final tally of its loader's pour leaves it: OVERRUN or TALLY FAULT SET where it is (R66 to R68). -/
def State.channelAtFinal (s : State) (p : Pour) (final : Int) (c : Channel) : Channel :=
  { c with
    overrunFlag := c.overrunFlag ||
      (decide ((p.tallied : Int) ≤ amountOf final) && s.overruns (p.talliedAt (amountOf final).toNat))
    tallyFaultFlag := c.tallyFaultFlag || decide (amountOf final < p.tallied) }

/-- The final tally changes neither the sequence nor the hold of a pour. -/
theorem atFinal_kept (s : State) (p : Pour) (final : Int) (q : Pour) :
    (s.atFinal p final q).sequence = q.sequence ∧ (s.atFinal p final q).hold = q.hold := by
  unfold State.atFinal; split <;> exact ⟨rfl, rfl⟩

/-- The pour ended at its final tally: one change of the pour, and one of its loader's channel. -/
theorem takeFinal_ended {s : State} {p : Pour} (named : s.pour p.sequence = some p) (l : Loader) (final : Int) :
    (s.takeFinal l p final).updPour p.sequence Pour.ended =
      (s.updPour p.sequence fun q => (s.atFinal p final q).ended).updChannel l (s.channelAtFinal p final) := by
  unfold State.atFinal
  by_cases least : (p.tallied : Int) ≤ amountOf final
  · let taken (q : Pour) : Pour :=
      (q.talliedAt (amountOf final).toNat).tested (s.overruns (p.talliedAt (amountOf final).toNat))
    have channel : s.channelAtFinal p final = Channel.tested (s.overruns (p.talliedAt (amountOf final).toNat)) :=
      funext fun c => by simp [State.channelAtFinal, Channel.tested, least, Int.not_lt.2 least]
    simp only [takeFinal_eq_taken named least, if_pos least, channel]
    exact congrArg (State.updChannel l _) (updPour_updPour (f := taken) (fun _ => rfl) _ _ s)
  · have channel : s.channelAtFinal p final = ({ · with tallyFaultFlag := true }) :=
      funext fun c => by simp [State.channelAtFinal, least, Int.not_le.1 least]
    have held : s.takeFinal l p final = s.tallyFault l := if_neg least
    simp only [held, if_neg least, channel]
    rfl

/-- A pour ended changes the mass of its own hold alone. -/
theorem ended_keepsBut {s : State} {p : Pour} (mem : p ∈ s.pours.list) {f : Pour → Pour}
    (ends : ∀ q, (f q).sequence = q.sequence ∧ (f q).hold = q.hold ∧ (f q).state = .done) :
    s.keepsPoursBut p.hold (s.updPour p.sequence f) :=
  updPour_of_mem_keepsBut mem (fun q => (ends q).1) (fun q => (ends q).2.1) fun q =>
    yields_of_idle (by simp [(ends q).2.2]) (by simp [(ends q).2.2])

theorem endActive_keepsPours (l : Loader) {p : Pour} (final : Int) {s : State} (mem : p ∈ s.pours.list) :
    s.keepsPours (s.endActive l p final) := by
  intro ok
  have done : s.keepsPoursBut p.hold ((s.takeFinal l p final).updPour p.sequence Pour.ended) := by
    rw [takeFinal_ended (ok.pour_eq mem)]
    have ends := ended_keepsBut mem (f := fun q => (s.atFinal p final q).ended) fun q =>
      ⟨(atFinal_kept s p final q).1, (atFinal_kept s p final q).2, rfl⟩
    exact keepsPoursBut_trans ends ((show State.samePours _ _ from rfl).keepsBut _)
  have handed (t : State) : t.samePours ((((t.noteEnd l p.sequence).makeDue (.pourSummary l)).stopTallyTimer l).oweComputation) :=
    samePours_trans (noteEnd_samePours l _ t) (samePours_trans (makeDue_samePours _ _) (oweComputation_samePours _))
  exact keepsPours_trans done.derive (keepsPours_trans (setEstimator_samePours l _ _).keeps (handed _).keeps) ok

theorem closePour_keepsPours {p : Pour} {s : State} (mem : p ∈ s.pours.list) : s.keepsPours (s.closePour p) := by
  have ended : s.keepsPoursBut p.hold (s.updPour p.sequence Pour.ended) := ended_keepsBut mem fun q => ⟨rfl, rfl, rfl⟩
  refine keepsPours_trans ended.derive (samePours_trans ?_ (oweComputation_samePours _)).keeps
  split
  · exact setEstimator_samePours _ _ _
  · rfl

/-! ### Leaving and joining the list (spec 04 R56, R60, R70) -/

theorem removePour_keepsPours {p : Pour} {s : State} (mem : p ∈ s.pours.list) : s.keepsPours (s.removePour p) := by
  have folded : s.keepsPoursBut p.hold (if p.state = .planned then s.keepGone p else (s.keepGone p).fold p.hold p.tallied) := by
    split
    · exact (show s.samePours (s.keepGone p) from rfl).keepsBut _
    · exact keepsPoursBut_trans ((show s.samePours (s.keepGone p) from rfl).keepsBut _) (updHold_keepsBut _ _ _)
  have left (t : State) (list : t.pours.list = s.pours.list) : s.PoursOk →
      t.keepsPoursBut p.hold { t with pours.list := t.pours.list.filter fun q => decide (q.sequence ≠ p.sequence) } := by
    rintro distinct ⟨sorted, short, range⟩
    refine ⟨⟨sorted.filter _, (List.length_filter_le _ _).trans short, fun q hq => range q (List.mem_filter.1 hq).1⟩, ?_,
      fun stand k x other at_ => ?_⟩
    · rintro ⟨bound, apart, alone⟩
      exact ⟨fun q hq => bound q (List.mem_filter.1 hq).1, fun l => (apart l).filter _, alone.filter _⟩
    · have kept : sharesIn (t.pours.list.filter fun q => decide (q.sequence ≠ p.sequence)) k = sharesIn t.pours.list k := by
        refine sharesIn_filter fun q hq leaves => ?_
        obtain rfl : q = p := distinct.eq_of_sequence (list ▸ hq) mem (by simpa using leaves)
        exact shareOf_of_ne other.symm
      rw [derivedFrom_congr kept]
      exact stand k x other at_
  intro ok
  refine keepsPours_trans (keepsPoursBut_trans folded (left _ ?_ ok)).derive (oweComputation_samePours _).keeps ok
  split <;> rfl

/-- A pour placed in the list joins it, whatever its place. -/
theorem insertPour_perm (p : Pour) (l : List Pour) : (insertPour p l).Perm (p :: l) := by
  induction l with
  | nil => exact .refl _
  | cons q qs ih =>
    unfold insertPour
    split
    · exact .refl _
    · exact (ih.cons q).trans (.swap p q qs)

/-- A pour of a new sequence takes its place in the ascending order. -/
theorem insertPour_sorted {p : Pour} {l : List Pour} (sorted : l.Pairwise fun a b => a.sequence < b.sequence)
    (fresh : ∀ q ∈ l, q.sequence ≠ p.sequence) : (insertPour p l).Pairwise fun a b => a.sequence < b.sequence := by
  induction l with
  | nil => exact List.pairwise_singleton _ _
  | cons q qs ih =>
    obtain ⟨least, rest⟩ := List.pairwise_cons.1 sorted
    unfold insertPour
    split
    · rename_i before
      refine List.pairwise_cons.2 ⟨fun r mem => ?_, sorted⟩
      obtain rfl | mem := List.mem_cons.1 mem
      · exact before
      · exact before.trans (least r mem)
    · rename_i after
      refine List.pairwise_cons.2 ⟨fun r mem => ?_, ih rest fun r hr => fresh r (.tail _ hr)⟩
      obtain rfl | mem := List.mem_cons.1 ((insertPour_perm p qs).mem_iff.1 mem)
      · exact lt_of_le_of_ne (Nat.not_lt.1 after) (fresh q (.head _))
      · exact least r mem

/-- A PLANNED pour placed in the list has no share in any hold. -/
theorem sharesIn_insertPour {p : Pour} (planned : p.state = .planned) (l : List Pour) (k : Nat) :
    sharesIn (insertPour p l) k = sharesIn l k := by
  unfold sharesIn
  induction l with
  | nil => exact List.filterMap_cons_none (shareOf_of_planned planned k)
  | cons q qs ih =>
    unfold insertPour
    split
    · exact List.filterMap_cons_none (shareOf_of_planned planned k)
    · simp only [List.filterMap_cons, ih]

/-- A PLANNED pour of a new sequence joins a list that is not full. -/
theorem insertPour_keepsPours {s t : State} {p : Pour} (list : t.pours.list = insertPour p s.pours.list)
    (holds : t.holds = s.holds) (planned : p.state = .planned) (fresh : s.pour p.sequence = none)
    (range : 1 ≤ p.sequence ∧ p.sequence ≤ 999) (room : s.pours.list.length < 48) : s.keepsPours t := by
  have perm := insertPour_perm p s.pours.list
  rintro ⟨sorted, short, ranges⟩
  refine ⟨⟨?_, ?_, ?_⟩, ?_, fun stand => ?_⟩
  · rw [list]; exact insertPour_sorted sorted (pour_eq_none_iff.1 fresh)
  · rw [list, perm.length_eq]; exact room
  · rw [list]
    simp only [perm.mem_iff, List.forall_mem_cons]
    exact ⟨range, ranges⟩
  · rintro ⟨bound, apart, alone⟩
    have idle (l : Loader) : ¬p.heldBy l := fun ⟨_, runs⟩ => by simp [planned] at runs
    unfold State.StartedOk
    rw [list]
    simp only [perm.mem_iff, List.forall_mem_cons]
    refine ⟨⟨by simp [planned], bound⟩, fun l => ?_, ?_⟩
    · rw [perm.pairwise_iff fun {a b} h k => h k.symm, List.pairwise_cons]
      exact ⟨fun q _ h => idle l h.1, apart l⟩
    · rw [perm.pairwise_iff fun {a b} h k => h ⟨k.2.1, k.1, k.2.2.symm⟩, List.pairwise_cons]
      exact ⟨fun q _ h => by simp [planned] at h, alone⟩
  · rw [← holdsOkBut_zero] at stand ⊢
    intro k x pos at_
    rw [list, derivedFrom_congr (sharesIn_insertPour planned _ k)]
    exact stand k x pos (holds ▸ at_)

end Sys2Proof.Machine
end

