-- ==== Sys2Proof/Proofs/CurrentPour.lean ====
section
/-! PROOFS. The current pour of a loader (spec 04 R58) and the checks of a POUR START in their order (spec 04 R63, Table 4.5). -/

namespace Sys2Proof.Machine

/-! ### The current pour -/

/-- In ascending order the first pour of a kind is the one of lowest sequence. -/
theorem sequence_le_of_find? {l : List Pour} (sorted : l.Pairwise fun a b => a.sequence < b.sequence) {f : Pour → Bool}
    {p : Pour} (found : l.find? f = some p) {q : Pour} (mem : q ∈ l) (fits : f q = true) : p.sequence ≤ q.sequence := by
  obtain ⟨-, before, after, rfl, earlier⟩ := List.find?_eq_some_iff_append.1 found
  obtain ⟨-, rest, -⟩ := List.pairwise_append.1 sorted
  obtain prior | later := List.mem_append.1 mem
  · exact absurd fits (by simpa using earlier q prior)
  · obtain rfl | later := List.mem_cons.1 later
    · exact le_rfl
    · exact (List.rel_of_pairwise_cons rest later).le

/-- The loader's INTERRUPTED pour. -/
def State.interruptedPour (s : State) (l : Loader) : Option Pour :=
  s.pours.list.find? fun p => decide (p.state = .interrupted ∧ p.loader = .one l)

/-- The first PLANNED pour that is open to the loader. -/
def State.nextPlanned (s : State) (l : Loader) : Option Pour :=
  s.pours.list.find? fun p => decide (p.state = .planned) && p.openTo l

theorem currentPour_eq (s : State) (l : Loader) :
    s.currentPour l = (s.activePour l).or ((s.interruptedPour l).or (s.nextPlanned l)) := rfl

theorem interruptedPour_eq_none_iff {s : State} {l : Loader} :
    s.interruptedPour l = none ↔ ∀ p ∈ s.pours.list, ¬(p.state = .interrupted ∧ p.loader = .one l) := by
  simp [State.interruptedPour]

theorem nextPlanned_eq_none_iff {s : State} {l : Loader} :
    s.nextPlanned l = none ↔ ∀ p ∈ s.pours.list, ¬(p.state = .planned ∧ (p.loader = .one l ∨ p.loader = .either)) := by
  simp [State.nextPlanned, Pour.openTo]

/-- Which pour a current pour is, by the step of R58 that chose it. -/
theorem currentPour_cases {s : State} (ok : s.PoursOk) {l : Loader} {p : Pour} (current : s.currentPour l = some p) :
    (p.state = .active ∧ p.loader = .one l) ∨
      (p.state = .interrupted ∧ p.loader = .one l ∧ ∀ q ∈ s.pours.list, ¬(q.state = .active ∧ q.loader = .one l)) ∨
      (p.state = .planned ∧ (p.loader = .one l ∨ p.loader = .either) ∧
        (∀ q ∈ s.pours.list, ¬((q.state = .active ∨ q.state = .interrupted) ∧ q.loader = .one l)) ∧
        ∀ q ∈ s.pours.list, q.state = .planned → q.loader = .one l ∨ q.loader = .either → p.sequence ≤ q.sequence) := by
  obtain ⟨sorted, -, -⟩ := ok
  rw [currentPour_eq, Option.or_eq_some_iff, Option.or_eq_some_iff] at current
  obtain active | ⟨noActive, interrupted | ⟨noInterrupted, planned⟩⟩ := current
  · exact .inl (mem_of_activePour active).2
  · obtain ⟨state, loader⟩ : p.state = .interrupted ∧ p.loader = .one l := by simpa using List.find?_some interrupted
    exact .inr (.inl ⟨state, loader, activePour_eq_none_iff.1 noActive⟩)
  · have chosen := List.find?_some planned
    simp only [Pour.openTo, Bool.and_eq_true, decide_eq_true_eq] at chosen
    refine .inr (.inr ⟨chosen.1, chosen.2, fun q mem => ?_, fun q mem state loader =>
      sequence_le_of_find? sorted planned mem (by simp [Pour.openTo, state, loader])⟩)
    rintro ⟨active | interrupted, bound⟩
    · exact activePour_eq_none_iff.1 noActive q mem ⟨active, bound⟩
    · exact interruptedPour_eq_none_iff.1 noInterrupted q mem ⟨interrupted, bound⟩

theorem currentPour_eq_none_iff {s : State} {l : Loader} : s.currentPour l = none ↔ ∀ q ∈ s.pours.list,
    ¬((q.state = .active ∨ q.state = .interrupted) ∧ q.loader = .one l) ∧
      ¬(q.state = .planned ∧ (q.loader = .one l ∨ q.loader = .either)) := by
  rw [currentPour_eq, Option.or_eq_none_iff, Option.or_eq_none_iff, activePour_eq_none_iff, interruptedPour_eq_none_iff,
    nextPlanned_eq_none_iff, ← forall₂_and, ← forall₂_and]
  refine forall₂_congr fun q _ => ?_
  rw [← and_assoc, ← not_or, ← or_and_right]

/-- Settles O23: the steps of R58 in their order. -/
theorem currentPourIsChosenInOrder : Obligations.CurrentPourIsChosenInOrder := fun _ _ ok =>
  ⟨fun _ current => ⟨currentPour_mem current, currentPour_cases ok current⟩, currentPour_eq_none_iff⟩

/-! ### The checks of a POUR START -/

/-- The checks of Table 4.5 in their order, each with whether it fails. -/
def State.startChecks (s : State) (l : Loader) (k : Nat) : List (Reason × Bool) :=
  let is (f : Pour → Bool) : Bool := (s.pour k).any f
  [(.busy, s.startUp.purgeRunning), (.noPour, (s.pour k).isNone),
   (.loaderBusy, s.pours.list.any fun q => decide (q.state = .active ∧ q.loader = .one l)),
   (.notNext, is fun p => decide (¬((p.state = .planned ∨ p.state = .interrupted) ∧
     (p.loader = .one l ∨ p.loader = .either) ∧ s.currentPour l = some p))),
   (.holdBusy, is fun p => s.pours.list.any fun q => decide (q.state = .active ∧ q.hold = p.hold ∧ q.sequence ≠ k)),
   (.gated, is fun p => !s.gatesSatisfied p), (.unreleased, !(s.channel l).released),
   (.noClearance, is fun p => decide (p.clearance = 0))]

/-- In a list that shares no sequence the current pour is the pour of a sequence where it has that sequence. -/
theorem currentPour_sequence_iff {s : State} (ok : s.PoursOk) {l : Loader} {k : Nat} {p : Pour} (named : s.pour k = some p) :
    (s.currentPour l).map (·.sequence) = some k ↔ s.currentPour l = some p := by
  obtain ⟨mem, sequence⟩ := mem_of_pour named
  constructor
  · intro same
    obtain ⟨q, current, at_⟩ := Option.map_eq_some_iff.1 same
    rw [current, ok.eq_of_sequence (currentPour_mem current) mem (at_.trans sequence.symm)]
  · intro current
    rw [current, Option.map_some, sequence]

/-- The reason of the first check that fails. -/
theorem find?_reason_cons (r : Reason) (fails : Bool) (rest : List (Reason × Bool)) :
    (((r, fails) :: rest).find? (·.2)).map (·.1) = if fails then some r else (rest.find? (·.2)).map (·.1) := by
  cases fails <;> rfl

/-- POUR START is refused for the first check that fails (R63). -/
theorem startRefusal_eq {s : State} (ok : s.PoursOk) (l : Loader) (k : Nat) :
    s.startRefusal l k = ((s.startChecks l k).find? (·.2)).map (·.1) := by
  unfold State.startRefusal State.startChecks
  simp only [find?_reason_cons]
  refine if_congr Iff.rfl rfl ?_
  cases named : s.pour k with
  | none => rfl
  | some p =>
    have busy : (s.activePour l).isSome = s.pours.list.any fun q => decide (q.state = .active ∧ q.loader = .one l) := by
      rw [State.activePour, List.isSome_find?]
    have next : ((p.state ≠ .planned ∧ p.state ≠ .interrupted) ∨ p.openTo l = false ∨
        (s.currentPour l).map (·.sequence) ≠ some k) ↔ ¬((p.state = .planned ∨ p.state = .interrupted) ∧
          (p.loader = .one l ∨ p.loader = .either) ∧ s.currentPour l = some p) := by
      rw [Ne, Ne, Ne, currentPour_sequence_iff ok named, not_and_or, not_and_or, not_or, Pour.openTo, decide_eq_false_iff_not]
    simp only [Option.isNone_some, Bool.false_eq_true, if_false, Option.any_some, busy, next, decide_eq_true_eq,
      Bool.not_eq_true', List.find?_nil, Option.map_none]

/-- What an accepted POUR START finds: the pour that the sequence names, waiting, open to the loader and its current pour, the
loader free, no other pour ACTIVE in the hold. -/
theorem startRefusal_none {s : State} (ok : s.PoursOk) {l : Loader} {k : Nat} (accepted : s.startRefusal l k = none) :
    ∃ p, s.pour k = some p ∧ (p.state = .planned ∨ p.state = .interrupted) ∧ (p.loader = .one l ∨ p.loader = .either) ∧
      s.currentPour l = some p ∧ (∀ q ∈ s.pours.list, ¬(q.state = .active ∧ q.loader = .one l)) ∧
      ∀ q ∈ s.pours.list, ¬(q.state = .active ∧ q.hold = p.hold ∧ q.sequence ≠ k) := by
  rw [startRefusal_eq ok, Option.map_eq_none_iff, List.find?_eq_none] at accepted
  simp only [State.startChecks, List.forall_mem_cons] at accepted
  obtain ⟨-, exists_, free, next, alone, -⟩ := accepted
  obtain ⟨p, named⟩ := Option.ne_none_iff_exists'.1 (by simpa using exists_ : s.pour k ≠ none)
  simp only [named, Option.any_some, decide_eq_true_eq, not_not] at next
  obtain ⟨waits, open_, current⟩ := next
  exact ⟨p, named, waits, open_, current, by simpa using free, by simpa [named] using alone⟩

end Sys2Proof.Machine
end

