-- ==== Sys2Proof/Proofs/PourSteps.lean ====
section
/-! PROOFS. Every step keeps the pour list and the hold masses (spec 04 R56, R58, R64, R71, spec 01 R4): the Pour Controller's
operations keep them, the starts lay them out anew, and no other operation touches a pour or a hold. -/

namespace Sys2Proof.Machine

/-! ### POUR START (spec 04 R63, R64) -/

/-- In ascending order a relation holds after a change of the pour of one sequence where it held before and the changed pour
stands in it to every other. -/
theorem pairwise_updPour {l : List Pour} {R : Pour → Pour → Prop} {n : Nat} {f : Pour → Pour}
    (sorted : l.Pairwise fun a b => a.sequence < b.sequence) (was : l.Pairwise R)
    (changed : ∀ p ∈ l, ∀ q ∈ l, p.sequence = n → q.sequence ≠ n → R (f p) q ∧ R q (f p)) :
    (l.map fun p => if p.sequence = n then f p else p).Pairwise R := by
  rw [List.pairwise_map]
  refine (sorted.and was).imp_of_mem fun {p q} hp hq h => ?_
  obtain ⟨below, related⟩ := h
  by_cases first : p.sequence = n
  · have second : q.sequence ≠ n := by omega
    rw [if_pos first, if_neg second]; exact (changed p hp q hq first second).1
  · rw [if_neg first]
    by_cases second : q.sequence = n
    · rw [if_pos second]; exact (changed q hq p hp second first).2
    · rw [if_neg second]; exact related

/-- The pour of an accepted POUR START is its loader's one started pour, and its hold's one ACTIVE pour (R58, R64). -/
theorem started_startedOk {s : State} (ok : s.PoursOk) {l : Loader} {k : Nat} (accepted : s.startRefusal l k = none) (rate : Int)
    (was : s.StartedOk) : (s.updPour k (·.started l rate)).StartedOk := by
  obtain ⟨p, named, waits, opened, current, free, alone⟩ := startRefusal_none ok accepted
  obtain ⟨mem, sequence⟩ := mem_of_pour named
  obtain ⟨bound, apart, single⟩ := was
  have sorted := ok.1
  have unheld (q : Pour) (hq : q ∈ s.pours.list) (other : q.sequence ≠ k) : ¬q.heldBy l := by
    rintro ⟨hold, runs⟩
    obtain active | waiting := runs
    · exact free q hq ⟨active, hold⟩
    obtain running | ⟨interrupted, here, -⟩ | ⟨-, -, none, -⟩ := currentPour_cases ok current
    · exact free p mem running
    · have distinct : q ≠ p := fun same => other (same ▸ sequence)
      have : Std.Symm fun a b : Pour => ¬(a.heldBy l ∧ b.heldBy l) := ⟨fun _ _ h both => h both.symm⟩
      exact (apart l).forall hq mem distinct ⟨⟨hold, .inr waiting⟩, here, .inr interrupted⟩
    · exact none q hq ⟨.inr waiting, hold⟩
  refine ⟨fun q hq runs => ?_, fun m => pairwise_updPour sorted (apart m) fun r _ q hq _ other => ?_,
    pairwise_updPour sorted single fun r hr q hq named' other => ?_⟩
  · obtain ⟨r, hr, rfl⟩ := List.mem_map.1 hq
    by_cases here : r.sequence = k
    · rw [if_pos here]; exact fun either => by cases either
    · rw [if_neg here] at runs ⊢; exact bound r hr runs
  · have toOther (hm : (r.started l rate).heldBy m) (hq' : q.heldBy m) : False := by
      obtain rfl : l = m := by simpa [Pour.started] using hm.1
      exact unheld q hq other hq'
    exact ⟨fun h => toOther h.1 h.2, fun h => toOther h.2 h.1⟩
  · obtain rfl : r = p := ok.eq_of_sequence hr mem (named'.trans sequence.symm)
    have toOther (active : q.state = .active) (hold : q.hold = r.hold) : False := alone q hq ⟨active, hold, other⟩
    exact ⟨fun h => toOther h.2.1 h.2.2.symm, fun h => toOther h.1 h.2.2⟩

theorem acceptStart_keepsPours {s : State} {l : Loader} {k : Nat} (accepted : s.startRefusal l k = none) (rate : Int) :
    s.keepsPours (s.acceptStart l k rate) := by
  intro ok
  obtain ⟨p, named, -⟩ := startRefusal_none ok accepted
  obtain ⟨mem, sequence⟩ := mem_of_pour named
  have hold : ((s.pour k).map (·.hold)).getD 0 = p.hold := by rw [named]; rfl
  have started : s.keepsPoursBut p.hold (s.updPour k (·.started l rate)) := by
    refine fun _ => ⟨poursOk_map rfl (fun q => ?_) ok, started_startedOk ok accepted rate, fun stand h x other at_ => ?_⟩
    · split <;> rfl
    · have same : sharesIn (s.updPour k (·.started l rate)).pours.list h = sharesIn s.pours.list h := by
        refine sharesIn_map fun q hq => ?_
        split
        · rename_i here
          obtain rfl : q = p := ok.eq_of_sequence hq mem (here.trans sequence.symm)
          rw [shareOf_of_ne (show (q.started l rate).hold ≠ h from other.symm), shareOf_of_ne other.symm]
        · rfl
      rw [derivedFrom_congr same]
      exact stand h x other at_
  have handed (t : State) : t.samePours (t.startTallyTimer l).oweComputation := oweComputation_samePours (t.startTallyTimer l)
  unfold State.acceptStart
  rw [hold]
  exact keepsPours_trans started.derive (keepsPours_trans (setEstimator_samePours l _ _).keeps (handed _).keeps) ok

/-! ### Puts (spec 01 R3, spec 04 R60, R61) -/

/-- A Put passes all checks where each is passed by every pair and does not fail as a whole. -/
theorem firstFailure_cons_eq_none {ps : List Pair} {c : PutCheck} {cs : List PutCheck} :
    firstFailure ps (c :: cs) = none ↔ (∀ p ∈ ps, c.fails p = false) ∧ c.whole = false ∧ firstFailure ps cs = none := by
  rw [firstFailure]
  cases found : ps.find? c.fails with
  | some p =>
    have fails : c.fails p = true := List.find?_some found
    refine iff_of_false (Option.some_ne_none _) fun h => ?_
    simp [h.1 p (List.mem_of_find?_eq_some found)] at fails
  | none =>
    have passed : ∀ p ∈ ps, c.fails p = false := by simpa using found
    rw [and_iff_right passed]
    cases c.whole <;> simp

theorem putHold_keepsPours (h : Nat) (ps : List Pair) (s : State) : s.keepsPours (s.putHold h ps).state := by
  refine takePut_keeps ?_ (keepsPours_refl s)
  split
  · exact (updHold_keepsBut h _ s).derive
  · exact keepsPours_refl s

theorem createPour_keepsPours {n : Nat} {s : State} (fresh : s.pour n = none) (range : 1 ≤ n ∧ n ≤ 999) (ps : List Pair) :
    s.keepsPours (s.createPour n ps).state := by
  unfold State.createPour
  obtain ⟨_, _, _, refused⟩ | ⟨passed, taken⟩ := takePut_cases
  · rw [refused]; exact keepsPours_refl s
  · simp only [firstFailure_cons_eq_none, decide_eq_false_iff_not, not_le] at passed
    obtain ⟨-, -, -, -, -, room, -⟩ := passed
    rw [taken]
    refine keepsPours_trans (t := { s with pours.list := insertPour ((newPour n).afterPut ps) s.pours.list }) ?_
      (oweComputation_samePours _).keeps
    exact insertPour_keepsPours rfl rfl rfl fresh range room

/-- A field that no effective pair names takes no value. -/
theorem intAt_eq_none {ps : List Pair} {row place : Nat} :
    intAt ps row place = none ↔ ∀ p ∈ effective ps, p.ident ≠ fieldId row place := by
  rw [← Option.not_isSome_iff_eq_none, intAt_isSome]
  simp

/-- A Put that names the planned mass alone changes the planned mass alone. -/
theorem afterPut_of_plannedMass {ps : List Pair} (all : ∀ q ∈ effective ps, q.ident = fieldId 4 0) (p : Pour) :
    p.afterPut ps = { p with planned := (intAt ps 4 0).elim p.planned Int.toNat } := by
  have unnamed {row place : Nat} (other : fieldId 4 0 ≠ fieldId row place) : intAt ps row place = none :=
    intAt_eq_none.2 fun q mem => by rw [all q mem]; exact other
  have gate (slot : Nat) (h : fieldId 4 0 ≠ fieldId 6 (2 * slot)) (old : Option Gate) : gateAfter ps slot old = old := by
    rw [gateAfter, unnamed h]
  rw [Pour.afterPut, unnamed (show fieldId 4 0 ≠ fieldId 2 0 by decide), unnamed (show fieldId 4 0 ≠ fieldId 3 0 by decide),
    gate 0 (by decide), gate 1 (by decide), gate 2 (by decide), gate 3 (by decide)]
  rfl

/-- A pour that has been started takes its planned mass alone, one that is DONE nothing (R61). -/
theorem amendable_of_started {x : PourState} (started : x ≠ .planned) {i : BitVec 16} (may : i ∈ amendable x) :
    i = fieldId 4 0 := by
  cases x with
  | planned => exact absurd rfl started
  | active | interrupted => simpa [amendable] using may
  | done => simp [amendable] at may

theorem amendPour_keepsPours {n : Nat} {s : State} {p : Pour} (named : s.pour n = some p) (ps : List Pair) :
    s.keepsPours (s.amendPour n p ps).state := by
  unfold State.amendPour
  obtain ⟨_, _, _, refused⟩ | ⟨passed, taken⟩ := takePut_cases
  · rw [refused]; exact keepsPours_refl s
  simp only [firstFailure_cons_eq_none, decide_eq_false_iff_not, not_not] at passed
  obtain ⟨-, -, allowed, -⟩ := passed
  rw [taken]
  refine keepsPours_trans ?_ (oweComputation_samePours (s.updPour n (·.afterPut ps))).keeps
  intro ok
  obtain ⟨mem, sequence⟩ := mem_of_pour named
  have only (q : Pour) (hq : q ∈ s.pours.list) (here : q.sequence = n) : q = p :=
    ok.eq_of_sequence hq mem (here.trans sequence.symm)
  have started (state : p.state ≠ .planned) := afterPut_of_plannedMass (fun q hq => amendable_of_started state (allowed q hq)) p
  have amended : s.keepsPoursBut 0 (s.updPour n (·.afterPut ps)) := by
    refine map_keepsPoursBut rfl rfl (fun q => ?_) (fun q hq => ?_) (fun q hq k _ => ?_)
    · split <;> rfl
    · split
      · rename_i here
        obtain rfl := only q hq here
        by_cases planned : q.state = .planned
        · exact yields_of_idle (by simp [Pour.afterPut, planned]) (by simp [Pour.afterPut, planned])
        · show q.yields (q.afterPut ps)
          rw [started planned]; exact yields_of_same rfl rfl rfl
      · exact yields_of_same rfl rfl rfl
    · split
      · rename_i here
        obtain rfl := only q hq here
        by_cases planned : q.state = .planned
        · rw [shareOf_of_planned planned, shareOf_of_planned (show (q.afterPut ps).state = .planned from planned)]
        · show (q.afterPut ps).shareOf k = _
          rw [started planned]; rfl
      · rfl
  exact keepsPours_iff_but_zero.2 amended ok

theorem putPour_keepsPours {n : Nat} (range : 1 ≤ n ∧ n ≤ 999) (ps : List Pair) (s : State) :
    s.keepsPours (s.putPour n ps).state := by
  unfold State.putPour; split
  · rename_i fresh; exact createPour_keepsPours fresh range ps
  · rename_i named; exact amendPour_keepsPours named ps

/-! ### Computations (spec 03 R52) -/

theorem compute_keepsPours (s : State) : s.keepsPours s.compute := by
  refine keepsPours_trans ?_ (compute_frame s).samePours.keeps
  refine keepsPours_iff_but_zero.2 (sameCore_map_keepsBut rfl rfl fun p => ?_)
  split <;> rfl

/-! ### Starts (spec 01 R18, R19, spec 04 R57, R72, R74) -/

theorem interrupted_sequence (p : Pour) : p.interrupted.sequence = p.sequence := by
  unfold Pour.interrupted; split <;> rfl

/-- A pour that is INTERRUPTED stays bound, and is no longer ACTIVE. -/
theorem interrupted_yields (p : Pour) : p.yields p.interrupted := by
  unfold Pour.interrupted
  split
  · rename_i active
    exact ⟨fun h => (by cases h), fun _ => ⟨.inl active, rfl⟩⟩
  · exact yields_of_same rfl rfl rfl

theorem talliesIn_interrupted (l : List Pour) (k : Nat) : talliesIn (l.map Pour.interrupted) k = talliesIn l k := by
  have counts (p : Pour) : (p.interrupted.hold = k ∧ p.interrupted.state ≠ .planned) ↔ (p.hold = k ∧ p.state ≠ .planned) := by
    unfold Pour.interrupted
    split
    · rename_i active; simp [active]
    · exact Iff.rfl
  have tallied (p : Pour) : p.interrupted.tallied = p.tallied := by unfold Pour.interrupted; split <;> rfl
  simp only [talliesIn, List.filter_map, List.map_map, Function.comp_def, counts, tallied]

theorem activeIn_interrupted (l : List Pour) (k : Nat) : activeIn (l.map Pour.interrupted) k = none := by
  have idle (p : Pour) : p.interrupted.state ≠ .active := by
    unfold Pour.interrupted
    split
    · simp
    · assumption
  simp [activeIn, idle]

/-- With every ACTIVE pour INTERRUPTED a hold keeps its mass and has no active pour. -/
theorem derivedFrom_interrupted (x : Hold) (l : List Pour) (k : Nat) :
    x.derivedFrom (l.map Pour.interrupted) k = (x.derivedFrom l k).idle := by
  simp only [Hold.derivedFrom, talliesIn_interrupted, activeIn_interrupted, Hold.idle]

/-- A list whose ACTIVE pours are INTERRUPTED keeps its order and its bindings. -/
theorem interrupted_keeps {s t : State} (list : t.pours.list = s.pours.list.map Pour.interrupted)
    (holds : s.HoldsOk → t.HoldsOk) : s.keepsPours t := fun ok =>
  ⟨poursOk_map list interrupted_sequence ok, startedOk_map list fun p _ => interrupted_yields p, holds⟩

theorem restart_keepsPours (s : State) : s.keepsPours s.restart := by
  have idled : ∀ t : State, t.pours.list = s.pours.list.map Pour.interrupted → t.holds = s.holds.map Hold.idle →
      s.keepsPours t := by
    refine fun t list holds => interrupted_keeps list fun stand i x at_ => ?_
    rw [holds, List.getElem?_map] at at_
    obtain ⟨y, was, rfl⟩ := Option.map_eq_some_iff.1 at_
    rw [list, derivedFrom_interrupted]
    exact congrArg Hold.idle (stand i y was)
  exact keepsPours_trans (idled _ rfl rfl) (deriveBoth_frame _ _).samePours.keeps

/-- Holds that are derived from a list stand by it. -/
theorem derivedHolds_stand {l : List Pour} {hs : List Hold} {i : Nat} {x : Hold} (at_ : (derivedHolds l hs)[i]? = some x) :
    x = x.derivedFrom l (i + 1) := by
  simp only [derivedHolds, List.getElem?_map, List.getElem?_zipIdx, Option.map_map] at at_
  obtain ⟨y, -, rfl⟩ := Option.map_eq_some_iff.1 at_
  simp only [Function.comp_apply, Nat.zero_add]
  exact (derivedFrom_derivedFrom y l (i + 1)).symm

theorem warmRecords_keepsPours (s : State) : s.keepsPours s.warmRecords := by
  refine keepsPours_trans ?_ (warmReturns_frame _).samePours.keeps
  exact interrupted_keeps rfl fun _ i x at_ => derivedHolds_stand at_

/-- A state without pours, whose holds stand without any, keeps all that there is to keep. -/
theorem emptied_keepsPours {s t : State} (list : t.pours.list = []) (holds : t.HoldsOk) : s.keepsPours t := fun _ => by
  refine ⟨?_, fun _ => ?_, fun _ => holds⟩
  · simp [State.PoursOk, list]
  · simp [State.StartedOk, list]

theorem coldRecords_keepsPours (s : State) : s.keepsPours s.coldRecords := by
  refine emptied_keepsPours rfl fun i x at_ => ?_
  obtain ⟨-, rfl⟩ : i < s.counts.holds ∧ coldHold = x := by
    simpa [State.coldRecords, List.getElem?_replicate] using at_
  rfl

theorem noRecords_keepsPours {s t : State} (list : t.pours.list = []) (holds : t.holds = []) : s.keepsPours t :=
  emptied_keepsPours list fun i x at_ => by simp [holds] at at_

theorem loadClean_keepsPours (image : List Octet) (h : Hull) (s : State) : s.keepsPours (s.loadClean image h) := by
  let u : State := { s with startUp.profile := loadedProfile image h }
  have entered (o : StartOutcome) (check : BitVec 16) {t : State} (ht : u.keepsPours t) :
      s.keepsPours (t.withStartValves.enterReady o check) :=
    keepsPours_trans (show s.samePours u from rfl).keeps
      (keepsPours_trans ht (show t.samePours (t.withStartValves.enterReady o check) from rfl).keeps)
  unfold State.loadClean; dsimp only; split
  · exact entered .warm _ (warmRecords_keepsPours u)
  · exact entered .cold _ (coldRecords_keepsPours u)

theorem enterFault_keepsPours (f : Finding) (s : State) : s.keepsPours (s.enterFault f) := noRecords_keepsPours rfl rfl

theorem reload_keepsPours (index : BitVec 4) (s : State) : s.keepsPours (s.reload index) := noRecords_keepsPours rfl rfl

theorem purgeOne_keepsPours (s : State) : s.keepsPours s.purgeOne := by
  have tested (t : State) : t.samePours t.purgeTest := guarded_keeps rfl rfl
  unfold State.purgeOne
  split
  · exact (tested s).keeps
  · rename_i p rest list
    exact keepsPours_trans (removePour_keepsPours (by rw [list]; exact .head _)) (tested _).keeps

/-! ### Intervals, soundings and publications touch no pour -/

theorem handBallast_samePours (c : KeptChange) (s : State) : s.samePours (s.handBallast c c.act) :=
  (handBallast_frame c (keptChange_frame c) s).samePours

theorem staleExpires_samePours (t : Nat) (s : State) : s.samePours (s.staleExpires t) :=
  guarded_keeps (samePours_trans (oweComputation_samePours (s.updTank t Tank.staled)) (handBallast_samePours (.stale t) _)) rfl

theorem settleExpires_samePours (t : Nat) (s : State) : s.samePours (s.settleExpires t) :=
  guarded_keeps (handBallast_samePours (.belowStrip t) (s.updTank t ({ · with strip := .below }))) rfl

theorem silenceExpires_samePours (s : State) : s.samePours s.silenceExpires :=
  guarded_keeps (linkLost_frame { s with field.live := false }).samePours rfl

theorem intervalEffect_samePours (e : IntervalEffect) (s : State) : s.samePours (e.act s) := by
  cases e with
  | stale t => exact staleExpires_samePours t s
  | settle t => exact settleExpires_samePours t s
  | silence => exact silenceExpires_samePours s

/-- The marks that a changed mass leaves: the pass dirty, a computation owed. -/
theorem massMarks_samePours (p q : Bool) (s : State) :
    s.samePours (if q then (if p then s.markDirty else s).oweComputation else if p then s.markDirty else s) := by
  have marked : s.samePours (if p then s.markDirty else s) := guarded_keeps (markDirty_samePours s) rfl
  exact guarded_keeps (samePours_trans marked (oweComputation_samePours _)) marked

theorem goodSounding_samePours (t reading : Nat) (s : State) : s.samePours (s.goodSounding t reading) := by
  unfold State.goodSounding State.handSounding; dsimp only
  exact samePours_trans (massMarks_samePours _ _ (s.updTank t _))
    (samePours_trans (ballastSounding_frame t _).samePours (settle_frame _ _ _).samePours)

theorem publish_samePours (r : ResultSet) (s : State) : s.samePours (s.publish r) := by
  have tested (t : State) : t.samePours (t.draftStepTest r) := guarded_keeps (makeDue_samePours .draft t) rfl
  have handed (t : State) : t.samePours
      ((t.oweComputation.oweDerivations.draftStepTest r).handBallast (.publication r) (State.ballastPublication r)) :=
    samePours_trans (oweComputation_samePours t) (samePours_trans (tested t.oweComputation.oweDerivations)
      (handBallast_samePours (.publication r) _))
  exact handed { s with
    engine.state := .idle, engine.live := some r
    engine.strengthFlag := s.engine.strengthFlag || statusChanged s.engine.live r }

/-! ### Puts of other records -/

theorem putItem_samePours (i : Nat) (ps : List Pair) (s : State) : s.samePours (s.putItem i ps).state := by
  refine takePut_keeps ?_ rfl
  split
  · exact guarded_keeps rfl (markDirty_samePours { s with items := _ })
  · rfl

theorem putTank_samePours (t : Nat) (ps : List Pair) (s : State) : s.samePours (s.putTank t ps).state := by
  have handed (u : State) (before : Tank) : u.samePours (u.handTankPut t before) := by
    have marked := massMarks_samePours (decide ((u.tank t).current ≠ before.current))
      (decide ((u.tank t).current ≠ before.current) ||
        decide (before.status = .stale ∧ (u.tank t).status ≠ .stale)) u
    have told := guarded_keeps (p := decide ((u.tank t).current ≠ before.current) = true)
      (samePours_trans marked (ballastPutMass_frame t _).samePours) marked
    exact guarded_keeps (samePours_trans told (settle_frame true u _).samePours) told
  exact takePut_keeps (handed (s.updTank t _) _) rfl

theorem putOrder_samePours (t : Nat) (ps : List Pair) (s : State) : s.samePours (s.putOrder t ps).state := by
  have entered : s.samePours (s.putNewOrder t ps).state := takePut_keeps (enterOrder_frame t ps s).samePours rfl
  unfold State.putOrder; split
  · exact entered
  · split
    · exact entered
    · exact takePut_keeps (amendOrder_frame t _ ps s).samePours rfl

theorem putStation_samePours (g : Nat) (ps : List Pair) (s : State) : s.samePours (s.putStation g ps).state :=
  takePut_keeps (guarded_keeps (applyDryRun_frame g (s.updStation g _)).samePours rfl) rfl

theorem putChannel_samePours (l : Loader) (ps : List Pair) (s : State) : s.samePours (s.putChannel l ps).state := by
  refine takePut_keeps ?_ rfl
  split
  · exact (storeAction_frame l _ s).samePours
  · rfl

theorem storeBerth_samePours (draft : Nat) (source : BerthSource) (s : State) : s.samePours (s.storeBerth draft source) := by
  have due (t : State) : t.samePours (t.makeDue .draft) := makeDue_samePours .draft t
  unfold State.storeBerth; dsimp only; split
  · exact samePours_trans (markDirty_samePours { s with berth.maxDraft := draft, berth.source := source }) (due _)
  · exact guarded_keeps (due { s with berth.maxDraft := draft, berth.source := source }) rfl

theorem storeSettings_samePours (ps : List Pair) (s : State) : s.samePours (s.storeSettings ps) := by
  have marks (p q : Prop) [Decidable p] [Decidable q] (t : State) :
      t.samePours (if q then (if p then t.markDirty else t).oweDerivations else if p then t.markDirty else t) := by
    have marked : t.samePours (if p then t.markDirty else t) := guarded_keeps (markDirty_samePours t) rfl
    exact guarded_keeps (samePours_trans marked rfl) marked
  have stored := marks
    (s.settings.limitSet ≠ (s.settings.afterPut ps).limitSet ∨ s.settings.caution ≠ (s.settings.afterPut ps).caution)
    (s.settings.pace ≠ (s.settings.afterPut ps).pace ∨ s.settings.margin ≠ (s.settings.afterPut ps).margin)
    { s with settings := s.settings.afterPut ps }
  exact guarded_keeps (unordered_keeps s.samePours (fun _ h => h)
    (fun e _ _ h => samePours_trans h (intervalEffect_samePours e _)) stored) stored

/-- A PUT on POUR finds a sequence of 1 to 999 (spec 09 R145). -/
theorem putRecord_keepsPours {t : Table} {k : Nat} {s : State} (named : s.putExists t k = true) (ps : List Pair) :
    s.keepsPours (s.putRecord t k ps).state := by
  unfold State.putRecord; split
  · cases t with
    | hold => exact putHold_keepsPours k ps s
    | pour =>
      have range : 1 ≤ k ∧ k ≤ 999 := by
        simp only [State.putExists, Bool.and_eq_true, decide_eq_true_eq] at named
        exact named.2
      exact putPour_keepsPours range ps s
    | tank => exact (putTank_samePours k ps s).keeps
    | item => exact (putItem_samePours k ps s).keeps
    | order => exact (putOrder_samePours k ps s).keeps
    | station => exact (putStation_samePours k ps s).keeps
    | channel =>
      dsimp only
      cases loaderOfKey k with
      | none => exact keepsPours_refl s
      | some l => exact (putChannel_samePours l ps s).keeps
    | berth =>
      refine takePut_keeps ?_ (keepsPours_refl s)
      split
      · exact (storeBerth_samePours _ .ship s).keeps
      · exact keepsPours_refl s
    | settings => exact takePut_keeps (storeSettings_samePours ps s).keeps (keepsPours_refl s)
    | valve | result | clearance | profile | trial | changes => exact keepsPours_refl s
  · exact keepsPours_refl s

/-! ### RETIRE, CLEAR and the actions -/

theorem retireRecord_keepsPours (t : Table) (k : Nat) (s : State) : s.keepsPours (s.retireRecord t k).state := by
  unfold State.retireRecord; split
  · unfold State.retirePour; split
    · exact keepsPours_refl s
    · rename_i named
      split
      · exact removePour_keepsPours (mem_of_pour named).1
      · exact keepsPours_refl s
  · unfold State.retireOrder; split
    · exact keepsPours_refl s
    · split
      · dsimp only
        exact (retireActive_frame k s).samePours.keeps
      · exact (removeOrder_frame k _ s).samePours.keeps
  · exact keepsPours_refl s

theorem clearRecord_samePours (codes : List Octet) (t : Table) (k : Nat) (s : State) :
    s.samePours (s.clearRecord codes t k).state := by
  have one (f : FlagKind) (s : State) : s.samePours (s.clearFlag t k f) := by
    unfold State.clearFlag; split <;> rfl
  have cleared (fs : List FlagKind) (s : State) : s.samePours (s.clearFlags t k fs) := by
    unfold State.clearFlags
    induction fs generalizing s with
    | nil => rfl
    | cons f fs ih => exact samePours_trans (one f s) (ih _)
  unfold State.clearRecord; split
  · rfl
  · split
    · rfl
    · split
      · rfl
      · exact cleared _ s

theorem haltAnswer_samePours (s : State) : s.samePours s.haltAnswer.state := by
  unfold State.haltAnswer; split
  · dsimp only
    exact (haltSequencer_frame s).samePours
  · rfl

theorem rearmAnswer_samePours (g : Nat) (s : State) : s.samePours (s.rearmAnswer g).state := by
  unfold State.rearmAnswer; split
  · rfl
  · split
    · rfl
    · split
      · exact (settle_frame false s (s.updStation g _)).samePours
      · rfl

theorem endPourAnswer_keepsPours (n : Nat) (s : State) : s.keepsPours (s.endPourAnswer n).state := by
  unfold State.endPourAnswer; split
  · split
    · exact keepsPours_refl s
    · rename_i named
      split
      · exact closePour_keepsPours (mem_of_pour named).1
      · exact keepsPours_refl s
  · exact keepsPours_refl s

theorem trialPutAnswer_samePours (ps : List Pair) (s : State) : s.samePours (s.trialPutAnswer ps).state := by
  unfold State.trialPutAnswer; split
  · rfl
  · split
    · exact takePut_keeps rfl rfl
    · rfl

theorem resumeReady_samePours (s : State) : s.samePours s.resumeReady := by
  have watched : s.samePours { s with startUp.marker := { s.startUp.marker with valid := false } }.restartSilence := rfl
  exact samePours_trans (samePours_trans watched (expireTallies_frame _).samePours) (takeDeferred_frame _).samePours

theorem sendNext_samePours (s : State) : s.samePours s.sendNext := by
  unfold State.sendNext; split
  · rfl
  · split <;> rfl

/-! ### Commands by the link that they come on -/

/-- The command completes in a state that keeps the pour list and the hold masses. -/
def State.keepsPoursIn (s : State) (o : Host.Outcome State Fault Refusal) : Prop := ∀ t, o = .next t → s.keepsPours t

theorem keepsPoursIn_next {s t : State} (h : s.keepsPours t) : s.keepsPoursIn (.next t) := by
  rintro _ ⟨⟩; exact h

/-- A command of the part's own keeps what the operation behind its condition keeps. -/
theorem guarded_keepsPours {p : Prop} [Decidable p] {s t : State} (acts : s.keepsPours t) :
    s.keepsPoursIn (.next (if p then t else s)) := keepsPoursIn_next (guarded_keeps acts (keepsPours_refl s))

theorem guarded_samePours {p : Prop} [Decidable p] {s t : State} (acts : s.samePours t) :
    s.keepsPoursIn (.next (if p then t else s)) := guarded_keepsPours acts.keeps

theorem takeRequest_keepsPours {kind : Nat} {head : ShipHead} {respond : State → Answer} {s : State}
    (answer : s.keepsPours (respond s).state) : s.keepsPoursIn (.next (s.takeRequest kind head respond)) :=
  keepsPoursIn_next (takeRequest_keeps (P := s.keepsPours) (fun _ _ h => h) answer (keepsPours_refl s))

/-- A record request keeps what the tables' rules keep for a record that is named. -/
theorem recordCommand_keepsPours {kind : Nat} {head : ShipHead} {look : Bool} {named : State → Table → Nat → Bool}
    {respond : Table → Nat → State → Answer} {s : State}
    (answer : ∀ t k, named s t k = true → s.keepsPours (respond t k s).state) :
    s.keepsPoursIn (.next (s.takeRequest kind head fun s => s.recordRequest head look named respond)) := by
  refine takeRequest_keepsPours ?_
  obtain busy | unnamed | ⟨t, _, there, taken⟩ :=
    recordRequest_cases (s := s) (head := head) (look := look) (named := named) (respond := respond)
  · rw [busy]; exact keepsPours_refl s
  · rw [unnamed]; exact keepsPours_refl s
  · rw [taken]; exact answer t _ there

theorem actionCommand_keepsPours {kind : Nat} {head : ShipHead} {waits : Bool} {respond : State → Answer} {s : State}
    (answer : s.keepsPours (respond s).state) :
    s.keepsPoursIn (.next (s.takeRequest kind head fun s => s.actionRequest waits respond)) :=
  takeRequest_keepsPours (actionRequest_keeps answer (keepsPours_refl s))

theorem keylessCommand_keepsPours {kind : Nat} {head : ShipHead} {waits : Bool} {respond : State → Answer} {s : State}
    (answer : s.keepsPours (respond s).state) :
    s.keepsPoursIn (.next (s.takeRequest kind head fun s => s.actionRequest waits fun s => s.keyless head respond)) :=
  actionCommand_keepsPours (keyless_keeps answer (keepsPours_refl s))

theorem trialCommand_keepsPours {kind : Nat} {head : ShipHead} {respond : State → Answer} {s : State}
    (answer : s.samePours (respond s).state) :
    s.keepsPoursIn (.next (s.takeRequest kind head fun s => s.trialRequest head respond)) :=
  takeRequest_keepsPours (trialRequest_keeps answer.keeps (keepsPours_refl s))

theorem takeNotice_keepsPours {kind : NoticeKind} {l : Option Loader} {q : Option (BitVec 16)} {r : Reason}
    {act : State → State} {s : State} (acts : ∀ t : State, t.keepsPours (act t)) :
    s.keepsPoursIn (.next (s.takeNotice kind l q r act)) :=
  keepsPoursIn_next (takeNotice_keeps (P := s.keepsPours) (fun _ _ h => h) (fun _ h => keepsPours_trans h (acts _))
    (keepsPours_refl s))

theorem takeField_keepsPours {present : State → Bool} {act : State → State} {s : State}
    (acts : ∀ t : State, t.samePours (act t)) : s.keepsPoursIn (.next (s.takeField present act)) :=
  keepsPoursIn_next (takeField_keeps (P := s.samePours) (fun _ _ h => h) (fun _ h => samePours_trans h (acts _)) rfl).keeps

/-! ### Commands that carry out more than one operation -/

theorem execProfileReadComplete_keepsPours (read : ProfileRead) (s : State) :
    s.keepsPoursIn (execProfileReadComplete read s) := by
  refine guarded_keepsPours ?_
  split
  · exact enterFault_keepsPours _ s
  · exact loadClean_keepsPours _ _ s

theorem execPfailAssert_keepsPours (s : State) : s.keepsPoursIn (execPfailAssert s) := by
  have derived (t : State) (h : s.samePours t) : s.samePours (if s.hasChannels then t.pfailChannels else t) :=
    guarded_keeps (samePours_trans h (pfailChannels_frame t).samePours) h
  refine guarded_samePours (derived _ ?_)
  split <;> rfl

theorem execPfailDeassert_keepsPours (s : State) : s.keepsPoursIn (execPfailDeassert s) :=
  guarded_samePours (guarded_keeps (resumeReady_samePours { s with pfail := false, ship := .idle }) rfl)

theorem execRelease_keepsPours (head : ShipHead) (s : State) : s.keepsPoursIn (execRelease head s) := by
  refine actionCommand_keepsPours ?_
  split
  · exact (release_frame s _).samePours.keeps
  · exact keepsPours_refl s

theorem execForce_keepsPours (head : ShipHead) (pairs : List Pair) (s : State) : s.keepsPoursIn (execForce head pairs s) := by
  refine actionCommand_keepsPours ?_
  split
  · exact (force_frame _ _ s).samePours.keeps
  · exact keepsPours_refl s

theorem execRestart_keepsPours (head : ShipHead) (s : State) : s.keepsPoursIn (execRestart head s) := by
  refine keylessCommand_keepsPours ?_
  split
  · exact restart_keepsPours s
  · exact keepsPours_refl s

theorem execPurge_keepsPours (head : ShipHead) (s : State) : s.keepsPoursIn (execPurge head s) := by
  refine keylessCommand_keepsPours ?_
  split
  · exact (show s.samePours s.purge from rfl).keeps
  · exact keepsPours_refl s

theorem execReload_keepsPours (head : ShipHead) (s : State) : s.keepsPoursIn (execReload head s) := by
  refine actionCommand_keepsPours ?_
  split
  · exact keepsPours_refl s
  · split
    · exact reload_keepsPours _ s
    · exact keepsPours_refl s

theorem execTrialOpen_keepsPours (head : ShipHead) (s : State) : s.keepsPoursIn (execTrialOpen head s) := by
  refine trialCommand_keepsPours ?_
  split <;> rfl

theorem execTrialEvaluate_keepsPours (head : ShipHead) (s : State) : s.keepsPoursIn (execTrialEvaluate head s) := by
  refine trialCommand_keepsPours ?_
  split <;> rfl

theorem execLivePassEnd_keepsPours (s : State) : s.keepsPoursIn (execLivePassEnd s) := by
  refine guarded_samePours ?_
  split
  · exact publish_samePours _ s
  · rfl

theorem execTrialPassStart_keepsPours (s : State) : s.keepsPoursIn (execTrialPassStart s) := by
  refine guarded_samePours ?_
  split
  · exact guarded_keeps rfl rfl
  · rfl

theorem execTrialPassEnd_keepsPours (s : State) : s.keepsPoursIn (execTrialPassEnd s) := by
  refine guarded_samePours ?_
  split
  · split
    · split <;> rfl
    · rfl
  · rfl

theorem execPourStart_keepsPours (l : Loader) (n : BitVec 16) (rate : BitVec 32) (s : State) :
    s.keepsPoursIn (execPourStart l n rate s) := by
  refine takeNotice_keepsPours fun t => ?_
  split
  · exact (placeReply_samePours _ t).keeps
  · rename_i accepted
    exact keepsPours_trans (acceptStart_keepsPours accepted _) (placeReply_samePours _ _).keeps

theorem execTally_keepsPours (l : Loader) (amount : BitVec 32) (s : State) : s.keepsPoursIn (execTally l amount s) := by
  refine takeNotice_keepsPours fun t => ?_
  split
  · exact (placeReply_samePours _ t).keeps
  · rename_i active
    split
    · exact acceptTally_keepsPours l _ (mem_of_activePour active).1
    · exact (placeReply_samePours _ (t.tallyFault l)).keeps

theorem execPourEnd_keepsPours (l : Loader) (final : BitVec 32) (s : State) : s.keepsPoursIn (execPourEnd l final s) := by
  refine takeNotice_keepsPours fun t => ?_
  split
  · exact (placeReply_samePours _ t).keeps
  · rename_i active
    exact keepsPours_trans (endActive_keepsPours l _ (mem_of_activePour active).1) (placeReply_samePours _ _).keeps

theorem execBerth_keepsPours (draft : BitVec 32) (s : State) : s.keepsPoursIn (execBerth draft s) := by
  refine takeNotice_keepsPours fun t => ?_
  have stored := storeBerth_samePours (berthDraft draft.toInt) .terminal t
  have noted : t.samePours (t.terminalBerth (berthDraft draft.toInt)) := by
    unfold State.terminalBerth; dsimp only; split
    · exact stored
    · exact stored
  exact (samePours_trans noted (placeReply_samePours _ _)).keeps

theorem execReportRequest_keepsPours (slot : Slot) (s : State) : s.keepsPoursIn (execReportRequest slot s) := by
  refine guarded_samePours ?_
  dsimp only; split
  · rfl
  · exact makeDue_samePours slot { s with terminal.receiving := none }

theorem execValvePosition_keepsPours (key : Octet) (position : PositionReport) (s : State) :
    s.keepsPoursIn (execValvePosition key position s) := by
  refine takeField_keepsPours fun t => ?_
  split
  · exact samePours_trans (valveReport_frame _ _ t).samePours (settle_frame _ _ _).samePours
  · rfl

/-! ### Every command -/

/-- What a step of the Ballast Sequencer leaves of the pours its looks leave too. -/
theorem settled_samePours {s t before : State} {all : Bool} (h : BallastFrame s t) : s.samePours (t.settle all before) :=
  (h.trans (settle_frame all before t)).samePours

theorem exec_keepsPours (c : Instr) (s : State) : s.keepsPoursIn (exec c s) := by
  cases c with
  | powerOn =>
    refine keepsPoursIn_next ?_
    split
    · exact keepsPours_refl s
    · exact (show s.samePours s.retained from rfl).keeps
  | powerLoss | timeBaseTick | resetNAssert | resetNRelease | shipFrameDiscard | shipFrameIncompleteTimeout
  | shipFrameBusyOwed | shipReplyEnd | livePassStart | terminalFrameDiscard | terminalFrameEnd | fieldFrameDiscard
  | fieldFrameIncompleteTimeout | fieldSendStart | fieldFrameEnd => exact guarded_samePours rfl
  | profileReadComplete read => exact execProfileReadComplete_keepsPours read s
  | profileReadTimeout => exact guarded_keepsPours (enterFault_keepsPours .noImage s)
  | pfailAssert => exact execPfailAssert_keepsPours s
  | pfailDeassert => exact execPfailDeassert_keepsPours s
  | look => exact recordCommand_keepsPours fun _ _ _ => keepsPours_refl s
  | put _ pairs => exact recordCommand_keepsPours fun _ _ named => putRecord_keepsPours named pairs
  | retire => exact recordCommand_keepsPours fun t k _ => retireRecord_keepsPours t k s
  | clear _ codes => exact recordCommand_keepsPours fun t k _ => (clearRecord_samePours codes t k s).keeps
  | run =>
    exact keylessCommand_keepsPours (unlessFault_keeps (runSequencer_frame s).samePours.keeps (keepsPours_refl s))
  | halt => exact keylessCommand_keepsPours (haltAnswer_samePours s).keeps
  | rearm => exact actionCommand_keepsPours (rearmAnswer_samePours _ s).keeps
  | release head => exact execRelease_keepsPours head s
  | force head pairs => exact execForce_keepsPours head pairs s
  | endPour => exact actionCommand_keepsPours (endPourAnswer_keepsPours _ s)
  | restart head => exact execRestart_keepsPours head s
  | purge head => exact execPurge_keepsPours head s
  | purgeStep => exact guarded_keepsPours (purgeOne_keepsPours s)
  | reload head => exact execReload_keepsPours head s
  | trialOpen head => exact execTrialOpen_keepsPours head s
  | trialPut _ pairs => exact trialCommand_keepsPours (trialPutAnswer_samePours pairs s)
  | trialEvaluate head => exact execTrialEvaluate_keepsPours head s
  | trialClose => exact trialCommand_keepsPours rfl
  | unknownRequestKind => exact takeRequest_keepsPours (keepsPours_refl s)
  | livePassEnd => exact execLivePassEnd_keepsPours s
  | trialPassStart => exact execTrialPassStart_keepsPours s
  | trialPassEnd => exact execTrialPassEnd_keepsPours s
  | clearanceComputation => exact guarded_keepsPours (compute_keepsPours s)
  | channelDerivation l => exact guarded_samePours (takeDerivation_frame s l).samePours
  | tallyTimerExpiry l => exact guarded_samePours (expireTallyTimer_frame s l).samePours
  | pourStart l n rate => exact execPourStart_keepsPours l n rate s
  | tally l amount => exact execTally_keepsPours l amount s
  | pourEnd l final => exact execPourEnd_keepsPours l final s
  | berth draft => exact execBerth_keepsPours draft s
  | reportRequest slot => exact execReportRequest_keepsPours slot s
  | terminalSendStart => exact guarded_samePours (sendNext_samePours s)
  | sounding => exact takeField_keepsPours fun t => guarded_keeps (goodSounding_samePours _ _ t) rfl
  | valvePosition key position => exact execValvePosition_keepsPours key position s
  | pumpStatus _ status => exact takeField_keepsPours fun t => settled_samePours (pumpReport_frame _ status t)
  | localSwitch _ position => exact takeField_keepsPours fun t => settled_samePours (switchReport_frame _ position t)
  | fieldSilenceExpiry => exact keepsPoursIn_next (silenceExpires_samePours s).keeps
  | staleExpiry tank => exact guarded_samePours (staleExpires_samePours tank s)
  | stripSettleExpiry tank => exact guarded_samePours (settleExpires_samePours tank s)
  | valveTravelTimeout v => exact guarded_samePours (settled_samePours (travelTimeout_frame v s))
  | primingExpiry g => exact guarded_samePours (settled_samePours (primingEnds_frame g s))
  | rundownExpiry g => exact guarded_samePours (settled_samePours (rundownEnds_frame g s))
  | dryRunCondition g => exact guarded_samePours (settled_samePours (dryRunActs_frame g s))

/-- Settles O5: the Pour Controller's operations derive the one hold whose shares they change, the starts derive every hold, and
no other command touches a pour or a hold. -/
theorem stepKeepsPoursAndHoldMasses : Obligations.StepKeepsPoursAndHoldMasses := by
  intro s t ok run
  unfold step at run
  split at run
  · obtain rfl := Host.Outcome.next.inj run
    exact keepsPours_refl s ok
  · rename_i c rest _
    exact exec_keepsPours c { s with pending := rest } t run ok

end Sys2Proof.Machine
end

