-- ==== Sys2Proof/Proofs/PourNotices.lean ====
section
/-! PROOFS. The notice POUR START, and what the notices share with END POUR (spec 04 R63, R64, R71, spec 03 R51, spec 07 R124):
each is one change of a pour with what its hold, the loader's estimator, the channel and the terminal port take from it. -/

namespace Sys2Proof.Machine

/-! ### A changed list with the hold that takes it -/

/-- The current mass of a hold differs once the hold stands by a list. -/
def State.massMoved (s : State) (h : Nat) (l : List Pour) : Bool :=
  decide ((State.hold { s with holds := modify1 s.holds h (·.standing l h) } h).current ≠ (s.hold h).current)

/-- The state with a new list, new estimators and some causes of computation owed, a hold standing by the list and a changed mass
of it handed on (R71, spec 01 R4, spec 02 R23). -/
def State.poured (s : State) (h : Nat) (l : List Pour) (e : PerLoader Estimator) (causes : Nat) : State :=
  { s with
    holds := modify1 s.holds h (·.standing l h)
    engine := { s.engine with dirty := s.engine.dirty || s.massMoved h l }
    pours := ⟨l, e, s.pours.computationsOwed + causes + (s.massMoved h l).toNat⟩ }

section Ready

variable {s : State} (ready : s.ready = true)

include ready

/-- The hold of a changed pour derived anew. -/
theorem deriveHold_updPour (n h : Nat) (f : Pour → Pour) :
    (s.updPour n f).deriveHold h =
      s.poured h (s.updPour n f).pours.list s.pours.estimators 0 :=
  State.deriveHold_eq h (s.updPour n f) ready

theorem setEstimator_poured (h : Nat) (list : List Pour) (es : PerLoader Estimator) (causes : Nat) (l : Loader) (e : Estimator) :
    (s.poured h list es causes).setEstimator l e =
      s.poured h list (es.put l e) (causes + (decide (e.estimate ≠ (es.get l).estimate)).toNat) := by
  unfold State.setEstimator
  by_cases same : e.estimate = (es.get l).estimate
  · refine (if_pos same).trans ?_
    simp [State.poured, same]
  · refine (if_neg same).trans ((oweComputation_eq (by exact ready)).trans ?_)
    simp only [State.poured, same, ne_eq, not_false_eq_true, decide_true, Bool.toNat_true]
    congr 2
    omega

theorem resetEstimator_poured (h : Nat) (list : List Pour) (es : PerLoader Estimator) (causes : Nat) (l : Loader) :
    (s.poured h list es causes).resetEstimator l =
      s.poured h list (es.put l ⟨none, 0⟩) (causes + (decide ((es.get l).estimate ≠ 0)).toNat) := by
  simp only [ne_comm (b := 0)]
  exact setEstimator_poured ready h list es causes l .closed

theorem feedEstimator_poured (h : Nat) (list : List Pour) (es : PerLoader Estimator) (causes : Nat) (l : Loader) (amount : Nat) :
    (s.poured h list es causes).feedEstimator l amount =
      let e := (es.get l).arrive false s.settings.rateWindow s.clock amount
      s.poured h list (es.put l e) (causes + (decide (e.estimate ≠ (es.get l).estimate)).toNat) :=
  setEstimator_poured ready h list es causes l _

theorem oweComputation_poured (h : Nat) (list : List Pour) (es : PerLoader Estimator) (causes : Nat) :
    (s.poured h list es causes).oweComputation = s.poured h list es (causes + 1) := by
  refine (oweComputation_eq (by exact ready)).trans ?_
  simp only [State.poured]
  congr 2
  omega

end Ready

theorem hold_poured {s : State} {h : Nat} (there : nth1 s.holds h = some (s.hold h)) (list : List Pour)
    (es : PerLoader Estimator) (causes : Nat) : (s.poured h list es causes).hold h = (s.hold h).standing list h :=
  hold_of_modify1 (t := s.poured h list es causes) (f := (·.standing list h)) there rfl

theorem updChannel_poured (s : State) (h : Nat) (list : List Pour) (es : PerLoader Estimator) (causes : Nat) (l : Loader)
    (f : Channel → Channel) :
    (s.poured h list es causes).updChannel l f = (s.updChannel l f).poured h list es causes := rfl

/-- A later change of the list that leaves the shares in the hold leaves the hold too. -/
theorem updPour_poured {s : State} {h n : Nat} {list : List Pour} {f : Pour → Pour}
    (shares : ∀ p, (f p).shareOf h = p.shareOf h) (es : PerLoader Estimator) (causes : Nat) :
    (s.poured h list es causes).updPour n f =
      s.poured h (list.map fun p => if p.sequence = n then f p else p) es causes := by
  have same (x : Hold) : x.standing (list.map fun p => if p.sequence = n then f p else p) h = x.standing list h :=
    derivedFrom_congr (sharesIn_map fun p _ => by split; exacts [shares p, rfl]) x
  simp only [State.poured, State.massMoved, same]
  rfl

/-! ### The replies (spec 08 R131) -/

theorem placeReply_eq (r : NoticeReply) (s : State) : s.placeReply r = { s with
    terminal := { s.terminal with
      fifo := if s.terminal.fifo.length < 4 then s.terminal.fifo ++ [r] else s.terminal.fifo } } := by
  unfold State.placeReply; split <;> rfl

theorem clamp_rate (v : Int) : clamp 0 20000 v = (max 0 (min 20000 v)).toNat := by
  have range := clamp_zero 20000 v
  omega

theorem pourController_ext {p q : PourController} (list : p.list = q.list) (estimators : p.estimators = q.estimators)
    (owed : p.computationsOwed = q.computationsOwed) : p = q := by
  obtain ⟨_, _, _⟩ := p
  obtain ⟨_, _, _⟩ := q
  subst list estimators owed
  rfl

theorem phase_of_ready {s : State} (ready : s.ready = true) : s.startUp.phase = .ready := by
  simp only [State.ready, Bool.and_eq_true, decide_eq_true_eq] at ready
  exact ready.2

/-- The state once a notice frame has been taken off the terminal link (spec 08 R130). -/
def State.noticeTaken (s : State) : State := { s with terminal := { s.terminal with receiving := none } }

/-! ### POUR START -/

/-- A channel whose tally timer is started at a deadline, or stopped: a derivation is left owed. -/
def Channel.timed (deadline : Option Second) (c : Channel) : Channel :=
  { c with deadline := deadline, timedOut := false, derivationsOwed := c.derivationsOwed + 1 }

theorem startTallyTimer_eq (l : Loader) (s : State) :
    s.startTallyTimer l = s.updChannel l (Channel.timed (some (later s.clock s.settings.tallyTimeout))) :=
  updChannel_updChannel l ({ · with deadline := some (later s.clock s.settings.tallyTimeout), timedOut := false })
    (fun c => { c with derivationsOwed := c.derivationsOwed + 1 }) s

theorem stopTallyTimer_eq (l : Loader) (s : State) : s.stopTallyTimer l = s.updChannel l (Channel.timed none) :=
  updChannel_updChannel l ({ · with deadline := none, timedOut := false })
    (fun c => { c with derivationsOwed := c.derivationsOwed + 1 }) s

/-- The causes that a notice owes: one for itself, one for a changed estimate, one for a changed mass (R51). -/
theorem causes_owed (owed estimate mass : Nat) : owed + (0 + estimate + 1) + mass = owed + 1 + estimate + mass := by omega

/-- In a list that shares no sequence a sequence names one pour. -/
theorem State.PoursOk.sequence_eq_iff {s : State} (ok : s.PoursOk) {p q : Pour} (hq : q ∈ s.pours.list)
    (mem : p ∈ s.pours.list) : q.sequence = p.sequence ↔ q = p :=
  ⟨ok.eq_of_sequence hq mem, fun same => same ▸ rfl⟩

/-- In a list that shares no sequence the pour of a sequence is changed alone. -/
theorem State.PoursOk.map_named {s : State} (ok : s.PoursOk) {p : Pour} (mem : p ∈ s.pours.list) (f : Pour → Pour) :
    (s.pours.list.map fun q => if q.sequence = p.sequence then f q else q) =
      s.pours.list.map fun q => if q = p then f p else q := by
  refine List.map_congr_left fun q hq => ?_
  simp only [ok.sequence_eq_iff hq mem]
  split
  · rename_i same; rw [same]
  · rfl

/-- The pour of an accepted POUR START is the one that its hold names ACTIVE. -/
theorem activeIn_started {s : State} {l : Loader} {k : Nat} {p : Pour} (named : s.pour k = some p)
    (alone : ∀ q ∈ s.pours.list, ¬(q.state = .active ∧ q.hold = p.hold ∧ q.sequence ≠ k)) (rate : Int) :
    activeIn (s.updPour k (·.started l rate)).pours.list p.hold = some k := by
  obtain ⟨mem, sequence⟩ := mem_of_pour named
  have there : p.started l rate ∈ (s.updPour k (·.started l rate)).pours.list :=
    List.mem_map.2 ⟨p, mem, if_pos sequence⟩
  obtain ⟨q, found⟩ := Option.isSome_iff_exists.1 (List.find?_isSome
    (p := fun q : Pour => decide (q.hold = p.hold ∧ q.state = .active)).2 ⟨_, there, by simp [Pour.started]⟩)
  rw [activeIn, found, Option.map_some]
  obtain ⟨r, hr, rfl⟩ := List.mem_map.1 (List.mem_of_find?_eq_some found)
  have active := List.find?_some found
  split at active
  · rename_i here
    rw [if_pos here]; exact congrArg some here
  · rename_i other
    simp only [decide_eq_true_eq] at active
    exact absurd ⟨active.2, active.1, other⟩ (alone r hr)

theorem acceptStart_eq {s : State} (ready : s.ready = true) {l : Loader} {k : Nat} {p : Pour} (named : s.pour k = some p)
    (rate : Int) : s.acceptStart l k rate =
      (s.updChannel l (Channel.timed (some (later s.clock s.settings.tallyTimeout)))).poured p.hold
        (s.updPour k (·.started l rate)).pours.list (s.pours.estimators.put l ⟨none, 0⟩)
        (0 + (decide ((s.pours.estimators.get l).estimate ≠ 0)).toNat + 1) := by
  have hold : ((s.pour k).map (·.hold)).getD 0 = p.hold := by rw [named]; rfl
  unfold State.acceptStart
  dsimp only
  rw [hold, deriveHold_updPour ready, resetEstimator_poured ready, startTallyTimer_eq, updChannel_poured]
  exact oweComputation_poured (s := s.updChannel l _) ready _ _ _ _

/-- A POUR START that some check fails is refused with the reason of the first. -/
theorem exec_pourStart_refused {s : State} (up : s.linkUp = true) (ready : s.ready = true) {l : Loader} {n : BitVec 16}
    {reason : Reason} (refused : s.startRefusal l n.toNat = some reason) (rate : BitVec 32) :
    exec (.pourStart l n rate) s = .next (s.noticeTaken.placeReply ⟨.pourStart, some l, some n, some reason⟩) := by
  have here : s.noticeTaken.startRefusal l n.toNat = some reason := refused
  refine congrArg Host.Outcome.next ((takeNotice_ready up (phase_of_ready ready)).trans ?_)
  show (match s.noticeTaken.startRefusal l n.toNat with | some _ => _ | none => _) = _
  rw [here]; rfl

/-- An accepted POUR START: the started pour, its hold, the closed estimator, the started timer and the reply. -/
theorem exec_pourStart_accepted {s : State} (up : s.linkUp = true) (ready : s.ready = true) {l : Loader} {n : BitVec 16}
    (accepted : s.startRefusal l n.toNat = none) {p : Pour} (named : s.pour n.toNat = some p) (rate : BitVec 32) :
    exec (.pourStart l n rate) s = .next
      { s.poured p.hold (s.updPour n.toNat (·.started l rate.toInt)).pours.list (s.pours.estimators.put l ⟨none, 0⟩)
          (0 + (decide ((s.pours.estimators.get l).estimate ≠ 0)).toNat + 1) with
        channels := s.channels.put l ((s.channel l).timed (some (later s.clock s.settings.tallyTimeout)))
        terminal := (s.noticeTaken.placeReply ⟨.pourStart, some l, some n, none⟩).terminal } := by
  have here : s.noticeTaken.startRefusal l n.toNat = none := accepted
  refine congrArg Host.Outcome.next ((takeNotice_ready up (phase_of_ready ready)).trans ?_)
  show (match s.noticeTaken.startRefusal l n.toNat with | some _ => _ | none => _) = _
  rw [here]
  show (s.noticeTaken.acceptStart l n.toNat rate.toInt).placeReply _ = _
  rw [acceptStart_eq (s := s.noticeTaken) ready named, placeReply_eq, placeReply_eq]
  rfl

/-- Settles O49: the checks of Table 4.5 in their order, then what an accepted POUR START writes. -/
theorem pourStartIsCheckedInOrder : Obligations.PourStartIsCheckedInOrder := by
  intro s l n rate up ready ok k is checks port
  have refusal : s.startRefusal l k = (checks.find? (·.2)).map (·.1) := startRefusal_eq ok l k
  have replied (reason : Option Reason) :
      (s.noticeTaken.placeReply ⟨.pourStart, some l, some n, reason⟩).terminal = port reason := by
    rw [placeReply_eq]; rfl
  refine ⟨fun c first => ?_, fun passed => ?_⟩
  · rw [exec_pourStart_refused up ready (refusal.trans (by rw [first]; rfl)), placeReply_eq]
    rfl
  · rw [passed] at refusal
    obtain ⟨p, named, -, -, -, -, alone⟩ := startRefusal_none ok refusal
    have run := exec_pourStart_accepted up ready refusal named rate
    rw [replied] at run
    refine ⟨_, p, named, run, ?_, fun records counted => ?_, (exec_keepsPours _ s _ run ok).2.2, rfl, rfl⟩
    · refine pourController_ext ?_ rfl ?_
      · simp only [← clamp_rate]; rfl
      · exact causes_owed _ _ _
    · have there : nth1 s.holds p.hold = some (s.hold p.hold) := nth1_hold ready records counted
      exact (congrArg Hold.active (hold_poured there _ s.pours.estimators 0)).trans (activeIn_started named alone _)

end Sys2Proof.Machine
end

