-- ==== Sys2Proof/Proofs/Tallies.lean ====
section
/-! PROOFS. TALLY, POUR END and END POUR (spec 04 R65 to R69, R71, spec 03 R49 to R51, spec 07 R124): tallies of the ACTIVE
pour, and the two ways in which a pour becomes DONE. -/

namespace Sys2Proof.Machine

/-! ### Holds that stand as they did -/

/-- An element that a change leaves as it is leaves the list as it is. -/
theorem modify1_eq_self {α : Type} {l : List α} {n : Nat} {f : α → α} (same : ∀ x, nth1 l n = some x → f x = x) :
    modify1 l n f = l := by
  cases n with
  | zero => rfl
  | succ n =>
    refine List.ext_getElem? fun i => ?_
    rw [modify1, List.getElem?_modify]
    split
    · rename_i here
      subst here
      cases at_ : l[n]? with
      | none => rfl
      | some x => exact congrArg some (same x at_)
    · exact id_map _

/-- Holds that stand by the list stand by another that has the same shares in the hold derived anew. -/
theorem State.HoldsOk.stands {s : State} (holds : s.HoldsOk) {h : Nat} {l : List Pour}
    (same : sharesIn l h = sharesIn s.pours.list h) : modify1 s.holds h (·.standing l h) = s.holds := by
  refine modify1_eq_self fun x at_ => (derivedFrom_congr same x).trans ?_
  cases h with
  | zero => simp [nth1] at at_
  | succ i => exact (holds i x at_).symm

theorem massMoved_of_stands {s : State} {h : Nat} {l : List Pour} (stands : modify1 s.holds h (·.standing l h) = s.holds) :
    s.massMoved h l = false := by
  rw [State.massMoved, stands]
  exact decide_eq_false (not_not.2 rfl)

/-! ### TALLY -/

/-- The overrun test marks a tallied pour and its loader's channel; its hold stands as it did. -/
theorem overrunTest_poured {s : State} {h n : Nat} {list : List Pour} {p : Pour}
    (named : list.find? (fun q => decide (q.sequence = n)) = some p) (es : PerLoader Estimator) (causes : Nat) (l : Loader) :
    (s.poured h list es causes).overrunTest l n = (s.updChannel l (Channel.tested (s.overruns p))).poured h
      (list.map fun q => if q.sequence = n then q.tested (s.overruns p) else q) es causes := by
  rw [overrunTest_eq (s := s.poured h list es causes) named, updPour_poured (f := Pour.tested _) fun _ => rfl, updChannel_poured]
  rfl

theorem acceptTally_eq {s : State} (ready : s.ready = true) {p : Pour} (named : s.pour p.sequence = some p) (l : Loader)
    (amount : Nat) : s.acceptTally l p amount =
      let overran := s.overruns (p.talliedAt amount)
      let e := (s.pours.estimators.get l).arrive false s.settings.rateWindow s.clock amount
      (s.updChannel l fun c => (c.tested overran).timed (some (later s.clock s.settings.tallyTimeout))).poured p.hold
        (s.updPour p.sequence fun q => (q.talliedAt amount).tested overran).pours.list (s.pours.estimators.put l e)
        (0 + (decide (e.estimate ≠ (s.pours.estimators.get l).estimate)).toNat + 1) := by
  have kept (q : Pour) : (q.talliedAt amount).sequence = q.sequence := rfl
  have tallied := pour_updPour named kept
  show (((((s.updPour p.sequence (Pour.talliedAt amount)).deriveHold p.hold).feedEstimator l amount).overrunTest l
    p.sequence).startTallyTimer l).oweComputation = _
  rw [deriveHold_updPour ready, feedEstimator_poured ready]
  dsimp only
  rw [overrunTest_poured tallied, startTallyTimer_eq, updChannel_poured, updChannel_updChannel, ← updPour_updPour kept]
  exact oweComputation_poured (s := s.updChannel l _) ready _ _ _ _

/-! ### POUR END -/

/-- The end of a pour noted for its summary, which is due. -/
def State.summaryDue (l : Loader) (n : Noted) (s : State) : State :=
  { s with
    terminal := { s.terminal with
      due := if .pourSummary l ∈ s.terminal.due then s.terminal.due else s.terminal.due ++ [.pourSummary l]
      noted := s.terminal.noted.put l (some n) } }

theorem noteEnd_poured {s : State} {h n : Nat} {list : List Pour} {p : Pour}
    (named : list.find? (fun q => decide (q.sequence = n)) = some p) (es : PerLoader Estimator) (causes : Nat) (l : Loader) :
    ((s.poured h list es causes).noteEnd l n).makeDue (.pourSummary l) =
      (s.summaryDue l ⟨p.sequence, p.hold, p.tallied⟩).poured h list es causes := by
  have there : (s.poured h list es causes).pour n = some p := named
  rw [State.noteEnd, there, makeDue_eq]
  rfl

theorem summaryDue_updChannel (l m : Loader) (n : Noted) (f : Channel → Channel) (s : State) :
    (s.summaryDue l n).updChannel m f = (s.updChannel m f).summaryDue l n := rfl

/-- The ACTIVE pour ended: DONE at its final tally, its hold by the list, the estimator closed, the timer stopped and the summary
noted and due. -/
theorem endActive_eq {s : State} (ready : s.ready = true) {p : Pour} (named : s.pour p.sequence = some p) (l : Loader)
    (final : Int) : s.endActive l p final =
      ((s.updChannel l fun c => (s.channelAtFinal p final c).timed none).summaryDue l
        ⟨p.sequence, p.hold, (s.atFinal p final p).tallied⟩).poured p.hold
        (s.updPour p.sequence fun q => (s.atFinal p final q).ended).pours.list
        (s.pours.estimators.put l ⟨none, 0⟩) (0 + (decide ((s.pours.estimators.get l).estimate ≠ 0)).toNat + 1) := by
  obtain ⟨sequence, hold⟩ : (s.atFinal p final p).ended.sequence = p.sequence ∧ (s.atFinal p final p).ended.hold = p.hold :=
    atFinal_kept s p final p
  have ended := pour_updPour named (f := fun q => (s.atFinal p final q).ended) fun q => (atFinal_kept s p final q).1
  show ((((((s.takeFinal l p final).updPour p.sequence Pour.ended).deriveHold p.hold).resetEstimator l).noteEnd l
    p.sequence).makeDue (.pourSummary l) |>.stopTallyTimer l).oweComputation = _
  rw [takeFinal_ended named]
  show ((((((s.updChannel l _).updPour p.sequence _).deriveHold p.hold).resetEstimator l).noteEnd l
    p.sequence).makeDue (.pourSummary l) |>.stopTallyTimer l).oweComputation = _
  rw [deriveHold_updPour (s := s.updChannel l _) ready, resetEstimator_poured (s := s.updChannel l _) ready,
    noteEnd_poured (list := (State.updPour _ _ (s.updChannel l _)).pours.list) ended, stopTallyTimer_eq, updChannel_poured,
    summaryDue_updChannel, updChannel_updChannel, oweComputation_poured (by exact ready), sequence, hold]
  rfl

/-! ### END POUR -/

/-- An INTERRUPTED pour closed: DONE, its hold by the list and the estimator of its loader closed. -/
theorem closePour_eq {s : State} (ready : s.ready = true) (p : Pour) : ∃ (es : PerLoader Estimator) (causes : Nat),
    s.closePour p = s.poured p.hold (s.updPour p.sequence Pour.ended).pours.list es (causes + 1) ∧
      (∀ l, es.get l = if p.loader = .one l then ⟨none, 0⟩ else s.pours.estimators.get l) ∧
      causes = (decide (p.loader = .one .l1 ∧ (s.pours.estimators.get .l1).estimate ≠ 0 ∨
        p.loader = .one .l2 ∧ (s.pours.estimators.get .l2).estimate ≠ 0)).toNat := by
  have closed : s.closePour p = (match p.loader.bound with
      | some l => (s.poured p.hold (s.updPour p.sequence Pour.ended).pours.list s.pours.estimators 0).resetEstimator l
      | none => s.poured p.hold (s.updPour p.sequence Pour.ended).pours.list s.pours.estimators 0).oweComputation := by
    rw [← deriveHold_updPour ready]; rfl
  rw [closed]
  cases loader : p.loader with
  | either => exact ⟨_, 0, oweComputation_poured ready _ _ _ _, by simp, by simp⟩
  | one l =>
    refine ⟨s.pours.estimators.put l ⟨none, 0⟩, 0 + (decide ((s.pours.estimators.get l).estimate ≠ 0)).toNat, ?_,
      fun m => ?_, ?_⟩
    · rw [PourLoader.bound]
      dsimp only
      rw [resetEstimator_poured ready]
      exact oweComputation_poured ready _ _ _ _
    · cases l <;> cases m <;> simp [PerLoader.put, PerLoader.get]
    · cases l <;> simp

/-- Closing an INTERRUPTED pour leaves the shares in its hold. -/
theorem sharesIn_closed {s : State} (ok : s.PoursOk) {p : Pour} (mem : p ∈ s.pours.list) (interrupted : p.state = .interrupted) :
    sharesIn (s.updPour p.sequence Pour.ended).pours.list p.hold = sharesIn s.pours.list p.hold := by
  refine sharesIn_map fun q hq => ?_
  split
  · rename_i named
    rw [ok.eq_of_sequence hq mem named]
    simp [Pour.shareOf, Pour.ended, interrupted]
  · rfl

/-! ### The notices as they run -/

section Notices

variable {s : State} (up : s.linkUp = true) (ready : s.ready = true) {l : Loader}

include up ready

theorem exec_tally_noPour (idle : s.activePour l = none) (v : BitVec 32) :
    exec (.tally l v) s = .next (s.noticeTaken.placeReply ⟨.tally, some l, none, some .noPour⟩) := by
  have here : s.noticeTaken.activePour l = none := idle
  refine congrArg Host.Outcome.next ((takeNotice_ready up (phase_of_ready ready)).trans ?_)
  show (match s.noticeTaken.activePour l with | none => _ | some _ => _) = _
  rw [here]; rfl

theorem exec_tally_below {p : Pour} (active : s.activePour l = some p) {v : BitVec 32}
    (below : ¬(p.tallied : Int) ≤ amountOf v.toInt) : exec (.tally l v) s =
      .next ((s.noticeTaken.tallyFault l).placeReply ⟨.tally, some l, none, some .regression⟩) := by
  have here : s.noticeTaken.activePour l = some p := active
  refine congrArg Host.Outcome.next ((takeNotice_ready up (phase_of_ready ready)).trans ?_)
  show (match s.noticeTaken.activePour l with | none => _ | some _ => _) = _
  rw [here]
  exact if_neg below

theorem exec_tally_taken {p : Pour} (active : s.activePour l = some p) {v : BitVec 32}
    (least : (p.tallied : Int) ≤ amountOf v.toInt) : exec (.tally l v) s =
      .next (s.noticeTaken.acceptTally l p (amountOf v.toInt).toNat) := by
  have here : s.noticeTaken.activePour l = some p := active
  refine congrArg Host.Outcome.next ((takeNotice_ready up (phase_of_ready ready)).trans ?_)
  show (match s.noticeTaken.activePour l with | none => _ | some _ => _) = _
  rw [here]
  exact if_pos least

theorem exec_pourEnd_noPour (idle : s.activePour l = none) (v : BitVec 32) :
    exec (.pourEnd l v) s = .next (s.noticeTaken.placeReply ⟨.pourEnd, some l, none, some .noPour⟩) := by
  have here : s.noticeTaken.activePour l = none := idle
  refine congrArg Host.Outcome.next ((takeNotice_ready up (phase_of_ready ready)).trans ?_)
  show (match s.noticeTaken.activePour l with | none => _ | some _ => _) = _
  rw [here]; rfl

theorem exec_pourEnd_active {p : Pour} (active : s.activePour l = some p) (v : BitVec 32) :
    exec (.pourEnd l v) s =
      .next ((s.noticeTaken.endActive l p v.toInt).placeReply ⟨.pourEnd, some l, none, none⟩) := by
  have here : s.noticeTaken.activePour l = some p := active
  refine congrArg Host.Outcome.next ((takeNotice_ready up (phase_of_ready ready)).trans ?_)
  show (match s.noticeTaken.activePour l with | none => _ | some _ => _) = _
  rw [here]; rfl

end Notices

/-- An END POUR is answered by the list in READY, and NO RECORD in PROFILE FAULT. -/
theorem exec_endPour {s : State} {h : ShipHead} (idle : s.shipIdle) (loaded : s.loading = false)
    (purging : s.startUp.purgeRunning = false) {a : Answer} (answer : s.endPourAnswer h.key.toNat = a) :
    exec (.endPour h) s = .next (a.state.replied 21 h a.status a.payload) := by
  have taken : s.actionRequest true (fun s => s.endPourAnswer h.key.toNat) = a := by
    simp [State.actionRequest, loaded, purging, answer]
  show Host.Outcome.next (s.takeRequest 21 h _) = _
  rw [takeRequest_idle idle, taken]
  rfl

theorem loading_of_ready {s : State} (ready : s.ready = true) : s.loading = false := by
  simp [State.loading, phase_of_ready ready]

/-- Settles O50: what TALLY, POUR END and END POUR each make of the pour, its hold, the estimator and the port. -/
theorem tallyAndPourEndActOnTheActivePour : Obligations.TallyAndPourEndActOnTheActivePour := by
  refine ⟨fun s h idle fault purging => ?_, fun s h idle ready purging ok => ?_, fun s l v up ready ok => ?_⟩
  · have faulty : s.ready = false := by simp [State.ready, fault]
    exact exec_endPour idle (by simp [State.loading, fault]) purging (a := s.answer .noRecord)
      (by simp [State.endPourAnswer, faulty])
  · have run {a : Answer} := exec_endPour (h := h) (a := a) idle (loading_of_ready ready) purging
    refine ⟨fun absent => run (a := s.answer .noRecord) (by simp [State.endPourAnswer, ready, absent]), fun p named =>
      ⟨fun other => run (a := s.answer .state) (by simp [State.endPourAnswer, ready, named, other]), fun interrupted => ?_⟩⟩
    obtain ⟨mem, -⟩ := mem_of_pour named
    obtain ⟨es, causes, closed, get, count⟩ := closePour_eq ready p
    have ran := run (a := ⟨.done, [], s.closePour p⟩) (by simp [State.endPourAnswer, ready, named, interrupted])
    rw [closed] at ran
    have list := List.map_congr_left fun q hq => if_congr (ok.sequence_eq_iff hq mem) (rfl : q.ended = q.ended) (rfl : q = q)
    refine ⟨_, ran, rfl, list, fun holds => ?_, ?_, get, rfl⟩
    · have stands := holds.stands (sharesIn_closed ok mem interrupted)
      refine ⟨(exec_keepsPours _ s _ ran ok).2.2 holds, stands, ?_⟩
      show ({ s.engine with dirty := s.engine.dirty || s.massMoved _ _ } : Engine) = s.engine
      rw [massMoved_of_stands stands, Bool.or_false]
    · rw [← count]
      show _ + (causes + 1) + (s.massMoved _ _).toNat = _ + 1 + causes + (s.massMoved _ _).toNat
      omega
  · refine ⟨fun idle => ⟨?_, ?_⟩, fun p active => ?_⟩
    · rw [exec_tally_noPour up ready idle, placeReply_eq]; rfl
    · rw [exec_pourEnd_noPour up ready idle, placeReply_eq]; rfl
    obtain ⟨mem, -, -⟩ := mem_of_activePour active
    have named := ok.pour_eq mem
    refine ⟨fun below => ?_, fun least => ?_, ?_⟩
    · rw [exec_tally_below up ready active (Int.not_le.2 below), placeReply_eq]; rfl
    · have run := exec_tally_taken up ready active least
      rw [acceptTally_eq (s := s.noticeTaken) ready named] at run
      dsimp only at run
      refine ⟨_, run, rfl, ?_, (exec_keepsPours _ s _ run ok).2.2, ?_, rfl⟩
      · refine pourController_ext (ok.map_named mem _) rfl ?_
        refine (causes_owed _ _ _).trans (congrArg (fun e : Estimator => s.pours.computationsOwed + 1 +
          (decide (e.estimate ≠ (s.pours.estimators.get l).estimate)).toNat + _) (PerLoader.get_put _ _ _).symm)
      · simp only [List.append_nil, ite_self]; rfl
    · have run := exec_pourEnd_active up ready active v
      rw [endActive_eq (s := s.noticeTaken) ready named, placeReply_eq] at run
      refine ⟨_, run, rfl, ?_, (exec_keepsPours _ s _ run ok).2.2, ?_, rfl⟩
      · exact pourController_ext (ok.map_named mem _) rfl (causes_owed _ _ _)
      · rfl

end Sys2Proof.Machine
end

