-- ==== Sys2Proof/Proofs/PutPour.lean ====
section
/-! PROOFS. PUT on POUR (spec 04 R56, R60 to R62): which values a Put may give a pour, what the pour becomes, and which check
refuses the others. -/

namespace Sys2Proof.Machine

/-! ### The values that a Put gives -/

/-- The number that a field of a row has after a Put: the one named, from 1 up to a bound, or else the old one, if any. -/
def numberNamed (ps : List Pair) (row most : Nat) (old : Option Nat) (x : Nat) : Prop :=
  intAt ps row 0 = some (x : Int) ∧ 1 ≤ x ∧ x ≤ most ∨ intAt ps row 0 = none ∧ old = some x

/-- The loader that a pour has after a Put: the old one, or the one of Table 4.1 that is named. -/
def loaderNamed (ps : List Pair) (old x : PourLoader) : Prop :=
  intAt ps 3 0 = none ∧ x = old ∨ intAt ps 3 0 = some 0 ∧ x = .one .l1 ∨ intAt ps 3 0 = some 1 ∧ x = .one .l2 ∨
    intAt ps 3 0 = some 2 ∧ x = .either

/-- The gate that a slot has after a Put: the old one, none, or the one whose tank and maximum mass are named. -/
def gateNamed (tanks : Nat) (ps : List Pair) (slot : Nat) (old x : Option Gate) : Prop :=
  (intAt ps 6 (2 * slot) = none ∧ intAt ps 6 (2 * slot + 1) = none ∧ x = old) ∨
  (intAt ps 6 (2 * slot) = some (-1) ∧ (intAt ps 6 (2 * slot + 1) = some (-1) ∨ intAt ps 6 (2 * slot + 1) = none) ∧
    x = none) ∨
  ∃ tank most : Nat, intAt ps 6 (2 * slot) = some (tank : Int) ∧ intAt ps 6 (2 * slot + 1) = some (most : Int) ∧
    1 ≤ tank ∧ tank ≤ tanks ∧ most ≤ 150000 ∧ x = some ⟨tank, most⟩

/-- The values of a Put are legal for a pour that has a hold and a planned mass, or has none yet. -/
def State.pourLegal (s : State) (ps : List Pair) (oldHold oldPlanned : Option Nat) : Prop :=
  (∃ x, numberNamed ps 2 s.counts.holds oldHold x) ∧ (∃ x, loaderNamed ps .either x) ∧
    (∃ x, numberNamed ps 4 400000 oldPlanned x) ∧ ∀ slot < 4, ∃ x, gateNamed s.counts.tanks ps slot none x

/-! ### The value named is the value stored -/

theorem elim_of_numberNamed {ps : List Pair} {row most old x : Nat} {was : Option Nat} (named : numberNamed ps row most was x)
    (same : ∀ y, was = some y → old = y) : (intAt ps row 0).elim old Int.toNat = x := by
  obtain ⟨value, -, -⟩ | ⟨unnamed, kept⟩ := named
  · rw [value]; exact Int.toNat_natCast x
  · rw [unnamed]; exact same x kept

theorem getD_of_loaderNamed {ps : List Pair} {old x : PourLoader} (named : loaderNamed ps old x) :
    ((intAt ps 3 0).bind (namedAt pourLoaders)).getD old = x := by
  obtain ⟨value, rfl⟩ | ⟨value, rfl⟩ | ⟨value, rfl⟩ | ⟨value, rfl⟩ := named <;> rw [value] <;> rfl

theorem gateAfter_of_gateNamed {tanks slot : Nat} {ps : List Pair} {old x : Option Gate}
    (named : gateNamed tanks ps slot old x) : gateAfter ps slot old = x := by
  unfold gateAfter
  obtain ⟨tank, most, rfl⟩ | ⟨tank, most | most, rfl⟩ | ⟨t, m, tank, most, -, -, -, rfl⟩ := named <;> rw [tank, most]
  · rfl
  · have positive : (t : Int) ≠ -1 := by omega
    simp [positive]

/-! ### The checks of the values -/

theorem numberNamed_iff {ps : List Pair} {row most : Nat} {old : Option Nat} :
    (∃ x, numberNamed ps row most old x) ↔
      (∀ v, intAt ps row 0 = some v → inRange 1 most v = true) ∧ (old = none → (intAt ps row 0).isNone = false) := by
  simp only [inRange, decide_eq_true_eq, numberNamed]
  cases value : intAt ps row 0 with
  | none => cases old <;> simp
  | some v =>
    simp only [Option.some.injEq, reduceCtorEq, false_and, or_false, forall_eq', Option.isNone_some, implies_true, and_true]
    constructor
    · rintro ⟨x, rfl, least, greatest⟩; omega
    · rintro ⟨least, greatest⟩; exact ⟨v.toNat, by omega⟩

theorem loaderNamed_iff {ps : List Pair} :
    (∃ x, loaderNamed ps .either x) ↔ ∀ v, intAt ps 3 0 = some v → (namedAt pourLoaders v).isSome = true := by
  cases value : intAt ps 3 0 with
  | none => simp [loaderNamed, value]
  | some v =>
    simp only [loaderNamed, value, Option.some.injEq, reduceCtorEq, false_and, false_or, forall_eq']
    constructor
    · rintro ⟨x, ⟨rfl, -⟩ | ⟨rfl, -⟩ | ⟨rfl, -⟩⟩ <;> rfl
    · intro there
      unfold namedAt at there
      split at there
      · exact absurd there (by simp)
      · rename_i nonneg
        have short : v.toNat < 3 := by simpa [pourLoaders] using there
        obtain rfl | rfl | rfl : v = 0 ∨ v = 1 ∨ v = 2 := by omega
        all_goals simp

theorem rowOf_fieldId {row place : Nat} (small : row < 256) (small' : place < 256) : rowOf (fieldId row place) = row := by
  simp only [rowOf, fieldId, BitVec.toNat_ofNat]; omega

theorem placeOf_fieldId {row place : Nat} (small : place < 256) : placeOf (fieldId row place) = place := by
  simp only [placeOf, fieldId, BitVec.toNat_ofNat]; omega

/-- The tank of a slot passes where it is -1, or counted and named with a maximum mass. -/
theorem gateFails_tank {tanks slot : Nat} {ps : List Pair} {p : Pair} (named : p.ident = fieldId 6 (2 * slot))
    (small : slot < 4) {t : Int} (tank : intAt ps 6 (2 * slot) = some t) : gateFails tanks ps p = false ↔
      t = -1 ∨ ((intAt ps 6 (2 * slot + 1)).isSome = true ∧ 1 ≤ t ∧ t ≤ tanks) := by
  have row : rowOf p.ident = 6 := named ▸ rowOf_fieldId (by omega) (by omega)
  have place : placeOf p.ident = 2 * slot := named ▸ placeOf_fieldId (by omega)
  have half : 2 * slot / 2 = slot := by omega
  simp only [gateFails, row, place, half, tank]
  cases intAt ps 6 (2 * slot + 1) <;> simp [inRange]
  by_cases empty : t = -1 <;> simp [empty]

/-- The maximum mass of a slot passes where the tank is named too: both -1, or the mass in range. -/
theorem gateFails_most {tanks slot : Nat} {ps : List Pair} {p : Pair} (named : p.ident = fieldId 6 (2 * slot + 1))
    (small : slot < 4) {m : Int} (most : intAt ps 6 (2 * slot + 1) = some m) : gateFails tanks ps p = false ↔
      ∃ t, intAt ps 6 (2 * slot) = some t ∧ if t = -1 then m = -1 else 0 ≤ m ∧ m ≤ 150000 := by
  have row : rowOf p.ident = 6 := named ▸ rowOf_fieldId (by omega) (by omega)
  have place : placeOf p.ident = 2 * slot + 1 := named ▸ placeOf_fieldId (by omega)
  have half : (2 * slot + 1) / 2 = slot := by omega
  simp only [gateFails, row, place, half, most]
  cases intAt ps 6 (2 * slot) with
  | none => simp
  | some t => by_cases empty : t = -1 <;> simp [empty, inRange]

theorem gateFails_otherRow {tanks : Nat} {ps : List Pair} {p : Pair} (other : rowOf p.ident ≠ 6) :
    gateFails tanks ps p = false := by
  simp [gateFails, other]

/-- A field that a Put on POUR may name is that of its hold, loader or planned mass, or one of a gate slot. -/
theorem mem_pourFields {i : BitVec 16} : i ∈ pourFields ↔ i = fieldId 2 0 ∨ i = fieldId 3 0 ∨ i = fieldId 4 0 ∨
    ∃ slot < 4, i = fieldId 6 (2 * slot) ∨ i = fieldId 6 (2 * slot + 1) := by
  simp only [pourFields, List.mem_append, List.mem_cons, List.not_mem_nil, or_false, List.mem_map, List.mem_range, or_assoc]
  refine or_congr_right (or_congr_right (or_congr_right ⟨?_, ?_⟩))
  · rintro ⟨place, small, rfl⟩
    refine ⟨place / 2, by omega, ?_⟩
    obtain even | odd := Nat.mod_two_eq_zero_or_one place
    · exact .inl (congrArg (fieldId 6) (by omega))
    · exact .inr (congrArg (fieldId 6) (by omega))
  · rintro ⟨slot, small, rfl | rfl⟩
    · exact ⟨2 * slot, by omega, rfl⟩
    · exact ⟨2 * slot + 1, by omega, rfl⟩

/-- The gate pairs of a Put pass where each slot is named with none, or with a tank and a maximum mass. -/
theorem gateFails_iff {tanks : Nat} {ps : List Pair} (known : ∀ p ∈ effective ps, p.ident ∈ pourFields) :
    (∀ p ∈ effective ps, gateFails tanks ps p = false) ↔ ∀ slot < 4, ∃ x, gateNamed tanks ps slot none x := by
  constructor
  · intro passes slot small
    cases tank : intAt ps 6 (2 * slot) with
    | none =>
      cases most : intAt ps 6 (2 * slot + 1) with
      | none => exact ⟨none, .inl ⟨tank, most, rfl⟩⟩
      | some m =>
        obtain ⟨p, mem, named, -⟩ := intAt_eq_some.1 most
        obtain ⟨t, tank', -⟩ := (gateFails_most named small most).1 (passes p mem)
        exact absurd (tank.symm.trans tank') (by simp)
    | some t =>
      obtain ⟨p, mem, named, -⟩ := intAt_eq_some.1 tank
      have first := (gateFails_tank named small tank).1 (passes p mem)
      cases most : intAt ps 6 (2 * slot + 1) with
      | none =>
        obtain rfl : t = -1 := by simpa [most] using first
        exact ⟨none, .inr (.inl ⟨tank, .inr most, rfl⟩)⟩
      | some m =>
        obtain ⟨q, mem', named', -⟩ := intAt_eq_some.1 most
        obtain ⟨t', tank', second⟩ := (gateFails_most named' small most).1 (passes q mem')
        obtain rfl : t = t' := Option.some.inj (tank.symm.trans tank')
        by_cases empty : t = -1
        · rw [if_pos empty] at second
          exact ⟨none, .inr (.inl ⟨empty ▸ tank, .inl (second ▸ most), rfl⟩)⟩
        · rw [if_neg empty] at second
          obtain ⟨-, least, counted⟩ := first.resolve_left empty
          obtain ⟨nonneg, light⟩ := second
          exact ⟨some ⟨t.toNat, m.toNat⟩, .inr (.inr ⟨t.toNat, m.toNat, by rw [tank]; congr 1; omega,
            by rw [most]; congr 1; omega, by omega, by omega, by omega, rfl⟩)⟩
  · intro legal p mem
    have value (row place : Nat) (named : p.ident = fieldId row place) : intAt ps row place = some p.value.toInt :=
      intAt_eq_some.2 ⟨p, mem, named, rfl⟩
    obtain other | other | other | ⟨slot, small, named | named⟩ := mem_pourFields.1 (known p mem)
    · exact gateFails_otherRow (by rw [other]; decide)
    · exact gateFails_otherRow (by rw [other]; decide)
    · exact gateFails_otherRow (by rw [other]; decide)
    · rw [gateFails_tank named small (value _ _ named)]
      obtain ⟨-, ⟨tank, -, -⟩ | ⟨tank, -, -⟩ | ⟨t, m, tank, most, least, counted, -, -⟩⟩ := legal slot small
      · exact absurd ((value _ _ named).symm.trans tank) (by simp)
      · exact .inl (Option.some.inj ((value _ _ named).symm.trans tank))
      · rw [Option.some.inj ((value _ _ named).symm.trans tank), most]
        exact .inr ⟨rfl, by omega, by omega⟩
    · rw [gateFails_most named small (value _ _ named)]
      obtain ⟨-, ⟨-, most, -⟩ | ⟨tank, most | most, -⟩ | ⟨t, m, tank, most, -, -, light, -⟩⟩ := legal slot small
      · exact absurd ((value _ _ named).symm.trans most) (by simp)
      · exact ⟨-1, tank, by simpa using Option.some.inj ((value _ _ named).symm.trans most)⟩
      · exact absurd ((value _ _ named).symm.trans most) (by simp)
      · rw [Option.some.inj ((value _ _ named).symm.trans most)]
        exact ⟨t, tank, by rw [if_neg (by omega)]; omega⟩

/-- No pair fails on its value, and no field that must be named is not, where the values are legal for the pour. -/
theorem pourLegal_iff {s : State} {ps : List Pair} (known : ∀ p ∈ effective ps, p.ident ∈ pourFields)
    {oldHold oldPlanned : Option Nat} : s.pourLegal ps oldHold oldPlanned ↔
      (∀ p ∈ effective ps, s.pourValueFails ps p = false) ∧ (oldHold = none → (intAt ps 2 0).isNone = false) ∧
        (oldPlanned = none → (intAt ps 4 0).isNone = false) := by
  have checks : (∀ p ∈ effective ps, s.pourValueFails ps p = false) ↔
      (∀ v, intAt ps 2 0 = some v → inRange 1 s.counts.holds v = true) ∧
      (∀ v, intAt ps 3 0 = some v → (namedAt pourLoaders v).isSome = true) ∧
      (∀ v, intAt ps 4 0 = some v → inRange 1 400000 v = true) ∧
      ∀ p ∈ effective ps, gateFails s.counts.tanks ps p = false := by
    simp only [State.pourValueFails, Bool.or_eq_false_iff, forall_and, valueFails_eq_false, Bool.not_eq_false', and_assoc,
      Option.isNone_eq_false_iff]
  rw [State.pourLegal, numberNamed_iff, loaderNamed_iff, numberNamed_iff, checks, gateFails_iff known]
  tauto

/-! ### The answers -/

/-- In READY, while no PURGE runs, a Put on POUR of a sequence in range is answered by the list. -/
theorem exec_putPour {s : State} {h : ShipHead} {ps : List Pair} (idle : s.shipIdle) (ready : s.ready = true)
    (purging : s.startUp.purgeRunning = false) (legal : countLegal ps = true) (table : h.table = 4)
    (range : 1 ≤ h.key.toNat ∧ h.key.toNat ≤ 999) {a : Answer} (answer : s.putPour h.key.toNat ps = a) :
    exec (.put h ps) s = .next (a.state.replied 2 h a.status a.payload) := by
  have code : Table.ofCode h.table.toNat = some .pour := by rw [table]; rfl
  have taken : s.recordRequest h false State.putExists (fun t k s => s.putRecord t k ps) = a := by
    simp [State.recordRequest, loading_of_ready ready, code, purging, State.putExists, ready, range, State.putRecord,
      legal, answer]
  show Host.Outcome.next (s.takeRequest 2 h _) = _
  rw [takeRequest_idle idle, taken]
  rfl

/-- The state of a pour lets a Put name its fields: all of a PLANNED pour, the planned mass alone of one that runs (R61). -/
def Pour.admits (p : Pour) (ps : List Pair) : Prop :=
  p.state = .planned ∨ ((p.state = .active ∨ p.state = .interrupted) ∧ ∀ q ∈ ps, q.ident = fieldId 4 0)

theorem Pour.admits.amendable {p : Pour} {ps : List Pair} (admits : p.admits ps) (known : ∀ q ∈ ps, q.ident ∈ pourFields) :
    ∀ q ∈ ps, q.ident ∈ amendable p.state := by
  intro q mem
  obtain planned | ⟨active | interrupted, only⟩ := admits
  · rw [planned]; exact known q mem
  · rw [active, only q mem]; exact .head _
  · rw [interrupted, only q mem]; exact .head _

/-- Another field of a pour that runs, and every field of a DONE pour, is one that its state does not let a Put name. -/
theorem not_amendable {p : Pour} {ps : List Pair} (nonempty : ps ≠ [])
    (barred : p.state = .done ∨ ((p.state = .active ∨ p.state = .interrupted) ∧ ∃ q ∈ ps, q.ident ≠ fieldId 4 0)) :
    ∃ q ∈ ps, q.ident ∉ amendable p.state := by
  obtain done | ⟨runs, q, mem, other⟩ := barred
  · obtain ⟨q, mem⟩ := List.exists_mem_of_ne_nil ps nonempty
    exact ⟨q, mem, by simp [done, amendable]⟩
  · refine ⟨q, mem, fun may => other (amendable_of_started ?_ may)⟩
    obtain active | interrupted := runs
    · simp [active]
    · simp [interrupted]

/-- A Put that names a field which a pour has not is refused BAD FIELD, whether it creates or amends. -/
theorem putPour_unknownField {s : State} {ps : List Pair} {k : Nat} (unknown : ∃ p ∈ ps, p.ident ∉ pourFields) :
    ∃ p ∈ ps, p.ident ∉ pourFields ∧ s.putPour k ps = ⟨.badField, [p], s⟩ := by
  unfold State.putPour
  cases s.pour k with
  | none =>
    obtain ⟨p, mem, other, first⟩ := firstFailure_unknownField _ unknown
    exact ⟨p, mem, other, takePut_refused first⟩
  | some q =>
    obtain ⟨p, mem, other, first⟩ := firstFailure_unknownField _ unknown
    exact ⟨p, mem, other, takePut_refused first⟩

section Known

variable {s : State} {ps : List Pair} (known : ∀ p ∈ ps, p.ident ∈ pourFields)

include known

theorem createPour_badValue {k : Nat} (illegal : ¬s.pourLegal ps none none) :
    ∃ qs, s.createPour k ps = ⟨.badValue, qs, s⟩ ∧ qs.length ≤ 1 ∧ ∀ q ∈ qs, q ∈ ps := by
  rw [pourLegal_iff fun p mem => known p (mem_of_mem_effective mem)] at illegal
  unfold State.createPour
  by_cases passes : ∀ p ∈ effective ps, s.pourValueFails ps p = false
  · refine ⟨[], takePut_refused ((firstFailure_knownFields _ known).trans ?_), Nat.zero_le _, by simp⟩
    have unnamed : ((intAt ps 2 0).isNone || (intAt ps 4 0).isNone) = true := by
      by_contra named
      simp only [Bool.not_eq_true, Bool.or_eq_false_iff] at named
      exact illegal ⟨passes, fun _ => named.1, fun _ => named.2⟩
    have clear : (effective ps).find? (s.pourValueFails ps) = none := List.find?_eq_none.2 fun p mem => by simp [passes p mem]
    simp [firstFailure, clear, unnamed]
  · obtain ⟨q, mem, -, first⟩ := firstFailure_of_fails (c := ⟨.badValue, s.pourValueFails ps, (intAt ps 2 0).isNone ||
      (intAt ps 4 0).isNone⟩) [⟨.full, fun _ => false, decide (48 ≤ s.pours.list.length)⟩] (by simpa using passes)
    exact ⟨[q], takePut_refused ((firstFailure_knownFields _ known).trans first), le_rfl,
      by simpa using mem_of_mem_effective mem⟩

/-- A creating Put of legal values comes down to the room in the list. -/
theorem createPour_legal {k : Nat} (legal : s.pourLegal ps none none) : s.createPour k ps =
    if 48 ≤ s.pours.list.length then ⟨.full, [], s⟩
    else
      let t := { s with pours.list := insertPour ((newPour k).afterPut ps) s.pours.list }.oweComputation
      ⟨.done, storedPairs ps (t.pourPairs k), t⟩ := by
  rw [pourLegal_iff fun p mem => known p (mem_of_mem_effective mem)] at legal
  obtain ⟨passes, hold, planned⟩ := legal
  have checks : firstFailure (effective ps) [unknownField pourFields,
      ⟨.badValue, s.pourValueFails ps, (intAt ps 2 0).isNone || (intAt ps 4 0).isNone⟩,
      ⟨.full, fun _ => false, decide (48 ≤ s.pours.list.length)⟩] =
      if 48 ≤ s.pours.list.length then some (.full, []) else none := by
    rw [firstFailure_knownFields _ known, firstFailure_of_passes _ passes (by simp [hold, planned])]
    have clear : (effective ps).find? (fun _ => false) = none := by simp
    simp [firstFailure, clear]
  unfold State.createPour
  split
  · rename_i full
    exact takePut_refused (by rw [checks, if_pos full])
  · rename_i room
    exact takePut_taken (by rw [checks, if_neg room])

theorem amendPour_state {k : Nat} {p : Pour} (barred : ∃ q ∈ ps, q.ident ∉ amendable p.state) :
    ∃ q ∈ ps, s.amendPour k p ps = ⟨.state, [q], s⟩ := by
  obtain ⟨r, mem, other⟩ := barred
  obtain ⟨r', mem', same⟩ := exists_effective mem
  obtain ⟨q, hq, -, first⟩ := firstFailure_of_fails (c := ⟨.state, fun q => decide (q.ident ∉ amendable p.state), false⟩)
    [⟨.badValue, s.pourValueFails ps, false⟩] ⟨r', mem', by simpa [same] using other⟩
  exact ⟨q, mem_of_mem_effective hq, takePut_refused ((firstFailure_knownFields _ known).trans first)⟩

theorem amendPour_badValue {k : Nat} {p : Pour} (admits : p.admits ps)
    (illegal : ¬s.pourLegal ps (some p.hold) (some p.planned)) : ∃ q ∈ ps, s.amendPour k p ps = ⟨.badValue, [q], s⟩ := by
  have may := admits.amendable known
  rw [pourLegal_iff fun p mem => known p (mem_of_mem_effective mem)] at illegal
  obtain ⟨q, mem, -, first⟩ := firstFailure_of_fails (ps := effective ps) (c := ⟨.badValue, s.pourValueFails ps, false⟩) []
    (by simpa using illegal)
  exact ⟨q, mem_of_mem_effective mem, takePut_refused ((firstFailure_knownFields _ known).trans
    ((firstFailure_of_passes _ (fun q hq => by simpa using may q (mem_of_mem_effective hq)) rfl).trans first))⟩

theorem amendPour_legal {k : Nat} {p : Pour} (admits : p.admits ps)
    (legal : s.pourLegal ps (some p.hold) (some p.planned)) : s.amendPour k p ps =
      let t := (s.updPour k (·.afterPut ps)).oweComputation
      ⟨.done, storedPairs ps (t.pourPairs k), t⟩ := by
  have may := admits.amendable known
  rw [pourLegal_iff fun p mem => known p (mem_of_mem_effective mem)] at legal
  refine takePut_taken ((firstFailure_knownFields _ known).trans ?_)
  rw [firstFailure_of_passes _ (fun q hq => by simpa using may q (mem_of_mem_effective hq)) rfl,
    firstFailure_of_passes _ legal.1 rfl]
  rfl

end Known

/-! ### What is stored -/

theorem loaderNamed.anew {ps : List Pair} {old x : PourLoader} (named : loaderNamed ps old x) :
    ∃ y, loaderNamed ps .either y := by
  obtain ⟨value, -⟩ | value := named
  · exact ⟨.either, .inl ⟨value, rfl⟩⟩
  · exact ⟨x, .inr value⟩

theorem gateNamed.anew {tanks slot : Nat} {ps : List Pair} {old x : Option Gate} (named : gateNamed tanks ps slot old x) :
    ∃ y, gateNamed tanks ps slot none y := by
  obtain ⟨tank, most, -⟩ | value := named
  · exact ⟨none, .inl ⟨tank, most, rfl⟩⟩
  · exact ⟨x, .inr value⟩

/-- What a Put gives a pour: its hold, loader, planned mass and gates, from the old values where it has any. -/
structure PourNamed (s : State) (ps : List Pair) (p : Pour) (oldHold oldPlanned : Option Nat) (q : Pour) : Prop where
  hold : numberNamed ps 2 s.counts.holds oldHold q.hold
  loader : loaderNamed ps p.loader q.loader
  planned : numberNamed ps 4 400000 oldPlanned q.planned
  gate1 : gateNamed s.counts.tanks ps 0 p.gate1 q.gate1
  gate2 : gateNamed s.counts.tanks ps 1 p.gate2 q.gate2
  gate3 : gateNamed s.counts.tanks ps 2 p.gate3 q.gate3
  gate4 : gateNamed s.counts.tanks ps 3 p.gate4 q.gate4

theorem PourNamed.legal {s : State} {ps : List Pair} {p q : Pour} {oldHold oldPlanned : Option Nat}
    (named : PourNamed s ps p oldHold oldPlanned q) : s.pourLegal ps oldHold oldPlanned :=
  ⟨⟨_, named.hold⟩, named.loader.anew, ⟨_, named.planned⟩, fun
    | 0, _ => named.gate1.anew
    | 1, _ => named.gate2.anew
    | 2, _ => named.gate3.anew
    | 3, _ => named.gate4.anew⟩

/-- The pour that a Put stores has the values named. -/
theorem PourNamed.stored {s : State} {ps : List Pair} {p q : Pour} {oldHold oldPlanned : Option Nat}
    (named : PourNamed s ps p oldHold oldPlanned q) (hold : ∀ y, oldHold = some y → p.hold = y)
    (planned : ∀ y, oldPlanned = some y → p.planned = y) : p.afterPut ps = { p with
      hold := q.hold, loader := q.loader, planned := q.planned
      gate1 := q.gate1, gate2 := q.gate2, gate3 := q.gate3, gate4 := q.gate4 } := by
  rw [Pour.afterPut, elim_of_numberNamed named.hold hold, getD_of_loaderNamed named.loader,
    elim_of_numberNamed named.planned planned, gateAfter_of_gateNamed named.gate1, gateAfter_of_gateNamed named.gate2,
    gateAfter_of_gateNamed named.gate3, gateAfter_of_gateNamed named.gate4]

/-- Settles O40: the checks of a Put on POUR in their order, and the pour that a Put which passes them stores. -/
theorem putCreatesAndAmendsPours : Obligations.PutCreatesAndAmendsPours := by
  intro s h ps idle ready ok purging count table
  have ranged {p : Pour} (named : s.pour h.key.toNat = some p) : 1 ≤ h.key.toNat ∧ h.key.toNat ≤ 999 := by
    obtain ⟨mem, sequence⟩ := mem_of_pour named
    exact sequence ▸ ok.2.2 p mem
  have run {a : Answer} := exec_putPour (h := h) (ps := ps) (a := a) idle ready purging count table
  refine ⟨fun unknown key => ?_, fun known => ?_⟩
  · have range : 1 ≤ h.key.toNat ∧ h.key.toNat ≤ 999 := by
      obtain there | range := key
      · obtain ⟨p, named⟩ := Option.ne_none_iff_exists'.1 there
        exact ranged named
      · exact range
    obtain ⟨p, mem, other, refused⟩ := putPour_unknownField (s := s) (k := h.key.toNat) unknown
    exact ⟨p, mem, run range refused, other⟩
  replace known : ∀ p ∈ ps, p.ident ∈ pourFields := known
  refine ⟨fun fresh least most => ⟨fun illegal => ?_, fun legal full => ?_⟩, ?_, fun p named => ⟨?_, fun barred => ?_,
    fun admits illegal => ?_⟩⟩
  · have creates : s.putPour h.key.toNat ps = s.createPour h.key.toNat ps := by rw [State.putPour, fresh]
    obtain ⟨qs, refused, short, named⟩ := createPour_badValue (s := s) (k := h.key.toNat) known illegal
    exact ⟨qs, run ⟨least, most⟩ (creates.trans refused), short, named⟩
  · have creates : s.putPour h.key.toNat ps = s.createPour h.key.toNat ps := by rw [State.putPour, fresh]
    exact run ⟨least, most⟩ (creates.trans ((createPour_legal known legal).trans (if_pos full)))
  · intro hold loader planned g1 g2 g3 g4 fresh least most room hHold hLoader hPlanned h1 h2 h3 h4
    have creates : s.putPour h.key.toNat ps = s.createPour h.key.toNat ps := by rw [State.putPour, fresh]
    let made : Pour := { newPour h.key.toNat with
      hold := hold, loader := loader, planned := planned, gate1 := g1, gate2 := g2, gate3 := g3, gate4 := g4 }
    have named : PourNamed s ps (newPour h.key.toNat) none none made := ⟨hHold, hLoader, hPlanned, h1, h2, h3, h4⟩
    have taken := creates.trans ((createPour_legal (k := h.key.toNat) known named.legal).trans (if_neg (Nat.not_le.2 room)))
    have ran := run ⟨least, most⟩ taken
    rw [oweComputation_eq (by exact ready), named.stored (by simp) (by simp)] at ran
    refine ⟨_, ran, (exec_keepsPours _ s _ ran ok).1, rfl, rfl, fun q => ?_⟩
    exact (insertPour_perm made s.pours.list).mem_iff.trans (List.mem_cons.trans or_comm)
  · intro hold loader planned g1 g2 g3 g4 admits hHold hLoader hPlanned h1 h2 h3 h4
    have amends : s.putPour h.key.toNat ps = s.amendPour h.key.toNat p ps := by rw [State.putPour, named]
    let made : Pour := { p with
      hold := hold, loader := loader, planned := planned, gate1 := g1, gate2 := g2, gate3 := g3, gate4 := g4 }
    have given : PourNamed s ps p (some p.hold) (some p.planned) made := ⟨hHold, hLoader, hPlanned, h1, h2, h3, h4⟩
    have ran := run (ranged named) (amends.trans (amendPour_legal (k := h.key.toNat) known admits given.legal))
    obtain ⟨mem, sequence⟩ := mem_of_pour named
    have after : p.afterPut ps = made := given.stored (by simp) (by simp)
    have stored : s.updPour h.key.toNat (·.afterPut ps) =
        { s with pours.list := s.pours.list.map fun q => if q.sequence = p.sequence then made else q } := by
      refine congrArg (fun l => ({ s with pours.list := l } : State)) (List.map_congr_left fun q hq => ?_)
      rw [← sequence]
      split
      · rename_i same
        rw [(ok.sequence_eq_iff hq mem).1 same]; exact after
      · rfl
    rw [oweComputation_eq (by exact ready), stored] at ran
    exact ⟨_, ran, rfl, rfl⟩
  · have amends : s.putPour h.key.toNat ps = s.amendPour h.key.toNat p ps := by rw [State.putPour, named]
    obtain ⟨q, mem, refused⟩ := amendPour_state (s := s) (k := h.key.toNat) known
      (not_amendable (ne_nil_of_countLegal count) barred)
    exact ⟨q, mem, run (ranged named) (amends.trans refused)⟩
  · have amends : s.putPour h.key.toNat ps = s.amendPour h.key.toNat p ps := by rw [State.putPour, named]
    obtain ⟨q, mem, refused⟩ := amendPour_badValue (s := s) (k := h.key.toNat) known admits illegal
    exact ⟨q, mem, run (ranged named) (amends.trans refused)⟩

end Sys2Proof.Machine
end

