-- ==== Sys2Proof/Proofs/BallastRules.lean ====
section
/-! PROOFS. Rules of the Ballast Sequencer's state (spec 05, spec 06): what an order, a queue, a station or a valve reads as after
each write, what commands change, and what a scan finds. -/

namespace Sys2Proof.Machine

/-! ### Records that exist -/

/-- The station of a group stands with its queue. -/
def State.grouped (s : State) (g : Nat) : Prop :=
  1 ≤ g ∧ g ≤ s.ballast.queues.length ∧ g ≤ s.ballast.stations.length

/-- A valve stands in the valve table. -/
def State.valved (s : State) : ValveId → Prop
  | .tank n => 1 ≤ n ∧ n ≤ s.ballast.tankValves.length
  | .suction n => 1 ≤ n ∧ n ≤ s.ballast.suctionValves.length
  | .overboard n => 1 ≤ n ∧ n ≤ s.ballast.overboardValves.length

theorem BallastFrame.lengths {s t : State} (f : BallastFrame s t) :
    t.ballast.queues.length = s.ballast.queues.length ∧ t.ballast.stations.length = s.ballast.stations.length ∧
      t.ballast.tankValves.length = s.ballast.tankValves.length ∧
      t.ballast.suctionValves.length = s.ballast.suctionValves.length ∧
      t.ballast.overboardValves.length = s.ballast.overboardValves.length := by
  have shape := f.shape
  simp only [Sequencer.shape, List.cons.injEq, and_true] at shape
  exact shape.2

theorem BallastFrame.grouped {s t : State} (f : BallastFrame s t) {g : Nat} (there : s.grouped g) : t.grouped g := by
  obtain ⟨queues, stations, -⟩ := f.lengths
  rw [State.grouped, queues, stations]
  exact there

theorem BallastFrame.valved {s t : State} (f : BallastFrame s t) {v : ValveId} (there : s.valved v) : t.valved v := by
  obtain ⟨-, -, tanks, suction, overboard⟩ := f.lengths
  cases v <;> simpa only [State.valved, tanks, suction, overboard] using there

theorem grouped_of_hasGroup {s : State} (ready : s.ready = true) (ok : s.RecordsOk) {g : Nat} (counted : s.hasGroup g = true) :
    s.grouped g := by
  obtain ⟨-, -, -, shape⟩ := ok.fits ready
  simp only [Sequencer.shape, List.cons.injEq, and_true] at shape
  simp only [State.hasGroup, Bool.and_eq_true, decide_eq_true_eq] at counted
  unfold State.grouped
  omega

theorem valved_of_hasValve {s : State} (ready : s.ready = true) (ok : s.RecordsOk) {v : ValveId} (counted : s.hasValve v = true) :
    s.valved v := by
  obtain ⟨-, -, -, shape⟩ := ok.fits ready
  simp only [Sequencer.shape, List.cons.injEq, and_true] at shape
  cases v with
  | tank n | suction n | overboard n =>
    simp only [State.hasValve, State.hasGroup, State.hasTank, Bool.and_eq_true, decide_eq_true_eq] at counted
    unfold State.valved
    omega

/-- A tank valve that is owned stands in the table. -/
theorem valved_of_owned {s : State} {t g : Nat} (owned : (s.valve (.tank t)).owner = some g) : s.valved (.tank t) := by
  cases t with
  | zero => exact absurd (show none = some g from owned) (by simp)
  | succ n =>
    refine ⟨Nat.succ_le_succ n.zero_le, Nat.lt_of_not_le fun beyond => ?_⟩
    have missing : nth1 s.ballast.tankValves (n + 1) = none := List.getElem?_eq_none beyond
    rw [State.valve, missing] at owned
    exact absurd (show none = some g from owned) (by simp)

/-! ### Reads after writes -/

theorem getD_nth1_modify1 {α : Type} {l : List α} {n : Nat} (there : 1 ≤ n ∧ n ≤ l.length) (f : α → α) (d : α) :
    (nth1 (modify1 l n f) n).getD d = f ((nth1 l n).getD d) := by
  rw [nth1_modify1_self (nth1_eq_some_getD d there)]; rfl

theorem getD_nth1_modify1_ne {α : Type} {l : List α} {n m : Nat} (other : m ≠ n) (f : α → α) (d : α) :
    (nth1 (modify1 l n f) m).getD d = (nth1 l m).getD d := by
  rw [nth1_modify1, if_neg other]

/-- An element is changed, or no list element has its number. -/
theorem getD_nth1_modify1_cases {α : Type} (l : List α) (n : Nat) (f : α → α) (d : α) :
    (nth1 (modify1 l n f) n).getD d = (nth1 l n).getD d ∨ (nth1 (modify1 l n f) n).getD d = f ((nth1 l n).getD d) := by
  rw [nth1_modify1, if_pos rfl]
  cases nth1 l n with
  | none => exact .inl rfl
  | some a => exact .inr rfl

theorem order_setOrder_none (n k : Nat) (s : State) : (s.setOrder n none).order k = if k = n then none else s.order k := by
  simp only [State.order, State.setOrder, nth1_modify1]
  split
  · cases nth1 s.ballast.orders k <;> rfl
  · rfl

theorem order_updOrder (n k : Nat) (f : Order → Order) (s : State) :
    (s.updOrder n f).order k = if k = n then (s.order k).map f else s.order k := by
  simp only [State.order, State.updOrder, nth1_modify1]
  split
  · cases nth1 s.ballast.orders k <;> rfl
  · rfl

theorem queue_setQueue_self {s : State} {g : Nat} (there : s.grouped g) (q : List Nat) : (s.setQueue g q).queue g = q :=
  getD_nth1_modify1 ⟨there.1, there.2.1⟩ _ _

theorem queue_setQueue_ne {s : State} {g h : Nat} (other : h ≠ g) (q : List Nat) : (s.setQueue g q).queue h = s.queue h :=
  getD_nth1_modify1_ne other _ _

theorem station_updStation_self {s : State} {g : Nat} (there : s.grouped g) (f : Station → Station) :
    (s.updStation g f).station g = f (s.station g) :=
  getD_nth1_modify1 ⟨there.1, there.2.2⟩ _ _

theorem station_updStation_ne {s : State} {g h : Nat} (other : h ≠ g) (f : Station → Station) :
    (s.updStation g f).station h = s.station h :=
  getD_nth1_modify1_ne other _ _

theorem station_updStation_cases (s : State) (g : Nat) (f : Station → Station) :
    (s.updStation g f).station g = s.station g ∨ (s.updStation g f).station g = f (s.station g) :=
  getD_nth1_modify1_cases _ _ _ _

theorem valve_updStation (s : State) (g : Nat) (f : Station → Station) (v : ValveId) : (s.updStation g f).valve v = s.valve v := by
  cases v <;> rfl

theorem valve_updValve_self {s : State} {v : ValveId} (there : s.valved v) (f : Valve → Valve) :
    (s.updValve v f).valve v = f (s.valve v) := by
  cases v <;> exact getD_nth1_modify1 there _ _

theorem valve_updValve_ne {s : State} {v w : ValveId} (other : w ≠ v) (f : Valve → Valve) :
    (s.updValve v f).valve w = s.valve w := by
  cases v with
  | tank n =>
    cases w with
    | tank m => exact getD_nth1_modify1_ne (fun same => other (congrArg ValveId.tank same)) _ _
    | suction m | overboard m => rfl
  | suction n =>
    cases w with
    | suction m => exact getD_nth1_modify1_ne (fun same => other (congrArg ValveId.suction same)) _ _
    | tank m | overboard m => rfl
  | overboard n =>
    cases w with
    | overboard m => exact getD_nth1_modify1_ne (fun same => other (congrArg ValveId.overboard same)) _ _
    | tank m | suction m => rfl

theorem valve_updValve_cases (s : State) (v : ValveId) (f : Valve → Valve) :
    (s.updValve v f).valve v = s.valve v ∨ (s.updValve v f).valve v = f (s.valve v) := by
  cases v <;> exact getD_nth1_modify1_cases _ _ _ _

/-! ### Commands to valves -/

theorem commandValve_of_commanded {s : State} {v : ValveId} {p : ValveCommand} (same : (s.valve v).commanded = p) :
    s.commandValve v p = s := if_pos same

theorem valve_placeCommand (c : FieldCommand) (s : State) (v : ValveId) : (s.placeCommand c).valve v = s.valve v := by
  cases v <;> rfl

theorem valve_sendValve_ne {s : State} {v w : ValveId} (other : w ≠ v) (p : ValveCommand) :
    (s.sendValve v p).valve w = s.valve w := (valve_placeCommand _ _ _).trans (valve_updValve_ne other _)

/-- A command that is sent leaves the valve's owner, and the valve unconfirmed. -/
theorem valve_sendValve_self (s : State) (v : ValveId) (p : ValveCommand) :
    ((s.sendValve v p).valve v).owner = (s.valve v).owner ∧
      ((s.sendValve v p).valve v = s.valve v ∨ ((s.sendValve v p).valve v).confirmed = false) ∧
      (s.valved v → ((s.sendValve v p).valve v).commanded = p) := by
  rw [State.sendValve, valve_placeCommand]
  refine ⟨?_, ?_, fun there => by rw [valve_updValve_self there]⟩
  · obtain same | sent := valve_updValve_cases s v fun x =>
      { x with commanded := p, confirmed := false, deadline := some (later s.clock (s.classTimeout v)) }
    · rw [same]
    · rw [sent]
  · obtain same | sent := valve_updValve_cases s v fun x =>
      { x with commanded := p, confirmed := false, deadline := some (later s.clock (s.classTimeout v)) }
    · exact .inl same
    · rw [sent]; exact .inr rfl

theorem valve_commandValve_ne {s : State} {v w : ValveId} (other : w ≠ v) (p : ValveCommand) :
    (s.commandValve v p).valve w = s.valve w := by
  unfold State.commandValve
  split
  · rfl
  · exact valve_sendValve_ne other p

theorem commanded_commandValve {s : State} {v : ValveId} (there : s.valved v) (p : ValveCommand) :
    ((s.commandValve v p).valve v).commanded = p := by
  unfold State.commandValve
  split
  · assumption
  · exact (valve_sendValve_self s v p).2.2 there

/-- A valve commanded to a position stays so when a valve is commanded to it. -/
theorem commanded_of_commandValve {s : State} {w : ValveId} {p : ValveCommand} (there : s.valved w)
    (was : (s.valve w).commanded = p) (v : ValveId) : ((s.commandValve v p).valve w).commanded = p := by
  by_cases same : w = v
  · subst same; exact commanded_commandValve there p
  · rw [valve_commandValve_ne same]; exact was

/-- A command confirms no valve anywhere. -/
theorem unconfirmed_commandValve {s : State} {w : ValveId} {q : ValveCommand} (un : s.confirmedAt w q = false) (v : ValveId)
    (p : ValveCommand) : (s.commandValve v p).confirmedAt w q = false := by
  unfold State.confirmedAt at un ⊢
  by_cases same : w = v
  · subst same
    unfold State.commandValve
    split
    · exact un
    · obtain kept | sent := (valve_sendValve_self s w p).2.1
      · rw [kept]; exact un
      · rw [sent, Bool.and_false]
  · rw [valve_commandValve_ne same]; exact un

/-! ### Commands leave the sequencer's work -/

/-- From `s` to `t` valves have been commanded: orders, queues, stations and the owners of the valves stand. -/
structure Commanded (s t : State) : Prop where
  frame : BallastFrame s t
  orders : t.ballast.orders = s.ballast.orders
  queues : t.ballast.queues = s.ballast.queues
  stations : t.ballast.stations = s.ballast.stations
  owners : ∀ v, (t.valve v).owner = (s.valve v).owner

theorem Commanded.refl (s : State) : Commanded s s := ⟨.refl s, rfl, rfl, rfl, fun _ => rfl⟩

theorem Commanded.trans {s t u : State} (h : Commanded s t) (k : Commanded t u) : Commanded s u :=
  ⟨h.frame.trans k.frame, k.orders.trans h.orders, k.queues.trans h.queues, k.stations.trans h.stations,
    fun v => (k.owners v).trans (h.owners v)⟩

theorem Commanded.order {s t : State} (h : Commanded s t) (k : Nat) : t.order k = s.order k := by
  rw [State.order, State.order, h.orders]

theorem Commanded.queue {s t : State} (h : Commanded s t) (g : Nat) : t.queue g = s.queue g := by
  rw [State.queue, State.queue, h.queues]

theorem Commanded.station {s t : State} (h : Commanded s t) (g : Nat) : t.station g = s.station g := by
  rw [State.station, State.station, h.stations]

theorem sendValve_commanded (v : ValveId) (p : ValveCommand) (s : State) : Commanded s (s.sendValve v p) := by
  refine ⟨sendValve_frame v p s, by simp [State.sendValve, State.placeCommand], by simp [State.sendValve, State.placeCommand],
    by simp [State.sendValve, State.placeCommand], fun w => ?_⟩
  by_cases same : w = v
  · subst same; exact (valve_sendValve_self s w p).1
  · rw [valve_sendValve_ne same]

theorem commandValve_commanded (v : ValveId) (p : ValveCommand) (s : State) : Commanded s (s.commandValve v p) := by
  unfold State.commandValve
  split
  · exact .refl s
  · exact sendValve_commanded v p s

/-! ### Tank valves shut -/

/-- A tank valve that is not confirmed SHUT is commanded SHUT and stays owned (spec 06 R97). -/
theorem shutTank_of_unconfirmed {s : State} {t : Nat} (un : s.confirmedAt (.tank t) .shut = false) :
    s.shutTank t = s.commandValve (.tank t) .shut := by
  have after := unconfirmed_commandValve un (.tank t) .shut
  unfold State.shutTank State.releaseIfShut
  split
  · exact if_neg (by rw [after]; exact Bool.false_ne_true)
  · rfl

/-- Tank valves none of which is confirmed SHUT are commanded SHUT, each of them stays owned, and none is confirmed SHUT then. -/
theorem shutTanks_of_unconfirmed {ts : List Nat} {s : State} (un : ∀ t ∈ ts, s.confirmedAt (.tank t) .shut = false) :
    Commanded s (ts.foldl (fun s t => s.shutTank t) s) ∧
      (∀ v, (∀ t ∈ ts, v ≠ .tank t) → (ts.foldl (fun s t => s.shutTank t) s).valve v = s.valve v) ∧
      (∀ v, s.confirmedAt v .shut = false → (ts.foldl (fun s t => s.shutTank t) s).confirmedAt v .shut = false) ∧
      ∀ v, s.valved v → (s.valve v).commanded = .shut ∨ (∃ t ∈ ts, v = .tank t) →
        ((ts.foldl (fun s t => s.shutTank t) s).valve v).commanded = .shut := by
  induction ts generalizing s with
  | nil => exact ⟨.refl s, fun _ _ => rfl, fun _ h => h, fun v _ h => h.resolve_right (by simp)⟩
  | cons t ts ih =>
    obtain ⟨first, rest⟩ := List.forall_mem_cons.1 un
    have next {v : ValveId} (h : s.confirmedAt v .shut = false) := unconfirmed_commandValve h (.tank t) .shut
    rw [List.foldl_cons, shutTank_of_unconfirmed first]
    obtain ⟨commanded, others, unconfirmed, shut⟩ := ih fun u mem => next (rest u mem)
    refine ⟨(commandValve_commanded _ _ s).trans commanded, fun v none => ?_, fun v h => unconfirmed v (next h),
      fun v there named => shut v ((commandValve_frame _ _ s).valved there) ?_⟩
    · rw [others v fun u mem => none u (.tail _ mem), valve_commandValve_ne (none t (.head _))]
    · obtain was | ⟨u, mem, rfl⟩ := named
      · exact .inl (commanded_of_commandValve there was _)
      · obtain rfl | mem := List.mem_cons.1 mem
        · exact .inl (commanded_commandValve there _)
        · exact .inr ⟨u, mem, rfl⟩

/-! ### What a scan finds (spec 05 R81 to R83) -/

theorem metInQueue_eq (s : State) (k : Nat) :
    s.metInQueue k = (s.order k).any fun o => decide ((s.tank k).current ≤ o.target) := by
  unfold State.metInQueue
  cases s.order k <;> rfl

/-- A tank without an order, or at or below its target, is not eligible. -/
theorem not_eligible {s : State} {k : Nat} (idle : s.order k = none ∨ s.metInQueue k = true) : s.eligible k = false := by
  unfold State.eligible
  dsimp only
  obtain none | met := idle
  · simp [none]
  · rw [metInQueue_eq, Option.any_eq_true] at met
    obtain ⟨o, here, low⟩ := met
    have low : (s.tank k).current ≤ o.target := by simpa using low
    simp [here, Nat.not_lt.2 low]

/-- The orders that a scan passes before it takes one. -/
def State.passed (s : State) (q : List Nat) : List Nat := q.takeWhile fun k => !s.eligible k

/-- The orders that a scan leaves behind the one taken. -/
def State.behind (s : State) (q : List Nat) : List Nat := q.drop ((s.passed q).length + 1)

theorem scanQueue_eq (s : State) (q : List Nat) : s.scanQueue q =
    ((s.passed q).filter s.metInQueue, q.find? s.eligible,
      (s.passed q).filter (fun k => !s.metInQueue k) ++ s.behind q) := by
  unfold State.behind State.passed
  induction q with
  | nil => rfl
  | cons k q ih =>
    unfold State.scanQueue
    by_cases met : s.metInQueue k = true
    · have skip := not_eligible (.inr met)
      simp [ih, met, skip]
    · by_cases takes : s.eligible k = true
      · simp [met, takes]
      · simp [ih, met, takes]

/-- The order that a scan takes is eligible. -/
theorem eligible_of_taken {s : State} {q : List Nat} {k : Nat} (taken : q.find? s.eligible = some k) : s.eligible k = true :=
  List.find?_some taken

/-! ### What a scan leaves -/

/-- The orders completed change the orders alone. -/
theorem completed_rest (c : Completion) (l : List Nat) (s : State) :
    l.foldl (fun s t => s.updOrder t (Order.complete c)) s = { s with ballast := { s.ballast with
      orders := (l.foldl (fun s t => s.updOrder t (Order.complete c)) s).ballast.orders } } := by
  induction l generalizing s with
  | nil => rfl
  | cons t l ih => exact ih (s.updOrder t (Order.complete c))

theorem order_completed (c : Completion) (l : List Nat) (k : Nat) (s : State) :
    (l.foldl (fun s t => s.updOrder t (Order.complete c)) s).order k =
      if k ∈ l then (s.order k).map (Order.complete c) else s.order k := by
  induction l generalizing s with
  | nil => simp
  | cons t l ih =>
    rw [List.foldl_cons, ih, order_updOrder]
    by_cases here : k = t
    · subst here
      rw [if_pos rfl, if_pos (List.mem_cons_self ..), Option.map_map]
      exact ite_self _
    · simp only [List.mem_cons, here, false_or, if_false]

/-- The orders that a scan of the group's queue finds met. -/
def State.foundMet (s : State) (g : Nat) : List Nat := (s.passed (s.queue g)).filter s.metInQueue

/-- The order that a scan of the group's queue takes. -/
def State.taken (s : State) (g : Nat) : Option Nat := (s.queue g).find? s.eligible

/-- The queue that a scan of the group leaves. -/
def State.left (s : State) (g : Nat) : List Nat :=
  (s.passed (s.queue g)).filter (fun k => !s.metInQueue k) ++ s.behind (s.queue g)

/-- The station once it has scanned its group's queue. -/
def State.scanner (s : State) (g : Nat) (st : Station) : Station :=
  { st with doneFlag := st.doneFlag || !(s.foundMet g).isEmpty, active := s.taken g }

/-- A scan changes the orders, the group's queue and its station alone. -/
theorem scan_eq (g : Nat) (s : State) : s.scan g = { s with ballast := { s.ballast with
    orders := (s.scan g).ballast.orders
    queues := modify1 s.ballast.queues g fun _ => s.left g
    stations := modify1 s.ballast.stations g (s.scanner g) } } := by
  have met := completed_rest .met (s.foundMet g) s
  unfold State.scan
  rw [scanQueue_eq]
  dsimp only
  unfold State.foundMet at met
  rw [met]
  split <;> rfl

theorem order_scan (g k : Nat) (s : State) : (s.scan g).order k =
    let o := if k ∈ s.foundMet g then (s.order k).map (Order.complete .met) else s.order k
    if s.taken g = some k then o.map Order.take else o := by
  have met := order_completed .met (s.foundMet g) k s
  unfold State.scan
  rw [scanQueue_eq]
  dsimp only
  rw [← State.taken, ← State.foundMet]
  cases taken : s.taken g with
  | none => exact met
  | some n =>
    dsimp only
    rw [order_updOrder]
    simp only [Option.some.injEq, eq_comm (a := n)]
    split
    · exact congrArg _ met
    · exact met

theorem valve_scan (g : Nat) (s : State) (v : ValveId) : (s.scan g).valve v = s.valve v := by
  rw [scan_eq]; cases v <;> rfl

theorem station_scan_ne {g h : Nat} (other : h ≠ g) (s : State) : (s.scan g).station h = s.station h := by
  rw [scan_eq]; exact station_updStation_ne other _

theorem station_scan_self {g : Nat} {s : State} (there : s.grouped g) :
    (s.scan g).station g = s.scanner g (s.station g) := by
  rw [scan_eq]; exact station_updStation_self there _

theorem queue_scan_ne {g h : Nat} (other : h ≠ g) (s : State) : (s.scan g).queue h = s.queue h := by
  rw [scan_eq]; exact queue_setQueue_ne other _

theorem queue_scan_self {g : Nat} {s : State} (there : s.grouped g) : (s.scan g).queue g = s.left g := by
  rw [scan_eq]; exact queue_setQueue_self there _

/-- A scan puts no order into a queue. -/
theorem mem_left {s : State} {g k : Nat} (mem : k ∈ s.left g) : k ∈ s.queue g := by
  obtain kept | behind := List.mem_append.1 mem
  · exact (List.takeWhile_sublist _).subset (List.mem_filter.1 kept).1
  · exact List.mem_of_mem_drop behind

/-! ### The end of a step (spec 06 R92, R103) -/

/-- Where no order has joined a queue, no ownership has ended, no station has entered OFF and some station works, the end of a
step changes nothing. -/
theorem settle_quiet {s t : State} (queues : ∀ g, ∀ k ∈ t.queue g, k ∈ s.queue g)
    (owners : ∀ k g, (s.valve (.tank k)).owner = some g → (t.valve (.tank k)).owner ≠ none)
    (states : ∀ g, (s.station g).state ≠ .off → (t.station g).state ≠ .off)
    (works : ∃ g ∈ t.groupNumbers, (t.station g).state.working = true) : t.settle false s = t := by
  have running : t.haltTest = t := by
    refine if_neg fun h => ?_
    obtain ⟨g, mem, working⟩ := works
    have rests := List.all_eq_true.1 h.2 g mem
    simp [working] at rests
  have quiet (g : Nat) : (false || joined s t g || ownershipEnded s t || enteredOff s t g) = false := by
    simp only [Bool.or_eq_false_iff, joined, ownershipEnded, enteredOff, List.any_eq_false, decide_eq_true_eq,
      decide_eq_false_iff_not, Bool.and_eq_true, true_and]
    refine ⟨⟨fun k mem => not_not.2 (queues g k mem), fun k _ ended => ?_⟩, fun entered => states g entered.1 entered.2⟩
    obtain ⟨h, owned⟩ := Option.isSome_iff_exists.1 ended.1
    exact owners k h owned (Option.isNone_iff_eq_none.1 ended.2)
  unfold State.settle
  dsimp only
  rw [running, List.filter_eq_nil_iff.2 fun g _ => by rw [quiet g]; exact Bool.false_ne_true]
  rfl

end Sys2Proof.Machine
end

