-- ==== Sys2Proof/Proofs/OrderGone.lean ====
section
/-! PROOFS. An ACTIVE order that goes (spec 05 R88, spec 06 R104 to R108): no station runs it afterwards, and its own station closes
its line, stops, or takes the next order. -/

namespace Sys2Proof.Machine

/-! ### Entry into CLOSING -/

/-- A station as it enters the CLOSING phase. -/
def Station.closes (st : Station) : Station :=
  { st with state := .stopping .closing, deadline := none, lowSince := none, resuming := false }

/-- A valve of a line commanded SHUT, or sent again. -/
def State.shutLine (again : Bool) (v : ValveId) (s : State) : State :=
  if again then s.sendValve v .shut else s.commandValve v .shut

/-- A station in CLOSING with its line commanded SHUT, before its tank valves are. -/
def State.closesLine (g : Nat) (s : State) : State :=
  ((s.updStation g Station.closes).shutLine (s.station g).resuming (.suction g)).shutLine (s.station g).resuming (.overboard g)

theorem enterClosing_eq (g : Nat) (s : State) : s.enterClosing g =
    ((s.station g).closing.foldl (fun s t => s.shutTank t) (s.closesLine g)).closingTest g := rfl

theorem shutLine_commanded (again : Bool) (v : ValveId) (s : State) : Commanded s (s.shutLine again v) := by
  unfold State.shutLine
  split
  · exact sendValve_commanded v .shut s
  · exact commandValve_commanded v .shut s

theorem closesLine_commanded (g : Nat) (s : State) : Commanded (s.updStation g Station.closes) (s.closesLine g) :=
  (shutLine_commanded _ _ _).trans (shutLine_commanded _ _ _)

/-! ### Stations that keep their orders -/

/-- From `s` to `t` no order appears, every station keeps its active order, and every station but that of `g` its state. -/
structure KeepsActive (g : Nat) (s t : State) : Prop where
  absent : ∀ k, s.order k = none → t.order k = none
  active : ∀ h, (t.station h).active = (s.station h).active
  state : ∀ h, h ≠ g → (t.station h).state = (s.station h).state

theorem KeepsActive.refl (g : Nat) (s : State) : KeepsActive g s s := ⟨fun _ => id, fun _ => rfl, fun _ _ => rfl⟩

theorem KeepsActive.trans {g : Nat} {s t u : State} (h : KeepsActive g s t) (k : KeepsActive g t u) : KeepsActive g s u :=
  ⟨fun n => k.absent n ∘ h.absent n, fun n => (k.active n).trans (h.active n),
    fun n other => (k.state n other).trans (h.state n other)⟩

theorem Commanded.keepsActive {s t : State} (c : Commanded s t) (g : Nat) : KeepsActive g s t :=
  ⟨fun k none => (c.order k).trans none, fun h => by rw [c.station], fun h _ => by rw [c.station]⟩

theorem updValve_keepsActive (g : Nat) (v : ValveId) (f : Valve → Valve) (s : State) : KeepsActive g s (s.updValve v f) := by
  cases v <;> exact ⟨fun _ => id, fun _ => rfl, fun _ _ => rfl⟩

theorem updStation_keepsActive {g : Nat} {f : Station → Station} (s : State)
    (active : ∀ st, (f st).active = st.active := by intro; rfl) : KeepsActive g s (s.updStation g f) := by
  refine ⟨fun _ => id, fun h => ?_, fun h other => by rw [station_updStation_ne other]⟩
  by_cases same : h = g
  · subst same
    obtain kept | changed := station_updStation_cases s h f
    · rw [kept]
    · rw [changed, active]
  · rw [station_updStation_ne same]

/-- A change of a station that touches neither its order nor its state. -/
theorem updStation_keepsActive_of_state (g : Nat) {h : Nat} {f : Station → Station} (s : State)
    (active : ∀ st, (f st).active = st.active := by intro; rfl) (state : ∀ st, (f st).state = st.state := by intro; rfl) :
    KeepsActive g s (s.updStation h f) := by
  refine ⟨fun _ => id, (updStation_keepsActive s active).active, fun n _ => ?_⟩
  by_cases same : n = h
  · subst same
    obtain kept | changed := station_updStation_cases s n f
    · rw [kept]
    · rw [changed, state]
  · rw [station_updStation_ne same]

theorem releaseIfShut_keepsActive (g t : Nat) (s : State) : KeepsActive g s (s.releaseIfShut t) := by
  unfold State.releaseIfShut
  split
  · split
    · exact (updValve_keepsActive g _ _ s).trans (updStation_keepsActive_of_state g _)
    · exact .refl g s
  · exact .refl g s

theorem shutTanks_keepsActive (g : Nat) (ts : List Nat) (s : State) :
    KeepsActive g s (ts.foldl (fun s t => s.shutTank t) s) := by
  induction ts generalizing s with
  | nil => exact .refl g s
  | cons t ts ih =>
    exact (((commandValve_commanded (.tank t) .shut s).keepsActive g).trans (releaseIfShut_keepsActive g t _)).trans
      (ih (s.shutTank t))

theorem addClosing_keepsActive (g t : Nat) (s : State) : KeepsActive g s (s.addClosing g t) :=
  updStation_keepsActive s

theorem commandPump_keepsActive (g : Nat) (c : PumpCommand) (s : State) : KeepsActive g s (s.commandPump g c) := by
  unfold State.commandPump
  split
  · exact .refl g s
  · exact (updStation_keepsActive (f := ({ · with pumpCommanded := c })) s).trans ⟨fun _ => id, fun _ => rfl, fun _ _ => rfl⟩

theorem enterRundown_keepsActive (g : Nat) (s : State) : KeepsActive g s (s.enterRundown g) :=
  (commandPump_keepsActive g .stop s).trans (updStation_keepsActive _)

theorem closingTest_keepsActive (g : Nat) (s : State) : KeepsActive g s (s.closingTest g) := by
  unfold State.closingTest
  split
  · exact updStation_keepsActive (f := ({ · with state := .off })) s
  · exact .refl g s

theorem enterClosing_keepsActive (g : Nat) (s : State) : KeepsActive g s (s.enterClosing g) :=
  (((updStation_keepsActive (f := Station.closes) s).trans ((closesLine_commanded g s).keepsActive g)).trans
    (shutTanks_keepsActive g (s.station g).closing _)).trans (closingTest_keepsActive g _)

theorem enterLineup_keepsActive (g t : Nat) (s : State) : KeepsActive g s (s.enterLineup g t) :=
  ((((updStation_keepsActive (f := ({ · with state := .lineup })) s).trans
    ((commandValve_commanded (.suction g) .opened _).keepsActive g)).trans
    ((commandValve_commanded (.overboard g) .opened _).keepsActive g)).trans
    ((commandValve_commanded (.tank t) .opened _).keepsActive g)).trans (updValve_keepsActive g (.tank t) _ _)

/-! ### An order that no station runs -/

/-- The tank has no order, and no station runs one of it. -/
def State.unrun (s : State) (k : Nat) : Prop := s.order k = none ∧ ∀ g, (s.station g).active ≠ some k

theorem KeepsActive.unrun {g k : Nat} {s t : State} (h : KeepsActive g s t) (un : s.unrun k) : t.unrun k :=
  ⟨h.absent k un.1, fun n => by rw [h.active n]; exact un.2 n⟩

theorem order_scan_absent {g k : Nat} {s : State} (absent : s.order k = none) : (s.scan g).order k = none := by
  simp [order_scan, absent]

/-- A scan takes no order of a tank that has none. -/
theorem taken_ne_of_absent {g k : Nat} {s : State} (absent : s.order k = none) : s.taken g ≠ some k := fun taken => by
  have eligible := eligible_of_taken taken
  rw [not_eligible (.inl absent)] at eligible
  exact Bool.false_ne_true eligible

theorem scan_unrun {g k : Nat} {s : State} (un : s.unrun k) : (s.scan g).unrun k := by
  obtain ⟨absent, idle⟩ := un
  refine ⟨order_scan_absent absent, fun h => ?_⟩
  by_cases same : h = g
  · subst same
    rw [scan_eq]
    obtain kept | changed := station_updStation_cases s h (s.scanner h)
    · exact fun runs => idle h ((congrArg Station.active kept).symm.trans runs)
    · exact fun runs => taken_ne_of_absent absent ((congrArg Station.active changed).symm.trans runs)
  · rw [station_scan_ne same]; exact idle h

theorem look_unrun {g k : Nat} {s : State} (un : s.unrun k) : (s.look g).unrun k := by
  unfold State.look
  split
  · dsimp only
    split
    · exact (enterLineup_keepsActive g _ _).unrun (scan_unrun un)
    · exact scan_unrun un
  · exact un

theorem settle_unrun {k : Nat} {s : State} (all : Bool) (before : State) (un : s.unrun k) : (s.settle all before).unrun k := by
  have halted : s.haltTest.unrun k := by
    unfold State.haltTest
    split
    · exact un
    · exact un
  unfold State.settle
  exact unordered_keeps (State.unrun · k) (fun _ h => h) (fun g _ _ h => look_unrun h) halted

/-! ### Entry into CHANGEOVER -/

/-- The station once its order has been taken from it, its tank a closing tank. -/
def State.givenUp (s : State) (g k : Nat) (f : Station → Station) : State := (s.updStation g f).addClosing g k

/-- A station without its order and its dry-run watch. -/
def Station.emptied (st : Station) : Station := { st with active := none, lowSince := none }

/-- A station in CHANGEOVER with the valve of its new tank its own and commanded OPEN. -/
def State.opensNext (g n : Nat) (s : State) : State :=
  ((s.updStation g ({ · with state := .changeover })).commandValve (.tank n) .opened).ownTank g n

/-- A station that changes to a tank; where the valve of that stands confirmed OPEN, its closing tanks are commanded SHUT. -/
def State.changesTo (g n : Nat) (s : State) : State :=
  if (s.opensNext g n).confirmedAt (.tank n) .opened then
    ((s.opensNext g n).station g).closing.foldl (fun s t => s.shutTank t) (s.opensNext g n)
  else s.opensNext g n

/-- What a station that has scanned in CHANGEOVER does: it changes to the order taken, or it stops. -/
def State.takesNext (g : Nat) (s : State) : State :=
  match (s.station g).active with
  | some n => s.changesTo g n
  | none => s.enterRundown g

theorem enterChangeover_eq (g k : Nat) (s : State) : s.enterChangeover g k =
    if s.ballast.state = .running then ((s.givenUp g k Station.emptied).scan g).takesNext g
    else (s.givenUp g k Station.emptied).enterRundown g := rfl

theorem opensNext_keepsActive (g n : Nat) (s : State) : KeepsActive g s (s.opensNext g n) :=
  ((updStation_keepsActive (f := ({ · with state := .changeover })) s).trans
    ((commandValve_commanded (.tank n) .opened _).keepsActive g)).trans (updValve_keepsActive g (.tank n) _ _)

theorem changesTo_keepsActive (g n : Nat) (s : State) : KeepsActive g s (s.changesTo g n) := by
  unfold State.changesTo
  split
  · exact (opensNext_keepsActive g n s).trans (shutTanks_keepsActive g _ _)
  · exact opensNext_keepsActive g n s

theorem takesNext_keepsActive (g : Nat) (s : State) : KeepsActive g s (s.takesNext g) := by
  unfold State.takesNext
  split
  · exact changesTo_keepsActive g _ s
  · exact enterRundown_keepsActive g s

/-! ### The order gone from its station -/

/-- From `s` to `t` the station of `g` has parted from its order of tank `k`, which is gone; the other stations run what they ran. -/
structure Parted (g k : Nat) (s t : State) : Prop where
  absent : t.order k = none
  own : (t.station g).active ≠ some k
  others : ∀ h, h ≠ g → (t.station h).active = (s.station h).active ∧ (t.station h).state = (s.station h).state

theorem Parted.trans {g k : Nat} {s t u : State} (h : Parted g k s t) (kept : KeepsActive g t u) : Parted g k s u :=
  ⟨kept.absent k h.absent, by rw [kept.active]; exact h.own, fun n other =>
    ⟨(kept.active n).trans (h.others n other).1, (kept.state n other).trans (h.others n other).2⟩⟩

theorem givenUp_parted {g k : Nat} {s : State} (there : s.grouped g) (absent : s.order k = none) {f : Station → Station}
    (idle : ∀ st, (f st).active = none) : Parted g k s (s.givenUp g k f) := by
  refine Parted.trans (t := s.updStation g f) ⟨absent, ?_, fun h other => ?_⟩ (addClosing_keepsActive g k _)
  · rw [station_updStation_self there, idle]
    exact (Option.some_ne_none k).symm
  · rw [station_updStation_ne other]
    exact ⟨rfl, rfl⟩

theorem scan_parted {g k : Nat} {s t : State} (there : t.grouped g) (h : Parted g k s t) : Parted g k s (t.scan g) := by
  refine ⟨order_scan_absent h.absent, ?_, fun n other => by rw [station_scan_ne other]; exact h.others n other⟩
  rw [station_scan_self there]
  exact taken_ne_of_absent h.absent

theorem givenUp_frame (g k : Nat) (f : Station → Station) (s : State) : BallastFrame s (s.givenUp g k f) :=
  (updStation_frame _ _ _).trans (addClosing_frame _ _ _)

/-- A station whose order has gone runs no order of the tank, and every other station what it ran. -/
theorem orderGone_parted {g k : Nat} {s : State} (there : s.grouped g) (absent : s.order k = none)
    (runs : (s.station g).active = some k → (s.station g).state.runs = true) : Parted g k s (s.orderGone g k) := by
  have emptied : Parted g k s (s.givenUp g k Station.emptied) := givenUp_parted there absent fun _ => rfl
  have changes : Parted g k s (s.enterChangeover g k) := by
    rw [enterChangeover_eq]
    split
    · exact (scan_parted ((givenUp_frame _ _ _ _).grouped there) emptied).trans (takesNext_keepsActive g _)
    · exact emptied.trans (enterRundown_keepsActive g _)
  have rests (idle : (s.station g).state.runs = false) : Parted g k s s :=
    ⟨absent, fun active => by simp [runs active] at idle, fun _ _ => ⟨rfl, rfl⟩⟩
  unfold State.orderGone
  cases state : (s.station g).state with
  | lineup => exact (givenUp_parted there absent fun _ => rfl).trans (enterClosing_keepsActive g _)
  | priming | changeover => exact (givenUp_parted there absent fun _ => rfl).trans (enterRundown_keepsActive g _)
  | discharge | strip => exact changes
  | off | stopping _ | tripped | localControl => exact rests (by rw [state]; rfl)

/-- Once each station that ran the order of the tank has been told, none runs it. -/
theorem ordersGone_unrun {k : Nat} {gs : List Nat} {s : State} (there : ∀ g ∈ gs, s.grouped g) (absent : s.order k = none)
    (runs : ∀ g, (s.station g).active = some k → g ∈ gs ∧ (s.station g).state.runs = true) :
    (gs.foldl (fun s g => s.orderGone g k) s).unrun k := by
  induction gs generalizing s with
  | nil => exact ⟨absent, fun g active => absurd (runs g active).1 List.not_mem_nil⟩
  | cons g gs ih =>
    have parted := orderGone_parted (there g (.head _)) absent fun active => (runs g active).2
    refine ih (s := s.orderGone g k) (fun h mem => (orderGone_frame g k s).grouped (there h (.tail _ mem))) parted.absent
      fun h active => ?_
    have other : h ≠ g := fun same => parted.own (same ▸ active)
    obtain ⟨kept, state⟩ := parted.others h other
    obtain ⟨mem, running⟩ := runs h (kept ▸ active)
    exact ⟨(List.mem_cons.1 mem).resolve_left other, state ▸ running⟩

/-- A station runs an order only where it stands and, as Table 6.4 has it, in a state that runs one. -/
theorem runs_of_active {s : State} (stations : s.StationsOk) {g k : Nat} (active : (s.station g).active = some k) :
    1 ≤ g ∧ g ≤ s.ballast.stations.length ∧ (s.station g).state.runs = true := by
  cases at_ : nth1 s.ballast.stations g with
  | none =>
    rw [State.station, at_] at active
    exact absurd (show none = some k from active) (by simp)
  | some st =>
    have there : s.station g = st := by rw [State.station, at_]; rfl
    cases g with
    | zero => exact absurd at_ (by simp [nth1])
    | succ n =>
      obtain ⟨short, rfl⟩ := List.getElem?_eq_some_iff.1 (show s.ballast.stations[n]? = some st from at_)
      refine ⟨Nat.succ_le_succ n.zero_le, short, ?_⟩
      rw [there, ← (stations _ (List.getElem_mem short)).1, ← there, active]
      rfl

theorem mem_groupNumbers {s : State} {g : Nat} : g ∈ s.groupNumbers ↔ 1 ≤ g ∧ g ≤ s.counts.groups := by
  simp only [State.groupNumbers, upTo, List.mem_range'_1]
  omega

theorem mem_runnersOf {s : State} {g k : Nat} :
    g ∈ s.runnersOf k ↔ (1 ≤ g ∧ g ≤ s.counts.groups) ∧ (s.station g).active = some k := by
  rw [State.runnersOf, List.mem_filter, mem_groupNumbers, decide_eq_true_iff]

/-- An ACTIVE order retired leaves its tank without order, and no station that runs one of it. -/
theorem retireActive_unrun {s : State} (ready : s.ready = true) (records : s.RecordsOk) (stations : s.StationsOk) (k : Nat) :
    (s.retireActive k).unrun k := by
  refine settle_unrun _ _ (ordersGone_unrun (fun g mem => ?_) ?_ fun g active => ?_)
  · exact grouped_of_hasGroup ready records (by simpa [State.hasGroup, ready] using (mem_runnersOf.1 mem).1)
  · rw [order_setOrder_none, if_pos rfl]
  · obtain ⟨least, most, running⟩ := runs_of_active stations (s := s) active
    obtain ⟨-, -, -, shape⟩ := records.fits ready
    simp only [Sequencer.shape, List.cons.injEq, and_true] at shape
    exact ⟨mem_runnersOf.2 ⟨⟨least, by omega⟩, active⟩, running⟩

end Sys2Proof.Machine
end

