-- ==== Sys2Proof/Proofs/RetireActive.lean ====
section
/-! PROOFS. The ACTIVE order of a group retired (spec 05 R88, spec 06 R104 to R108): what its station becomes, and that the looks
of R103 find nothing new, since no order has joined a queue, no ownership has ended and no station has entered OFF. -/

namespace Sys2Proof.Machine

/-! ### STOPPING: CLOSING and RUNDOWN -/

theorem valve_shutLine_ne {s : State} {v w : ValveId} (other : w ≠ v) (again : Bool) :
    (s.shutLine again v).valve w = s.valve w := by
  unfold State.shutLine
  split
  · exact valve_sendValve_ne other _
  · exact valve_commandValve_ne other _

theorem commanded_shutLine {s : State} {v : ValveId} (there : s.valved v) (again : Bool) :
    ((s.shutLine again v).valve v).commanded = .shut := by
  unfold State.shutLine
  split
  · exact (valve_sendValve_self s v .shut).2.2 there
  · exact commanded_commandValve there _

/-- The valves of a line stand commanded SHUT, and every other as it stood. -/
theorem valve_closesLine {s : State} {g : Nat} :
    (∀ v, v ≠ .suction g → v ≠ .overboard g → (s.closesLine g).valve v = s.valve v) ∧
      (s.valved (.suction g) → ((s.closesLine g).valve (.suction g)).commanded = .shut) ∧
      (s.valved (.overboard g) → ((s.closesLine g).valve (.overboard g)).commanded = .shut) := by
  have first := shutLine_commanded (s.station g).resuming (.suction g) (s.updStation g Station.closes)
  have closes := updStation_frame g Station.closes s
  unfold State.closesLine
  refine ⟨fun v line line' => ?_, fun there => ?_, fun there => ?_⟩
  · rw [valve_shutLine_ne line', valve_shutLine_ne line]
    cases v <;> rfl
  · rw [valve_shutLine_ne (by simp)]
    exact commanded_shutLine (closes.valved there) _
  · exact commanded_shutLine (first.frame.valved (closes.valved there)) _

/-- A station enters CLOSING with closing tanks none of whose valves is confirmed SHUT: its line and these are commanded SHUT, and
nothing else changes (R109). -/
theorem enterClosing_of_unconfirmed {s : State} {g : Nat} (there : s.grouped g) (nonempty : (s.station g).closing ≠ [])
    (un : ∀ t ∈ (s.station g).closing, s.confirmedAt (.tank t) .shut = false) :
    Commanded (s.updStation g Station.closes) (s.enterClosing g) ∧
      ∀ v, s.valved v → v = .suction g ∨ v = .overboard g ∨ (∃ t ∈ (s.station g).closing, v = .tank t) →
        ((s.enterClosing g).valve v).commanded = .shut := by
  have line := closesLine_commanded g s
  obtain ⟨kept, suction, overboard⟩ := valve_closesLine (s := s) (g := g)
  have un' : ∀ t ∈ (s.station g).closing, (s.closesLine g).confirmedAt (.tank t) .shut = false := fun t mem => by
    rw [State.confirmedAt, kept (.tank t) (by simp) (by simp)]; exact un t mem
  obtain ⟨commanded, -, unconfirmed, shut⟩ := shutTanks_of_unconfirmed un'
  obtain ⟨t, rest, closing⟩ := List.exists_cons_of_ne_nil nonempty
  have stays : s.enterClosing g = (s.station g).closing.foldl (fun s t => s.shutTank t) (s.closesLine g) := by
    rw [enterClosing_eq]
    refine if_neg fun h => ?_
    have station := (line.trans commanded).station g
    rw [station_updStation_self there] at station
    have tested := h.2
    rw [State.lineShut, station, Bool.and_eq_true, List.all_eq_true] at tested
    have first : t ∈ (s.station g).closing := by rw [closing]; exact List.mem_cons_self ..
    have confirmed := tested.2 t first
    rw [unconfirmed _ (un' t first)] at confirmed
    exact Bool.false_ne_true confirmed
  rw [stays]
  refine ⟨line.trans commanded, fun v valved named => shut v (line.frame.valved ((updStation_frame _ _ _).valved valved)) ?_⟩
  obtain rfl | rfl | tank := named
  · exact .inl (suction valved)
  · exact .inl (overboard valved)
  · exact .inr tank

/-- The station whose pump is commanded, with every other record as it stands. -/
theorem commandPump_eq {s : State} {g : Nat} (there : s.grouped g) (c : PumpCommand) :
    (s.commandPump g c).station g = { s.station g with pumpCommanded := c } ∧
      (∀ h, h ≠ g → (s.commandPump g c).station h = s.station h) ∧ ∀ v, (s.commandPump g c).valve v = s.valve v := by
  unfold State.commandPump
  split
  · rename_i same
    exact ⟨by rw [← same], fun _ _ => rfl, fun _ => rfl⟩
  · exact ⟨station_updStation_self there _, fun h other => station_updStation_ne other _, fun v => by cases v <;> rfl⟩

theorem commandPump_orders (g : Nat) (c : PumpCommand) (s : State) :
    (s.commandPump g c).ballast.orders = s.ballast.orders ∧ (s.commandPump g c).ballast.queues = s.ballast.queues := by
  unfold State.commandPump
  split <;> exact ⟨rfl, rfl⟩

/-- The station as it enters the RUNDOWN phase. -/
def Station.runsDown (now : Second) (st : Station) : Station :=
  { st with
    state := .stopping .rundown, pumpCommanded := .stop, deadline := some (later now st.rundown), lowSince := none
    resuming := false }

/-- A station enters RUNDOWN with its pump stopped and its valves as they were (R109). -/
theorem enterRundown_spec {s : State} {g : Nat} (there : s.grouped g) :
    (s.enterRundown g).station g = (s.station g).runsDown s.clock ∧
      (∀ h, h ≠ g → (s.enterRundown g).station h = s.station h) ∧ (∀ v, (s.enterRundown g).valve v = s.valve v) ∧
      (s.enterRundown g).ballast.orders = s.ballast.orders ∧ (s.enterRundown g).ballast.queues = s.ballast.queues := by
  obtain ⟨own, others, valves⟩ := commandPump_eq there .stop
  refine ⟨?_, fun h other => ?_, fun v => ?_, commandPump_orders g .stop s⟩
  · rw [State.enterRundown, station_updStation_self ((commandPump_frame _ _ _).grouped there), own]
    rfl
  · rw [State.enterRundown, station_updStation_ne other, others h other]
  · rw [← valves v]
    cases v <;> rfl

/-! ### CHANGEOVER -/

theorem confirmedAt_commandValve_self (s : State) (v : ValveId) (p : ValveCommand) :
    (s.commandValve v p).confirmedAt v p = s.confirmedAt v p := by
  cases was : s.confirmedAt v p with
  | false => exact unconfirmed_commandValve was v p
  | true =>
    have commanded : (s.valve v).commanded = p := by
      simp only [State.confirmedAt, Bool.and_eq_true, decide_eq_true_eq] at was
      exact was.1
    rw [commandValve_of_commanded commanded, was]

/-- The station and the valve of the new tank change, and nothing else. -/
theorem opensNext_spec {s : State} {g n : Nat} (there : s.grouped g) (valved : s.valved (.tank n)) :
    BallastFrame s (s.opensNext g n) ∧
      ((s.opensNext g n).ballast.orders = s.ballast.orders ∧ (s.opensNext g n).ballast.queues = s.ballast.queues) ∧
      ((s.opensNext g n).station g = { s.station g with state := .changeover } ∧
        ∀ h, h ≠ g → (s.opensNext g n).station h = s.station h) ∧
      (((s.opensNext g n).valve (.tank n)).commanded = .opened ∧ ((s.opensNext g n).valve (.tank n)).owner = some g ∧
        (s.opensNext g n).confirmedAt (.tank n) .opened = s.confirmedAt (.tank n) .opened) ∧
      ∀ v, v ≠ .tank n → (s.opensNext g n).valve v = s.valve v := by
  have changes := updStation_frame g ({ · with state := .changeover }) s
  have command := commandValve_commanded (.tank n) .opened (s.updStation g ({ · with state := .changeover }))
  have own : (s.opensNext g n).valve (.tank n) = { State.valve _ (.tank n) with owner := some g } :=
    valve_updValve_self (command.frame.valved (changes.valved valved)) _
  refine ⟨(changes.trans command.frame).trans (ownTank_frame _ _ _), ⟨command.orders, command.queues⟩,
    ⟨(command.station g).trans (station_updStation_self there _), fun h other =>
      (command.station h).trans (station_updStation_ne other _)⟩,
    ⟨?_, by rw [own], ?_⟩, fun v other => ?_⟩
  · rw [own]; exact commanded_commandValve (changes.valved valved) _
  · rw [State.confirmedAt, own]
    exact confirmedAt_commandValve_self (s.updStation g ({ · with state := .changeover })) _ _
  · refine ((valve_updValve_ne other _).trans (valve_commandValve_ne other _)).trans ?_
    cases v <;> rfl

/-- From `s` to `t` the station of `g` has changed over to the tank `n`. -/
structure ChangesTo (g n : Nat) (s t : State) : Prop where
  orders : t.ballast.orders = s.ballast.orders
  queues : t.ballast.queues = s.ballast.queues
  own : t.station g = { s.station g with state := .changeover }
  others : ∀ h, h ≠ g → t.station h = s.station h
  opened : (t.valve (.tank n)).commanded = .opened
  owned : (t.valve (.tank n)).owner = some g
  owners : ∀ v, v ≠ .tank n → (t.valve v).owner = (s.valve v).owner
  shut : s.confirmedAt (.tank n) .opened = true → ∀ k ∈ (s.station g).closing, s.valved (.tank k) →
    (t.valve (.tank k)).commanded = .shut
  lines : ∀ v, (∀ k, v ≠ .tank k) → t.valve v = s.valve v
  kept : s.confirmedAt (.tank n) .opened = false → ∀ v, v ≠ .tank n → t.valve v = s.valve v

/-- A station takes the order of a tank in CHANGEOVER, no closing tank of its own confirmed SHUT (R108). -/
theorem changesTo_spec {s : State} {g n : Nat} (there : s.grouped g) (valved : s.valved (.tank n))
    (apart : n ∉ (s.station g).closing) (un : ∀ t ∈ (s.station g).closing, s.confirmedAt (.tank t) .shut = false) :
    ChangesTo g n s (s.changesTo g n) := by
  obtain ⟨frame, ⟨orders, queues⟩, ⟨own, others⟩, ⟨opened, owned, confirmed⟩, kept⟩ := opensNext_spec there valved
  have closing : ((s.opensNext g n).station g).closing = (s.station g).closing := by rw [own]
  have apart' {t : Nat} (mem : t ∈ (s.station g).closing) : ValveId.tank t ≠ .tank n := fun same =>
    apart (ValveId.tank.inj same ▸ mem)
  have un' : ∀ t ∈ (s.station g).closing, (s.opensNext g n).confirmedAt (.tank t) .shut = false := fun t mem => by
    rw [State.confirmedAt, kept _ (apart' mem)]; exact un t mem
  obtain ⟨commanded, valves, -, shut⟩ := shutTanks_of_unconfirmed un'
  unfold State.changesTo
  rw [confirmed, closing]
  split
  · rename_i stands
    have next : ∀ t ∈ (s.station g).closing, ValveId.tank n ≠ .tank t := fun t mem => (apart' mem).symm
    exact
      { orders := commanded.orders.trans orders, queues := commanded.queues.trans queues
        own := (commanded.station g).trans own
        others := fun h other => (commanded.station h).trans (others h other)
        opened := by rw [valves _ next]; exact opened
        owned := by rw [valves _ next]; exact owned
        owners := fun v other => by rw [commanded.owners, kept v other]
        shut := fun _ k mem valved => shut _ (frame.valved valved) (.inr ⟨k, mem, rfl⟩)
        lines := fun v line => by rw [valves v fun t _ => line t, kept v (line n)]
        kept := fun unopened => absurd (stands.symm.trans unopened) (by simp) }
  · rename_i unopened
    exact
      { orders := orders, queues := queues, own := own, others := others, opened := opened, owned := owned
        owners := fun v other => by rw [kept v other]
        shut := fun stands => absurd stands unopened
        lines := fun v line => kept v (line n)
        kept := fun _ => kept }

/-! ### What a scan has done, as the statements say it -/

/-- A queue is what a scan passes, what it takes, and what stands behind. -/
theorem queue_split (s : State) (q : List Nat) : q = s.passed q ++ ((q.find? s.eligible).toList ++ s.behind q) := by
  unfold State.behind State.passed
  induction q with
  | nil => rfl
  | cons k q ih =>
    by_cases takes : s.eligible k = true
    · simp [takes]
    · simpa [takes] using ih

theorem not_eligible_of_passed {s : State} {q : List Nat} {k : Nat} (mem : k ∈ s.passed q) : s.eligible k = false := by
  simpa using List.mem_takeWhile_imp mem

theorem scanned_of_reads {u t : State} {g : Nat} (nodup : (u.queue g).Nodup) (queue : t.queue g = u.left g)
    (active : (t.station g).active = u.taken g)
    (done : (t.station g).doneFlag = ((u.station g).doneFlag || !(u.foundMet g).isEmpty))
    (orders : ∀ k, t.order k = (u.scan g).order k) : u.scanned t g := by
  rw [queue_split u (u.queue g), List.nodup_append] at nodup
  obtain ⟨-, behind, passed⟩ := nodup
  rw [List.nodup_append] at behind
  obtain ⟨-, -, taken⟩ := behind
  unfold State.scanned
  simp only [← metInQueue_eq]
  refine ⟨queue, active, ?_, fun k o here => ⟨fun mem => ?_, fun takes => ?_, fun mem => ?_⟩⟩
  · rw [done, State.foundMet, State.passed]
    congr 1
    rw [Bool.eq_iff_iff]
    simp [List.filter_eq_nil_iff]
  · have other : u.taken g ≠ some k := fun takes => by
      have eligible := eligible_of_taken takes
      rw [not_eligible_of_passed mem] at eligible
      exact Bool.false_ne_true eligible
    rw [orders, order_scan]
    dsimp only
    rw [if_neg other, here]
    by_cases met : u.metInQueue k = true
    · have found : k ∈ u.foundMet g := List.mem_filter.2 ⟨mem, met⟩
      rw [if_pos found, if_pos met]; rfl
    · have unmet : k ∉ u.foundMet g := fun found => met (List.mem_filter.1 found).2
      rw [if_neg unmet, if_neg met]
  · have unmet : k ∉ u.foundMet g := fun found => by
      have eligible := eligible_of_taken takes
      rw [not_eligible_of_passed (List.mem_filter.1 found).1] at eligible
      exact Bool.false_ne_true eligible
    rw [orders, order_scan]
    dsimp only
    rw [State.taken, if_pos takes, if_neg unmet, here]
    rfl
  · have unmet : k ∉ u.foundMet g := fun found => passed k (List.mem_filter.1 found).1 k (List.mem_append_right _ mem) rfl
    have other : u.taken g ≠ some k := fun takes => taken k (Option.mem_toList.2 takes) k mem rfl
    rw [orders, order_scan]
    dsimp only
    rw [if_neg other, if_neg unmet, here]

/-! ### A station and the order that it runs -/

/-- The station of `g` runs the order of tank `k`, alone and with the valves of its tanks as it owns them (spec 05 R75, spec 06 R97). -/
structure State.Runs (s : State) (g k : Nat) : Prop where
  there : s.grouped g
  numbered : g ∈ s.groupNumbers
  alone : s.runnersOf k = [g]
  nodup : (s.queue g).Nodup
  suction : s.valved (.suction g)
  overboard : s.valved (.overboard g)
  tank : s.valved (.tank k)
  unshut : ∀ t ∈ (s.station g).closing ++ [k], s.confirmedAt (.tank t) .shut = false
  next : ∀ n, n ≠ k → s.eligible n = true → s.valved (.tank n) ∧ n ∉ (s.station g).closing ++ [k]

/-- An eligible tank has an order, and its valve no owner. -/
theorem order_and_owner_of_eligible {s : State} {k : Nat} (eligible : s.eligible k = true) :
    (∃ o, s.order k = some o) ∧ (s.valve (.tank k)).owner = none := by
  refine ⟨?_, ?_⟩
  · by_contra orderless
    rw [not_eligible (.inl (Option.eq_none_iff_forall_ne_some.2 fun o here => orderless ⟨o, here⟩))] at eligible
    exact Bool.false_ne_true eligible
  · unfold State.eligible at eligible
    simp only [Bool.and_eq_true, decide_eq_true_eq] at eligible
    exact eligible.1.2.2

/-- Another tank is as eligible once an order is gone. -/
theorem eligible_setOrder {n k : Nat} (other : n ≠ k) (s : State) : (s.setOrder k none).eligible n = s.eligible n := by
  have order : (s.setOrder k none).order n = s.order n := by rw [order_setOrder_none, if_neg other]
  unfold State.eligible
  rw [order]
  rfl

theorem order_in_range {s : State} {k : Nat} {o : Order} (here : s.order k = some o) : 1 ≤ k ∧ k ≤ s.ballast.orders.length := by
  cases k with
  | zero => exact absurd here (by simp [State.order, nth1])
  | succ n =>
    refine ⟨Nat.succ_le_succ n.zero_le, Nat.lt_of_not_le fun beyond => ?_⟩
    have missing : nth1 s.ballast.orders (n + 1) = none := List.getElem?_eq_none beyond
    rw [State.order, missing] at here
    exact absurd here (by simp)

theorem runs_of_ordersOk {s : State} (ready : s.ready = true) (records : s.RecordsOk) (orders : s.OrdersOk) {k : Nat} {o : Order}
    (here : s.order k = some o) (active : o.state = .active) (counted : s.hasGroup o.group = true) : s.Runs o.group k := by
  obtain ⟨⟨nodup, -⟩, ⟨theirs, runs⟩, ⟨apart, owners, -, unshut⟩, -⟩ := orders
  have running := runs k o here active
  have owns (t : Nat) (mem : t ∈ (s.station o.group).closing ++ [k]) : (s.valve (.tank t)).owner = some o.group := by
    rw [owners]
    obtain closing | own := List.mem_append.1 mem
    · exact .inr closing
    · rw [List.mem_singleton.1 own]; exact .inl running
  have numbered : o.group ∈ s.groupNumbers := mem_groupNumbers.2 (by simpa [State.hasGroup, ready] using counted)
  refine ⟨grouped_of_hasGroup ready records counted, numbered, ?_, nodup _,
    valved_of_hasValve ready records (v := .suction _) counted, valved_of_hasValve ready records (v := .overboard _) counted,
    valved_of_owned (owns k (by simp)), fun t mem => unshut _ t (owns t mem), fun n _ eligible => ?_⟩
  · have only (g : Nat) : decide ((s.station g).active = some k) = decide (g = o.group) := by
      refine decide_eq_decide.2 ⟨fun active => ?_, fun same => same ▸ running⟩
      obtain ⟨o', here', -, group⟩ := theirs g k active
      rw [← group, Option.some.inj (here.symm.trans here')]
    have distinct : s.groupNumbers.Nodup := List.nodup_range'
    rw [State.runnersOf, List.filter_congr fun g _ => only g, List.filter_eq, List.count_eq_one_of_mem distinct numbered]
    rfl
  · obtain ⟨⟨o', here'⟩, free⟩ := order_and_owner_of_eligible eligible
    obtain ⟨-, -, -, shape⟩ := records.fits ready
    simp only [Sequencer.shape, List.cons.injEq, and_true] at shape
    have range := order_in_range here'
    refine ⟨⟨range.1, by omega⟩, fun mem => ?_⟩
    rw [owns n mem] at free
    exact absurd free (by simp)

/-- The end of the step in which the order of tank `k` goes from its station changes nothing. -/
theorem retireActive_eq {s t : State} {g k : Nat} (runs : s.Runs g k) (goes : (s.setOrder k none).orderGone g k = t)
    (queues : ∀ h, ∀ j ∈ t.queue h, j ∈ s.queue h)
    (owners : ∀ j h, (s.valve (.tank j)).owner = some h → (t.valve (.tank j)).owner ≠ none)
    (others : ∀ h, h ≠ g → t.station h = s.station h) (works : (t.station g).state.working = true) : s.retireActive k = t := by
  have frame : BallastFrame s t := goes ▸ (setOrder_frame k none s).trans (orderGone_frame g k _)
  have numbered : g ∈ t.groupNumbers := by
    rw [frame.rest]; exact runs.numbered
  unfold State.retireActive
  dsimp only
  rw [runs.alone, List.foldl_cons, List.foldl_nil, goes]
  refine settle_quiet queues owners (fun h awake => ?_) ⟨g, numbered, works⟩
  by_cases same : h = g
  · subst same
    intro off
    rw [off] at works
    exact Bool.false_ne_true works
  · rw [others h same]; exact awake

/-! ### What the station does, by its state (spec 06 R104 to R108) -/

/-- The state with the order of tank `k` gone and its station as that leaves it, the tank a closing tank. -/
def State.parting (s : State) (g k : Nat) (f : Station → Station) : State := (s.setOrder k none).givenUp g k f

/-- The order and the station change, and nothing else. -/
theorem parting_spec {s : State} {g : Nat} (there : s.grouped g) (k : Nat) (f : Station → Station) :
    (s.parting g k f).grouped g ∧
      (s.parting g k f).station g = { f (s.station g) with closing := (f (s.station g)).closing ++ [k] } ∧
      (∀ h, h ≠ g → (s.parting g k f).station h = s.station h) ∧ ∀ v, (s.parting g k f).valve v = s.valve v := by
  have changed : (s.setOrder k none).grouped g := there
  refine ⟨(givenUp_frame _ _ _ _).grouped changed, ?_, fun h other => ?_, fun v => by cases v <;> rfl⟩
  · rw [State.parting, State.givenUp, State.addClosing, station_updStation_self ((updStation_frame _ _ _).grouped changed),
      station_updStation_self changed]
    rfl
  · rw [State.parting, State.givenUp, State.addClosing, station_updStation_ne other, station_updStation_ne other]
    rfl

/-- A station without its order. -/
def Station.idle (st : Station) : Station := { st with active := none }

/-- A station whose order is gone: without it, its tank a closing tank and its dry-run watch stopped. -/
def Station.without (k : Nat) (st : Station) : Station :=
  { st with active := none, closing := st.closing ++ [k], lowSince := none, resuming := false }

/-- The state once the station of `g`, its order of tank `k` gone, has scanned its queue. -/
def State.rescanned (s : State) (g k : Nat) : State := (s.parting g k Station.emptied).scan g

/-- The station without its order, as a scan leaves it. -/
def State.rescanner (s : State) (g k : Nat) : Station :=
  { s.station g with
    active := (s.setOrder k none).taken g, closing := (s.station g).closing ++ [k], lowSince := none
    doneFlag := (s.station g).doneFlag || !((s.setOrder k none).foundMet g).isEmpty }

theorem rescanned_spec {s : State} {g : Nat} (there : s.grouped g) (k : Nat) :
    (s.rescanned g k).grouped g ∧ (s.rescanned g k).station g = s.rescanner g k ∧
      (∀ h, h ≠ g → (s.rescanned g k).station h = s.station h) ∧ (∀ v, (s.rescanned g k).valve v = s.valve v) ∧
      ∀ h, ∀ j ∈ (s.rescanned g k).queue h, j ∈ s.queue h := by
  obtain ⟨parted, own, others, valves⟩ := parting_spec there k Station.emptied
  unfold State.rescanned
  refine ⟨(scan_frame _ _).grouped parted, ?_, fun h other => by rw [station_scan_ne other, others h other],
    fun v => by rw [valve_scan, valves], fun h j mem => ?_⟩
  · rw [station_scan_self parted, own]; rfl
  · by_cases same : h = g
    · subst same
      rw [queue_scan_self parted] at mem
      exact mem_left (s := s.parting h k Station.emptied) mem
    · rw [queue_scan_ne same] at mem
      exact mem

/-- What keeps the orders, the queues and the station's finds of that scan has scanned, as the statements say it. -/
theorem rescanned_scanned {s t : State} {g k : Nat} (there : s.grouped g) (nodup : (s.queue g).Nodup)
    (orders : t.ballast.orders = (s.rescanned g k).ballast.orders) (queues : t.ballast.queues = (s.rescanned g k).ballast.queues)
    (active : (t.station g).active = (s.rescanner g k).active) (done : (t.station g).doneFlag = (s.rescanner g k).doneFlag) :
    (s.setOrder k none).scanned t g := by
  obtain ⟨parted, -⟩ := parting_spec there k Station.emptied
  refine scanned_of_reads nodup ?_ active done fun j => ?_
  · rw [State.queue, queues]
    exact queue_scan_self parted
  · rw [State.order, orders]
    exact (order_scan g j _).trans (order_scan g j (s.setOrder k none)).symm

/-- A station that has given up its order and stopped. -/
theorem handsOver_of_stops {u t : State} {g k : Nat} {st : Station} (station : t.station g = st.runsDown u.clock)
    (rundown : st.rundown = (u.station g).rundown) (idle : st.active = none) (closing : k ∈ st.closing)
    (scanned : u.ballast.state = .running → u.scanned t g)
    (halted : u.ballast.state ≠ .running → t.queue g = u.queue g ∧ t.order k = u.order k)
    (valves : ∀ v, t.valve v = u.valve v) : u.handsOver t g k := by
  unfold State.handsOver
  rw [station]
  refine ⟨closing, rfl, scanned, fun stopped => ⟨(halted stopped).1, (halted stopped).2, idle⟩, fun _ => ⟨rfl, rfl, ?_⟩,
    fun n takes => absurd (idle.symm.trans takes) (by simp), fun v _ => valves v, fun _ => valves _⟩
  rw [← rundown]
  rfl

/-- A station that has given up its order and changed over to the order that its scan took. -/
theorem handsOver_of_changes {u y t : State} {g k n : Nat} (changes : ChangesTo g n y t) (running : u.ballast.state = .running)
    (takes : (y.station g).active = some n) (closing : k ∈ (y.station g).closing) (watch : (y.station g).lowSince = none)
    (pump : (y.station g).pumpCommanded = (u.station g).pumpCommanded) (scanned : u.scanned t g) (other : n ≠ k)
    (valved : y.valved (.tank k)) (valves : ∀ v, y.valve v = u.valve v) : u.handsOver t g k := by
  have confirmed : u.confirmedAt (.tank n) .opened = y.confirmedAt (.tank n) .opened := by
    rw [State.confirmedAt, State.confirmedAt, valves]
  unfold State.handsOver
  rw [changes.own]
  refine ⟨closing, watch, fun _ => scanned, fun halted => absurd running halted, fun idle =>
    absurd (takes.symm.trans idle) (by simp), fun m active => ?_, fun v line => ?_, fun unopened => ?_⟩
  · obtain rfl := Option.some.inj (takes.symm.trans active)
    exact ⟨rfl, pump, changes.opened, changes.owned, fun opened => changes.shut (confirmed ▸ opened) k closing valved⟩
  · rw [changes.lines v fun j same => by subst same; simp at line, valves]
  · have kept := changes.kept (confirmed ▸ unopened n takes) (.tank k) fun same => other (ValveId.tank.inj same).symm
    rw [kept, valves]

section Goes

variable {s : State} {g k : Nat} (runs : s.Runs g k)

include runs

/-- From LINEUP the station closes the line (R104). -/
theorem retireActive_lineup (state : (s.station g).state = .lineup) :
    (s.retireActive k).station g = { (s.station g).without k with state := .stopping .closing, deadline := none } ∧
      ∀ v ∈ [ValveId.suction g, .overboard g, .tank k], ((s.retireActive k).valve v).commanded = .shut := by
  obtain ⟨there, own, others, valves⟩ := parting_spec runs.there k Station.idle
  have closing : ((s.parting g k Station.idle).station g).closing = (s.station g).closing ++ [k] := by
    rw [own]; rfl
  obtain ⟨commanded, shut⟩ := enterClosing_of_unconfirmed there (by rw [closing]; simp) fun t mem => by
    rw [State.confirmedAt, valves]; exact runs.unshut t (closing ▸ mem)
  have goes : (s.setOrder k none).orderGone g k = (s.parting g k Station.idle).enterClosing g := by
    unfold State.orderGone
    rw [show (s.setOrder k none).station g = s.station g from rfl, state]
    rfl
  have station : ((s.parting g k Station.idle).enterClosing g).station g =
      { (s.station g).without k with state := .stopping .closing, deadline := none } := by
    rw [commanded.station, station_updStation_self there, own]; rfl
  rw [retireActive_eq runs goes (fun h j mem => by rw [commanded.queue] at mem; exact mem)
    (fun j h owned => by
      rw [commanded.owners, valve_updStation, valves, owned]; simp)
    (fun h other => by rw [commanded.station, station_updStation_ne other, others h other]) (by rw [station]; rfl)]
  have parts := (setOrder_frame k none s).trans (givenUp_frame g k Station.idle _)
  refine ⟨station, fun v mem => ?_⟩
  simp only [List.mem_cons, List.not_mem_nil, or_false] at mem
  obtain rfl | rfl | rfl := mem
  · exact shut _ (parts.valved runs.suction) (.inl rfl)
  · exact shut _ (parts.valved runs.overboard) (.inr (.inl rfl))
  · exact shut _ (parts.valved runs.tank) (.inr (.inr ⟨k, by rw [closing]; simp, rfl⟩))

/-- From PRIMING and CHANGEOVER the station stops, its valves as they stand (R105, R108). -/
theorem retireActive_rundown (state : (s.station g).state = .priming ∨ (s.station g).state = .changeover) :
    (s.retireActive k).station g = ((s.station g).without k).runsDown s.clock ∧
      ∀ v, (s.retireActive k).valve v = s.valve v := by
  obtain ⟨there, own, others, valves⟩ := parting_spec runs.there k Station.idle
  obtain ⟨station, others', valves', -, queues⟩ := enterRundown_spec there
  have goes : (s.setOrder k none).orderGone g k = (s.parting g k Station.idle).enterRundown g := by
    unfold State.orderGone
    rw [show (s.setOrder k none).station g = s.station g from rfl]
    obtain priming | changeover := state
    · rw [priming]; rfl
    · rw [changeover]; rfl
  rw [own] at station
  rw [retireActive_eq runs goes (fun h j mem => by rw [State.queue, queues] at mem; exact mem)
    (fun j h owned => by rw [valves', valves, owned]; simp) (fun h other => by rw [others' h other, others h other])
    (by rw [station]; rfl)]
  exact ⟨station, fun v => (valves' v).trans (valves v)⟩

/-- From DISCHARGE and STRIP the station takes the next order or stops (R106 to R108). -/
theorem retireActive_handsOver (state : (s.station g).state = .discharge ∨ (s.station g).state = .strip) :
    (s.setOrder k none).handsOver (s.retireActive k) g k := by
  have goes : (s.setOrder k none).orderGone g k = if s.ballast.state = .running then (s.rescanned g k).takesNext g
      else (s.parting g k Station.emptied).enterRundown g := by
    unfold State.orderGone
    rw [show (s.setOrder k none).station g = s.station g from rfl]
    obtain discharge | strip := state
    · rw [discharge]; exact enterChangeover_eq g k _
    · rw [strip]; exact enterChangeover_eq g k _
  have valve (v : ValveId) : (s.setOrder k none).valve v = s.valve v := by cases v <;> rfl
  by_cases running : s.ballast.state = .running
  · obtain ⟨there, own, others, valves, queues⟩ := rescanned_spec runs.there k
    have frame : BallastFrame s (s.rescanned g k) :=
      ((setOrder_frame k none s).trans (givenUp_frame g k Station.emptied _)).trans (scan_frame g _)
    rw [if_pos running] at goes
    cases taken : (s.setOrder k none).taken g with
    | none =>
      have stops : (s.rescanned g k).takesNext g = (s.rescanned g k).enterRundown g := by
        rw [State.takesNext, own, State.rescanner, taken]
      obtain ⟨station, others', valves', orders, queues'⟩ := enterRundown_spec there
      rw [own, show (s.rescanned g k).clock = s.clock by rw [frame.rest]] at station
      rw [retireActive_eq runs (goes.trans stops) (fun h j mem => by rw [State.queue, queues'] at mem; exact queues h j mem)
        (fun j h owned => by rw [valves', valves, owned]; simp) (fun h other => by rw [others' h other, others h other])
        (by rw [station]; rfl)]
      exact handsOver_of_stops station rfl taken (List.mem_append_right _ (List.mem_singleton_self k))
        (fun _ => rescanned_scanned runs.there runs.nodup orders queues' (by rw [station]; rfl) (by rw [station]; rfl))
        (fun halted => absurd running halted) fun v => by rw [valves', valves, valve]
    | some n =>
      have changes : (s.rescanned g k).takesNext g = (s.rescanned g k).changesTo g n := by
        rw [State.takesNext, own, State.rescanner, taken]
      have eligible := eligible_of_taken taken
      have other : n ≠ k := fun same => by
        rw [same, not_eligible (.inl (by rw [order_setOrder_none, if_pos rfl]))] at eligible
        exact Bool.false_ne_true eligible
      have closing : ((s.rescanned g k).station g).closing = (s.station g).closing ++ [k] := by rw [own]; rfl
      obtain ⟨valved, apart⟩ := runs.next n other ((eligible_setOrder other s).symm.trans eligible)
      have spec := changesTo_spec there (frame.valved valved) (by rw [closing]; exact apart) fun t mem => by
        rw [State.confirmedAt, valves]; exact runs.unshut t (closing ▸ mem)
      rw [retireActive_eq runs (goes.trans changes) (fun h j mem => by rw [State.queue, spec.queues] at mem; exact queues h j mem)
        (fun j h owned => ?_) (fun h other => by rw [spec.others h other, others h other]) (by rw [spec.own]; rfl)]
      · exact handsOver_of_changes spec running (by rw [own]; exact taken) (by rw [closing]; simp) (by rw [own]; rfl)
          (by rw [own]; rfl) (rescanned_scanned runs.there runs.nodup spec.orders spec.queues (by rw [spec.own, own])
            (by rw [spec.own, own])) other (frame.valved runs.tank) fun v => by rw [valves, valve]
      · by_cases new : ValveId.tank j = .tank n
        · rw [new, spec.owned]; simp
        · rw [spec.owners _ new, valves, owned]; simp
  · obtain ⟨there, own, others, valves⟩ := parting_spec runs.there k Station.emptied
    obtain ⟨station, others', valves', orders, queues⟩ := enterRundown_spec there
    rw [if_neg running] at goes
    rw [own] at station
    rw [retireActive_eq runs goes (fun h j mem => by rw [State.queue, queues] at mem; exact mem)
      (fun j h owned => by rw [valves', valves, owned]; simp) (fun h other => by rw [others' h other, others h other])
      (by rw [station]; rfl)]
    exact handsOver_of_stops station rfl rfl (List.mem_append_right _ (List.mem_singleton_self k))
      (fun runs => absurd runs running) (fun _ => ⟨by rw [State.queue, queues]; rfl, by rw [State.order, orders]; rfl⟩)
      fun v => by rw [valves', valves, valve]

end Goes

end Sys2Proof.Machine
end

