-- ==== Sys2Proof/Proofs/Retire.lean ====
section
/-! PROOFS. RETIRE (spec 04 R70, spec 01 R2, R4, spec 05 R87, R88): a pour leaves the list with its tally folded into its hold, an
order leaves its queue or its station, and a record of any other table stays. -/

namespace Sys2Proof.Machine

/-! ### The answer -/

/-- Out of LOADING a RETIRE of a record that exists, on a table that no running PURGE holds, is answered by the record's rule. -/
theorem exec_retire {s : State} {h : ShipHead} {x : Table} (idle : s.shipIdle) (loaded : s.loading = false)
    (free : s.startUp.purgeRunning = false ∨ Table.purged (some x) = false) (code : Table.ofCode h.table.toNat = some x)
    (there : s.recordExists x h.key.toNat = true) {a : Answer} (answer : s.retireRecord x h.key.toNat = a) :
    exec (.retire h) s = .next (a.state.replied 3 h a.status a.payload) := by
  have unheld : (s.startUp.purgeRunning && Table.purged (some x)) = false := by
    obtain free | free := free <;> simp [free]
  have taken : s.recordRequest h false State.recordExists (fun t k s => s.retireRecord t k) = a := by
    simp only [State.recordRequest, loaded, code, unheld, there, answer, Bool.false_and, Bool.false_eq_true, if_false, if_true]
  show Host.Outcome.next (s.takeRequest 3 h _) = _
  rw [takeRequest_idle idle, taken]
  rfl

/-! ### Pours (spec 04 R70) -/

/-- The state without a pour but for its list: its record kept for the channels that name it, and its tally folded into the initial
mass of its hold unless it was PLANNED. -/
def State.folded (p : Pour) (s : State) : State :=
  { s.keepGone p with
    holds := if p.state = .planned then s.holds
      else modify1 s.holds p.hold fun x => { x with initial := min 400000 (x.initial + p.tallied) } }

/-- The list without a pour. -/
def State.listWithout (s : State) (p : Pour) : List Pour := s.pours.list.filter fun q => decide (q.sequence ≠ p.sequence)

theorem removePour_eq {s : State} (ready : s.ready = true) (p : Pour) : s.removePour p =
    (s.folded p).poured p.hold (s.listWithout p) s.pours.estimators 1 := by
  have folds : (if p.state = .planned then s.keepGone p else (s.keepGone p).fold p.hold p.tallied) = s.folded p := by
    unfold State.folded
    split <;> rfl
  have derived : State.deriveHold p.hold { s.folded p with pours.list := s.listWithout p } =
      (s.folded p).poured p.hold (s.listWithout p) s.pours.estimators 0 := State.deriveHold_eq _ _ ready
  unfold State.removePour
  dsimp only
  rw [folds]
  show (State.deriveHold p.hold { s.folded p with pours.list := s.listWithout p }).oweComputation = _
  rw [derived, oweComputation_poured (by exact ready)]

theorem folded_current (p : Pour) (s : State) (h : Nat) : ((s.folded p).hold h).current = (s.hold h).current := by
  simp only [State.hold, State.folded]
  split
  · rfl
  · rw [nth1_modify1]
    split
    · cases nth1 s.holds h <;> rfl
    · rfl

/-- A PLANNED pour that leaves the list takes no share from its hold. -/
theorem sharesIn_listWithout {s : State} (ok : s.PoursOk) {p : Pour} (mem : p ∈ s.pours.list) (planned : p.state = .planned)
    (h : Nat) : sharesIn (s.listWithout p) h = sharesIn s.pours.list h := by
  refine sharesIn_filter fun q hq leaves => ?_
  rw [ok.eq_of_sequence hq mem (by simpa using leaves)]
  exact shareOf_of_planned planned h

theorem listWithout_eq {s : State} (ok : s.PoursOk) {p : Pour} (mem : p ∈ s.pours.list) :
    s.listWithout p = s.pours.list.filter fun q => decide (q ≠ p) := by
  refine List.filter_congr fun q hq => decide_eq_decide.2 (not_congr (ok.sequence_eq_iff hq mem))

/-- The tallies in a hold are those without one of its pours, and that pour's. -/
theorem talliesIn_listWithout {s : State} (ok : s.PoursOk) {p : Pour} (mem : p ∈ s.pours.list) (started : p.state ≠ .planned) :
    talliesIn s.pours.list p.hold = p.tallied + talliesIn (s.listWithout p) p.hold := by
  have nodup : s.pours.list.Nodup := List.Pairwise.imp (fun h same => by subst same; exact Nat.lt_irrefl _ h) ok.1
  have split : s.pours.list.Perm (p :: s.listWithout p) := by
    rw [listWithout_eq ok mem]
    refine (List.perm_cons_erase mem).trans ?_
    rw [nodup.erase_eq_filter]
    refine List.Perm.of_eq (congrArg _ (List.filter_congr fun q _ => ?_))
    exact Bool.eq_iff_iff.2 (by simp)
  have sums := ((split.filter fun q => decide (q.hold = p.hold ∧ q.state ≠ .planned)).map (·.tallied)).sum_eq
  rw [List.filter_cons_of_pos (by simp [started]), List.map_cons, List.sum_cons] at sums
  exact sums

theorem folded_holds {p : Pour} (started : p.state ≠ .planned) (s : State) : (s.folded p).holds =
    modify1 s.holds p.hold fun x => { x with initial := min 400000 (x.initial + p.tallied) } := if_neg started

/-- A hold that a pour has left with its tally: more initial mass by that, and its current mass as it was where that fits. -/
theorem hold_removed {s : State} (ok : s.PoursOk) (holds : s.HoldsOk) {p : Pour} (mem : p ∈ s.pours.list)
    (started : p.state ≠ .planned) (there : nth1 s.holds p.hold = some (s.hold p.hold)) (es : PerLoader Estimator) (causes : Nat) :
    let x := ((s.folded p).poured p.hold (s.listWithout p) es causes).hold p.hold
    x.initial = min 400000 ((s.hold p.hold).initial + p.tallied) ∧
      ((s.hold p.hold).initial + p.tallied ≤ 400000 → x.current = (s.hold p.hold).current) := by
  have folded : nth1 (s.folded p).holds p.hold =
      some { s.hold p.hold with initial := min 400000 ((s.hold p.hold).initial + p.tallied) } := by
    rw [folded_holds started, nth1_modify1_self there]
  have hold : (s.folded p).hold p.hold = { s.hold p.hold with initial := min 400000 ((s.hold p.hold).initial + p.tallied) } := by
    rw [State.hold, folded]; rfl
  have numbered : p.hold ≠ 0 := fun zero => by rw [zero] at there; simp [nth1] at there
  have stood : (s.hold p.hold).current = min 400000 ((s.hold p.hold).initial + talliesIn s.pours.list p.hold) :=
    congrArg Hold.current (holds.but 0 _ _ numbered there)
  dsimp only
  rw [hold_poured (by rw [folded, hold]), hold]
  refine ⟨rfl, fun fits => ?_⟩
  rw [stood, talliesIn_listWithout ok mem started]
  show min 400000 (min 400000 ((s.hold p.hold).initial + p.tallied) + talliesIn (s.listWithout p) p.hold) = _
  omega

/-- Channels differ from what they were in the records of pours gone alone. -/
theorem keepGone_channel (p : Pour) (s : State) (l : Loader) :
    { (s.keepGone p).channel l with gone := (s.channel l).gone } = s.channel l := by
  have kept (names : Prop) [Decidable names] (c : Channel) :
      { (if names then { c with gone := p :: c.gone } else c) with gone := c.gone } = c := by
    by_cases h : names <;> simp [h]
  cases l <;> exact kept _ _

/-! ### Orders (spec 05 R87) -/

/-- A QUEUED or DONE order leaves its tank and its group's queue, and nothing else changes. -/
theorem removeOrder_eq (k : Nat) (o : Order) (s : State) : s.removeOrder k o = { s with ballast := { s.ballast with
    orders := modify1 s.ballast.orders k fun _ => none
    queues := modify1 s.ballast.queues o.group fun q => q.filter (· ≠ k) } } := by
  have queues : (modify1 s.ballast.queues o.group fun _ => (s.queue o.group).filter (· ≠ k)) =
      modify1 s.ballast.queues o.group fun q => q.filter (· ≠ k) := by
    cases at_ : nth1 s.ballast.queues o.group with
    | none => rw [modify1_eq_self fun x there => absurd (at_.symm.trans there) (by simp),
        modify1_eq_self fun x there => absurd (at_.symm.trans there) (by simp)]
    | some q => exact modify1_congr at_ (by rw [State.queue, at_]; rfl)
  unfold State.removeOrder State.setQueue State.setOrder
  rw [queues]

/-- The reply leaves every valve as it stands. -/
theorem replied_valve (s : State) (kind : Nat) (h : ShipHead) (status : ReplyStatus) (payload : List Pair) (v : ValveId) :
    (s.replied kind h status payload).valve v = s.valve v := by cases v <;> rfl

/-- What a station has handed over is read from the sequencer alone, so the reply leaves it. -/
theorem handsOver_replied {u t : State} {g k : Nat} (hands : u.handsOver t g k) (kind : Nat) (h : ShipHead)
    (status : ReplyStatus) (payload : List Pair) : u.handsOver (t.replied kind h status payload) g k := by
  obtain ⟨closing, watch, scanned, halted, stops, changes, lines, kept⟩ := hands
  exact ⟨closing, watch, scanned, halted, stops, changes, fun v line => by rw [replied_valve]; exact lines v line, kept⟩

/-- Settles O42: what RETIRE does with a record of each table. -/
theorem retireRemovesPoursAndOrders : Obligations.RetireRemovesPoursAndOrders := by
  refine ⟨fun s h x idle phase code notPour notOrder trial there => ?_, fun s h p idle ready ok holds records purging table named =>
    ?_, fun s h o idle ready records stations purging table tank named => ?_⟩
  · have loaded : s.loading = false := by simp [State.loading, phase]
    have free : s.startUp.purgeRunning = false ∨ Table.purged (some x) = false := by
      by_cases held : x = .trial
      · exact .inl (trial held)
      · exact .inr (by simp [Table.purged, notPour, notOrder, held])
    refine exec_retire idle loaded free code there (a := s.answer .state) ?_
    cases x with
    | pour => exact absurd rfl notPour
    | order => exact absurd rfl notOrder
    | hold | tank | item | station | valve | channel | result | clearance | berth | settings | profile | trial | changes => rfl
  · have there : s.recordExists .pour h.key.toNat = true := by simp [State.recordExists, State.hasPour, ready, named]
    have run {a : Answer} := exec_retire (h := h) (a := a) idle (loading_of_ready ready) (.inl purging)
      (show Table.ofCode h.table.toNat = some .pour by rw [table]; rfl) there
    obtain ⟨mem, -⟩ := mem_of_pour named
    refine ⟨fun busy => ?_, fun may => ?_⟩
    · refine run (a := s.answer .state) ?_
      obtain active | interrupted := busy
      · simp [State.retireRecord, State.retirePour, named, active]
      · simp [State.retireRecord, State.retirePour, named, interrupted]
    · have ran := run (a := ⟨.done, [], s.removePour p⟩) (by simp [State.retireRecord, State.retirePour, named, may])
      have kept := (exec_keepsPours _ s _ ran ok).2.2 holds
      rw [removePour_eq ready] at ran kept
      refine ⟨_, ran, ?_, listWithout_eq ok mem, kept, ⟨?_, ?_⟩, fun planned => ?_, fun done k counted => ?_,
        keepGone_channel p s, ?_⟩
      · rfl
      · rw [← folded_current p s]; rfl
      · rw [← folded_current p s]; rfl
      · have same : (s.folded p).holds = s.holds := if_pos planned
        have stands := holds.stands (sharesIn_listWithout ok mem planned p.hold)
        have stands' : modify1 (s.folded p).holds p.hold (·.standing (s.listWithout p) p.hold) = (s.folded p).holds := by
          rw [same]; exact stands
        refine ⟨stands'.trans same, ?_⟩
        show ({ s.engine with dirty := s.engine.dirty || (s.folded p).massMoved p.hold (s.listWithout p) } : Engine) = s.engine
        rw [massMoved_of_stands stands', Bool.or_false]
      · have started : p.state ≠ .planned := by simp [done]
        refine ⟨fun same => ?_, fun other => ?_⟩
        · subst same
          exact hold_removed ok holds mem started (nth1_hold ready records counted) s.pours.estimators 1
        · show (nth1 (modify1 (s.folded p).holds p.hold _) k).getD default = (nth1 s.holds k).getD default
          rw [nth1_modify1, if_neg other, folded_holds started, nth1_modify1, if_neg other]
      · rfl
  · have there : s.recordExists .order h.key.toNat = true := by simp [State.recordExists, State.hasOrder, tank, named]
    have run {a : Answer} := exec_retire (h := h) (a := a) idle (loading_of_ready ready) (.inl purging)
      (show Table.ofCode h.table.toNat = some .order by rw [table]; rfl) there
    refine ⟨fun rests => ?_, fun active => ?_⟩
    · rw [run (a := ⟨.done, [], s.removeOrder h.key.toNat o⟩)
        (by simp [State.retireRecord, State.retireOrder, named, rests]), removeOrder_eq]
      rfl
    · have ran := run (a := ⟨.accepted, [], s.retireActive h.key.toNat⟩)
        (by simp [State.retireRecord, State.retireOrder, named, active])
      have unrun := retireActive_unrun ready records stations h.key.toNat
      have frame := retireActive_frame h.key.toNat s
      have runs (orders : s.OrdersOk) (counted : s.hasGroup o.group = true) : s.Runs o.group h.key.toNat :=
        runs_of_ordersOk ready records orders named active counted
      have lineup orders counted := retireActive_lineup (runs orders counted)
      have rundown orders counted := retireActive_rundown (runs orders counted)
      have hands orders counted := retireActive_handsOver (runs orders counted)
      generalize s.retireActive h.key.toNat = t at ran unrun frame lineup rundown hands
      refine ⟨_, ran, ?_, ?_, unrun.1, fun g _ => unrun.2 g, fun orders counted => ⟨fun state => ?_, fun state => ?_,
        fun state => handsOver_replied (hands orders counted state) _ _ _ _⟩⟩
      · rw [frame.rest]; rfl
      · rw [frame.rest]; rfl
      · obtain ⟨station, shut⟩ := lineup orders counted state
        exact ⟨station, fun v mem => by rw [replied_valve]; exact shut v mem⟩
      · obtain ⟨station, valves⟩ := rundown orders counted state
        exact ⟨station, fun v _ => by rw [replied_valve]; exact valves v⟩

end Sys2Proof.Machine
end

