-- ==== Sys2Proof/Proofs/Agreement.lean ====
section
/-! PROOFS. Orders, queues, stations and tank valves in agreement (spec 05 R75, R76, R79, spec 06 R92, R97): the parts of the
agreement, each on what of the state it rests, and the steps by which an order, a queue or a valve passes from one standing to
another. -/

namespace Sys2Proof.Machine

/-! ### What the agreement rests on -/

/-- The part stands in READY: the sequencer's records and the tanks are those counted, the hull data legal, and every alternate
group is one of the profile (spec 01 R2, R6, R9). -/
structure State.Founded (s : State) : Prop where
  phase : s.startUp.phase = .ready
  tanks : s.tanks.length = s.counts.tanks
  shape : s.ballast.shape =
    [s.counts.tanks, s.counts.groups, s.counts.groups, s.counts.tanks, s.counts.groups, s.counts.groups]
  legal : Hull.legal s.hull s.counts = true
  alternates : ∀ x ∈ s.tanks, (∀ a, x.alternate = some a → 1 ≤ a ∧ a ≤ s.counts.groups) ∧
    (x.route = .alternate → x.alternate ≠ none)

/-- A group of the profile. -/
def State.counted (s : State) (g : Nat) : Prop := 1 ≤ g ∧ g ≤ s.counts.groups

theorem BallastFrame.startUp {s t : State} (f : BallastFrame s t) : t.startUp = s.startUp := by rw [f.rest]

theorem BallastFrame.tanks {s t : State} (f : BallastFrame s t) : t.tanks = s.tanks := by rw [f.rest]

theorem BallastFrame.counts {s t : State} (f : BallastFrame s t) : t.counts = s.counts := by
  rw [State.counts, f.startUp]; rfl

theorem BallastFrame.tank {s t : State} (f : BallastFrame s t) (k : Nat) : t.tank k = s.tank k := by
  rw [State.tank, f.tanks]; rfl

theorem BallastFrame.tankData {s t : State} (f : BallastFrame s t) (k : Nat) : t.tankData k = s.tankData k := by
  rw [State.tankData, State.hull, f.startUp]; rfl

/-- The tanks of two states are routed alike. -/
def State.sameRoutes (s t : State) : Prop := ∀ k, t.tank k = s.tank k ∧ t.tankData k = s.tankData k

theorem BallastFrame.sameRoutes {s t : State} (f : BallastFrame s t) : s.sameRoutes t := fun k => ⟨f.tank k, f.tankData k⟩

theorem BallastFrame.founded {s t : State} (f : BallastFrame s t) (h : s.Founded) : t.Founded := by
  obtain ⟨phase, tanks, shape, legal, alternates⟩ := h
  refine ⟨?_, ?_, ?_, ?_, ?_⟩
  · rw [f.startUp, phase]
  · rw [f.tanks, f.counts, tanks]
  · rw [f.shape, f.counts, shape]
  · rw [f.counts, State.hull, f.startUp]; exact legal
  · rw [f.tanks, f.counts]; exact alternates

section Founded

variable {s : State} (founded : s.Founded)
include founded

theorem State.Founded.lengths : s.ballast.orders.length = s.counts.tanks ∧ s.ballast.queues.length = s.counts.groups ∧
    s.ballast.stations.length = s.counts.groups ∧ s.ballast.tankValves.length = s.counts.tanks ∧
    s.ballast.suctionValves.length = s.counts.groups ∧ s.ballast.overboardValves.length = s.counts.groups := by
  simpa only [Sequencer.shape, List.cons.injEq, and_true] using founded.shape

theorem State.Founded.grouped {g : Nat} (counted : s.counted g) : s.grouped g := by
  obtain ⟨-, queues, stations, -⟩ := founded.lengths
  exact ⟨counted.1, queues ▸ counted.2, stations ▸ counted.2⟩

theorem State.Founded.valved {k : Nat} {o : Order} (here : s.order k = some o) : s.valved (.tank k) := by
  obtain ⟨orders, -, -, valves, -⟩ := founded.lengths
  have range := order_in_range here
  exact ⟨range.1, by omega⟩

/-- The primary group of a tank is one of the profile (spec 01 R6). -/
theorem State.Founded.primary {k : Nat} (range : 1 ≤ k ∧ k ≤ s.counts.tanks) : s.counted (s.tankData k).primary := by
  obtain ⟨tanks, -⟩ := Hull.tanks_and_draft_of_legal founded.legal
  have there := nth1_eq_some_getD default (l := s.hull.tanks) (n := k) ⟨range.1, by rw [tanks]; exact range.2⟩
  obtain ⟨k, rfl⟩ := Nat.exists_eq_add_of_le' range.1
  have legal := founded.legal
  simp only [Hull.legal, Bool.and_eq_true, List.all_eq_true] at legal
  have data := legal.1.1.1.1.1.1.2 _ (List.mem_of_getElem? there)
  simp only [TankData.legal, Bool.and_eq_true, decide_eq_true_eq] at data
  exact ⟨data.1.1.1.1.2.2.2.1, data.1.1.1.1.2.2.2.2.1⟩

theorem State.Founded.route {k : Nat} (range : 1 ≤ k ∧ k ≤ s.counts.tanks) :
    (∀ a, (s.tank k).alternate = some a → s.counted a) ∧ ((s.tank k).route = .alternate → (s.tank k).alternate ≠ none) := by
  obtain ⟨k, rfl⟩ := Nat.exists_eq_add_of_le' range.1
  have there := nth1_eq_some_getD default (l := s.tanks) (n := k + 1) ⟨range.1, by rw [founded.tanks]; exact range.2⟩
  exact founded.alternates _ (List.mem_of_getElem? there)

theorem State.Founded.order_range {k : Nat} {o : Order} (here : s.order k = some o) : 1 ≤ k ∧ k ≤ s.counts.tanks := by
  obtain ⟨orders, -⟩ := founded.lengths
  have range := order_in_range here
  exact ⟨range.1, by omega⟩

end Founded

/-! ### Orders and queues -/

/-- The queues hold the QUEUED orders of their groups, each once, the ACTIVE orders are those that `act` names for their groups,
and each tank's route permits the group of its order (spec 05 R75, R76, R79). -/
structure State.Filed (s : State) (act : Nat → Option Nat) : Prop where
  nodup : ∀ g, (s.queue g).Nodup
  queued : ∀ g k, k ∈ s.queue g → ∃ o, s.order k = some o ∧ o.state = .queued ∧ o.group = g
  waits : ∀ k o, s.order k = some o → o.state = .queued → k ∈ s.queue o.group
  runs : ∀ g k, act g = some k → ∃ o, s.order k = some o ∧ o.state = .active ∧ o.group = g
  runner : ∀ k o, s.order k = some o → o.state = .active → act o.group = some k
  routes : ∀ k o, s.order k = some o → o.state ≠ .done → (s.tank k).permits (s.tankData k).primary o.group

section Filed

variable {s t : State} {act : Nat → Option Nat} {k : Nat}

theorem State.Filed.congr (filed : s.Filed act) (alike : s.sameRoutes t) (orders : t.ballast.orders = s.ballast.orders)
    (queues : t.ballast.queues = s.ballast.queues) : t.Filed act := by
  have order (k : Nat) : t.order k = s.order k := by rw [State.order, orders]; rfl
  have queue (g : Nat) : t.queue g = s.queue g := by rw [State.queue, queues]; rfl
  obtain ⟨nodup, queued, waits, runs, runner, routes⟩ := filed
  constructor <;> simpa only [order, queue, (alike _).1, (alike _).2]

/-- A tank whose order is not QUEUED stands in no queue. -/
theorem State.Filed.unqueued (filed : s.Filed act) (rests : ∀ o, s.order k = some o → o.state ≠ .queued) (g : Nat) :
    k ∉ s.queue g := fun mem => by
  obtain ⟨o, here, queued, -⟩ := filed.queued g k mem
  exact rests o here queued

/-- A QUEUED order stands in no queue but that of its group. -/
theorem State.Filed.group_of_mem (filed : s.Filed act) {g h : Nat} (mem : k ∈ s.queue g) (mem' : k ∈ s.queue h) : g = h := by
  obtain ⟨o, here, -, rfl⟩ := filed.queued g k mem
  obtain ⟨o', here', -, rfl⟩ := filed.queued h k mem'
  rw [Option.some.inj (here.symm.trans here')]

/-- An order that goes, or is DONE, leaves its queue and its station. -/
theorem State.Filed.drop (filed : s.Filed act) (alike : s.sameRoutes t) {act' : Nat → Option Nat}
    (gone : ∀ o, t.order k = some o → o.state = .done) (others : ∀ j, j ≠ k → t.order j = s.order j)
    (queues : ∀ g, t.queue g = (s.queue g).filter (· ≠ k))
    (acts : ∀ g j, act' g = some j ↔ act g = some j ∧ j ≠ k) : t.Filed act' := by
  obtain ⟨nodup, queued, waits, runs, runner, routes⟩ := filed
  have living {j : Nat} {o : Order} (here : t.order j = some o) (lives : o.state ≠ .done) : j ≠ k ∧ s.order j = some o := by
    have other : j ≠ k := fun same => lives (gone o (same ▸ here))
    exact ⟨other, others j other ▸ here⟩
  refine ⟨fun g => ?_, fun g j mem => ?_, fun j o here state => ?_, fun g j acts' => ?_, fun j o here state => ?_,
    fun j o here state => ?_⟩
  · rw [queues]; exact (nodup g).filter _
  · rw [queues, List.mem_filter, decide_eq_true_eq] at mem
    rw [others j mem.2]
    exact queued g j mem.1
  · obtain ⟨other, was⟩ := living here (by simp [state])
    rw [queues, List.mem_filter, decide_eq_true_eq]
    exact ⟨waits j o was state, other⟩
  · obtain ⟨was, other⟩ := (acts g j).1 acts'
    rw [others j other]
    exact runs g j was
  · obtain ⟨other, was⟩ := living here (by simp [state])
    exact (acts _ _).2 ⟨runner j o was state, other⟩
  · obtain ⟨-, was⟩ := living here state
    rw [(alike j).1, (alike j).2]
    exact routes j o was state

/-- A tank that has no living order is given a QUEUED one, which joins its group's queue. -/
theorem State.Filed.file (filed : s.Filed act) (alike : s.sameRoutes t) {o : Order}
    (idle : ∀ o, s.order k = some o → o.state = .done) (here : t.order k = some o) (waiting : o.state = .queued)
    (permits : (s.tank k).permits (s.tankData k).primary o.group) (others : ∀ j, j ≠ k → t.order j = s.order j)
    (joins : (t.queue o.group).Perm (k :: s.queue o.group)) (queues : ∀ g, g ≠ o.group → t.queue g = s.queue g) :
    t.Filed act := by
  have absent (g : Nat) : k ∉ s.queue g := filed.unqueued (fun o there => by simp [idle o there]) g
  obtain ⟨nodup, queued, waits, runs, runner, routes⟩ := filed
  have other {g j : Nat} (mem : j ∈ s.queue g) : j ≠ k := fun same => absent g (same ▸ mem)
  have own {j : Nat} {x : Order} (there : t.order j = some x) : (j = k ∧ x = o) ∨ (j ≠ k ∧ s.order j = some x) := by
    by_cases same : j = k
    · subst same; exact .inl ⟨rfl, Option.some.inj (there.symm.trans here)⟩
    · exact .inr ⟨same, others j same ▸ there⟩
  refine ⟨fun g => ?_, fun g j mem => ?_, fun j x there state => ?_, fun g j acts => ?_, fun j x there state => ?_,
    fun j x there state => ?_⟩
  · by_cases same : g = o.group
    · rw [same, joins.nodup_iff]; exact List.nodup_cons.2 ⟨absent _, nodup _⟩
    · rw [queues g same]; exact nodup g
  · by_cases same : g = o.group
    · rw [same, joins.mem_iff, List.mem_cons] at mem
      obtain rfl | mem := mem
      · exact ⟨o, here, waiting, same.symm⟩
      · rw [others j (other mem), same]; exact queued _ j mem
    · rw [queues g same] at mem
      rw [others j (other mem)]; exact queued g j mem
  · obtain ⟨rfl, rfl⟩ | ⟨-, was⟩ := own there
    · exact joins.mem_iff.2 (.head _)
    · have mem := waits j x was state
      by_cases same : x.group = o.group
      · rw [same] at mem ⊢; exact joins.mem_iff.2 (.tail _ mem)
      · rw [queues _ same]; exact mem
  · obtain ⟨x, was, active, group⟩ := runs g j acts
    have apart : j ≠ k := fun same => by
      subst same
      rw [idle x was] at active
      exact OrderState.noConfusion active
    rw [others j apart]
    exact ⟨x, was, active, group⟩
  · obtain ⟨-, rfl⟩ | ⟨-, was⟩ := own there
    · rw [waiting] at state; exact OrderState.noConfusion state
    · exact runner j x was state
  · rw [(alike j).1, (alike j).2]
    obtain ⟨rfl, rfl⟩ | ⟨-, was⟩ := own there
    · exact permits
    · exact routes j x was state

end Filed

/-! ### Owned tank valves -/

/-- Each station owns the valves of the tanks that it holds, all different, and no other tank valve is owned; none that is owned
stands confirmed SHUT (spec 06 R97). -/
structure State.Owned (s : State) (held : Nat → List Nat) : Prop where
  nodup : ∀ g, (held g).Nodup
  owner : ∀ g k, (s.valve (.tank k)).owner = some g ↔ k ∈ held g
  unshut : ∀ g k, (s.valve (.tank k)).owner = some g → s.confirmedAt (.tank k) .shut = false

section Owned

variable {s t : State} {held : Nat → List Nat} {g k : Nat}

theorem State.Owned.congr (owned : s.Owned held) (owners : ∀ k, (t.valve (.tank k)).owner = (s.valve (.tank k)).owner)
    (unshut : ∀ k, (s.valve (.tank k)).owner ≠ none → s.confirmedAt (.tank k) .shut = false →
      t.confirmedAt (.tank k) .shut = false) : t.Owned held :=
  ⟨owned.nodup, fun g k => by rw [owners]; exact owned.owner g k, fun g k own =>
    unshut k (by rw [← owners k, own]; simp) (owned.unshut g k (owners k ▸ own))⟩

/-- The same tanks held in another order. -/
theorem State.Owned.perm (owned : s.Owned held) {held' : Nat → List Nat} (same : ∀ g, (held' g).Perm (held g)) :
    s.Owned held' :=
  ⟨fun g => (same g).nodup_iff.2 (owned.nodup g), fun g k => by rw [(same g).mem_iff]; exact owned.owner g k, owned.unshut⟩

/-- No tank is held by two stations. -/
theorem State.Owned.unique (owned : s.Owned held) {h : Nat} (mem : k ∈ held g) (mem' : k ∈ held h) : g = h :=
  Option.some.inj (((owned.owner g k).2 mem).symm.trans ((owned.owner h k).2 mem'))

/-- A station takes a tank whose valve no one owns. -/
theorem State.Owned.own (owned : s.Owned held) (free : (s.valve (.tank k)).owner = none)
    (own : (t.valve (.tank k)).owner = some g) (open_ : t.confirmedAt (.tank k) .shut = false)
    (others : ∀ j, j ≠ k → t.valve (.tank j) = s.valve (.tank j)) :
    t.Owned (Function.update held g (k :: held g)) := by
  have unheld (h : Nat) : k ∉ held h := fun mem => by
    rw [(owned.owner h k).2 mem] at free; exact absurd free (by simp)
  refine ⟨fun h => ?_, fun h j => ?_, fun h j own' => ?_⟩
  · by_cases same : h = g
    · subst same; rw [Function.update_self]; exact List.nodup_cons.2 ⟨unheld _, owned.nodup _⟩
    · rw [Function.update_of_ne same]; exact owned.nodup h
  · by_cases here : j = k
    · subst here
      rw [own]
      by_cases same : h = g
      · subst same; simp
      · rw [Function.update_of_ne same]; simp [Ne.symm same, unheld]
    · rw [others j here, owned.owner]
      by_cases same : h = g
      · subst same; simp [here]
      · rw [Function.update_of_ne same]
  · by_cases here : j = k
    · rw [here]; exact open_
    · rw [State.confirmedAt, others j here]
      exact owned.unshut h j (others j here ▸ own')

/-- The valve of a tank held is released. -/
theorem State.Owned.release (owned : s.Owned held) (mem : k ∈ held g) (freed : (t.valve (.tank k)).owner = none)
    (others : ∀ j, j ≠ k → t.valve (.tank j) = s.valve (.tank j)) :
    t.Owned (Function.update held g ((held g).erase k)) := by
  refine ⟨fun h => ?_, fun h j => ?_, fun h j own => ?_⟩
  · by_cases same : h = g
    · subst same; rw [Function.update_self]; exact (owned.nodup h).erase k
    · rw [Function.update_of_ne same]; exact owned.nodup h
  · by_cases here : j = k
    · subst here
      by_cases same : h = g
      · subst same; simp [freed, (owned.nodup h).mem_erase_iff]
      · rw [Function.update_of_ne same, freed]
        simp only [reduceCtorEq, false_iff]
        exact fun mem' => same (owned.unique mem' mem)
    · rw [others j here, owned.owner]
      by_cases same : h = g
      · subst same; simp [here]
      · rw [Function.update_of_ne same]
  · have here : j ≠ k := fun here => by rw [here, freed] at own; exact absurd own (by simp)
    rw [State.confirmedAt, others j here]
    exact owned.unshut h j (others j here ▸ own)

/-- The valves of all the tanks that a station holds are released. -/
theorem State.Owned.abandon (owned : s.Owned held) (freed : ∀ k ∈ held g, (t.valve (.tank k)).owner = none)
    (others : ∀ k, k ∉ held g → t.valve (.tank k) = s.valve (.tank k)) : t.Owned (Function.update held g []) := by
  have kept {h j : Nat} (own : (t.valve (.tank j)).owner = some h) : t.valve (.tank j) = s.valve (.tank j) :=
    others j fun mem => by rw [freed j mem] at own; exact absurd own (by simp)
  refine ⟨fun h => ?_, fun h j => ⟨fun own => ?_, fun mem => ?_⟩, fun h j own => ?_⟩
  · by_cases same : h = g
    · subst same; rw [Function.update_self]; exact .nil
    · rw [Function.update_of_ne same]; exact owned.nodup h
  · have mem := (owned.owner h j).1 (kept own ▸ own)
    have other : h ≠ g := fun same => by
      rw [freed j (same ▸ mem)] at own; exact absurd own (by simp)
    rw [Function.update_of_ne other]; exact mem
  · have other : h ≠ g := fun same => by rw [same, Function.update_self] at mem; exact absurd mem List.not_mem_nil
    rw [Function.update_of_ne other] at mem
    rw [others j fun mem' => other (owned.unique mem mem'), owned.owner]; exact mem
  · rw [State.confirmedAt, kept own]
    exact owned.unshut h j (kept own ▸ own)

end Owned

/-! ### The agreement -/

/-- The order that each station runs. -/
def State.actives (s : State) (g : Nat) : Option Nat := (s.station g).active

/-- The tanks that each station holds: its active tank and its closing tanks. -/
def State.holdings (s : State) (g : Nat) : List Nat := (s.station g).active.toList ++ (s.station g).closing

/-- The station of a group runs an order exactly in the states that run one, its active tank's valve is commanded OPEN, and it
rests while the sequencer is HALTED (spec 06 R92, Table 6.4). -/
structure State.Stands (s : State) (g : Nat) : Prop where
  manned : (s.station g).active.isSome = (s.station g).state.runs
  opened : ∀ k, (s.station g).active = some k → (s.valve (.tank k)).commanded = .opened
  rests : s.ballast.state = .halted → (s.station g).state.working = false

/-- Orders, queues, stations and tank valves agree in a part that stands in READY. -/
structure State.Sound (s : State) : Prop where
  founded : s.Founded
  filed : s.Filed s.actives
  owned : s.Owned s.holdings
  stands : ∀ g, s.Stands g

/-- A property of every station is one of the station of each number, where a station that does not exist has it. -/
theorem forall_stations {s : State} {P : Station → Prop} (none : P default) :
    (∀ st ∈ s.ballast.stations, P st) ↔ ∀ g, P (s.station g) := by
  refine ⟨fun all g => ?_, fun all st mem => ?_⟩
  · cases at_ : nth1 s.ballast.stations g with
    | none => rw [State.station, at_]; exact none
    | some st =>
      rw [State.station, at_]
      cases g with
      | zero => exact absurd at_ (by simp [nth1])
      | succ n => exact all st (List.mem_of_getElem? at_)
  · obtain ⟨n, at_⟩ := List.mem_iff_getElem?.1 mem
    have here := all (n + 1)
    rwa [State.station, show nth1 s.ballast.stations (n + 1) = some st from at_] at here

theorem mem_holdings {s : State} {g k : Nat} :
    k ∈ s.holdings g ↔ (s.station g).active = some k ∨ k ∈ (s.station g).closing := by
  simp [State.holdings, Option.mem_toList]

/-- The agreement is what the statement of it says, in a part that stands in READY with its stations manned as Table 6.4 has it. -/
theorem sound_of_founded {s : State} (founded : s.Founded)
    (manned : ∀ g, (s.station g).active.isSome = (s.station g).state.runs) (orders : s.OrdersOk) : s.Sound := by
  obtain ⟨⟨nodup, queued, waits⟩, ⟨runs, runner⟩, ⟨apart, owner, opened, unshut⟩, halted, -, ready⟩ := orders
  obtain ⟨-, routes⟩ := ready founded.phase
  exact ⟨founded, ⟨nodup, queued, waits, runs, runner, routes⟩,
    ⟨apart, fun g k => (owner g k).trans mem_holdings.symm, unshut⟩, fun g => ⟨manned g, opened g, fun h =>
      (forall_stations (P := fun st => st.state.working = false) rfl).1 (halted h) g⟩⟩

theorem sound_of_ordersOk {s : State} (phase : s.startUp.phase = .ready) (records : s.RecordsOk) (stations : s.StationsOk)
    (orders : s.OrdersOk) : s.Sound := by
  obtain ⟨-, tanks, -, shape⟩ := records phase
  obtain ⟨-, -, -, -, alternates, ready⟩ := id orders
  obtain ⟨legal, -⟩ := ready phase
  have groups : s.ballast.queues.length = s.counts.groups := by
    simp only [Sequencer.shape, List.cons.injEq] at shape
    exact shape.2.1
  rw [groups] at alternates
  exact sound_of_founded ⟨phase, tanks, shape, legal, alternates⟩
    ((forall_stations (P := fun st => st.active.isSome = st.state.runs) rfl).1 fun st mem => (stations st mem).1) orders

theorem State.Sound.ordersOk {s : State} (sound : s.Sound) : s.OrdersOk := by
  obtain ⟨founded, ⟨nodup, queued, waits, runs, runner, routes⟩, ⟨apart, owner, unshut⟩, stands⟩ := sound
  refine ⟨⟨nodup, queued, waits⟩, ⟨runs, runner⟩,
    ⟨apart, fun g k => (owner g k).trans mem_holdings, fun g => (stands g).opened, unshut⟩,
    fun h => (forall_stations (P := fun st => st.state.working = false) rfl).2 fun g => (stands g).rests h, ?_,
    fun _ => ⟨founded.legal, routes⟩⟩
  rw [founded.lengths.2.1]
  exact founded.alternates

end Sys2Proof.Machine
end

