-- ==== Sys2Proof/Proofs/SameWork.lean ====
section
/-! PROOFS. Changes that leave the agreement of orders, queues, stations and tank valves as it stands: what they keep, and the
changes of a station, a valve or a tank that keep it. -/

namespace Sys2Proof.Machine

/-- How a tank's order is routed. -/
def Tank.routing (x : Tank) : RouteMode × Option Nat := (x.route, x.alternate)

theorem routing_of_map {s t : State} (routes : t.tanks.map Tank.routing = s.tanks.map Tank.routing) (k : Nat) :
    (t.tank k).routing = (s.tank k).routing := by
  have read (u : State) : (u.tank k).routing = (nth1 (u.tanks.map Tank.routing) k).getD (default : Tank).routing := by
    cases k with
    | zero => rfl
    | succ k => simp only [State.tank, nth1, List.getElem?_map]; cases u.tanks[k]? <;> rfl
  rw [read, read, routes]

theorem permits_of_routing {x y : Tank} (routing : y.routing = x.routing) (p g : Nat) : y.permits p g ↔ x.permits p g := by
  simp only [Tank.routing, Prod.mk.injEq] at routing
  unfold Tank.permits
  rw [routing.1, routing.2]

/-- What a station works on. -/
def Station.work (st : Station) : StationState × Option Nat × List Nat := (st.state, st.active, st.closing)

/-- From `s` to `t` nothing changes on which the agreement rests; a tank valve that is owned is still not confirmed SHUT. -/
structure State.SameWork (s t : State) : Prop where
  phase : t.startUp.phase = s.startUp.phase
  profile : t.startUp.profile = s.startUp.profile
  shape : t.ballast.shape = s.ballast.shape
  state : t.ballast.state = s.ballast.state
  orders : t.ballast.orders = s.ballast.orders
  queues : t.ballast.queues = s.ballast.queues
  work : ∀ g, (t.station g).work = (s.station g).work
  owners : ∀ k, (t.valve (.tank k)).owner = (s.valve (.tank k)).owner
  commanded : ∀ k, (t.valve (.tank k)).commanded = (s.valve (.tank k)).commanded
  unshut : ∀ k, (s.valve (.tank k)).owner ≠ none → s.confirmedAt (.tank k) .shut = false →
    t.confirmedAt (.tank k) .shut = false
  routes : t.tanks.map Tank.routing = s.tanks.map Tank.routing

theorem State.SameWork.refl (s : State) : s.SameWork s :=
  ⟨rfl, rfl, rfl, rfl, rfl, rfl, fun _ => rfl, fun _ => rfl, fun _ => rfl, fun _ _ => id, rfl⟩

theorem State.SameWork.trans {s t u : State} (h : s.SameWork t) (k : t.SameWork u) : s.SameWork u :=
  ⟨k.phase.trans h.phase, k.profile.trans h.profile, k.shape.trans h.shape, k.state.trans h.state, k.orders.trans h.orders,
    k.queues.trans h.queues, fun g => (k.work g).trans (h.work g), fun n => (k.owners n).trans (h.owners n),
    fun n => (k.commanded n).trans (h.commanded n), fun n own => k.unshut n (by rw [h.owners]; exact own) ∘ h.unshut n own, k.routes.trans h.routes⟩

section SameWork

variable {s t : State} (same : s.SameWork t)
include same

theorem State.SameWork.order (k : Nat) : t.order k = s.order k := by rw [State.order, same.orders]; rfl

theorem State.SameWork.queue (g : Nat) : t.queue g = s.queue g := by rw [State.queue, same.queues]; rfl

theorem State.SameWork.active (g : Nat) : (t.station g).active = (s.station g).active := congrArg (·.2.1) (same.work g)

theorem State.SameWork.closing (g : Nat) : (t.station g).closing = (s.station g).closing := congrArg (·.2.2) (same.work g)

theorem State.SameWork.stationState (g : Nat) : (t.station g).state = (s.station g).state := congrArg (·.1) (same.work g)

theorem State.SameWork.counts : t.counts = s.counts := by rw [State.counts, same.profile]; rfl

theorem State.SameWork.hull : t.hull = s.hull := by rw [State.hull, same.profile]; rfl

theorem State.SameWork.tankData (k : Nat) : t.tankData k = s.tankData k := by rw [State.tankData, same.hull]; rfl

theorem State.SameWork.routing (k : Nat) : (t.tank k).routing = (s.tank k).routing := routing_of_map same.routes k

theorem State.SameWork.permits (k p g : Nat) : (t.tank k).permits p g ↔ (s.tank k).permits p g :=
  permits_of_routing (same.routing k) p g

theorem State.SameWork.tanks {P : Tank → Prop} (congr : ∀ x y : Tank, x.routing = y.routing → P x → P y)
    (all : ∀ x ∈ s.tanks, P x) : ∀ y ∈ t.tanks, P y := fun y mem => by
  have routed : y.routing ∈ s.tanks.map Tank.routing := same.routes ▸ List.mem_map_of_mem mem
  obtain ⟨x, there, routing⟩ := List.mem_map.1 routed
  exact congr x y routing (all x there)

theorem State.SameWork.ordersOk (orders : s.OrdersOk) : t.OrdersOk := by
  obtain ⟨⟨nodup, queued, waits⟩, ⟨runs, runner⟩, ⟨apart, owner, opened, unshut⟩, halted, alternates, ready⟩ := orders
  have rest := forall_stations (s := s) (P := fun st => st.state.working = false) rfl
  refine ⟨⟨?_, ?_, ?_⟩, ⟨?_, ?_⟩, ⟨?_, ?_, ?_, ?_⟩, fun h => ?_, ?_, fun phase => ?_⟩
  · simpa only [same.queue] using nodup
  · simpa only [same.queue, same.order] using queued
  · simpa only [same.queue, same.order] using waits
  · simpa only [same.order, same.active] using runs
  · simpa only [same.order, same.active] using runner
  · simpa only [same.active, same.closing] using apart
  · simpa only [same.owners, same.active, same.closing] using owner
  · simpa only [same.active, same.commanded] using opened
  · exact fun g k own => same.unshut k (by rw [← same.owners k, own]; simp) (unshut g k (same.owners k ▸ own))
  · exact (forall_stations (P := fun st => st.state.working = false) rfl).2 fun g => by
      rw [same.stationState]; exact rest.1 (halted (same.state ▸ h)) g
  · rw [same.queues]
    refine same.tanks (fun x y routing => ?_) alternates
    simp only [Tank.routing, Prod.mk.injEq] at routing
    rw [routing.1, routing.2]; exact id
  · obtain ⟨legal, routes⟩ := ready (same.phase ▸ phase)
    refine ⟨by rw [same.hull, same.counts]; exact legal, fun k o here lives => ?_⟩
    rw [same.permits, same.tankData]
    exact routes k o (same.order k ▸ here) lives

theorem State.SameWork.founded (founded : s.Founded) : t.Founded := by
  obtain ⟨phase, tanks, shape, legal, alternates⟩ := founded
  refine ⟨same.phase.trans phase, ?_, ?_, ?_, ?_⟩
  · rw [same.counts, ← tanks, ← List.length_map (f := Tank.routing), same.routes, List.length_map]
  · rw [same.shape, same.counts, shape]
  · rw [same.hull, same.counts]; exact legal
  · rw [same.counts]
    refine same.tanks (fun x y routing => ?_) alternates
    simp only [Tank.routing, Prod.mk.injEq] at routing
    rw [routing.1, routing.2]; exact id

theorem State.SameWork.sound (sound : s.Sound) : t.Sound :=
  sound_of_founded (same.founded sound.founded)
    (fun g => by rw [same.active, same.stationState]; exact (sound.stands g).manned) (same.ordersOk sound.ordersOk)

end SameWork

/-! ### Changes that keep the work -/

/-- A change beyond the phase, the profile, the tanks and the sequencer. -/
theorem sameWork_of_eq {s t : State} (phase : t.startUp.phase = s.startUp.phase)
    (profile : t.startUp.profile = s.startUp.profile) (ballast : t.ballast = s.ballast) (tanks : t.tanks = s.tanks) :
    s.SameWork t := by
  have valve (v : ValveId) : t.valve v = s.valve v := by unfold State.valve; rw [ballast]
  exact ⟨phase, profile, by rw [ballast], by rw [ballast], by rw [ballast], by rw [ballast],
    fun g => by rw [State.station, ballast]; rfl, fun k => by rw [valve], fun k => by rw [valve], fun k _ => by rw [State.confirmedAt, State.confirmedAt, valve]; exact id,
    by rw [tanks]⟩

theorem State.Sound.of_eq {s t : State} (sound : s.Sound) (phase : t.startUp.phase = s.startUp.phase)
    (profile : t.startUp.profile = s.startUp.profile) (ballast : t.ballast = s.ballast) (tanks : t.tanks = s.tanks) : t.Sound :=
  (sameWork_of_eq phase profile ballast tanks).sound sound

theorem State.onlyChannels.sameWork {s t : State} (h : s.onlyChannels t) : s.SameWork t :=
  sameWork_of_eq (by rw [h]) (by rw [h]) (by rw [h]) (by rw [h])

theorem State.onlyPours.sameWork {s t : State} (h : s.onlyPours t) : s.SameWork t :=
  sameWork_of_eq (by rw [h]) (by rw [h]) (by rw [h]) (by rw [h])

theorem updStation_sameWork {g : Nat} {f : Station → Station} (s : State) (work : ∀ st, (f st).work = st.work := by intro; rfl) :
    s.SameWork (s.updStation g f) := by
  refine ⟨rfl, rfl, (updStation_frame g f s).shape, rfl, rfl, rfl, fun h => ?_, fun _ => rfl, fun _ => rfl, fun _ _ => id, rfl⟩
  by_cases same : h = g
  · subst same
    obtain kept | changed := station_updStation_cases s h f
    · rw [kept]
    · rw [changed, work]
  · rw [station_updStation_ne same]

/-- A change of a valve that keeps its owner and its command, and confirms no valve SHUT that is owned. -/
theorem updValve_sameWork {v : ValveId} {f : Valve → Valve} (s : State)
    (keeps : ∀ x, (f x).owner = x.owner ∧ (f x).commanded = x.commanded)
    (unshut : (s.valve v).owner ≠ none → (s.valve v).commanded = .shut → (s.valve v).confirmed = false →
      (f (s.valve v)).confirmed = false) : s.SameWork (s.updValve v f) := by
  have each (k : Nat) : let x := s.valve (.tank k); let y := (s.updValve v f).valve (.tank k)
      y.owner = x.owner ∧ y.commanded = x.commanded ∧
        (x.owner ≠ none → x.commanded = .shut → x.confirmed = false → y.confirmed = false) := by
    by_cases same : ValveId.tank k = v
    · subst same
      obtain kept | changed := valve_updValve_cases s (.tank k) f
      · rw [kept]; exact ⟨rfl, rfl, fun _ _ => id⟩
      · rw [changed]
        obtain ⟨owner, commanded⟩ := keeps (s.valve (.tank k))
        exact ⟨owner, commanded, unshut⟩
    · rw [valve_updValve_ne same]; exact ⟨rfl, rfl, fun _ _ => id⟩
  have frame := updValve_frame v f s
  refine ⟨by rw [frame.startUp], by rw [frame.startUp], frame.shape, by cases v <;> rfl, by cases v <;> rfl, by cases v <;> rfl,
    fun g => by cases v <;> rfl, fun k => (each k).1, fun k => (each k).2.1, fun k own un => ?_, by rw [frame.tanks]⟩
  obtain ⟨-, commanded, confirmed⟩ := each k
  simp only [State.confirmedAt, commanded, Bool.and_eq_false_iff, decide_eq_false_iff_not] at un ⊢
  by_cases shut : (s.valve (.tank k)).commanded = .shut
  · exact .inr (confirmed own shut (un.resolve_left (not_not.2 shut)))
  · exact .inl shut

theorem updTank_sameWork {k : Nat} {f : Tank → Tank} (s : State) (routing : ∀ x, nth1 s.tanks k = some x → (f x).routing = x.routing) :
    s.SameWork (s.updTank k f) := by
  refine ⟨rfl, rfl, rfl, rfl, rfl, rfl, fun _ => rfl, fun _ => rfl, fun _ => rfl, fun _ _ => id, ?_⟩
  show (modify1 s.tanks k f).map Tank.routing = _
  cases k with
  | zero => rfl
  | succ k =>
    refine List.ext_getElem? fun i => ?_
    simp only [modify1, List.getElem?_map, List.getElem?_modify]
    split
    · rename_i here
      subst here
      cases at_ : s.tanks[k]? with
      | none => rfl
      | some x => exact congrArg some (routing x at_)
    · cases s.tanks[i]? <;> rfl

/-- A change of a line valve leaves what the agreement rests on, whatever it is. -/
theorem updValve_line_sameWork {v : ValveId} (line : ∀ k, v ≠ .tank k) (f : Valve → Valve) (s : State) :
    s.SameWork (s.updValve v f) := by
  cases v with
  | tank k => exact absurd rfl (line k)
  | suction g | overboard g =>
    exact ⟨rfl, rfl, (updValve_frame _ f s).shape, rfl, rfl, rfl, fun _ => rfl, fun _ => rfl, fun _ => rfl, fun _ _ => id, rfl⟩

theorem sendValve_line_sameWork {v : ValveId} (line : ∀ k, v ≠ .tank k) (p : ValveCommand) (s : State) :
    s.SameWork (s.sendValve v p) :=
  (updValve_line_sameWork line _ s).trans (sameWork_of_eq rfl rfl rfl rfl)

theorem commandValve_line_sameWork {v : ValveId} (line : ∀ k, v ≠ .tank k) (p : ValveCommand) (s : State) :
    s.SameWork (s.commandValve v p) := by
  unfold State.commandValve
  split
  · exact .refl s
  · exact sendValve_line_sameWork line p s

theorem sendPump_sameWork (g : Nat) (c : PumpCommand) (s : State) : s.SameWork (s.sendPump g c) :=
  (updStation_sameWork (g := g) (f := ({ · with pumpCommanded := c })) s).trans (sameWork_of_eq rfl rfl rfl rfl)

theorem commandPump_sameWork (g : Nat) (c : PumpCommand) (s : State) : s.SameWork (s.commandPump g c) := by
  unfold State.commandPump
  split
  · exact .refl s
  · exact sendPump_sameWork g c s

end Sys2Proof.Machine
end

