-- ==== Sys2Proof/Proofs/Loose.lean ====
section
/-! PROOFS. A station in the midst of a step (spec 05 R82 to R85, spec 06 R97, R103 to R112): the agreement with the order that it
runs and the tanks that it holds said apart from its record, and what each part of a step makes of the two. -/

namespace Sys2Proof.Machine

/-- The part agrees but for the record of one station, whose running order and held tanks are `run` and `held`. -/
structure State.Loose (s : State) (g : Nat) (run : Option Nat) (held : List Nat) : Prop where
  founded : s.Founded
  counted : s.counted g
  filed : s.Filed (Function.update s.actives g run)
  owned : s.Owned (Function.update s.holdings g held)
  stands : ∀ h, h ≠ g → s.Stands h

section Ends

variable {s : State} {g : Nat} {run : Option Nat} {held : List Nat}

/-- A step of a station begins with its record. -/
theorem State.Sound.loose (sound : s.Sound) (counted : s.counted g) : s.Loose g (s.station g).active (s.holdings g) :=
  ⟨sound.founded, counted, by rw [show (s.station g).active = s.actives g from rfl, Function.update_eq_self]; exact sound.filed,
    by rw [Function.update_eq_self]; exact sound.owned, fun h _ => sound.stands h⟩

/-- A step of a station ends where its record is that of the order it runs and the tanks it holds. -/
theorem State.Loose.sound (loose : s.Loose g run held) (active : (s.station g).active = run)
    (holds : (run.toList ++ (s.station g).closing).Perm held) (manned : run.isSome = (s.station g).state.runs)
    (opened : ∀ k, run = some k → (s.valve (.tank k)).commanded = .opened)
    (rests : s.ballast.state = .halted → (s.station g).state.working = false) : s.Sound := by
  obtain ⟨founded, counted, filed, owned, stands⟩ := loose
  have same : Function.update s.actives g run = s.actives := by rw [← active]; exact Function.update_eq_self g s.actives
  rw [same] at filed
  refine ⟨founded, filed, owned.perm fun h => ?_, fun h => ?_⟩
  · by_cases here : h = g
    · subst here; rw [Function.update_self, State.holdings, active]; exact holds
    · rw [Function.update_of_ne here]
  · by_cases here : h = g
    · subst here; exact ⟨by rw [active, manned], by rw [active]; exact opened, rests⟩
    · exact stands h here

theorem State.Loose.grouped (loose : s.Loose g run held) : s.grouped g := loose.founded.grouped loose.counted

theorem State.Loose.perm (loose : s.Loose g run held) {held' : List Nat} (same : held'.Perm held) : s.Loose g run held' := by
  refine { loose with owned := loose.owned.perm fun h => ?_ }
  by_cases here : h = g
  · subst here; rw [Function.update_self, Function.update_self]; exact same
  · rw [Function.update_of_ne here, Function.update_of_ne here]

/-- The valve of a tank that the station holds is its own, and not confirmed SHUT. -/
theorem State.Loose.unshut (loose : s.Loose g run held) {k : Nat} (mem : k ∈ held) :
    (s.valve (.tank k)).owner = some g ∧ s.confirmedAt (.tank k) .shut = false := by
  have own : (s.valve (.tank k)).owner = some g := (loose.owned.owner g k).2 (by rw [Function.update_self]; exact mem)
  exact ⟨own, loose.owned.unshut g k own⟩

theorem State.Loose.not_mem (loose : s.Loose g run held) {k : Nat} (free : (s.valve (.tank k)).owner = none) : k ∉ held :=
  fun mem => by rw [(loose.unshut mem).1] at free; exact absurd free (by simp)

end Ends

/-! ### One part of a step -/

section Parts

variable {s t : State} {g : Nat} {run : Option Nat} {held : List Nat}

/-- What a part of a step does to the station's order and tanks, the other stations, and the valves of their tanks, standing. -/
theorem State.Loose.next (loose : s.Loose g run held) (frame : BallastFrame s t) (state : t.ballast.state = s.ballast.state)
    (stations : ∀ h, h ≠ g → t.station h = s.station h) {run' : Option Nat} {held' : List Nat}
    (filed : t.Filed (Function.update s.actives g run')) (owned : t.Owned (Function.update s.holdings g held'))
    (opened : ∀ k, k ∉ held → (s.valve (.tank k)).commanded = .opened → (t.valve (.tank k)).commanded = .opened) :
    t.Loose g run' held' := by
  have actives : Function.update t.actives g run' = Function.update s.actives g run' := by
    funext h
    by_cases here : h = g
    · subst here; rw [Function.update_self, Function.update_self]
    · rw [Function.update_of_ne here, Function.update_of_ne here, State.actives, stations h here]; rfl
  have holdings : Function.update t.holdings g held' = Function.update s.holdings g held' := by
    funext h
    by_cases here : h = g
    · subst here; rw [Function.update_self, Function.update_self]
    · rw [Function.update_of_ne here, Function.update_of_ne here, State.holdings, stations h here]; rfl
  refine ⟨frame.founded loose.founded, ?_, actives ▸ filed, holdings ▸ owned, fun h other => ?_⟩
  · unfold State.counted; rw [frame.counts]; exact loose.counted
  · obtain ⟨manned, opens, rests⟩ := loose.stands h other
    refine ⟨by rw [stations h other]; exact manned, fun k active => ?_, fun halted => ?_⟩
    · rw [stations h other] at active
      refine opened k (fun mem => other ?_) (opens k active)
      have theirs : k ∈ Function.update s.holdings g held h := by
        rw [Function.update_of_ne other]; exact mem_holdings.2 (.inl active)
      exact loose.owned.unique theirs (by rw [Function.update_self]; exact mem)
    · rw [stations h other]; exact rests (state ▸ halted)

/-- The station's own record stands apart in the midst of a step. -/
theorem State.Loose.updStation (loose : s.Loose g run held) (f : Station → Station) : (s.updStation g f).Loose g run held :=
  loose.next (updStation_frame g f s) rfl (fun _ other => station_updStation_ne other f)
    (loose.filed.congr (updStation_frame g f s).sameRoutes rfl rfl) (loose.owned.congr (fun _ => rfl) fun _ _ => id) fun _ _ => id

/-- Commands leave orders, queues, stations and owners; a valve of the station's own tanks alone may be commanded SHUT. -/
theorem State.Loose.commanded (loose : s.Loose g run held) (commands : Commanded s t)
    (state : t.ballast.state = s.ballast.state)
    (unshut : ∀ k, s.confirmedAt (.tank k) .shut = false → t.confirmedAt (.tank k) .shut = false)
    (opened : ∀ k, k ∉ held → (s.valve (.tank k)).commanded = .opened → (t.valve (.tank k)).commanded = .opened) :
    t.Loose g run held :=
  loose.next commands.frame state (fun h _ => commands.station h)
    (loose.filed.congr commands.frame.sameRoutes commands.orders commands.queues) (loose.owned.congr (fun _ => commands.owners _) fun k _ => unshut k)
    opened

theorem sendValve_state (v : ValveId) (p : ValveCommand) (s : State) : (s.sendValve v p).ballast.state = s.ballast.state := by
  simp [State.sendValve, State.placeCommand]

theorem commandValve_state (v : ValveId) (p : ValveCommand) (s : State) :
    (s.commandValve v p).ballast.state = s.ballast.state := by
  unfold State.commandValve
  split
  · rfl
  · exact sendValve_state v p s

theorem shutLine_state (again : Bool) (v : ValveId) (s : State) : (s.shutLine again v).ballast.state = s.ballast.state := by
  unfold State.shutLine
  split
  · exact sendValve_state v .shut s
  · exact commandValve_state v .shut s

theorem shutTanks_state (ts : List Nat) (s : State) :
    (ts.foldl (fun s t => s.shutTank t) s).ballast.state = s.ballast.state := by
  have released (k : Nat) (s : State) : (s.releaseIfShut k).ballast.state = s.ballast.state := by
    unfold State.releaseIfShut
    split
    · split <;> rfl
    · rfl
  induction ts generalizing s with
  | nil => rfl
  | cons k ts ih => exact (ih (s.shutTank k)).trans ((released k _).trans (commandValve_state (.tank k) .shut s))

theorem State.Loose.commandValve (loose : s.Loose g run held) {v : ValveId} {p : ValveCommand}
    (own : p = .opened ∨ ∀ k, v = .tank k → k ∈ held) : (s.commandValve v p).Loose g run held := by
  refine loose.commanded (commandValve_commanded v p s) (commandValve_state v p s)
    (fun k un => unconfirmed_commandValve un v p) fun k mem was => ?_
  by_cases here : ValveId.tank k = v
  · subst here
    obtain rfl | own := own
    · unfold State.commandValve; rw [if_pos was]; exact was
    · exact absurd (own k rfl) mem
  · rw [valve_commandValve_ne here]; exact was

theorem State.Loose.shutLine (loose : s.Loose g run held) {v : ValveId} (line : ∀ k, v ≠ .tank k) (again : Bool) :
    (s.shutLine again v).Loose g run held := by
  have valve (k : Nat) : (s.shutLine again v).valve (.tank k) = s.valve (.tank k) := valve_shutLine_ne (line k).symm again
  refine loose.commanded (shutLine_commanded again v s) (shutLine_state again v s) (fun k un => ?_)
    fun k _ was => by rw [valve]; exact was
  rw [State.confirmedAt, valve]; exact un

/-- The valves of tanks that the station holds are commanded SHUT, and stay its own (spec 06 R97). -/
theorem State.Loose.shutTanks {ts : List Nat} (own : ∀ k ∈ ts, k ∈ held) (loose : s.Loose g run held) :
    (ts.foldl (fun s t => s.shutTank t) s).Loose g run held := by
  induction ts generalizing s with
  | nil => exact loose
  | cons k ts ih =>
    obtain ⟨first, rest⟩ := List.forall_mem_cons.1 own
    rw [List.foldl_cons, shutTank_of_unconfirmed (loose.unshut first).2]
    exact ih rest (loose.commandValve (.inr fun j here => ValveId.tank.inj here ▸ first))

theorem commandPump_state (g : Nat) (c : PumpCommand) (s : State) : (s.commandPump g c).ballast.state = s.ballast.state := by
  unfold State.commandPump
  split <;> rfl

theorem State.Loose.placeCommand (loose : s.Loose g run held) (c : FieldCommand) : (s.placeCommand c).Loose g run held :=
  loose.next (placeCommand_frame c s) rfl (fun _ _ => rfl) (loose.filed.congr (placeCommand_frame c s).sameRoutes rfl rfl)
    (loose.owned.congr (fun _ => rfl) fun _ _ => id) fun _ _ => id

theorem State.Loose.sendPump (loose : s.Loose g run held) (c : PumpCommand) : (s.sendPump g c).Loose g run held :=
  (loose.updStation _).placeCommand _

theorem State.Loose.commandPump (loose : s.Loose g run held) (c : PumpCommand) : (s.commandPump g c).Loose g run held := by
  unfold State.commandPump
  split
  · exact loose
  · exact loose.sendPump c

/-! ### Orders -/

/-- The order that the station runs is completed, or goes. -/
theorem State.Loose.drop {k : Nat} (loose : s.Loose g (some k) held) (frame : BallastFrame s t)
    (state : t.ballast.state = s.ballast.state) (stations : t.ballast.stations = s.ballast.stations)
    (queues : t.ballast.queues = s.ballast.queues) (valves : ∀ v, t.valve v = s.valve v)
    (gone : ∀ o, t.order k = some o → o.state = .done) (others : ∀ j, j ≠ k → t.order j = s.order j) :
    t.Loose g none held := by
  obtain ⟨o, here, active, group⟩ := loose.filed.runs g k (by rw [Function.update_self])
  have absent (h : Nat) : k ∉ s.queue h := loose.filed.unqueued (fun o' here' => by
    rw [← Option.some.inj (here.symm.trans here'), active]; exact OrderState.noConfusion) h
  refine loose.next frame state (fun h _ => by rw [State.station, stations]; rfl) ?_
    (loose.owned.congr (fun _ => by rw [valves]) fun k _ => by rw [State.confirmedAt, State.confirmedAt, valves]; exact id) fun _ _ => by
      rw [valves]; exact id
  refine loose.filed.drop frame.sameRoutes gone others (fun h => ?_) fun h j => ?_
  · rw [State.queue, queues]
    refine (List.filter_eq_self.2 fun j mem => ?_).symm
    exact decide_eq_true fun same => absent h (same ▸ mem)
  · by_cases same : h = g
    · subst same
      rw [Function.update_self, Function.update_self]
      simp [eq_comm]
    · rw [Function.update_of_ne same, Function.update_of_ne same]
      refine ⟨fun runs => ⟨runs, fun here' => same ?_⟩, And.left⟩
      obtain ⟨o', there, -, group'⟩ := loose.filed.runs h j (by rw [Function.update_of_ne same]; exact runs)
      rw [here', here] at there
      rw [← group, ← group', Option.some.inj there]

theorem State.Loose.completed {k : Nat} (loose : s.Loose g (some k) held) (c : Completion) :
    (s.updOrder k (Order.complete c)).Loose g none held := by
  refine loose.drop (updOrder_frame _ _ _) rfl rfl rfl (fun v => by cases v <;> rfl) (fun o here => ?_) fun j other => by
    rw [order_updOrder, if_neg other]
  rw [order_updOrder, if_pos rfl, Option.map_eq_some_iff] at here
  obtain ⟨_, -, rfl⟩ := here
  rfl

theorem State.Loose.removed {k : Nat} (loose : s.Loose g (some k) held) : (s.setOrder k none).Loose g none held :=
  loose.drop (setOrder_frame _ _ _) rfl rfl rfl (fun v => by cases v <;> rfl)
    (fun o here => by rw [order_setOrder_none, if_pos rfl] at here; exact absurd here (by simp))
    fun j other => by rw [order_setOrder_none, if_neg other]

/-- The order that the station runs is returned to the head of its group's queue (spec 05 R84). -/
theorem State.Loose.returned (loose : s.Loose g run held) (active : (s.station g).active = run) (c : HoldCause) :
    (s.returnOrder g c).Loose g none held := by
  unfold State.returnOrder
  rw [active]
  cases run with
  | none => exact loose
  | some k =>
    obtain ⟨o, here, running, group⟩ := loose.filed.runs g k (by rw [Function.update_self])
    have frame := (updOrder_frame k ({ · with state := .queued, holdCause := some c }) s).trans
      (setQueue_frame g (k :: s.queue g) _)
    have permits := loose.filed.routes k o here (by rw [running]; exact OrderState.noConfusion)
    have filed : State.Filed ((s.updOrder k ({ · with state := .queued, holdCause := some c })).setQueue g (k :: s.queue g))
        (Function.update s.actives g none) := by
      refine loose.removed.filed.file (k := k) (o := { o with state := .queued, holdCause := some c }) (fun _ => ⟨rfl, rfl⟩)
        (fun o' there => ?_) ?_ rfl permits (fun j other => ?_) ?_ fun h other => queue_setQueue_ne (group ▸ other) _
      · rw [order_setOrder_none, if_pos rfl] at there; exact absurd there (by simp)
      · exact (order_updOrder k k _ s).trans (by rw [if_pos rfl, here]; rfl)
      · exact (order_updOrder k j _ s).trans (by rw [order_setOrder_none, if_neg other, if_neg other])
      · rw [show Order.group _ = g from group]
        exact .of_eq (queue_setQueue_self ((updOrder_frame _ _ _).grouped loose.grouped) _)
    exact (loose.next frame rfl (fun _ _ => rfl) filed (loose.owned.congr (fun _ => rfl) fun _ _ => id) fun _ _ => id).updStation _

end Parts

end Sys2Proof.Machine
end

