-- ==== Sys2Proof/Proofs/ScanAndReroute.lean ====
section
/-! PROOFS. A scan of a queue and the rerouting of one (spec 05 R82, R83, R85): what each makes of every order and queue, and that
the orders and queues agree afterwards. -/

namespace Sys2Proof.Machine

/-! ### A scan -/

/-- The orders of a queue are those that a scan finds met, the one that it takes, and those that it leaves. -/
theorem mem_queue_iff {s : State} {g k : Nat} : k ∈ s.queue g ↔ k ∈ s.foundMet g ∨ s.taken g = some k ∨ k ∈ s.left g := by
  have split := queue_split s (s.queue g)
  have here : k ∈ s.queue g ↔ k ∈ s.passed (s.queue g) ∨ s.taken g = some k ∨ k ∈ s.behind (s.queue g) := by
    rw [split, List.mem_append, List.mem_append, Option.mem_toList, ← split]; rfl
  rw [here, State.foundMet, State.left, List.mem_append, List.mem_filter, List.mem_filter]
  cases met : s.metInQueue k <;> simp
  tauto

/-- In a queue without repetition an order that a scan leaves is neither found met nor taken. -/
theorem not_found_of_left {s : State} {g k : Nat} (nodup : (s.queue g).Nodup) (mem : k ∈ s.left g) :
    k ∉ s.foundMet g ∧ s.taken g ≠ some k := by
  have split := queue_split s (s.queue g)
  rw [split, List.nodup_append, List.nodup_append] at nodup
  obtain ⟨-, ⟨-, -, apart⟩, passed⟩ := nodup
  obtain kept | behind := List.mem_append.1 mem
  · rw [List.mem_filter] at kept
    refine ⟨fun found => ?_, fun taken => ?_⟩
    · have met := (List.mem_filter.1 found).2
      simp [met] at kept
    · exact passed k kept.1 k (List.mem_append_left _ (Option.mem_toList.2 taken)) rfl
  · refine ⟨fun found => ?_, fun taken => apart k (Option.mem_toList.2 taken) k behind rfl⟩
    exact passed k (List.mem_filter.1 found).1 k (List.mem_append_right _ behind) rfl

theorem not_found_of_taken {s : State} {g k : Nat} (taken : s.taken g = some k) : k ∉ s.foundMet g := fun found => by
  have eligible := eligible_of_taken taken
  rw [not_eligible (.inr (List.mem_filter.1 found).2)] at eligible
  exact Bool.false_ne_true eligible

theorem left_nodup {s : State} {g : Nat} (nodup : (s.queue g).Nodup) : (s.left g).Nodup := by
  have split := queue_split s (s.queue g)
  rw [split, List.nodup_append, List.nodup_append] at nodup
  obtain ⟨kept, ⟨-, behind, -⟩, apart⟩ := nodup
  refine List.nodup_append.2 ⟨kept.filter _, behind, fun j mem k mem' => ?_⟩
  exact apart j (List.mem_filter.1 mem).1 k (List.mem_append_right _ mem')

theorem order_scan_found {s : State} {g k : Nat} (found : k ∈ s.foundMet g) :
    (s.scan g).order k = (s.order k).map (Order.complete .met) := by
  have other : s.taken g ≠ some k := fun taken => not_found_of_taken taken found
  rw [order_scan]; dsimp only; rw [if_neg other, if_pos found]

theorem order_scan_taken {s : State} {g k : Nat} (taken : s.taken g = some k) :
    (s.scan g).order k = (s.order k).map Order.take := by
  rw [order_scan]; dsimp only; rw [if_pos taken, if_neg (not_found_of_taken taken)]

theorem order_scan_other {s : State} {g k : Nat} (unmet : k ∉ s.foundMet g) (other : s.taken g ≠ some k) :
    (s.scan g).order k = s.order k := by
  rw [order_scan]; dsimp only; rw [if_neg other, if_neg unmet]

/-- Orders and queues agree after the scan of a station without order, which runs the order taken. -/
theorem State.Filed.scanned {s : State} {act : Nat → Option Nat} {g : Nat} (filed : s.Filed act) (there : s.grouped g)
    (idle : act g = none) : (s.scan g).Filed (Function.update act g (s.taken g)) := by
  obtain ⟨nodup, queued, waits, runs, runner, routes⟩ := filed
  have alike := (scan_frame g s).sameRoutes
  have mine {k : Nat} (mem : k ∈ s.queue g) := queued g k mem
  have queue (h : Nat) : (s.scan g).queue h = if h = g then s.left g else s.queue h := by
    split
    · rename_i here; rw [here, queue_scan_self there]
    · rename_i other; exact queue_scan_ne other s
  have cases {k : Nat} {o : Order} (here : (s.scan g).order k = some o) :
      o.state = .done ∨ (s.taken g = some k ∧ o.state = .active ∧ o.group = g ∧ ∃ o', s.order k = some o' ∧
        o'.state = .queued ∧ o'.group = g) ∨ (k ∉ s.foundMet g ∧ s.taken g ≠ some k ∧ s.order k = some o) := by
    by_cases found : k ∈ s.foundMet g
    · rw [order_scan_found found, Option.map_eq_some_iff] at here
      obtain ⟨_, -, rfl⟩ := here
      exact .inl rfl
    · by_cases taken : s.taken g = some k
      · obtain ⟨o', here', state, group⟩ := mine (mem_queue_iff.2 (.inr (.inl taken)))
        rw [order_scan_taken taken, here'] at here
        obtain rfl := Option.some.inj here
        exact .inr (.inl ⟨taken, rfl, group, o', here', state, group⟩)
      · exact .inr (.inr ⟨found, taken, order_scan_other found taken ▸ here⟩)
  have stays {k : Nat} (absent : k ∉ s.queue g) : (s.scan g).order k = s.order k :=
    order_scan_other (fun found => absent (mem_queue_iff.2 (.inl found)))
      fun taken => absent (mem_queue_iff.2 (.inr (.inl taken)))
  have apart {h k : Nat} (other : h ≠ g) (mem : k ∈ s.queue h) : k ∉ s.queue g := fun mem' => by
    obtain ⟨o, here, -, group⟩ := queued h k mem
    obtain ⟨o', here', -, group'⟩ := queued g k mem'
    rw [← group, ← group', Option.some.inj (here.symm.trans here')] at other
    exact other rfl
  refine ⟨fun h => ?_, fun h k mem => ?_, fun k o here state => ?_, fun h k acts => ?_, fun k o here state => ?_,
    fun k o here lives => ?_⟩
  · rw [queue]
    split
    · exact left_nodup (nodup g)
    · exact nodup h
  · rw [queue] at mem
    split at mem
    · rename_i here
      obtain ⟨unmet, other⟩ := not_found_of_left (nodup g) mem
      rw [order_scan_other unmet other, here]
      exact mine (mem_left mem)
    · rename_i other
      rw [stays (apart other mem)]
      exact queued h k mem
  · obtain done | ⟨-, active, -⟩ | ⟨unmet, other, was⟩ := cases here
    · rw [done] at state; exact OrderState.noConfusion state
    · rw [active] at state; exact OrderState.noConfusion state
    · have mem := waits k o was state
      rw [queue]
      split
      · rename_i same
        rw [same, mem_queue_iff] at mem
        exact (mem.resolve_left unmet).resolve_left other
      · exact mem
  · by_cases here : h = g
    · subst here
      rw [Function.update_self] at acts
      obtain ⟨o, here, -, group⟩ := mine (mem_queue_iff.2 (.inr (.inl acts)))
      exact ⟨o.take, by rw [order_scan_taken acts, here]; rfl, rfl, group⟩
    · rw [Function.update_of_ne here] at acts
      obtain ⟨o, was, active, group⟩ := runs h k acts
      have absent : k ∉ s.queue g := fun mem => by
        obtain ⟨o', was', waiting, -⟩ := mine mem
        rw [Option.some.inj (was.symm.trans was'), waiting] at active
        exact OrderState.noConfusion active
      exact ⟨o, by rw [stays absent]; exact was, active, group⟩
  · obtain done | ⟨taken, -, group, -⟩ | ⟨-, other, was⟩ := cases here
    · rw [done] at state; exact OrderState.noConfusion state
    · rw [group, Function.update_self]; exact taken
    · have acts := runner k o was state
      have elsewhere : o.group ≠ g := fun same => by rw [same, idle] at acts; exact absurd acts (by simp)
      rw [Function.update_of_ne elsewhere]; exact acts
  · rw [(alike k).1, (alike k).2]
    obtain done | ⟨-, -, group, o', was, state, group'⟩ | ⟨-, -, was⟩ := cases here
    · exact absurd done lives
    · rw [group, ← group']
      exact routes k o' was (by rw [state]; exact OrderState.noConfusion)
    · exact routes k o was lives

/-! ### The rerouting of a queue -/

/-- Two lists are the same where their elements of every number are. -/
theorem ext_nth1 {α : Type} {l m : List α} (same : ∀ n, nth1 l n = nth1 m n) : l = m :=
  List.ext_getElem? fun n => same (n + 1)

/-- An order that goes to another group, where there is one. -/
def Order.regroup (h : Option Nat) (o : Order) : Order := { o with group := h.getD o.group }

/-- The moves of a rerouting, of the orders of a walk in its order. -/
def State.moves (s : State) (dest : Nat → Option Nat) (walk : List Nat) : State :=
  walk.foldl (fun s' k => match dest k with
    | some h => s'.moveOrder k h
    | none => s') s

theorem reroute_eq_moves (s : State) (g : Nat) : s.reroute g =
    (s.setQueue g ((s.queue g).filter fun k => (s.otherGroup g k).isNone)).moves (s.otherGroup g) (s.queue g) := rfl

theorem moves_rest (s : State) (dest : Nat → Option Nat) (walk : List Nat) : s.moves dest walk = { s with ballast := { s.ballast with
    orders := (s.moves dest walk).ballast.orders, queues := (s.moves dest walk).ballast.queues } } := by
  induction walk generalizing s with
  | nil => rfl
  | cons k walk ih =>
    unfold State.moves
    rw [List.foldl_cons]
    cases dest k with
    | none => exact ih s
    | some h => exact ih (s.moveOrder k h)

theorem moveOrder_orders (s : State) (k h n : Nat) : nth1 (s.moveOrder k h).ballast.orders n =
    if n = k then (nth1 s.ballast.orders n).map (Option.map (Order.regroup (some h))) else nth1 s.ballast.orders n := by
  simp only [State.moveOrder, State.updOrder, State.setQueue, nth1_modify1]; rfl

theorem moveOrder_queues (s : State) (k h n : Nat) : nth1 (s.moveOrder k h).ballast.queues n =
    if n = h then (nth1 s.ballast.queues n).map (· ++ [k]) else nth1 s.ballast.queues n := by
  simp only [State.moveOrder, State.updOrder, State.setQueue, nth1_modify1]
  split
  · rename_i here
    subst here
    rw [State.queue]
    cases nth1 s.ballast.queues n <;> rfl
  · rfl

theorem Order.regroup_regroup (h : Option Nat) (o : Order) : (o.regroup h).regroup h = o.regroup h := by
  cases h <;> rfl

/-- Each order of the walk goes to its group's record. -/
theorem moves_orders (s : State) (dest : Nat → Option Nat) (walk : List Nat) (n : Nat) :
    nth1 (s.moves dest walk).ballast.orders n =
      if n ∈ walk then (nth1 s.ballast.orders n).map (Option.map (Order.regroup (dest n))) else nth1 s.ballast.orders n := by
  have still (x : Option (Option Order)) : x.map (Option.map (Order.regroup none)) = x := by
    rcases x with _ | _ | o <;> rfl
  have twice (x : Option (Option Order)) (h : Option Nat) :
      (x.map (Option.map (Order.regroup h))).map (Option.map (Order.regroup h)) = x.map (Option.map (Order.regroup h)) := by
    rcases x with _ | _ | o
    · rfl
    · rfl
    · exact congrArg (some ∘ some) (o.regroup_regroup h)
  induction walk generalizing s with
  | nil => rfl
  | cons k walk ih =>
    have step : s.moves dest (k :: walk) = State.moves (match dest k with
      | some h => s.moveOrder k h
      | none => s) dest walk := rfl
    rw [step]
    cases goes : dest k with
    | none =>
      rw [ih]
      by_cases here : n = k
      · subst here; simp [goes, still]
      · simp [here]
    | some h =>
      rw [ih, moveOrder_orders]
      by_cases here : n = k
      · subst here; simp only [goes, List.mem_cons_self, if_true, twice, ite_self]
      · simp [here]

/-- The orders of the walk that go to a group join the tail of its queue in the order of the walk. -/
theorem moves_queues (s : State) (dest : Nat → Option Nat) (walk : List Nat) (n : Nat) :
    nth1 (s.moves dest walk).ballast.queues n =
      (nth1 s.ballast.queues n).map (· ++ walk.filter fun k => decide (dest k = some n)) := by
  induction walk generalizing s with
  | nil => simp [State.moves]
  | cons k walk ih =>
    have step : s.moves dest (k :: walk) = State.moves (match dest k with
      | some h => s.moveOrder k h
      | none => s) dest walk := rfl
    rw [step]
    cases goes : dest k with
    | none => rw [ih]; simp [goes]
    | some h =>
      rw [ih, moveOrder_queues]
      by_cases here : n = h
      · subst here
        rw [if_pos rfl, Option.map_map]
        congr 1
        funext q
        simp [goes]
      · simp [here, goes, Ne.symm here]

theorem reroute_orders (s : State) (g n : Nat) : nth1 (s.reroute g).ballast.orders n =
    if n ∈ s.queue g then (nth1 s.ballast.orders n).map (Option.map (Order.regroup (s.otherGroup g n)))
    else nth1 s.ballast.orders n := by
  rw [reroute_eq_moves, moves_orders]; rfl

theorem reroute_queues (s : State) (g n : Nat) : nth1 (s.reroute g).ballast.queues n =
    (nth1 s.ballast.queues n).map fun q =>
      (if n = g then (s.queue g).filter fun k => (s.otherGroup g k).isNone else q) ++
        (s.queue g).filter fun k => decide (s.otherGroup g k = some n) := by
  rw [reroute_eq_moves, moves_queues]
  simp only [State.setQueue, nth1_modify1]
  split
  · cases nth1 s.ballast.queues n <;> rfl
  · rfl

theorem reroute_rest (s : State) (g : Nat) : s.reroute g = { s with ballast := { s.ballast with
    orders := (s.reroute g).ballast.orders, queues := (s.reroute g).ballast.queues } } := by
  rw [reroute_eq_moves]
  exact moves_rest _ _ _

theorem order_reroute (s : State) (g k : Nat) : (s.reroute g).order k =
    if k ∈ s.queue g then (s.order k).map (Order.regroup (s.otherGroup g k)) else s.order k := by
  rw [State.order, State.order, reroute_orders]
  split
  · rcases nth1 s.ballast.orders k with _ | _ | o <;> rfl
  · rfl

theorem queue_reroute {s : State} {n : Nat} (there : s.grouped n) (g : Nat) : (s.reroute g).queue n =
    (if n = g then (s.queue g).filter fun k => (s.otherGroup g k).isNone else s.queue n) ++
      (s.queue g).filter fun k => decide (s.otherGroup g k = some n) := by
  rw [State.queue, reroute_queues, nth1_eq_some_getD [] ⟨there.1, there.2.1⟩]; rfl

/-- The group that an order goes to is another that the tank's route permits (spec 05 R85, Table 5.3). -/
theorem permits_of_otherGroup {s : State} {g k h : Nat} (goes : s.otherGroup g k = some h) :
    (s.tank k).permits (s.tankData k).primary h ∧
      (h = (s.tankData k).primary ∨ (s.tank k).alternate = some h) := by
  have named (a : Nat) (alternate : (s.tank k).alternate = some a)
      (goes : some (if g = (s.tankData k).primary then a else (s.tankData k).primary) = some h) :
      h = (s.tankData k).primary ∨ (s.tank k).alternate = some h := by
    split at goes
    · exact .inr (alternate.trans goes)
    · exact .inl (Option.some.inj goes).symm
  unfold State.otherGroup at goes
  split at goes
  · rename_i route alternate
    have either := named _ alternate goes
    exact ⟨by unfold Tank.permits; rw [route]; exact either, either⟩
  · rename_i route alternate
    have either := named _ alternate goes
    exact ⟨by unfold Tank.permits; rw [route]; exact either, either⟩
  · exact absurd goes (by simp)

/-- A group's queue exists where it holds an order. -/
theorem queued_counted {s : State} (founded : s.Founded) {g k : Nat} (mem : k ∈ s.queue g) : s.counted g := by
  obtain ⟨-, queues, -⟩ := founded.lengths
  cases g with
  | zero => exact absurd mem (by simp [State.queue, nth1])
  | succ g =>
    refine ⟨Nat.succ_le_succ g.zero_le, Nat.lt_of_not_le fun beyond => ?_⟩
    have missing : nth1 s.ballast.queues (g + 1) = none := List.getElem?_eq_none (by omega)
    rw [State.queue, missing] at mem
    exact absurd mem List.not_mem_nil

/-- Orders and queues agree after the rerouting of a queue. -/
theorem State.Filed.rerouted {s : State} {act : Nat → Option Nat} {g : Nat} (filed : s.Filed act) (founded : s.Founded) :
    (s.reroute g).Filed act := by
  have apart {h k : Nat} (mem : k ∈ s.queue h) (mem' : k ∈ s.queue g) : h = g := filed.group_of_mem mem mem'
  obtain ⟨nodup, queued, waits, runs, runner, routes⟩ := filed
  have alike := (reroute_frame g s).sameRoutes
  have queue {h : Nat} (counted : s.counted h) := queue_reroute (founded.grouped counted) g
  have mem_queue {h k : Nat} (mem : k ∈ (s.reroute g).queue h) : s.counted h :=
    have c := queued_counted ((reroute_frame g s).founded founded) mem
    ⟨c.1, (reroute_frame g s).counts ▸ c.2⟩
  have goes_counted {k h : Nat} (mem : k ∈ s.queue g) (goes : s.otherGroup g k = some h) : s.counted h := by
    obtain ⟨o, here, -⟩ := queued g k mem
    have range := founded.order_range here
    obtain primary | alternate := (permits_of_otherGroup goes).2
    · rw [primary]; exact founded.primary range
    · exact (founded.route range).1 h alternate
  refine ⟨fun h => ?_, fun h k mem => ?_, fun k o here state => ?_, fun h k acts => ?_, fun k o here state => ?_,
    fun k o here lives => ?_⟩
  · by_cases counted : s.counted h
    · rw [queue counted]
      refine List.nodup_append.2 ⟨?_, (nodup g).filter _, fun j mem k mem' same => ?_⟩
      · split
        · exact (nodup g).filter _
        · exact nodup h
      · subst same
        obtain ⟨walk, goes⟩ := List.mem_filter.1 mem'
        split at mem
        · have stays := (List.mem_filter.1 mem).2
          simp only [decide_eq_true_eq] at goes
          simp [goes] at stays
        · rename_i other; exact other (apart mem walk)
    · by_contra bad
      obtain ⟨k, mem⟩ := List.exists_mem_of_ne_nil ((s.reroute g).queue h) fun nil => bad (by rw [nil]; exact .nil)
      exact counted (mem_queue mem)
  · rw [queue (mem_queue mem), List.mem_append] at mem
    rw [order_reroute]
    obtain mem | mem := mem
    · split at mem
      · rename_i here
        obtain ⟨walk, stays⟩ := List.mem_filter.1 mem
        obtain ⟨o, was, state, group⟩ := queued g k walk
        rw [if_pos walk, was, Option.isNone_iff_eq_none.1 stays]
        exact ⟨o, rfl, state, group.trans here.symm⟩
      · rename_i other
        rw [if_neg fun walk => other (apart mem walk)]
        exact queued h k mem
    · obtain ⟨walk, goes⟩ := List.mem_filter.1 mem
      obtain ⟨o, was, state, -⟩ := queued g k walk
      rw [if_pos walk, was, of_decide_eq_true goes]
      exact ⟨_, rfl, state, rfl⟩
  · rw [order_reroute] at here
    split at here
    · rename_i walk
      obtain ⟨o', was, rfl⟩ := Option.map_eq_some_iff.1 here
      obtain ⟨o'', was', -, group⟩ := queued g k walk
      obtain rfl := Option.some.inj (was.symm.trans was')
      cases goes : s.otherGroup g k with
      | none =>
        show k ∈ (s.reroute g).queue o'.group
        rw [group, queue (queued_counted founded walk), if_pos rfl]
        exact List.mem_append_left _ (List.mem_filter.2 ⟨walk, by rw [goes]; rfl⟩)
      | some h =>
        show k ∈ (s.reroute g).queue h
        rw [queue (goes_counted walk goes)]
        exact List.mem_append_right _ (List.mem_filter.2 ⟨walk, decide_eq_true goes⟩)
    · rename_i absent
      have mem := waits k o here state
      rw [queue (queued_counted founded mem), if_neg fun same : o.group = g => absent (same ▸ mem)]
      exact List.mem_append_left _ mem
  · obtain ⟨o, was, active, group⟩ := runs h k acts
    have absent : k ∉ s.queue g := fun mem => by
      obtain ⟨o', was', waiting, -⟩ := queued g k mem
      rw [Option.some.inj (was.symm.trans was'), waiting] at active
      exact OrderState.noConfusion active
    exact ⟨o, by rw [order_reroute, if_neg absent]; exact was, active, group⟩
  · rw [order_reroute] at here
    split at here
    · rename_i walk
      obtain ⟨o', was, rfl⟩ := Option.map_eq_some_iff.1 here
      obtain ⟨o'', was', waiting, -⟩ := queued g k walk
      obtain rfl := Option.some.inj (was.symm.trans was')
      exact absurd (waiting.symm.trans state) OrderState.noConfusion
    · exact runner k o here state
  · rw [(alike k).1, (alike k).2]
    rw [order_reroute] at here
    split at here
    · obtain ⟨o', was, rfl⟩ := Option.map_eq_some_iff.1 here
      cases goes : s.otherGroup g k with
      | none => exact routes k o' was lives
      | some h => exact (permits_of_otherGroup goes).1
    · exact routes k o here lives

end Sys2Proof.Machine
end

