-- ==== Sys2Proof/Proofs/SoundStations.lean ====
section
/-! PROOFS. The station transitions keep orders, queues, stations and tank valves in agreement (spec 05 R82 to R85, R88, spec 06 R92,
R103 to R112): each begins with the station's record, and ends where the record is again that of its order and its tanks. -/

namespace Sys2Proof.Machine

/-! ### More parts of a step -/

section Parts

variable {s : State} {g : Nat} {run : Option Nat} {held : List Nat}

theorem State.Loose.scan (loose : s.Loose g none held) : (s.scan g).Loose g (s.taken g) held := by
  have filed := loose.filed.scanned loose.grouped (Function.update_self g none s.actives)
  rw [Function.update_idem] at filed
  refine loose.next (scan_frame g s) (by rw [scan_eq]) (fun _ other => station_scan_ne other s) filed
    (loose.owned.congr (fun _ => by rw [valve_scan]) fun k _ => by rw [State.confirmedAt, State.confirmedAt, valve_scan]; exact id)
    fun _ _ => by rw [valve_scan]; exact id

theorem valve_reroute (s : State) (g : Nat) (v : ValveId) : (s.reroute g).valve v = s.valve v := by
  rw [reroute_rest]; cases v <;> rfl

theorem station_reroute (s : State) (g h : Nat) : (s.reroute g).station h = s.station h := by
  rw [reroute_rest]; rfl

theorem State.Loose.reroute (loose : s.Loose g run held) : (s.reroute g).Loose g run held :=
  loose.next (reroute_frame g s) (by rw [reroute_rest]) (fun _ _ => station_reroute _ _ _)
    (loose.filed.rerouted loose.founded)
    (loose.owned.congr (fun _ => by rw [valve_reroute]) fun k _ => by
      rw [State.confirmedAt, State.confirmedAt, valve_reroute]; exact id)
    fun _ _ => by rw [valve_reroute]; exact id

/-- The station takes a tank whose valve is commanded OPEN and has no owner. -/
theorem State.Loose.ownTank {n : Nat} (loose : s.Loose g run held) (valved : s.valved (.tank n))
    (free : (s.valve (.tank n)).owner = none) (opened : (s.valve (.tank n)).commanded = .opened) :
    (s.ownTank g n).Loose g run (n :: held) := by
  have own : (s.ownTank g n).valve (.tank n) = { s.valve (.tank n) with owner := some g } := valve_updValve_self valved _
  have others (k : Nat) (other : k ≠ n) : (s.ownTank g n).valve (.tank k) = s.valve (.tank k) :=
    valve_updValve_ne (fun same => other (ValveId.tank.inj same)) _
  have owned := loose.owned.own (g := g) free (by rw [own]) (by rw [State.confirmedAt, own]; simp [opened]) others
  rw [Function.update_self, Function.update_idem] at owned
  refine loose.next (ownTank_frame g n s) rfl (fun _ _ => rfl) (loose.filed.congr (ownTank_frame g n s).sameRoutes rfl rfl) owned
    fun k _ was => ?_
  by_cases here : k = n
  · rw [here, own]; exact opened
  · rw [others k here]; exact was

end Parts

/-! ### What a change leaves -/

theorem station_addClosing {s : State} {g : Nat} (there : s.grouped g) (k : Nat) :
    (s.addClosing g k).station g = { s.station g with closing := (s.station g).closing ++ [k] } :=
  station_updStation_self there _

theorem returnOrder_spec {s : State} {g : Nat} (there : s.grouped g) (c : HoldCause) :
    (s.returnOrder g c).station g = { s.station g with active := none } ∧
      (∀ v, (s.returnOrder g c).valve v = s.valve v) ∧ (s.returnOrder g c).ballast.state = s.ballast.state := by
  unfold State.returnOrder
  split
  · refine ⟨station_updStation_self (((updOrder_frame _ _ _).trans (setQueue_frame _ _ _)).grouped there) _, fun v => ?_, rfl⟩
    cases v <;> rfl
  · rename_i idle
    exact ⟨by rw [← idle], fun _ => rfl, rfl⟩

theorem StationState.working_of_runs {st : StationState} (runs : st.runs = true) : st.working = true := by
  cases st with
  | lineup | priming | discharge | strip | changeover => rfl
  | off | stopping _ | tripped | localControl => exact absurd runs (by simp [StationState.runs])

/-- A station that works stands in a sequencer that is not HALTED. -/
theorem State.Sound.awake {s : State} (sound : s.Sound) {g : Nat} (working : (s.station g).state.working = true) :
    s.ballast.state ≠ .halted := fun halted => by
  rw [(sound.stands g).rests halted] at working; exact Bool.false_ne_true working

/-- A station that has an order works. -/
theorem State.Sound.working {s : State} (sound : s.Sound) {g k : Nat} (active : (s.station g).active = some k) :
    (s.station g).state.working = true :=
  StationState.working_of_runs (by rw [← (sound.stands g).manned, active]; rfl)

theorem State.Sound.idle {s : State} (sound : s.Sound) {g : Nat} (rests : (s.station g).state.runs = false) :
    (s.station g).active = none := by
  have manned := (sound.stands g).manned
  rwa [rests, ← Bool.not_eq_true, Option.not_isSome_iff_eq_none] at manned

/-- A station that holds a tank is one of the profile. -/
theorem counted_of_holding {s : State} (founded : s.Founded) {g k : Nat} (mem : k ∈ s.holdings g) : s.counted g := by
  obtain ⟨-, -, stations, -⟩ := founded.lengths
  have missing (none : nth1 s.ballast.stations g = none) : False := by
    rw [State.holdings, State.station, none] at mem
    exact absurd mem List.not_mem_nil
  cases g with
  | zero => exact absurd rfl (fun h => missing h)
  | succ g =>
    exact ⟨Nat.succ_le_succ g.zero_le, Nat.lt_of_not_le fun beyond =>
      missing (List.getElem?_eq_none (by omega))⟩

theorem counted_of_active {s : State} (founded : s.Founded) {g k : Nat} (active : (s.station g).active = some k) : s.counted g :=
  counted_of_holding founded (mem_holdings.2 (.inl active))

/-- A station out of OFF is one of the profile. -/
theorem counted_of_state {s : State} (founded : s.Founded) {g : Nat} (on : (s.station g).state ≠ .off) : s.counted g := by
  obtain ⟨-, -, stations, -⟩ := founded.lengths
  have missing (none : nth1 s.ballast.stations g = none) : False := on (by rw [State.station, none]; rfl)
  cases g with
  | zero => exact absurd rfl (fun h => missing h)
  | succ g =>
    exact ⟨Nat.succ_le_succ g.zero_le, Nat.lt_of_not_le fun beyond => missing (List.getElem?_eq_none (by omega))⟩

theorem counted_of_working {s : State} (founded : s.Founded) {g : Nat} (working : (s.station g).state.working = true) :
    s.counted g := counted_of_state founded fun off => by rw [off] at working; exact Bool.false_ne_true working

theorem State.Sound.counted_of_owner {s : State} (sound : s.Sound) {g k : Nat}
    (owner : (s.valve (.tank k)).owner = some g) : s.counted g :=
  counted_of_holding sound.founded ((sound.owned.owner g k).1 owner)

theorem BallastFrame.counted {s t : State} (f : BallastFrame s t) {g : Nat} (c : s.counted g) : t.counted g := by
  unfold State.counted; rw [f.counts]; exact c

/-- A station's state changes to another that runs an order where the first does. -/
theorem State.Sound.updStation {s : State} (sound : s.Sound) {g : Nat} (counted : s.counted g) (f : Station → Station)
    (active : (f (s.station g)).active = (s.station g).active) (closing : (f (s.station g)).closing = (s.station g).closing)
    (runs : (f (s.station g)).state.runs = (s.station g).state.runs)
    (rests : s.ballast.state = .halted → (f (s.station g)).state.working = false) : (s.updStation g f).Sound := by
  have read := station_updStation_self (sound.founded.grouped counted) f
  refine ((sound.loose counted).updStation f).sound (by rw [read, active]) (by rw [read, closing]; rfl)
    (by rw [read, runs]; exact (sound.stands g).manned) (fun k run => ?_) (by rw [read]; exact rests)
  rw [valve_updStation]
  exact (sound.stands g).opened k run

/-! ### STOPPING -/

section Stopping

variable {s : State} {g : Nat} {held : List Nat}

/-- A station without its order, the tanks that it holds its closing tanks, enters RUNDOWN. -/
theorem State.Loose.enterRundown (loose : s.Loose g none held) (idle : (s.station g).active = none)
    (holds : (s.station g).closing.Perm held) (awake : s.ballast.state ≠ .halted) : (s.enterRundown g).Sound := by
  obtain ⟨read, -⟩ := enterRundown_spec loose.grouped
  refine ((loose.commandPump .stop).updStation _).sound (by rw [← State.enterRundown, read]; exact idle)
    (by rw [← State.enterRundown, read]; exact holds) (by rw [← State.enterRundown, read]; rfl) (fun _ none => absurd none (by simp))
    fun halted => absurd ((commandPump_state g .stop s).symm.trans halted) awake

theorem State.Sound.closingTest (sound : s.Sound) : (s.closingTest g).Sound := by
  unfold State.closingTest
  split
  · rename_i shut
    have counted := counted_of_state (g := g) sound.founded (by rw [shut.1]; exact StationState.noConfusion)
    exact sound.updStation counted _ rfl rfl (by rw [shut.1]; rfl) fun _ => rfl
  · exact sound

/-- A station without its order, the tanks that it holds its closing tanks, enters CLOSING. -/
theorem State.Loose.enterClosing (loose : s.Loose g none held) (idle : (s.station g).active = none)
    (holds : (s.station g).closing.Perm held) (awake : s.ballast.state ≠ .halted) : (s.enterClosing g).Sound := by
  have line : (s.closesLine g).Loose g none held :=
    ((loose.updStation Station.closes).shutLine (by simp) _).shutLine (by simp) _
  have own (k : Nat) (mem : k ∈ (s.station g).closing) : k ∈ held := holds.mem_iff.1 mem
  obtain ⟨commanded, -⟩ := shutTanks_of_unconfirmed fun k mem => (line.unshut (own k mem)).2
  have read := ((closesLine_commanded g s).trans commanded).station g
  rw [station_updStation_self loose.grouped] at read
  rw [enterClosing_eq]
  refine State.Sound.closingTest ?_
  refine (line.shutTanks own).sound (by rw [read]; exact idle) (by rw [read]; exact holds) (by rw [read]; rfl)
    (fun _ none => absurd none (by simp)) fun halted => absurd ?_ awake
  rw [← halted, shutTanks_state, State.closesLine, shutLine_state, shutLine_state]
  rfl

end Stopping

/-! ### Looks, CHANGEOVER and the ends of orders -/

section Orders

variable {s : State} {g : Nat} {held : List Nat}

/-- An order that a scan takes is of a tank whose valve stands in the table and has no owner. -/
theorem State.Founded.taken (founded : s.Founded) {n : Nat} (taken : s.taken g = some n) :
    s.valved (.tank n) ∧ (s.valve (.tank n)).owner = none := by
  obtain ⟨⟨o, here⟩, free⟩ := order_and_owner_of_eligible (eligible_of_taken taken)
  exact ⟨founded.valved here, free⟩

theorem station_enterLineup (there : s.grouped g) (n : Nat) :
    (s.enterLineup g n).station g = { s.station g with state := .lineup } := by
  have commands := ((commandValve_commanded (.suction g) .opened (s.updStation g ({ · with state := .lineup }))).trans
    (commandValve_commanded (.overboard g) .opened _)).trans (commandValve_commanded (.tank n) .opened _)
  exact (commands.station g).trans (station_updStation_self there _)

/-- A station that has taken an order enters LINEUP. -/
theorem State.Loose.enterLineup {n : Nat} (loose : s.Loose g (some n) held) (active : (s.station g).active = some n)
    (holds : (s.station g).closing.Perm held) (valved : s.valved (.tank n)) (free : (s.valve (.tank n)).owner = none)
    (awake : s.ballast.state ≠ .halted) : (s.enterLineup g n).Sound := by
  have read := station_enterLineup loose.grouped n
  have lined : State.Loose _ g (some n) held :=
    ((loose.updStation ({ · with state := .lineup })).commandValve (v := .suction g) (p := .opened) (.inl rfl)).commandValve
      (v := .overboard g) (p := .opened) (.inl rfl)
  have valved' := (commandValve_frame (.overboard g) .opened _).valved ((commandValve_frame (.suction g) .opened _).valved
    ((updStation_frame g ({ · with state := .lineup }) s).valved valved))
  have opened := commanded_commandValve valved' .opened
  have owner : (State.valve _ (.tank n)).owner = none :=
    (((commandValve_commanded (.suction g) .opened (s.updStation g ({ · with state := .lineup }))).trans
      (commandValve_commanded (.overboard g) .opened _)).trans (commandValve_commanded (.tank n) .opened _)).owners (.tank n)
      |>.trans free
  have valved'' := (commandValve_frame (.tank n) .opened _).valved valved'
  have owns := (lined.commandValve (v := .tank n) (p := .opened) (.inl rfl)).ownTank valved'' owner opened
  refine owns.sound (by rw [← State.enterLineup, read]; exact active) ?_ (by rw [← State.enterLineup, read]; rfl) (fun k run => ?_)
    fun halted => absurd (.trans ?_ halted) awake
  · rw [← State.enterLineup, read]; exact holds.cons n
  · obtain rfl := Option.some.inj run
    rw [show (State.ownTank _ _ _).valve (.tank n) = { State.valve _ (.tank n) with owner := some g } from
      valve_updValve_self valved'' _]
    exact opened
  · show _ = (State.commandValve _ _ _).ballast.state
    rw [commandValve_state, commandValve_state, commandValve_state]; rfl

theorem State.Sound.look (sound : s.Sound) (counted : s.counted g) : (s.look g).Sound := by
  unfold State.look
  split
  · rename_i may
    obtain ⟨running, off, none⟩ := of_decide_eq_true may
    have idle := sound.idle (g := g) (by rw [off]; rfl)
    have loose : s.Loose g Option.none [] := by
      have loose := sound.loose counted
      rwa [State.holdings, idle, none] at loose
    have scan := loose.scan
    have read := station_scan_self loose.grouped
    have state : (s.scan g).ballast.state = s.ballast.state := by rw [scan_eq]
    have awake : (s.scan g).ballast.state ≠ .halted := by rw [state, running]; exact SequencerState.noConfusion
    dsimp only
    rw [show ((s.scan g).station g).active = s.taken g by rw [read]; rfl]
    cases taken : s.taken g with
    | none =>
      rw [taken] at scan
      exact scan.sound (by rw [read]; exact taken) (by rw [read]; exact .of_eq none) (by rw [read]; simp [State.scanner, off]; rfl)
        (fun _ none => absurd none (by simp)) fun halted => absurd halted awake
    | some n =>
      rw [taken] at scan
      obtain ⟨valved, free⟩ := loose.founded.taken taken
      exact scan.enterLineup (by rw [read]; exact taken) (by rw [read]; exact .of_eq none) ((scan_frame g s).valved valved)
        (by rw [valve_scan]; exact free) awake
  · exact sound

/-- A station that has taken an order in CHANGEOVER changes to its tank. -/
theorem State.Loose.changesTo {n : Nat} (loose : s.Loose g (some n) held) (active : (s.station g).active = some n)
    (holds : (s.station g).closing.Perm held) (valved : s.valved (.tank n)) (free : (s.valve (.tank n)).owner = none)
    (awake : s.ballast.state ≠ .halted) : (s.changesTo g n).Sound := by
  obtain ⟨frame, -, ⟨own, -⟩, ⟨opened, -⟩, -⟩ := opensNext_spec loose.grouped valved
  have owns : (s.opensNext g n).Loose g (some n) (n :: held) := by
    have changes := updStation_frame g ({ · with state := .changeover }) s
    have command := commandValve_commanded (.tank n) .opened (s.updStation g ({ · with state := .changeover }))
    exact ((loose.updStation _).commandValve (.inl rfl)).ownTank (command.frame.valved (changes.valved valved))
      ((command.owners _).trans free) (commanded_commandValve (changes.valved valved) _)
  have state : (s.opensNext g n).ballast.state = s.ballast.state := commandValve_state (.tank n) .opened _
  have apart : ∀ k ∈ (s.station g).closing, ValveId.tank n ≠ .tank k := fun k mem same =>
    loose.not_mem free (ValveId.tank.inj same ▸ holds.mem_iff.1 mem)
  have ends (t : State) (loose : t.Loose g (some n) (n :: held)) (read : t.station g = { s.station g with state := .changeover })
      (opened : (t.valve (.tank n)).commanded = .opened) (state : t.ballast.state = s.ballast.state) : t.Sound :=
    loose.sound (by rw [read]; exact active) (by rw [read]; exact holds.cons n) (by rw [read]; rfl)
      (fun k run => by rw [← Option.some.inj run]; exact opened) fun halted => absurd (state ▸ halted) awake
  unfold State.changesTo
  split
  · rw [own]
    have inside (k : Nat) (mem : k ∈ (s.station g).closing) : k ∈ n :: held := .tail _ (holds.mem_iff.1 mem)
    obtain ⟨commanded, others, -⟩ := shutTanks_of_unconfirmed fun k mem => (owns.unshut (inside k mem)).2
    exact ends _ (owns.shutTanks inside) ((commanded.station g).trans own) (by rw [others _ apart]; exact opened)
      ((shutTanks_state _ _).trans state)
  · exact ends _ owns own opened state

/-- A station without its order, whose tank is to be a closing tank, scans its queue and changes over, or stops (R108). -/
theorem State.Loose.enterChangeover {k : Nat} (loose : s.Loose g none held)
    (holds : ((s.station g).closing ++ [k]).Perm held) (awake : s.ballast.state ≠ .halted) : (s.enterChangeover g k).Sound := by
  have given : (s.givenUp g k Station.emptied).Loose g none held := (loose.updStation _).updStation _
  have read : (s.givenUp g k Station.emptied).station g =
      { (s.station g).emptied with closing := (s.station g).closing ++ [k] } := by
    rw [State.givenUp, station_addClosing ((updStation_frame _ _ _).grouped loose.grouped),
      station_updStation_self loose.grouped]
    rfl
  have state : (s.givenUp g k Station.emptied).ballast.state = s.ballast.state := rfl
  rw [enterChangeover_eq]
  rw [← state] at awake
  generalize s.givenUp g k Station.emptied = u at given read awake
  have idle : (u.station g).active = none := by rw [read]; rfl
  have closing : (u.station g).closing.Perm held := by rw [read]; exact holds
  split
  · have scan := given.scan
    have scanner := station_scan_self given.grouped
    have stays : (u.scan g).ballast.state ≠ .halted := by rw [scan_eq]; exact awake
    have closing' : ((u.scan g).station g).closing.Perm held := by rw [scanner]; exact closing
    have active : ((u.scan g).station g).active = u.taken g := by rw [scanner]; rfl
    unfold State.takesNext
    rw [active]
    cases taken : u.taken g with
    | none =>
      rw [taken] at scan active
      exact scan.enterRundown active closing' stays
    | some n =>
      rw [taken] at scan active
      obtain ⟨valved, free⟩ := given.founded.taken taken
      exact scan.changesTo active closing' ((scan_frame g u).valved valved) (by rw [valve_scan]; exact free) stays
  · exact given.enterRundown idle closing awake

/-- The tanks of a station that parts from its order are its closing tanks and that of the order. -/
theorem holdings_of_active {k : Nat} (active : (s.station g).active = some k) :
    ((s.station g).closing ++ [k]).Perm (s.holdings g) := by
  rw [State.holdings, active]; exact List.perm_append_comm

theorem State.Sound.completeOrder (sound : s.Sound) (c : Completion) : (s.completeOrder g c).Sound := by
  unfold State.completeOrder
  cases active : (s.station g).active with
  | none => exact sound
  | some k =>
    have loose := sound.loose (counted_of_active sound.founded active)
    rw [active] at loose
    have idle := (loose.completed c).updStation fun st => { st with active := none, doneFlag := true }
    refine idle.enterChangeover (k := k) ?_ (sound.awake (sound.working active))
    rw [station_updStation_self ((updOrder_frame _ _ _).grouped loose.grouped)]
    exact holdings_of_active active

theorem State.Sound.interrupt (sound : s.Sound) (c : HoldCause) : (s.interrupt g c).Sound := by
  unfold State.interrupt
  cases active : (s.station g).active with
  | none => exact sound
  | some k =>
    have loose := sound.loose (counted_of_active sound.founded active)
    obtain ⟨read, -, state⟩ := returnOrder_spec loose.grouped c
    refine ((loose.returned rfl c).updStation ({ · with holdFlag := true })).enterChangeover (k := k) ?_ ?_
    · rw [station_updStation_self ((returnOrder_frame _ _ _).grouped loose.grouped), read]
      exact holdings_of_active active
    · show (s.returnOrder g c).ballast.state ≠ _
      rw [state]
      exact sound.awake (sound.working active)

theorem restartWatch_sameWork (g : Nat) (s : State) : s.SameWork (s.restartWatch g) := updStation_sameWork s

theorem State.Sound.enterStrip (sound : s.Sound) (runs : (s.station g).state.runs = true) : (s.enterStrip g).Sound := by
  have counted := counted_of_working sound.founded (StationState.working_of_runs runs)
  have pump := commandPump_sameWork g .runReduced s
  have same := pump.stationState g
  refine (restartWatch_sameWork g _).sound ((pump.sound sound).updStation ((commandPump_frame _ _ _).counted counted) _ rfl rfl
    (by rw [same, runs]; rfl) fun halted => absurd halted ?_)
  rw [pump.state]
  exact sound.awake (StationState.working_of_runs runs)

theorem State.Sound.enterDischarge (sound : s.Sound) (runs : (s.station g).state.runs = true) :
    (s.enterDischarge g).Sound := by
  have counted := counted_of_working sound.founded (StationState.working_of_runs runs)
  have discharges := sound.updStation counted ({ · with state := .discharge, deadline := none }) rfl rfl (by rw [runs]; rfl)
    fun halted => absurd halted (sound.awake (StationState.working_of_runs runs))
  have entered := (restartWatch_sameWork g _).sound discharges
  have state : ((State.restartWatch g (s.updStation g ({ · with state := .discharge, deadline := none }))).station g).state =
      .discharge := by
    rw [(restartWatch_sameWork g _).stationState, station_updStation_self (sound.founded.grouped counted)]
  unfold State.enterDischarge
  dsimp only
  split
  · split
    · exact entered.completeOrder .met
    · split
      · exact entered.interrupt .stale
      · split
        · exact entered.interrupt .stress
        · split
          · exact entered.enterStrip (by rw [state]; rfl)
          · exact entered
  · exact entered

/-! ### Trips and LOCAL -/

/-- A station trips from whatever state it stands in (spec 06 R110). -/
theorem State.Sound.trip (sound : s.Sound) (counted : s.counted g) (c : TripCause) : (s.trip g c).Sound := by
  have stopped := ((sound.loose counted).updStation ({ · with lastTrip := some c })).commandPump .stop
  have shut := (stopped.commandValve (v := .suction g) (p := .shut) (.inr (by simp))).commandValve (v := .overboard g)
    (p := .shut) (.inr (by simp))
  have same := (((updStation_sameWork (g := g) (f := ({ · with lastTrip := some c })) s).trans
    (commandPump_sameWork g .stop _)).trans (commandValve_line_sameWork (v := .suction g) (by simp) .shut _)).trans
    (commandValve_line_sameWork (v := .overboard g) (by simp) .shut _)
  unfold State.trip
  dsimp only
  generalize State.commandValve (.overboard g) .shut _ = u at shut same
  have back := shut.returned (same.active g) .trip
  obtain ⟨read, -⟩ := returnOrder_spec shut.grouped .trip
  have tripped := back.updStation fun x =>
    { x with
      state := .tripped, closing := x.closing ++ (s.station g).active.toList, deadline := none, lowSince := none
      resuming := false, tripFlag := true }
  have record := station_updStation_self back.grouped fun x : Station =>
    { x with
      state := .tripped, closing := x.closing ++ (s.station g).active.toList, deadline := none, lowSince := none
      resuming := false, tripFlag := true }
  obtain ⟨commanded, -⟩ := shutTanks_of_unconfirmed (ts := s.holdings g) fun k mem => (tripped.unshut mem).2
  have last := (station_reroute _ g g).trans ((commanded.station g).trans record)
  refine ((tripped.shutTanks fun _ => id).reroute).sound (by rw [last, read]) ?_ (by rw [last]; rfl)
    (fun _ none => absurd none (by simp)) fun _ => by rw [last]; rfl
  rw [last, read]
  show ((u.station g).closing ++ _).Perm _
  rw [same.closing]
  exact List.perm_append_comm

theorem State.Sound.tripWorking (sound : s.Sound) (c : TripCause) : (s.tripWorking g c).Sound := by
  unfold State.tripWorking
  split
  · exact sound.trip (counted_of_working sound.founded ‹_›) c
  · split
    · exact (updStation_sameWork s).sound sound
    · exact sound

end Orders

/-- Tank valves that are owned no longer, their travel timers stopped (spec 06 R112). -/
def State.disown (s : State) (ks : List Nat) : State :=
  ks.foldl (fun s k => s.updValve (.tank k) ({ · with owner := none, deadline := none })) s

theorem disown_rest (s : State) (ks : List Nat) : s.disown ks = { s with ballast := { s.ballast with
    tankValves := (s.disown ks).ballast.tankValves } } := by
  induction ks generalizing s with
  | nil => rfl
  | cons k ks ih => exact ih (s.updValve (.tank k) ({ · with owner := none, deadline := none }))

theorem disown_valves (s : State) (ks : List Nat) (n : Nat) : nth1 (s.disown ks).ballast.tankValves n =
    if n ∈ ks then (nth1 s.ballast.tankValves n).map ({ · with owner := none, deadline := none })
    else nth1 s.ballast.tankValves n := by
  have twice (x : Option Valve) : (x.map fun v : Valve => { v with owner := none, deadline := none }).map
      (fun v : Valve => { v with owner := none, deadline := none }) =
      x.map fun v : Valve => { v with owner := none, deadline := none } := by cases x <;> rfl
  induction ks generalizing s with
  | nil => rfl
  | cons k ks ih =>
    refine (ih (s.updValve (.tank k) ({ · with owner := none, deadline := none }))).trans ?_
    simp only [State.updValve, nth1_modify1]
    by_cases here : n = k
    · subst here; simp only [List.mem_cons_self, if_true, twice, ite_self]
    · simp [here]

theorem disown_frame (s : State) (ks : List Nat) : BallastFrame s (s.disown ks) :=
  .foldl (fun s k => updValve_frame (.tank k) _ s) ks s

theorem mem_ownedTanks {s : State} (founded : s.Founded) {g k : Nat} :
    k ∈ s.ownedTanks g ↔ (s.valve (.tank k)).owner = some g := by
  simp only [State.ownedTanks, List.mem_filter, decide_eq_true_eq, State.tankNumbers, upTo, List.mem_range'_1]
  refine ⟨And.right, fun own => ⟨?_, own⟩⟩
  obtain ⟨least, most⟩ := valved_of_owned own
  obtain ⟨-, -, -, valves, -⟩ := founded.lengths
  omega

section Local

variable {s : State} {g : Nat} {run : Option Nat} {held : List Nat}

/-- The valves of all the tanks that the station holds are its own no longer. -/
theorem State.Loose.disown {ks : List Nat} (loose : s.Loose g run held) (all : ∀ k, k ∈ ks ↔ k ∈ held) :
    (s.disown ks).Loose g run [] := by
  have read (k : Nat) (mem : k ∈ held) : ((s.disown ks).valve (.tank k)).owner = none := by
    rw [State.valve, disown_valves, if_pos ((all k).2 mem)]
    cases nth1 s.ballast.tankValves k <;> rfl
  have other (k : Nat) (out : k ∉ held) : (s.disown ks).valve (.tank k) = s.valve (.tank k) := by
    rw [State.valve, disown_valves, if_neg fun mem => out ((all k).1 mem)]; rfl
  have owned := loose.owned.abandon (g := g) (t := s.disown ks) (by rw [Function.update_self]; exact read)
    (by rw [Function.update_self]; exact other)
  rw [Function.update_idem] at owned
  refine loose.next (disown_frame s ks) (by rw [disown_rest]) (fun h _ => by rw [disown_rest]; rfl)
    (loose.filed.congr (disown_frame s ks).sameRoutes (by rw [disown_rest]) (by rw [disown_rest])) owned fun k out was => by
      rw [other k out]; exact was

theorem State.Loose.updLine {v : ValveId} (loose : s.Loose g run held) (line : ∀ k, v ≠ .tank k) (f : Valve → Valve) :
    (s.updValve v f).Loose g run held := by
  have same := updValve_line_sameWork line f s
  have valve (k : Nat) : (s.updValve v f).valve (.tank k) = s.valve (.tank k) := valve_updValve_ne (line k).symm f
  refine loose.next (updValve_frame v f s) same.state (fun h _ => by cases v <;> rfl)
    (loose.filed.congr (updValve_frame v f s).sameRoutes same.orders same.queues)
    (loose.owned.congr same.owners same.unshut) fun k _ was => by rw [valve]; exact was

/-- A station goes to LOCAL (spec 06 R112). -/
theorem State.Sound.enterLocal (sound : s.Sound) (counted : s.counted g) : (s.enterLocal g).Sound := by
  have back := (sound.loose counted).returned rfl .localControl
  have freed := back.disown (ks := s.ownedTanks g) fun k => (mem_ownedTanks sound.founded).trans (sound.owned.owner g k)
  have lines := (freed.updLine (v := .suction g) (by simp) ({ · with deadline := none })).updLine (v := .overboard g) (by simp)
    ({ · with deadline := none })
  obtain ⟨read, -⟩ := returnOrder_spec (sound.founded.grouped counted) .localControl
  have record : (((s.returnOrder g .localControl).disown (s.ownedTanks g)).station g).active = none := by
    rw [disown_rest]; exact congrArg Station.active read
  have last := (station_reroute _ g g).trans (station_updStation_self lines.grouped fun x : Station =>
    { x with
      state := .localControl, closing := [], deadline := none, lowSince := none, resuming := false
      localFlag := true })
  refine ((lines.updStation _).reroute).sound (by rw [last]; exact record) (by rw [last]; rfl) (by rw [last]; rfl)
    (fun _ none => absurd none (by simp)) fun _ => by rw [last]; rfl

/-- The sequencer leaves HALTED. -/
theorem State.Sound.awaken (sound : s.Sound) {x : SequencerState} (awake : x ≠ .halted) :
    State.Sound { s with ballast.state := x } := by
  have frame := sequencerState_frame x s
  refine ⟨frame.founded sound.founded, sound.filed.congr frame.sameRoutes rfl rfl,
    sound.owned.congr (fun _ => by rfl) fun _ _ => id, fun g => ?_⟩
  obtain ⟨manned, opened, -⟩ := sound.stands g
  exact ⟨manned, opened, fun halted => absurd halted awake⟩

/-- A station resumes command after LOCAL (spec 06 R112, R92). -/
theorem State.Sound.leaveLocal (sound : s.Sound) (rests : (s.station g).state = .localControl) : (s.leaveLocal g).Sound := by
  have counted := counted_of_state (g := g) sound.founded (by rw [rests]; exact StationState.noConfusion)
  have resumes {u : State} (sound : u.Sound) (counted : u.counted g) (rests : (u.station g).state = .localControl)
      (awake : u.ballast.state ≠ .halted) : State.Sound ((u.sendPump g .stop).updStation g fun st =>
        { st with
          state := .stopping .rundown, deadline := some (later s.clock st.rundown), resuming := true, localFlag := true }) := by
    have pump := sendPump_sameWork g .stop u
    refine (pump.sound sound).updStation ((sendPump_frame _ _ _).counted counted) _ rfl rfl ?_ fun halted =>
      absurd (pump.state ▸ halted) awake
    rw [pump.stationState, rests]; rfl
  unfold State.leaveLocal
  dsimp only
  split
  · exact resumes (sound.awaken (x := .halting) (by simp)) counted rests (by simp)
  · rename_i awake
    exact resumes sound counted rests awake

/-- HALT reaches a station (spec 06 R92). -/
theorem State.Sound.haltStation (sound : s.Sound) : (s.haltStation g).Sound := by
  have parted {k : Nat} (active : (s.station g).active = some k) :
      let u := (s.returnOrder g .halt).addClosing g k
      u.Loose g none (s.holdings g) ∧ (u.station g).active = none ∧ (u.station g).closing.Perm (s.holdings g) ∧
        u.ballast.state ≠ .halted := by
    have loose := sound.loose (counted_of_active sound.founded active)
    obtain ⟨read, -, state⟩ := returnOrder_spec loose.grouped .halt
    have record := station_addClosing ((returnOrder_frame g .halt s).grouped loose.grouped) k
    refine ⟨(loose.returned rfl .halt).updStation _, by rw [record, read], ?_, ?_⟩
    · rw [record, read]; exact holdings_of_active active
    · show (s.returnOrder g .halt).ballast.state ≠ _
      rw [state]; exact sound.awake (sound.working active)
  have closes {k : Nat} (active : (s.station g).active = some k) :=
    have ⟨loose, idle, holds, awake⟩ := parted active
    loose.enterClosing idle holds awake
  have stops {k : Nat} (active : (s.station g).active = some k) :=
    have ⟨loose, idle, holds, awake⟩ := parted active
    loose.enterRundown idle holds awake
  unfold State.haltStation
  split
  · exact closes ‹_›
  · exact stops ‹_›
  · exact stops ‹_›
  · exact stops ‹_›
  · exact stops ‹_›
  · exact sound

/-- What a station does once the order that it ran is gone (spec 05 R88, spec 06 R104 to R108). -/
theorem State.Sound.orderGone {k : Nat} (sound : s.Sound) (active : (s.station g).active = some k) :
    ((s.setOrder k none).orderGone g k).Sound := by
  have awake := sound.awake (sound.working active)
  have manned := (sound.stands g).manned
  have loose := sound.loose (counted_of_active sound.founded active)
  rw [active] at loose manned
  have gone := loose.removed
  have parted := (gone.updStation ({ · with active := none })).updStation fun st => { st with closing := st.closing ++ [k] }
  have record : (((s.setOrder k none).updStation g ({ · with active := none })).addClosing g k).station g =
      { s.station g with active := none, closing := (s.station g).closing ++ [k] } := by
    rw [station_addClosing ((updStation_frame _ _ _).grouped gone.grouped), station_updStation_self gone.grouped]
    rfl
  have holds := holdings_of_active active
  have idle : ((((s.setOrder k none).updStation g ({ · with active := none })).addClosing g k).station g).active = none := by
    rw [record]
  have closing : ((((s.setOrder k none).updStation g ({ · with active := none })).addClosing g k).station g).closing.Perm
      (s.holdings g) := by rw [record]; exact holds
  have changes := gone.enterChangeover (k := k) holds awake
  unfold State.orderGone
  rw [show ((s.setOrder k none).station g).state = (s.station g).state from rfl]
  cases state : (s.station g).state with
  | lineup => exact parted.enterClosing idle closing awake
  | priming | changeover => exact parted.enterRundown idle closing awake
  | discharge | strip => exact changes
  | off | stopping _ | tripped | localControl => rw [state] at manned; exact absurd manned (by simp [StationState.runs])

end Local

end Sys2Proof.Machine
end

