-- ==== Sys2Proof/Proofs/SoundEvents.lean ====
section
/-! PROOFS. Reports, deadlines, changes handed on and the looks that follow keep orders, queues, stations and tank valves in agreement
(spec 05 R89, spec 06 R92 to R115, spec 01 R17, spec 02 R26). -/

namespace Sys2Proof.Machine

/-- A fold keeps what each of its steps keeps. -/
theorem foldl_keeps {α : Type} {P : State → Prop} {f : State → α → State} {l : List α} {s : State}
    (step : ∀ a ∈ l, ∀ s, P s → P (f s a)) (h : P s) : P (l.foldl f s) := by
  induction l generalizing s with
  | nil => exact h
  | cons a l ih => exact ih (fun b mem => step b (.tail _ mem)) (step a (.head _) s h)

/-- Drawing an order of parties leaves the agreement. -/
theorem State.Sound.draw {s : State} (sound : s.Sound) (n : Nat) : State.Sound { s with draws := n } :=
  sound.of_eq rfl rfl rfl rfl

section Sound

variable {s : State} (sound : s.Sound)
include sound

/-! ### The end of a step (spec 06 R92, R103) -/

theorem State.Sound.haltTest : s.haltTest.Sound := by
  unfold State.haltTest
  split
  · rename_i halts
    have frame := sequencerState_frame .halted s
    refine ⟨frame.founded sound.founded, sound.filed.congr frame.sameRoutes rfl rfl,
      sound.owned.congr (fun _ => by rfl) fun _ _ => id, fun g => ⟨(sound.stands g).manned, (sound.stands g).opened, fun _ => ?_⟩⟩
    show (s.station g).state.working = false
    by_contra works
    have counted := counted_of_working sound.founded (Bool.not_eq_false _ |>.mp works)
    have rests := List.all_eq_true.1 halts.2 g (mem_groupNumbers.2 counted)
    simp [Bool.not_eq_false _ |>.mp works] at rests
  · exact sound

theorem State.Sound.settle (all : Bool) (before : State) : (s.settle all before).Sound := by
  have looked : State.Sound (s.settle all before) ∧ (s.settle all before).counts = s.counts := by
    unfold State.settle
    refine unordered_keeps (fun t => t.Sound ∧ t.counts = s.counts) (fun t h => ⟨h.1.draw _, h.2⟩) (fun g mem t h => ?_)
      ⟨sound.haltTest, (haltTest_frame s).counts⟩
    have numbered := mem_groupNumbers.1 (List.mem_of_mem_filter mem)
    rw [(haltTest_frame s).counts, ← h.2] at numbered
    exact ⟨h.1.look numbered, (look_frame g t).counts.trans h.2⟩
  exact looked.1

/-! ### Valves -/

theorem State.Sound.lineupTest (g : Nat) : (s.lineupTest g).Sound := by
  unfold State.lineupTest
  split
  · rename_i lined
    have counted := counted_of_state (g := g) sound.founded (by rw [lined.1]; exact StationState.noConfusion)
    have pump := commandPump_sameWork g .runFull s
    refine (pump.sound sound).updStation ((commandPump_frame _ _ _).counted counted) _ rfl rfl
      (by rw [pump.stationState, lined.1]; rfl) fun halted => absurd halted ?_
    rw [pump.state]
    exact sound.awake (g := g) (by rw [lined.1]; rfl)
  · exact sound

theorem State.Sound.changeoverTest (g : Nat) : (s.changeoverTest g).Sound := by
  unfold State.changeoverTest
  split
  · rename_i changes
    have counted := counted_of_state (g := g) sound.founded (by rw [changes.1]; exact StationState.noConfusion)
    split
    · have pump := commandPump_sameWork g .runFull s
      exact (pump.sound sound).enterDischarge (by rw [pump.stationState, changes.1]; rfl)
    · exact sound.trip counted .valveLost
  · exact sound

/-- The valves of a station's closing tanks are commanded SHUT. -/
theorem State.Sound.shutClosing (g : Nat) : ((s.station g).closing.foldl (fun s t => s.shutTank t) s).Sound := by
  by_cases nonempty : (s.station g).closing = []
  · rw [nonempty]; exact sound
  obtain ⟨k, rest, closing⟩ := List.exists_cons_of_ne_nil nonempty
  have counted := counted_of_holding sound.founded (g := g) (k := k) (mem_holdings.2 (.inr (by rw [closing]; exact .head _)))
  have loose := sound.loose counted
  have inside (k : Nat) (mem : k ∈ (s.station g).closing) : k ∈ s.holdings g := mem_holdings.2 (.inr mem)
  obtain ⟨commanded, others, -⟩ := shutTanks_of_unconfirmed fun k mem => (loose.unshut (inside k mem)).2
  have read := commanded.station g
  refine (loose.shutTanks inside).sound (by rw [read]) (by rw [read]; rfl) (by rw [read]; exact (sound.stands g).manned)
    (fun n active => ?_) fun halted => ?_
  · rw [others (.tank n) fun k mem same => ?_]
    · exact (sound.stands g).opened n active
    · have nodup := sound.owned.nodup g
      rw [State.holdings, active, List.nodup_append] at nodup
      exact nodup.2.2 n (by simp) k mem (ValveId.tank.inj same)
  · rw [shutTanks_state] at halted
    rw [read]
    exact (sound.stands g).rests halted

/-- A tank valve confirmed SHUT is owned no longer, and its tank leaves the closing tanks (spec 06 R97). -/
theorem State.Sound.released {k g : Nat} (owner : (s.valve (.tank k)).owner = some g)
    (shut : (s.valve (.tank k)).commanded = .shut) {f : Valve → Valve} :
    (((s.updValve (.tank k) f).updValve (.tank k) ({ · with owner := none })).updStation g fun st =>
      { st with closing := st.closing.erase k }).Sound := by
  have loose := sound.loose (sound.counted_of_owner owner)
  have mem : k ∈ s.holdings g := (sound.owned.owner g k).1 owner
  have inactive : (s.station g).active ≠ some k := fun active => by
    rw [(sound.stands g).opened k active] at shut; exact ValveCommand.noConfusion shut
  have valved := valved_of_owned owner
  have first := updValve_frame (.tank k) f s
  have second := updValve_frame (.tank k) ({ · with owner := none }) (s.updValve (.tank k) f)
  have freed : (((s.updValve (.tank k) f).updValve (.tank k) ({ · with owner := none })).valve (.tank k)).owner = none := by
    rw [valve_updValve_self (first.valved valved)]
  have others (j : Nat) (other : j ≠ k) :
      ((s.updValve (.tank k) f).updValve (.tank k) ({ · with owner := none })).valve (.tank j) = s.valve (.tank j) := by
    have ne : ValveId.tank j ≠ .tank k := fun same => other (ValveId.tank.inj same)
    rw [valve_updValve_ne ne, valve_updValve_ne ne]
  have owned := loose.owned.release (g := g) (by rw [Function.update_self]; exact mem) freed others
  rw [Function.update_idem, Function.update_self] at owned
  have open_ := (loose.next (first.trans second) rfl (fun _ _ => rfl)
    (loose.filed.congr (first.trans second).sameRoutes rfl rfl) owned fun j out was => by
      rw [others j fun same => out (same ▸ mem)]; exact was).updStation fun st => { st with closing := st.closing.erase k }
  have read := station_updStation_self ((first.trans second).grouped loose.grouped) fun st : Station =>
    { st with closing := st.closing.erase k }
  refine open_.sound (by rw [read]; rfl) ?_ (by rw [read]; exact (sound.stands g).manned) (fun n active => ?_) fun halted => ?_
  · rw [read, State.holdings, List.erase_append_right _ (by simpa [Option.mem_toList] using inactive)]
    rfl
  · rw [valve_updStation, others n fun same => inactive (same ▸ active)]
    exact (sound.stands g).opened n active
  · rw [read]; exact (sound.stands g).rests halted

end Sound

end Sys2Proof.Machine
end

