-- ==== Sys2Proof/Proofs/SoundReports.lean ====
section
/-! PROOFS. Reports of valves and pumps, deadlines, changes handed on and the sequencer's own commands keep orders, queues, stations
and tank valves in agreement (spec 06 R91 to R101, R104 to R115, spec 12 R173). -/

namespace Sys2Proof.Machine

section Sound

variable {s : State} (sound : s.Sound)
include sound

/-! ### Valve reports -/

/-- A line valve confirmed as commanded. -/
theorem State.Sound.lineConfirmed (g : Nat) : ((s.lineupTest g).closingTest g).Sound := (sound.lineupTest g).closingTest

theorem State.Sound.tankConfirmed (k : Nat) (p : ValveReported) :
    ((s.updValve (.tank k) ({ · with reported := p, confirmed := true, deadline := none })).valveConfirmed (.tank k)).Sound := by
  cases owner : (s.valve (.tank k)).owner with
  | none =>
    have same := updValve_sameWork (v := .tank k) (f := ({ · with reported := p, confirmed := true, deadline := none })) s
      (fun _ => ⟨rfl, rfl⟩) fun own => absurd owner own
    have free : State.stationOf _ (.tank k) = none := (same.owners k).trans owner
    unfold State.valveConfirmed
    rw [free]
    exact same.sound sound
  | some g =>
    have confirmed := valve_updValve_self (valved_of_owned owner) ({ · with reported := p, confirmed := true, deadline := none })
    generalize report : State.updValve (.tank k) _ s = u at confirmed
    have theirs : u.stationOf (.tank k) = some g := by
      show (u.valve (.tank k)).owner = some g
      rw [confirmed]; exact owner
    have command : (u.valve (.tank k)).commanded = (s.valve (.tank k)).commanded := by rw [confirmed]
    unfold State.valveConfirmed
    rw [theirs, command]
    dsimp only
    by_cases shut : (s.valve (.tank k)).commanded = .shut
    · rw [if_pos shut]
      have release : u.releaseIfShut k = (u.updValve (.tank k) ({ · with owner := none })).updStation g fun st =>
          { st with closing := st.closing.erase k } := by
        have at_ : u.confirmedAt (.tank k) .shut = true := by
          rw [State.confirmedAt, confirmed]; simp [shut]
        unfold State.releaseIfShut
        rw [show (u.valve (.tank k)).owner = some g from theirs]
        exact if_pos at_
      rw [release, ← report]
      exact ((sound.released owner shut).changeoverTest g).closingTest
    · rw [if_neg shut]
      have same : s.SameWork u := report ▸ updValve_sameWork (v := .tank k)
        (f := ({ · with reported := p, confirmed := true, deadline := none })) s (fun _ => ⟨rfl, rfl⟩)
        fun _ commanded => absurd commanded shut
      split
      · exact (same.sound sound).shutClosing g
      · exact (same.sound sound).lineupTest g

/-- What a valve's station does about a valve that fails it. -/
theorem State.Sound.stationTrips (v : ValveId) (c : TripCause) : State.Sound (match s.stationOf v with
    | some g => s.tripWorking g c
    | none => s) := by
  split
  · exact sound.tripWorking c
  · exact sound

theorem State.Sound.valveReport (v : ValveId) (p : ValveReported) : (s.valveReport v p).Sound := by
  unfold State.valveReport
  dsimp only
  split
  · cases v with
    | tank k => exact sound.tankConfirmed k p
    | suction g | overboard g => exact ((updValve_line_sameWork (by simp) _ s).sound sound).lineConfirmed g
  · split
    · have lost := updValve_sameWork (v := v) (f := ({ · with reported := p, confirmed := false })) s (fun _ => ⟨rfl, rfl⟩)
        fun _ _ _ => rfl
      exact (lost.sound sound).stationTrips v .valveLost
    · exact (updValve_sameWork (v := v) (f := ({ · with reported := p })) s (fun _ => ⟨rfl, rfl⟩) fun _ _ => id).sound sound

theorem State.Sound.travelTimeout (v : ValveId) : (s.travelTimeout v).Sound := by
  have late := updValve_sameWork (v := v) (f := ({ · with reported := .fault, deadline := none })) s (fun _ => ⟨rfl, rfl⟩)
    fun _ _ => id
  exact (late.sound sound).stationTrips v .valveTimeout

/-! ### Pump reports, deadlines and the dry-run watch -/

theorem State.Sound.pumpReport {g : Nat} (counted : s.counted g) (p : PumpReport) : (s.pumpReport g p).Sound := by
  have same := updStation_sameWork (g := g) (f := ({ · with pumpReported := PumpReport.reported p })) s
  have reported := same.sound sound
  have counted := (updStation_frame g ({ · with pumpReported := PumpReport.reported p }) s).counted counted
  unfold State.pumpReport
  dsimp only
  split
  · exact reported.trip counted .overload
  · exact reported.tripWorking .overload
  · exact reported.trip counted .pumpLost
  · exact reported.trip counted .pumpLost
  · exact reported.trip counted .pumpLost
  · exact reported.trip counted .stopFail
  · exact reported.trip counted .stopFail
  · exact reported.trip counted .stopFail
  · exact reported

theorem State.Sound.primingEnds {g : Nat} (primes : (s.station g).state = .priming) : (s.primingEnds g).Sound := by
  have same := updStation_sameWork (g := g) (f := ({ · with deadline := none })) s
  have state := (same.stationState g).trans primes
  unfold State.primingEnds
  dsimp only
  split
  · exact (same.sound sound).enterDischarge (by rw [state]; rfl)
  · exact (same.sound sound).trip (counted_of_state (same.founded sound.founded) (by rw [state]; exact StationState.noConfusion))
      .startFail

theorem State.Sound.rundownEnds {g : Nat} (runsDown : (s.station g).state = .stopping .rundown) : (s.rundownEnds g).Sound := by
  have same := updStation_sameWork (g := g) (f := ({ · with deadline := none })) s
  have state := (same.stationState g).trans runsDown
  have stopped := same.sound sound
  have counted := counted_of_state stopped.founded (by rw [state]; exact StationState.noConfusion)
  unfold State.rundownEnds
  dsimp only
  split
  · have idle := stopped.idle (g := g) (by rw [state]; rfl)
    have loose := stopped.loose counted
    rw [State.holdings, idle] at loose
    exact loose.enterClosing idle (.refl _) (stopped.awake (g := g) (by rw [state]; rfl))
  · exact stopped.trip counted .stopFail

theorem State.Sound.stateTimerEnds (g : Nat) : (s.stateTimerEnds g).Sound := by
  unfold State.stateTimerEnds
  split
  · exact sound.primingEnds ‹_›
  · exact sound.rundownEnds ‹_›
  · exact sound

theorem State.Sound.dryRunActs (g : Nat) : (s.dryRunActs g).Sound := by
  unfold State.dryRunActs
  split
  · split
    · rename_i discharges
      exact sound.trip (counted_of_state sound.founded (by rw [discharges]; exact StationState.noConfusion)) .dryRun
    · exact sound.completeOrder .residual
  · exact sound

omit sound in
theorem watchRate_sameWork (g : Nat) (s : State) : s.SameWork (s.watchRate g) :=
  updStation_sameWork s fun _ => by split <;> rfl

theorem State.Sound.feedStation (g mass : Nat) : (s.feedStation g mass).Sound := by
  have fed := (updStation_sameWork (g := g) (f := fun st =>
    { st with estimator := st.estimator.arrive true s.settings.rateWindow s.clock mass }) s).sound sound
  unfold State.feedStation
  dsimp only
  split
  · split
    · exact (watchRate_sameWork g _).sound fed
    · exact fed
  · exact sound

theorem State.Sound.applyDryRun (g : Nat) : (s.applyDryRun g).Sound :=
  guarded_keeps ((((watchRate_sameWork g s).sound sound).dryRunActs g).settle false s) sound

/-! ### Changes handed on (spec 01 R17, spec 02 R26, spec 06 R106, R113, R115) -/

theorem State.Sound.completionCheck (g k : Nat) : (s.completionCheck g k).Sound := guarded_keeps (sound.completeOrder .met) sound

theorem State.Sound.ballastSounding (k : Nat) : (s.ballastSounding k).Sound :=
  foldl_keeps (fun g _ _ h => (h.feedStation g _).completionCheck g k) sound

theorem State.Sound.ballastPutMass (k : Nat) : (s.ballastPutMass k).Sound :=
  foldl_keeps (fun g _ _ h => h.completionCheck g k) sound

theorem State.Sound.ballastStale (k : Nat) : (s.ballastStale k).Sound :=
  foldl_keeps (fun _ _ _ h => guarded_keeps (h.interrupt .stale) h) sound

theorem State.Sound.ballastBelow (k : Nat) : (s.ballastBelow k).Sound := by
  refine foldl_keeps (fun g _ s h => ?_) sound
  split
  · rename_i discharges
    exact h.enterStrip (by rw [discharges]; rfl)
  · exact h

theorem State.Sound.ballastPublication (r : ResultSet) : (s.ballastPublication r).Sound :=
  unordered_keeps State.Sound (fun _ h => h.draw _) (fun _ _ _ h => guarded_keeps (h.interrupt .stress) h) sound

omit sound in
theorem kept_sameWork (s : State) (kept : List (Second × KeptChange)) : s.SameWork { s with ballast := { s.ballast with kept := kept } } :=
  ⟨rfl, rfl, rfl, rfl, rfl, rfl, fun _ => rfl, fun _ => rfl, fun _ => rfl, fun _ _ => id, rfl⟩

/-- A change handed on keeps the agreement where its act does. -/
theorem State.Sound.handBallast (c : KeptChange) {act : State → State} (acts : (act s).Sound) : (s.handBallast c act).Sound := by
  unfold State.handBallast
  split
  · exact (kept_sameWork s _).sound sound
  · exact acts.settle true s

theorem State.Sound.keptChange (c : KeptChange) : (c.act s).Sound := by
  cases c with
  | publication r => exact sound.ballastPublication r
  | stale k => exact sound.ballastStale k
  | belowStrip k => exact sound.ballastBelow k

theorem State.Sound.deferredEvent (e : DeferredEvent) : (e.act s).Sound := by
  cases e with
  | valve v => exact guarded_keeps ((sound.travelTimeout v).settle false s) sound
  | station g => exact guarded_keeps ((sound.stateTimerEnds g).settle false s) sound
  | change c => exact (sound.keptChange c).settle true s

theorem State.Sound.takeDeferred : s.takeDeferred.Sound :=
  foldl_keeps (fun e _ _ h => h.deferredEvent e) (((kept_sameWork s []).sound sound).draw _)

theorem State.Sound.linkLost : s.linkLost.Sound :=
  (unordered_keeps State.Sound (fun _ h => h.draw _) (fun _ _ _ h => h.tripWorking .linkLost) sound).settle false s

theorem State.Sound.silenceExpires : s.silenceExpires.Sound := by
  have silent : State.Sound { s with field.live := false } := sound.of_eq rfl rfl rfl rfl
  exact guarded_keeps silent.linkLost sound

theorem State.Sound.staleExpires (k : Nat) : (s.staleExpires k).Sound := by
  have staled := ((updTank_sameWork (k := k) (f := Tank.staled) s fun _ _ => rfl).trans
    (oweComputation_onlyPours _).sameWork).sound sound
  exact guarded_keeps (staled.handBallast _ (staled.ballastStale k)) sound

theorem State.Sound.settleExpires (k : Nat) : (s.settleExpires k).Sound := by
  have settled := (updTank_sameWork (k := k) (f := ({ · with strip := .below })) s fun _ _ => rfl).sound sound
  exact guarded_keeps (settled.handBallast _ (settled.ballastBelow k)) sound

theorem State.Sound.intervalEffect (e : IntervalEffect) : (e.act s).Sound := by
  cases e with
  | stale k => exact sound.staleExpires k
  | settle k => exact sound.settleExpires k
  | silence => exact sound.silenceExpires

/-! ### The sequencer's own commands (spec 06 R91, R92, R111, R112) -/

theorem State.Sound.runSequencer : s.runSequencer.Sound := by
  unfold State.runSequencer
  split
  · exact sound
  · exact (sound.awaken (x := .running) (by simp)).settle true _

theorem State.Sound.haltSequencer : s.haltSequencer.Sound :=
  (unordered_keeps State.Sound (fun _ h => h.draw _) (fun _ _ _ h => h.haltStation)
    (sound.awaken (x := .halting) (by simp))).settle false _

/-- A TRIPPED station goes to OFF. -/
theorem State.Sound.rearmed {g : Nat} (tripped : (s.station g).state = .tripped) :
    (s.updStation g ({ · with state := .off })).Sound :=
  sound.updStation (counted_of_state sound.founded (by rw [tripped]; exact StationState.noConfusion)) _ rfl rfl
    (by rw [tripped]; rfl) fun _ => rfl

theorem State.Sound.switchReport {g : Nat} (counted : s.counted g) (p : SwitchPosition) : (s.switchReport g p).Sound := by
  have same := updStation_sameWork (g := g) (f := ({ · with switch := p })) s
  unfold State.switchReport
  dsimp only
  split
  · exact (same.sound sound).enterLocal ((updStation_frame _ _ s).counted counted)
  · split
    · rename_i rests
      exact (same.sound sound).leaveLocal rests.2
    · exact same.sound sound

end Sound

end Sys2Proof.Machine
end

