-- ==== Sys2Proof/Proofs/SoundOrders.lean ====
section
/-! PROOFS. Soundings, publications, Puts and the removal of orders keep orders, queues, stations and tank valves in agreement
(spec 01 R9, R12, R17, spec 02 R26, spec 05 R77 to R80, R87, R88). -/

namespace Sys2Proof.Machine

/-! ### The groups that a tank's route permits (spec 05 Table 5.3) -/

theorem mem_permittedGroups {s : State} {k g : Nat} :
    g ∈ s.permittedGroups k ↔ (s.tank k).permits (s.tankData k).primary g := by
  unfold State.permittedGroups Tank.permits
  cases (s.tank k).route <;> simp [Option.mem_toList]

/-- A group that a tank's route permits is one of the profile. -/
theorem State.Founded.permitted {s : State} (founded : s.Founded) {k g : Nat} (range : 1 ≤ k ∧ k ≤ s.counts.tanks)
    (permits : (s.tank k).permits (s.tankData k).primary g) : s.counted g := by
  obtain ⟨alternates, -⟩ := founded.route range
  have primary := founded.primary range
  unfold Tank.permits at permits
  split at permits
  · rw [permits]; exact primary
  · exact alternates g permits
  all_goals
    obtain rfl | alternate := permits
    · exact primary
    · exact alternates g alternate

/-- The group that the Ballast Sequencer chooses is one that the tank's route permits. -/
theorem permits_chosenGroup {s : State} {k : Nat} (routed : (s.tank k).route = .alternate → (s.tank k).alternate ≠ none) :
    (s.tank k).permits (s.tankData k).primary (s.chosenGroup k) := by
  unfold State.chosenGroup
  dsimp only
  split
  · rename_i route
    unfold Tank.permits; rw [route]
  · rename_i alternate route
    obtain ⟨a, here⟩ := Option.ne_none_iff_exists'.1 (routed route)
    unfold Tank.permits; rw [route, here]; rfl
  · rename_i a route alternate
    unfold Tank.permits; rw [route]
    show _ ∨ _
    split
    · exact .inr alternate
    · exact .inl rfl
  · rename_i route _
    unfold Tank.permits; rw [route]; exact .inl rfl
  · rename_i route
    refine mem_permittedGroups.1 ?_
    have primary : (s.tankData k).primary ∈ s.permittedGroups k := by
      unfold State.permittedGroups; rw [route]; exact .head _
    cases found : s.lowestOff (s.permittedGroups k) with
    | none => exact primary
    | some g =>
      unfold State.lowestOff at found
      have named := List.find?_some found
      exact (of_decide_eq_true named).1

/-! ### What changes beside stations and valves -/

section Orders

variable {s t : State}

theorem filter_ne_of_not_mem {l : List Nat} {k : Nat} (absent : k ∉ l) : l.filter (· ≠ k) = l :=
  List.filter_eq_self.2 fun j mem => decide_eq_true fun same : j = k => absent (same ▸ mem)

theorem State.Filed.retarget {act : Nat → Option Nat} (filed : s.Filed act) (k target : Nat) :
    (s.updOrder k ({ · with target := target })).Filed act := by
  obtain ⟨nodup, queued, waits, runs, runner, routes⟩ := filed
  have before {j : Nat} {x : Order} (here : (s.updOrder k ({ · with target := target })).order j = some x) :
      ∃ y, s.order j = some y ∧ y.state = x.state ∧ y.group = x.group := by
    rw [order_updOrder] at here
    split at here
    · obtain ⟨y, was, rfl⟩ := Option.map_eq_some_iff.1 here
      exact ⟨y, was, rfl, rfl⟩
    · exact ⟨x, here, rfl, rfl⟩
  have after {j : Nat} {y : Order} (was : s.order j = some y) :
      ∃ x, (s.updOrder k ({ · with target := target })).order j = some x ∧ x.state = y.state ∧ x.group = y.group := by
    rw [order_updOrder, was]
    split
    · exact ⟨_, rfl, rfl, rfl⟩
    · exact ⟨y, rfl, rfl, rfl⟩
  refine ⟨nodup, fun g j mem => ?_, fun j x here state => ?_, fun g j acts => ?_, fun j x here state => ?_, fun j x here lives => ?_⟩
  · obtain ⟨y, was, state, group⟩ := queued g j mem
    obtain ⟨x, here, state', group'⟩ := after was
    exact ⟨x, here, state'.trans state, group'.trans group⟩
  · obtain ⟨y, was, state', group⟩ := before here
    rw [← group]; exact waits j y was (state'.trans state)
  · obtain ⟨y, was, state, group⟩ := runs g j acts
    obtain ⟨x, here, state', group'⟩ := after was
    exact ⟨x, here, state'.trans state, group'.trans group⟩
  · obtain ⟨y, was, state', group⟩ := before here
    rw [← group]; exact runner j y was (state'.trans state)
  · obtain ⟨y, was, state', group⟩ := before here
    rw [← group]; exact routes j y was (state' ▸ lives)

/-- An order that no station runs goes, or is DONE. -/
theorem State.Filed.shed {act : Nat → Option Nat} {k : Nat} (filed : s.Filed act) (alike : s.sameRoutes t)
    (unrun : ∀ o, s.order k = some o → o.state ≠ .active) (gone : ∀ o, t.order k = some o → o.state = .done)
    (others : ∀ j, j ≠ k → t.order j = s.order j) (queues : ∀ g, t.queue g = (s.queue g).filter (· ≠ k)) : t.Filed act :=
  filed.drop alike gone others queues fun g j => ⟨fun acts => ⟨acts, fun same => by
    subst same
    obtain ⟨o, here, active, -⟩ := filed.runs g j acts
    exact unrun o here active⟩, And.left⟩

/-- Orders and queues that agree anew, with the stations and valves as they stand. -/
theorem State.Sound.refiled (sound : s.Sound) (frame : BallastFrame s t) (state : t.ballast.state = s.ballast.state)
    (stations : t.ballast.stations = s.ballast.stations) (valves : ∀ v, t.valve v = s.valve v) (filed : t.Filed s.actives) :
    t.Sound := by
  have station (g : Nat) : t.station g = s.station g := by rw [State.station, stations]; rfl
  refine ⟨frame.founded sound.founded, ?_, ?_, fun g => ?_⟩
  · rw [show t.actives = s.actives from funext fun g => congrArg Station.active (station g)]; exact filed
  · rw [show t.holdings = s.holdings from funext fun g => by rw [State.holdings, station]; rfl]
    exact sound.owned.congr (fun k => by rw [valves]) fun k _ => by rw [State.confirmedAt, State.confirmedAt, valves]; exact id
  · obtain ⟨manned, opened, rests⟩ := sound.stands g
    exact ⟨by rw [station]; exact manned, fun k active => by rw [valves]; exact opened k (station g ▸ active),
      fun halted => by rw [station]; exact rests (state ▸ halted)⟩

end Orders

/-! ### Soundings and publications -/

section Sound

variable {s : State} (sound : s.Sound)
include sound

theorem State.Sound.oweComputation : s.oweComputation.Sound := (oweComputation_onlyPours s).sameWork.sound sound

theorem State.Sound.markDirty : s.markDirty.Sound := (markDirty_onlyPours s).sameWork.sound sound

theorem State.Sound.oweDerivations : s.oweDerivations.Sound :=
  sound.of_eq rfl rfl rfl rfl

/-- The marks that a changed mass leaves. -/
theorem State.Sound.massMarks (p q : Bool) :
    State.Sound (if q then (if p then s.markDirty else s).oweComputation else if p then s.markDirty else s) := by
  have marked : State.Sound (if p then s.markDirty else s) := guarded_keeps sound.markDirty sound
  exact guarded_keeps marked.oweComputation marked

theorem State.Sound.handSounding (k : Nat) (before : Tank) : (s.handSounding k before).Sound :=
  ((sound.massMarks _ _).ballastSounding k).settle true s

theorem State.Sound.goodSounding (k reading : Nat) : (s.goodSounding k reading).Sound := by
  have sounded := (updTank_sameWork (k := k) (f := (·.sounded (s.tankData k) s.clock reading)) s fun _ _ => rfl).sound sound
  exact sounded.handSounding k _

omit sound in
theorem draftStepTest_sameWork (r : ResultSet) (s : State) : s.SameWork (s.draftStepTest r) := by
  have same := draftStepTest_frame r s
  exact sameWork_of_eq (by rw [same]) (by rw [same]) (by rw [same]) (by rw [same])

theorem State.Sound.publish (r : ResultSet) : (s.publish r).Sound := by
  have published : State.Sound { s with
    engine.state := .idle, engine.live := some r
    engine.strengthFlag := s.engine.strengthFlag || statusChanged s.engine.live r } := sound.of_eq rfl rfl rfl rfl
  have tested := (draftStepTest_sameWork r _).sound published.oweComputation.oweDerivations
  exact tested.handBallast _ (tested.ballastPublication r)

/-! ### A PUT on TANK (spec 01 R9) -/

/-- A tank without a living order is routed anew. -/
theorem State.Sound.rerouteTank {k : Nat} {f : Tank → Tank}
    (alternates : ∀ x, nth1 s.tanks k = some x → (∀ a, (f x).alternate = some a → 1 ≤ a ∧ a ≤ s.counts.groups) ∧
      ((f x).route = .alternate → (f x).alternate ≠ none))
    (idle : ∀ o, s.order k = some o → o.state = .done) : (s.updTank k f).Sound := by
  obtain ⟨⟨phase, tanks, shape, legal, routed⟩, ⟨nodup, queued, waits, runs, runner, routes⟩, owned, stands⟩ := sound
  have other {j : Nat} (ne : j ≠ k) : (s.updTank k f).tank j = s.tank j := getD_nth1_modify1_ne ne f _
  refine ⟨⟨phase, ?_, shape, legal, fun y mem => ?_⟩, ⟨nodup, queued, waits, runs, runner, fun j o here lives => ?_⟩,
    owned.congr (fun _ => rfl) fun _ _ => id, fun g => ?_⟩
  · exact (modify1_length s.tanks k f).trans tanks
  · obtain ⟨i, at_⟩ := List.mem_iff_getElem?.1 mem
    have here : nth1 (modify1 s.tanks k f) (i + 1) = some y := at_
    rw [nth1_modify1] at here
    split at here
    · rename_i same
      subst same
      obtain ⟨x, was, rfl⟩ := Option.map_eq_some_iff.1 here
      exact alternates x was
    · exact routed y (List.mem_of_getElem? (show s.tanks[i]? = some y from here))
  · have ne : j ≠ k := fun same => lives (idle o (same ▸ here))
    rw [other ne]
    exact routes j o here lives
  · obtain ⟨manned, opened, rests⟩ := stands g
    exact ⟨manned, opened, rests⟩

omit sound in
theorem routing_afterPut (x : Tank) (d : TankData) (ps : List Pair) :
    (x.afterPut d ps).routing = ((routeAfter ps x).getD x.route, alternateAfter ps x) := by
  have density (v : Nat) (y : Tank) : (y.withDensity d v).routing = y.routing := by
    unfold Tank.withDensity; dsimp only; split <;> rfl
  simp only [Tank.afterPut, routeAfter_eq_elim, alternateAfter_eq_elim]
  cases intAt ps 0 0 <;> cases intAt ps 3 0 <;> cases intAt ps 10 0 <;>
    simp_all [Tank.routing, Tank.withManualLevel]

omit sound in
/-- A PUT on TANK is refused, or what it names is free and legal, and it is stored. -/
theorem putTank_cases (s : State) (k : Nat) (ps : List Pair) : (s.putTank k ps).state = s ∨
    ¬s.putBarred k ps ∧ s.putLegal k ps ∧ (s.putTank k ps).state = s.tankPutStored k ps := by
  by_cases known : ∀ p ∈ ps, p.ident ∈ [manualLevelId, fieldId 3 0, fieldId 5 0, fieldId 6 0, fieldId 10 0]
  · by_cases barred : s.putBarred k ps
    · obtain ⟨p, -, answer⟩ := putTank_barred known barred
      exact .inl (by rw [answer])
    · by_cases legal : s.putLegal k ps
      · obtain ⟨payload, answer⟩ := putTank_taken known barred legal
        exact .inr ⟨barred, legal, by rw [answer]⟩
      · obtain ⟨p, -, answer⟩ := putTank_illegal known barred legal
        exact .inl (by rw [answer])
  · push Not at known
    obtain ⟨p, -, answer, -⟩ := putTank_unknown known
    exact .inl (by rw [answer])

theorem State.Sound.storeTank {k : Nat} {ps : List Pair} (free : ¬s.putBarred k ps) (legal : s.putLegal k ps) :
    (s.updTank k (·.afterPut (s.tankData k) ps)).Sound := by
  by_cases routed : putRouted ps
  · obtain ⟨-, -, groups, mode, stands, named⟩ := legal
    refine sound.rerouteTank (fun x there => ?_) fun o here => ?_
    · have tank : s.tank k = x := by rw [State.tank, there]; rfl
      rw [tank] at stands named
      have alternate := alternateAfter_eq (x := x) fun a h => (groups a h).imp_right And.left
      have routing := routing_afterPut x (s.tankData k) ps
      simp only [Tank.routing, Prod.mk.injEq, routeAfter_eq_some.2 stands, Option.getD_some, alternate] at routing
      obtain ⟨route, named'⟩ := routing
      rw [route, named']
      refine ⟨fun a here => ?_, named routed⟩
      unfold alternateNamed at here
      cases put : intAt ps 5 0 with
      | none =>
        rw [put] at here
        obtain ⟨n, there'⟩ : ∃ n, s.tanks[n]? = some x := by
          cases k with
          | zero => exact absurd there (by simp [nth1])
          | succ n => exact ⟨n, there⟩
        exact (sound.founded.alternates x (List.mem_of_getElem? there')).1 a here
      | some v =>
        rw [put] at here
        obtain rfl | ⟨least, most, -⟩ := groups v put
        · exact absurd here (by simp)
        · simp only [Option.elim_some, show v ≠ -1 by omega, if_false, Option.some.injEq] at here
          omega
    · by_contra lives
      exact free (.inr ⟨routed, o, here, lives⟩)
  · refine (updTank_sameWork s fun x _ => ?_).sound sound
    simp only [putRouted, not_or, Bool.not_eq_true, Option.isSome_eq_false_iff, Option.isNone_iff_eq_none] at routed
    rw [routing_afterPut, routeAfter_eq_elim, alternateAfter_eq_elim, routed.1, routed.2]
    rfl

theorem State.Sound.handTankPut (k : Nat) (before : Tank) : (s.handTankPut k before).Sound := by
  have marked := sound.massMarks (decide ((s.tank k).current ≠ before.current))
    (decide ((s.tank k).current ≠ before.current) || decide (before.status = .stale ∧ (s.tank k).status ≠ .stale))
  have told := guarded_keeps (P := State.Sound) (p := decide ((s.tank k).current ≠ before.current) = true)
    (marked.ballastPutMass k) marked
  exact guarded_keeps (told.settle true s) told

theorem State.Sound.putTank (k : Nat) (ps : List Pair) : (s.putTank k ps).state.Sound := by
  obtain same | ⟨free, legal, stored⟩ := putTank_cases s k ps
  · rw [same]; exact sound
  · rw [stored]; exact (sound.storeTank free legal).handTankPut k _

/-! ### A PUT on ORDER (spec 05 R77 to R80) -/

omit sound in
theorem order_setOrder {k : Nat} (there : 1 ≤ k ∧ k ≤ s.ballast.orders.length) (o : Option Order) :
    (s.setOrder k o).order k = o := by
  rw [State.order, State.setOrder, nth1_modify1_self (nth1_eq_some_getD none there)]; rfl

omit sound in
theorem order_setOrder_ne {k j : Nat} (other : j ≠ k) (o : Option Order) : (s.setOrder k o).order j = s.order j := by
  rw [State.order, State.setOrder, nth1_modify1, if_neg other]; rfl

/-- A tank without a living order is given one that is DONE, or that joins its group's queue. -/
theorem State.Sound.enterOrder {k : Nat} {ps : List Pair} (range : 1 ≤ k ∧ k ≤ s.counts.tanks)
    (idle : ∀ o, s.order k = some o → o.state = .done)
    (permits : (s.tank k).permits (s.tankData k).primary (s.enteredOrder k ps).group) : (s.enterOrder k ps).Sound := by
  obtain ⟨orders, -⟩ := sound.founded.lengths
  have there : 1 ≤ k ∧ k ≤ s.ballast.orders.length := ⟨range.1, by omega⟩
  have frame := setOrder_frame k (some (s.enteredOrder k ps)) s
  have states : (s.enteredOrder k ps).state = .queued ∨ (s.enteredOrder k ps).state = .done := by
    unfold State.enteredOrder
    dsimp only
    split
    · exact .inr rfl
    · exact .inl rfl
  unfold State.enterOrder
  dsimp only
  generalize s.enteredOrder k ps = o at permits frame states
  split
  · rename_i waiting
    refine State.Sound.settle (sound.refiled (frame.trans (setQueue_frame _ _ _)) rfl rfl (fun v => by cases v <;> rfl)
      (sound.filed.file (k := k) (o := o) (fun _ => ⟨rfl, rfl⟩) idle (order_setOrder there _) waiting permits
        (fun j other => order_setOrder_ne other _) ?_ fun g other => queue_setQueue_ne other _)) false s
    rw [queue_setQueue_self (frame.grouped (sound.founded.grouped (sound.founded.permitted range permits)))]
    split
    · exact .refl _
    · exact List.perm_append_comm
  · rename_i unqueued
    have absent (g : Nat) : k ∉ s.queue g := sound.filed.unqueued (fun o here => by simp [idle o here]) g
    refine sound.refiled frame rfl rfl (fun v => by cases v <;> rfl) (sound.filed.shed (k := k) (fun _ => ⟨rfl, rfl⟩)
      (fun o here => by simp [idle o here]) (fun o' here => ?_) (fun j other => order_setOrder_ne other _) fun g => ?_)
    · rw [order_setOrder there] at here
      rw [← Option.some.inj here]
      exact states.resolve_left unqueued
    · exact (filter_ne_of_not_mem (absent g)).symm

theorem State.Sound.amendOrder {k : Nat} {o : Order} {ps : List Pair} (here : s.order k = some o) :
    (s.amendOrder k o ps).Sound := by
  unfold State.amendOrder
  split
  · exact sound
  · rename_i v _
    have frame := updOrder_frame k ({ · with target := s.targetOf k v }) s
    have stored := sound.refiled frame rfl rfl (fun v => by cases v <;> rfl) (sound.filed.retarget k (s.targetOf k v))
    dsimp only
    split
    · rename_i waiting
      have counted := queued_counted sound.founded (sound.filed.waits k o here waiting)
      exact (stored.look (frame.counted counted)).settle false _
    · exact stored

/-- The checks that an entering Put passes name a group that the tank's route permits, or leave the choice. -/
theorem State.Sound.permits_entered {k : Nat} {ps : List Pair} (range : 1 ≤ k ∧ k ≤ s.counts.tanks)
    (named : ∀ v, intAt ps 3 0 = some v → v.toNat ∈ s.permittedGroups k) :
    (s.tank k).permits (s.tankData k).primary (s.enteredOrder k ps).group := by
  show (s.tank k).permits _ (((intAt ps 3 0).map Int.toNat).getD (s.chosenGroup k))
  cases put : intAt ps 3 0 with
  | none => exact permits_chosenGroup (sound.founded.route range).2
  | some v => exact mem_permittedGroups.1 (named v put)

omit sound in
/-- A check that is passed fails no pair. -/
theorem passes_of_firstFailure {ps : List Pair} {c : PutCheck} {cs : List PutCheck} (none : firstFailure ps (c :: cs) = none) :
    (∀ p ∈ ps, c.fails p = false) ∧ firstFailure ps cs = Option.none := by
  unfold firstFailure at none
  split at none
  · exact absurd none (by simp)
  · rename_i passes
    split at none
    · exact absurd none (by simp)
    · exact ⟨fun p mem => by simpa using List.find?_eq_none.1 passes p mem, none⟩

theorem State.Sound.putNewOrder {k : Nat} {ps : List Pair} (range : 1 ≤ k ∧ k ≤ s.counts.tanks)
    (idle : ∀ o, s.order k = some o → o.state = .done) : (s.putNewOrder k ps).state.Sound := by
  unfold State.putNewOrder
  obtain ⟨_, _, -, refused⟩ | ⟨passed, taken⟩ := takePut_cases
  · rw [refused]; exact sound
  · rw [taken]
    refine sound.enterOrder range idle (sound.permits_entered range fun v named => ?_)
    obtain ⟨values, -⟩ := passes_of_firstFailure (passes_of_firstFailure passed).2
    simp only [Bool.or_eq_false_iff, imp_and, forall_and, valueFails_eq_false] at values
    simpa using values.1.2 v named

theorem State.Sound.putOrder {k : Nat} {ps : List Pair} (range : 1 ≤ k ∧ k ≤ s.counts.tanks) :
    (s.putOrder k ps).state.Sound := by
  unfold State.putOrder
  split
  · rename_i absent
    exact sound.putNewOrder range fun o here => by rw [absent] at here; exact absurd here (by simp)
  · rename_i o here
    split
    · rename_i done
      refine sound.putNewOrder range fun o' here' => ?_
      rw [← Option.some.inj (here.symm.trans here')]; exact done
    · exact takePut_keeps (sound.amendOrder here) sound

/-! ### RETIRE of an order (spec 05 R87, R88) -/

theorem State.Sound.removeOrder {k : Nat} {o : Order} (here : s.order k = some o) (rests : o.state ≠ .active) :
    (s.removeOrder k o).Sound := by
  have others (g : Nat) (other : g ≠ o.group) : k ∉ s.queue g := fun mem => by
    obtain ⟨o', here', -, group⟩ := sound.filed.queued g k mem
    exact other (group.symm.trans (congrArg Order.group (Option.some.inj (here'.symm.trans here))))
  refine sound.refiled (removeOrder_frame k o s) rfl rfl (fun v => by cases v <;> rfl) (sound.filed.shed (k := k)
    (fun _ => ⟨rfl, rfl⟩) (fun o' here' => ?_) (fun o' gone => ?_) (fun j other => ?_) fun g => ?_)
  · rw [← Option.some.inj (here.symm.trans here')]; exact rests
  · rw [State.removeOrder, order_setOrder_none, if_pos rfl] at gone; exact absurd gone (by simp)
  · rw [State.removeOrder, order_setOrder_none, if_neg other]; rfl
  · show (s.setQueue _ _).queue g = _
    by_cases same : g = o.group
    · rw [State.queue, State.setQueue, nth1_modify1, if_pos same, ← same]
      unfold State.queue
      cases nth1 s.ballast.queues g <;> rfl
    · rw [queue_setQueue_ne same]
      exact (filter_ne_of_not_mem (others g same)).symm

/-- The one station that runs an order is that of its group. -/
theorem State.Sound.runnersOf {k : Nat} {o : Order} (here : s.order k = some o) (active : o.state = .active) :
    s.runnersOf k = [o.group] := by
  have running := sound.filed.runner k o here active
  have only (g : Nat) : decide ((s.station g).active = some k) = decide (g = o.group) := by
    refine decide_eq_decide.2 ⟨fun active => ?_, fun same => same ▸ running⟩
    obtain ⟨o', here', -, group⟩ := sound.filed.runs g k active
    rw [← group, Option.some.inj (here.symm.trans here')]
  have distinct : s.groupNumbers.Nodup := List.nodup_range'
  rw [State.runnersOf, List.filter_congr fun g _ => only g, List.filter_eq,
    List.count_eq_one_of_mem distinct (mem_groupNumbers.2 (counted_of_active sound.founded running))]
  rfl

theorem State.Sound.retireActive {k : Nat} {o : Order} (here : s.order k = some o) (active : o.state = .active) :
    (s.retireActive k).Sound := by
  unfold State.retireActive
  rw [sound.runnersOf here active]
  exact (sound.orderGone (sound.filed.runner k o here active)).settle false s

theorem State.Sound.retireOrder (k : Nat) : (s.retireOrder k).state.Sound := by
  unfold State.retireOrder
  split
  · exact sound
  · rename_i o here
    split
    · exact sound.retireActive here ‹_›
    · exact sound.removeOrder here ‹_›

end Sound

end Sys2Proof.Machine
end

