-- ==== Sys2Proof/Proofs/SoundStarts.lean ====
section
/-! PROOFS. Starts, RESTART and PURGE leave orders, queues, stations and tank valves in agreement (spec 01 R18, R19, spec 05 R90,
spec 06 R117, spec 11 R163 to R170). -/

namespace Sys2Proof.Machine

/-! ### A part at rest -/

theorem getD_nth1_of_forall {α : Type} {P : α → Prop} {l : List α} {d : α} (default : P d) (all : ∀ x ∈ l, P x) (n : Nat) :
    P ((nth1 l n).getD d) := by
  cases n with
  | zero => exact default
  | succ n =>
    cases at_ : l[n]? with
    | none => rw [show nth1 l (n + 1) = none from at_]; exact default
    | some x => rw [show nth1 l (n + 1) = some x from at_]; exact all x (List.mem_of_getElem? at_)

/-- A station that rests without order and without closing tanks. -/
def Station.Idle (st : Station) : Prop := st.active = none ∧ st.closing = [] ∧ st.state.working = false

theorem StationState.not_runs_of_rests {x : StationState} (rests : x.working = false) : x.runs = false := by
  cases h : x.runs with
  | false => rfl
  | true => rw [StationState.working_of_runs h] at rests; exact rests

/-- Orders and queues that agree without a running order, idle stations and tank valves that no station owns. -/
theorem sound_of_idle {s : State} (founded : s.Founded) (filed : s.Filed fun _ => none)
    (idle : ∀ st ∈ s.ballast.stations, st.Idle) (free : ∀ x ∈ s.ballast.tankValves, x.owner = none) : s.Sound := by
  have stations := (forall_stations (P := Station.Idle) ⟨rfl, rfl, rfl⟩).1 idle
  have owner (k : Nat) : (s.valve (.tank k)).owner = none :=
    getD_nth1_of_forall (P := fun x : Valve => x.owner = none) rfl free k
  have actives : s.actives = fun _ => none := funext fun g => (stations g).1
  have holdings (g : Nat) : s.holdings g = [] := by
    obtain ⟨active, closing, -⟩ := stations g
    rw [State.holdings, active, closing]; rfl
  refine ⟨founded, actives ▸ filed, ⟨fun g => by rw [holdings]; exact .nil, fun g k => by rw [owner, holdings]; simp,
    fun g k own => by rw [owner] at own; exact absurd own (by simp)⟩, fun g => ?_⟩
  obtain ⟨active, -, rests⟩ := stations g
  exact ⟨by rw [active, StationState.not_runs_of_rests rests]; rfl, fun k run => by rw [active] at run; exact absurd run (by simp),
    fun _ => rests⟩

/-- Nothing runs while the sequencer is HALTED. -/
theorem State.Sound.actives_halted {s : State} (sound : s.Sound) (halted : s.ballast.state = .halted) :
    s.actives = fun _ => none :=
  funext fun g => sound.idle (StationState.not_runs_of_rests ((sound.stands g).rests halted))

/-! ### RESTART and PURGE -/

theorem State.Sound.restart {s : State} (sound : s.Sound) (halted : s.ballast.state = .halted) : s.restart.Sound := by
  have line (vs : List Valve) : (s.restartLine vs).length = vs.length := by simp [State.restartLine]
  refine (deriveBoth_frame _ _).sameWork.sound (sound_of_idle ?_ ?_ (fun st mem => ?_) fun x mem => ?_)
  · obtain ⟨phase, tanks, shape, legal, alternates⟩ := sound.founded
    refine ⟨phase, tanks, ?_, legal, alternates⟩
    refine Eq.trans ?_ shape
    simp only [Sequencer.shape, State.restartBallast, List.length_map, line]
  · exact (sound.actives_halted halted ▸ sound.filed).congr (fun _ => ⟨rfl, rfl⟩) rfl rfl
  · obtain ⟨old, -, rfl⟩ := List.mem_map.1 mem
    unfold Station.restarted
    dsimp only
    split
    · exact ⟨rfl, rfl, rfl⟩
    · exact ⟨rfl, rfl, rfl⟩
  · obtain ⟨old, -, rfl⟩ := List.mem_map.1 mem
    rfl

theorem State.Sound.purge {s : State} (sound : s.Sound) (halted : s.ballast.state = .halted) : s.purge.Sound := by
  have filed := sound.filed
  have idle := sound.actives_halted halted
  obtain ⟨⟨phase, tanks, shape, legal, alternates⟩, -, owned, stands⟩ := sound
  have orders (k : Nat) : s.purge.order k = none := by
    show (nth1 (s.ballast.orders.map fun _ => none) k).join = none
    cases k with
    | zero => rfl
    | succ k => simp only [nth1, List.getElem?_map]; cases s.ballast.orders[k]? <;> rfl
  have queues (g : Nat) : s.purge.queue g = [] :=
    getD_nth1_of_forall (P := fun q : List Nat => q = []) rfl (fun q mem => by
      obtain ⟨_, -, rfl⟩ := List.mem_map.1 mem; rfl) g
  have gone {k : Nat} {o : Order} (here : s.purge.order k = some o) {P : Prop} : P := by
    rw [orders] at here; exact absurd here (by simp)
  refine ⟨⟨phase, tanks, ?_, legal, alternates⟩, ⟨fun g => by rw [queues]; exact .nil, fun g k mem => ?_, fun _ _ here _ => gone here,
    fun g k run => ?_, fun _ _ here _ => gone here, fun _ _ here _ => gone here⟩, owned.congr (fun _ => rfl) fun _ _ => id,
    fun g => ?_⟩
  · refine Eq.trans ?_ shape
    simp only [Sequencer.shape, State.purge, List.length_map]
  · rw [queues] at mem; exact absurd mem List.not_mem_nil
  · have none : s.actives g = Option.none := congrFun idle g
    rw [show s.purge.actives g = s.actives g from rfl, none] at run
    exact absurd run (by simp)
  · obtain ⟨manned, opened, rests⟩ := stands g
    exact ⟨manned, opened, rests⟩

/-! ### A clean image (spec 01 R6, spec 11 R166) -/

/-- The data loaded are as legal as those of the image. -/
theorem legal_loadedHull {h : Hull} {c : Counts} (legal : Hull.legal h c = true) : Hull.legal (loadedHull h) c = true := by
  have tank (d : TankData) : TankData.legal c.groups { d with density := clamp 9500 10600 d.density } = TankData.legal c.groups d := by
    simp only [TankData.legal]
  have tanks : (loadedHull h).tanks.all (TankData.legal c.groups) = h.tanks.all (TankData.legal c.groups) := by
    simp only [loadedHull, List.all_map, Function.comp_def, tank]
  have fits : Hull.fits (loadedHull h) c = Hull.fits h c := by simp only [Hull.fits, loadedHull, List.length_map]
  unfold Hull.legal at legal ⊢
  rw [tanks, fits]
  exact legal

/-- A state that enters READY with the records laid out, its tanks routed in its profile. -/
theorem founded_enterReady {u : State} (laidOut : u.LaidOut) (o : StartOutcome) (check : BitVec 16)
    (legal : Hull.legal u.hull u.counts = true) (alternates : ∀ x ∈ u.tanks,
      (∀ a, x.alternate = some a → 1 ≤ a ∧ a ≤ u.counts.groups) ∧ (x.route = .alternate → x.alternate ≠ none)) :
    (u.withStartValves.enterReady o check).Founded := by
  obtain ⟨-, tanks, -, shape⟩ := laidOut.records o check rfl
  exact ⟨rfl, tanks, shape, legal, alternates⟩

theorem free_enterReady (u : State) (o : StartOutcome) (check : BitVec 16) :
    ∀ x ∈ (u.withStartValves.enterReady o check).ballast.tankValves, x.owner = none := fun x mem => by
  obtain ⟨-, rfl⟩ := List.mem_replicate.1 (show x ∈ List.replicate _ _ from mem)
  rfl

/-- The alternate groups of legal hull data are of the profile. -/
theorem alternates_of_legal {h : Hull} {c : Counts} (legal : Hull.legal h c = true) : ∀ d ∈ h.tanks,
    (∀ a, d.alternate = some a → 1 ≤ a ∧ a ≤ c.groups) ∧ (d.route = .alternate → d.alternate ≠ none) := fun d mem => by
  simp only [Hull.legal, Bool.and_eq_true, List.all_eq_true] at legal
  have data := legal.1.1.1.1.1.1.2 d mem
  simp only [TankData.legal, Bool.and_eq_true] at data
  obtain ⟨⟨⟨⟨-, group⟩, routed⟩, -⟩, -⟩ := data
  refine ⟨fun a named => ?_, fun route named => ?_⟩
  · rw [named] at group
    simp only [alternateLegal, decide_eq_true_eq] at group
    exact ⟨group.1, group.2.1⟩
  · simp [route, named] at routed

/-- Every list of a cold start is empty or idle. -/
theorem sound_cold {u : State} (legal : Hull.legal u.hull u.counts = true) (check : BitVec 16) :
    (u.coldRecords.withStartValves.enterReady .cold check).Sound := by
  obtain ⟨counted, -⟩ := Hull.tanks_and_draft_of_legal legal
  have orders (k : Nat) : (u.coldRecords.withStartValves.enterReady .cold check).order k = none := by
    show (nth1 (List.replicate u.counts.tanks none) k).join = none
    cases k with
    | zero => rfl
    | succ k => simp only [nth1, List.getElem?_replicate]; split <;> rfl
  have queues (g : Nat) : (u.coldRecords.withStartValves.enterReady .cold check).queue g = [] :=
    getD_nth1_of_forall (P := fun q : List Nat => q = []) (l := List.replicate u.counts.groups []) rfl
      (fun q mem => (List.mem_replicate.1 mem).2) g
  have gone {k : Nat} {o : Order} (here : (u.coldRecords.withStartValves.enterReady .cold check).order k = some o) {P : Prop} : P := by
    rw [orders] at here; exact absurd here (by simp)
  refine sound_of_idle (founded_enterReady (coldRecords_laidOut counted) _ _ legal fun x mem => ?_)
    ⟨fun g => by rw [queues]; exact .nil, fun g k mem => ?_, fun _ _ here _ => gone here, fun _ _ none => absurd none (by simp),
      fun _ _ here _ => gone here, fun _ _ here _ => gone here⟩ (fun st mem => ?_) (free_enterReady _ _ _)
  · obtain ⟨d, there, rfl⟩ := List.mem_map.1 (show x ∈ u.hull.tanks.map coldTank from mem)
    exact alternates_of_legal legal d there
  · rw [queues] at mem; exact absurd mem List.not_mem_nil
  · obtain ⟨-, rfl⟩ := List.mem_replicate.1 (show st ∈ List.replicate u.counts.groups coldStation from mem)
    exact ⟨rfl, rfl, rfl⟩

/-! ### A warm start (spec 01 R19, spec 05 R90) -/

/-- Records kept in the number that the profile counts are the records of a warm start. -/
theorem keptOver_of_length {α : Type} {kept cold : List α} (same : kept.length = cold.length) : keptOver kept cold = kept := by
  refine List.ext_getElem? fun i => ?_
  simp only [keptOver, List.getElem?_map, List.getElem?_zipIdx]
  by_cases inside : i < cold.length
  · simp [List.getElem?_eq_getElem inside, List.getElem?_eq_getElem (same ▸ inside)]
  · simp [List.getElem?_eq_none (Nat.le_of_not_lt inside), List.getElem?_eq_none (same ▸ Nat.le_of_not_lt inside)]

/-- An ACTIVE order returns to the head of its queue; no other order of its tank runs. -/
theorem State.Filed.warmReturn {s : State} {act : Nat → Option Nat} {k : Nat} (filed : s.Filed act)
    (queued : ∀ g j, act g = some j → 1 ≤ g ∧ g ≤ s.ballast.queues.length) :
    ∃ act', (s.warmReturn k).Filed act' ∧ ∀ g j, act' g = some j → act g = some j ∧ j ≠ k := by
  have unrun (rests : ∀ o, s.order k = some o → o.state ≠ .active) : ∀ g j, act g = some j → act g = some j ∧ j ≠ k :=
    fun g j acts => ⟨acts, fun same => by
      subst same
      obtain ⟨o, here, active, -⟩ := filed.runs g j acts
      exact rests o here active⟩
  unfold State.warmReturn
  cases here : s.order k with
  | none => exact ⟨act, filed, unrun fun o there => by rw [here] at there; exact absurd there (by simp)⟩
  | some o =>
    dsimp only
    split
    · rename_i active
      have running := filed.runner k o here active
      have permits := filed.routes k o here (by rw [active]; exact OrderState.noConfusion)
      have absent (g : Nat) : k ∉ s.queue g := filed.unqueued (fun o' there => by
        rw [← Option.some.inj (here.symm.trans there), active]; exact OrderState.noConfusion) g
      have acts (g j : Nat) : Function.update act o.group none g = some j ↔ act g = some j ∧ j ≠ k := by
        by_cases same : g = o.group
        · subst same
          rw [Function.update_self, running]
          simp [eq_comm]
        · rw [Function.update_of_ne same]
          refine ⟨fun acts => ⟨acts, fun here' => same ?_⟩, And.left⟩
          obtain ⟨o', there, -, group⟩ := filed.runs g j acts
          rw [here', here] at there
          rw [← group, Option.some.inj there]
      have dropped : (s.setOrder k none).Filed (Function.update act o.group none) :=
        filed.drop (t := s.setOrder k none) (k := k) (fun _ => ⟨rfl, rfl⟩)
          (fun o' there => by rw [order_setOrder_none, if_pos rfl] at there; exact absurd there (by simp))
          (fun j other => by rw [order_setOrder_none, if_neg other]) (fun g => (filter_ne_of_not_mem (absent g)).symm) acts
      refine ⟨Function.update act o.group none, ?_, fun g j => (acts g j).1⟩
      refine dropped.file (k := k) (o := { o with state := .queued, holdCause := some .warmStart }) (fun _ => ⟨rfl, rfl⟩)
        (fun o' there => ?_) ?_ rfl permits (fun j other => ?_) ?_ fun g other => queue_setQueue_ne other _
      · rw [order_setOrder_none, if_pos rfl] at there; exact absurd there (by simp)
      · exact (order_updOrder k k _ s).trans (by rw [if_pos rfl, here]; rfl)
      · exact (order_updOrder k j _ s).trans (by rw [order_setOrder_none, if_neg other, if_neg other])
      · exact .of_eq (getD_nth1_modify1 (queued _ _ running) _ _)
    · rename_i rests
      exact ⟨act, filed, unrun fun o' there => by rw [← Option.some.inj (here.symm.trans there)]; exact rests⟩

/-- Once each tank's order has been returned none runs. -/
theorem State.Filed.warmReturns {s : State} {act : Nat → Option Nat} {ks : List Nat} (filed : s.Filed act)
    (queued : ∀ g j, act g = some j → (1 ≤ g ∧ g ≤ s.ballast.queues.length) ∧ j ∈ ks) :
    (ks.foldl (fun s k => s.warmReturn k) s).Filed fun _ => none := by
  induction ks generalizing s act with
  | nil =>
    have none : act = fun _ => Option.none := funext fun g => Option.eq_none_iff_forall_ne_some.2 fun j acts =>
      absurd (queued g j acts).2 List.not_mem_nil
    exact none ▸ filed
  | cons k ks ih =>
    obtain ⟨act', filed', fewer⟩ := filed.warmReturn (k := k) fun g j acts => (queued g j acts).1
    refine ih filed' fun g j acts => ?_
    obtain ⟨was, other⟩ := fewer g j acts
    obtain ⟨range, mem⟩ := queued g j was
    rw [(warmReturn_frame k s).lengths.1]
    exact ⟨range, (List.mem_cons.1 mem).resolve_left other⟩

/-- A warm start begins with the kept records; then the orders that ran are returned. -/
theorem warmRecords_begin (u : State) : ∃ w : State, u.warmRecords = u.tankNumbers.foldl (fun s t => s.warmReturn t) w ∧
    w.startUp = u.startUp ∧ w.tanks = (keptOver u.tanks (u.hull.tanks.map coldTank)).map Tank.warmed ∧
    w.ballast.orders = keptOver u.ballast.orders (List.replicate u.counts.tanks none) ∧
    w.ballast.queues = keptOver u.ballast.queues (List.replicate u.counts.groups []) ∧
    w.ballast.stations = (keptOver u.ballast.stations (List.replicate u.counts.groups coldStation)).map Station.warmed :=
  ⟨_, rfl, rfl, rfl, rfl, rfl, rfl⟩

theorem warmReturns_stations (ks : List Nat) (s : State) :
    (ks.foldl (fun s t => s.warmReturn t) s).ballast.stations = s.ballast.stations := by
  have one (k : Nat) (s : State) : (s.warmReturn k).ballast.stations = s.ballast.stations := by
    unfold State.warmReturn
    split
    · split <;> rfl
    · rfl
  induction ks generalizing s with
  | nil => rfl
  | cons k ks ih => exact (ih _).trans (one k s)

/-- Kept orders whose tanks' routes permit their groups begin READY in the queues (spec 05 R90). -/
theorem sound_warm {u : State} (orders : u.OrdersOk) (fits : u.fits u.counts) (legal : Hull.legal u.hull u.counts = true)
    (routes : ∀ k o, u.order k = some o → o.state ≠ .done → (u.tank k).permits (u.tankData k).primary o.group)
    (check : BitVec 16) : (u.warmRecords.withStartValves.enterReady .warm check).Sound := by
  obtain ⟨counted, -⟩ := Hull.tanks_and_draft_of_legal legal
  obtain ⟨-, tanksLength, -, shape⟩ := fits
  simp only [Sequencer.shape, List.cons.injEq, and_true] at shape
  obtain ⟨ordersLength, queuesLength, stationsLength, -⟩ := shape
  obtain ⟨w, begins, startUp, tanks, kept, queues, stations⟩ := warmRecords_begin u
  rw [keptOver_of_length (by rw [tanksLength, List.length_map, counted])] at tanks
  rw [keptOver_of_length (by rw [ordersLength, List.length_replicate])] at kept
  rw [keptOver_of_length (by rw [queuesLength, List.length_replicate])] at queues
  rw [keptOver_of_length (by rw [stationsLength, List.length_replicate])] at stations
  have frame : BallastFrame w u.warmRecords := begins ▸ .foldl (fun s t => warmReturn_frame t s) _ _
  obtain ⟨⟨nodup, queued, waits⟩, ⟨runs, runner⟩, -, -, alternates, -⟩ := orders
  have routing : w.tanks.map Tank.routing = u.tanks.map Tank.routing := by
    rw [tanks, List.map_map]; rfl
  have data (k : Nat) : w.tankData k = u.tankData k := by rw [State.tankData, State.hull, startUp]; rfl
  have order (k : Nat) : w.order k = u.order k := by rw [State.order, kept]; rfl
  have queue (g : Nat) : w.queue g = u.queue g := by rw [State.queue, queues]; rfl
  have begun : w.Filed u.actives := by
    refine ⟨?_, ?_, ?_, ?_, ?_, fun k o here lives => ?_⟩
    · simpa only [queue] using nodup
    · simpa only [queue, order] using queued
    · simpa only [queue, order] using waits
    · simp only [order]; exact runs
    · simp only [order]; exact runner
    · rw [permits_of_routing (routing_of_map routing k), data]
      exact routes k o (order k ▸ here) lives
  have filed : u.warmRecords.Filed fun _ => none := by
    rw [begins]
    refine begun.warmReturns fun g k active => ?_
    obtain ⟨o, here, -⟩ := runs g k active
    have range := order_in_range here
    have manned : 1 ≤ g ∧ g ≤ u.ballast.stations.length := by
      cases at_ : nth1 u.ballast.stations g with
      | none =>
        rw [State.actives, State.station, at_] at active
        exact absurd (show none = some k from active) (by simp)
      | some st =>
        cases g with
        | zero => exact absurd at_ (by simp [nth1])
        | succ g => exact ⟨Nat.succ_le_succ g.zero_le, (List.getElem?_eq_some_iff.1 at_).1⟩
    rw [queues]
    refine ⟨by omega, ?_⟩
    simp only [State.tankNumbers, upTo, List.mem_range'_1]
    omega
  have counts : u.warmRecords.counts = u.counts := by rw [frame.counts, State.counts, startUp]; rfl
  refine sound_of_idle (founded_enterReady (warmRecords_laidOut counted) _ _ ?_ fun x mem => ?_)
    (filed.congr (fun _ => ⟨rfl, rfl⟩) rfl rfl) (fun st mem => ?_) (free_enterReady _ _ _)
  · rw [counts, State.hull, frame.startUp, startUp]; exact legal
  · rw [frame.tanks, tanks] at mem
    obtain ⟨y, there, rfl⟩ := List.mem_map.1 mem
    rw [counts, ← queuesLength]
    exact alternates y there
  · have there : st ∈ u.warmRecords.ballast.stations := mem
    rw [begins, warmReturns_stations, stations] at there
    obtain ⟨_, -, rfl⟩ := List.mem_map.1 there
    exact ⟨rfl, rfl, rfl⟩

end Sys2Proof.Machine
end

