-- ==== Sys2Proof/Proofs/StepAgrees.lean ====
section
/-! PROOFS. Every command keeps orders, queues, stations and tank valves in agreement: what each link takes, what the part does of its
own, and the starts. -/

namespace Sys2Proof.Machine

/-- Orders, queues, stations and tank valves agree, and in READY with what the profile counts. -/
structure State.Agrees (s : State) : Prop where
  orders : s.OrdersOk
  sound : s.startUp.phase = .ready → s.Sound

theorem State.Sound.agrees {s : State} (sound : s.Sound) : s.Agrees := ⟨sound.ordersOk, fun _ => sound⟩

theorem counted_of_hasGroup {s : State} {g : Nat} (group : s.hasGroup g = true) : s.ready = true ∧ s.counted g := by
  simp only [State.hasGroup, Bool.and_eq_true, decide_eq_true_eq] at group
  exact group

theorem range_of_hasTank {s : State} {k : Nat} (tank : s.hasTank k = true) :
    s.ready = true ∧ 1 ≤ k ∧ k ≤ s.counts.tanks := by
  simpa only [State.hasTank, Bool.and_eq_true, decide_eq_true_eq] using tank

theorem ready_of_ballastUp {s : State} (up : s.ballastUp = true) : s.ready = true := by
  simp only [State.ballastUp, Bool.and_eq_true] at up
  exact up.1

section Agrees

variable {s t : State} (agrees : s.Agrees)
include agrees

theorem State.Agrees.of_sameWork (same : s.SameWork t) : t.Agrees :=
  ⟨same.ordersOk agrees.orders, fun ready => same.sound (agrees.sound (same.phase ▸ ready))⟩

/-- A change beyond the phase, the profile, the tanks and the sequencer. -/
theorem State.Agrees.of_eq (phase : t.startUp.phase = s.startUp.phase) (profile : t.startUp.profile = s.startUp.profile)
    (ballast : t.ballast = s.ballast) (tanks : t.tanks = s.tanks) : t.Agrees :=
  agrees.of_sameWork (sameWork_of_eq phase profile ballast tanks)

theorem State.Agrees.of_ready (ready : s.ready = true) (keeps : s.Sound → t.Sound) : t.Agrees :=
  (keeps (agrees.sound (phase_of_ready ready))).agrees

/-- Out of READY the records that are kept agree as they did. -/
theorem State.Agrees.of_unready (phase : t.startUp.phase ≠ .ready) (kept : List (Second × KeptChange))
    (ballast : t.ballast = { s.ballast with kept := kept }) (tanks : t.tanks = s.tanks) : t.Agrees := by
  have order (k : Nat) : t.order k = s.order k := by unfold State.order; rw [ballast]
  have queue (g : Nat) : t.queue g = s.queue g := by unfold State.queue; rw [ballast]
  have station (g : Nat) : t.station g = s.station g := by unfold State.station; rw [ballast]
  have valve (v : ValveId) : t.valve v = s.valve v := by unfold State.valve; rw [ballast]
  obtain ⟨⟨nodup, queued, waits⟩, ⟨runs, runner⟩, ⟨apart, owner, opened, unshut⟩, halted, alternates, -⟩ := agrees.orders
  refine ⟨⟨⟨?_, ?_, ?_⟩, ⟨?_, ?_⟩, ⟨?_, ?_, ?_, ?_⟩, ?_, ?_, fun ready => absurd ready phase⟩, fun ready => absurd ready phase⟩
  · simpa only [queue] using nodup
  · simpa only [queue, order] using queued
  · simpa only [queue, order] using waits
  · simpa only [order, station] using runs
  · simpa only [order, station] using runner
  · simpa only [station] using apart
  · simpa only [valve, station] using owner
  · simpa only [valve, station] using opened
  · simpa only [State.confirmedAt, valve] using unshut
  · unfold State.HaltedOk; rw [ballast]; exact halted
  · rw [tanks, ballast]; exact alternates

end Agrees

/-- A part without records has nothing to disagree about. -/
theorem agrees_of_empty {t : State} (phase : t.startUp.phase ≠ .ready) (ballast : t.ballast = .empty) (tanks : t.tanks = []) :
    t.Agrees := by
  have order (k : Nat) : t.order k = none := by unfold State.order; rw [ballast]; cases k <;> rfl
  have queue (g : Nat) : t.queue g = [] := by unfold State.queue; rw [ballast]; cases g <;> rfl
  have station (g : Nat) : t.station g = default := by unfold State.station; rw [ballast]; cases g <;> rfl
  have owner (k : Nat) : (t.valve (.tank k)).owner = none := by unfold State.valve; rw [ballast]; cases k <;> rfl
  refine ⟨⟨⟨?_, ?_, ?_⟩, ⟨?_, ?_⟩, ⟨?_, ?_, ?_, ?_⟩, ?_, ?_, fun ready => absurd ready phase⟩, fun ready => absurd ready phase⟩
  · simp [queue]
  · simp [queue]
  · simp [order]
  · intro g k active; rw [station] at active; exact absurd (show none = some k from active) (by simp)
  · simp [order]
  · intro g; rw [station]; exact .nil
  · intro g k
    rw [owner, station]
    refine ⟨fun h => absurd h (by simp), fun h => ?_⟩
    obtain active | closing := h
    · exact absurd (show none = some k from active) (by simp)
    · exact absurd (show k ∈ [] from closing) List.not_mem_nil
  · intro g k active; rw [station] at active; exact absurd (show none = some k from active) (by simp)
  · intro g k own; rw [owner] at own; exact absurd own (by simp)
  · intro _; rw [ballast]; simp [Sequencer.empty]
  · rw [tanks]; simp

/-! ### The ship link -/

section Requests

variable {s : State} (agrees : s.Agrees)
include agrees

theorem State.Agrees.request {kind : Nat} {head : ShipHead} {respond : State → Answer} (answer : (respond s).state.Agrees) :
    (s.takeRequest kind head respond).Agrees :=
  takeRequest_keeps (fun _ _ h => h.of_eq rfl rfl rfl rfl) answer agrees

/-- A record request keeps the agreement where the tables' rules do for the records that there are. -/
theorem State.Agrees.recordRequest {kind : Nat} {head : ShipHead} {look : Bool} {named : State → Table → Nat → Bool}
    {respond : Table → Nat → State → Answer}
    (answer : ∀ t k, named s t k = true → (respond t k s).state.Agrees) :
    (s.takeRequest kind head fun s => s.recordRequest head look named respond).Agrees := by
  refine agrees.request ?_
  obtain busy | unnamed | ⟨t, -, there, taken⟩ :=
    recordRequest_cases (s := s) (head := head) (look := look) (named := named) (respond := respond)
  · rw [busy]; exact agrees
  · rw [unnamed]; exact agrees
  · rw [taken]; exact answer t _ there

theorem State.Agrees.action {kind : Nat} {head : ShipHead} {waits : Bool} {respond : State → Answer}
    (answer : (respond s).state.Agrees) : (s.takeRequest kind head fun s => s.actionRequest waits respond).Agrees :=
  agrees.request (actionRequest_keeps answer agrees)

theorem State.Agrees.trial {kind : Nat} {head : ShipHead} {respond : State → Answer} (answer : (respond s).state.Agrees) :
    (s.takeRequest kind head fun s => s.trialRequest head respond).Agrees :=
  agrees.request (trialRequest_keeps answer agrees)

theorem State.Agrees.onlyPours {t : State} (h : s.onlyPours t) : t.Agrees := agrees.of_sameWork h.sameWork

theorem State.Agrees.onlyChannels {t : State} (h : s.onlyChannels t) : t.Agrees := agrees.of_sameWork h.sameWork

theorem State.Agrees.storeBerth (draft : Nat) (source : BerthSource) : (s.storeBerth draft source).Agrees := by
  have stored : State.Agrees { s with berth.maxDraft := draft, berth.source := source } := agrees.of_eq rfl rfl rfl rfl
  unfold State.storeBerth
  dsimp only
  split
  · exact (stored.onlyPours (markDirty_onlyPours _)).onlyPours (makeDue_onlyPours _ _)
  · exact guarded_keeps (stored.onlyPours (makeDue_onlyPours _ _)) stored

theorem State.Agrees.storeSettings (ps : List Pair) : (s.storeSettings ps).Agrees := by
  have stored : s.SameWork { s with settings := s.settings.afterPut ps } := sameWork_of_eq rfl rfl rfl rfl
  have marks (p q : Prop) [Decidable p] [Decidable q] (u : State) :
      u.SameWork (if q then (if p then u.markDirty else u).oweDerivations else if p then u.markDirty else u) := by
    have marked : u.SameWork (if p then u.markDirty else u) := guarded_keeps (markDirty_onlyPours u).sameWork (.refl u)
    exact guarded_keeps (marked.trans (sameWork_of_eq rfl rfl rfl rfl)) marked
  have handed := stored.trans (marks
    (s.settings.limitSet ≠ (s.settings.afterPut ps).limitSet ∨ s.settings.caution ≠ (s.settings.afterPut ps).caution)
    (s.settings.pace ≠ (s.settings.afterPut ps).pace ∨ s.settings.margin ≠ (s.settings.afterPut ps).margin) _)
  unfold State.storeSettings
  dsimp only
  split
  · rename_i ready
    exact agrees.of_ready ready fun sound => unordered_keeps State.Sound (fun _ h => h.draw _)
      (fun e _ _ h => h.intervalEffect e) (handed.sound sound)
  · exact agrees.of_sameWork handed

theorem State.Agrees.putRecord {t : Table} {k : Nat} {ps : List Pair} (there : s.putExists t k = true) :
    (s.putRecord t k ps).state.Agrees := by
  unfold State.putRecord
  split
  · cases t with
    | hold =>
      refine takePut_keeps ?_ agrees
      split
      · exact agrees.onlyPours (onlyPours_trans (updHold_onlyPours _ _ s) (deriveHold_onlyPours _ _))
      · exact agrees
    | tank => exact agrees.of_ready (range_of_hasTank there).1 fun sound => sound.putTank k ps
    | item =>
      refine takePut_keeps ?_ agrees
      split
      · have stored (m : Nat) : State.Agrees { s with items := modify1 s.items k fun _ => m } := agrees.of_eq rfl rfl rfl rfl
        exact guarded_keeps (stored _) ((stored _).onlyPours (markDirty_onlyPours _))
      · exact agrees
    | pour =>
      dsimp only
      unfold State.putPour
      split
      · exact agrees.onlyPours (createPour_onlyPours k ps s)
      · exact agrees.onlyPours (amendPour_onlyPours k _ ps s)
    | order =>
      obtain ⟨ready, range⟩ := range_of_hasTank there
      exact agrees.of_ready ready fun sound => sound.putOrder range
    | station =>
      refine agrees.of_ready (counted_of_hasGroup there).1 fun sound => takePut_keeps ?_ sound
      have stored := (updStation_sameWork (g := k) (f := (·.afterPut ps)) s).sound sound
      exact guarded_keeps (stored.applyDryRun k) stored
    | channel =>
      dsimp only
      cases loaderOfKey k with
      | none => exact agrees
      | some l =>
        show (s.putChannel l ps).state.Agrees
        refine takePut_keeps ?_ agrees
        split
        · exact agrees.onlyChannels (storeAction_frame l _ s)
        · exact agrees
    | berth =>
      refine takePut_keeps ?_ agrees
      split
      · exact agrees.storeBerth _ _
      · exact agrees
    | settings => exact takePut_keeps (agrees.storeSettings ps) agrees
    | valve | result | clearance | profile | trial | changes => exact agrees
  · exact agrees

theorem State.Agrees.retireRecord {t : Table} {k : Nat} (there : s.recordExists t k = true) :
    (s.retireRecord t k).state.Agrees := by
  unfold State.retireRecord
  split
  · unfold State.retirePour
    split
    · exact agrees
    · split
      · exact agrees.onlyPours (removePour_onlyPours _ s)
      · exact agrees
  · simp only [State.recordExists, State.hasOrder, Bool.and_eq_true] at there
    exact agrees.of_ready (range_of_hasTank there.1).1 fun sound => sound.retireOrder k
  · exact agrees

omit agrees in
theorem clearFlag_sameWork (t : Table) (key : Nat) (f : FlagKind) (s : State) : s.SameWork (s.clearFlag t key f) := by
  unfold State.clearFlag
  split
  case h_1 | h_2 => exact updTank_sameWork s fun _ _ => rfl
  case h_3 | h_4 | h_5 | h_6 => exact updStation_sameWork s
  all_goals exact sameWork_of_eq rfl rfl rfl rfl

theorem State.Agrees.clearRecord (codes : List Octet) (t : Table) (k : Nat) : (s.clearRecord codes t k).state.Agrees := by
  unfold State.clearRecord
  split
  · exact agrees
  · split
    · exact agrees
    · split
      · exact agrees
      · exact foldl_keeps (fun f _ _ h => h.of_sameWork (clearFlag_sameWork t k f _)) agrees

theorem State.Agrees.haltAnswer : s.haltAnswer.state.Agrees := by
  unfold State.haltAnswer
  split
  · rename_i running
    dsimp only
    exact agrees.of_ready running.1 fun sound => sound.haltSequencer
  · exact agrees

theorem State.Agrees.rearmAnswer (g : Nat) : (s.rearmAnswer g).state.Agrees := by
  unfold State.rearmAnswer
  split
  · exact agrees
  · split
    · exact agrees
    · rename_i there
      split
      · rename_i may
        simp only [State.mayRearm, Bool.and_eq_true, decide_eq_true_eq] at may
        dsimp only
        exact agrees.of_ready (counted_of_hasGroup (Bool.not_eq_false _ |>.mp there)).1 fun sound =>
          (sound.rearmed may.1.1).settle false s
      · exact agrees

theorem State.Agrees.endPourAnswer (n : Nat) : (s.endPourAnswer n).state.Agrees := by
  unfold State.endPourAnswer
  split
  · split
    · exact agrees
    · split
      · exact agrees.onlyPours (closePour_onlyPours _ s)
      · exact agrees
  · exact agrees

theorem State.Agrees.trialPutAnswer (ps : List Pair) : (s.trialPutAnswer ps).state.Agrees := by
  unfold State.trialPutAnswer
  split
  · exact agrees
  · split
    · exact takePut_keeps (agrees.of_eq rfl rfl rfl rfl) agrees
    · exact agrees

/-- At rest the part stands in READY and HALTED. -/
theorem State.Agrees.of_atRest {t : State} (rest : s.atRest = true)
    (keeps : s.Sound → s.ballast.state = .halted → t.Sound) : t.Agrees := by
  simp only [State.atRest, Bool.and_eq_true, decide_eq_true_eq] at rest
  exact agrees.of_ready rest.1.1 fun sound => keeps sound rest.1.2

theorem State.Agrees.purgeOne : s.purgeOne.Agrees := by
  have tested {u : State} (h : u.Agrees) : u.purgeTest.Agrees := guarded_keeps (h.of_eq rfl rfl rfl rfl) h
  unfold State.purgeOne
  split
  · exact tested agrees
  · exact tested (agrees.onlyPours (removePour_onlyPours _ s))

/-! ### The terminal link, the field link and the supply -/

/-- A notice keeps the agreement where its own rule does. -/
theorem State.Agrees.notice {kind : NoticeKind} {l : Option Loader} {q : Option (BitVec 16)} {r : Reason}
    {act : State → State} (acts : ∀ t : State, t.Agrees → (act t).Agrees) : (s.takeNotice kind l q r act).Agrees :=
  takeNotice_keeps (fun _ _ h => h.of_eq rfl rfl rfl rfl) acts agrees

theorem State.Agrees.placeReply (r : NoticeReply) : (s.placeReply r).Agrees := guarded_keeps (agrees.of_eq rfl rfl rfl rfl) agrees

/-- A field frame keeps the agreement where its own rule does in READY. -/
theorem State.Agrees.field {present : State → Bool} {act : State → State}
    (acts : ∀ t : State, t.ready = true → present t = true → t.Sound → (act t).Sound) : (s.takeField present act).Agrees := by
  have taken : State.Agrees { s with field.receiving := none } := agrees.of_eq rfl rfl rfl rfl
  unfold State.takeField
  split
  · dsimp only
    split
    · rename_i ready
      have watched : State.Agrees (State.restartSilence { s with field.receiving := none }) := taken.of_eq rfl rfl rfl rfl
      split
      · rename_i there
        exact watched.of_ready ready (acts _ ready there)
      · exact watched
    · exact taken
  · exact agrees

omit agrees in
theorem older_sameWork (s : State) (ready : Bool) :
    s.SameWork { s with clock := s.clock + 1, tanks := if ready then s.tanks.map Tank.older else s.tanks } := by
  refine ⟨rfl, rfl, rfl, rfl, rfl, rfl, fun _ => rfl, fun _ => rfl, fun _ => rfl, fun _ _ => id, ?_⟩
  cases ready with
  | false => rfl
  | true => exact List.map_map ..

theorem State.Agrees.pfailAssert : State.Agrees (
    let s1 := { s with
      pfail := true, ship.busyOwed := none, ship.receiving := none, terminal.receiving := none
      field.receiving := none }
    let s2 := if s.ready then s1.writeMarker else s1
    if s.hasChannels then s2.pfailChannels else s2) := by
  have asserted : State.Agrees { s with
    pfail := true, ship.busyOwed := none, ship.receiving := none, terminal.receiving := none
    field.receiving := none } := agrees.of_eq rfl rfl rfl rfl
  have marked := guarded_keeps (P := State.Agrees) (p := s.ready = true) (t := State.writeMarker _)
    (asserted.of_eq rfl rfl rfl rfl) asserted
  exact guarded_keeps (marked.onlyChannels (pfailChannels_frame _)) marked

omit agrees in
theorem State.Sound.resumeReady (sound : s.Sound) : s.resumeReady.Sound := by
  have watched : State.Sound (State.restartSilence { s with startUp.marker := { s.startUp.marker with valid := false } }) :=
    sound.of_eq rfl rfl rfl rfl
  exact ((expireTallies_frame _).sameWork.sound watched).takeDeferred

theorem State.Agrees.pfailDeassert : State.Agrees (
    let s' := { s with pfail := false, ship := .idle }
    if s.ready then s'.resumeReady else s') := by
  have deasserted : State.Agrees { s with pfail := false, ship := .idle } := agrees.of_eq rfl rfl rfl rfl
  dsimp only
  split
  · rename_i ready
    exact deasserted.of_ready ready State.Sound.resumeReady
  · exact deasserted

end Requests

end Sys2Proof.Machine
end

