-- ==== Sys2Proof/Proofs/StepOrders.lean ====
section
/-! PROOFS. Every step keeps queues, running orders and owned tank valves in agreement (spec 05 R75, R76, R79, R90, spec 06 R92,
R97): the starts, and the other commands by the link that they come on. -/

namespace Sys2Proof.Machine

/-- The command completes in a state in which orders, queues, stations and tank valves agree. -/
def AgreesIn (o : Host.Outcome State Fault Refusal) : Prop := ∀ t, o = .next t → t.Agrees

theorem State.Agrees.next {t : State} (agrees : t.Agrees) : AgreesIn (.next t) := by
  rintro _ ⟨⟩; exact agrees

/-- A warm start by this image finds records that fit its counts, and orders that the kept routes permit by its hull data. -/
def State.keptFit (s : State) (r : ProfileRead) : Prop :=
  s.startsWarm (imageCrc (r.slot s.startUp.index)) = true → s.fits (imageCounts (r.slot s.startUp.index)) ∧
    ∀ k o d, s.order k = some o → o.state ≠ .done → r.hull.tanks[k - 1]? = some d → (s.tank k).permits d.primary o.group

/-- A default density stored leaves a tank's primary group. -/
theorem primary_of_density (d : TankData) (density : Nat) : ({ d with density := density } : TankData).primary = d.primary := rfl

/-- The hull data loaded name the primary groups that the image names. -/
theorem loadedHull_primary (h : Hull) (k : Nat) :
    ((nth1 (loadedHull h).tanks k).getD default).primary = ((nth1 h.tanks k).getD default).primary := by
  cases k with
  | zero => simp only [nth1]
  | succ k =>
    simp only [loadedHull, nth1, List.getElem?_map]
    cases h.tanks[k]? with
    | none => simp only [Option.map_none, Option.getD_none]
    | some d => rw [Option.map_some, Option.getD_some, Option.getD_some, primary_of_density]

section Starts

variable {s : State} (agrees : s.Agrees)
include agrees

theorem State.Agrees.retained : s.retained.Agrees :=
  agrees.of_unready (retained_unready s) [] rfl rfl

theorem State.Agrees.enterLoading (index : BitVec 4) (reloading : Bool) : (s.enterLoading index reloading).Agrees :=
  agrees.of_unready (by simp [State.enterLoading]) s.ballast.kept rfl rfl

omit agrees in
theorem enterFault_agrees (f : Finding) (s : State) : (s.enterFault f).Agrees :=
  agrees_of_empty (by simp [State.enterFault, State.oweDerivations, State.oweDerivation, State.updChannel]) rfl rfl

theorem State.Agrees.loadClean {r : ProfileRead} (clean : imageFinding (r.slot s.startUp.index) r.hull = none)
    (fit : s.keptFit r) : (s.loadClean (r.slot s.startUp.index) r.hull).Agrees := by
  have legal := legal_loadedHull (hull_legal_of_clean clean)
  let u : State := { s with startUp.profile := loadedProfile (r.slot s.startUp.index) r.hull }
  have legal' : Hull.legal u.hull u.counts = true := legal
  unfold State.loadClean
  dsimp only
  split
  · rename_i warm
    obtain ⟨fits, permits⟩ := fit warm
    obtain ⟨⟨queues, runners, owners, halted, alternates, -⟩, -⟩ := agrees
    have routes (k : Nat) (o : Order) (here : s.order k = some o) (lives : o.state ≠ .done) :
        (u.tank k).permits (u.tankData k).primary o.group := by
      obtain ⟨-, -, -, shape⟩ := fits
      simp only [Sequencer.shape, List.cons.injEq, and_true] at shape
      obtain ⟨tanks, -⟩ := Hull.tanks_and_draft_of_legal (hull_legal_of_clean clean)
      have range := order_in_range here
      obtain ⟨n, rfl⟩ := Nat.exists_eq_add_of_le' range.1
      obtain ⟨d, there⟩ : ∃ d, r.hull.tanks[n]? = some d :=
        ⟨_, List.getElem?_eq_getElem (show n < r.hull.tanks.length by omega)⟩
      have data : (u.tankData (n + 1)).primary = d.primary := by
        refine (loadedHull_primary r.hull (n + 1)).trans ?_
        rw [show nth1 r.hull.tanks (n + 1) = some d from there]
        rfl
      rw [data]
      exact permits (n + 1) o d here lives there
    by_cases ready : s.startUp.phase = .ready
    · exact (sound_warm (u := u) ⟨queues, runners, owners, halted, alternates, fun _ => ⟨legal', routes⟩⟩ fits legal' routes _).agrees
    · exact (sound_warm (u := u) ⟨queues, runners, owners, halted, alternates, fun h => absurd h ready⟩ fits legal' routes _).agrees
  · exact (sound_cold (u := u) legal' _).agrees

theorem State.Agrees.profileRead (r : ProfileRead) (fit : s.keptFit r) : AgreesIn (execProfileReadComplete r s) := by
  refine State.Agrees.next (guarded_keeps ?_ agrees)
  split
  · exact enterFault_agrees _ s
  · rename_i clean
    exact agrees.loadClean clean fit

theorem State.Agrees.resetRelease (psel : BitVec 4) (lock : Lock) (retain : Bool) :
    AgreesIn (execResetNRelease psel lock retain s) :=
  State.Agrees.next (guarded_keeps ((agrees.enterLoading psel false).of_eq rfl rfl rfl rfl) agrees)

omit agrees in
theorem reload_agrees (index : BitVec 4) : (s.reload index).Agrees :=
  agrees_of_empty (by simp [State.reload, State.enterLoading]) rfl rfl

end Starts

section Commands

variable {s : State} (agrees : s.Agrees)
include agrees

/-! ### The ship link -/

theorem State.Agrees.run (head : ShipHead) : AgreesIn (execRun head s) := by
  refine (agrees.action (keyless_keeps ?_ agrees)).next
  unfold State.unlessFault
  split
  · rename_i ready
    exact agrees.of_ready ready State.Sound.runSequencer
  · exact agrees

theorem State.Agrees.release (head : ShipHead) : AgreesIn (execRelease head s) := by
  refine (agrees.action ?_).next
  split
  · exact agrees.onlyChannels (release_frame s _)
  · exact agrees

theorem State.Agrees.force (head : ShipHead) (pairs : List Pair) : AgreesIn (execForce head pairs s) := by
  refine (agrees.action ?_).next
  split
  · exact agrees.onlyChannels (force_frame _ _ s)
  · exact agrees

theorem State.Agrees.restartCommand (head : ShipHead) : AgreesIn (execRestart head s) := by
  refine (agrees.action (keyless_keeps ?_ agrees)).next
  split
  · rename_i rest
    exact agrees.of_atRest rest State.Sound.restart
  · exact agrees

theorem State.Agrees.purgeCommand (head : ShipHead) : AgreesIn (execPurge head s) := by
  refine (agrees.action (keyless_keeps ?_ agrees)).next
  split
  · rename_i rest
    exact agrees.of_atRest rest.1 State.Sound.purge
  · exact agrees

theorem State.Agrees.reloadCommand (head : ShipHead) : AgreesIn (execReload head s) := by
  refine (agrees.action ?_).next
  split
  · exact agrees
  · split
    · exact reload_agrees _
    · exact agrees

theorem State.Agrees.trialOpen (head : ShipHead) : AgreesIn (execTrialOpen head s) := by
  refine (agrees.trial ?_).next
  split
  · exact agrees
  · exact agrees.of_eq rfl rfl rfl rfl

theorem State.Agrees.trialEvaluate (head : ShipHead) : AgreesIn (execTrialEvaluate head s) := by
  refine (agrees.trial ?_).next
  split
  · exact agrees
  · exact agrees.of_eq rfl rfl rfl rfl

/-! ### Passes -/

theorem State.Agrees.livePassEnd : AgreesIn (execLivePassEnd s) := by
  refine State.Agrees.next ?_
  split
  · rename_i ready
    split
    · exact agrees.of_ready ready fun sound => sound.publish _
    · exact agrees
  · exact agrees

theorem State.Agrees.trialPassStart : AgreesIn (execTrialPassStart s) := by
  refine State.Agrees.next (guarded_keeps ?_ agrees)
  split
  · exact guarded_keeps (agrees.of_eq rfl rfl rfl rfl) agrees
  · exact agrees

theorem State.Agrees.trialPassEnd : AgreesIn (execTrialPassEnd s) := by
  refine State.Agrees.next (guarded_keeps ?_ agrees)
  split
  · split
    · exact guarded_keeps (agrees.of_eq rfl rfl rfl rfl) (agrees.of_eq rfl rfl rfl rfl)
    · exact agrees.of_eq rfl rfl rfl rfl
  · exact agrees

theorem State.Agrees.computation : AgreesIn (execClearanceComputation s) := by
  have figures : State.Agrees { s with
      pours.list := s.listWithFigures, pours.computationsOwed := s.pours.computationsOwed - 1 } := agrees.of_eq rfl rfl rfl rfl
  exact State.Agrees.next (guarded_keeps (figures.onlyChannels (compute_frame s)) agrees)

/-! ### The terminal link -/

theorem State.Agrees.pourStart (l : Loader) (n : BitVec 16) (rate : BitVec 32) : AgreesIn (execPourStart l n rate s) := by
  refine (agrees.notice fun t agrees => ?_).next
  split
  · exact agrees.placeReply _
  · exact (agrees.onlyPours (acceptStart_onlyPours l _ _ t)).placeReply _

theorem State.Agrees.tally (l : Loader) (amount : BitVec 32) : AgreesIn (execTally l amount s) := by
  refine (agrees.notice fun t agrees => ?_).next
  split
  · exact agrees.placeReply _
  · split
    · exact agrees.onlyPours (acceptTally_onlyPours l _ _ t)
    · exact (agrees.onlyPours (updChannel_onlyPours l _ t)).placeReply _

theorem State.Agrees.pourEnd (l : Loader) (final : BitVec 32) : AgreesIn (execPourEnd l final s) := by
  refine (agrees.notice fun t agrees => ?_).next
  split
  · exact agrees.placeReply _
  · exact (agrees.onlyPours (endActive_onlyPours l _ _ t)).placeReply _

theorem State.Agrees.berth (draft : BitVec 32) : AgreesIn (execBerth draft s) := by
  refine (agrees.notice fun t agrees => State.Agrees.placeReply ?_ _).next
  have stored := agrees.storeBerth (berthDraft draft.toInt) .terminal
  exact guarded_keeps stored (stored.of_eq rfl rfl rfl rfl)

theorem State.Agrees.reportRequest (slot : Slot) : AgreesIn (execReportRequest slot s) := by
  have taken : State.Agrees { s with terminal.receiving := none } := agrees.of_eq rfl rfl rfl rfl
  exact State.Agrees.next (guarded_keeps (guarded_keeps taken (taken.onlyPours (makeDue_onlyPours slot _))) agrees)

theorem State.Agrees.sendNext : s.sendNext.Agrees := by
  unfold State.sendNext
  split
  · exact agrees.of_eq rfl rfl rfl rfl
  · split
    · exact agrees.of_eq rfl rfl rfl rfl
    · exact agrees

/-! ### The field link and the deadlines -/

theorem State.Agrees.valvePosition (key : Octet) (position : PositionReport) : AgreesIn (execValvePosition key position s) := by
  refine (agrees.field fun t _ _ sound => ?_).next
  split
  · exact (sound.valveReport _ _).settle false t
  · exact sound

/-- What a station or a valve does of its own while the sequencer is up. -/
theorem State.Agrees.upkeep {p : Prop} [Decidable p] {t : State} (keeps : s.Sound → t.Sound) :
    AgreesIn (.next (if s.ballastUp ∧ p then t else s)) := by
  refine State.Agrees.next ?_
  split
  · rename_i up
    exact agrees.of_ready (ready_of_ballastUp up.1) keeps
  · exact agrees

/-- What comes about at a tank when its interval has passed. -/
theorem State.Agrees.tankInterval {k : Nat} {t : State} (keeps : s.Sound → t.Sound) :
    AgreesIn (.next (if s.hasTank k then t else s)) := by
  refine State.Agrees.next ?_
  split
  · rename_i there
    exact agrees.of_ready (range_of_hasTank there).1 keeps
  · exact agrees

theorem State.Agrees.fieldSilence : AgreesIn (execFieldSilenceExpiry s) := by
  refine State.Agrees.next ?_
  by_cases due : s.silenceDue = true
  · have up := due
    simp only [State.silenceDue, Bool.and_eq_true] at up
    exact agrees.of_ready (ready_of_ballastUp up.1.1) State.Sound.silenceExpires
  · unfold State.silenceExpires
    rw [if_neg due]
    exact agrees

/-! ### Every command -/

/-- Every command leaves orders, queues, stations and tank valves in agreement. -/
theorem State.Agrees.exec (c : Instr) (fit : ∀ r, c = .profileReadComplete r → s.keptFit r) : AgreesIn (exec c s) := by
  cases c with
  | powerOn => exact State.Agrees.next (guarded_keeps agrees agrees.retained)
  | powerLoss => exact State.Agrees.next (guarded_keeps (agrees.retained.of_eq rfl rfl rfl rfl) agrees)
  | timeBaseTick => exact State.Agrees.next (guarded_keeps (agrees.of_sameWork (older_sameWork s s.ready)) agrees)
  | resetNAssert =>
    exact State.Agrees.next (guarded_keeps (agrees.of_unready (by simp [State.enterReset]) [] rfl rfl) agrees)
  | resetNRelease psel lock retain => exact agrees.resetRelease psel lock retain
  | profileReadComplete r => exact agrees.profileRead r (fit r rfl)
  | profileReadTimeout => exact State.Agrees.next (guarded_keeps (enterFault_agrees .noImage s) agrees)
  | pfailAssert => exact State.Agrees.next (guarded_keeps agrees.pfailAssert agrees)
  | pfailDeassert => exact State.Agrees.next (guarded_keeps agrees.pfailDeassert agrees)
  | shipFrameDiscard | shipFrameIncompleteTimeout | shipFrameBusyOwed | shipReplyEnd | terminalFrameDiscard | terminalFrameEnd
  | fieldFrameDiscard | fieldFrameIncompleteTimeout | fieldSendStart | fieldFrameEnd | livePassStart =>
    exact State.Agrees.next (guarded_keeps (agrees.of_eq rfl rfl rfl rfl) agrees)
  | look => exact (agrees.recordRequest fun _ _ _ => agrees).next
  | put => exact (agrees.recordRequest fun _ _ there => agrees.putRecord there).next
  | retire => exact (agrees.recordRequest fun _ _ there => agrees.retireRecord there).next
  | clear => exact (agrees.recordRequest fun t k _ => agrees.clearRecord _ t k).next
  | run head => exact agrees.run head
  | halt => exact (agrees.action (keyless_keeps agrees.haltAnswer agrees)).next
  | rearm => exact (agrees.action (agrees.rearmAnswer _)).next
  | release head => exact agrees.release head
  | force head pairs => exact agrees.force head pairs
  | endPour => exact (agrees.action (agrees.endPourAnswer _)).next
  | restart head => exact agrees.restartCommand head
  | purge head => exact agrees.purgeCommand head
  | purgeStep => exact State.Agrees.next (guarded_keeps agrees.purgeOne agrees)
  | reload head => exact agrees.reloadCommand head
  | trialOpen head => exact agrees.trialOpen head
  | trialPut _ pairs => exact (agrees.trial (agrees.trialPutAnswer pairs)).next
  | trialEvaluate head => exact agrees.trialEvaluate head
  | trialClose => exact (agrees.trial (agrees.of_eq rfl rfl rfl rfl)).next
  | unknownRequestKind => exact (agrees.request agrees).next
  | livePassEnd => exact agrees.livePassEnd
  | trialPassStart => exact agrees.trialPassStart
  | trialPassEnd => exact agrees.trialPassEnd
  | clearanceComputation => exact agrees.computation
  | channelDerivation l => exact State.Agrees.next (guarded_keeps (agrees.onlyChannels (takeDerivation_frame s l)) agrees)
  | tallyTimerExpiry l => exact State.Agrees.next (guarded_keeps (agrees.onlyChannels (expireTallyTimer_frame s l)) agrees)
  | pourStart l n rate => exact agrees.pourStart l n rate
  | tally l amount => exact agrees.tally l amount
  | pourEnd l final => exact agrees.pourEnd l final
  | berth draft => exact agrees.berth draft
  | reportRequest slot => exact agrees.reportRequest slot
  | terminalSendStart => exact State.Agrees.next (guarded_keeps agrees.sendNext agrees)
  | sounding => exact (agrees.field fun _ _ _ sound => guarded_keeps (sound.goodSounding _ _) sound).next
  | valvePosition key position => exact agrees.valvePosition key position
  | pumpStatus _ status =>
    exact (agrees.field fun _ _ there sound => (sound.pumpReport (counted_of_hasGroup there).2 status).settle false _).next
  | localSwitch _ position =>
    exact (agrees.field fun _ _ there sound => (sound.switchReport (counted_of_hasGroup there).2 position).settle false _).next
  | fieldSilenceExpiry => exact agrees.fieldSilence
  | staleExpiry => exact agrees.tankInterval fun sound => sound.staleExpires _
  | stripSettleExpiry => exact agrees.tankInterval fun sound => sound.settleExpires _
  | valveTravelTimeout => exact agrees.upkeep fun sound => (sound.travelTimeout _).settle false s
  | primingExpiry g =>
    refine State.Agrees.next ?_
    split
    · rename_i up
      exact agrees.of_ready (ready_of_ballastUp up.1) fun sound => (sound.primingEnds up.2.2.1).settle false s
    · exact agrees
  | rundownExpiry g =>
    refine State.Agrees.next ?_
    split
    · rename_i up
      exact agrees.of_ready (ready_of_ballastUp up.1) fun sound => (sound.rundownEnds up.2.2.1).settle false s
    · exact agrees
  | dryRunCondition => exact agrees.upkeep fun sound => (sound.dryRunActs _).settle false s

end Commands

/-- Settles O8: in READY the agreement is carried by the records that the profile counts, every operation of the Ballast Sequencer
keeps it, and every other change leaves what it rests on; a start lays it out anew. -/
theorem stepKeepsOrdersAndQueues : Obligations.StepKeepsOrdersAndQueues := by
  intro s t records stations orders warm run
  have agrees : s.Agrees := ⟨orders, fun ready => sound_of_ordersOk ready records stations orders⟩
  unfold step at run
  split at run
  · obtain rfl := Host.Outcome.next.inj run
    exact orders
  · rename_i c rest pending
    have left : State.Agrees { s with pending := rest } := agrees.of_eq rfl rfl rfl rfl
    exact (left.exec c (fun r named => warm r rest (named ▸ pending)) t run).orders

end Sys2Proof.Machine
end

