-- ==== Sys2Proof/Proofs/Look.lean ====
section
/-! PROOFS. One station looks (spec 05 R82, R83, spec 06 R93, R103): what commands to its valves make of the valves and of the outbound
list, and what the look leaves of orders, queues, stations and valves. -/

namespace Sys2Proof.Machine

/-! ### Commands to valves, as the statements say them -/

/-- What a command to a position makes of a valve: nothing, or the command sent and the travel timer started. -/
def State.directed (s : State) (v : ValveId) (p : ValveCommand) : Valve :=
  if (s.valve v).commanded = p then s.valve v
  else { s.valve v with commanded := p, confirmed := false, deadline := some (later s.clock (s.classTimeout v)) }

theorem valve_commandValve_self {s : State} {v : ValveId} (there : s.valved v) (p : ValveCommand) :
    (s.commandValve v p).valve v = s.directed v p := by
  unfold State.commandValve State.directed
  split
  · rfl
  · rw [State.sendValve, valve_placeCommand, valve_updValve_self there]

theorem directed_commanded (s : State) (v : ValveId) (p : ValveCommand) : (s.directed v p).commanded = p := by
  unfold State.directed
  split
  · assumption
  · rfl

theorem directed_congr {s t : State} (frame : BallastFrame s t) {v : ValveId} (same : t.valve v = s.valve v)
    (p : ValveCommand) : t.directed v p = s.directed v p := by
  have timeout : t.classTimeout v = s.classTimeout v := by
    cases v <;> simp only [State.classTimeout, State.hull, frame.startUp]
  have clock : t.clock = s.clock := by rw [frame.rest]
  unfold State.directed
  rw [same, timeout, clock]

theorem valve_afterCommands {s : State} {v : ValveId} {vs : List ValveId} (there : s.valved v) (named : v ∈ vs)
    (p : ValveCommand) : (s.afterCommands false p vs).valve v = s.directed v p := by
  have sent (x : Valve) (d : Option Second) : (if v ∈ vs ∧ (false = true ∨ x.commanded ≠ p) then
      { x with commanded := p, confirmed := false, deadline := d } else x) =
      if x.commanded = p then x else { x with commanded := p, confirmed := false, deadline := d } := by
    by_cases same : x.commanded = p <;> simp [same, named]
  cases v with
  | tank n =>
    rw [State.valve, afterCommands_tankValves, nth1_eq_some_getD default there, Option.map_some, Option.getD_some, sent]; rfl
  | suction n =>
    rw [State.valve, afterCommands_suctionValves, nth1_eq_some_getD default there, Option.map_some, Option.getD_some, sent]; rfl
  | overboard n =>
    rw [State.valve, afterCommands_overboardValves, nth1_eq_some_getD default there, Option.map_some, Option.getD_some, sent]; rfl

theorem placed_cons (s : State) (p : ValveCommand) (v : ValveId) (vs : List ValveId) (l : List FieldCommand) :
    s.placed false p (v :: vs) l = s.placed false p vs (s.placed false p [v] l) := by
  unfold State.placed
  by_cases same : (s.valve v).commanded = p <;> simp [same]

theorem placed_congr {s t : State} {p : ValveCommand} {vs : List ValveId} (l : List FieldCommand)
    (same : ∀ v ∈ vs, (t.valve v).commanded = (s.valve v).commanded) : t.placed false p vs l = s.placed false p vs l := by
  unfold State.placed
  rw [List.filter_congr fun v mem => by rw [same v mem]]

theorem outbound_commandValve (s : State) (v : ValveId) (p : ValveCommand) :
    (s.commandValve v p).field.outbound = s.placed false p [v] s.field.outbound := by
  unfold State.commandValve State.placed
  by_cases same : (s.valve v).commanded = p
  · simp [same]
  · rw [if_neg same]
    simp only [Bool.false_or, List.filter_cons, decide_eq_true same, if_true, List.filter_nil, List.foldl_cons, List.foldl_nil]
    cases v <;> rfl

theorem commandValve_kept (v : ValveId) (p : ValveCommand) (s : State) : (s.commandValve v p).ballast.kept = s.ballast.kept := by
  unfold State.commandValve
  split
  · rfl
  · simp [State.sendValve, State.placeCommand]

/-! ### Entry into LINEUP -/

/-- The valves of a lineup. -/
def lineup (g n : Nat) : List ValveId := [.suction g, .overboard g, .tank n]

/-- A station enters LINEUP with the three valves commanded OPEN and the tank valve its own (R103). -/
theorem enterLineup_spec {s : State} {g n : Nat} (there : s.grouped g) (valved : ∀ v ∈ lineup g n, s.valved v) :
    (s.enterLineup g n).ballast.orders = s.ballast.orders ∧ (s.enterLineup g n).ballast.queues = s.ballast.queues ∧
      (s.enterLineup g n).ballast.state = s.ballast.state ∧ (s.enterLineup g n).ballast.kept = s.ballast.kept ∧
      ((s.enterLineup g n).station g = { s.station g with state := .lineup } ∧
        ∀ h, h ≠ g → (s.enterLineup g n).station h = s.station h) ∧
      ((∀ v ∈ [ValveId.suction g, .overboard g], (s.enterLineup g n).valve v = s.directed v .opened) ∧
        (s.enterLineup g n).valve (.tank n) = { s.directed (.tank n) .opened with owner := some g } ∧
        ∀ v, v ∉ lineup g n → (s.enterLineup g n).valve v = s.valve v) ∧
      (s.enterLineup g n).field.outbound = s.placed false .opened (lineup g n) s.field.outbound := by
  obtain ⟨suction, overboard, tank⟩ : s.valved (.suction g) ∧ s.valved (.overboard g) ∧ s.valved (.tank n) :=
    ⟨valved _ (by simp [lineup]), valved _ (by simp [lineup]), valved _ (by simp [lineup])⟩
  have enters := updStation_frame g ({ · with state := .lineup }) s
  have begun (v : ValveId) := valve_updStation s g ({ · with state := .lineup }) v
  have first := commandValve_commanded (.suction g) .opened (s.updStation g ({ · with state := .lineup }))
  have second := commandValve_commanded (.overboard g) .opened (State.commandValve (.suction g) .opened
    (s.updStation g ({ · with state := .lineup })))
  have third := commandValve_commanded (.tank n) .opened (State.commandValve (.overboard g) .opened
    (State.commandValve (.suction g) .opened (s.updStation g ({ · with state := .lineup }))))
  have commands := (first.trans second).trans third
  have valve1 {v : ValveId} (other : v ≠ .suction g) := valve_commandValve_ne other (s := s.updStation g ({ · with state := .lineup }))
    .opened
  have valve2 {v : ValveId} (other : v ≠ .overboard g) := valve_commandValve_ne other (s := State.commandValve (.suction g) .opened
    (s.updStation g ({ · with state := .lineup }))) .opened
  have valve3 {v : ValveId} (other : v ≠ .tank n) := valve_commandValve_ne other (s := State.commandValve (.overboard g) .opened
    (State.commandValve (.suction g) .opened (s.updStation g ({ · with state := .lineup })))) .opened
  have valve4 {v : ValveId} (other : v ≠ .tank n) : (s.enterLineup g n).valve v = _ := valve_updValve_ne other _
  refine ⟨commands.orders, commands.queues, ?_, ?_, ⟨(commands.station g).trans (station_updStation_self there _), fun h other =>
    (commands.station h).trans (station_updStation_ne other _)⟩, ⟨fun v line => ?_, ?_, fun v other => ?_⟩, ?_⟩
  · show (State.commandValve _ _ _).ballast.state = _
    rw [commandValve_state, commandValve_state, commandValve_state]; rfl
  · show (State.commandValve _ _ _).ballast.kept = _
    rw [commandValve_kept, commandValve_kept, commandValve_kept]; rfl
  · simp only [List.mem_cons, List.not_mem_nil, or_false] at line
    obtain rfl | rfl := line
    · rw [valve4 (by simp), valve3 (by simp), valve2 (by simp), valve_commandValve_self (enters.valved suction),
        directed_congr enters (begun _)]
    · rw [valve4 (by simp), valve3 (by simp), valve_commandValve_self ((enters.trans first.frame).valved overboard),
        directed_congr (enters.trans first.frame) ((valve1 (by simp)).trans (begun _))]
  · have before : State.valve _ (.tank n) = s.valve (.tank n) := (valve2 (by simp)).trans ((valve1 (by simp)).trans (begun _))
    have frame := (enters.trans first.frame).trans second.frame
    rw [← directed_congr frame before, ← valve_commandValve_self (frame.valved tank)]
    exact valve_updValve_self (((enters.trans first.frame).trans second.frame).trans third.frame |>.valved tank) _
  · simp only [lineup, List.mem_cons, List.not_mem_nil, or_false, not_or] at other
    obtain ⟨suction, overboard, tank⟩ := other
    rw [valve4 tank, valve3 tank, valve2 overboard, valve1 suction, begun]
  · show (State.commandValve _ _ _).field.outbound = _
    rw [outbound_commandValve, outbound_commandValve, outbound_commandValve, lineup, placed_cons s, placed_cons s]
    refine (placed_congr _ fun v mem => ?_).trans (congrArg _ ((placed_congr _ fun v mem => ?_).trans (congrArg _ ?_)))
    · obtain rfl := List.mem_singleton.1 mem
      rw [valve2 (by simp), valve1 (by simp), begun]
    · obtain rfl := List.mem_singleton.1 mem
      rw [valve1 (by simp), begun]
    · exact placed_congr _ fun v _ => by rw [begun]

end Sys2Proof.Machine
end

