-- ==== Sys2Proof/Proofs/Looks.lean ====
section
/-! PROOFS. Stations told of a cause look in turn (spec 06 R103): no look disturbs another's queue, line or tank, so that each has
looked at the state that stood, whatever the order among them. -/

namespace Sys2Proof.Machine

/-! ### One look -/

/-- What the look of a group's station makes of a valve. -/
def State.lookedValve (s : State) (g : Nat) (v : ValveId) : Valve :=
  match s.taken g with
  | none => s.valve v
  | some n =>
    if v = .tank n then { s.directed v .opened with owner := some g }
    else if v ∈ [ValveId.suction g, .overboard g] then s.directed v .opened
    else s.valve v

/-- What the look of a group's station makes of its record. -/
def State.looker (s : State) (g : Nat) : Station :=
  { s.station g with
    state := if (s.taken g).isSome then .lineup else .off, active := s.taken g
    doneFlag := (s.station g).doneFlag || !(s.foundMet g).isEmpty }

/-- A station that may look scans its queue and enters LINEUP with an order taken, and nothing else changes (R103). -/
structure LookOf (g : Nat) (s t : State) : Prop where
  frame : BallastFrame s t
  state : t.ballast.state = s.ballast.state
  kept : t.ballast.kept = s.ballast.kept
  station : t.station g = s.looker g
  stations : ∀ h, h ≠ g → t.station h = s.station h
  queue : t.queue g = s.left g
  queues : ∀ h, h ≠ g → t.queue h = s.queue h
  orders : ∀ k, t.order k = (s.scan g).order k
  valves : ∀ v, t.valve v = s.lookedValve g v
  outbound : t.field.outbound = (s.taken g).elim s.field.outbound fun n => s.placed false .opened (lineup g n) s.field.outbound

theorem mayLook_iff {s : State} {g : Nat} : s.mayLook g = true ↔
    s.ballast.state = .running ∧ (s.station g).state = .off ∧ (s.station g).closing = [] := decide_eq_true_iff

theorem look_of_not_mayLook {s : State} {g : Nat} (idle : s.mayLook g = false) : s.look g = s := by
  rw [State.look, idle]; rfl

theorem look_spec {s : State} {g : Nat} (there : s.grouped g) (may : s.mayLook g = true)
    (valved : ∀ n, s.taken g = some n → ∀ v ∈ lineup g n, s.valved v) : LookOf g s (s.look g) := by
  obtain ⟨-, off, -⟩ := mayLook_iff.1 may
  have scans := scan_frame g s
  have active : ((s.scan g).station g).active = s.taken g := by rw [station_scan_self there]; rfl
  have look : s.look g = (s.taken g).elim (s.scan g) fun n => (s.scan g).enterLineup g n := by
    rw [State.look, if_pos may, ← active]
    dsimp only
    split <;> rename_i here <;> rw [here] <;> rfl
  have state : (s.scan g).ballast.state = s.ballast.state := by rw [scan_eq]
  have kept : (s.scan g).ballast.kept = s.ballast.kept := by rw [scan_eq]
  have outbound : (s.scan g).field = s.field := by rw [scan_eq]
  cases takes : s.taken g with
  | none =>
    rw [look, takes, Option.elim_none]
    refine ⟨scans, state, kept, ?_, fun h other => station_scan_ne other s, queue_scan_self there,
      fun h other => queue_scan_ne other s, fun k => rfl, fun v => ?_, by rw [takes, outbound]; rfl⟩
    · rw [station_scan_self there, State.scanner, State.looker, takes, ← off]; rfl
    · rw [valve_scan, State.lookedValve, takes]
  | some n =>
    rw [look, takes, Option.elim_some]
    have lines := valved n takes
    obtain ⟨orders, queues, state', kept', ⟨mine, others⟩, ⟨line, tank, rest⟩, commands⟩ :=
      enterLineup_spec (scans.grouped there) fun v mem => scans.valved (lines v mem)
    have directed (v : ValveId) : (s.scan g).directed v .opened = s.directed v .opened :=
      directed_congr scans (valve_scan g s v) _
    refine ⟨scans.trans (enterLineup_frame g n _), state'.trans state, kept'.trans kept, ?_,
      fun h other => (others h other).trans (station_scan_ne other s), ?_, fun h other => ?_, fun k => ?_, fun v => ?_, ?_⟩
    · rw [mine, station_scan_self there, State.scanner, State.looker, takes]; rfl
    · rw [State.queue, queues]; exact queue_scan_self there
    · rw [State.queue, queues]; exact queue_scan_ne other s
    · rw [State.order, orders]; rfl
    · rw [State.lookedValve, takes]
      dsimp only
      split
      · rename_i here; rw [here, tank, directed]
      · split
        · rename_i mem; rw [line v mem, directed]
        · rename_i other mem
          rw [rest v (by simp only [List.mem_cons, List.not_mem_nil, or_false, not_or] at mem; simp [lineup, other, mem]),
            valve_scan]
    · rw [commands, outbound, takes, Option.elim_some]
      exact placed_congr _ fun v _ => by rw [valve_scan]

/-! ### What the finds of a scan depend on -/

/-- Two states agree on the orders of a group's queue as a scan reads them. -/
structure SameFinds (s t : State) (g : Nat) : Prop where
  queue : t.queue g = s.queue g
  eligible : ∀ k ∈ s.queue g, t.eligible k = s.eligible k
  order : ∀ k ∈ s.queue g, t.order k = s.order k
  met : ∀ k ∈ s.queue g, t.metInQueue k = s.metInQueue k

theorem takeWhile_congr {α : Type} {p q : α → Bool} {l : List α} (same : ∀ a ∈ l, p a = q a) : l.takeWhile p = l.takeWhile q := by
  induction l with
  | nil => rfl
  | cons a l ih =>
    rw [List.takeWhile_cons, List.takeWhile_cons, same a (.head _), ih fun b mem => same b (.tail _ mem)]

theorem SameFinds.passed {s t : State} {g : Nat} (same : SameFinds s t g) : t.passed (t.queue g) = s.passed (s.queue g) := by
  rw [same.queue]
  exact takeWhile_congr fun k mem => by rw [same.eligible k mem]

theorem SameFinds.taken {s t : State} {g : Nat} (same : SameFinds s t g) : t.taken g = s.taken g := by
  rw [State.taken, same.queue]
  exact List.find?_congr same.eligible

theorem mem_queue_of_passed {s : State} {g k : Nat} (mem : k ∈ s.passed (s.queue g)) : k ∈ s.queue g :=
  (List.takeWhile_sublist _).subset mem

theorem SameFinds.foundMet {s t : State} {g : Nat} (same : SameFinds s t g) : t.foundMet g = s.foundMet g := by
  rw [State.foundMet, same.passed]
  exact List.filter_congr fun k mem => same.met k (mem_queue_of_passed mem)

theorem SameFinds.left {s t : State} {g : Nat} (same : SameFinds s t g) : t.left g = s.left g := by
  rw [State.left, State.left, State.behind, State.behind, same.passed, same.queue]
  congr 1
  exact List.filter_congr fun k mem => by rw [same.met k (mem_queue_of_passed mem)]

theorem SameFinds.scan {s t : State} {g : Nat} (same : SameFinds s t g) {k : Nat} (mem : k ∈ s.queue g) :
    (t.scan g).order k = (s.scan g).order k := by
  rw [order_scan, order_scan, same.foundMet, same.taken, same.order k mem]

end Sys2Proof.Machine
end

