-- ==== Sys2Proof/Proofs/LooksInTurn.lean ====
section
/-! PROOFS. The end of a step (spec 06 R92, R103): stations look one after another in any order, and each finds its own queue, line
and tank as they stood. -/

namespace Sys2Proof.Machine

/-! ### Records that looks need -/

/-- Every counted group has its records, every queued tank its valve, and no tank stands twice in the queues. -/
structure State.Ranked (s : State) : Prop where
  grouped : ∀ g, s.hasGroup g = true → s.grouped g
  suction : ∀ g, s.hasGroup g = true → s.valved (.suction g)
  overboard : ∀ g, s.hasGroup g = true → s.valved (.overboard g)
  tank : ∀ g, ∀ k ∈ s.queue g, s.valved (.tank k)
  nodup : ∀ g, (s.queue g).Nodup
  apart : ∀ g h k, k ∈ s.queue g → k ∈ s.queue h → g = h

/-- What a look commands is what the statement says that it commands. -/
theorem looks_of_reads {u t : State} {g : Nat} (ranked : u.Ranked) (group : u.hasGroup g = true) (station : t.station g = u.looker g)
    (queue : t.queue g = u.left g) (orders : ∀ k ∈ u.queue g, t.order k = (u.scan g).order k)
    (lines : ∀ v ∈ [ValveId.suction g, .overboard g], t.valve v = u.lookedValve g v)
    (tank : ∀ n, u.taken g = some n → t.valve (.tank n) = u.lookedValve g (.tank n)) : u.looks t g := by
  have there := ranked.grouped g group
  have active : (t.station g).active = u.taken g := by rw [station]; rfl
  obtain ⟨left, takes, done, found⟩ : u.scanned (u.scan g) g := by
    refine scanned_of_reads (ranked.nodup g) (queue_scan_self there) ?_ ?_ fun k => rfl <;>
      rw [station_scan_self there] <;> rfl
  rw [queue_scan_self there] at left
  rw [station_scan_self there] at takes done
  have passed {k : Nat} (mem : k ∈ u.passed (u.queue g)) : k ∈ u.queue g := mem_queue_of_passed mem
  refine ⟨⟨queue.trans left, active, by rw [station]; exact done, fun k o here => ?_⟩, ?_, fun none v line => ?_, fun k runs => ?_⟩
  · obtain ⟨first, second, third⟩ := found k o here
    refine ⟨fun mem => ?_, fun mem => ?_, fun mem => ?_⟩
    · rw [orders k (passed mem)]; exact first mem
    · rw [orders k (List.mem_of_find?_eq_some mem)]; exact second mem
    · rw [orders k (List.mem_of_mem_drop mem)]; exact third mem
  · rw [active]
    rw [station]; rfl
  · rw [lines v line, State.lookedValve, ← active, none]
  · have takes := active.symm.trans runs
    have directed {v : ValveId} (valved : u.valved v) (mem : v ∈ lineup g k) :
        (u.afterCommands false .opened (lineup g k)).valve v = u.directed v .opened := valve_afterCommands valved mem _
    refine ⟨?_, fun v line => ?_⟩
    · have valved := ranked.tank g k (List.mem_of_find?_eq_some takes)
      refine (tank k takes).trans ?_
      rw [State.lookedValve, takes]
      dsimp only
      rw [if_pos rfl, ← directed valved (by simp [lineup])]
      rfl
    · have valved : u.valved v := by
        simp only [List.mem_cons, List.not_mem_nil, or_false] at line
        obtain rfl | rfl := line
        · exact ranked.suction g group
        · exact ranked.overboard g group
      have mem : v ∈ lineup g k := by
        simp only [List.mem_cons, List.not_mem_nil, or_false] at line
        obtain rfl | rfl := line <;> simp [lineup]
      have other : v ≠ .tank k := by
        simp only [List.mem_cons, List.not_mem_nil, or_false] at line
        obtain rfl | rfl := line <;> simp
      refine (lines v line).trans ?_
      rw [State.lookedValve, takes]
      dsimp only
      rw [if_neg other, if_pos line, ← directed valved mem]
      rfl

/-! ### Looks in turn -/

/-- From `u` to `t` the stations of some groups have looked one after another, each at `u`. -/
structure Looked (u t : State) (gs : List Nat) : Prop where
  frame : BallastFrame u t
  state : t.ballast.state = u.ballast.state
  kept : t.ballast.kept = u.ballast.kept
  looker : ∀ g ∈ gs, t.station g = u.looker g
  left : ∀ g ∈ gs, t.queue g = u.left g
  stations : ∀ g, g ∉ gs → t.station g = u.station g
  queues : ∀ g, g ∉ gs → t.queue g = u.queue g
  scans : ∀ g ∈ gs, ∀ k ∈ u.queue g, t.order k = (u.scan g).order k
  orders : ∀ k, (∀ g ∈ gs, k ∉ u.queue g) → t.order k = u.order k
  lines : ∀ g ∈ gs, ∀ v ∈ [ValveId.suction g, .overboard g], t.valve v = u.lookedValve g v
  rests : ∀ g, g ∉ gs → ∀ v ∈ [ValveId.suction g, .overboard g], t.valve v = u.valve v
  takes : ∀ g ∈ gs, ∀ n, u.taken g = some n → t.valve (.tank n) = u.lookedValve g (.tank n)
  tanks : ∀ k, (∀ g ∈ gs, u.taken g ≠ some k) → t.valve (.tank k) = u.valve (.tank k)
  outbound : t.field.outbound = gs.foldl (fun l g => (u.taken g).elim l fun k => u.placed false .opened (lineup g k) l)
    u.field.outbound

/-- Before any station has looked a free choice may have been drawn. -/
theorem Looked.none (u : State) (n : Nat) : Looked u { u with draws := n } [] where
  frame := .draw u n
  state := rfl
  kept := rfl
  looker _ mem := absurd mem List.not_mem_nil
  left _ mem := absurd mem List.not_mem_nil
  stations _ _ := rfl
  queues _ _ := rfl
  scans _ mem := absurd mem List.not_mem_nil
  orders _ _ := rfl
  lines _ mem := absurd mem List.not_mem_nil
  rests _ _ v _ := by cases v <;> rfl
  takes _ mem := absurd mem List.not_mem_nil
  tanks _ _ := rfl
  outbound := rfl

theorem mem_queue_of_taken {s : State} {g k : Nat} (takes : s.taken g = some k) : k ∈ s.queue g := List.mem_of_find?_eq_some takes

section
variable {u t : State} {gs : List Nat} {g : Nat} (ranked : u.Ranked) (looked : Looked u t gs) (fresh : g ∉ gs)
include ranked looked fresh

theorem Looked.tank_of_fresh {k : Nat} (mem : k ∈ u.queue g) : t.valve (.tank k) = u.valve (.tank k) :=
  looked.tanks k fun h done takes => fresh (ranked.apart g h k mem (mem_queue_of_taken takes) ▸ done)

/-- A station that has not looked yet finds what it would have found at first. -/
theorem Looked.sameFinds : SameFinds u t g := by
  have order (k : Nat) (mem : k ∈ u.queue g) : t.order k = u.order k :=
    looked.orders k fun h done mem' => fresh (ranked.apart g h k mem mem' ▸ done)
  have tank (k : Nat) : t.tank k = u.tank k := by rw [looked.frame.rest]; rfl
  have engine : t.engine = u.engine := by rw [looked.frame.rest]
  refine ⟨looked.queues g fresh, fun k mem => ?_, order, fun k mem => ?_⟩
  · simp only [State.eligible, order k mem, tank, looked.tank_of_fresh ranked fresh mem, engine, looked.frame.startUp]
  · simp only [State.metInQueue, order k mem, tank]

omit ranked in
theorem Looked.mayLook : t.mayLook g = u.mayLook g := by
  rw [State.mayLook, State.mayLook, looked.state, looked.stations g fresh]

/-- The look of one more station. -/
theorem Looked.look (group : u.hasGroup g = true) (may : u.mayLook g = true) : Looked u (t.look g) (gs ++ [g]) := by
  have same := looked.sameFinds ranked fresh
  have valved : ∀ n, t.taken g = some n → ∀ v ∈ lineup g n, t.valved v := by
    intro n takes v mem
    simp only [lineup, List.mem_cons, List.not_mem_nil, or_false] at mem
    obtain rfl | rfl | rfl := mem
    · exact looked.frame.valved (ranked.suction g group)
    · exact looked.frame.valved (ranked.overboard g group)
    · exact looked.frame.valved (ranked.tank g n (mem_queue_of_taken (same.taken ▸ takes)))
  have one := look_spec (looked.frame.grouped (ranked.grouped g group))
    ((looked.mayLook fresh).trans may) valved
  have notMe {h : Nat} (done : h ∈ gs) : h ≠ g := fun here => fresh (here ▸ done)
  have mine {v : ValveId} (before : t.valve v = u.valve v) : (t.look g).valve v = u.lookedValve g v := by
    rw [one.valves, State.lookedValve, State.lookedValve, same.taken, directed_congr looked.frame before, before]
  have others {v : ValveId} (line : v ∉ [ValveId.suction g, .overboard g]) (untaken : ∀ n, u.taken g = some n → v ≠ .tank n) :
      (t.look g).valve v = t.valve v := by
    rw [one.valves, State.lookedValve, same.taken]
    split
    · rfl
    · rename_i n takes; rw [if_neg (untaken n takes), if_neg line]
  have split {h : Nat} : h ∈ gs ++ [g] ↔ h ∈ gs ∨ h = g := by simp
  have line {h : Nat} (other : h ≠ g) {v : ValveId} (mem : v ∈ [ValveId.suction h, .overboard h]) :
      (t.look g).valve v = t.valve v := by
    simp only [List.mem_cons, List.not_mem_nil, or_false] at mem
    obtain rfl | rfl := mem <;> exact others (by simp [other]) (by simp)
  have order {k : Nat} (absent : k ∉ u.queue g) : (t.look g).order k = t.order k := by
    rw [one.orders]
    refine order_scan_other (fun found => absent ?_) fun takes => absent (mem_queue_of_taken (same.taken ▸ takes))
    rw [same.foundMet] at found
    exact mem_queue_iff.2 (.inl found)
  refine ⟨looked.frame.trans one.frame, one.state.trans looked.state, one.kept.trans looked.kept, fun h mem => ?_, fun h mem => ?_,
    fun h absent => ?_, fun h absent => ?_, fun h mem k queued => ?_, fun k absent => ?_, fun h mem v on => ?_,
    fun h absent v on => ?_, fun h mem n takes => ?_, fun k absent => ?_, ?_⟩
  · obtain done | rfl := split.1 mem
    · rw [one.stations h (notMe done), looked.looker h done]
    · rw [one.station, State.looker, State.looker, looked.stations _ fresh, same.taken, same.foundMet]
  · obtain done | rfl := split.1 mem
    · rw [one.queues h (notMe done), looked.left h done]
    · rw [one.queue, same.left]
  · rw [split, not_or] at absent
    rw [one.stations h absent.2, looked.stations h absent.1]
  · rw [split, not_or] at absent
    rw [one.queues h absent.2, looked.queues h absent.1]
  · obtain done | rfl := split.1 mem
    · rw [order fun here => notMe done (ranked.apart h g k queued here), looked.scans h done k queued]
    · rw [one.orders, same.scan queued]
  · rw [order (absent g (split.2 (.inr rfl))), looked.orders k fun h done => absent h (split.2 (.inl done))]
  · obtain done | rfl := split.1 mem
    · rw [line (notMe done) on, looked.lines h done v on]
    · exact mine (looked.rests _ fresh v on)
  · rw [split, not_or] at absent
    rw [line absent.2 on, looked.rests h absent.1 v on]
  · obtain done | rfl := split.1 mem
    · rw [others (by simp) fun m takes' same => ?_, looked.takes h done n takes]
      obtain rfl := ValveId.tank.inj same
      exact notMe done (ranked.apart h g n (mem_queue_of_taken takes) (mem_queue_of_taken takes'))
    · exact mine (looked.tank_of_fresh ranked fresh (mem_queue_of_taken takes))
  · rw [others (by simp) fun n takes same => absent g (split.2 (.inr rfl)) (by rw [takes, ValveId.tank.inj same]),
      looked.tanks k fun h done => absent h (split.2 (.inl done))]
  · rw [one.outbound, same.taken, List.foldl_append, ← looked.outbound, List.foldl_cons, List.foldl_nil]
    cases takes : u.taken g with
    | none => rfl
    | some n =>
      refine placed_congr _ fun v mem => ?_
      simp only [lineup, List.mem_cons, List.not_mem_nil, or_false] at mem
      obtain rfl | rfl | rfl := mem
      · rw [looked.rests g fresh _ (by simp)]
      · rw [looked.rests g fresh _ (by simp)]
      · rw [looked.tank_of_fresh ranked fresh (mem_queue_of_taken takes)]

end

/-- Stations told in any order: those that may look have looked. -/
theorem Looked.foldl {u : State} (ranked : u.Ranked) {l : List Nat} (counted : ∀ g ∈ l, u.hasGroup g = true) (nodup : l.Nodup)
    {t : State} {gs : List Nat} (looked : Looked u t gs) (fresh : ∀ g ∈ l, g ∉ gs) :
    Looked u (l.foldl (fun s g => s.look g) t) (gs ++ l.filter u.mayLook) := by
  induction l generalizing t gs with
  | nil => simpa using looked
  | cons g l ih =>
    obtain ⟨first, rest⟩ := List.forall_mem_cons.1 counted
    obtain ⟨new, nodup⟩ := List.nodup_cons.1 nodup
    obtain ⟨head, tail⟩ := List.forall_mem_cons.1 fresh
    rw [List.foldl_cons]
    by_cases may : u.mayLook g = true
    · have next := ih rest nodup (looked.look ranked head first may) fun h mem => by
        simp only [List.mem_append, List.mem_singleton, not_or]
        exact ⟨tail h mem, fun here => new (here ▸ mem)⟩
      rw [List.filter_cons_of_pos may]
      simpa using next
    · have idle := look_of_not_mayLook ((looked.mayLook head).trans (Bool.eq_false_iff.2 may))
      rw [List.filter_cons_of_neg may, idle]
      exact ih rest nodup looked tail

/-! ### The end of a step -/

/-- The state after looks in turn is the statement's: each station told of a cause that may look has looked, and nothing else has
changed. -/
theorem Looked.answered {u t : State} (ranked : u.Ranked) {gs : List Nat} (looked : Looked u t gs) (nodup : gs.Nodup)
    {told : Nat → Prop} (members : ∀ g, g ∈ gs ↔ u.hasGroup g = true ∧ u.mayLook g = true ∧ told g) (none : gs = [] → t = u) :
    u.answered t told := by
  have looking (g : Nat) : (u.hasGroup g = true ∧ u.ballast.state = .running ∧ (u.station g).state = .off ∧
      (u.station g).closing = [] ∧ told g) ↔ g ∈ gs := by
    rw [members, mayLook_iff, and_assoc, and_assoc]
  have active {g : Nat} (mem : g ∈ gs) : (t.station g).active = u.taken g := by rw [looked.looker g mem]; rfl
  unfold State.answered
  simp only [looking]
  refine ⟨looked.frame.onlyBallast, looked.state, looked.kept, fun g mem => ?_, fun g _ absent => ?_, looked.orders,
    fun k absent => ?_, ⟨gs, nodup, fun g => Iff.rfl, ?_⟩, fun nobody => none (List.eq_nil_iff_forall_not_mem.2 nobody)⟩
  · exact looks_of_reads ranked ((members g).1 mem).1 (looked.looker g mem) (looked.left g mem) (looked.scans g mem)
      (looked.lines g mem) (looked.takes g mem)
  · exact ⟨looked.stations g absent, looked.queues g absent, looked.rests g absent _ (by simp), looked.rests g absent _ (by simp)⟩
  · exact looked.tanks k fun g mem => active mem ▸ absent g mem
  · rw [looked.outbound]
    exact List.foldl_ext _ _ _ fun l g mem => by rw [active mem]; rfl

theorem groupNumbers_nodup (s : State) : s.groupNumbers.Nodup := List.nodup_range'

/-- A cause for a station to look, at the end of a step that began in `before` (R103). -/
def State.cause (s before : State) (all : Bool) (g : Nat) : Bool :=
  all || joined before s g || ownershipEnded before s || enteredOff before s g

theorem settle_eq (all : Bool) (s before : State) : s.settle all before =
    unordered State.lookActs State.look (s.haltTest.groupNumbers.filter (s.haltTest.cause before all)) s.haltTest := rfl

theorem looks_of_nobody {s : State} {l : List Nat} (nobody : ∀ g ∈ l, s.mayLook g = false) :
    l.foldl (fun s g => s.look g) s = s := by
  induction l with
  | nil => rfl
  | cons g l ih =>
    obtain ⟨first, rest⟩ := List.forall_mem_cons.1 nobody
    rw [List.foldl_cons, look_of_not_mayLook first, ih rest]

/-- Where no station may look, nobody draws an order of looks and nothing changes. -/
theorem unordered_looks_of_nobody {s : State} {l : List Nat} (nobody : ∀ g ∈ l, s.mayLook g = false) :
    unordered State.lookActs State.look l s = s := by
  have idle : l.filter (State.lookActs · s) = [] :=
    List.filter_eq_nil_iff.2 fun g mem => by rw [State.lookActs, nobody g mem]; exact Bool.false_ne_true
  rw [unordered, idle, List.length_nil, if_pos (Nat.zero_le 1)]
  exact looks_of_nobody nobody

/-- The end of a step is the looks of the stations that have a cause (spec 06 R92, R103). -/
theorem settle_answered {s before : State} (all : Bool) (ready : s.ready = true) (ranked : s.haltTest.Ranked) {told : Nat → Prop}
    (causes : ∀ g, s.haltTest.hasGroup g = true → s.haltTest.mayLook g = true → (told g ↔ s.haltTest.cause before all g = true)) :
    s.haltTest.answered (s.settle all before) told := by
  have ready : s.haltTest.ready = true := by rw [haltTest_eq_afterRest]; exact ready
  have counted {g : Nat} : g ∈ s.haltTest.groupNumbers ↔ s.haltTest.hasGroup g = true := by
    rw [mem_groupNumbers, State.hasGroup, ready, Bool.true_and, decide_eq_true_iff]
  rw [settle_eq]
  generalize s.haltTest = u at *
  have numbers : (u.groupNumbers.filter (u.cause before all)).Nodup := (groupNumbers_nodup u).filter _
  have inTurn {l : List Nat} (perm : l.Perm (u.groupNumbers.filter (u.cause before all))) (n : Nat)
      (none : l.filter u.mayLook = [] → l.foldl (fun s g => s.look g) { u with draws := n } = u) :
      u.answered (l.foldl (fun s g => s.look g) { u with draws := n }) told := by
    have nodup : l.Nodup := perm.nodup_iff.2 numbers
    have looked := Looked.foldl ranked (fun g mem => counted.1 (List.mem_filter.1 (perm.mem_iff.1 mem)).1) nodup (Looked.none u n)
      fun g _ => List.not_mem_nil
    refine looked.answered ranked (nodup.filter _) (fun g => ?_) none
    rw [List.nil_append, List.mem_filter, perm.mem_iff, List.mem_filter, counted]
    constructor
    · exact fun ⟨⟨here, cause⟩, may⟩ => ⟨here, may, (causes g here may).2 cause⟩
    · exact fun ⟨here, may, tells⟩ => ⟨⟨here, (causes g here may).1 tells⟩, may⟩
  have nobody {l : List Nat} (idle : l.filter u.mayLook = []) : ∀ g ∈ l, u.mayLook g = false := fun g mem =>
    Bool.eq_false_iff.2 (List.filter_eq_nil_iff.1 idle g mem)
  by_cases idle : (u.groupNumbers.filter (u.cause before all)).filter u.mayLook = []
  · have stands := looks_of_nobody (nobody idle)
    rw [unordered_looks_of_nobody (nobody idle)]
    exact (congrArg (u.answered · told) stands).mp (inTurn (.refl _) u.draws fun _ => stands)
  · unfold unordered
    split
    · exact inTurn (.refl _) u.draws fun none => absurd none idle
    · refine inTurn (permute_perm _ _ _) _ fun none => absurd ?_ idle
      exact List.filter_eq_nil_iff.2 fun g mem => List.filter_eq_nil_iff.1 none g ((permute_perm _ _ _).mem_iff.2 mem)

end Sys2Proof.Machine
end

