-- ==== Sys2Proof/Proofs/StationsScan.lean ====
section
/-! PROOFS. O56: which order is eligible (spec 05 R81), and the scans of the OFF stations at a RUN (spec 06 R91, R103). -/

namespace Sys2Proof.Machine

/-! ### Eligible orders -/

/-- The stress-hold test is that some quantity not NORMAL stands on the side toward which discharging the tank moves it (R81). -/
theorem stressHolds_iff (s : State) (r : ResultSet) (k : Nat) :
    stressHolds s.startUp.profile r k = true ↔ s.worsened r (s.counts.holds + (k - 1)) (-1) (· ≠ .normal) := by
  simp only [stressHolds, influences, State.worsened, List.any_append, Bool.or_eq_true, List.any_flatten,
    List.any_eq_true, exists_mem_zipWith]
  simp [dischargeWorsens, coefficientAt, tankIndex, State.hull, State.counts]

theorem eligible_iff {s : State} {k : Nat} {o : Order} (here : s.order k = some o) :
    s.eligible k = true ↔ ((s.tank k).status = .fresh ∨ (s.tank k).status = .overrange) ∧ o.target < (s.tank k).current ∧
      (s.valve (.tank k)).owner = none ∧
      ∀ r, s.engine.live = some r → ¬s.worsened r (s.counts.holds + (k - 1)) (-1) (· ≠ .normal) := by
  unfold State.eligible
  cases live : s.engine.live with
  | none => simp [here]
  | some r => simp [here, ← stressHolds_iff, and_assoc]

/-! ### Records that looks need -/

theorem hasTank_of_order {s : State} (ready : s.ready = true) (records : s.RecordsOk) {k : Nat} {o : Order}
    (here : s.order k = some o) : s.hasTank k = true := by
  obtain ⟨-, -, -, shape⟩ := records.fits ready
  simp only [Sequencer.shape, List.cons.injEq, and_true] at shape
  have range := order_in_range here
  rw [shape.1] at range
  simp [State.hasTank, ready, range]

theorem ranked_of_queuesOk {s : State} (ready : s.ready = true) (records : s.RecordsOk) (queues : s.QueuesOk) : s.Ranked where
  grouped _ group := grouped_of_hasGroup ready records group
  suction _ group := valved_of_hasValve ready records (v := .suction _) group
  overboard _ group := valved_of_hasValve ready records (v := .overboard _) group
  tank g k mem := by
    obtain ⟨o, here, -⟩ := queues.2.1 g k mem
    exact valved_of_hasValve ready records (v := .tank k) (hasTank_of_order ready records here)
  nodup := queues.1
  apart g h k mem mem' := by
    obtain ⟨o, here, -, group⟩ := queues.2.1 g k mem
    obtain ⟨o', here', -, group'⟩ := queues.2.1 h k mem'
    rw [← group, ← group', Option.some.inj (here.symm.trans here')]

/-! ### RUN -/

theorem exec_run_idle {s : State} {h : ShipHead} (idle : s.shipIdle) (ready : s.ready = true) (keyless : h.key = 0) :
    exec (.run h) s = .next (s.runSequencer.replied 16 h .done []) := by
  show Host.Outcome.next (s.takeRequest 16 h _) = _
  rw [takeRequest_idle idle]
  simp only [State.actionRequest, loading_of_ready ready, State.keyless, if_pos keyless, State.unlessFault, ready, if_true,
    Bool.false_and, Bool.or_false, Bool.false_eq_true, if_false]
  rfl

/-- At a RUN every OFF station without a closing tank looks (R91, R103). -/
theorem runSequencer_answered {s : State} (ready : s.ready = true) (records : s.RecordsOk) (queues : s.QueuesOk)
    (other : s.ballast.state ≠ .running) :
    State.answered { s with ballast := { s.ballast with state := .running } } s.runSequencer fun _ => True := by
  have running : State.haltTest { s with ballast := { s.ballast with state := .running } } =
      { s with ballast := { s.ballast with state := .running } } := if_neg fun h => SequencerState.noConfusion h.1
  have ranked : State.Ranked { s with ballast := { s.ballast with state := .running } } := ranked_of_queuesOk ready records queues
  rw [State.runSequencer, if_neg other]
  have answer := settle_answered (s := { s with ballast := { s.ballast with state := .running } })
    (before := { s with ballast := { s.ballast with state := .running } }) true ready (running ▸ ranked) (told := fun _ => True)
    fun g _ _ => by simp [State.cause]
  rw [running] at answer
  exact answer

/-- A station that has taken an order stands in LINEUP with its three valves commanded OPEN and the tank valve its own (R103). -/
theorem looks_lineup {u t : State} {g k : Nat} (ranked : u.Ranked) (group : u.hasGroup g = true) (looks : u.looks t g)
    (active : (t.station g).active = some k) : (t.station g).state = .lineup ∧ (t.valve (.tank k)).owner = some g ∧
      (t.valve (.tank k)).commanded = .opened ∧ (t.valve (.suction g)).commanded = .opened ∧
      (t.valve (.overboard g)).commanded = .opened := by
  obtain ⟨⟨-, taken, -⟩, station, -, takes⟩ := looks
  obtain ⟨tank, line⟩ := takes k active
  have valved := ranked.tank g k (List.mem_of_find?_eq_some (taken.symm.trans active))
  have opened {v : ValveId} (valved : u.valved v) (mem : v ∈ lineup g k) :
      ((u.afterCommands false .opened (lineup g k)).valve v).commanded = .opened := by
    rw [valve_afterCommands valved mem, directed_commanded]
  refine ⟨by rw [station, active]; rfl, by rw [tank], by rw [tank]; exact opened valved (by simp [lineup]), ?_, ?_⟩
  · rw [line _ (by simp)]; exact opened (ranked.suction g group) (by simp [lineup])
  · rw [line _ (by simp)]; exact opened (ranked.overboard g group) (by simp [lineup])

theorem runScansEveryQueue {s : State} {h : ShipHead} (idle : s.shipIdle) (ready : s.ready = true) (keyless : h.key = 0)
    (other : s.ballast.state ≠ .running) (records : s.RecordsOk) (queues : s.QueuesOk) : ∃ t, exec (.run h) s = .next t ∧
      ∀ g, s.hasGroup g = true → (s.station g).state = .off → (s.station g).closing = [] → s.scanned t g ∧
        ((t.station g).active = none → (t.station g).state = .off) ∧
        ∀ k, (t.station g).active = some k → (t.station g).state = .lineup ∧ (t.valve (.tank k)).owner = some g ∧
          (t.valve (.tank k)).commanded = .opened ∧ (t.valve (.suction g)).commanded = .opened ∧
          (t.valve (.overboard g)).commanded = .opened := by
  refine ⟨_, exec_run_idle idle ready keyless, fun g group off rests => ?_⟩
  obtain ⟨-, -, -, looks, -⟩ := runSequencer_answered ready records queues other
  have mine := looks g ⟨group, rfl, off, rests, trivial⟩
  have ranked : State.Ranked { s with ballast := { s.ballast with state := .running } } := ranked_of_queuesOk ready records queues
  have ⟨scans, station, _⟩ := mine
  refine ⟨scans, fun idle => ?_, fun k active => looks_lineup ranked group mine active⟩
  have idle : (s.runSequencer.station g).active = none := idle
  show (s.runSequencer.station g).state = .off
  rw [station, idle]; rfl

end Sys2Proof.Machine
end

