-- ==== Sys2Proof/Proofs/LocalReroute.lean ====
section
/-! PROOFS. O56: a station that goes to LOCAL (spec 05 R84, R85, spec 06 R112) is left as the statement computes it. -/

namespace Sys2Proof.Machine

/-! ### An order returned to the head of its queue -/

/-- An order back in its queue with a hold cause. -/
def Order.back (c : HoldCause) (o : Order) : Order := { o with state := .queued, holdCause := some c }

/-- The order of a station, where it runs one, and behind it its group's queue. -/
def State.walk (s : State) (g : Nat) : List Nat := (s.station g).active.toList ++ s.queue g

theorem returnOrder_rest (s : State) (g : Nat) (c : HoldCause) : s.returnOrder g c = { s with ballast := { s.ballast with
    orders := (s.returnOrder g c).ballast.orders, queues := (s.returnOrder g c).ballast.queues
    stations := (s.returnOrder g c).ballast.stations } } := by
  unfold State.returnOrder
  split <;> rfl

theorem returnOrder_orders (s : State) (g : Nat) (c : HoldCause) (n : Nat) : nth1 (s.returnOrder g c).ballast.orders n =
    if (s.station g).active = some n then (nth1 s.ballast.orders n).map (Option.map (Order.back c))
    else nth1 s.ballast.orders n := by
  unfold State.returnOrder
  split
  · rename_i k active
    simp only [State.updStation, State.setQueue, State.updOrder, nth1_modify1, active, Option.some.injEq, eq_comm (a := n)]
    rfl
  · rename_i idle; simp [idle]

theorem returnOrder_queues (s : State) (g : Nat) (c : HoldCause) (n : Nat) : nth1 (s.returnOrder g c).ballast.queues n =
    if n = g then (nth1 s.ballast.queues n).map fun _ => s.walk g else nth1 s.ballast.queues n := by
  unfold State.returnOrder State.walk
  split
  · rename_i k active
    simp only [State.updStation, State.setQueue, State.updOrder, nth1_modify1, active]
    rfl
  · rename_i idle
    split
    · rename_i here
      subst here
      rw [idle, State.queue]
      cases nth1 s.ballast.queues n <;> rfl
    · rfl

theorem returnOrder_stations (s : State) (g : Nat) (c : HoldCause) (n : Nat) : nth1 (s.returnOrder g c).ballast.stations n =
    if n = g then (nth1 s.ballast.stations n).map ({ · with active := none }) else nth1 s.ballast.stations n := by
  unfold State.returnOrder
  split
  · simp only [State.updStation, State.setQueue, State.updOrder, nth1_modify1]
  · rename_i idle
    split
    · rename_i here
      subst here
      rw [State.station] at idle
      cases record : nth1 s.ballast.stations n with
      | none => rfl
      | some st =>
        rw [record] at idle
        exact congrArg some (by rw [← show st.active = none from idle])
    · rfl

/-! ### The queue rerouted -/

/-- An order once its station has given it back, where it ran it, and once it has gone to another group, where there is one. -/
def State.rerouted (s : State) (g : Nat) (c : HoldCause) (k : Nat) (o : Order) : Order :=
  { o with
    state := if (s.station g).active = some k then .queued else o.state
    holdCause := if (s.station g).active = some k then some c else o.holdCause
    group := (s.movesTo g k).getD o.group }

theorem afterReroute_orders (s : State) (g : Nat) (c : HoldCause) (n : Nat) : nth1 (s.afterReroute g c).ballast.orders n =
    if n ∈ s.walk g then (nth1 s.ballast.orders n).map (Option.map (s.rerouted g c n)) else nth1 s.ballast.orders n := by
  refine (nth1_map_zipIdx _ _ n).trans ?_
  dsimp only
  by_cases mem : n ∈ s.walk g
  · rw [if_pos mem]
    exact congrArg (fun f => Option.map f (nth1 s.ballast.orders n)) (funext fun o => if_pos mem)
  · rw [if_neg mem]
    exact (congrArg (fun f => Option.map f (nth1 s.ballast.orders n)) (funext fun o => if_neg mem)).trans Option.map_id'

theorem afterReroute_queues (s : State) (g : Nat) (c : HoldCause) (n : Nat) : nth1 (s.afterReroute g c).ballast.queues n =
    (nth1 s.ballast.queues n).map fun q =>
      (if n = g then (s.walk g).filter fun k => decide (s.movesTo g k = none) else q) ++
        (s.walk g).filter fun k => decide (s.movesTo g k = some n) :=
  nth1_map_zipIdx _ _ n

/-- The order given back and the queue rerouted, whatever has become of stations and valves in between. -/
theorem reroute_returnOrder {s r : State} {g : Nat} {c : HoldCause} (there : s.grouped g)
    (orders : r.ballast.orders = (s.returnOrder g c).ballast.orders) (queues : r.ballast.queues = (s.returnOrder g c).ballast.queues)
    (routes : ∀ k, r.otherGroup g k = s.movesTo g k) :
    (r.reroute g).ballast.orders = (s.afterReroute g c).ballast.orders ∧
      (r.reroute g).ballast.queues = (s.afterReroute g c).ballast.queues := by
  have walk : r.queue g = s.walk g := by
    rw [State.queue, queues, returnOrder_queues, if_pos rfl, nth1_eq_some_getD [] ⟨there.1, there.2.1⟩]; rfl
  refine ⟨ext_nth1 fun n => ?_, ext_nth1 fun n => ?_⟩
  · rw [reroute_orders, orders, returnOrder_orders, afterReroute_orders, walk, routes]
    by_cases runs : (s.station g).active = some n
    · have mem : n ∈ s.walk g := List.mem_append_left _ (Option.mem_toList.2 runs)
      rw [if_pos mem, if_pos mem, if_pos runs]
      rcases nth1 s.ballast.orders n with _ | _ | o <;> simp [State.rerouted, runs, Order.regroup, Order.back]
    · rw [if_neg runs]
      rcases nth1 s.ballast.orders n with _ | _ | o <;> simp [State.rerouted, runs, Order.regroup]
  · rw [reroute_queues, queues, returnOrder_queues, afterReroute_queues, walk]
    have isNone (h : Option Nat) : h.isNone = decide (h = none) := by cases h <;> rfl
    simp only [routes]
    by_cases here : n = g
    · subst here
      cases nth1 s.ballast.queues n <;> simp [isNone]
    · simp only [if_neg here]

/-! ### LOCAL -/

theorem nth1_map {α β : Type} (l : List α) (f : α → β) (n : Nat) : nth1 (l.map f) n = (nth1 l n).map f := by
  cases n with
  | zero => rfl
  | succ n => exact List.getElem?_map

theorem mem_ownedTanks_iff {s : State} {g k : Nat} :
    k ∈ s.ownedTanks g ↔ (1 ≤ k ∧ k ≤ s.counts.tanks) ∧ (s.valve (.tank k)).owner = some g := by
  rw [State.ownedTanks, List.mem_filter, decide_eq_true_iff, State.tankNumbers, upTo, List.mem_range'_1, Nat.lt_one_add_iff]

theorem disown_ownedTanks {s t : State} {g : Nat} (lengths : s.ballast.tankValves.length = s.counts.tanks)
    (same : t.ballast.tankValves = s.ballast.tankValves) : (t.disown (s.ownedTanks g)).ballast.tankValves =
      s.ballast.tankValves.map fun x => if x.owner = some g then { x with owner := none, deadline := none } else x := by
  refine ext_nth1 fun n => ?_
  simp only [disown_valves, same, nth1_map, mem_ownedTanks_iff, ← lengths, State.valve]
  cases record : nth1 s.ballast.tankValves n with
  | none => simp
  | some x =>
    have range : 1 ≤ n ∧ n ≤ s.ballast.tankValves.length := by
      cases n with
      | zero => exact absurd record (by simp [nth1])
      | succ n => exact ⟨Nat.succ_pos n, (List.getElem?_eq_some_iff.1 record).1⟩
    simp only [range, Option.getD_some, Option.map_some, true_and, and_true]
    split <;> rfl

/-- States that differ in the Ballast Sequencer at most are the same where its parts are. -/
theorem eq_of_ballast {t u : State} (rest : u = { t with ballast := u.ballast }) (state : t.ballast.state = u.ballast.state)
    (orders : t.ballast.orders = u.ballast.orders) (queues : t.ballast.queues = u.ballast.queues)
    (stations : t.ballast.stations = u.ballast.stations) (tanks : t.ballast.tankValves = u.ballast.tankValves)
    (suction : t.ballast.suctionValves = u.ballast.suctionValves)
    (overboard : t.ballast.overboardValves = u.ballast.overboardValves) (kept : t.ballast.kept = u.ballast.kept) : t = u := by
  have same : t.ballast = u.ballast := by
    rw [show t.ballast = ⟨_, _, _, _, _, _, _, _⟩ from rfl, state, orders, queues, stations, tanks, suction, overboard, kept]
  rw [rest, ← same]

/-- A station as it goes to LOCAL: its order given back, nothing owned, deadline and watch cleared, the LOCAL flag SET. -/
def Station.toLocal (x : Station) : Station :=
  { x with
    state := .localControl, closing := [], deadline := none, lowSince := none, resuming := false
    localFlag := true }

/-- Orders returned and valves disowned, a station goes to LOCAL. -/
def State.localLine (s : State) (g : Nat) : State :=
  ((s.updValve (.suction g) ({ · with deadline := none })).updValve (.overboard g) ({ · with deadline := none })).updStation g
    Station.toLocal

theorem enterLocal_eq (s : State) (g : Nat) :
    s.enterLocal g = (((s.returnOrder g .localControl).disown (s.ownedTanks g)).localLine g).reroute g := rfl

/-- A station that goes to LOCAL at a switch report is left as the statement computes it (R112). -/
theorem switchReport_local {s : State} {g : Nat} (there : s.grouped g) (lengths : s.ballast.tankValves.length = s.counts.tanks)
    (other : (s.station g).state ≠ .localControl) : (s.switchReport g .localControl).haltTest = s.afterLocal g := by
  have switched : (s.updStation g ({ · with switch := .localControl })).station g = { s.station g with switch := .localControl } :=
    station_updStation_self there _
  have enters : s.switchReport g .localControl = (s.updStation g ({ · with switch := .localControl })).enterLocal g := by
    exact if_pos ⟨rfl, by rw [switched]; exact other⟩
  generalize start : s.updStation g ({ · with switch := .localControl }) = s' at switched enters
  have active : (s'.station g).active = (s.station g).active := by rw [switched]
  have orders : (s'.returnOrder g .localControl).ballast.orders = (s.returnOrder g .localControl).ballast.orders :=
    ext_nth1 fun n => by rw [returnOrder_orders, returnOrder_orders, active, ← start]; rfl
  have queues : (s'.returnOrder g .localControl).ballast.queues = (s.returnOrder g .localControl).ballast.queues :=
    ext_nth1 fun n => by rw [returnOrder_queues, returnOrder_queues, State.walk, active, ← start]; rfl
  have start' : s' = { s with ballast := { s.ballast with stations := s'.ballast.stations } } := by rw [← start]; rfl
  have stations : s'.ballast.stations = modify1 s.ballast.stations g ({ · with switch := .localControl }) := by rw [← start]; rfl
  have back := returnOrder_rest s' g .localControl
  have record := returnOrder_stations s' g .localControl
  have freed := disown_rest (s'.returnOrder g .localControl) (s'.ownedTanks g)
  have tanks := disown_ownedTanks (s := s') (g := g) (t := s'.returnOrder g .localControl)
    (by rw [start']; exact lengths) (by rw [back])
  rw [enters, haltTest_eq_afterRest, enterLocal_eq]
  generalize s'.returnOrder g .localControl = b at *
  generalize b.disown (s'.ownedTanks g) = d at *
  obtain ⟨orders', queues'⟩ : ((d.localLine g).reroute g).ballast.orders = (s.afterReroute g .localControl).ballast.orders ∧
      ((d.localLine g).reroute g).ballast.queues = (s.afterReroute g .localControl).ballast.queues := by
    refine reroute_returnOrder there ?_ ?_ fun k => ?_
    · rw [← orders, freed]; rfl
    · rw [← queues, freed]; rfl
    · rw [freed, back, start']; rfl
  have rest := reroute_rest (d.localLine g) g
  generalize (d.localLine g).reroute g = r at *
  refine congrArg State.afterRest (eq_of_ballast ?_ ?_ orders' queues' ?_ ?_ ?_ ?_ ?_)
  · rw [rest, freed, back, start']; rfl
  · rw [rest, freed, back, start']; rfl
  · refine ext_nth1 fun n => ?_
    have mine : r.ballast.stations = modify1 b.ballast.stations g Station.toLocal := by rw [rest, freed]; rfl
    rw [mine, nth1_modify1, record, stations, nth1_modify1]
    refine Eq.trans ?_ (nth1_modify1 s.ballast.stations g n _).symm
    split
    · rename_i here
      rw [Option.map_map, Option.map_map]; rfl
    · rfl
  · rw [rest]
    exact tanks.trans (by rw [start']; rfl)
  · rw [rest, freed, back, start']; rfl
  · rw [rest, freed, back, start']; rfl
  · rw [rest, freed, back, start']; rfl

end Sys2Proof.Machine
end

