-- ==== Sys2Proof/Proofs/LocalLooks.lean ====
section
/-! PROOFS. O56: the stations that gained an order, or for which a tank valve was released, look once a station has gone to LOCAL
(spec 05 R85, spec 06 R103, R112). -/

namespace Sys2Proof.Machine

theorem order_of_walk {s : State} (queues : s.QueuesOk) (runners : s.RunnersOk) {g k : Nat} (mem : k ∈ s.walk g) :
    ∃ o, s.order k = some o ∧ o.group = g ∧ (o.state = .active ↔ (s.station g).active = some k) := by
  obtain active | queued := List.mem_append.1 mem
  · rw [Option.mem_toList] at active
    obtain ⟨o, here, state, group⟩ := runners.1 g k active
    exact ⟨o, here, group, fun _ => active, fun _ => state⟩
  · obtain ⟨o, here, state, group⟩ := queues.2.1 g k queued
    refine ⟨o, here, group, fun active => ?_, fun runs => ?_⟩
    · rw [state] at active; exact OrderState.noConfusion active
    · obtain ⟨o', here', active, -⟩ := runners.1 g k runs
      rw [Option.some.inj (here.symm.trans here'), active] at state
      exact OrderState.noConfusion state

theorem walk_nodup {s : State} (queues : s.QueuesOk) (runners : s.RunnersOk) (g : Nat) : (s.walk g).Nodup := by
  unfold State.walk
  cases active : (s.station g).active with
  | none => exact queues.1 g
  | some k =>
    refine List.nodup_cons.2 ⟨fun mem => ?_, queues.1 g⟩
    obtain ⟨o, here, state, -⟩ := queues.2.1 g k mem
    obtain ⟨o', here', running, -⟩ := runners.1 g k active
    rw [Option.some.inj (here.symm.trans here'), running] at state
    exact OrderState.noConfusion state

/-! ### The queues after LOCAL -/

theorem afterLocal_queue (s : State) (g h : Nat) : (s.afterLocal g).queue h = ((nth1 s.ballast.queues h).map fun q =>
    (if h = g then (s.walk g).filter fun k => decide (s.movesTo g k = none) else q) ++
      (s.walk g).filter fun k => decide (s.movesTo g k = some h)).getD [] :=
  congrArg (·.getD []) (afterReroute_queues s g .localControl h)

theorem afterLocal_queue_of_grouped {s : State} {h : Nat} (there : s.grouped h) (g : Nat) : (s.afterLocal g).queue h =
    (if h = g then (s.walk g).filter fun k => decide (s.movesTo g k = none) else s.queue h) ++
      (s.walk g).filter fun k => decide (s.movesTo g k = some h) := by
  rw [afterLocal_queue, nth1_eq_some_getD [] ⟨there.1, there.2.1⟩]; rfl

/-- Each order of the walk stands in the queue that it has gone to, and every other order where it stood. -/
theorem mem_afterLocal_queue {s : State} {g h k : Nat} (mem : k ∈ (s.afterLocal g).queue h) :
    (k ∈ s.walk g ∧ (s.movesTo g k).getD g = h) ∨ (h ≠ g ∧ k ∈ s.queue h) := by
  rw [afterLocal_queue] at mem
  cases record : nth1 s.ballast.queues h with
  | none => rw [record] at mem; exact absurd mem List.not_mem_nil
  | some q =>
    rw [record, Option.map_some, Option.getD_some, List.mem_append] at mem
    obtain kept | gone := mem
    · split at kept
      · rename_i here
        obtain ⟨walked, stays⟩ := List.mem_filter.1 kept
        exact .inl ⟨walked, by rw [of_decide_eq_true stays, here]; rfl⟩
      · rename_i other
        exact .inr ⟨other, by rw [State.queue, record]; exact kept⟩
    · obtain ⟨walked, goes⟩ := List.mem_filter.1 gone
      exact .inl ⟨walked, by rw [of_decide_eq_true goes]; rfl⟩

theorem ranked_afterLocal {s : State} (ready : s.ready = true) (records : s.RecordsOk) (queues : s.QueuesOk) (runners : s.RunnersOk)
    {g : Nat} (frame : BallastFrame s (s.afterLocal g)) : (s.afterLocal g).Ranked := by
  have ranked := ranked_of_queuesOk ready records queues
  have elsewhere {h k : Nat} (walked : k ∈ s.walk g) (mem : k ∈ s.queue h) : h = g := by
    obtain ⟨o, here, group, -⟩ := order_of_walk queues runners walked
    obtain ⟨o', here', -, group'⟩ := queues.2.1 h k mem
    rw [← group, ← group', Option.some.inj (here.symm.trans here')]
  have own {h k : Nat} (mem : k ∈ (s.afterLocal g).queue h) : ∃ o, s.order k = some o := by
    obtain ⟨walked, -⟩ | ⟨-, stays⟩ := mem_afterLocal_queue mem
    · obtain ⟨o, here, -⟩ := order_of_walk queues runners walked
      exact ⟨o, here⟩
    · obtain ⟨o, here, -⟩ := queues.2.1 h k stays
      exact ⟨o, here⟩
  refine ⟨fun h group => frame.grouped (ranked.grouped h group), fun h group => frame.valved (ranked.suction h group),
    fun h group => frame.valved (ranked.overboard h group), fun h k mem => ?_, fun h => ?_, fun h h' k mem mem' => ?_⟩
  · obtain ⟨o, here⟩ := own mem
    exact frame.valved (valved_of_hasValve ready records (v := .tank k) (hasTank_of_order ready records here))
  · rw [afterLocal_queue]
    cases record : nth1 s.ballast.queues h with
    | none => exact List.nodup_nil
    | some q =>
      have queue : s.queue h = q := by rw [State.queue, record]; rfl
      rw [Option.map_some, Option.getD_some]
      refine List.nodup_append.2 ⟨?_, (walk_nodup queues runners g).filter _, fun k mem k' mem' same => ?_⟩
      · split
        · exact (walk_nodup queues runners g).filter _
        · exact queue ▸ queues.1 h
      · obtain ⟨walked, goes⟩ := List.mem_filter.1 (same ▸ mem')
        split at mem
        · have stays := of_decide_eq_true (List.mem_filter.1 mem).2
          rw [stays] at goes
          exact absurd (of_decide_eq_true goes) (by simp)
        · rename_i other
          exact other (elsewhere walked (queue ▸ mem))
  · obtain ⟨walked, here⟩ | ⟨other, stays⟩ := mem_afterLocal_queue mem <;>
      obtain ⟨walked', here'⟩ | ⟨other', stays'⟩ := mem_afterLocal_queue mem'
    · exact here.symm.trans here'
    · exact absurd (elsewhere walked stays') other'
    · exact absurd (elsewhere walked' stays) other
    · exact ranked.apart h h' k stays stays'

theorem afterLocal_order (s : State) (g k : Nat) : (s.afterLocal g).order k =
    if k ∈ s.walk g then (s.order k).map (s.rerouted g .localControl k) else s.order k := by
  refine (congrArg Option.join (afterReroute_orders s g .localControl k)).trans ?_
  rw [State.order]
  split
  · rcases nth1 s.ballast.orders k with _ | _ | o <;> rfl
  · rfl

/-! ### What LOCAL leaves of stations and valves -/

theorem afterLocal_station_self {s : State} {g : Nat} (there : s.grouped g) :
    ((s.afterLocal g).station g).state = .localControl := by
  show ((nth1 (modify1 s.ballast.stations g _) g).getD default).state = _
  rw [nth1_modify1, if_pos rfl, nth1_eq_some_getD default ⟨there.1, there.2.2⟩]; rfl

theorem afterLocal_station_ne {s : State} {g h : Nat} (other : h ≠ g) : (s.afterLocal g).station h = s.station h := by
  show (nth1 (modify1 s.ballast.stations g _) h).getD default = _
  rw [nth1_modify1, if_neg other]; rfl

theorem afterLocal_owner (s : State) (g k : Nat) : ((s.afterLocal g).valve (.tank k)).owner =
    if (s.valve (.tank k)).owner = some g then none else (s.valve (.tank k)).owner := by
  show Valve.owner ((nth1 (s.ballast.tankValves.map _) k).getD default) = _
  rw [nth1_map, State.valve]
  cases nth1 s.ballast.tankValves k with
  | none => rfl
  | some x =>
    rw [Option.map_some, Option.getD_some, Option.getD_some]
    split <;> rfl

/-- The causes for a look that a station gives by going to LOCAL: a tank valve released, or an order that has joined a queue. -/
theorem cause_afterLocal {s : State} {g : Nat} (there : s.grouped g)
    (lengths : s.ballast.tankValves.length = s.counts.tanks) (h : Nat) : (s.afterLocal g).cause s false h = true ↔
    (∃ k, (s.valve (.tank k)).owner = some g) ∨ ∃ k ∈ (s.afterLocal g).queue h, k ∉ s.queue h := by
  have off : enteredOff s (s.afterLocal g) h = false := decide_eq_false fun ⟨before, after⟩ => by
    by_cases here : h = g
    · rw [here, afterLocal_station_self there] at after
      exact StationState.noConfusion after
    · rw [afterLocal_station_ne here] at after
      exact before after
  have released : ownershipEnded s (s.afterLocal g) = true ↔ ∃ k, (s.valve (.tank k)).owner = some g := by
    simp only [ownershipEnded, List.any_eq_true, Bool.and_eq_true, afterLocal_owner, State.tankNumbers, upTo, List.mem_range'_1]
    constructor
    · rintro ⟨k, -, owned, free⟩
      refine ⟨k, by_contra fun other => ?_⟩
      rw [if_neg other] at free
      simp [Option.isNone_iff_eq_none.1 free] at owned
    · rintro ⟨k, own⟩
      obtain ⟨least, most⟩ := valved_of_owned own
      exact ⟨k, by omega, by rw [own]; rfl, by rw [if_pos own]; rfl⟩
  rw [State.cause, off, Bool.false_or, Bool.or_false, Bool.or_eq_true, released, or_comm]
  refine or_congr Iff.rfl ?_
  simp only [joined, List.any_eq_true, decide_eq_true_eq]

/-! ### LOCAL whole -/

/-- Where the sequencer is not RUNNING the end of a step is the test for HALTED alone. -/
theorem settle_of_not_running {s before : State} (all : Bool) (idle : s.haltTest.ballast.state ≠ .running) :
    s.settle all before = s.haltTest := by
  rw [settle_eq]
  exact unordered_looks_of_nobody fun g _ => decide_eq_false fun may => idle may.1

theorem localReroutes {s : State} {n : Octet} (up : s.linkUp = true) (records : s.RecordsOk) (group : s.hasGroup n.toNat = true)
    (remote : (s.station n.toNat).state ≠ .localControl) : ∃ t, exec (.localSwitch n .localControl) s = .next t ∧
      let g := n.toNat
      let walk := (s.station g).active.toList ++ s.queue g
      let other := s.movesTo g
      let u := s.heardField.afterLocal g
      (s.OrdersOk → (∀ k, (s.station g).active = some k → other k = none → (t.queue g).head? = some k) ∧
        u.answered t fun h => (∃ k, (s.valve (.tank k)).owner = some g) ∨ ∃ k ∈ u.queue h, k ∉ s.queue h) ∧
      (s.ballast.state ≠ .running →
        (∀ g', s.hasGroup g' = true → t.queue g' =
          (if g' = g then walk.filter fun k => decide (other k = none) else s.queue g') ++
            walk.filter fun k => decide (other k = some g')) ∧
        ∀ k o, s.hasTank k = true → s.order k = some o →
          let o' := if (s.station g).active = some k then { o with state := .queued, holdCause := some .localControl } else o
          (k ∉ walk → t.order k = some o) ∧
          (k ∈ walk → t.order k = some { o' with group := (other k).getD o.group })) := by
  obtain ⟨ready, -⟩ := counted_of_hasGroup group
  have run : exec (.localSwitch n .localControl) s =
      .next ((s.heardField.switchReport n.toNat .localControl).settle false s.heardField) := by
    refine congrArg Host.Outcome.next ((takeField_ready up ready).trans ?_)
    exact if_pos group
  refine ⟨_, run, ?_⟩
  generalize n.toNat = g at *
  have records' : s.heardField.RecordsOk := records
  have grouped {h : Nat} (group : s.hasGroup h = true) : s.heardField.grouped h := grouped_of_hasGroup ready records' group
  have lengths : s.heardField.ballast.tankValves.length = s.heardField.counts.tanks := by
    obtain ⟨-, -, -, shape⟩ := records.fits ready
    simp only [Sequencer.shape, List.cons.injEq] at shape
    exact shape.2.2.2.1
  have left := switchReport_local (grouped group) lengths remote
  have frame : BallastFrame s.heardField (s.heardField.afterLocal g) :=
    left ▸ (switchReport_frame g .localControl s.heardField).trans (haltTest_frame _)
  refine ⟨fun orders => ?_, fun idle => ?_⟩
  · obtain ⟨queues, runners, -⟩ := orders
    have ranked : (s.heardField.afterLocal g).Ranked :=
      ranked_afterLocal (s := s.heardField) ready records' queues runners frame
    have answer := settle_answered (s := s.heardField.switchReport g .localControl) (before := s.heardField) false
      (by rw [State.ready, (switchReport_frame g .localControl s.heardField).rest]; exact ready) (left ▸ ranked)
      (told := fun h => (∃ k, (s.valve (.tank k)).owner = some g) ∨ ∃ k ∈ (s.heardField.afterLocal g).queue h, k ∉ s.queue h)
      fun h _ _ => by rw [left]; exact (cause_afterLocal (grouped group) lengths h).symm
    rw [left] at answer
    refine ⟨fun k runs stays => ?_, answer⟩
    obtain ⟨-, -, -, -, rests, -⟩ := answer
    obtain ⟨-, queue, -⟩ := rests g group fun looks => by
      have off := looks.2.2.1
      rw [afterLocal_station_self (grouped group)] at off
      exact StationState.noConfusion off
    have stays : s.heardField.movesTo g k = none := stays
    have walk : s.heardField.walk g = k :: s.queue g := congrArg (fun x => Option.toList x ++ s.queue g) runs
    rw [queue, afterLocal_queue_of_grouped (grouped group), if_pos rfl, walk,
      List.filter_cons_of_pos (by simp [stays])]
    rfl
  · have stands : (s.heardField.switchReport g .localControl).settle false s.heardField = s.heardField.afterLocal g := by
      refine (settle_of_not_running false ?_).trans left
      rw [left]
      intro running
      have running : (if _ then SequencerState.halted else s.ballast.state) = .running := running
      split at running
      · exact SequencerState.noConfusion running
      · exact idle running
    rw [stands]
    refine ⟨fun h there => afterLocal_queue_of_grouped (grouped there) g, fun k o _ here => ?_⟩
    have order := afterLocal_order s.heardField g k
    refine ⟨fun absent => ?_, fun walked => ?_⟩
    · have absent : k ∉ s.heardField.walk g := absent
      rw [order, if_neg absent]; exact here
    · have walked : k ∈ s.heardField.walk g := walked
      rw [order, if_pos walked, show s.heardField.order k = some o from here, Option.map_some, State.rerouted]
      show some { o with
        state := if (s.station g).active = some k then .queued else o.state
        holdCause := if (s.station g).active = some k then some .localControl else o.holdCause
        group := (s.movesTo g k).getD o.group } = _
      split <;> rfl

/-- Settles O56: eligible orders, the scans at a RUN, and the queue that a station leaves when it goes to LOCAL. -/
theorem stationsScanAndRerouteTheirQueues : Obligations.StationsScanAndRerouteTheirQueues :=
  ⟨fun _ _ _ _ here => eligible_iff here, fun _ _ idle ready keyless other records queues =>
    runScansEveryQueue idle ready keyless other records queues, fun _ _ up records group remote =>
    localReroutes up records group remote⟩

end Sys2Proof.Machine
end

