-- ==== Sys2Proof/Proofs/OrderLooks.lean ====
section
/-! PROOFS. O41: what the looks after a PUT on ORDER can do (spec 05 R89, spec 06 R103): an order keeps its target, its group and its
front setting through any look, and one that is not met keeps living. -/

namespace Sys2Proof.Machine

/-! ### Orders through looks -/

/-- The orders that a look leaves are those that stood, or those that the scan leaves. -/
theorem orders_look (g : Nat) (s : State) :
    (s.look g).ballast.orders = s.ballast.orders ∨ (s.look g).ballast.orders = (s.scan g).ballast.orders := by
  unfold State.look
  split
  · refine .inr ?_
    dsimp only
    split
    · exact ((commandValve_commanded _ _ _).trans ((commandValve_commanded _ _ _).trans (commandValve_commanded _ _ _))).orders
    · rfl
  · exact .inl rfl

/-- What a look can make of an order: nothing, DONE where its tank stands at or below its target, or ACTIVE. -/
theorem order_look_cases (s : State) (g k : Nat) : (s.look g).order k = s.order k ∨
    (s.metInQueue k = true ∧ (s.look g).order k = (s.order k).map (Order.complete .met)) ∨
      (s.look g).order k = (s.order k).map Order.take := by
  obtain same | scanned := orders_look g s
  · exact .inl (by rw [State.order, same]; rfl)
  · have here : (s.look g).order k = (s.scan g).order k := by rw [State.order, scanned]; rfl
    rw [here]
    by_cases found : k ∈ s.foundMet g
    · exact .inr (.inl ⟨(List.mem_filter.1 found).2, order_scan_found found⟩)
    · by_cases takes : s.taken g = some k
      · exact .inr (.inr (order_scan_taken takes))
      · exact .inl (order_scan_other found takes)

/-- A tank has an order with a target, a group and a front setting, which lives where the tank stands above the target. -/
def State.aims (s : State) (k target group : Nat) (front : Bool) : Prop :=
  ∃ o, s.order k = some o ∧ o.target = target ∧ o.group = group ∧ o.front = front ∧
    (target < (s.tank k).current → o.state = .queued ∨ o.state = .active)

theorem aims_look {s : State} {k target group : Nat} {front : Bool} (aims : s.aims k target group front) (g : Nat) :
    (s.look g).aims k target group front := by
  obtain ⟨o, here, toward, filed, set, lives⟩ := aims
  have tank : (s.look g).tank k = s.tank k := by rw [(look_frame g s).rest]; rfl
  unfold State.aims
  rw [tank]
  obtain same | ⟨met, done⟩ | taken := order_look_cases s g k
  · exact ⟨o, same.trans here, toward, filed, set, lives⟩
  · refine ⟨o.complete .met, by rw [done, here]; rfl, toward, filed, set, fun above => ?_⟩
    rw [metInQueue_eq, here, Option.any_some, decide_eq_true_iff, toward] at met
    exact absurd above (Nat.not_lt.2 met)
  · exact ⟨o.take, by rw [taken, here]; rfl, toward, filed, set, fun _ => .inr rfl⟩

theorem aims_settle {s : State} {k target group : Nat} {front : Bool} (aims : s.aims k target group front) (all : Bool)
    (before : State) : (s.settle all before).aims k target group front := by
  have halted : s.haltTest.aims k target group front := by
    unfold State.haltTest
    split
    · exact aims
    · exact aims
  rw [settle_eq]
  exact unordered_keeps (fun t => t.aims k target group front) (fun _ h => h) (fun g _ _ h => aims_look h g) halted

/-! ### Steps that give no cause -/

theorem haltTest_of_settled {s : State} (settled : s.haltSettled) : s.haltTest = s := by
  refine if_neg fun ⟨halting, rests⟩ => settled ⟨halting, fun g least most => ?_⟩
  have still := List.all_eq_true.1 rests g (mem_groupNumbers.2 ⟨least, most⟩)
  simpa using still

/-- Where no group has a cause the end of a step is the test for HALTED alone. -/
theorem settle_of_no_cause {s before : State} {all : Bool} (quiet : ∀ g, s.haltTest.cause before all g = false) :
    s.settle all before = s.haltTest := by
  rw [settle_eq, List.filter_eq_nil_iff.2 fun g _ => by rw [quiet g]; exact Bool.false_ne_true]
  rfl

/-- No station has entered OFF and no tank valve has been released where none may have been. -/
theorem cause_eq_joined {s before : State} (owners : ∀ k g, (before.valve (.tank k)).owner = some g → (s.valve (.tank k)).owner ≠ none)
    (states : ∀ g, (before.station g).state ≠ .off → (s.station g).state ≠ .off) (g : Nat) :
    s.cause before false g = joined before s g := by
  have ended : ownershipEnded before s = false := by
    simp only [ownershipEnded, List.any_eq_false, Bool.and_eq_true]
    rintro k - ⟨owned, free⟩
    obtain ⟨h, own⟩ := Option.isSome_iff_exists.1 owned
    exact owners k h own (Option.isNone_iff_eq_none.1 free)
  have entered : enteredOff before s g = false := decide_eq_false fun ⟨on, off⟩ => states g on off
  rw [State.cause, ended, entered, Bool.false_or, Bool.or_false, Bool.or_false]

/-! ### The ship port does not touch the answer -/

/-- What the stations have answered stands where the ship port alone has changed since. -/
theorem answered_withShip {u t : State} {told : Nat → Prop} (answered : u.answered t told) (x : ShipPort) :
    State.answered { u with ship := x } { t with ship := x } told := by
  obtain ⟨only, state, kept, looks, rests, orders, tanks, outbound, nobody⟩ := answered
  refine ⟨?_, state, kept, looks, rests, orders, tanks, outbound, fun none => ?_⟩
  · unfold State.onlyBallast at only ⊢
    rw [only]
  · rw [nobody none]

end Sys2Proof.Machine
end

