-- ==== Sys2Proof/Proofs/OrderEntered.lean ====
section
/-! PROOFS. O41: an order filed by an entering PUT joins its group's queue, whose station looks where it may (spec 05 R78, R89). -/

namespace Sys2Proof.Machine

/-! ### An order filed -/

/-- The state once an order is filed in the queue of its group, at the head where it has the front setting (R78). -/
def State.filedIn (s : State) (k : Nat) (o : Order) : State :=
  (s.setOrder k (some o)).setQueue o.group (if o.front then k :: s.queue o.group else s.queue o.group ++ [k])

theorem filedIn_frame (s : State) (k : Nat) (o : Order) : BallastFrame s (s.filedIn k o) :=
  (setOrder_frame _ _ _).trans (setQueue_frame _ _ _)

theorem enterOrder_of_queued {s : State} {k : Nat} {ps : List Pair} (waits : (s.enteredOrder k ps).state = .queued) :
    s.enterOrder k ps = (s.filedIn k (s.enteredOrder k ps)).settle false s := if_pos waits

theorem enterOrder_of_done {s : State} {k : Nat} {ps : List Pair} (met : (s.enteredOrder k ps).state = .done) :
    s.enterOrder k ps = s.setOrder k (some (s.enteredOrder k ps)) := if_neg (by rw [met]; exact OrderState.noConfusion)

theorem queue_filedIn (s : State) (k : Nat) (o : Order) (g : Nat) : (s.filedIn k o).queue g = s.queue g ∨
    (g = o.group ∧ (s.filedIn k o).queue g = if o.front then k :: s.queue g else s.queue g ++ [k]) := by
  by_cases here : g = o.group
  · subst here
    rw [State.filedIn, State.queue, State.setQueue, nth1_modify1, if_pos rfl]
    have record : nth1 (s.setOrder k (some o)).ballast.queues o.group = nth1 s.ballast.queues o.group := rfl
    rw [record]
    cases there : nth1 s.ballast.queues o.group with
    | none => exact .inl (by rw [State.queue, there]; rfl)
    | some q => exact .inr ⟨rfl, rfl⟩
  · exact .inl (queue_setQueue_ne here _)

/-- The queues hold what they held, and the group's the tank's order besides. -/
theorem mem_queue_filedIn {s : State} {k j g : Nat} {o : Order} (mem : j ∈ (s.filedIn k o).queue g) :
    j ∈ s.queue g ∨ (j = k ∧ g = o.group) := by
  obtain same | ⟨here, joins⟩ := queue_filedIn s k o g
  · exact .inl (same ▸ mem)
  · rw [joins] at mem
    split at mem
    · exact (List.mem_cons.1 mem).symm.imp_right fun j => ⟨j, here⟩
    · simpa [here] using mem

theorem self_mem_queue_filedIn {s : State} {k : Nat} {o : Order} (there : s.grouped o.group) : k ∈ (s.filedIn k o).queue o.group := by
  rw [State.filedIn, queue_setQueue_self ((setOrder_frame _ _ _).grouped there)]
  split <;> simp

/-- The causes for a look that an order filed gives are those of the group that it joins. -/
theorem cause_filedIn (s : State) (k : Nat) (o : Order) (g : Nat) :
    (s.filedIn k o).cause s false g = joined s (s.filedIn k o) g :=
  cause_eq_joined (s := s.filedIn k o) (before := s) (fun _ _ own free => Option.some_ne_none _ (own.symm.trans free)) (fun _ => id) g

theorem group_of_joined {s : State} {k g : Nat} {o : Order} (joins : joined s (s.filedIn k o) g = true) : g = o.group := by
  simp only [joined, List.any_eq_true, decide_eq_true_eq] at joins
  obtain ⟨j, mem, absent⟩ := joins
  exact ((mem_queue_filedIn mem).resolve_left absent).2

/-! ### The looks -/

section
variable {s : State} {k : Nat} {o : Order} (settled : s.haltSettled)
include settled

theorem haltTest_filedIn : (s.filedIn k o).haltTest = s.filedIn k o := haltTest_of_settled (s := s.filedIn k o) settled

/-- Where the group's station may not look nothing else changes. -/
theorem settle_filedIn_idle (idle : s.mayLook o.group = false) : (s.filedIn k o).settle false s = s.filedIn k o := by
  rw [settle_eq, haltTest_filedIn settled]
  refine unordered_looks_of_nobody fun g mem => ?_
  have cause := (List.mem_filter.1 mem).2
  rw [cause_filedIn] at cause
  rw [group_of_joined cause]
  exact idle

/-- The group's station looks where it may (R89, R103). -/
theorem settle_filedIn_answered (ready : s.ready = true) (records : s.RecordsOk) (queues : s.QueuesOk) (tank : s.hasTank k = true)
    (fresh : ∀ o, s.order k = some o → o.state = .done) :
    (s.filedIn k o).answered ((s.filedIn k o).settle false s) (· = o.group) := by
  have absent (g : Nat) : k ∉ s.queue g := fun mem => by
    obtain ⟨x, here, waits, -⟩ := queues.2.1 g k mem
    rw [fresh x here] at waits
    exact OrderState.noConfusion waits
  have ranked := ranked_of_queuesOk ready records queues
  have frame := filedIn_frame s k o
  have ranked' : (s.filedIn k o).Ranked := by
    refine ⟨fun g group => frame.grouped (ranked.grouped g group), fun g group => frame.valved (ranked.suction g group),
      fun g group => frame.valved (ranked.overboard g group), fun g j mem => ?_, fun g => ?_, fun g h j mem mem' => ?_⟩
    · obtain was | ⟨rfl, -⟩ := mem_queue_filedIn mem
      · exact frame.valved (ranked.tank g j was)
      · exact frame.valved (valved_of_hasValve ready records (v := .tank j) tank)
    · obtain same | ⟨-, joins⟩ := queue_filedIn s k o g
      · exact same ▸ queues.1 g
      · have perm : ((s.filedIn k o).queue g).Perm (k :: s.queue g) := by
          rw [joins]
          split
          · exact .refl _
          · exact List.perm_append_comm
        exact perm.nodup_iff.2 (List.nodup_cons.2 ⟨absent g, queues.1 g⟩)
    · obtain was | ⟨rfl, here⟩ := mem_queue_filedIn mem <;> obtain was' | ⟨same, here'⟩ := mem_queue_filedIn mem'
      · exact ranked.apart g h j was was'
      · exact absurd (same ▸ was) (absent g)
      · exact absurd was' (absent h)
      · exact here.trans here'.symm
  have answer := settle_answered (s := s.filedIn k o) (before := s) false ready (by rw [haltTest_filedIn settled]; exact ranked')
    (told := (· = o.group)) fun g group _ => by
      rw [haltTest_filedIn settled] at group ⊢
      rw [cause_filedIn]
      refine ⟨fun here => ?_, group_of_joined⟩
      subst here
      simp only [joined, List.any_eq_true, decide_eq_true_eq]
      exact ⟨k, self_mem_queue_filedIn (ranked.grouped _ group), absent _⟩
  rw [haltTest_filedIn settled] at answer
  exact answer

end

end Sys2Proof.Machine
end

