-- ==== Sys2Proof/Proofs/OrderPuts.lean ====
section
/-! PROOFS. O41: the checks of a PUT on ORDER, the group that the Ballast Sequencer chooses, and the order that is entered (spec 05
R77 to R80, Table 5.3). -/

namespace Sys2Proof.Machine

/-! ### The answer begins to be sent -/

theorem exec_putOrder {s : State} {h : ShipHead} {ps : List Pair} (idle : s.shipIdle) (ready : s.ready = true)
    (purging : s.startUp.purgeRunning = false) (legal : countLegal ps = true) (table : h.table = 5)
    (tank : s.hasTank h.key.toNat = true) {a : Answer} (answer : s.putOrder h.key.toNat ps = a) :
    exec (.put h ps) s = .next (a.state.replied 2 h a.status a.payload) := by
  have code : Table.ofCode h.table.toNat = some .order := by rw [table]; rfl
  have taken : s.recordRequest h false State.putExists (fun t k s => s.putRecord t k ps) = a := by
    simp [State.recordRequest, loading_of_ready ready, code, purging, State.putExists, tank, State.putRecord, legal, answer]
  show Host.Outcome.next (s.takeRequest 2 h _) = _
  rw [takeRequest_idle idle, taken]
  rfl

section
variable {s : State} {k : Nat} {ps : List Pair}

theorem putOrder_of_fresh (fresh : ∀ o, s.order k = some o → o.state = .done) : s.putOrder k ps = s.putNewOrder k ps := by
  unfold State.putOrder
  split
  · rfl
  · rename_i o here; exact if_pos (fresh o here)

theorem putOrder_of_living {o : Order} (here : s.order k = some o) (lives : o.state ≠ .done) :
    s.putOrder k ps = s.putLivingOrder k o ps := by
  unfold State.putOrder
  rw [here]
  exact if_neg lives

/-- A field that a Put may not name is BAD FIELD, whatever the order. -/
theorem putOrder_unknown (unknown : ∃ p ∈ ps, p.ident ∉ orderFields) :
    ∃ p ∈ ps, p.ident ∉ orderFields ∧ s.putOrder k ps = ⟨.badField, [p], s⟩ := by
  have first (cs : List PutCheck) := firstFailure_unknownField cs unknown
  have new : ∃ p ∈ ps, p.ident ∉ orderFields ∧ s.putNewOrder k ps = ⟨.badField, [p], s⟩ := by
    obtain ⟨p, mem, bad, fails⟩ := first _
    exact ⟨p, mem, bad, takePut_refused fails⟩
  unfold State.putOrder
  split
  · exact new
  · split
    · exact new
    · obtain ⟨p, mem, bad, fails⟩ := first _
      exact ⟨p, mem, bad, takePut_refused fails⟩

/-! ### An entering Put -/

/-- The group and the front setting that a Put names may be taken (R78, R79). -/
def State.orderLegal (s : State) (k : Nat) (ps : List Pair) : Prop :=
  (∀ g, intAt ps 3 0 = some g → 1 ≤ g ∧ g ≤ s.counts.groups ∧ g.toNat ∈ s.permittedGroups k) ∧
    ∀ f, intAt ps 8 0 = some f → f = 0 ∨ f = 1

/-- A pair fails on its value. -/
def State.orderFails (s : State) (k : Nat) (p : Pair) : Bool :=
  valueFails (fieldId 3 0) (fun v => !inRange 1 s.counts.groups v || decide (v.toNat ∉ s.permittedGroups k)) p ||
    valueFails (fieldId 8 0) (fun v => !inRange 0 1 v) p

theorem orderLegal_iff : s.orderLegal k ps ↔ ∀ p ∈ effective ps, s.orderFails k p = false := by
  have groups (g : Int) : (!inRange 1 s.counts.groups g || decide (g.toNat ∉ s.permittedGroups k)) = false ↔
      1 ≤ g ∧ g ≤ s.counts.groups ∧ g.toNat ∈ s.permittedGroups k := by simp [inRange, and_assoc]
  have fronts (f : Int) : (!inRange 0 1 f) = false ↔ f = 0 ∨ f = 1 := by
    simp only [inRange, Bool.not_eq_false', decide_eq_true_eq]; omega
  have apart : (∀ p ∈ effective ps, s.orderFails k p = false) ↔ _ ∧ _ :=
    (forall₂_congr fun p _ => Bool.or_eq_false_iff).trans forall₂_and
  rw [apart, valueFails_eq_false, valueFails_eq_false, State.orderLegal]
  exact and_congr (forall₂_congr fun g _ => (groups g).symm) (forall₂_congr fun f _ => (fronts f).symm)

theorem putNewOrder_eq : s.putNewOrder k ps = s.takePut ps
    [unknownField orderFields, ⟨.badValue, s.orderFails k, (intAt ps 2 0).isNone⟩] (State.enterOrder k ps) (State.orderPairs k) := rfl

variable (known : ∀ p ∈ ps, p.ident ∈ orderFields)
include known

theorem putNewOrder_illegal (illegal : ¬s.orderLegal k ps) : ∃ p ∈ ps, s.putNewOrder k ps = ⟨.badValue, [p], s⟩ := by
  rw [orderLegal_iff] at illegal
  push Not at illegal
  obtain ⟨q, mem, fails⟩ := illegal
  obtain ⟨p, mem, -, first⟩ := firstFailure_of_fails (c := ⟨.badValue, s.orderFails k, (intAt ps 2 0).isNone⟩) []
    ⟨q, mem, by simpa using fails⟩
  refine ⟨p, mem_of_mem_effective mem, ?_⟩
  rw [putNewOrder_eq]
  exact takePut_refused ((firstFailure_knownFields _ known).trans first)

/-- An entering Put that fails on no value and names no target is refused without a pair. -/
theorem putNewOrder_targetless (legal : s.orderLegal k ps) (absent : intAt ps 2 0 = none) :
    s.putNewOrder k ps = ⟨.badValue, [], s⟩ := by
  have passed : (effective ps).find? (s.orderFails k) = none := List.find?_eq_none.2 fun p mem => by rw [orderLegal_iff.1 legal p mem]; exact Bool.false_ne_true
  rw [putNewOrder_eq]
  refine takePut_refused ((firstFailure_knownFields _ known).trans ?_)
  simp [firstFailure, passed, absent]

theorem putNewOrder_taken (legal : s.orderLegal k ps) {v : Int} (target : intAt ps 2 0 = some v) :
    s.putNewOrder k ps = ⟨.done, storedPairs ps ((s.enterOrder k ps).orderPairs k), s.enterOrder k ps⟩ := by
  rw [putNewOrder_eq]
  refine takePut_taken ((firstFailure_knownFields _ known).trans ?_)
  exact firstFailure_of_passes [] (orderLegal_iff.1 legal) (by rw [target]; rfl)

/-! ### An amending Put -/

theorem putLivingOrder_state (o : Order) (other : ∃ p ∈ ps, p.ident ≠ fieldId 2 0) :
    ∃ p ∈ ps, s.putLivingOrder k o ps = ⟨.state, [p], s⟩ := by
  obtain ⟨q, mem, other⟩ := other
  obtain ⟨r, mem, same⟩ := exists_effective mem
  obtain ⟨p, mem, -, first⟩ := firstFailure_of_fails (c := ⟨.state, fun p => decide (p.ident ≠ fieldId 2 0), false⟩) []
    ⟨r, mem, decide_eq_true (same ▸ other)⟩
  exact ⟨p, mem_of_mem_effective mem, takePut_refused ((firstFailure_knownFields _ known).trans first)⟩

omit known in
theorem putLivingOrder_taken (o : Order) (only : ∀ p ∈ ps, p.ident = fieldId 2 0) :
    s.putLivingOrder k o ps = ⟨.done, storedPairs ps ((s.amendOrder k o ps).orderPairs k), s.amendOrder k o ps⟩ := by
  refine takePut_taken ((firstFailure_knownFields _ fun p mem => ?_).trans ?_)
  · rw [only p mem]; exact .head _
  · exact firstFailure_of_passes [] (fun p mem => decide_eq_false (not_not.2 (only p (mem_of_mem_effective mem)))) rfl

end

/-! ### The group chosen -/

/-- A permitted group whose station is OFF (Table 5.3). -/
def State.offGroup (s : State) (k g : Nat) : Prop :=
  g ∈ s.permittedGroups k ∧ 1 ≤ g ∧ g ≤ s.counts.groups ∧ (s.station g).state = .off

theorem lowestOff_of_least {s : State} {k g : Nat} (off : s.offGroup k g) (least : ∀ h, s.offGroup k h → g ≤ h) :
    s.lowestOff (s.permittedGroups k) = some g := by
  obtain ⟨permitted, range, most, state⟩ := off
  unfold State.lowestOff State.groupNumbers upTo
  rw [List.find?_range'_eq_some]
  refine ⟨by simp [permitted, state], ?_, fun h low below => ?_⟩
  · rw [List.mem_range'_1]; omega
  · by_contra takes
    simp only [Bool.not_eq_true', decide_eq_false_iff_not, not_not] at takes
    exact absurd (least h ⟨takes.1, low, by omega, takes.2⟩) (by omega)

theorem lowestOff_of_none {s : State} {k : Nat} (none : ∀ h, ¬s.offGroup k h) : s.lowestOff (s.permittedGroups k) = .none := by
  refine List.find?_eq_none.2 fun h mem takes => ?_
  have ⟨least, most⟩ := mem_groupNumbers.1 mem
  obtain ⟨permitted, off⟩ := of_decide_eq_true takes
  exact none h ⟨permitted, least, most, off⟩

/-- The groups that a route permits, by its mode and the alternate group. -/
def permittedBy (primary : Nat) : RouteMode → Option Nat → List Nat
  | .primary, _ => [primary]
  | .alternate, a => a.toList
  | .primaryThenAlternate, a | .firstFree, a => primary :: a.toList

theorem permittedGroups_eq (s : State) (k : Nat) :
    s.permittedGroups k = permittedBy (s.tankData k).primary (s.tank k).route (s.tank k).alternate := by
  unfold State.permittedGroups
  cases (s.tank k).route <;> rfl

/-- A group is the choice at entry (Table 5.3). -/
def State.chooses (s : State) (k g : Nat) : RouteMode → Option Nat → Prop
  | .primary, _ => g = (s.tankData k).primary
  | .alternate, a => a = some g
  | .primaryThenAlternate, some a =>
    g = if (s.station (s.tankData k).primary).state = .tripped ∨ (s.station (s.tankData k).primary).state = .localControl then a
      else (s.tankData k).primary
  | .primaryThenAlternate, none => g = (s.tankData k).primary
  | .firstFree, _ => (s.offGroup k g ∧ ∀ h, s.offGroup k h → g ≤ h) ∨ ((∀ h, ¬s.offGroup k h) ∧ g = (s.tankData k).primary)

theorem chosenGroup_of_chooses {s : State} {k g : Nat} (chooses : s.chooses k g (s.tank k).route (s.tank k).alternate) :
    s.chosenGroup k = g := by
  unfold State.chosenGroup
  cases route : (s.tank k).route <;> rw [route] at chooses
  case primary => exact chooses.symm
  case alternate =>
    rw [show (s.tank k).alternate = some g from chooses]; rfl
  case primaryThenAlternate =>
    cases alternate : (s.tank k).alternate <;> rw [alternate] at chooses
    · exact chooses.symm
    · simp only [State.lost, decide_eq_true_eq]
      exact chooses.symm
  case firstFree =>
    obtain ⟨off, least⟩ | ⟨none, here⟩ := chooses
    · simp only [lowestOff_of_least off least]; rfl
    · simp only [lowestOff_of_none none]; exact here.symm

/-! ### The order entered -/

theorem enteredOrder_eq {s : State} {k group : Nat} {ps : List Pair} {v : Int} (target : intAt ps 2 0 = some v)
    (groups : intAt ps 3 0 = some (group : Int) ∨ intAt ps 3 0 = none ∧ s.chosenGroup k = group) :
    s.enteredOrder k ps =
      { target := s.targetOf k v, group := group
        state := if (s.tank k).current ≤ s.targetOf k v then .done else .queued
        holdCause := none
        completion := if (s.tank k).current ≤ s.targetOf k v then some .met else none
        front := decide (intAt ps 8 0 = some 1) } := by
  have named : ((intAt ps 3 0).map Int.toNat).getD (s.chosenGroup k) = group := by
    obtain named | ⟨unnamed, chosen⟩ := groups
    · rw [named]; rfl
    · rw [unnamed, chosen]; rfl
  have front : (intAt ps 8 0).any (fun v => decide (v = 1)) = decide (intAt ps 8 0 = some 1) := by
    cases intAt ps 8 0 <;> simp
  unfold State.enteredOrder
  simp only [named, front, target, Option.getD_some, decide_eq_true_eq]

theorem targetOf_eq (s : State) (k : Nat) (v : Int) :
    s.targetOf k v = (max 0 (min ((s.tankData k).capacity : Int) v)).toNat := by
  have clamped := clamp_zero (s.tankData k).capacity v
  rw [State.targetOf]
  omega

end Sys2Proof.Machine
end

