-- ==== Sys2Proof/Proofs/OrderAmended.lean ====
section
/-! PROOFS. O41: the target of a living order amended, and the look of its group's station (spec 05 R80, R89). -/

namespace Sys2Proof.Machine

/-! ### One look and the end of its step -/

theorem lookedValve_owner (s : State) (g k : Nat) : (s.lookedValve g (.tank k)).owner =
    if s.taken g = some k then some g else (s.valve (.tank k)).owner := by
  unfold State.lookedValve
  cases takes : s.taken g with
  | none => rfl
  | some n =>
    dsimp only
    by_cases here : n = k
    · rw [here, if_pos rfl, if_pos rfl]
    · have other : ValveId.tank k ≠ .tank n := fun same => here (ValveId.tank.inj same).symm
      rw [if_neg other, if_neg (by simp), if_neg (by simpa using here)]

/-- A look gives no other station a cause to look. -/
theorem settle_of_look {s : State} {g : Nat} (ranked : s.Ranked) (group : s.hasGroup g = true) (may : s.mayLook g = true) :
    (s.look g).settle false s = s.look g := by
  have one : LookOf g s (s.look g) := look_spec (ranked.grouped g group) may fun n takes v mem => by
    simp only [lineup, List.mem_cons, List.not_mem_nil, or_false] at mem
    obtain rfl | rfl | rfl := mem
    · exact ranked.suction g group
    · exact ranked.overboard g group
    · exact ranked.tank g n (mem_queue_of_taken takes)
  obtain ⟨running, off, -⟩ := mayLook_iff.1 may
  have settled : (s.look g).haltTest = s.look g := if_neg fun halts => by
    rw [one.state, running] at halts
    exact SequencerState.noConfusion halts.1
  refine (settle_of_no_cause fun h => ?_).trans settled
  rw [settled, cause_eq_joined]
  · simp only [joined, List.any_eq_false, decide_eq_true_eq, not_not]
    intro k mem
    by_cases here : h = g
    · subst here
      rw [one.queue] at mem
      exact mem_left mem
    · rwa [one.queues h here] at mem
  · intro k h own
    rw [one.valves, lookedValve_owner]
    split
    · exact Option.some_ne_none g
    · rw [own]; exact Option.some_ne_none h
  · intro h on
    by_cases here : h = g
    · exact absurd off (here ▸ on)
    · rwa [one.stations h here]

/-- A look of a station that may not look changes nothing, and gives no cause. -/
theorem settle_look_idle {s : State} {g : Nat} (settled : s.haltSettled) (idle : s.mayLook g = false) :
    (s.look g).settle false s = s := by
  have rests := haltTest_of_settled settled
  rw [look_of_not_mayLook idle]
  refine (settle_of_no_cause fun h => ?_).trans rests
  rw [rests, cause_eq_joined (fun _ _ own free => Option.some_ne_none _ (own.symm.trans free)) fun _ => id]
  simp [joined]

/-- The station of one group is told of a cause: it has looked where it may. -/
theorem settle_look_answered {s : State} {g : Nat} (ranked : s.Ranked) (settled : s.haltSettled) (group : s.hasGroup g = true) :
    s.answered ((s.look g).settle false s) (· = g) := by
  by_cases may : s.mayLook g = true
  · rw [settle_of_look ranked group may]
    have looked : Looked s (s.look g) [g] := (Looked.none s s.draws).look ranked List.not_mem_nil group may
    refine looked.answered ranked (List.nodup_singleton g) (fun h => ?_) fun none => absurd none (List.cons_ne_nil _ _)
    rw [List.mem_singleton]
    exact ⟨fun here => by subst here; exact ⟨group, may, rfl⟩, fun told => told.2.2⟩
  · have idle := Bool.eq_false_iff.2 may
    rw [settle_look_idle settled idle]
    refine answered_refl s _ fun h here => ?_
    subst here
    by_contra rest
    push Not at rest
    exact may (mayLook_iff.2 rest)

/-! ### The target amended -/

/-- The state once an order's target is amended. -/
def State.retargeted (s : State) (k : Nat) (o : Order) (target : Nat) : State :=
  { s with ballast := { s.ballast with orders := modify1 s.ballast.orders k fun _ => some { o with target := target } } }

section
variable {s : State} {k : Nat} {o : Order} {ps : List Pair} {v : Int} (here : s.order k = some o) (value : intAt ps 2 0 = some v)
include here

theorem order_retargeted (target : Nat) : (s.retargeted k o target).order k = some { o with target := target } :=
  order_setOrder (order_in_range here) (some { o with target := target })

theorem retargeted_eq (target : Nat) : s.updOrder k ({ · with target := target }) = s.retargeted k o target := by
  have record : nth1 s.ballast.orders k = some (some o) := by
    rw [State.order] at here
    exact Option.join_eq_some_iff.1 here
  have orders := modify1_congr (f := Option.map ({ · with target := target })) (g := fun _ => some { o with target := target })
    record rfl
  rw [State.updOrder, orders]; rfl

include value

theorem amendOrder_of_active (active : o.state = .active) : s.amendOrder k o ps = s.retargeted k o (s.targetOf k v) := by
  unfold State.amendOrder
  rw [value]
  dsimp only
  rw [if_neg (by rw [active]; exact OrderState.noConfusion), retargeted_eq here]

theorem amendOrder_of_queued (queued : o.state = .queued) : s.amendOrder k o ps =
    ((s.retargeted k o (s.targetOf k v)).look o.group).settle false (s.retargeted k o (s.targetOf k v)) := by
  unfold State.amendOrder
  rw [value]
  dsimp only
  rw [if_pos queued, retargeted_eq here]

/-- The order keeps the target stored, its group and its front setting, through whatever looks there are. -/
theorem aims_amendOrder (lives : o.state ≠ .done) : (s.amendOrder k o ps).aims k (s.targetOf k v) o.group o.front := by
  have stored : (s.retargeted k o (s.targetOf k v)).aims k (s.targetOf k v) o.group o.front := by
    refine ⟨_, order_retargeted here _, rfl, rfl, rfl, fun _ => ?_⟩
    cases state : o.state with
    | queued => exact .inl rfl
    | active => exact .inr rfl
    | done => exact absurd state lives
  cases state : o.state with
  | queued => rw [amendOrder_of_queued here value state]; exact aims_settle (aims_look stored _) false _
  | active => rw [amendOrder_of_active here value state]; exact stored
  | done => exact absurd state lives

end

theorem ranked_retargeted {s : State} (ranked : s.Ranked) (k : Nat) (o : Order) (target : Nat) : (s.retargeted k o target).Ranked := by
  have frame : BallastFrame s (s.retargeted k o target) := setOrder_frame k (some { o with target := target }) s
  exact ⟨fun g group => frame.grouped (ranked.grouped g group), fun g group => frame.valved (ranked.suction g group),
    fun g group => frame.valved (ranked.overboard g group), fun g j mem => frame.valved (ranked.tank g j mem), ranked.nodup,
    ranked.apart⟩

/-- A queue that holds an order is that of a counted group. -/
theorem hasGroup_of_queued {s : State} (ready : s.ready = true) (records : s.RecordsOk) {g k : Nat} (mem : k ∈ s.queue g) :
    s.hasGroup g = true := by
  obtain ⟨-, -, -, shape⟩ := records.fits ready
  simp only [Sequencer.shape, List.cons.injEq] at shape
  obtain ⟨-, queues, -⟩ := shape
  rw [State.hasGroup, ready, Bool.true_and, decide_eq_true_iff]
  by_contra beyond
  rw [State.queue] at mem
  cases g with
  | zero => exact List.not_mem_nil mem
  | succ g =>
    have missing : nth1 s.ballast.queues (g + 1) = none := List.getElem?_eq_none (by omega)
    rw [missing] at mem
    exact List.not_mem_nil mem

/-- The reply to an amending Put carries the target as it is stored. -/
theorem storedPairs_target {s : State} {k target group : Nat} {front : Bool} {ps : List Pair} (nonempty : ps ≠ [])
    (only : ∀ p ∈ ps, p.ident = fieldId 2 0) (aims : s.aims k target group front) :
    storedPairs ps (s.orderPairs k) = [pairOf 2 0 target] := by
  obtain ⟨o, here, rfl, -⟩ := aims
  rw [storedPairs_of_forall nonempty only, State.orderPairs, here, Option.elim_some, State.orderRecord]
  simp [pairOf, fieldId]

end Sys2Proof.Machine
end

