-- ==== Sys2Proof/Proofs/OrderAnswers.lean ====
section
/-! PROOFS. O41 whole: what a PUT on ORDER answers, and what it leaves (spec 05 R77 to R80, R89). -/

namespace Sys2Proof.Machine

theorem aims_enterOrder {s : State} {ps : List Pair} {k target group : Nat} {front : Bool}
    (there : 1 ≤ k ∧ k ≤ s.ballast.orders.length)
    (entered : s.enteredOrder k ps = ⟨target, group, .queued, none, none, front⟩) :
    (s.enterOrder k ps).aims k target group front := by
  have stored : (s.filedIn k ⟨target, group, .queued, none, none, front⟩).aims k target group front :=
    ⟨_, order_setOrder there (some ⟨target, group, .queued, none, none, front⟩), rfl, rfl, rfl, fun _ => .inl rfl⟩
  rw [enterOrder_of_queued (by rw [entered]), entered]
  exact aims_settle stored false s

section
variable {s : State} {h : ShipHead} {ps : List Pair} {v : Int} {target : Nat} (aim : s.targetOf h.key.toNat v = target)
  (value : intAt ps 2 0 = some v)
include aim value

/-! ### An entering Put -/

theorem putEnters (ready : s.ready = true) (records : s.RecordsOk) (tank : s.hasTank h.key.toNat = true)
    (fresh : ∀ o, s.order h.key.toNat = some o → o.state = .done) {group : Nat}
    (groups : intAt ps 3 0 = some (group : Int) ∨ intAt ps 3 0 = none ∧ s.chosenGroup h.key.toNat = group)
    {front : Bool} (set : decide (intAt ps 8 0 = some 1) = front) (payload : List Pair) {t : State}
    (left : t = (s.enterOrder h.key.toNat ps).replied 2 h .done payload) :
    let k := h.key.toNat
    t.ship.sending.map (·.status) = some .done ∧ { s with ship := t.ship }.onlyBallast t ∧
      ((s.tank k).current ≤ target → t.field = s.field ∧ t.draws = s.draws ∧
        t.ballast = (s.setOrder k (some ⟨target, group, .done, none, some .met, front⟩)).ballast) ∧
      (target < (s.tank k).current → s.haltSettled →
        (s.ballast.state ≠ .running ∨ (s.station group).state ≠ .off ∨ (s.station group).closing ≠ [] →
          t = { s.filedIn k ⟨target, group, .queued, none, none, front⟩ with ship := t.ship }) ∧
        (s.OrdersOk → State.answered { s.filedIn k ⟨target, group, .queued, none, none, front⟩ with ship := t.ship } t
          (· = group))) ∧
      (target < (s.tank k).current → ∃ o, t.order k = some o ∧ o.target = target ∧ o.group = group ∧ o.front = front ∧
        (o.state = .queued ∨ o.state = .active)) := by
  intro k
  have entered := enteredOrder_eq value groups
  rw [aim, set] at entered
  have waits (above : target < (s.tank k).current) : s.enteredOrder k ps = ⟨target, group, .queued, none, none, front⟩ := by
    rw [entered, if_neg (Nat.not_le.2 above), if_neg (Nat.not_le.2 above)]
  refine ⟨by rw [left]; rfl, by rw [left]; exact (enterOrder_frame k ps s).onlyBallast.replied _ _ _ _, fun met => ?_,
    fun above settled => ⟨fun idle => ?_, fun orders => ?_⟩, fun above => ?_⟩
  · have done : s.enteredOrder k ps = ⟨target, group, .done, none, some .met, front⟩ := by
      rw [entered, if_pos met, if_pos met]
    rw [enterOrder_of_done (by rw [done]), done] at left
    rw [left]
    exact ⟨rfl, rfl, rfl⟩
  · have idle : s.mayLook group = false := decide_eq_false fun ⟨running, off, rests⟩ =>
      idle.elim (· running) (·.elim (· off) (· rests))
    have stands : s.enterOrder k ps = s.filedIn k ⟨target, group, .queued, none, none, front⟩ := by
      rw [enterOrder_of_queued (by rw [waits above]), waits above]
      exact settle_filedIn_idle settled idle
    rw [stands] at left
    rw [left]; rfl
  · have looks : (s.filedIn k ⟨target, group, .queued, none, none, front⟩).answered (s.enterOrder k ps) (· = group) := by
      rw [enterOrder_of_queued (by rw [waits above]), waits above]
      exact settle_filedIn_answered settled ready records orders.1 tank fresh
    have answer := answered_withShip looks t.ship
    have whole : t = { s.enterOrder k ps with ship := t.ship } := by rw [left]; rfl
    exact whole ▸ answer
  · obtain ⟨-, -, -, shape⟩ := records.fits ready
    simp only [Sequencer.shape, List.cons.injEq] at shape
    obtain ⟨-, least, most⟩ := range_of_hasTank tank
    obtain ⟨o, here, toward, filed, front, lives⟩ := aims_enterOrder ⟨least, by omega⟩ (waits above)
    have stands : (s.enterOrder k ps).tank k = s.tank k := by rw [(enterOrder_frame k ps s).rest]; rfl
    refine ⟨o, by rw [left]; exact here, toward, filed, front, lives (by rw [stands]; exact above)⟩

/-! ### An amending Put -/

theorem putAmends (ready : s.ready = true) (records : s.RecordsOk) (nonempty : ps ≠ []) (only : ∀ p ∈ ps, p.ident = fieldId 2 0)
    {o : Order} (here : s.order h.key.toNat = some o) (lives : o.state ≠ .done) {t : State}
    (left : t = (s.amendOrder h.key.toNat o ps).replied 2 h .done
      (storedPairs ps ((s.amendOrder h.key.toNat o ps).orderPairs h.key.toNat))) :
    let k := h.key.toNat
    t.ship = (s.replied 2 h .done [pairOf 2 0 target]).ship ∧ { s with ship := t.ship }.onlyBallast t ∧
      (o.state = .active ∨ (s.haltSettled ∧ (s.ballast.state ≠ .running ∨ (s.station o.group).state ≠ .off ∨
          (s.station o.group).closing ≠ [])) → t = { s.retargeted k o target with ship := t.ship }) ∧
      (o.state = .queued → s.haltSettled → s.OrdersOk →
        State.answered { s.retargeted k o target with ship := t.ship } t (· = o.group)) ∧
      ∃ o', t.order k = some o' ∧ o'.target = target ∧ o'.group = o.group ∧ o'.front = o.front := by
  intro k
  have aims := aims_amendOrder here value lives
  rw [storedPairs_target nonempty only aims, aim] at left
  rw [aim] at aims
  have whole : t = { s.amendOrder k o ps with ship := t.ship } := by rw [left]; rfl
  refine ⟨?_, by rw [left]; exact (amendOrder_frame k o ps s).onlyBallast.replied _ _ _ _, fun still => ?_,
    fun queued settled orders => ?_, ?_⟩
  · have port : (s.amendOrder k o ps).ship = s.ship := by rw [(amendOrder_frame k o ps s).rest]
    rw [left, State.replied, State.replied, port]
  · have stands : s.amendOrder k o ps = s.retargeted k o target := by
      cases state : o.state with
      | active => rw [amendOrder_of_active here value state, aim]
      | done => exact absurd state lives
      | queued =>
        obtain ⟨settled, idle⟩ := still.resolve_left (by rw [state]; exact OrderState.noConfusion)
        rw [amendOrder_of_queued here value state, aim]
        exact settle_look_idle (s := s.retargeted k o target) settled (decide_eq_false fun ⟨running, off, rests⟩ =>
          idle.elim (· running) (·.elim (· off) (· rests)))
    rw [stands] at whole
    exact whole
  · have group := hasGroup_of_queued ready records (orders.1.2.2 k o here queued)
    have looks : (s.retargeted k o target).answered (s.amendOrder k o ps) (· = o.group) := by
      rw [amendOrder_of_queued here value queued, aim]
      exact settle_look_answered (s := s.retargeted k o target)
        (ranked_retargeted (ranked_of_queuesOk ready records orders.1) k o target) settled group
    have answer := answered_withShip looks t.ship
    exact whole ▸ answer
  · obtain ⟨o', there, toward, filed, front, -⟩ := aims
    exact ⟨o', by rw [left]; exact there, toward, filed, front⟩

end

/-- Settles O41: the checks of a Put on ORDER in their order, the order filed with the look that it causes, and the target amended. -/
theorem putEntersOrders : Obligations.PutEntersOrders := by
  intro s h ps v idle ready records purging counts table tank known k target primary permitted off chosen legal
  have run {a : Answer} := exec_putOrder (a := a) idle ready purging counts table tank
  have routes : permitted = s.permittedGroups k := by
    rw [permittedGroups_eq]
    cases route : (s.tank k).route <;> cases alternate : (s.tank k).alternate <;> simp [permitted, route, alternate, permittedBy, primary]
  have lawful : legal ↔ s.orderLegal k ps := by
    simp only [legal, routes, State.orderLegal]
  have chooses (g : Nat) (here : chosen g) : s.chosenGroup k = g := by
    have offs (h : Nat) : s.offGroup k h ↔ off h := by rw [State.offGroup, ← routes]
    refine chosenGroup_of_chooses ?_
    cases route : (s.tank k).route <;> cases alternate : (s.tank k).alternate <;>
      simpa only [chosen, route, alternate, State.chooses, offs] using here
  have aim : s.targetOf k v = target := targetOf_eq s k v
  refine ⟨fun unknown => ?_, fun named fresh => ⟨fun illegal => ?_, fun takes absent => ?_⟩, fun named => ⟨?_, ?_⟩⟩
  · obtain ⟨p, mem, bad, answer⟩ := putOrder_unknown (s := s) (k := k) unknown
    exact ⟨p, mem, run answer, bad⟩
  · obtain ⟨p, mem, answer⟩ := putNewOrder_illegal named fun takes => illegal (lawful.2 takes)
    exact ⟨p, mem, run ((putOrder_of_fresh fresh).trans answer)⟩
  · exact run ((putOrder_of_fresh fresh).trans (putNewOrder_targetless named (lawful.1 takes) absent))
  · intro fresh value takes group groups front queue
    refine ⟨_, run ((putOrder_of_fresh fresh).trans (putNewOrder_taken named (lawful.1 takes) value)), ?_⟩
    exact putEnters aim value ready records tank fresh (groups.imp_right fun ⟨absent, here⟩ => ⟨absent, chooses group here⟩) rfl _ rfl
  · intro o here lives
    refine ⟨fun other => ?_, fun only value => ?_⟩
    · obtain ⟨p, mem, answer⟩ := putLivingOrder_state named o other
      exact ⟨p, mem, run ((putOrder_of_living here lives).trans answer)⟩
    · refine ⟨_, run ((putOrder_of_living here lives).trans (putLivingOrder_taken o only)), ?_⟩
      exact putAmends aim value ready records (ne_nil_of_countLegal counts) only here lives rfl

end Sys2Proof.Machine
end

