-- ==== Sys2Proof/Proofs/Duties.lean ====
section
/-! PROOFS. What Table 6.4 concerns of a station: its state, its active order and its pump command, and what each operation of the
Ballast Sequencer makes of the three (spec 06 R99, R103 to R112). -/

namespace Sys2Proof.Machine

/-! ### The three of a station -/

/-- A station's state, active order and pump command. -/
def Station.duty (st : Station) : StationState × Option Nat × PumpCommand := (st.state, st.active, st.pumpCommanded)

/-- The three stand as Table 6.4 gives. -/
def dutyOk (d : StationState × Option Nat × PumpCommand) : Prop := d.2.1.isSome = d.1.runs ∧ d.1.admits d.2.2 = true

/-- The three of every station, in the groups' order. -/
def State.duties (s : State) : List (StationState × Option Nat × PumpCommand) := s.ballast.stations.map Station.duty

/-- The station of the group has a record. -/
def State.staffed (s : State) (g : Nat) : Prop := 1 ≤ g ∧ g ≤ s.ballast.stations.length

theorem stationsOk_iff {s : State} : s.StationsOk ↔ ∀ g, dutyOk (s.station g).duty := forall_stations ⟨rfl, rfl⟩

theorem stationsOk_congr {s t : State} (same : t.duties = s.duties) (ok : s.StationsOk) : t.StationsOk := by
  have listed (u : State) : u.StationsOk ↔ ∀ d ∈ u.duties, dutyOk d :=
    (List.forall_mem_map (f := Station.duty) (P := dutyOk) (l := u.ballast.stations)).symm
  rw [listed] at ok ⊢
  rwa [same]

theorem nth1_eq_none {α : Type} {l : List α} {n : Nat} (beyond : ¬(1 ≤ n ∧ n ≤ l.length)) : nth1 l n = none := by
  cases n with
  | zero => rfl
  | succ n => exact List.getElem?_eq_none (Nat.le_of_not_lt fun within => beyond ⟨Nat.succ_pos n, within⟩)

theorem station_of_unstaffed {s : State} {g : Nat} (absent : ¬s.staffed g) : s.station g = default := by
  rw [State.station, nth1_eq_none absent]; rfl

/-- A station that does not stand in OFF has a record. -/
theorem staffed_of_state {s : State} {g : Nat} (on : (s.station g).state ≠ .off) : s.staffed g := by
  by_contra absent
  rw [station_of_unstaffed absent] at on
  exact on rfl

theorem State.grouped.staffed {s : State} {g : Nat} (there : s.grouped g) : s.staffed g := ⟨there.1, there.2.2⟩

/-! ### One station's three changed -/

/-- From `s` to `t` the three of one station have changed, and no other station's. -/
def State.turns (s t : State) (g : Nat)
    (f : StationState × Option Nat × PumpCommand → StationState × Option Nat × PumpCommand) : Prop :=
  t.duties = modify1 s.duties g f

theorem map_modify1 {α β : Type} {p : α → β} {f : α → α} {f' : β → β} (same : ∀ a, p (f a) = f' (p a)) (l : List α) (n : Nat) :
    (modify1 l n f).map p = modify1 (l.map p) n f' := by
  refine ext_nth1 fun m => ?_
  rw [nth1_map, nth1_modify1, nth1_modify1, nth1_map]
  split
  · rw [Option.map_map, Option.map_map, show p ∘ f = f' ∘ p from funext same]
  · rfl

theorem modify1_id {α : Type} (l : List α) (n : Nat) : modify1 l n id = l :=
  modify1_eq_self fun _ _ => rfl

section Turns

variable {s t u : State} {g : Nat} {f f' : StationState × Option Nat × PumpCommand → StationState × Option Nat × PumpCommand}

theorem turns_refl (s : State) (g : Nat) : s.turns s g id := (modify1_id _ g).symm

theorem State.turns.trans (h : s.turns t g f) (k : t.turns u g f') : s.turns u g (f' ∘ f) :=
  Eq.trans k ((congrArg (modify1 · g f') h).trans (modify1_modify1 _ g f f'))

/-- A change after which the three of the stations stand as they did. -/
theorem State.turns.same (h : s.turns t g f) (k : u.duties = t.duties) : s.turns u g f := k.trans h

theorem State.turns.staffed_iff (h : s.turns t g f) : t.staffed g ↔ s.staffed g := by
  have lengths := congrArg List.length h
  rw [modify1_length, State.duties, State.duties, List.length_map, List.length_map] at lengths
  rw [State.staffed, State.staffed, lengths]

theorem duty_of_turns (h : s.turns t g f) (there : s.staffed g) : (t.station g).duty = f (s.station g).duty := by
  have here := congrArg (nth1 · g) h
  simp only [State.duties, nth1_modify1, nth1_map, if_true] at here
  rw [nth1_eq_some_getD default there, nth1_eq_some_getD default (h.staffed_iff.2 there)] at here
  exact Option.some.inj here

theorem active_of_turns (h : s.turns t g f) (there : s.staffed g) : (t.station g).active = (f (s.station g).duty).2.1 :=
  congrArg (·.2.1) (duty_of_turns h there)

theorem state_of_turns (h : s.turns t g f) (there : s.staffed g) : (t.station g).state = (f (s.station g).duty).1 :=
  congrArg (·.1) (duty_of_turns h there)

theorem duty_of_turns_ne (h : s.turns t g f) {n : Nat} (other : n ≠ g) : (t.station n).duty = (s.station n).duty := by
  have here := congrArg (nth1 · n) h
  simp only [State.duties, nth1_modify1, nth1_map, if_neg other] at here
  unfold State.station
  cases at_ : nth1 s.ballast.stations n with
  | none => rw [at_, Option.map_none, Option.map_eq_none_iff] at here; rw [here]
  | some st =>
    rw [at_, Option.map_some, Option.map_eq_some_iff] at here
    obtain ⟨st', there, same⟩ := here
    rw [there]
    exact same

/-- Stations stand as Table 6.4 gives where the one that has changed does. -/
theorem State.turns.stationsOk (h : s.turns t g f) (ok : s.StationsOk)
    (stands : s.staffed g → dutyOk (s.station g).duty → dutyOk (f (s.station g).duty)) : t.StationsOk := by
  by_cases there : s.staffed g
  · rw [stationsOk_iff] at ok ⊢
    intro n
    by_cases here : n = g
    · rw [here, duty_of_turns h there]
      exact stands there (ok g)
    · rw [duty_of_turns_ne h here]
      exact ok n
  · refine stationsOk_congr (Eq.trans h (modify1_eq_self fun d here => ?_)) ok
    rw [State.duties, nth1_map, nth1_eq_none there] at here
    exact absurd here (by simp)

end Turns

/-! ### The operations -/

theorem updStation_turns {g : Nat} {f : Station → Station}
    {f' : StationState × Option Nat × PumpCommand → StationState × Option Nat × PumpCommand} (s : State)
    (same : ∀ st, (f st).duty = f' st.duty) : s.turns (s.updStation g f) g f' := map_modify1 same _ _

/-- A change of a station that is none of the three. -/
theorem updStation_duties {g : Nat} {f : Station → Station} (s : State) (same : ∀ st, (f st).duty = st.duty) :
    (s.updStation g f).duties = s.duties := Eq.trans (updStation_turns (f' := id) s same) (modify1_id _ g)

theorem restartWatch_duties (g : Nat) (s : State) : (s.restartWatch g).duties = s.duties := updStation_duties s fun _ => rfl

theorem watchRate_duties (g : Nat) (s : State) : (s.watchRate g).duties = s.duties :=
  updStation_duties s fun st => by split <;> rfl

theorem Commanded.duties {s t : State} (h : Commanded s t) : t.duties = s.duties :=
  congrArg (List.map Station.duty) h.stations

theorem updValve_duties (v : ValveId) (f : Valve → Valve) (s : State) : (s.updValve v f).duties = s.duties := by
  cases v <;> rfl

theorem releaseIfShut_duties (k : Nat) (s : State) : (s.releaseIfShut k).duties = s.duties := by
  unfold State.releaseIfShut
  split
  · split
    · exact updStation_duties _ fun _ => rfl
    · rfl
  · rfl

theorem shutTanks_duties (ks : List Nat) (s : State) : (ks.foldl (fun s k => s.shutTank k) s).duties = s.duties :=
  foldl_keeps (P := fun t => t.duties = s.duties)
    (fun k _ t same => ((releaseIfShut_duties k _).trans (commandValve_commanded (.tank k) .shut t).duties).trans same) rfl

theorem sendPump_turns (g : Nat) (c : PumpCommand) (s : State) : s.turns (s.sendPump g c) g fun d => (d.1, d.2.1, c) :=
  updStation_turns s fun _ => rfl

theorem commandPump_turns (g : Nat) (c : PumpCommand) (s : State) :
    s.turns (s.commandPump g c) g fun d => (d.1, d.2.1, c) := by
  unfold State.commandPump
  split
  · rename_i same
    refine (ext_nth1 fun n => ?_).symm
    rw [nth1_modify1]
    split
    · rename_i here
      rw [State.station] at same
      rw [here, State.duties, nth1_map]
      cases at_ : nth1 s.ballast.stations g with
      | none => rfl
      | some st =>
        rw [at_, Option.getD_some] at same
        rw [← same]; rfl
    · rfl
  · exact sendPump_turns g c s

theorem scan_turns (g : Nat) (s : State) : s.turns (s.scan g) g fun d => (d.1, s.taken g, d.2.2) := by
  rw [scan_eq]
  exact map_modify1 (p := Station.duty) (f := s.scanner g) (fun _ => rfl) _ _

theorem returnOrder_turns (g : Nat) (c : HoldCause) (s : State) : s.turns (s.returnOrder g c) g fun d => (d.1, none, d.2.2) := by
  have record : (s.returnOrder g c).ballast.stations = modify1 s.ballast.stations g ({ · with active := none }) :=
    ext_nth1 fun n => by rw [returnOrder_stations, nth1_modify1]
  unfold State.turns State.duties
  rw [record]
  exact map_modify1 (p := Station.duty) (fun _ => rfl) _ _

theorem reroute_duties (g : Nat) (s : State) : (s.reroute g).duties = s.duties := by
  rw [reroute_rest]; rfl

theorem disown_duties (ks : List Nat) (s : State) : (s.disown ks).duties = s.duties := by
  rw [disown_rest]; rfl

theorem enterRundown_turns (g : Nat) (s : State) :
    s.turns (s.enterRundown g) g fun d => (.stopping .rundown, d.2.1, .stop) :=
  (commandPump_turns g .stop s).trans (updStation_turns (f' := fun d => (.stopping .rundown, d.2)) _ fun _ => rfl)

/-- A station in CLOSING may enter OFF. -/
theorem closingTest_turns (g : Nat) (s : State) : (s.closingTest g).duties = s.duties ∨
    (s.station g).state = .stopping .closing ∧ s.turns (s.closingTest g) g fun d => (.off, d.2) := by
  unfold State.closingTest
  split
  · rename_i shut
    exact .inr ⟨shut.1, updStation_turns s fun _ => rfl⟩
  · exact .inl rfl

/-- A station that enters CLOSING stands there or in OFF. -/
theorem enterClosing_turns (g : Nat) (s : State) : ∃ x, (x = .stopping .closing ∨ x = .off) ∧
    s.turns (s.enterClosing g) g fun d => (x, d.2) := by
  have closes : s.turns ((s.station g).closing.foldl (fun s k => s.shutTank k) (s.closesLine g)) g
      fun d => (.stopping .closing, d.2) :=
    (updStation_turns (f := Station.closes) s fun _ => rfl).same
      ((shutTanks_duties _ _).trans (closesLine_commanded g s).duties)
  rw [enterClosing_eq]
  obtain same | ⟨-, off⟩ := closingTest_turns g ((s.station g).closing.foldl (fun s k => s.shutTank k) (s.closesLine g))
  · exact ⟨_, .inl rfl, closes.same same⟩
  · exact ⟨_, .inr rfl, closes.trans off⟩

theorem enterLineup_turns (g n : Nat) (s : State) : s.turns (s.enterLineup g n) g fun d => (.lineup, d.2) :=
  (updStation_turns s fun _ => rfl).same ((updValve_duties _ _ _).trans
    (((commandValve_commanded (.suction g) .opened _).trans (commandValve_commanded (.overboard g) .opened _)).trans
      (commandValve_commanded (.tank n) .opened _)).duties)

theorem opensNext_turns (g n : Nat) (s : State) : s.turns (s.opensNext g n) g fun d => (.changeover, d.2) :=
  (updStation_turns s fun _ => rfl).same ((updValve_duties _ _ _).trans (commandValve_commanded (.tank n) .opened _).duties)

theorem changesTo_turns (g n : Nat) (s : State) : s.turns (s.changesTo g n) g fun d => (.changeover, d.2) := by
  unfold State.changesTo
  split
  · exact (opensNext_turns g n s).same (shutTanks_duties _ _)
  · exact opensNext_turns g n s

theorem givenUp_turns {f : Station → Station} (idle : ∀ st, (f st).duty = (st.state, none, st.pumpCommanded)) (g k : Nat)
    (s : State) : s.turns (s.givenUp g k f) g fun d => (d.1, none, d.2.2) :=
  (updStation_turns s idle).same (updStation_duties _ fun _ => rfl)

/-- A station that has given up its order, its pump running, stands as Table 6.4 gives once it has entered CHANGEOVER or STOPPING. -/
theorem enterChangeover_turns {s : State} {g : Nat} (there : s.staffed g) (k : Nat) :
    ∃ f, s.turns (s.enterChangeover g k) g f ∧ ∀ d, d.2.2 ≠ .stop → dutyOk (f d) := by
  have given := givenUp_turns (f := Station.emptied) (fun _ => rfl) g k s
  rw [enterChangeover_eq]
  split
  · have scans := given.trans (scan_turns g (s.givenUp g k Station.emptied))
    unfold State.takesNext
    rw [active_of_turns scans there]
    show ∃ f, State.turns s (match (State.givenUp s g k Station.emptied).taken g with | some n => _ | none => _) g f ∧ _
    cases taken : (s.givenUp g k Station.emptied).taken g with
    | none => exact ⟨_, scans.trans (enterRundown_turns g _), fun d _ => by simp [dutyOk, taken, StationState.runs, StationState.admits]⟩
    | some n =>
      exact ⟨_, scans.trans (changesTo_turns g n _), fun d pumps => by simp [dutyOk, taken, StationState.runs, StationState.admits, pumps]⟩
  · exact ⟨_, given.trans (enterRundown_turns g _), fun d _ => by simp [dutyOk, StationState.runs, StationState.admits]⟩

end Sys2Proof.Machine
end

