-- ==== Sys2Proof/Proofs/StationsKept.lean ====
section
/-! PROOFS. Every operation of the Ballast Sequencer leaves each station with the order and the pump command that its state admits
(spec 06 R99, R103 to R112, Table 6.4). -/

namespace Sys2Proof.Machine

section Kept

variable {s : State} (ok : s.StationsOk)
include ok

theorem State.StationsOk.here (g : Nat) : dutyOk (s.station g).duty := stationsOk_iff.1 ok g

/-- The pump of a station in these states is commanded to run. -/
theorem State.StationsOk.pumps {g : Nat} (runs : (s.station g).state.pumping = true ∨ (s.station g).state = .changeover) :
    (s.station g).pumpCommanded ≠ .stop := by
  obtain ⟨-, admits⟩ := ok.here g
  intro stopped
  simp only [Station.duty, stopped] at admits
  revert runs admits
  cases (s.station g).state <;> simp [StationState.pumping, StationState.admits]

/-! ### Looks, the ends of orders and STOPPING -/

theorem State.StationsOk.look (g : Nat) : (s.look g).StationsOk := by
  unfold State.look
  split
  · rename_i may
    obtain ⟨-, off, -⟩ := mayLook_iff.1 may
    have scans := scan_turns g s
    by_cases there : s.staffed g
    · dsimp only
      rw [active_of_turns scans there]
      dsimp only
      cases taken : s.taken g with
      | none =>
        exact scans.stationsOk ok fun _ ⟨_, admits⟩ => ⟨by simp [taken, Station.duty, off, StationState.runs], admits⟩
      | some n =>
        refine (scans.trans (enterLineup_turns g n _)).stationsOk ok fun _ ⟨_, admits⟩ => ?_
        simp only [Station.duty, off] at admits
        exact ⟨by simp [taken, StationState.runs], admits⟩
    · have absent : ((s.scan g).station g).active = none := by
        rw [station_of_unstaffed (scans.staffed_iff.not.2 there)]; rfl
      dsimp only
      rw [absent]
      exact scans.stationsOk ok fun there' => absurd there' there
  · exact ok

/-- A station that has parted from its order, its pump running, stands as Table 6.4 gives after CHANGEOVER. -/
theorem State.StationsOk.changeover {g k : Nat} {t : State} {f : StationState × Option Nat × PumpCommand →
      StationState × Option Nat × PumpCommand} (turns : s.turns t g f) (there : s.staffed g)
    (pumps : (f (s.station g).duty).2.2 ≠ .stop) : (t.enterChangeover g k).StationsOk := by
  obtain ⟨f', changes, stands⟩ := enterChangeover_turns (turns.staffed_iff.2 there) k
  exact (turns.trans changes).stationsOk ok fun _ _ => stands _ pumps

theorem State.StationsOk.completeOrder {g : Nat} (c : Completion) (pumps : (s.station g).state.pumping = true) :
    (s.completeOrder g c).StationsOk := by
  unfold State.completeOrder
  split
  · rename_i k active
    have on : (s.station g).state ≠ .off := fun off => by rw [off] at pumps; exact Bool.noConfusion pumps
    exact ok.changeover (t := State.updStation g _ _) (f := fun d => (d.1, none, d.2.2))
      (updStation_turns (s.updOrder k (Order.complete c)) fun _ => rfl) (staffed_of_state on) (ok.pumps (.inl pumps))
  · exact ok

theorem State.StationsOk.interrupt {g : Nat} (c : HoldCause) (pumps : (s.station g).state.pumping = true) :
    (s.interrupt g c).StationsOk := by
  unfold State.interrupt
  split
  · have on : (s.station g).state ≠ .off := fun off => by rw [off] at pumps; exact Bool.noConfusion pumps
    exact ok.changeover ((returnOrder_turns g c s).same (updStation_duties _ fun _ => rfl)) (staffed_of_state on)
      (ok.pumps (.inl pumps))
  · exact ok

/-- A station that runs an order stands as Table 6.4 gives in STRIP, with REDUCED commanded. -/
theorem State.StationsOk.enterStrip {g : Nat} (runs : (s.station g).state.runs = true) : (s.enterStrip g).StationsOk :=
  ((commandPump_turns g .runReduced s).trans (updStation_turns (f := ({ · with state := .strip })) (f' := fun d => (.strip, d.2)) _
    fun _ => rfl) |>.same (restartWatch_duties g _)).stationsOk ok fun _ ⟨manned, _⟩ => ⟨manned.trans runs, rfl⟩

/-- A station that runs an order with its pump at RUN FULL stands as Table 6.4 gives once it has entered DISCHARGE. -/
theorem State.StationsOk.enterDischarge {g : Nat} (runs : (s.station g).state.runs = true)
    (full : (s.station g).pumpCommanded = .runFull) : (s.enterDischarge g).StationsOk := by
  have on : (s.station g).state ≠ .off := fun off => by rw [off] at runs; exact Bool.noConfusion runs
  have enters : s.turns (State.restartWatch g (s.updStation g ({ · with state := .discharge, deadline := none }))) g
      fun d => (.discharge, d.2) := (updStation_turns s fun _ => rfl).same (restartWatch_duties g _)
  have entered := enters.stationsOk ok fun _ ⟨manned, _⟩ =>
    ⟨manned.trans runs, by simp only [Station.duty, full]; rfl⟩
  have state := state_of_turns enters (staffed_of_state on)
  unfold State.enterDischarge
  dsimp only
  generalize State.restartWatch g _ = u at entered state
  split
  · split
    · exact entered.completeOrder .met (by rw [state]; rfl)
    · split
      · exact entered.interrupt .stale (by rw [state]; rfl)
      · split
        · exact entered.interrupt .stress (by rw [state]; rfl)
        · split
          · exact entered.enterStrip (by rw [state]; rfl)
          · exact entered
  · exact entered

/-! ### Trips and LOCAL -/

theorem State.StationsOk.trip (g : Nat) (c : TripCause) : (s.trip g c).StationsOk := by
  unfold State.trip
  dsimp only
  have stops : s.turns (State.commandPump g .stop (s.updStation g ({ · with lastTrip := some c }))) g
      fun d => (d.1, d.2.1, .stop) := (updStation_turns (f := ({ · with lastTrip := some c })) (f' := id) s fun _ => rfl).trans
      (commandPump_turns g .stop _)
  have shut := (commandValve_commanded (.suction g) .shut _).trans (commandValve_commanded (.overboard g) .shut
    (State.commandValve (.suction g) .shut (State.commandPump g .stop (s.updStation g ({ · with lastTrip := some c })))))
  exact ((((stops.same shut.duties).trans (returnOrder_turns g .trip _)).trans
    (updStation_turns (f' := fun d => (.tripped, d.2)) _ fun _ => rfl)).same
      ((reroute_duties g _).trans (shutTanks_duties _ _))).stationsOk ok fun _ _ => ⟨rfl, rfl⟩

theorem State.StationsOk.tripWorking (g : Nat) (c : TripCause) : (s.tripWorking g c).StationsOk := by
  unfold State.tripWorking
  split
  · exact ok.trip g c
  · split
    · exact stationsOk_congr (updStation_duties s fun _ => rfl) ok
    · exact ok

theorem State.StationsOk.enterLocal (g : Nat) : (s.enterLocal g).StationsOk := by
  have goes := (returnOrder_turns g .localControl s).same (disown_duties (s.ownedTanks g) _)
  have line (u : State) : u.turns (u.localLine g) g fun d => (.localControl, d.2) :=
    (updStation_turns (f := Station.toLocal) _ fun _ => rfl)
  rw [enterLocal_eq]
  exact ((goes.trans (line _)).same (reroute_duties g _)).stationsOk ok fun _ _ => ⟨rfl, rfl⟩

theorem State.StationsOk.leaveLocal {g : Nat} (away : (s.station g).state = .localControl) : (s.leaveLocal g).StationsOk := by
  have stops := (sendPump_turns g .stop s).trans (updStation_turns (f := fun st => { st with
    state := .stopping .rundown, deadline := some (later s.clock st.rundown), resuming := true, localFlag := true })
    (f' := fun d => (.stopping .rundown, d.2)) _ fun _ => rfl)
  have stopped := stops.stationsOk ok fun _ ⟨manned, _⟩ => by
    simp only [Station.duty, away] at manned
    exact ⟨manned, rfl⟩
  unfold State.leaveLocal
  dsimp only
  split
  · exact stopped
  · exact stopped

theorem State.StationsOk.orderGone (g k : Nat) : (s.orderGone g k).StationsOk := by
  unfold State.orderGone
  have gives := givenUp_turns (f := ({ · with active := none })) (fun _ => rfl) g k s
  split
  · rename_i lineup
    obtain ⟨x, states, closes⟩ := enterClosing_turns g (s.givenUp g k ({ · with active := none }))
    refine (gives.trans closes).stationsOk ok fun _ ⟨_, admits⟩ => ?_
    simp only [Station.duty, lineup] at admits
    obtain rfl | rfl := states <;> exact ⟨rfl, admits⟩
  · exact (gives.trans (enterRundown_turns g _)).stationsOk ok fun _ _ => ⟨rfl, rfl⟩
  · exact (gives.trans (enterRundown_turns g _)).stationsOk ok fun _ _ => ⟨rfl, rfl⟩
  · rename_i state
    exact ok.changeover (turns_refl s g) (staffed_of_state (by rw [state]; simp)) (ok.pumps (.inl (by rw [state]; rfl)))
  · rename_i state
    exact ok.changeover (turns_refl s g) (staffed_of_state (by rw [state]; simp)) (ok.pumps (.inl (by rw [state]; rfl)))
  · exact ok

/-- HALT returns a station's order, and the station stands in STOPPING or stays (R92). -/
theorem State.StationsOk.haltStation (g : Nat) : (s.haltStation g).StationsOk := by
  have returns (k : Nat) : s.turns (State.addClosing g k (s.returnOrder g .halt)) g fun d => (d.1, none, d.2.2) :=
    (returnOrder_turns g .halt s).same (updStation_duties _ fun _ => rfl)
  unfold State.haltStation
  split
  case h_1 k lineup _ =>
    obtain ⟨x, states, closes⟩ := enterClosing_turns g (State.addClosing g k (s.returnOrder g .halt))
    refine ((returns k).trans closes).stationsOk ok fun _ ⟨_, admits⟩ => ?_
    simp only [Station.duty, lineup] at admits
    obtain rfl | rfl := states <;> exact ⟨rfl, admits⟩
  case h_6 => exact ok
  all_goals exact ((returns _).trans (enterRundown_turns g _)).stationsOk ok fun _ _ => ⟨rfl, rfl⟩

/-! ### Valves -/

theorem State.StationsOk.shutTanks (ks : List Nat) : (ks.foldl (fun s k => s.shutTank k) s).StationsOk :=
  stationsOk_congr (shutTanks_duties ks s) ok

theorem State.StationsOk.closingTest (g : Nat) : (s.closingTest g).StationsOk := by
  obtain same | ⟨closing, turns⟩ := closingTest_turns g s
  · exact stationsOk_congr same ok
  · refine turns.stationsOk ok fun _ ⟨manned, admits⟩ => ?_
    simp only [Station.duty, closing] at manned admits
    exact ⟨manned, admits⟩

theorem State.StationsOk.lineupTest (g : Nat) : (s.lineupTest g).StationsOk := by
  unfold State.lineupTest
  split
  · rename_i opens
    refine ((commandPump_turns g .runFull s).trans (updStation_turns (f' := fun d => (.priming, d.2)) _ fun _ => rfl)).stationsOk
      ok fun _ ⟨manned, _⟩ => ?_
    simp only [Station.duty, opens.1] at manned
    exact ⟨manned, rfl⟩
  · exact ok

theorem State.StationsOk.changeoverTest (g : Nat) : (s.changeoverTest g).StationsOk := by
  unfold State.changeoverTest
  split
  · rename_i released
    split
    · have there : s.staffed g := staffed_of_state (by rw [released.1]; simp)
      have pumps := commandPump_turns g .runFull s
      have full := pumps.stationsOk ok fun _ ⟨manned, _⟩ => ⟨manned, by simp only [Station.duty, released.1]; rfl⟩
      have duty := duty_of_turns pumps there
      exact full.enterDischarge (by rw [show (State.station _ g).state = _ from congrArg (·.1) duty]; simp [Station.duty, released.1]; rfl)
        (congrArg (·.2.2) duty)
    · exact ok.trip g .valveLost
  · exact ok

theorem State.StationsOk.valveConfirmed (v : ValveId) : (s.valveConfirmed v).StationsOk := by
  unfold State.valveConfirmed
  split
  · exact ok
  · split
    · split
      · exact ((stationsOk_congr (releaseIfShut_duties _ s) ok).changeoverTest _).closingTest _
      · split
        · exact ok.shutTanks _
        · exact ok.lineupTest _
    · exact (ok.lineupTest _).closingTest _

theorem State.StationsOk.updValve (v : ValveId) (f : Valve → Valve) : (s.updValve v f).StationsOk :=
  stationsOk_congr (updValve_duties v f s) ok

theorem State.StationsOk.valveReport (v : ValveId) (p : ValveReported) : (s.valveReport v p).StationsOk := by
  unfold State.valveReport
  dsimp only
  split
  · exact (ok.updValve v _).valveConfirmed v
  · split
    · split
      · exact (ok.updValve v _).tripWorking _ _
      · exact ok.updValve v _
    · exact ok.updValve v _

theorem State.StationsOk.travelTimeout (v : ValveId) : (s.travelTimeout v).StationsOk := by
  unfold State.travelTimeout
  dsimp only
  split
  · exact (ok.updValve v _).tripWorking _ _
  · exact ok.updValve v _

/-! ### Pump reports, deadlines and the dry-run watch -/

/-- A change of a station's record that is none of its state, its order and its pump command. -/
theorem State.StationsOk.recorded {g : Nat} {f : Station → Station} (same : ∀ st, (f st).duty = st.duty) :
    (s.updStation g f).StationsOk := stationsOk_congr (updStation_duties s same) ok

theorem State.StationsOk.pumpReport (g : Nat) (p : PumpReport) : (s.pumpReport g p).StationsOk := by
  have told : (s.updStation g ({ · with pumpReported := PumpReport.reported p })).StationsOk := ok.recorded fun _ => rfl
  unfold State.pumpReport
  dsimp only
  split
  case h_2 => exact told.tripWorking g _
  case h_9 => exact told
  all_goals exact told.trip g _

theorem State.StationsOk.primingEnds {g : Nat} (primes : (s.station g).state = .priming) : (s.primingEnds g).StationsOk := by
  have ended : (s.updStation g ({ · with deadline := none })).StationsOk := ok.recorded fun _ => rfl
  have duty := duty_of_turns (updStation_turns (f := ({ · with deadline := none })) (f' := id) s fun _ => rfl)
    (staffed_of_state (g := g) (by rw [primes]; simp))
  have state : (State.station _ g).state = (s.station g).state := congrArg (·.1) duty
  unfold State.primingEnds
  dsimp only
  split
  · refine ended.enterDischarge (by rw [state, primes]; rfl) ?_
    have admits := (ended.here g).2
    rw [duty] at admits
    simp only [id, Station.duty, primes, StationState.admits, decide_eq_true_eq] at admits
    exact (congrArg (·.2.2) duty).trans admits
  · exact ended.trip g .startFail

theorem State.StationsOk.rundownEnds {g : Nat} (runsDown : (s.station g).state = .stopping .rundown) :
    (s.rundownEnds g).StationsOk := by
  have ended : (s.updStation g ({ · with deadline := none })).StationsOk := ok.recorded fun _ => rfl
  have state := state_of_turns (updStation_turns (f := ({ · with deadline := none })) (f' := id) s fun _ => rfl)
    (staffed_of_state (g := g) (by rw [runsDown]; simp))
  unfold State.rundownEnds
  dsimp only
  split
  · obtain ⟨x, states, closes⟩ := enterClosing_turns g (s.updStation g ({ · with deadline := none }))
    refine closes.stationsOk ended fun _ ⟨manned, admits⟩ => ?_
    simp only [Station.duty, state, id, runsDown] at manned admits
    obtain rfl | rfl := states <;> exact ⟨manned, admits⟩
  · exact ended.trip g .stopFail

theorem State.StationsOk.stateTimerEnds (g : Nat) : (s.stateTimerEnds g).StationsOk := by
  unfold State.stateTimerEnds
  split
  · exact ok.primingEnds ‹_›
  · exact ok.rundownEnds ‹_›
  · exact ok

theorem State.StationsOk.dryRunActs (g : Nat) : (s.dryRunActs g).StationsOk := by
  unfold State.dryRunActs
  split
  · rename_i dry
    simp only [State.runsDry, Bool.and_eq_true] at dry
    split
    · exact ok.trip g .dryRun
    · exact ok.completeOrder .residual dry.1
  · exact ok

theorem State.StationsOk.feedStation (g mass : Nat) : (s.feedStation g mass).StationsOk := by
  unfold State.feedStation
  dsimp only
  split
  · split
    · exact stationsOk_congr (watchRate_duties g _) (ok.recorded fun _ => rfl)
    · exact ok.recorded fun _ => rfl
  · exact ok

/-! ### The end of a step, and changes handed on -/

theorem State.StationsOk.haltTest : s.haltTest.StationsOk := guarded_keeps (P := State.StationsOk) ok ok

theorem State.StationsOk.settle (all : Bool) (before : State) : (s.settle all before).StationsOk :=
  unordered_keeps State.StationsOk (fun _ h => h) (fun g _ _ h => h.look g) ok.haltTest

theorem State.StationsOk.completionCheck (g k : Nat) : (s.completionCheck g k).StationsOk := by
  unfold State.completionCheck
  split
  · rename_i met
    exact ok.completeOrder .met met.1
  · exact ok

theorem State.StationsOk.ballastSounding (k : Nat) : (s.ballastSounding k).StationsOk :=
  foldl_keeps (P := State.StationsOk) (fun g _ _ h => (h.feedStation g _).completionCheck g k) ok

theorem State.StationsOk.ballastPutMass (k : Nat) : (s.ballastPutMass k).StationsOk :=
  foldl_keeps (P := State.StationsOk) (fun g _ _ h => h.completionCheck g k) ok

theorem State.StationsOk.ballastStale (k : Nat) : (s.ballastStale k).StationsOk :=
  foldl_keeps (P := State.StationsOk) (fun g _ t h => by split; exacts [h.interrupt .stale ‹_›, h]) ok

theorem State.StationsOk.ballastBelow (k : Nat) : (s.ballastBelow k).StationsOk :=
  foldl_keeps (P := State.StationsOk) (fun g _ t h => by
    split
    · rename_i discharges
      exact h.enterStrip (by rw [discharges]; rfl)
    · exact h) ok

theorem State.StationsOk.ballastPublication (r : ResultSet) : (s.ballastPublication r).StationsOk :=
  unordered_keeps State.StationsOk (fun _ h => h) (fun g _ t h => by
    split
    · rename_i acts
      simp only [State.stressActs, Bool.and_eq_true] at acts
      exact h.interrupt .stress acts.1
    · exact h) ok

theorem State.StationsOk.keptChange (c : KeptChange) : (c.act s).StationsOk := by
  cases c with
  | publication r => exact ok.ballastPublication r
  | stale k => exact ok.ballastStale k
  | belowStrip k => exact ok.ballastBelow k

theorem State.StationsOk.handBallast (c : KeptChange) {act : State → State} (acts : (act s).StationsOk) :
    (s.handBallast c act).StationsOk := by
  unfold State.handBallast
  split
  · exact ok
  · exact acts.settle true s

theorem State.StationsOk.deferredEvent (e : DeferredEvent) : (e.act s).StationsOk := by
  cases e with
  | valve v => exact guarded_keeps ((ok.travelTimeout v).settle false s) ok
  | station g => exact guarded_keeps ((ok.stateTimerEnds g).settle false s) ok
  | change c => exact (ok.keptChange c).settle true s

theorem State.StationsOk.takeDeferred : s.takeDeferred.StationsOk :=
  foldl_keeps (P := State.StationsOk) (fun e _ _ h => h.deferredEvent e) ok

theorem State.StationsOk.linkLost : s.linkLost.StationsOk :=
  State.StationsOk.settle (unordered_keeps State.StationsOk (fun _ h => h) (fun g _ _ h => h.tripWorking g .linkLost) ok) false s

theorem State.StationsOk.silenceExpires : s.silenceExpires.StationsOk :=
  guarded_keeps (State.StationsOk.linkLost (s := { s with field.live := false }) ok) ok

theorem State.StationsOk.staleExpires (k : Nat) : (s.staleExpires k).StationsOk := by
  have stored : (s.updTank k Tank.staled).oweComputation.StationsOk := by
    unfold State.StationsOk; rw [State.oweComputation_ballast]; exact ok
  exact guarded_keeps (stored.handBallast _ (stored.ballastStale k)) ok

theorem State.StationsOk.settleExpires (k : Nat) : (s.settleExpires k).StationsOk :=
  have stored : (s.updTank k ({ · with strip := .below })).StationsOk := ok
  guarded_keeps (stored.handBallast _ (stored.ballastBelow k)) ok

theorem State.StationsOk.intervalEffect (e : IntervalEffect) : (e.act s).StationsOk := by
  cases e with
  | stale k => exact ok.staleExpires k
  | settle k => exact ok.settleExpires k
  | silence => exact ok.silenceExpires

/-! ### The sequencer's own commands -/

theorem State.StationsOk.runSequencer : s.runSequencer.StationsOk :=
  guarded_keeps ok (State.StationsOk.settle (s := { s with ballast.state := .running }) ok true _)

theorem State.StationsOk.haltSequencer : s.haltSequencer.StationsOk :=
  State.StationsOk.settle (unordered_keeps State.StationsOk (fun _ h => h) (fun g _ _ h => h.haltStation g)
    (show State.StationsOk { s with ballast.state := .halting } from ok)) false _

theorem State.StationsOk.rearmed {g : Nat} (tripped : (s.station g).state = .tripped) :
    (s.updStation g ({ · with state := .off })).StationsOk :=
  (updStation_turns (f' := fun d => (.off, d.2)) s fun _ => rfl).stationsOk ok fun _ ⟨manned, admits⟩ => by
    simp only [Station.duty, tripped] at manned admits
    exact ⟨manned, admits⟩

theorem State.StationsOk.switchReport (g : Nat) (p : SwitchPosition) : (s.switchReport g p).StationsOk := by
  have switched : (s.updStation g ({ · with switch := p })).StationsOk := ok.recorded fun _ => rfl
  unfold State.switchReport
  dsimp only
  split
  · exact switched.enterLocal g
  · split
    · rename_i away
      exact switched.leaveLocal away.2
    · exact switched

end Kept
end Sys2Proof.Machine
end

