-- ==== Sys2Proof/Proofs/StationsStep.lean ====
section
/-! PROOFS. O7: every step leaves each station with the order and the pump command that its state admits (spec 06 Table 6.4): the
commands are taken by the link that they come on, and a start lays every station out anew. -/

namespace Sys2Proof.Machine

section Commands

variable {s t : State} (ok : s.StationsOk)
include ok

/-! ### Changes beside the Ballast Sequencer -/

theorem State.StationsOk.of_ballast (same : t.ballast = s.ballast) : t.StationsOk := by
  unfold State.StationsOk; rw [same]; exact ok

theorem State.StationsOk.onlyPours (h : s.onlyPours t) : t.StationsOk := ok.of_ballast (by rw [h])

theorem State.StationsOk.onlyChannels (h : s.onlyChannels t) : t.StationsOk := ok.of_ballast (by rw [h])

theorem State.StationsOk.marks (p q : Bool) :
    State.StationsOk (if q then (if p then s.markDirty else s).oweComputation else if p then s.markDirty else s) := by
  have marked : State.StationsOk (if p then s.markDirty else s) := guarded_keeps (ok.onlyPours (markDirty_onlyPours s)) ok
  exact guarded_keeps (marked.onlyPours (oweComputation_onlyPours _)) marked

theorem State.StationsOk.goodSounding (k reading : Nat) : (s.goodSounding k reading).StationsOk := by
  have stored : (s.updTank k (·.sounded (s.tankData k) s.clock reading)).StationsOk := ok
  exact ((stored.marks _ _).ballastSounding k).settle true _

theorem State.StationsOk.publish (r : ResultSet) : (s.publish r).StationsOk := by
  have published : State.StationsOk { s with
    engine.state := .idle, engine.live := some r
    engine.strengthFlag := s.engine.strengthFlag || statusChanged s.engine.live r } := ok
  have owes := (published.onlyPours (oweComputation_onlyPours _)).onlyPours
    (onlyPours_trans (oweDerivation_onlyPours .l1 _) (oweDerivation_onlyPours .l2 _))
  have told : State.StationsOk (State.draftStepTest r _) := guarded_keeps (owes.onlyPours (makeDue_onlyPours .draft _)) owes
  exact told.handBallast _ (told.ballastPublication r)

theorem State.StationsOk.storeBerth (draft : Nat) (source : BerthSource) : (s.storeBerth draft source).StationsOk := by
  have stored : State.StationsOk { s with berth.maxDraft := draft, berth.source := source } := ok
  unfold State.storeBerth
  dsimp only
  split
  · exact (stored.onlyPours (markDirty_onlyPours _)).onlyPours (makeDue_onlyPours _ _)
  · exact guarded_keeps (stored.onlyPours (makeDue_onlyPours _ _)) stored

theorem State.StationsOk.storeSettings (ps : List Pair) : (s.storeSettings ps).StationsOk := by
  have stored : State.StationsOk { s with settings := s.settings.afterPut ps } := ok
  unfold State.storeSettings
  dsimp only
  refine guarded_keeps (unordered_keeps State.StationsOk (fun _ h => h) (fun e _ _ h => h.intervalEffect e) ?_) ?_
  all_goals
    refine guarded_keeps (State.StationsOk.of_ballast ?_ rfl) ?_
    all_goals exact guarded_keeps (stored.onlyPours (markDirty_onlyPours _)) stored

/-! ### Puts -/

theorem State.StationsOk.putTank (k : Nat) (ps : List Pair) : (s.putTank k ps).state.StationsOk := by
  refine takePut_keeps ?_ ok
  have stored : (s.updTank k (·.afterPut (s.tankData k) ps)).StationsOk := ok
  have marked := stored.marks (decide (((s.updTank k (·.afterPut (s.tankData k) ps)).tank k).current ≠ (s.tank k).current))
    (decide (((s.updTank k (·.afterPut (s.tankData k) ps)).tank k).current ≠ (s.tank k).current) ||
      decide ((s.tank k).status = .stale ∧ ((s.updTank k (·.afterPut (s.tankData k) ps)).tank k).status ≠ .stale))
  have told := guarded_keeps (p := decide (((s.updTank k (·.afterPut (s.tankData k) ps)).tank k).current ≠ (s.tank k).current) = true)
    (marked.ballastPutMass k) marked
  exact guarded_keeps (told.settle true _) told

theorem State.StationsOk.enterOrder (k : Nat) (ps : List Pair) : (s.enterOrder k ps).StationsOk := by
  unfold State.enterOrder
  dsimp only
  exact guarded_keeps (State.StationsOk.settle (s := State.setQueue _ _ (s.setOrder k _)) ok false s) ok

theorem State.StationsOk.amendOrder (k : Nat) (o : Order) (ps : List Pair) : (s.amendOrder k o ps).StationsOk := by
  unfold State.amendOrder
  split
  · exact ok
  · have aimed (f : Order → Order) : (s.updOrder k f).StationsOk := ok
    exact guarded_keeps (((aimed _).look o.group).settle false _) (aimed _)

theorem State.StationsOk.putOrder (k : Nat) (ps : List Pair) : (s.putOrder k ps).state.StationsOk := by
  have entered : (s.putNewOrder k ps).state.StationsOk := takePut_keeps (ok.enterOrder k ps) ok
  unfold State.putOrder
  split
  · exact entered
  · split
    · exact entered
    · exact takePut_keeps (ok.amendOrder k _ ps) ok

theorem State.StationsOk.putStation (g : Nat) (ps : List Pair) : (s.putStation g ps).state.StationsOk := by
  have stored : (s.updStation g (·.afterPut ps)).StationsOk := ok.recorded fun _ => rfl
  have watched : State.StationsOk (State.watchRate g _) := stationsOk_congr (watchRate_duties g _) stored
  exact takePut_keeps (guarded_keeps (guarded_keeps ((watched.dryRunActs g).settle false _) stored) stored) ok

theorem State.StationsOk.putRecord (x : Table) (k : Nat) (ps : List Pair) : (s.putRecord x k ps).state.StationsOk := by
  unfold State.putRecord
  split
  · cases x with
    | hold =>
      refine takePut_keeps ?_ ok
      split
      · exact ok.onlyPours (onlyPours_trans (updHold_onlyPours _ _ s) (deriveHold_onlyPours _ _))
      · exact ok
    | tank => exact ok.putTank k ps
    | item =>
      refine takePut_keeps ?_ ok
      split
      · have stored (m : Nat) : State.StationsOk { s with items := modify1 s.items k fun _ => m } := ok
        exact guarded_keeps (stored _) ((stored _).onlyPours (markDirty_onlyPours _))
      · exact ok
    | pour =>
      dsimp only
      unfold State.putPour
      split
      · exact ok.onlyPours (createPour_onlyPours k ps s)
      · exact ok.onlyPours (amendPour_onlyPours k _ ps s)
    | order => exact ok.putOrder k ps
    | station => exact ok.putStation k ps
    | channel =>
      dsimp only
      cases loaderOfKey k with
      | none => exact ok
      | some l =>
        show (s.putChannel l ps).state.StationsOk
        refine takePut_keeps ?_ ok
        split
        · exact ok.onlyChannels (storeAction_frame l _ s)
        · exact ok
    | berth =>
      refine takePut_keeps ?_ ok
      split
      · exact ok.storeBerth _ _
      · exact ok
    | settings => exact takePut_keeps (ok.storeSettings ps) ok
    | valve | result | clearance | profile | trial | changes => exact ok
  · exact ok

/-! ### RETIRE, CLEAR and the actions -/

theorem State.StationsOk.retireRecord (x : Table) (k : Nat) : (s.retireRecord x k).state.StationsOk := by
  unfold State.retireRecord
  split
  · unfold State.retirePour
    split
    · exact ok
    · split
      · exact ok.onlyPours (removePour_onlyPours _ s)
      · exact ok
  · unfold State.retireOrder
    split
    · exact ok
    · split
      · exact State.StationsOk.settle (foldl_keeps (P := State.StationsOk) (fun g _ _ h => h.orderGone g k)
          (show (s.setOrder k none).StationsOk from ok)) false s
      · exact ok
  · exact ok

theorem State.StationsOk.clearRecord (codes : List Octet) (x : Table) (k : Nat) : (s.clearRecord codes x k).state.StationsOk := by
  have cleared (f : FlagKind) (u : State) (h : u.StationsOk) : (u.clearFlag x k f).StationsOk := by
    unfold State.clearFlag
    split
    case h_3 | h_4 | h_5 | h_6 => exact h.recorded fun _ => rfl
    all_goals exact h
  unfold State.clearRecord
  split
  · exact ok
  · split
    · exact ok
    · split
      · exact ok
      · exact foldl_keeps (fun f _ u h => cleared f u h) ok

theorem State.StationsOk.haltAnswer : s.haltAnswer.state.StationsOk := by
  unfold State.haltAnswer
  split
  · exact ok.haltSequencer
  · exact ok

theorem State.StationsOk.rearmAnswer (g : Nat) : (s.rearmAnswer g).state.StationsOk := by
  unfold State.rearmAnswer
  split
  · exact ok
  · split
    · exact ok
    · split
      · rename_i may
        simp only [State.mayRearm, Bool.and_eq_true, decide_eq_true_eq] at may
        exact (ok.rearmed may.1.1).settle false s
      · exact ok

theorem State.StationsOk.endPourAnswer (n : Nat) : (s.endPourAnswer n).state.StationsOk := by
  unfold State.endPourAnswer
  split
  · split
    · exact ok
    · split
      · exact ok.onlyPours (closePour_onlyPours _ s)
      · exact ok
  · exact ok

theorem State.StationsOk.trialPutAnswer (ps : List Pair) : (s.trialPutAnswer ps).state.StationsOk := by
  unfold State.trialPutAnswer
  split
  · exact ok
  · split
    · exact takePut_keeps (P := State.StationsOk) ok ok
    · exact ok

omit ok in
/-- The stations after a RESTART rest, none with an order. -/
theorem restart_stationsOk (s : State) : s.restart.StationsOk := by
  have rests : ∀ st ∈ s.ballast.stations.map Station.restarted, st.Ok := by
    intro st mem
    obtain ⟨old, -, rfl⟩ := List.mem_map.1 mem
    unfold Station.restarted
    dsimp only
    split <;> exact ⟨rfl, rfl⟩
  exact State.StationsOk.onlyChannels (s := { s.restartBallast with
    holds := s.holds.map Hold.idle
    pours := {
      list := s.pours.list.map Pour.interrupted, estimators := ⟨.closed, .closed⟩
      computationsOwed := s.pours.computationsOwed + s.restartBallast.restartCauses }
    channels := ⟨s.channels.l1.restarted, s.channels.l2.restarted⟩
    engine := { s.engine.closeTrial with dirty := true }
    terminal := { s.terminal with
      lastClearance := ⟨none, none⟩, lastFore := none, lastAft := none, receiving := none }
    ship.busyOwed := none }) rests (deriveBoth_frame _ _)

theorem State.StationsOk.purgeOne : s.purgeOne.StationsOk := by
  have tested {u : State} (h : u.StationsOk) : u.purgeTest.StationsOk := guarded_keeps (P := State.StationsOk) h h
  unfold State.purgeOne
  split
  · exact tested ok
  · exact tested (ok.onlyPours (removePour_onlyPours _ s))

/-! ### Starts -/

omit ok in
theorem enterFault_stationsOk (f : Finding) (s : State) : (s.enterFault f).StationsOk := fun _ mem => absurd mem List.not_mem_nil

omit ok in
/-- Every station rests where its records are laid out at a start. -/
theorem loadClean_stationsOk (image : List Octet) (h : Hull) (s : State) : (s.loadClean image h).StationsOk := by
  have started (u : State) (o : StartOutcome) (check : BitVec 16) (rests : u.StationsOk) :
      (u.withStartValves.enterReady o check).StationsOk := rests
  unfold State.loadClean
  dsimp only
  split
  · refine started _ .warm _ ?_
    obtain ⟨w, records, -, -, -, -, stations⟩ := warmRecords_begin { s with startUp.profile := loadedProfile image h }
    unfold State.StationsOk
    rw [records, warmReturns_stations, stations]
    intro st mem
    obtain ⟨old, -, rfl⟩ := List.mem_map.1 mem
    exact ⟨rfl, rfl⟩
  · refine started _ .cold _ fun st mem => ?_
    rw [List.eq_of_mem_replicate mem]
    exact ⟨rfl, rfl⟩

theorem State.StationsOk.pfailAssert : State.StationsOk (
    let s1 := { s with
      pfail := true, ship.busyOwed := none, ship.receiving := none, terminal.receiving := none
      field.receiving := none }
    let s2 := if s.ready then s1.writeMarker else s1
    if s.hasChannels then s2.pfailChannels else s2) := by
  have asserted : State.StationsOk { s with
    pfail := true, ship.busyOwed := none, ship.receiving := none, terminal.receiving := none
    field.receiving := none } := ok
  refine guarded_keeps (State.StationsOk.onlyChannels ?_ (pfailChannels_frame _)) ?_
  all_goals exact guarded_keeps (asserted.of_ballast rfl) asserted

theorem State.StationsOk.pfailDeassert : State.StationsOk (
    let s' := { s with pfail := false, ship := .idle }
    if s.ready then s'.resumeReady else s') := by
  have deasserted : State.StationsOk { s with pfail := false, ship := .idle } := ok
  have watched : State.StationsOk (State.restartSilence
    { s with pfail := false, ship := .idle, startUp.marker := { s.startUp.marker with valid := false } }) := ok
  exact guarded_keeps (watched.onlyChannels (expireTallies_frame _)).takeDeferred deasserted

/-! ### Commands by the link that they come on -/

theorem State.StationsOk.request {kind : Nat} {head : ShipHead} {respond : State → Answer}
    (answer : (respond s).state.StationsOk) : (s.takeRequest kind head respond).StationsOk :=
  takeRequest_keeps (fun _ _ h => h) answer ok

theorem State.StationsOk.record {kind : Nat} {head : ShipHead} {look : Bool} {named : State → Table → Nat → Bool}
    {respond : Table → Nat → State → Answer} (answer : ∀ x k, (respond x k s).state.StationsOk) :
    (s.takeRequest kind head fun s => s.recordRequest head look named respond).StationsOk :=
  ok.request (recordRequest_keeps answer ok)

theorem State.StationsOk.action {kind : Nat} {head : ShipHead} {waits : Bool} {respond : State → Answer}
    (answer : (respond s).state.StationsOk) :
    (s.takeRequest kind head fun s => s.actionRequest waits respond).StationsOk :=
  ok.request (actionRequest_keeps answer ok)

theorem State.StationsOk.trial {kind : Nat} {head : ShipHead} {respond : State → Answer}
    (answer : (respond s).state.StationsOk) :
    (s.takeRequest kind head fun s => s.trialRequest head respond).StationsOk :=
  ok.request (trialRequest_keeps answer ok)

theorem State.StationsOk.notice {kind : NoticeKind} {l : Option Loader} {q : Option (BitVec 16)} {r : Reason}
    {act : State → State} (acts : ∀ t : State, t.StationsOk → (act t).StationsOk) : (s.takeNotice kind l q r act).StationsOk :=
  takeNotice_keeps (fun _ _ h => h) acts ok

theorem State.StationsOk.field {present : State → Bool} {act : State → State}
    (acts : ∀ t : State, t.StationsOk → (act t).StationsOk) : (s.takeField present act).StationsOk :=
  takeField_keeps (fun _ _ h => h) acts ok

theorem State.StationsOk.placeReply (r : NoticeReply) : (s.placeReply r).StationsOk :=
  ok.of_ballast (State.placeReply_ballast r s)

theorem State.StationsOk.livePassEnd : State.StationsOk (
    if s.ready then
      match s.engine.state with
      | .livePass snap => s.publish (evaluate s.hull snap (nextGeneration s.generation))
      | _ => s
    else s) := by
  split
  · split
    · exact ok.publish _
    · exact ok
  · exact ok

/-! ### Every command -/

/-- Every command completes in a state whose stations stand as Table 6.4 gives. -/
theorem State.StationsOk.exec (c : Instr) : ∀ t, exec c s = .next t → t.StationsOk := by
  cases c with
  | powerOn => rintro _ ⟨⟩; exact guarded_keeps ok ok
  | powerLoss | resetNAssert | resetNRelease | shipFrameDiscard | shipFrameIncompleteTimeout | shipFrameBusyOwed | shipReplyEnd
  | terminalFrameDiscard | terminalFrameEnd | fieldFrameDiscard | fieldFrameIncompleteTimeout | fieldSendStart | fieldFrameEnd
  | livePassStart | timeBaseTick => rintro _ ⟨⟩; exact guarded_keeps (P := State.StationsOk) ok ok
  | profileReadComplete r =>
    rintro _ ⟨⟩
    refine guarded_keeps ?_ ok
    split
    · exact enterFault_stationsOk _ s
    · exact loadClean_stationsOk _ _ s
  | profileReadTimeout => rintro _ ⟨⟩; exact guarded_keeps (enterFault_stationsOk .noImage s) ok
  | pfailAssert => rintro _ ⟨⟩; exact guarded_keeps ok.pfailAssert ok
  | pfailDeassert => rintro _ ⟨⟩; exact guarded_keeps ok.pfailDeassert ok
  | look => rintro _ ⟨⟩; exact ok.record fun _ _ => ok
  | put _ pairs => rintro _ ⟨⟩; exact ok.record fun x k => ok.putRecord x k pairs
  | retire => rintro _ ⟨⟩; exact ok.record fun x k => ok.retireRecord x k
  | clear _ codes => rintro _ ⟨⟩; exact ok.record fun x k => ok.clearRecord codes x k
  | run => rintro _ ⟨⟩; exact ok.action (keyless_keeps (unlessFault_keeps ok.runSequencer ok) ok)
  | halt => rintro _ ⟨⟩; exact ok.action (keyless_keeps ok.haltAnswer ok)
  | rearm => rintro _ ⟨⟩; exact ok.action (ok.rearmAnswer _)
  | release =>
    rintro _ ⟨⟩
    refine ok.action ?_
    split
    · exact ok.onlyChannels (release_frame s _)
    · exact ok
  | force =>
    rintro _ ⟨⟩
    refine ok.action ?_
    split
    · exact ok.onlyChannels (force_frame _ _ s)
    · exact ok
  | endPour => rintro _ ⟨⟩; exact ok.action (ok.endPourAnswer _)
  | restart =>
    rintro _ ⟨⟩
    refine ok.action (keyless_keeps ?_ ok)
    split
    · exact restart_stationsOk s
    · exact ok
  | purge =>
    rintro _ ⟨⟩
    refine ok.action (keyless_keeps ?_ ok)
    split
    · exact ok
    · exact ok
  | purgeStep => rintro _ ⟨⟩; exact guarded_keeps ok.purgeOne ok
  | reload =>
    rintro _ ⟨⟩
    refine ok.action ?_
    split
    · exact ok
    · split
      · exact fun _ mem => absurd mem List.not_mem_nil
      · exact ok
  | trialOpen | trialEvaluate =>
    rintro _ ⟨⟩
    refine ok.trial ?_
    split
    · exact ok
    · exact ok
  | trialPut _ pairs => rintro _ ⟨⟩; exact ok.trial (ok.trialPutAnswer pairs)
  | trialClose => rintro _ ⟨⟩; exact ok.trial ok
  | unknownRequestKind => rintro _ ⟨⟩; exact ok.request ok
  | livePassEnd => rintro _ ⟨⟩; exact ok.livePassEnd
  | trialPassStart =>
    rintro _ ⟨⟩
    refine guarded_keeps ?_ ok
    split
    · exact guarded_keeps (P := State.StationsOk) ok ok
    · exact ok
  | trialPassEnd =>
    rintro _ ⟨⟩
    refine guarded_keeps ?_ ok
    split
    · split
      · exact guarded_keeps (P := State.StationsOk) ok ok
      · exact ok
    · exact ok
  | clearanceComputation => rintro _ ⟨⟩; exact guarded_keeps (ok.of_ballast (by rw [compute_frame s])) ok
  | channelDerivation l => rintro _ ⟨⟩; exact guarded_keeps (ok.onlyChannels (takeDerivation_frame s l)) ok
  | tallyTimerExpiry l => rintro _ ⟨⟩; exact guarded_keeps (ok.onlyChannels (expireTallyTimer_frame s l)) ok
  | pourStart l n rate =>
    rintro _ ⟨⟩
    refine ok.notice fun t ok => ?_
    split
    · exact ok.placeReply _
    · exact (ok.onlyPours (acceptStart_onlyPours l _ _ t)).placeReply _
  | tally l amount =>
    rintro _ ⟨⟩
    refine ok.notice fun t ok => ?_
    split
    · exact ok.placeReply _
    · split
      · exact ok.onlyPours (acceptTally_onlyPours l _ _ t)
      · exact (ok.onlyPours (updChannel_onlyPours l _ t)).placeReply _
  | pourEnd l final =>
    rintro _ ⟨⟩
    refine ok.notice fun t ok => ?_
    split
    · exact ok.placeReply _
    · exact (ok.onlyPours (endActive_onlyPours l _ _ t)).placeReply _
  | berth draft =>
    rintro _ ⟨⟩
    refine ok.notice fun t ok => State.StationsOk.placeReply ?_ _
    exact guarded_keeps (P := State.StationsOk) (ok.storeBerth _ .terminal) (ok.storeBerth _ .terminal)
  | reportRequest slot =>
    rintro _ ⟨⟩
    have taken : State.StationsOk { s with terminal.receiving := none } := ok
    exact guarded_keeps (guarded_keeps taken (taken.onlyPours (makeDue_onlyPours slot _))) ok
  | terminalSendStart =>
    rintro _ ⟨⟩
    refine guarded_keeps ?_ ok
    unfold State.sendNext
    split
    · exact ok
    · split
      · exact ok
      · exact ok
  | sounding => rintro _ ⟨⟩; exact ok.field fun _ h => guarded_keeps (h.goodSounding _ _) h
  | valvePosition =>
    rintro _ ⟨⟩
    refine ok.field fun t h => ?_
    split
    · exact (h.valveReport _ _).settle false t
    · exact h
  | pumpStatus _ status => rintro _ ⟨⟩; exact ok.field fun t h => (h.pumpReport _ status).settle false t
  | localSwitch _ position => rintro _ ⟨⟩; exact ok.field fun t h => (h.switchReport _ position).settle false t
  | fieldSilenceExpiry => rintro _ ⟨⟩; exact ok.silenceExpires
  | staleExpiry k => rintro _ ⟨⟩; exact guarded_keeps (ok.staleExpires k) ok
  | stripSettleExpiry k => rintro _ ⟨⟩; exact guarded_keeps (ok.settleExpires k) ok
  | valveTravelTimeout v => rintro _ ⟨⟩; exact guarded_keeps ((ok.travelTimeout v).settle false s) ok
  | primingExpiry g =>
    rintro _ ⟨⟩
    split
    · rename_i due
      exact (ok.primingEnds due.2.2.1).settle false s
    · exact ok
  | rundownExpiry g =>
    rintro _ ⟨⟩
    split
    · rename_i due
      exact (ok.rundownEnds due.2.2.1).settle false s
    · exact ok
  | dryRunCondition g => rintro _ ⟨⟩; exact guarded_keeps ((ok.dryRunActs g).settle false s) ok

end Commands

/-- Settles O7: each station transition leaves the station that it moves with the order and the pump command that its new state
admits, every other command leaves the stations as they stand, and a start or a RESTART lays them out at rest. -/
theorem stepKeepsStations : Obligations.StepKeepsStations := by
  intro s t ok run
  unfold step at run
  split at run
  · obtain rfl := Host.Outcome.next.inj run
    exact ok
  · rename_i c rest _
    exact State.StationsOk.exec (s := { s with pending := rest }) ok c t run

end Sys2Proof.Machine
end

