-- ==== Sys2Proof/Proofs/StepEnd.lean ====
section
/-! PROOFS. What the end of a step leaves of each station, its queue, its line and the orders that wait nowhere, whoever looks
(spec 06 R92, R103): a station that does not stand in OFF, or has a closing tank, keeps its record. -/

namespace Sys2Proof.Machine

/-! ### What holds through every look -/

theorem haltTest_eq (s : State) : s.haltTest = s ∨ s.haltTest = { s with ballast := { s.ballast with state := .halted } } := by
  unfold State.haltTest
  split
  · exact .inr rfl
  · exact .inl rfl

/-- The end of a step keeps what the test for HALTED, the free choice and each look keep. -/
theorem settle_keeps {P : State → Prop} {s : State} (all : Bool) (before : State) (halt : P s → P s.haltTest)
    (draw : ∀ t n, P t → P { t with draws := n }) (look : ∀ g t, P t → P (t.look g)) (h : P s) : P (s.settle all before) := by
  rw [settle_eq]
  exact unordered_keeps P (fun t h => draw t _ h) (fun g _ t h => look g t h) (halt h)

/-! ### Stations -/

/-- What the end of a step can make of a station: one that stands in OFF without a closing tank may have looked. -/
structure Station.LookedFrom (x y : Station) : Prop where
  fields : y = { x with state := y.state, active := y.active, doneFlag := y.doneFlag }
  stays : x.state ≠ .off ∨ x.closing ≠ [] → y = x
  enters : x.state = .off → y.state = .off ∨ y.state = .lineup
  done : x.doneFlag = true → y.doneFlag = true

theorem Station.LookedFrom.refl (x : Station) : x.LookedFrom x := ⟨rfl, fun _ => rfl, .inl, id⟩

theorem Station.LookedFrom.trans {x y z : Station} (h : x.LookedFrom y) (k : y.LookedFrom z) : x.LookedFrom z := by
  refine ⟨by rw [k.fields, h.fields], fun stays => ?_, fun off => ?_, k.done ∘ h.done⟩
  · have same := h.stays stays
    subst same
    exact k.stays stays
  · obtain off' | lineup := h.enters off
    · exact k.enters off'
    · rw [k.stays (.inl (by rw [lineup]; simp))]
      exact .inr lineup

/-- A station in LINEUP with its three valves commanded OPEN. -/
def State.linesUp (g n : Nat) (s : State) : State :=
  (((s.updStation g ({ · with state := .lineup })).commandValve (.suction g) .opened).commandValve (.overboard g) .opened).commandValve
    (.tank n) .opened

theorem enterLineup_eq (g n : Nat) (s : State) : s.enterLineup g n = (s.linesUp g n).ownTank g n := rfl

theorem linesUp_commanded (g n : Nat) (s : State) :
    Commanded (s.updStation g ({ · with state := .lineup })) (s.linesUp g n) :=
  ((commandValve_commanded (.suction g) .opened _).trans (commandValve_commanded (.overboard g) .opened _)).trans
    (commandValve_commanded (.tank n) .opened _)

theorem station_enterLineup_cases (g n h : Nat) (s : State) : (s.enterLineup g n).station h = s.station h ∨
    h = g ∧ (s.enterLineup g n).station h = { s.station g with state := .lineup } := by
  have read : (s.enterLineup g n).station h = (s.updStation g ({ · with state := .lineup })).station h :=
    (linesUp_commanded g n s).station h
  rw [read]
  by_cases here : h = g
  · rw [here]
    exact (station_updStation_cases s g _).imp id fun lined => ⟨rfl, lined⟩
  · exact .inl (station_updStation_ne here _)

theorem station_look (g h : Nat) (s : State) : (s.station h).LookedFrom ((s.look g).station h) := by
  unfold State.look
  split
  · rename_i may
    obtain ⟨-, off, rests⟩ := mayLook_iff.1 may
    have scanned : (s.scan g).station h = s.station h ∨ h = g ∧ (s.scan g).station h = s.scanner g (s.station g) := by
      rw [scan_eq]
      by_cases here : h = g
      · rw [here]
        exact (station_updStation_cases s g (s.scanner g)).imp id fun read => ⟨rfl, read⟩
      · exact .inl (station_updStation_ne here (s.scanner g))
    have looker (here : h = g) (x : StationState) (offOrLined : x = .off ∨ x = .lineup) :
        (s.station h).LookedFrom { s.scanner g (s.station g) with state := x } := by
      subst here
      exact ⟨rfl, fun stays => absurd stays (by simp [off, rests]), fun _ => offOrLined, fun done => by simp [State.scanner, done]⟩
    have scan : (s.station h).LookedFrom ((s.scan g).station h) := by
      obtain same | ⟨here, read⟩ := scanned
      · rw [same]; exact .refl _
      · have scan := looker here .off (.inl rfl)
        rw [read]
        rwa [← off] at scan
    dsimp only
    split
    · rename_i n _
      obtain same | ⟨here, lined⟩ := station_enterLineup_cases g n h (s.scan g)
      · rw [same]; exact scan
      · rw [lined]
        subst here
        obtain same | ⟨-, read⟩ := scanned
        · rw [same]
          exact ⟨rfl, fun stays => absurd stays (by simp [off, rests]), fun _ => .inr rfl, id⟩
        · rw [read]; exact looker rfl .lineup (.inr rfl)
    · exact scan
  · exact .refl _

theorem settle_station (all : Bool) (before s : State) (h : Nat) : (s.station h).LookedFrom ((s.settle all before).station h) := by
  refine settle_keeps (P := fun t => (s.station h).LookedFrom (t.station h)) all before (fun was => ?_) (fun _ _ => id)
    (fun g t was => was.trans (station_look g h t)) (.refl _)
  obtain same | halted := haltTest_eq s
  · rw [same]; exact was
  · rw [halted]; exact was

/-! ### Lines, queues and orders -/

theorem valve_enterLineup_ne {g n : Nat} {v : ValveId} (other : v ∉ lineup g n) (s : State) :
    (s.enterLineup g n).valve v = s.valve v := by
  simp only [lineup, List.mem_cons, List.not_mem_nil, or_false, not_or] at other
  obtain ⟨suction, overboard, tank⟩ := other
  exact (valve_updValve_ne tank _).trans ((valve_commandValve_ne tank _).trans ((valve_commandValve_ne overboard _).trans
    ((valve_commandValve_ne suction _).trans (valve_updStation _ _ _ _))))

theorem valve_look_line {g h : Nat} {s : State} (rests : s.mayLook h = false ∨ g ≠ h) {v : ValveId}
    (line : v ∈ [ValveId.suction g, .overboard g]) : (s.look h).valve v = s.valve v := by
  obtain idle | other := rests
  · rw [look_of_not_mayLook idle]
  · unfold State.look
    split
    · dsimp only
      split
      · rw [valve_enterLineup_ne _ _, valve_scan]
        simp only [List.mem_cons, List.not_mem_nil, or_false] at line
        obtain rfl | rfl := line <;> simp [lineup, other]
      · exact valve_scan h s v
    · rfl

/-- The line of a station that may not look stays as it was. -/
theorem settle_line {s : State} {g : Nat} (busy : (s.station g).state ≠ .off ∨ (s.station g).closing ≠ []) (all : Bool)
    (before : State) {v : ValveId} (line : v ∈ [ValveId.suction g, .overboard g]) : (s.settle all before).valve v = s.valve v := by
  refine (settle_keeps (P := fun t => t.station g = s.station g ∧ t.valve v = s.valve v) all before (fun was => ?_)
    (fun _ _ was => ⟨was.1, by rw [← was.2]; cases v <;> rfl⟩) (fun h t was => ?_) ⟨rfl, rfl⟩).2
  · rw [haltTest_eq_afterRest, afterRest_station, afterRest_valve]; exact was
  · obtain ⟨station, valve⟩ := was
    have looked := station_look h g t
    refine ⟨?_, (valve_look_line ?_ line).trans valve⟩
    · rw [looked.stays (by rw [station]; exact busy), station]
    · by_cases here : g = h
      · subst here
        refine .inl (decide_eq_false fun may => ?_)
        rw [station] at may
        exact busy.elim (fun on => on may.2.1) fun closing => closing may.2.2
      · exact .inr here

theorem queue_look (g h : Nat) (s : State) : (s.look g).queue h = s.queue h ∨ h = g ∧ (s.look g).queue h = s.left g := by
  have scanned : (s.scan g).queue h = s.queue h ∨ h = g ∧ (s.scan g).queue h = s.left g := by
    by_cases here : h = g
    · rw [scan_eq, here]
      exact (getD_nth1_modify1_cases s.ballast.queues g _ []).imp id fun read => ⟨rfl, read⟩
    · exact .inl (queue_scan_ne here s)
  unfold State.look
  split
  · dsimp only
    split
    · rename_i n _
      rw [show (State.enterLineup g n (s.scan g)).queue h = (s.scan g).queue h from (linesUp_commanded g n _).queue h]
      exact scanned
    · exact scanned
  · exact .inl rfl

/-- A look puts no order into a queue. -/
theorem mem_queue_look {g h k : Nat} {s : State} (mem : k ∈ (s.look g).queue h) : k ∈ s.queue h := by
  obtain same | ⟨rfl, left⟩ := queue_look g h s
  · exact same ▸ mem
  · exact mem_left (left ▸ mem)

/-- An order that waits in no queue stays as it was. -/
theorem order_look_of_absent {s : State} {k : Nat} (absent : ∀ g, k ∉ s.queue g) (g : Nat) : (s.look g).order k = s.order k := by
  obtain same | scanned := orders_look g s
  · rw [State.order, same]; rfl
  · rw [State.order, scanned]
    refine order_scan_other (fun found => absent g ?_) fun takes => absent g (mem_queue_of_taken takes)
    exact mem_queue_iff.2 (.inl found)

theorem settle_order {s : State} {k : Nat} (absent : ∀ g, k ∉ s.queue g) (all : Bool) (before : State) :
    (s.settle all before).order k = s.order k := by
  refine (settle_keeps (P := fun t => (∀ g, k ∉ t.queue g) ∧ t.order k = s.order k) all before (fun was => ?_) (fun _ _ => id)
    (fun g t was => ⟨fun h mem => was.1 h (mem_queue_look mem), (order_look_of_absent was.1 g).trans was.2⟩) ⟨absent, rfl⟩).2
  simpa only [haltTest_eq_afterRest, afterRest_queue, afterRest_order] using was

/-! ### Steps at whose end nobody has a cause -/

theorem haltTest_of_working {s : State} {g : Nat} (counted : g ∈ s.groupNumbers) (works : (s.station g).state.working = true) :
    s.haltTest = s := by
  refine if_neg fun ⟨_, rests⟩ => ?_
  have still := List.all_eq_true.1 rests g counted
  rw [works] at still
  exact Bool.noConfusion still

/-- Where no order has joined a queue, no ownership has ended and no station has entered OFF, the end of a step is the test for
HALTED alone. -/
theorem settle_eq_haltTest {s before : State} (queues : ∀ g, ∀ k ∈ s.queue g, k ∈ before.queue g)
    (owners : ∀ k g, (before.valve (.tank k)).owner = some g → (s.valve (.tank k)).owner ≠ none)
    (states : ∀ g, (before.station g).state ≠ .off → (s.station g).state ≠ .off) : s.settle false before = s.haltTest := by
  refine settle_of_no_cause fun g => ?_
  rw [haltTest_eq_afterRest, cause_eq_joined (fun k h own => by rw [afterRest_valve]; exact owners k h own)
    (fun h on => by rw [afterRest_station]; exact states h on)]
  simp only [joined, List.any_eq_false, decide_eq_true_eq, not_not, afterRest_queue]
  exact queues g

/-- A change of one station's record or of one valve's that gives no cause to look is all that the step makes. -/
theorem settle_updStation {s : State} {g : Nat} {f : Station → Station} (settled : s.haltSettled)
    (same : ∀ st, (f st).state = st.state) : (s.updStation g f).settle false s = s.updStation g f := by
  have state (h : Nat) : ((s.updStation g f).station h).state = (s.station h).state := by
    by_cases here : h = g
    · obtain read | read := station_updStation_cases s g f
      · rw [here, read]
      · rw [here, read, same]
    · rw [station_updStation_ne here]
  rw [settle_eq_haltTest (s := s.updStation g f) (before := s) (fun _ _ => id) (fun k h own free => ?_)
    fun h on => by rw [state]; exact on]
  · refine haltTest_of_settled fun ⟨halting, rests⟩ => settled ⟨halting, fun h least most => ?_⟩
    rw [← state]; exact rests h least most
  · rw [valve_updStation, own] at free
    exact Option.some_ne_none _ free

theorem settle_updValve {s : State} {v : ValveId} {f : Valve → Valve} (settled : s.haltSettled)
    (same : ∀ x, (f x).owner = x.owner) : (s.updValve v f).settle false s = s.updValve v f := by
  have owner (w : ValveId) : ((s.updValve v f).valve w).owner = (s.valve w).owner := by
    by_cases here : w = v
    · obtain read | read := valve_updValve_cases s v f
      · rw [here, read]
      · rw [here, read, same]
    · rw [valve_updValve_ne here]
  have station (h : Nat) : (s.updValve v f).station h = s.station h := by cases v <;> rfl
  rw [settle_eq_haltTest (s := s.updValve v f) (before := s) (fun g k mem => ?_) (fun k h own free => ?_)
    fun h on => by rw [station]; exact on]
  · refine haltTest_of_settled fun ⟨halting, rests⟩ => settled ⟨?_, fun h least most => ?_⟩
    · cases v <;> exact halting
    · rw [← station]
      exact rests h least (by cases v <;> exact most)
  · cases v <;> exact mem
  · rw [owner, own] at free
    exact Option.some_ne_none _ free

/-! ### Where every record of a counted group stands -/

theorem State.Ranked.congr {s t : State} (ranked : s.Ranked) (frame : BallastFrame s t) (queues : ∀ g, t.queue g = s.queue g) :
    t.Ranked := by
  have group {g : Nat} (there : t.hasGroup g = true) : s.hasGroup g = true := by
    have rest := frame.rest
    rw [State.hasGroup, State.ready, State.counts, rest] at there
    exact there
  refine ⟨fun g there => frame.grouped (ranked.grouped g (group there)), fun g there => frame.valved (ranked.suction g (group there)),
    fun g there => frame.valved (ranked.overboard g (group there)), fun g k mem => frame.valved (ranked.tank g k (queues g ▸ mem)),
    fun g => queues g ▸ ranked.nodup g, fun g h k mem mem' => ranked.apart g h k (queues g ▸ mem) (queues h ▸ mem')⟩

/-- A station that has entered OFF is told, and no other, where no order has joined a queue and no ownership has ended. -/
theorem settle_answered_off {s t : State} {g : Nat} (ready : t.ready = true) (ranked : t.Ranked)
    (queues : ∀ h, ∀ k ∈ t.queue h, k ∈ s.queue h)
    (owners : ∀ k h, (s.valve (.tank k)).owner = some h → (t.valve (.tank k)).owner ≠ none)
    (on : (s.station g).state ≠ .off) (others : ∀ h, h ≠ g → (t.station h).state = (s.station h).state) :
    t.haltTest.answered (t.settle false s) (· = g) := by
  refine settle_answered false ready (ranked.congr (haltTest_frame t) fun h => ?_) fun h _ may => ?_
  · rw [haltTest_eq_afterRest, afterRest_queue]
  · obtain ⟨-, off, -⟩ := mayLook_iff.1 may
    have ended : ownershipEnded s t.haltTest = false := by
      simp only [ownershipEnded, List.any_eq_false, Bool.and_eq_true]
      rintro k - ⟨owned, free⟩
      obtain ⟨h, own⟩ := Option.isSome_iff_exists.1 owned
      rw [haltTest_eq_afterRest, afterRest_valve] at free
      exact owners k h own (Option.isNone_iff_eq_none.1 free)
    have still : joined s t.haltTest h = false := by
      simp only [joined, List.any_eq_false, decide_eq_true_eq, not_not, haltTest_eq_afterRest, afterRest_queue]
      exact queues h
    rw [State.cause, ended, still, Bool.false_or, Bool.false_or, Bool.false_or, enteredOff, decide_eq_true_iff]
    rw [haltTest_eq_afterRest, afterRest_station] at off ⊢
    refine ⟨fun here => ⟨here ▸ on, off⟩, fun entered => by_contra fun other => entered.1 ?_⟩
    rw [← others h other]
    exact off

end Sys2Proof.Machine
end

