-- ==== Sys2Proof/Proofs/Rearm.lean ====
section
/-! PROOFS. O45: REARM (spec 06 R111, R103, spec 09 R149): its refusals, and the station that it takes to OFF. -/

namespace Sys2Proof.Machine

theorem exec_rearm {s : State} {h : ShipHead} (idle : s.shipIdle) (loaded : s.loading = false) {a : Answer}
    (answer : s.rearmAnswer h.key.toNat = a) : exec (.rearm h) s = .next (a.state.replied 18 h a.status a.payload) := by
  show Host.Outcome.next (s.takeRequest 18 h _) = _
  rw [takeRequest_idle idle]
  simp only [State.actionRequest, loaded, Bool.false_and, Bool.or_false, Bool.false_eq_true, if_false, answer]
  rfl

/-- A station that a REARM takes is TRIPPED, its pump reported STOPPED and no valve of its line in FAULT (R111). -/
theorem mayRearm_iff (s : State) (g : Nat) : s.mayRearm g = true ↔
    (s.station g).state = .tripped ∧ (s.station g).pumpReported = .stopped ∧ (s.valve (.suction g)).reported ≠ .fault ∧
      (s.valve (.overboard g)).reported ≠ .fault ∧ ∀ k ∈ (s.station g).closing, (s.valve (.tank k)).reported ≠ .fault := by
  simp [State.mayRearm, and_assoc]

/-- A station in OFF that was TRIPPED: all that a REARM changes before the looks. -/
def State.rearmed (s : State) (g : Nat) : State := s.updStation g ({ · with state := .off })

theorem rearmAnswer_of_counted {s : State} {g : Nat} (group : s.hasGroup g = true) : s.rearmAnswer g =
    if s.mayRearm g then ⟨.done, [], (s.rearmed g).settle false s⟩ else s.answer .state := by
  obtain ⟨-, least, -⟩ := counted_of_hasGroup group
  unfold State.rearmAnswer
  rw [if_neg fun zero => by omega, if_neg (by rw [group]; exact Bool.noConfusion)]
  rfl

theorem rearmAnswer_of_uncounted {s : State} {g : Nat} (absent : s.ready = false ∨ s.counts.groups < g) :
    s.rearmAnswer g = s.answer .noRecord := by
  unfold State.rearmAnswer
  rw [if_neg fun zero => ?_, if_pos]
  · obtain down | beyond := absent
    · rw [State.hasGroup, down, Bool.false_and]
    · rw [State.hasGroup, decide_eq_false (by omega), Bool.and_false]
  · obtain down | beyond := absent
    · rw [down] at zero
      exact Bool.noConfusion zero.1
    · omega

section Sound

variable {s : State} {g : Nat} (group : s.hasGroup g = true) (records : s.RecordsOk) (tripped : (s.station g).state = .tripped)
include group records

theorem station_rearmed : (s.rearmed g).station g = { s.station g with state := .off } :=
  station_updStation_self (grouped_of_hasGroup (counted_of_hasGroup group).1 records group) _

/-- The station stands in OFF or in LINEUP once it has looked, its trip cause and TRIP flag kept. -/
theorem station_rearmed_settled : (((s.rearmed g).settle false s).station g).state = .off ∨
      (((s.rearmed g).settle false s).station g).state = .lineup := by
  have looked := settle_station false s (s.rearmed g) g
  rw [station_rearmed group records] at looked
  exact looked.enters rfl

theorem fields_rearmed_settled : (((s.rearmed g).settle false s).station g).lastTrip = (s.station g).lastTrip ∧
      (((s.rearmed g).settle false s).station g).tripFlag = (s.station g).tripFlag := by
  have fields := (settle_station false s (s.rearmed g) g).fields
  generalize ((s.rearmed g).settle false s).station g = x at fields ⊢
  rw [station_rearmed group records] at fields
  rw [fields]
  exact ⟨rfl, rfl⟩

include tripped in
/-- The station rearmed is told that it has entered OFF, and no other is told of anything (R103). -/
theorem rearmed_answered (orders : s.OrdersOk) : (s.rearmed g).afterRest.answered ((s.rearmed g).settle false s) (· = g) := by
  have ready := (counted_of_hasGroup group).1
  rw [← haltTest_eq_afterRest]
  refine settle_answered_off ready ((ranked_of_queuesOk ready records orders.1).congr (updStation_frame g _ s) fun _ => rfl)
    (fun _ _ => id) (fun k h own free => ?_) (by rw [tripped]; simp) fun h other => ?_
  · rw [State.rearmed, valve_updStation, own] at free
    exact Option.some_ne_none _ free
  · rw [State.rearmed, station_updStation_ne other]

end Sound

/-- Settles O45: a REARM of a sound station takes it to OFF, and the end of the step lets it look; every other is refused. -/
theorem rearmTakesAStoppedStationOff : Obligations.RearmTakesAStoppedStationOff := by
  intro s h idle phase
  have loaded : s.loading = false := decide_eq_false phase
  refine ⟨fun ready zero => ?_, fun absent => ?_, fun group unsound => ?_, fun group sound records => ?_⟩
  · exact exec_rearm idle loaded (a := s.answer .badValue) (if_pos ⟨ready, zero⟩)
  · exact exec_rearm idle loaded (rearmAnswer_of_uncounted absent)
  · exact exec_rearm idle loaded ((rearmAnswer_of_counted group).trans (if_neg fun may => unsound ((mayRearm_iff s _).1 may)))
  · have run := exec_rearm idle loaded ((rearmAnswer_of_counted group).trans (if_pos ((mayRearm_iff s _).2 sound)))
    refine ⟨_, run, ?_⟩
    generalize h.key.toNat = g at *
    have frame : BallastFrame s ((s.rearmed g).settle false s) := (updStation_frame g _ s).trans (settle_frame false s _)
    have stands := station_rearmed_settled group records
    have kept := fields_rearmed_settled group records
    have answered := rearmed_answered group records sound.1
    have halted (halted : s.ballast.state = .halted) : (s.rearmed g).settle false s = s.rearmed g := by
      have test : (s.rearmed g).haltTest = s.rearmed g := if_neg fun halts => by
        have halting : s.ballast.state = .halting := halts.1
        rw [halted] at halting
        exact SequencerState.noConfusion halting
      rw [settle_of_not_running false (by rw [test]; exact fun running => SequencerState.noConfusion (halted.symm.trans running)), test]
    generalize (s.rearmed g).settle false s = t at frame stands kept answered halted ⊢
    have rest := frame.rest
    have ship : t.ship = s.ship := by rw [rest]
    refine ⟨by simp only [State.replied, ship], State.onlyBallast.replied (frame.onlyBallast) 18 h .done [], stands, kept.1, kept.2, fun still => ?_, fun orders => ?_⟩
    · rw [halted still]
      exact ⟨rfl, rfl, rfl⟩
    · exact answered_withShip (answered orders) _

end Sys2Proof.Machine
end

