-- ==== Sys2Proof/Proofs/Commands.lean ====
section
/-! PROOFS. Commands to valves and pumps are the commands that the statements compute (spec 06 R93, R99, R112): one after another,
each sent where the commanded position changes, or sent again. -/

namespace Sys2Proof.Machine

/-! ### Valve records -/

/-- The record of a valve, where it has one. -/
def State.slot (s : State) : ValveId → Option Valve
  | .tank n => nth1 s.ballast.tankValves n
  | .suction n => nth1 s.ballast.suctionValves n
  | .overboard n => nth1 s.ballast.overboardValves n

theorem valve_eq_slot (s : State) (v : ValveId) : s.valve v = (s.slot v).getD default := by
  cases v <;> rfl

theorem slot_updValve (s : State) (v w : ValveId) (f : Valve → Valve) :
    (s.updValve v f).slot w = if w = v then (s.slot w).map f else s.slot w := by
  cases v <;> cases w <;> simp [State.slot, State.updValve, nth1_modify1]

theorem slot_afterCommands (s : State) (again : Bool) (p : ValveCommand) (vs : List ValveId) (v : ValveId) :
    (s.afterCommands again p vs).slot v = (s.slot v).map fun x => if v ∈ vs ∧ (again = true ∨ x.commanded ≠ p) then
      { x with commanded := p, confirmed := false, deadline := some (later s.clock (s.classTimeout v)) } else x := by
  cases v
  · exact afterCommands_tankValves s again p vs _
  · exact afterCommands_suctionValves s again p vs _
  · exact afterCommands_overboardValves s again p vs _

/-- Two states that the Ballast Sequencer alone has changed are the same where their parts are. -/
theorem eq_of_parts {s t u : State} (left : s.onlyBallast t) (right : s.onlyBallast u) (draws : t.draws = u.draws)
    (outbound : t.field.outbound = u.field.outbound) (state : t.ballast.state = u.ballast.state)
    (kept : t.ballast.kept = u.ballast.kept) (orders : t.ballast.orders = u.ballast.orders)
    (queues : t.ballast.queues = u.ballast.queues) (stations : t.ballast.stations = u.ballast.stations)
    (valves : ∀ v, t.slot v = u.slot v) : t = u := by
  refine eq_of_ballast ?_ state orders queues stations (ext_nth1 fun n => valves (.tank n)) (ext_nth1 fun n => valves (.suction n))
    (ext_nth1 fun n => valves (.overboard n)) kept
  rw [right, left]
  simp only [outbound, draws]

/-! ### Commands to valves -/

theorem placed_one (s : State) (again : Bool) (p : ValveCommand) (v : ValveId) (l : List FieldCommand) :
    s.placed again p [v] l = if again = true ∨ (s.valve v).commanded ≠ p then placeIn (.valve v p) l else l := by
  simp only [State.placed, List.filter_cons, List.filter_nil, Bool.or_eq_true, decide_eq_true_iff]
  split <;> rfl

theorem afterCommands_of_none {s : State} {again : Bool} {p : ValveCommand} {vs : List ValveId}
    (none : ∀ v ∈ vs, again = false ∧ (s.valve v).commanded = p) : s.afterCommands again p vs = s := by
  refine eq_of_parts (afterCommands_onlyBallast _ _ _ _) rfl rfl ?_ rfl rfl rfl rfl rfl fun v => ?_
  · show s.placed again p vs _ = _
    rw [State.placed, List.filter_eq_nil_iff.2 fun v mem => by simp [none v mem]]
    rfl
  · rw [slot_afterCommands]
    cases read : s.slot v with
    | none => rfl
    | some x =>
      refine congrArg some (if_neg fun ⟨mem, sends⟩ => ?_)
      obtain ⟨once, same⟩ := none v mem
      rw [valve_eq_slot, read] at same
      exact sends.elim (fun again => Bool.noConfusion (once.symm.trans again)) fun other => other same

theorem outbound_updValve (s : State) (v : ValveId) (f : Valve → Valve) : (s.updValve v f).field.outbound = s.field.outbound := by
  cases v <;> rfl

theorem slot_sendValve (s : State) (v w : ValveId) (p : ValveCommand) : (s.sendValve v p).slot w = if w = v then
    (s.slot w).map fun x => { x with commanded := p, confirmed := false, deadline := some (later s.clock (s.classTimeout v)) }
    else s.slot w := by
  rw [← slot_updValve]
  cases w <;> rfl

theorem sendValve_eq_afterCommands {s : State} {v : ValveId} {p : ValveCommand} {again : Bool}
    (sends : again = true ∨ (s.valve v).commanded ≠ p) : s.sendValve v p = s.afterCommands again p [v] := by
  have moved := sendValve_commanded v p s
  refine eq_of_parts moved.frame.onlyBallast (afterCommands_onlyBallast _ _ _ _) (by cases v <;> rfl) ?_ (sendValve_state v p s)
    (by cases v <;> rfl) moved.orders moved.queues moved.stations fun w => ?_
  · show placeIn _ (s.updValve v _).field.outbound = s.placed again p [v] s.field.outbound
    rw [outbound_updValve, placed_one, if_pos sends]
  · rw [slot_sendValve, slot_afterCommands]
    cases read : s.slot w with
    | none => simp
    | some x =>
      by_cases here : w = v
      · subst here
        rw [valve_eq_slot, read] at sends
        rw [if_pos rfl]
        exact congrArg some (if_pos ⟨List.mem_singleton_self w, sends⟩).symm
      · simp [here]

theorem commandValve_eq_afterCommands (s : State) (v : ValveId) (p : ValveCommand) :
    s.commandValve v p = s.afterCommands false p [v] := by
  by_cases same : (s.valve v).commanded = p
  · rw [commandValve_of_commanded same, afterCommands_of_none fun w mem => ⟨rfl, List.mem_singleton.1 mem ▸ same⟩]
  · rw [State.commandValve, if_neg same, sendValve_eq_afterCommands (.inr same)]

theorem shutLine_eq_afterCommands (s : State) (again : Bool) (v : ValveId) :
    s.shutLine again v = s.afterCommands again .shut [v] := by
  cases again
  · exact commandValve_eq_afterCommands s v .shut
  · exact sendValve_eq_afterCommands (.inl rfl)

theorem commanded_afterCommands_of_not_mem {s : State} {again : Bool} {p : ValveCommand} {vs : List ValveId} {v : ValveId}
    (absent : v ∉ vs) : (s.afterCommands again p vs).valve v = s.valve v := by
  rw [valve_eq_slot, valve_eq_slot, slot_afterCommands]
  cases s.slot v <;> simp [absent]

/-- Commands to other valves are sent after the first ones. -/
theorem afterCommands_append {s : State} {again : Bool} {p : ValveCommand} {vs ws : List ValveId} (apart : vs.Disjoint ws) :
    (s.afterCommands again p vs).afterCommands again p ws = s.afterCommands again p (vs ++ ws) := by
  refine eq_of_parts (s := s) rfl (afterCommands_onlyBallast _ _ _ _) rfl ?_ rfl rfl rfl rfl rfl fun v => ?_
  · show (s.afterCommands again p vs).placed again p ws (s.placed again p vs s.field.outbound) =
      s.placed again p (vs ++ ws) s.field.outbound
    simp only [State.placed, List.filter_append, List.foldl_append]
    refine congrArg (List.foldl _ _) (List.filter_congr fun w mem => ?_)
    rw [commanded_afterCommands_of_not_mem fun mem' => apart mem' mem]
  · rw [slot_afterCommands, slot_afterCommands, slot_afterCommands, Option.map_map]
    refine congrArg (Option.map · _) (funext fun x => ?_)
    simp only [Function.comp, List.mem_append]
    by_cases first : v ∈ vs
    · have second : v ∉ ws := fun mem => apart first mem
      simp only [first, second, true_and, false_and, if_false, true_or]
    · simp only [first, false_and, if_false, false_or]
      rfl

theorem commandValves_eq_afterCommands {p : ValveCommand} {vs : List ValveId} (nodup : vs.Nodup) (s : State) :
    vs.foldl (fun s v => s.commandValve v p) s = s.afterCommands false p vs := by
  induction vs generalizing s with
  | nil => exact (afterCommands_of_none fun _ mem => absurd mem List.not_mem_nil).symm
  | cons v vs ih =>
    obtain ⟨fresh, nodup⟩ := List.nodup_cons.1 nodup
    rw [List.foldl_cons, ih nodup, commandValve_eq_afterCommands,
      afterCommands_append fun w mem mem' => fresh (by rwa [List.mem_singleton.1 mem] at mem')]
    rfl

/-- Tank valves shut one after another, none of which is confirmed SHUT already. -/
theorem shutTanks_eq_afterCommands {ts : List Nat} (nodup : ts.Nodup) {s : State}
    (un : ∀ t ∈ ts, s.confirmedAt (.tank t) .shut = false) :
    ts.foldl (fun s t => s.shutTank t) s = s.afterCommands false .shut (ts.map .tank) := by
  rw [← commandValves_eq_afterCommands (nodup.map fun _ _ same => ValveId.tank.inj same)]
  induction ts generalizing s with
  | nil => rfl
  | cons t ts ih =>
    rw [List.map_cons, List.foldl_cons, List.foldl_cons, shutTank_of_unconfirmed (un t List.mem_cons_self)]
    exact ih (List.nodup_cons.1 nodup).2 fun j mem => unconfirmed_commandValve (un j (List.mem_cons_of_mem t mem)) _ _

/-! ### Pumps -/

theorem commandPump_stop (s : State) (g : Nat) : s.commandPump g .stop = s.afterStop g := by
  by_cases stopped : (s.station g).pumpCommanded = .stop
  · rw [State.commandPump, if_pos stopped]
    refine eq_of_parts (s := s) rfl rfl rfl (if_pos stopped).symm rfl rfl rfl rfl (modify1_eq_self fun st read => ?_).symm fun _ => rfl
    rw [State.station, read] at stopped
    rw [← show st.pumpCommanded = .stop from stopped]
  · rw [State.commandPump, if_neg stopped]
    exact eq_of_parts (s := s) rfl rfl rfl (if_neg stopped).symm rfl rfl rfl rfl rfl fun v => by cases v <;> rfl

end Sys2Proof.Machine
end

