-- ==== Sys2Proof/Proofs/Trips.lean ====
section
/-! PROOFS. A trip is the trip that the statements compute (spec 06 R110), and the stations that gained an order look (R103). -/

namespace Sys2Proof.Machine

/-! ### Orders, queues and stations changed, valves and commands as they were -/

/-- Orders, queues and stations replaced. -/
def State.reworked (s : State) (orders : List (Option Order)) (queues : List (List Nat)) (stations : List Station) : State :=
  { s with ballast := { s.ballast with orders := orders, queues := queues, stations := stations } }

theorem afterCommands_reworked (s : State) (orders : List (Option Order)) (queues : List (List Nat)) (stations : List Station)
    (again : Bool) (p : ValveCommand) (vs : List ValveId) : (s.reworked orders queues stations).afterCommands again p vs =
      (s.afterCommands again p vs).reworked orders queues stations := rfl

theorem returnOrder_reworked (s : State) (g : Nat) (c : HoldCause) : s.returnOrder g c =
    s.reworked (s.returnOrder g c).ballast.orders (s.returnOrder g c).ballast.queues (s.returnOrder g c).ballast.stations :=
  returnOrder_rest s g c

theorem reroute_reworked (s : State) (g : Nat) :
    s.reroute g = s.reworked (s.reroute g).ballast.orders (s.reroute g).ballast.queues s.ballast.stations :=
  reroute_rest s g

theorem updStation_reworked (s : State) (g : Nat) (f : Station → Station) :
    s.updStation g f = s.reworked s.ballast.orders s.ballast.queues (modify1 s.ballast.stations g f) := rfl

/-- The rerouting depends on the queue, on the order that runs and on the routes. -/
theorem afterReroute_congr {s t : State} {g : Nat} {c : HoldCause} (moves : ∀ k, t.movesTo g k = s.movesTo g k)
    (active : (t.station g).active = (s.station g).active) (orders : t.ballast.orders = s.ballast.orders)
    (queues : t.ballast.queues = s.ballast.queues) : t.afterReroute g c =
      t.reworked (s.afterReroute g c).ballast.orders (s.afterReroute g c).ballast.queues t.ballast.stations := by
  have queue : t.queue g = s.queue g := congrArg (fun l => (nth1 l g).getD []) queues
  unfold State.afterReroute State.reworked
  simp only [active, orders, queues, queue, moves]

/-! ### A trip whole -/

/-- A station as a trip leaves it. -/
def Station.tripped (tanks : List Nat) (x : Station) : Station :=
  { x with
    state := .tripped, closing := x.closing ++ tanks, deadline := none, lowSince := none, resuming := false, tripFlag := true }

/-- The tanks of a station: the one of its order, and its closing tanks. -/
def Station.tanks (x : Station) : List Nat := x.active.toList ++ x.closing

/-- What a trip shuts: the line, then the tanks. -/
def Station.shuts (g : Nat) (x : Station) : List ValveId := .suction g :: .overboard g :: x.tanks.map .tank

/-- A station with its last trip cause recorded. -/
def Station.blamed (c : TripCause) (x : Station) : Station := { x with lastTrip := some c }

theorem trip_eq (g : Nat) (c : TripCause) (s : State) : s.trip g c =
    ((s.station g).tanks.foldl (fun s t => s.shutTank t)
      ((((((s.updStation g (Station.blamed c)).commandPump g .stop).commandValve (.suction g) .shut).commandValve
        (.overboard g) .shut).returnOrder g .trip).updStation g (Station.tripped (s.station g).active.toList))).reroute g := rfl

theorem afterStop_updStation (s : State) (g : Nat) {f : Station → Station} (same : ∀ st, (f st).pumpCommanded = st.pumpCommanded) :
    (s.updStation g f).afterStop g = (s.afterStop g).reworked s.ballast.orders s.ballast.queues
      (modify1 (modify1 s.ballast.stations g f) g ({ · with pumpCommanded := .stop })) := by
  have pump : ((s.updStation g f).station g).pumpCommanded = (s.station g).pumpCommanded := by
    obtain read | read := station_updStation_cases s g f
    · rw [read]
    · rw [read, same]
  refine eq_of_parts (s := s) rfl rfl rfl ?_ rfl rfl rfl rfl rfl fun _ => rfl
  simp only [State.afterStop, State.reworked, pump]
  rfl

/-- The pump stopped and the line and the tanks shut. -/
def State.shutsDown (s : State) (g : Nat) : State := (s.afterStop g).afterCommands false .shut ((s.station g).shuts g)

theorem afterStop_frame (s : State) (g : Nat) : BallastFrame s (s.afterStop g) := commandPump_stop s g ▸ commandPump_frame g .stop s

theorem afterStop_station_cases (s : State) (g : Nat) :
    (s.afterStop g).station g = s.station g ∨ (s.afterStop g).station g = { s.station g with pumpCommanded := .stop } :=
  station_updStation_cases s g ({ · with pumpCommanded := .stop })

/-- The record of a station that trips, all at once. -/
def Station.trips (c : TripCause) (x : Station) : Station :=
  { x with
    state := .tripped, lastTrip := some c, pumpCommanded := .stop, active := none, closing := x.closing ++ x.active.toList
    deadline := none, lowSince := none, resuming := false, tripFlag := true }

theorem afterTrip_eq (s : State) (g : Nat) (c : TripCause) : s.afterTrip g c = State.afterRest ((s.shutsDown g).reworked
    (s.afterReroute g .trip).ballast.orders (s.afterReroute g .trip).ballast.queues
      (modify1 s.ballast.stations g (Station.trips c))) := by
  have active : ((s.shutsDown g).station g).active = (s.station g).active := by
    show ((s.afterStop g).station g).active = _
    obtain read | read := afterStop_station_cases s g <;> rw [read]
  have back : (s.shutsDown g).afterReroute g .trip = (s.shutsDown g).reworked (s.afterReroute g .trip).ballast.orders
      (s.afterReroute g .trip).ballast.queues (s.shutsDown g).ballast.stations :=
    afterReroute_congr (fun _ => rfl) active rfl rfl
  have stations : modify1 (s.shutsDown g).ballast.stations g (fun st =>
      { st with
        state := .tripped, lastTrip := some c, active := none, closing := st.closing ++ st.active.toList, deadline := none
        lowSince := none, resuming := false, tripFlag := true }) = modify1 s.ballast.stations g (Station.trips c) :=
    modify1_modify1 _ _ _ _
  have parts (r : State) (is : r = (s.shutsDown g).reworked (s.afterReroute g .trip).ballast.orders
      (s.afterReroute g .trip).ballast.queues (s.shutsDown g).ballast.stations) (f : Station → Station) :
      State.afterRest { r with ballast := { r.ballast with stations := modify1 r.ballast.stations g f } } =
        State.afterRest ((s.shutsDown g).reworked (s.afterReroute g .trip).ballast.orders
          (s.afterReroute g .trip).ballast.queues (modify1 (s.shutsDown g).ballast.stations g f)) := by
    rw [is]; rfl
  rw [← stations]
  exact parts _ back _

theorem returnOrder_congr {s t : State} {g : Nat} (c : HoldCause) (active : (t.station g).active = (s.station g).active)
    (orders : t.ballast.orders = s.ballast.orders) (queues : t.ballast.queues = s.ballast.queues) :
    (t.returnOrder g c).ballast.orders = (s.returnOrder g c).ballast.orders ∧
      (t.returnOrder g c).ballast.queues = (s.returnOrder g c).ballast.queues := by
  have walk : t.walk g = s.walk g := by rw [State.walk, State.walk, active, State.queue, queues]; rfl
  exact ⟨ext_nth1 fun n => by rw [returnOrder_orders, returnOrder_orders, active, orders],
    ext_nth1 fun n => by rw [returnOrder_queues, returnOrder_queues, walk, queues]⟩

theorem shutLines_eq (g : Nat) (s : State) : (s.commandValve (.suction g) .shut).commandValve (.overboard g) .shut =
    s.afterCommands false .shut [.suction g, .overboard g] :=
  commandValves_eq_afterCommands (vs := [.suction g, .overboard g]) (by simp) s

/-- Commands leave the tank valves that they do not name. -/
theorem confirmedAt_afterCommands_of_not_mem {s : State} {again : Bool} {p q : ValveCommand} {vs : List ValveId} {v : ValveId}
    (absent : v ∉ vs) : (s.afterCommands again p vs).confirmedAt v q = s.confirmedAt v q := by
  rw [State.confirmedAt, State.confirmedAt, commanded_afterCommands_of_not_mem absent]

/-- A trip, and the test for HALTED after it, are the trip that the statements compute, where no tank of the station stands
confirmed SHUT. -/
theorem trip_eq_afterTrip {s : State} {g : Nat} (there : s.grouped g) (nodup : (s.station g).tanks.Nodup)
    (un : ∀ k ∈ (s.station g).tanks, s.confirmedAt (.tank k) .shut = false) (c : TripCause) :
    (s.trip g c).haltTest = s.afterTrip g c := by
  rw [haltTest_eq_afterRest, afterTrip_eq, trip_eq, commandPump_stop, afterStop_updStation s g (f := Station.blamed c) fun _ => rfl, shutLines_eq,
    afterCommands_reworked]
  generalize stations : modify1 (modify1 s.ballast.stations g _) g _ = x
  generalize shut : (s.afterStop g).afterCommands false .shut [.suction g, .overboard g] = a
  have station : (a.reworked s.ballast.orders s.ballast.queues x).station g =
      { s.station g with pumpCommanded := .stop, lastTrip := some c } := by
    show (nth1 x g).getD default = _
    rw [← stations, modify1_modify1]
    exact getD_nth1_modify1 ⟨there.1, there.2.2⟩ _ _
  obtain ⟨orders, queues⟩ := returnOrder_congr (s := s) (t := a.reworked s.ballast.orders s.ballast.queues x) (g := g) .trip
    (by rw [station]) rfl rfl
  have record := returnOrder_stations (a.reworked s.ballast.orders s.ballast.queues x) g .trip
  rw [returnOrder_reworked, orders, queues]
  generalize ((a.reworked s.ballast.orders s.ballast.queues x).returnOrder g .trip).ballast.stations = y at record ⊢
  have shuts : ((s.station g).tanks.foldl (fun s t => s.shutTank t) (a.reworked (s.returnOrder g .trip).ballast.orders
      (s.returnOrder g .trip).ballast.queues (modify1 y g (Station.tripped (s.station g).active.toList)))) =
        (s.shutsDown g).reworked (s.returnOrder g .trip).ballast.orders (s.returnOrder g .trip).ballast.queues
          (modify1 y g (Station.tripped (s.station g).active.toList)) := by
    rw [shutTanks_eq_afterCommands nodup fun k mem => ?_, afterCommands_reworked, ← shut, afterCommands_append]
    · rfl
    · intro v mem mem'
      obtain ⟨k, -, rfl⟩ := List.mem_map.1 mem'
      simp at mem
    · show a.confirmedAt (.tank k) .shut = false
      rw [← shut, confirmedAt_afterCommands_of_not_mem (by simp)]
      exact un k mem
  obtain ⟨orders', queues'⟩ := reroute_returnOrder (c := .trip) there
    (r := (s.shutsDown g).reworked (s.returnOrder g .trip).ballast.orders (s.returnOrder g .trip).ballast.queues
      (modify1 y g (Station.tripped (s.station g).active.toList))) rfl rfl fun _ => rfl
  have stationed : modify1 y g (Station.tripped (s.station g).active.toList) = modify1 s.ballast.stations g (Station.trips c) := by
    refine ext_nth1 fun n => ?_
    rw [nth1_modify1, nth1_modify1, record]
    split
    · rename_i here
      subst here
      show Option.map _ (Option.map _ (nth1 x n)) = _
      rw [← stations, modify1_modify1, nth1_modify1, if_pos rfl]
      cases read : nth1 s.ballast.stations n with
      | none => rfl
      | some st =>
        rw [show s.station n = st from congrArg (Option.getD · default) read]
        rfl
    · rename_i other
      show nth1 x n = _
      rw [← stations, modify1_modify1, nth1_modify1, if_neg other]
  refine congrArg State.afterRest ((congrArg (State.reroute g) shuts).trans ?_)
  rw [reroute_reworked, orders', queues', stationed]
  rfl

/-! ### What a trip leaves, whoever owned what -/

theorem station_shutTank (s : State) (k h : Nat) : ∃ closing, closing ⊆ (s.station h).closing ∧
    (s.shutTank k).station h = { s.station h with closing := closing } := by
  have commanded : (s.commandValve (.tank k) .shut).station h = s.station h := (commandValve_commanded _ _ s).station h
  unfold State.shutTank State.releaseIfShut
  rw [← commanded]
  split
  · rename_i owner _
    split
    · by_cases here : h = owner
      · subst here
        obtain read | read := station_updStation_cases
          ((s.commandValve (.tank k) .shut).updValve (.tank k) ({ · with owner := none })) h fun st =>
            { st with closing := st.closing.erase k }
        · exact ⟨_, List.Subset.refl _, read⟩
        · exact ⟨_, List.erase_subset, read⟩
      · exact ⟨_, List.Subset.refl _, station_updStation_ne here _⟩
    · exact ⟨_, List.Subset.refl _, rfl⟩
  · exact ⟨_, List.Subset.refl _, rfl⟩

theorem station_shutTanks (ks : List Nat) (s : State) (h : Nat) : ∃ closing, closing ⊆ (s.station h).closing ∧
    (ks.foldl (fun s k => s.shutTank k) s).station h = { s.station h with closing := closing } := by
  induction ks generalizing s with
  | nil => exact ⟨_, List.Subset.refl _, rfl⟩
  | cons k ks ih =>
    obtain ⟨_, inside, first⟩ := station_shutTank s k h
    obtain ⟨closing, inside', rest⟩ := ih (s.shutTank k)
    rw [first] at inside'
    exact ⟨closing, List.Subset.trans inside' inside, by rw [List.foldl_cons, rest, first]⟩

theorem valve_shutTank_line {s : State} {v : ValveId} (line : ∀ k, v ≠ .tank k) (k : Nat) : (s.shutTank k).valve v = s.valve v := by
  have commanded : (s.commandValve (.tank k) .shut).valve v = s.valve v := valve_commandValve_ne (line k) _
  unfold State.shutTank State.releaseIfShut
  split
  · split
    · rw [valve_updStation, valve_updValve_ne (line k), commanded]
    · exact commanded
  · exact commanded

theorem valve_shutTanks_line {v : ValveId} (line : ∀ k, v ≠ .tank k) (ks : List Nat) (s : State) :
    (ks.foldl (fun s k => s.shutTank k) s).valve v = s.valve v :=
  foldl_keeps (P := fun t => t.valve v = s.valve v) (fun k _ _ was => (valve_shutTank_line line k).trans was) rfl

theorem valve_returnOrder (s : State) (g : Nat) (c : HoldCause) (v : ValveId) : (s.returnOrder g c).valve v = s.valve v := by
  rw [returnOrder_reworked]
  cases v <;> rfl

/-- A station that has tripped, but for the closing tanks that were released at once. -/
theorem station_trip {s : State} {g : Nat} (there : s.grouped g) (c : TripCause) :
    ∃ closing, closing ⊆ ((s.station g).trips c).closing ∧ (s.trip g c).station g = { (s.station g).trips c with closing := closing } := by
  rw [trip_eq, station_reroute, commandPump_stop, shutLines_eq]
  generalize lines : ((s.updStation g (Station.blamed c)).afterStop g).afterCommands false .shut [.suction g, .overboard g] = a
  have frame : BallastFrame s a := by
    rw [← lines, ← shutLines_eq]
    exact ((updStation_frame g _ s).trans (afterStop_frame _ g)).trans
      ((commandValve_frame _ _ _).trans (commandValve_frame _ _ _))
  have stopped : a.station g = { s.station g with lastTrip := some c, pumpCommanded := .stop } := by
    rw [← lines, afterCommands_station]
    exact (station_updStation_self (s := s.updStation g (Station.blamed c)) ((updStation_frame g _ s).grouped there) _).trans
      (by rw [station_updStation_self there]; rfl)
  obtain ⟨back, -⟩ := returnOrder_spec (frame.grouped there) .trip
  have tripped : ((a.returnOrder g .trip).updStation g (Station.tripped (s.station g).active.toList)).station g = (s.station g).trips c := by
    rw [station_updStation_self ((returnOrder_frame g _ a).grouped (frame.grouped there)), back, stopped]
    rfl
  obtain ⟨closing, inside, shut⟩ := station_shutTanks (s.station g).tanks
    ((a.returnOrder g .trip).updStation g (Station.tripped (s.station g).active.toList)) g
  rw [tripped] at inside shut
  exact ⟨closing, inside, shut⟩

theorem line_trip {s : State} {g : Nat} {v : ValveId} (line : v ∈ [ValveId.suction g, .overboard g]) (valved : s.valved v)
    (c : TripCause) : ((s.trip g c).valve v).commanded = .shut := by
  have other (k : Nat) : v ≠ .tank k := by rintro rfl; simp at line
  have frame : BallastFrame s ((s.updStation g (Station.blamed c)).commandPump g .stop) :=
    (updStation_frame g _ s).trans (commandPump_frame g _ _)
  rw [trip_eq, valve_reroute, valve_shutTanks_line other, valve_updStation, shutLines_eq, valve_returnOrder,
    valve_afterCommands (frame.valved valved) line]
  exact directed_commanded _ _ _

/-- A trip stands when the step has ended. -/
theorem trippedBy_settle {s before : State} {g : Nat} (there : s.grouped g) (suction : s.valved (.suction g))
    (overboard : s.valved (.overboard g)) (c : TripCause) : ((s.trip g c).settle false before).trippedBy g c := by
  obtain ⟨closing, -, station⟩ := station_trip there c
  have on : ((s.trip g c).station g).state ≠ .off := by rw [station]; exact StationState.noConfusion
  have stays := (settle_station false before (s.trip g c) g).stays (.inl on)
  have line {v : ValveId} (mem : v ∈ [ValveId.suction g, .overboard g]) := settle_line (.inl on) false before mem
  unfold State.trippedBy
  rw [stays, station, line (by simp), line (by simp), line_trip (by simp) suction, line_trip (by simp) overboard]
  exact ⟨rfl, rfl, rfl, rfl, rfl, rfl, rfl, rfl⟩

/-! ### The stations that a trip tells -/

theorem BallastFrame.ready {s t : State} (f : BallastFrame s t) : t.ready = s.ready := by
  rw [State.ready, f.rest]; rfl

theorem BallastFrame.hasGroup {s t : State} (f : BallastFrame s t) (g : Nat) : t.hasGroup g = s.hasGroup g := by
  rw [State.hasGroup, f.ready, f.counts]; rfl

theorem afterLocal_frame (s : State) (g : Nat) : BallastFrame s (s.afterLocal g) := by
  refine ⟨rfl, id, ?_⟩
  simp [Sequencer.shape, State.afterLocal, State.afterRest, State.afterReroute]

theorem State.Ranked.of_frames {r s t : State} (ranked : s.Ranked) (left : BallastFrame r s) (right : BallastFrame r t)
    (queues : ∀ g, t.queue g = s.queue g) : t.Ranked := by
  obtain ⟨q, st, tk, su, ov⟩ := left.lengths
  obtain ⟨q', st', tk', su', ov'⟩ := right.lengths
  have group {g : Nat} (there : t.hasGroup g = true) : s.hasGroup g = true := by
    rwa [left.hasGroup, ← right.hasGroup]
  have valved {v : ValveId} (there : s.valved v) : t.valved v := by
    cases v <;> simp only [State.valved, tk, tk', su, su', ov, ov'] at there ⊢ <;> exact there
  refine ⟨fun g there => ?_, fun g there => valved (ranked.suction g (group there)),
    fun g there => valved (ranked.overboard g (group there)), fun g k mem => valved (ranked.tank g k (queues g ▸ mem)),
    fun g => queues g ▸ ranked.nodup g, fun g h k mem mem' => ranked.apart g h k (queues g ▸ mem) (queues h ▸ mem')⟩
  have was := ranked.grouped g (group there)
  simpa only [State.grouped, q, q', st, st'] using was

theorem afterTrip_station_self {s : State} {g : Nat} (there : s.grouped g) (c : TripCause) :
    (s.afterTrip g c).station g = (s.station g).trips c := by
  rw [afterTrip_eq, afterRest_station]
  exact getD_nth1_modify1 ⟨there.1, there.2.2⟩ _ _

theorem owner_afterCommands (s : State) (again : Bool) (p : ValveCommand) (vs : List ValveId) (v : ValveId) :
    ((s.afterCommands again p vs).valve v).owner = (s.valve v).owner := by
  rw [valve_eq_slot, valve_eq_slot, slot_afterCommands]
  cases s.slot v with
  | none => rfl
  | some x =>
    rw [Option.map_some, Option.getD_some, Option.getD_some]
    split <;> rfl

theorem afterTrip_owner (s : State) (g : Nat) (c : TripCause) (k : Nat) :
    ((s.afterTrip g c).valve (.tank k)).owner = (s.valve (.tank k)).owner := by
  rw [afterTrip_eq, afterRest_valve]
  exact owner_afterCommands (s.afterStop g) false .shut ((s.station g).shuts g) (.tank k)

theorem queue_afterTrip (s : State) (g : Nat) (c : TripCause) (h : Nat) : (s.afterTrip g c).queue h = (s.afterLocal g).queue h := by
  rw [afterTrip_eq]
  rfl

section Sound

variable {s : State} {g : Nat} (ready : s.ready = true) (records : s.RecordsOk) (orders : s.OrdersOk) (group : s.hasGroup g = true)
include ready records orders group

theorem trip_exact (c : TripCause) : (s.trip g c).haltTest = s.afterTrip g c := by
  obtain ⟨-, -, ⟨nodup, owner, -, unshut⟩, -⟩ := orders
  refine trip_eq_afterTrip (grouped_of_hasGroup ready records group) (nodup g) (fun k mem => unshut g k ((owner g k).2 ?_)) c
  simpa [Station.tanks] using mem

/-- The stations that gained an order of a station that trips look (R103). -/
theorem trips_settle {before : State} (queues : ∀ h, before.queue h = s.queue h)
    (owners : ∀ k, (before.valve (.tank k)).owner = (s.valve (.tank k)).owner)
    (states : ∀ h, h ≠ g → (before.station h).state = (s.station h).state) (c : TripCause) :
    s.trips ((s.trip g c).settle false before) g c := by
  have exact_ := trip_exact ready records orders group c
  have there := grouped_of_hasGroup ready records group
  have frame : BallastFrame s (s.afterTrip g c) := exact_ ▸ (trip_frame g c s).trans (haltTest_frame _)
  have ranked : (s.afterTrip g c).Ranked := (ranked_afterLocal ready records orders.1 orders.2.1 (afterLocal_frame s g)).of_frames
    (afterLocal_frame s g) frame fun h => queue_afterTrip s g c h
  have answered := settle_answered (s := s.trip g c) (before := before) false
    ((trip_frame g c s).ready.trans ready) (exact_ ▸ ranked)
    (told := fun h => ∃ k ∈ (s.afterTrip g c).queue h, k ∉ s.queue h) fun h _ _ => ?_
  · rwa [exact_] at answered
  · rw [exact_, cause_eq_joined (fun k h own => by rw [afterTrip_owner, ← owners, own]; simp) fun h on => ?_]
    · simp only [joined, List.any_eq_true, decide_eq_true_eq, queues]
    · by_cases here : h = g
      · rw [here, afterTrip_station_self there]
        exact StationState.noConfusion
      · rw [afterTrip_station s g h c here, ← states h here]
        exact on

end Sound

end Sys2Proof.Machine
end

