-- ==== Sys2Proof/Proofs/PumpReports.lean ====
section
/-! PROOFS. O59: what a PUMP STATUS makes of its station (spec 06 R100, R110): it is recorded, and a station whose state does not
allow it trips. -/

namespace Sys2Proof.Machine

theorem BallastFrame.recordsOk {s t : State} (f : BallastFrame s t) (ok : s.RecordsOk) : t.RecordsOk := by
  intro phase
  obtain ⟨holds, tanks, items, shape⟩ := ok (f.startUp ▸ phase)
  rw [f.counts]
  refine ⟨?_, f.tanks ▸ tanks, ?_, f.shape.trans shape⟩
  · rw [f.rest]; exact holds
  · rw [f.rest]; exact items

/-! ### The report taken -/

theorem exec_pumpStatus_ready {s : State} (up : s.linkUp = true) (ready : s.ready = true) (n : Octet) (p : PumpReport) :
    exec (.pumpStatus n p) s = .next (if s.hasGroup n.toNat then
      (s.heardField.pumpReport n.toNat p).settle false s.heardField else s.heardField) :=
  congrArg Host.Outcome.next (takeField_ready up ready)

theorem exec_localSwitch_ready {s : State} (up : s.linkUp = true) (ready : s.ready = true) (n : Octet) (p : SwitchPosition) :
    exec (.localSwitch n p) s = .next (if s.hasGroup n.toNat then
      (s.heardField.switchReport n.toNat p).settle false s.heardField else s.heardField) :=
  congrArg Host.Outcome.next (takeField_ready up ready)

/-- Out of READY a frame of the cabinet ends the frame half received and does nothing else (spec 12 R172). -/
theorem takeField_unready {s : State} (up : s.linkUp = true) (unready : s.ready = false) (present : State → Bool)
    (act : State → State) : s.takeField present act = { s with field := { s.field with receiving := none } } := by
  refine (if_pos up).trans (if_neg ?_)
  show ¬s.ready = true
  rw [unready]
  exact Bool.false_ne_true

/-! ### What the report does -/

/-- The trip that a report causes in a state that does not allow it (R100). -/
def pumpCause (p : PumpReport) (x : StationState) : Option TripCause :=
  match p, x with
  | .overload, .tripped | .overload, .localControl => none
  | .overload, _ => some .overload
  | .stopped, .discharge | .stopped, .strip | .stopped, .changeover => some .pumpLost
  | .running, .off | .running, .lineup | .running, .stopping .closing => some .stopFail
  | _, _ => none

/-- A report recorded. -/
def Station.heard (p : PumpReport) (x : Station) : Station := { x with pumpReported := PumpReport.reported p }

/-- A report that trips nothing, recorded: an OVERLOAD is the last trip cause of a station that is TRIPPED. -/
def Station.noted (p : PumpReport) (x : Station) : Station :=
  { x with
    pumpReported := PumpReport.reported p
    lastTrip := if p = .overload ∧ x.state = .tripped then some .overload else x.lastTrip }

/-- How a station answers a report that is recorded, by the state that it stands in. -/
def State.answersPump (g : Nat) (p : PumpReport) (x : StationState) (s : State) : State :=
  match p, x with
  | .overload, .off => s.trip g .overload
  | .overload, _ => s.tripWorking g .overload
  | .stopped, .discharge | .stopped, .strip | .stopped, .changeover => s.trip g .pumpLost
  | .running, .off | .running, .lineup | .running, .stopping .closing => s.trip g .stopFail
  | _, _ => s

theorem answersPump_of_cause {s : State} {g : Nat} {p : PumpReport} {c : TripCause} (trips : pumpCause p (s.station g).state = some c) :
    s.answersPump g p (s.station g).state = s.trip g c := by
  have working (c : TripCause) (works : (s.station g).state.working = true) : s.tripWorking g c = s.trip g c := if_pos works
  generalize (s.station g).state = x at trips working
  cases p with
  | overload =>
    cases x with
    | off => cases trips; rfl
    | tripped => cases trips
    | localControl => cases trips
    | _ => cases trips; exact working _ rfl
  | stopped => cases x <;> cases trips <;> rfl
  | running =>
    cases x with
    | stopping x => cases x <;> cases trips; rfl
    | off => cases trips; rfl
    | lineup => cases trips; rfl
    | _ => cases trips

theorem answersPump_of_none {s : State} {g : Nat} {p : PumpReport} (admits : pumpCause p (s.station g).state = none) :
    s.answersPump g p (s.station g).state = if p = .overload ∧ (s.station g).state = .tripped then
      s.updStation g ({ · with lastTrip := some .overload }) else s := by
  have rests (still : (s.station g).state.working = false) : s.tripWorking g .overload =
      if (s.station g).state = .tripped then s.updStation g ({ · with lastTrip := some .overload }) else s :=
    if_neg (by rw [still]; exact Bool.false_ne_true)
  generalize (s.station g).state = x at admits rests
  cases p with
  | overload =>
    cases x with
    | tripped => exact rests rfl
    | localControl => exact rests rfl
    | _ => cases admits
  | stopped => cases x <;> cases admits <;> rfl
  | running =>
    cases x with
    | stopping x => cases x <;> cases admits; rfl
    | off => cases admits
    | lineup => cases admits
    | _ => cases admits; rfl

section Reported

variable {s : State} {g : Nat} (there : s.grouped g)
include there

/-- Two changes of a station's record that make the same of it. -/
theorem updStation_congr {f f' : Station → Station} (same : f (s.station g) = f' (s.station g)) :
    s.updStation g f = s.updStation g f' :=
  congrArg (fun l => { s with ballast := { s.ballast with stations := l } })
    (modify1_congr (nth1_eq_some_getD default ⟨there.1, there.2.2⟩) same)

theorem station_heard (p : PumpReport) : (s.updStation g (Station.heard p)).station g = (s.station g).heard p :=
  station_updStation_self there _

theorem pumpReport_of_cause {p : PumpReport} {c : TripCause} (trips : pumpCause p (s.station g).state = some c) :
    s.pumpReport g p = (s.updStation g (Station.heard p)).trip g c :=
  answersPump_of_cause (s := s.updStation g (Station.heard p)) (by rw [station_heard there]; exact trips)

theorem pumpReport_of_none {p : PumpReport} (admits : pumpCause p (s.station g).state = none) :
    s.pumpReport g p = s.updStation g (Station.noted p) := by
  have answer : s.pumpReport g p = _ := answersPump_of_none (s := s.updStation g (Station.heard p))
    (by rw [station_heard there]; exact admits)
  rw [answer, station_heard there]
  split
  · rename_i overload
    refine (congrArg (fun l => { s with ballast := { s.ballast with stations := l } }) (modify1_modify1 _ _ _ _)).trans
      (updStation_congr there ?_)
    show _ = Station.noted p (s.station g)
    rw [Station.noted, if_pos (show p = .overload ∧ (s.station g).state = .tripped from overload)]
    rfl
  · rename_i other
    refine updStation_congr there ?_
    show _ = Station.noted p (s.station g)
    rw [Station.noted, if_neg (show ¬(p = .overload ∧ (s.station g).state = .tripped) from other)]
    rfl

end Reported

section Settled

variable {s : State} {g : Nat} (ready : s.ready = true) (records : s.RecordsOk) (group : s.hasGroup g = true) (p : PumpReport)
include ready records group

theorem trippedBy_of_cause {c : TripCause} (trips : pumpCause p (s.station g).state = some c) :
    ((s.pumpReport g p).settle false s).trippedBy g c ∧
      (((s.pumpReport g p).settle false s).station g).pumpReported = PumpReport.reported p ∧
      (s.OrdersOk → (s.updStation g (Station.heard p)).trips ((s.pumpReport g p).settle false s) g c) := by
  have there := grouped_of_hasGroup ready records group
  have frame := updStation_frame g (Station.heard p) s
  have line {v : ValveId} (counted : s.hasValve v = true) := frame.valved (valved_of_hasValve ready records counted)
  rw [pumpReport_of_cause there trips]
  refine ⟨trippedBy_settle (frame.grouped there) (line group) (line group) c, ?_, fun orders => ?_⟩
  · obtain ⟨closing, -, station⟩ := station_trip (frame.grouped there) c
    rw [(settle_station false s _ g).stays (.inl (by rw [station]; exact StationState.noConfusion)), station, station_heard there]
    rfl
  · refine trips_settle (before := s) (frame.ready.trans ready) (frame.recordsOk records) ((updStation_sameWork (f := Station.heard p) s fun _ => rfl).ordersOk orders)
      ((frame.hasGroup g).trans group) (fun _ => rfl) (fun k => by rw [valve_updStation]) (fun h other => ?_) c
    rw [station_updStation_ne other]

theorem recorded_of_none (admits : pumpCause p (s.station g).state = none) (settled : s.haltSettled) :
    (s.pumpReport g p).settle false s = s.updStation g (Station.noted p) := by
  rw [pumpReport_of_none (grouped_of_hasGroup ready records group) admits]
  exact settle_updStation settled fun _ => rfl

end Settled

end Sys2Proof.Machine
end

