-- ==== Sys2Proof/Proofs/SwitchReports.lean ====
section
/-! PROOFS. O59: what a LOCAL SWITCH makes of its station (spec 06 R112): it is recorded, and takes the station into LOCAL or out of it. -/

namespace Sys2Proof.Machine

/-! ### The position recorded -/

/-- A station with the position of its switch recorded. -/
def Station.switched (p : SwitchPosition) (x : Station) : Station := { x with switch := p }

theorem switchReport_of_same {s : State} {g : Nat} {p : SwitchPosition} (there : s.grouped g)
    (same : p = .localControl ↔ (s.station g).state = .localControl) :
    s.switchReport g p = s.updStation g (Station.switched p) := by
  have state : ((s.updStation g ({ · with switch := p })).station g).state = (s.station g).state := by
    rw [station_updStation_self there]
  unfold State.switchReport
  dsimp only
  rw [state, if_neg fun ⟨here, other⟩ => other (same.1 here), 
    if_neg fun ⟨remote, here⟩ => SwitchPosition.noConfusion ((same.2 here).symm.trans remote)]
  rfl

/-! ### Into LOCAL -/

theorem owner_enterLineup (g n k : Nat) (s : State) : ((s.enterLineup g n).valve (.tank k)).owner = (s.valve (.tank k)).owner ∨
    ((s.enterLineup g n).valve (.tank k)).owner = some g := by
  have lined : ((s.linesUp g n).valve (.tank k)).owner = (s.valve (.tank k)).owner := (linesUp_commanded g n s).owners _
  rw [enterLineup_eq]
  by_cases here : ValveId.tank k = .tank n
  · rw [here] at lined ⊢
    obtain read | read := valve_updValve_cases (s.linesUp g n) (.tank n) ({ · with owner := some g })
    · exact .inl ((congrArg Valve.owner read).trans lined)
    · exact .inr (congrArg Valve.owner read)
  · exact .inl ((congrArg Valve.owner (valve_updValve_ne here _)).trans lined)

theorem owner_look (g k : Nat) (s : State) : ((s.look g).valve (.tank k)).owner = (s.valve (.tank k)).owner ∨
    s.mayLook g = true ∧ ((s.look g).valve (.tank k)).owner = some g := by
  unfold State.look
  split
  · rename_i may
    dsimp only
    split
    · exact (owner_enterLineup g _ k (s.scan g)).imp (·.trans (by rw [valve_scan])) fun own => ⟨may, own⟩
    · exact .inl (by rw [valve_scan])
  · exact .inl rfl

/-- A station that may not look comes to own no tank valve. -/
theorem settle_disowned {s : State} {g : Nat} (busy : (s.station g).state ≠ .off) (free : ∀ k, (s.valve (.tank k)).owner ≠ some g)
    (all : Bool) (before : State) (k : Nat) : ((s.settle all before).valve (.tank k)).owner ≠ some g := by
  refine (settle_keeps (P := fun t => (t.station g).state ≠ .off ∧ ∀ k, (t.valve (.tank k)).owner ≠ some g) all before (fun was => ?_)
    (fun _ _ => id) (fun h t was => ?_) ⟨busy, free⟩).2 k
  · simpa only [haltTest_eq_afterRest, afterRest_station, afterRest_valve] using was
  · obtain ⟨busy, free⟩ := was
    refine ⟨by rw [(station_look h g t).stays (.inl busy)]; exact busy, fun k own => ?_⟩
    obtain same | ⟨may, taken⟩ := owner_look h k t
    · exact free k (same ▸ own)
    · rw [taken] at own
      cases own
      exact busy (mayLook_iff.1 may).2.1

/-- The record of a station that goes to LOCAL. -/
def Station.handedOver (x : Station) : Station :=
  { x with
    state := .localControl, switch := .localControl, active := none, closing := [], deadline := none, lowSince := none
    resuming := false, localFlag := true }

theorem station_afterLocal {s : State} {g : Nat} (there : s.grouped g) :
    (s.afterLocal g).station g = (s.station g).handedOver :=
  getD_nth1_modify1 ⟨there.1, there.2.2⟩ _ _

/-- A tank valve that is owned no longer. -/
def Valve.disowned (g : Nat) (x : Valve) : Valve := if x.owner = some g then { x with owner := none, deadline := none } else x

theorem tank_afterLocal (s : State) {g : Nat} (k : Nat) :
    (s.afterLocal g).valve (.tank k) = (s.valve (.tank k)).disowned g := by
  show (nth1 (s.ballast.tankValves.map (Valve.disowned g)) k).getD default = Valve.disowned g ((nth1 _ k).getD default)
  rw [nth1_map]
  cases nth1 s.ballast.tankValves k <;> rfl

theorem line_afterLocal {s : State} {g h : Nat} {v : ValveId} (line : v ∈ [ValveId.suction h, .overboard h]) (valved : s.valved v) :
    (s.afterLocal g).valve v = if h = g then { s.valve v with deadline := none } else s.valve v := by
  simp only [List.mem_cons, List.not_mem_nil, or_false] at line
  by_cases here : h = g
  · subst here
    rw [if_pos rfl]
    obtain rfl | rfl := line
    · exact getD_nth1_modify1 valved _ _
    · exact getD_nth1_modify1 valved _ _
  · rw [if_neg here]
    obtain rfl | rfl := line
    · exact getD_nth1_modify1_ne here _ _
    · exact getD_nth1_modify1_ne here _ _

section Local

variable {s : State} {g : Nat} (ready : s.ready = true) (records : s.RecordsOk) (group : s.hasGroup g = true)
  (remote : (s.station g).state ≠ .localControl)
include ready records group remote

theorem switchReport_haltTest : (s.switchReport g .localControl).haltTest = s.afterLocal g := by
  obtain ⟨-, -, -, shape⟩ := records.fits ready
  simp only [Sequencer.shape, List.cons.injEq] at shape
  exact switchReport_local (grouped_of_hasGroup ready records group) shape.2.2.2.1 remote

theorem station_goesLocal : ((s.switchReport g .localControl).settle false s).station g = (s.station g).handedOver := by
  have left : (s.switchReport g .localControl).station g = (s.station g).handedOver := by
    rw [← station_afterLocal (grouped_of_hasGroup ready records group), ← switchReport_haltTest ready records group remote,
      haltTest_eq_afterRest, afterRest_station]
  rw [(settle_station false s _ g).stays (.inl (by rw [left]; exact StationState.noConfusion)), left]

/-- What the switch report leaves of the line, of the tank valves, and, while the sequencer is not RUNNING, of everything. -/
theorem valves_goLocal : (∀ v ∈ [ValveId.suction g, .overboard g],
      (((s.switchReport g .localControl).settle false s).valve v).deadline = none) ∧
    ∀ k, (((s.switchReport g .localControl).settle false s).valve (.tank k)).owner ≠ some g := by
  have exact_ := switchReport_haltTest ready records group remote
  have there := grouped_of_hasGroup ready records group
  have station : (s.switchReport g .localControl).station g = (s.station g).handedOver := by
    rw [← station_afterLocal there, ← exact_, haltTest_eq_afterRest, afterRest_station]
  have busy : ((s.switchReport g .localControl).station g).state ≠ .off := by rw [station]; exact StationState.noConfusion
  have valve (v : ValveId) : (s.switchReport g .localControl).valve v = (s.afterLocal g).valve v := by
    rw [← exact_, haltTest_eq_afterRest, afterRest_valve]
  refine ⟨fun v line => ?_, settle_disowned busy (fun k own => ?_) false s⟩
  · have valved : s.valved v := by
      simp only [List.mem_cons, List.not_mem_nil, or_false] at line
      obtain rfl | rfl := line <;> exact valved_of_hasValve ready records group
    rw [settle_line (.inl busy) false s line, valve, line_afterLocal line valved, if_pos rfl]
  · rw [valve, afterLocal_owner] at own
    split at own
    · exact Option.some_ne_none _ own.symm
    · exact absurd own ‹_›

theorem switchReport_settled (idle : s.ballast.state ≠ .running) :
    (s.switchReport g .localControl).settle false s = s.afterLocal g := by
  have exact_ := switchReport_haltTest ready records group remote
  rw [← exact_]
  refine settle_of_not_running false ?_
  rw [exact_]
  intro running
  have running : (if _ then SequencerState.halted else s.ballast.state) = .running := running
  split at running
  · exact SequencerState.noConfusion running
  · exact idle running

end Local

/-! ### Out of LOCAL -/

/-- The record of a station that resumes command. -/
def Station.resumes (now : Second) (x : Station) : Station :=
  { x with
    state := .stopping .rundown, switch := .remote, pumpCommanded := .stop, resuming := true, localFlag := true
    deadline := some (later now x.rundown) }

/-- A station back in command: its pump stopped, and a HALTED sequencer HALTING. -/
def State.resumed (s : State) (g : Nat) : State := { s with
  ballast := { s.ballast with
    state := if s.ballast.state = .halted then .halting else s.ballast.state
    stations := modify1 s.ballast.stations g (Station.resumes s.clock) }
  field := { s.field with outbound := placeIn (.pump g .stop) s.field.outbound } }

theorem switchReport_remote {s : State} {g : Nat} (there : s.grouped g) (here : (s.station g).state = .localControl) :
    s.switchReport g .remote = s.resumed g := by
  have state : ((s.updStation g ({ · with switch := .remote })).station g).state = .localControl := by
    rw [station_updStation_self there]; exact here
  have enters : s.switchReport g .remote = (s.updStation g ({ · with switch := .remote })).leaveLocal g := by
    unfold State.switchReport
    dsimp only
    rw [state, if_neg fun ⟨other, _⟩ => SwitchPosition.noConfusion other, if_pos ⟨rfl, rfl⟩]
  have stations : modify1 (modify1 (modify1 s.ballast.stations g ({ · with switch := .remote })) g
      ({ · with pumpCommanded := .stop })) g (fun x =>
        { x with state := .stopping .rundown, deadline := some (later s.clock x.rundown), resuming := true, localFlag := true }) =
      modify1 s.ballast.stations g (Station.resumes s.clock) := by
    rw [modify1_modify1, modify1_modify1]
    rfl
  rw [enters]
  unfold State.leaveLocal State.resumed
  rw [← stations]
  dsimp only
  split
  · rename_i halted
    rw [if_pos (show s.ballast.state = .halted from halted)]
    rfl
  · rename_i awake
    rw [if_neg (show ¬s.ballast.state = .halted from awake)]
    rfl

theorem switchReport_remote_settled {s : State} {g : Nat} (ready : s.ready = true) (records : s.RecordsOk)
    (group : s.hasGroup g = true) (here : (s.station g).state = .localControl) :
    (s.switchReport g .remote).settle false s = s.resumed g := by
  have there := grouped_of_hasGroup ready records group
  obtain ⟨-, least, most⟩ := counted_of_hasGroup group
  have station : (s.resumed g).station g = (s.station g).resumes s.clock := getD_nth1_modify1 ⟨there.1, there.2.2⟩ _ _
  rw [switchReport_remote there here]
  refine settle_quiet (fun _ _ => id) (fun k h own free => ?_) (fun h on => ?_) ⟨g, mem_groupNumbers.2 ⟨least, most⟩, ?_⟩
  · have own' : ((s.resumed g).valve (.tank k)).owner = some h := own
    exact Option.some_ne_none _ (own'.symm.trans free)
  · by_cases mine : h = g
    · rw [mine, station]
      exact StationState.noConfusion
    · rw [show (s.resumed g).station h = s.station h from getD_nth1_modify1_ne mine _ _]
      exact on
  · rw [station]; rfl

/-! ### The statement -/

/-- Spec 06 R100: what a PUMP STATUS does in READY. -/
theorem pumpStatus_moves {s : State} {n : Octet} (up : s.linkUp = true) (ready : s.ready = true) (records : s.RecordsOk)
    (group : s.hasGroup n.toNat = true) (p : PumpReport) :
    (∀ c, pumpCause p (s.station n.toNat).state = some c → ∃ t, exec (.pumpStatus n p) s = .next t ∧ s.heardField.onlyBallast t ∧
      t.trippedBy n.toNat c ∧ (t.station n.toNat).pumpReported = PumpReport.reported p ∧
      (s.OrdersOk → (s.heardField.updStation n.toNat (Station.heard p)).trips t n.toNat c)) ∧
    (pumpCause p (s.station n.toNat).state = none → s.haltSettled →
      exec (.pumpStatus n p) s = .next (s.heardField.updStation n.toNat (Station.noted p))) := by
  have run := exec_pumpStatus_ready up ready n p
  rw [if_pos group] at run
  refine ⟨fun c trips => ?_, fun admits settled => ?_⟩
  · obtain ⟨tripped, reported, whole⟩ := trippedBy_of_cause (s := s.heardField) ready records group p trips
    exact ⟨_, run, ((pumpReport_frame _ p _).trans (settle_frame false _ _)).onlyBallast, tripped, reported, whole⟩
  · rw [run, recorded_of_none (s := s.heardField) ready records group p admits settled]

/-- Spec 06 R112: what a LOCAL SWITCH report that takes a station into LOCAL does. -/
theorem localSwitch_goesLocal {s : State} {n : Octet} (up : s.linkUp = true) (ready : s.ready = true) (records : s.RecordsOk)
    (group : s.hasGroup n.toNat = true) (remote : (s.station n.toNat).state ≠ .localControl) :
    ∃ t, exec (.localSwitch n .localControl) s = .next t ∧ s.heardField.onlyBallast t ∧
      t.station n.toNat = (s.station n.toNat).handedOver ∧
      (t.valve (.suction n.toNat)).deadline = none ∧ (t.valve (.overboard n.toNat)).deadline = none ∧
      (∀ k, (t.valve (.tank k)).owner ≠ some n.toNat) ∧
      (s.OrdersOk → (s.heardField.afterLocal n.toNat).answered t fun h => (∃ k, (s.valve (.tank k)).owner = some n.toNat) ∨
        ∃ k ∈ (s.heardField.afterLocal n.toNat).queue h, k ∉ s.queue h) ∧
      (s.ballast.state ≠ .running → t = s.heardField.afterLocal n.toNat) := by
  have run := exec_localSwitch_ready up ready n .localControl
  rw [if_pos group] at run
  obtain ⟨line, tanks⟩ := valves_goLocal (s := s.heardField) ready records group remote
  refine ⟨_, run, ((switchReport_frame _ _ _).trans (settle_frame false _ _)).onlyBallast,
    station_goesLocal (s := s.heardField) ready records group remote, line _ (by simp), line _ (by simp), tanks, fun orders => ?_,
    switchReport_settled (s := s.heardField) ready records group remote⟩
  obtain ⟨t, run', answers, -⟩ := localReroutes up records group remote
  cases run.symm.trans run'
  exact (answers orders).2

theorem localSwitch_recorded {s : State} {n : Octet} (up : s.linkUp = true) (ready : s.ready = true) (records : s.RecordsOk)
    (group : s.hasGroup n.toNat = true) {p : SwitchPosition} (same : p = .localControl ↔ (s.station n.toNat).state = .localControl)
    (settled : s.haltSettled) :
    exec (.localSwitch n p) s = .next (s.heardField.updStation n.toNat (Station.switched p)) := by
  rw [exec_localSwitch_ready up ready, if_pos group,
    switchReport_of_same (grouped_of_hasGroup (s := s.heardField) ready records group) same,
    settle_updStation (s := s.heardField) (f := Station.switched p) settled fun _ => rfl]

/-- The order of a station that has gone to LOCAL is QUEUED with LOCAL, its target as it was. -/
theorem order_afterLocal {s : State} {g k : Nat} {o : Order} (active : (s.station g).active = some k) (here : s.order k = some o) :
    ∃ o', (s.afterLocal g).order k = some o' ∧ o'.state = .queued ∧ o'.holdCause = some .localControl ∧ o'.target = o.target := by
  refine ⟨s.rerouted g .localControl k o, ?_, if_pos active, if_pos active, rfl⟩
  rw [afterLocal_order, if_pos (by simp [State.walk, active]), here]
  rfl

/-- Settles O59: PUMP STATUS by the table of R100, and the LOCAL SWITCH into LOCAL and out of it. -/
theorem pumpAndSwitchReportsMoveTheStation : Obligations.PumpAndSwitchReportsMoveTheStation := by
  refine ⟨fun s n up unready => ⟨fun p => ?_, fun p => ?_⟩, fun s n up ready records => ⟨fun absent => ⟨fun p => ?_, fun p => ?_⟩,
    fun group p => ?_, fun group => ⟨fun remote => ?_, fun here => ?_, fun settled => ⟨fun here => ?_, fun remote => ?_⟩⟩⟩⟩
  · exact congrArg Host.Outcome.next (takeField_unready up unready _ _)
  · exact congrArg Host.Outcome.next (takeField_unready up unready _ _)
  · rw [exec_pumpStatus_ready up ready, absent]; rfl
  · rw [exec_localSwitch_ready up ready, absent]; rfl
  · exact pumpStatus_moves up ready records group p
  · obtain ⟨t, run, only, station, suction, overboard, tanks, answers, still⟩ := localSwitch_goesLocal up ready records group remote
    refine ⟨t, run, only, station, suction, overboard, tanks, answers, fun idle => ?_⟩
    rw [still idle]
    refine ⟨rfl, fun k _ => tank_afterLocal s.heardField k, fun h there v line => ?_, fun k o _ active here => ?_⟩
    · have counted : s.hasValve v = true := by
        simp only [List.mem_cons, List.not_mem_nil, or_false] at line
        obtain rfl | rfl := line <;> exact there
      exact line_afterLocal (s := s.heardField) line (valved_of_hasValve (s := s.heardField) ready records counted)
    · exact order_afterLocal (s := s.heardField) active here
  · rw [exec_localSwitch_ready up ready, if_pos group, switchReport_remote_settled (s := s.heardField) ready records group here]
    rfl
  · exact localSwitch_recorded up ready records group ⟨fun _ => here, fun _ => rfl⟩ settled
  · exact localSwitch_recorded up ready records group
      ⟨fun same => SwitchPosition.noConfusion same, fun here => absurd here remote⟩ settled

end Sys2Proof.Machine
end

