-- ==== Sys2Proof/Proofs/Closing.lean ====
section
/-! PROOFS. STOPPING is what the statements compute (spec 06 R109, R112): the line and the closing tanks commanded SHUT, and the pump
stopped. -/

namespace Sys2Proof.Machine

/-! ### Confirmation through commands -/

theorem valve_afterCommands_sent {s : State} {v : ValveId} {vs : List ValveId} {p : ValveCommand} {again : Bool} (there : s.valved v)
    (named : v ∈ vs) (sends : again = true ∨ (s.valve v).commanded ≠ p) : (s.afterCommands again p vs).valve v =
      { s.valve v with commanded := p, confirmed := false, deadline := some (later s.clock (s.classTimeout v)) } := by
  have record : s.slot v = some (s.valve v) := by
    cases v <;> exact nth1_eq_some_getD default there
  rw [valve_eq_slot, slot_afterCommands, record, Option.map_some, Option.getD_some, if_pos ⟨named, sends⟩]

/-- A command that changes the commanded position leaves the valve unconfirmed at it; the same command changes nothing. -/
theorem confirmedAt_afterCommands_same (s : State) (p : ValveCommand) (vs : List ValveId) (v : ValveId) :
    (s.afterCommands false p vs).confirmedAt v p = s.confirmedAt v p := by
  simp only [State.confirmedAt, valve_eq_slot, slot_afterCommands]
  cases s.slot v with
  | none => rfl
  | some x =>
    simp only [Option.map_some, Option.getD_some, Bool.false_eq_true, false_or]
    split
    · rename_i sent
      simp [sent.2]
    · rfl

theorem confirmedAt_afterCommands_again {s : State} {v : ValveId} {vs : List ValveId} (there : s.valved v) (named : v ∈ vs)
    (p q : ValveCommand) : (s.afterCommands true p vs).confirmedAt v q = false := by
  rw [State.confirmedAt, valve_afterCommands_sent there named (.inl rfl), Bool.and_false]

/-! ### The CLOSING phase -/

/-- The line commanded SHUT, sent again where the station resumes command, and then the closing tanks. -/
def State.closesAll (s : State) (g : Nat) : State :=
  (s.afterCommands (s.station g).resuming .shut [.suction g, .overboard g]).afterCommands false .shut
    ((s.station g).closing.map .tank)

theorem closesLine_eq (s : State) (g : Nat) : s.closesLine g =
    (s.afterCommands (s.station g).resuming .shut [.suction g, .overboard g]).reworked s.ballast.orders s.ballast.queues
      (modify1 s.ballast.stations g Station.closes) := by
  rw [State.closesLine, shutLine_eq_afterCommands, shutLine_eq_afterCommands, afterCommands_append (by simp), updStation_reworked,
    afterCommands_reworked]
  rfl

/-- The line is shut already: nothing resumes, no tank closes, and both line valves stand confirmed SHUT. -/
def State.shutAlready (s : State) (g : Nat) : Prop :=
  (s.station g).resuming = false ∧ (s.station g).closing = [] ∧ s.confirmedAt (.suction g) .shut = true ∧
    s.confirmedAt (.overboard g) .shut = true


/-- A station whose line is shut at its entry into CLOSING. -/
def Station.shut (st : Station) : Station := { st.closes with state := .off }

theorem afterClosing_of_shut {s : State} {g : Nat} (shut : s.shutAlready g) : s.afterClosing g =
    (s.closesAll g).reworked s.ballast.orders s.ballast.queues (modify1 s.ballast.stations g Station.shut) := by
  unfold State.afterClosing
  simp only [if_pos (show _ ∧ _ ∧ _ ∧ _ from shut)]
  rfl

theorem afterClosing_of_open {s : State} {g : Nat} (open_ : ¬s.shutAlready g) : s.afterClosing g =
    (s.closesAll g).reworked s.ballast.orders s.ballast.queues (modify1 s.ballast.stations g Station.closes) := by
  unfold State.afterClosing
  simp only [if_neg (show ¬(_ ∧ _ ∧ _ ∧ _) from open_)]
  rfl

section Closing

variable {s : State} {g : Nat} (there : s.grouped g) (suction : s.valved (.suction g)) (overboard : s.valved (.overboard g))
  (nodup : (s.station g).closing.Nodup) (un : ∀ k ∈ (s.station g).closing, s.confirmedAt (.tank k) .shut = false)
include there suction overboard nodup un

omit nodup in
/-- The line is shut once its commands are placed where it was shut already. -/
theorem lineShut_closesAll : ((s.closesAll g).reworked s.ballast.orders s.ballast.queues
    (modify1 s.ballast.stations g Station.closes)).lineShut g = true ↔ s.shutAlready g := by
  have closing : (((s.closesAll g).reworked s.ballast.orders s.ballast.queues
      (modify1 s.ballast.stations g Station.closes)).station g).closing = (s.station g).closing :=
    (congrArg Station.closing (getD_nth1_modify1 ⟨there.1, there.2.2⟩ Station.closes default)).trans rfl
  have line {v : ValveId} (mem : v ∈ [ValveId.suction g, .overboard g]) (valved : s.valved v) :
      (s.closesAll g).confirmedAt v .shut = (!(s.station g).resuming && s.confirmedAt v .shut) := by
    have other : v ∉ (s.station g).closing.map .tank := fun mem' => by
      obtain ⟨k, -, rfl⟩ := List.mem_map.1 mem'
      simp at mem
    rw [State.closesAll, confirmedAt_afterCommands_of_not_mem other]
    cases (s.station g).resuming with
    | false => exact (confirmedAt_afterCommands_same s .shut _ v).trans (by simp)
    | true => exact confirmedAt_afterCommands_again valved mem _ _
  have tanks (k : Nat) : (s.closesAll g).confirmedAt (.tank k) .shut = s.confirmedAt (.tank k) .shut := by
    rw [State.closesAll, confirmedAt_afterCommands_same, confirmedAt_afterCommands_of_not_mem (by simp)]
  have all : ((s.station g).closing.all fun k => s.confirmedAt (.tank k) .shut) = true ↔ (s.station g).closing = [] := by
    rw [List.all_eq_true]
    refine ⟨fun shut => List.eq_nil_iff_forall_not_mem.2 fun k mem => ?_, fun none k mem => absurd (none ▸ mem) List.not_mem_nil⟩
    exact Bool.noConfusion ((un k mem).symm.trans (shut k mem))
  show ((s.closesAll g).confirmedAt (.suction g) .shut && (s.closesAll g).confirmedAt (.overboard g) .shut &&
    List.all _ fun k => (s.closesAll g).confirmedAt (.tank k) .shut) = true ↔ _
  rw [closing]
  simp only [tanks, line (v := .suction g) (by simp) suction, line (v := .overboard g) (by simp) overboard, Bool.and_eq_true, all,
    Bool.not_eq_true', State.shutAlready]
  tauto

theorem enterClosing_eq_afterClosing : s.enterClosing g = s.afterClosing g := by
  have tanks : (s.station g).closing.foldl (fun s k => s.shutTank k) (s.closesLine g) =
      (s.closesAll g).reworked s.ballast.orders s.ballast.queues (modify1 s.ballast.stations g Station.closes) := by
    rw [closesLine_eq, shutTanks_eq_afterCommands nodup fun k mem => ?_, afterCommands_reworked]
    · rfl
    · show (s.afterCommands (s.station g).resuming .shut [.suction g, .overboard g]).confirmedAt (.tank k) .shut = false
      rw [confirmedAt_afterCommands_of_not_mem (by simp)]
      exact un k mem
  have lineShut := lineShut_closesAll there suction overboard un
  have state : (((s.closesAll g).reworked s.ballast.orders s.ballast.queues
      (modify1 s.ballast.stations g Station.closes)).station g).state = .stopping .closing :=
    (congrArg Station.state (getD_nth1_modify1 ⟨there.1, there.2.2⟩ Station.closes default)).trans rfl
  rw [enterClosing_eq, tanks, State.closingTest]
  by_cases shut : s.shutAlready g
  · rw [if_pos ⟨state, lineShut.2 shut⟩, afterClosing_of_shut shut, updStation_reworked]
    show (s.closesAll g).reworked _ _ (modify1 (modify1 s.ballast.stations g Station.closes) g _) = _
    rw [modify1_modify1]
    rfl
  · rw [if_neg fun both => shut (lineShut.1 both.2), afterClosing_of_open shut]

end Closing

/-! ### The RUNDOWN phase -/

theorem enterRundown_eq_afterRundown (s : State) (g : Nat) : s.enterRundown g = s.afterRundown g := by
  rw [State.enterRundown, commandPump_stop]
  rfl

end Sys2Proof.Machine
end

