-- ==== Sys2Proof/Proofs/Halt.lean ====
section
/-! PROOFS. O44: HALT reaches every station that runs an order, in whatever order (spec 06 R92, R104 to R108). -/

namespace Sys2Proof.Machine

/-! ### HALT at one station -/

/-- A station's order returned with HALT, its tank a closing tank. -/
def State.givesBack (s : State) (g k : Nat) : State := (s.returnOrder g .halt).addClosing g k

theorem haltStation_of_idle {s : State} {g : Nat} (idle : (s.station g).active = none) : s.haltStation g = s := by
  unfold State.haltStation
  rw [idle]
  cases (s.station g).state <;> rfl

theorem haltStation_of_runs {s : State} {g k : Nat} (active : (s.station g).active = some k) (runs : (s.station g).state.runs = true) :
    s.haltStation g =
      if (s.station g).state = .lineup then (s.givesBack g k).enterClosing g else (s.givesBack g k).enterRundown g := by
  unfold State.haltStation
  rw [active]
  generalize (s.station g).state = x at runs
  cases x with
  | lineup => rfl
  | priming => rfl
  | discharge => rfl
  | strip => rfl
  | changeover => rfl
  | _ => exact Bool.noConfusion runs

theorem givesBack_eq_afterReturn {s : State} {g k : Nat} (active : (s.station g).active = some k) :
    s.givesBack g k = s.afterReturn g .halt := by
  have queues : modify1 s.ballast.queues g (fun _ => k :: s.queue g) = modify1 s.ballast.queues g (k :: ·) := by
    refine ext_nth1 fun n => ?_
    rw [nth1_modify1, nth1_modify1]
    split
    · rename_i here
      rw [State.queue, here]
      cases nth1 s.ballast.queues g <;> rfl
    · rfl
  have stations : modify1 (modify1 s.ballast.stations g ({ · with active := none })) g
      (fun st => { st with closing := st.closing ++ [k] }) =
        modify1 s.ballast.stations g fun st => { st with active := none, closing := st.closing ++ [k] } := modify1_modify1 _ _ _ _
  unfold State.afterReturn State.givesBack State.returnOrder
  rw [active]
  dsimp only
  rw [← queues, ← stations]
  rfl

/-- What HALT leaves of the stations: the one reached runs no order any more, and no other is touched. -/
theorem haltStation_turns {s : State} {g k : Nat} (active : (s.station g).active = some k) (runs : (s.station g).state.runs = true) :
    ∃ f, (∀ d, (f d).1.runs = false ∧ (f d).2.1 = none) ∧ s.turns (s.haltStation g) g f := by
  have returns : s.turns (s.givesBack g k) g fun d => (d.1, none, d.2.2) :=
    (returnOrder_turns g .halt s).same (updStation_duties _ fun _ => rfl)
  rw [haltStation_of_runs active runs]
  split
  · obtain ⟨x, states, closes⟩ := enterClosing_turns g (s.givesBack g k)
    exact ⟨_, fun d => ⟨by obtain rfl | rfl := states <;> rfl, rfl⟩, returns.trans closes⟩
  · exact ⟨_, fun d => ⟨rfl, rfl⟩, returns.trans (enterRundown_turns g _)⟩

theorem orders_shutTank (s : State) (k : Nat) : (s.shutTank k).ballast.orders = s.ballast.orders := by
  have commanded := (commandValve_commanded (.tank k) .shut s).orders
  unfold State.shutTank State.releaseIfShut
  split
  · split
    · exact commanded
    · exact commanded
  · exact commanded

theorem orders_enterClosing (g : Nat) (s : State) : (s.enterClosing g).ballast.orders = s.ballast.orders := by
  have shut : ((s.station g).closing.foldl (fun s k => s.shutTank k) (s.closesLine g)).ballast.orders = s.ballast.orders :=
    foldl_keeps (P := fun t => t.ballast.orders = s.ballast.orders) (fun k _ t was => (orders_shutTank t k).trans was)
      (closesLine_commanded g s).orders
  rw [enterClosing_eq, State.closingTest]
  split
  · exact shut
  · exact shut

theorem order_haltStation {s : State} {g k : Nat} (active : (s.station g).active = some k) (runs : (s.station g).state.runs = true)
    (n : Nat) : (s.haltStation g).order n = if k = n then (s.order n).map (Order.back .halt) else s.order n := by
  have orders : (s.haltStation g).ballast.orders = (s.returnOrder g .halt).ballast.orders := by
    rw [haltStation_of_runs active runs]
    split
    · exact orders_enterClosing g _
    · rw [enterRundown_eq_afterRundown]; rfl
  rw [State.order, orders, returnOrder_orders, active, State.order]
  simp only [Option.some.injEq]
  split
  · rcases nth1 s.ballast.orders n with _ | _ | o <;> rfl
  · rfl

/-! ### HALT at every station -/

/-- What HALT has made of the stations of a list and of the orders that they ran. -/
structure HaltedAt (s t : State) (l : List Nat) : Prop where
  ok : t.StationsOk
  halted : ∀ g ∈ l, (t.station g).active = none ∧ (t.station g).state.runs = false ∧
    ((s.station g).state.runs = false → (t.station g).state = (s.station g).state)
  others : ∀ g, g ∉ l → (t.station g).duty = (s.station g).duty
  returned : ∀ k, (∃ g ∈ l, (s.station g).active = some k) → t.order k = (s.order k).map (Order.back .halt)
  kept : ∀ k, (∀ g ∈ l, (s.station g).active ≠ some k) → t.order k = s.order k

theorem haltStation_halted {s : State} (ok : s.StationsOk) {g : Nat} (there : s.staffed g) : HaltedAt s (s.haltStation g) [g] := by
  obtain ⟨manned, -⟩ := ok.here g
  cases active : (s.station g).active with
  | none =>
    have rests : (s.station g).state.runs = false := by rw [← show _ = (s.station g).state.runs from manned]; simp [Station.duty, active]
    rw [haltStation_of_idle active]
    refine ⟨ok, fun h mem => ?_, fun _ _ => rfl, fun k ⟨h, mem, runs⟩ => ?_, fun _ _ => rfl⟩
    · rw [List.mem_singleton.1 mem]
      exact ⟨active, rests, fun _ => rfl⟩
    · rw [List.mem_singleton.1 mem, active] at runs
      exact absurd runs (by simp)
  | some k =>
    have runs : (s.station g).state.runs = true := by rw [← show _ = (s.station g).state.runs from manned]; simp [Station.duty, active]
    obtain ⟨f, stops, turns⟩ := haltStation_turns active runs
    refine ⟨ok.haltStation g, fun h mem => ?_, fun h other => duty_of_turns_ne turns (by simpa using other), fun n ⟨h, mem, own⟩ => ?_,
      fun n other => ?_⟩
    · rw [List.mem_singleton.1 mem]
      refine ⟨(active_of_turns turns there).trans (stops _).2, ?_, fun rests => Bool.noConfusion (rests.symm.trans runs)⟩
      rw [state_of_turns turns there]
      exact (stops _).1
    · rw [List.mem_singleton.1 mem, active] at own
      rw [order_haltStation active runs, if_pos (Option.some.inj own)]
    · rw [order_haltStation active runs, if_neg fun same => other g (List.mem_singleton_self g) (by rw [active, same])]

theorem HaltedAt.trans {s t u : State} {g : Nat} {l : List Nat} (fresh : g ∉ l) (first : HaltedAt s t [g]) (rest : HaltedAt t u l) :
    HaltedAt s u (g :: l) := by
  have apart {h : Nat} (mem : h ∈ l) : (t.station h).duty = (s.station h).duty :=
    first.others h fun same => fresh (List.mem_singleton.1 same ▸ mem)
  have state {x y : Station} (same : x.duty = y.duty) : x.state = y.state := congrArg Prod.fst same
  have active {x y : Station} (same : x.duty = y.duty) : x.active = y.active := congrArg (fun d => d.2.1) same
  refine ⟨rest.ok, fun h mem => ?_, fun h other => ?_, fun k ⟨h, mem, own⟩ => ?_, fun k other => ?_⟩
  · obtain rfl | mem := List.mem_cons.1 mem
    · have same := rest.others h fresh
      obtain ⟨idle, stops, stays⟩ := first.halted h (List.mem_singleton_self h)
      rw [active same, state same]
      exact ⟨idle, stops, stays⟩
    · obtain ⟨idle, stops, stays⟩ := rest.halted h mem
      rw [state (apart mem)] at stays
      exact ⟨idle, stops, stays⟩
  · obtain ⟨here, other⟩ := not_or.1 (fun mem => other (List.mem_cons.2 mem))
    exact (rest.others h other).trans (first.others h fun same => here (List.mem_singleton.1 same))
  · by_cases own' : (s.station g).active = some k
    · have back := first.returned k ⟨g, List.mem_singleton_self g, own'⟩
      by_cases again : ∃ h ∈ l, (t.station h).active = some k
      · rw [rest.returned k again, back, Option.map_map]
        rfl
      · rw [rest.kept k fun h mem runs => again ⟨h, mem, runs⟩, back]
    · obtain rfl | mem := List.mem_cons.1 mem
      · exact absurd own own'
      · rw [rest.returned k ⟨h, mem, by rw [active (apart mem)]; exact own⟩,
          first.kept k fun h mem => by rw [List.mem_singleton.1 mem]; exact own']
  · rw [rest.kept k fun h mem => by rw [active (apart mem)]; exact other h (List.mem_cons_of_mem g mem)]
    exact first.kept k fun h mem => by rw [List.mem_singleton.1 mem]; exact other g List.mem_cons_self

theorem haltStations_halted {l : List Nat} (nodup : l.Nodup) {s : State} (ok : s.StationsOk) (there : ∀ g ∈ l, s.staffed g) :
    HaltedAt s (l.foldl (fun s g => s.haltStation g) s) l := by
  induction l generalizing s with
  | nil => exact ⟨ok, fun _ mem => absurd mem List.not_mem_nil, fun _ _ => rfl, fun _ ⟨_, mem, _⟩ => absurd mem List.not_mem_nil,
      fun _ _ => rfl⟩
  | cons g l ih =>
    obtain ⟨fresh, nodup⟩ := List.nodup_cons.1 nodup
    have first := haltStation_halted ok (there g List.mem_cons_self)
    refine first.trans fresh (ih nodup first.ok fun h mem => ?_)
    have lengths := (haltStation_frame g s).lengths.2.1
    rw [State.staffed, lengths]
    exact there h (List.mem_cons_of_mem g mem)

/-! ### The stations as the statements compute them -/

section Sound

variable {s : State} (sound : s.Sound)
include sound

theorem haltStation_eq_afterHalt {g : Nat} (runs : (s.station g).state.runs = true) : s.haltStation g = s.afterHalt g := by
  have manned := (sound.stands g).manned
  rw [runs] at manned
  obtain ⟨k, active⟩ := Option.isSome_iff_exists.1 manned
  have counted := counted_of_active sound.founded active
  have there := sound.founded.grouped counted
  rw [haltStation_of_runs active runs, State.afterHalt, enterRundown_eq_afterRundown, givesBack_eq_afterReturn active]
  refine if_congr Iff.rfl ?_ rfl
  rw [← givesBack_eq_afterReturn active]
  have frame : BallastFrame s (s.givesBack g k) := (returnOrder_frame g .halt s).trans (updStation_frame g _ _)
  have closing : ((s.givesBack g k).station g).closing = (s.station g).closing ++ [k] := by
    rw [State.givesBack, station_addClosing ((returnOrder_frame g .halt s).grouped there), (returnOrder_spec there .halt).1]
  have valve (v : ValveId) : (s.givesBack g k).valve v = s.valve v := by
    rw [State.givesBack, State.addClosing, valve_updStation, valve_returnOrder]
  have perm := holdings_of_active active
  have line {v : ValveId} (mem : v ∈ [ValveId.suction g, .overboard g]) : s.valved v := by
    obtain ⟨-, -, -, -, suction, overboard⟩ := sound.founded.lengths
    simp only [List.mem_cons, List.not_mem_nil, or_false] at mem
    obtain rfl | rfl := mem
    · exact ⟨counted.1, suction ▸ counted.2⟩
    · exact ⟨counted.1, overboard ▸ counted.2⟩
  refine enterClosing_eq_afterClosing (frame.grouped there) (frame.valved (line (by simp))) (frame.valved (line (by simp))) ?_ ?_
  · rw [closing]
    exact perm.nodup_iff.2 (sound.owned.nodup g)
  · rw [closing]
    intro j mem
    rw [State.confirmedAt, valve]
    exact sound.owned.unshut g j ((sound.owned.owner g j).2 (perm.mem_iff.1 mem))

theorem haltStations_eq_afterHalts {l : List Nat} (nodup : l.Nodup) :
    l.foldl (fun s g => s.haltStation g) s = (l.filter fun g => (s.station g).state.runs).foldl State.afterHalt s := by
  induction l generalizing s with
  | nil => rfl
  | cons g l ih =>
    obtain ⟨fresh, nodup⟩ := List.nodup_cons.1 nodup
    rw [List.foldl_cons, ih sound.haltStation nodup]
    have manned := (sound.stands g).manned
    cases runs : (s.station g).state.runs with
    | false =>
      rw [runs, Option.isSome_eq_false_iff, Option.isNone_iff_eq_none] at manned
      rw [haltStation_of_idle manned, List.filter_cons_of_neg (by rw [runs]; exact Bool.false_ne_true)]
    | true =>
      rw [runs] at manned
      obtain ⟨k, active⟩ := Option.isSome_iff_exists.1 manned
      obtain ⟨f, -, turns⟩ := haltStation_turns active runs
      rw [List.filter_cons_of_pos (by exact runs), List.foldl_cons, ← haltStation_eq_afterHalt sound runs]
      refine congrArg (List.foldl _ _) (List.filter_congr fun h mem => ?_)
      have same := duty_of_turns_ne turns (n := h) fun here => fresh (here ▸ mem)
      exact congrArg (fun d => d.1.runs) same

end Sound

theorem afterReturn_draws (s : State) (g n : Nat) (c : HoldCause) :
    State.afterReturn { s with draws := n } g c = { s.afterReturn g c with draws := n } := by
  show (match (s.station g).active with | none => _ | some k => _) = _
  unfold State.afterReturn
  cases (s.station g).active <;> rfl

theorem afterHalt_draws (s : State) (g n : Nat) : State.afterHalt { s with draws := n } g = { s.afterHalt g with draws := n } := by
  unfold State.afterHalt
  rw [afterReturn_draws]
  show (if (s.station g).state = .lineup then _ else _) = _
  split <;> rfl

theorem afterHalts_draws (gs : List Nat) (s : State) (n : Nat) :
    gs.foldl State.afterHalt { s with draws := n } = { gs.foldl State.afterHalt s with draws := n } := by
  induction gs generalizing s with
  | nil => rfl
  | cons g gs ih => rw [List.foldl_cons, afterHalt_draws, ih]; rfl

/-! ### HALT whole -/

/-- Every party of a list acts once, in some order, and a free choice of it is counted. -/
theorem unordered_perm {α : Type} (acts : α → State → Bool) (f : α → State → State) (l : List α) (s : State) :
    ∃ (l' : List α) (n : Nat), l'.Perm l ∧ unordered acts f l s = l'.foldl (fun s a => f a s) { s with draws := n } := by
  unfold unordered
  split
  · exact ⟨l, s.draws, .refl l, rfl⟩
  · exact ⟨_, _, permute_perm _ _ l, rfl⟩

/-- The sequencer HALTING. -/
def State.halting (s : State) : State := { s with ballast := { s.ballast with state := .halting } }

theorem enterClosing_state (g : Nat) (s : State) : (s.enterClosing g).ballast.state = s.ballast.state := by
  have shut : ((s.station g).closing.foldl (fun s k => s.shutTank k) (s.closesLine g)).ballast.state = s.ballast.state := by
    rw [shutTanks_state, closesLine_eq]; rfl
  rw [enterClosing_eq, State.closingTest]
  split
  · exact shut
  · exact shut

theorem haltStation_state (g : Nat) (s : State) : (s.haltStation g).ballast.state = s.ballast.state := by
  have back (k : Nat) : (s.givesBack g k).ballast.state = s.ballast.state := by
    rw [State.givesBack, returnOrder_rest]; rfl
  have stops (k : Nat) : ((s.givesBack g k).enterRundown g).ballast.state = s.ballast.state := by
    rw [enterRundown_eq_afterRundown]; exact back k
  unfold State.haltStation
  split
  · exact (enterClosing_state g _).trans (back _)
  · exact stops _
  · exact stops _
  · exact stops _
  · exact stops _
  · rfl

theorem haltSequencer_eq (s : State) : ∃ (l : List Nat) (n : Nat), l.Perm s.groupNumbers ∧
    s.haltSequencer = (l.foldl (fun s g => State.haltStation g s) { s.halting with draws := n }).afterRest ∧
      (l.foldl (fun s g => State.haltStation g s) { s.halting with draws := n }).ballast.state = .halting := by
  obtain ⟨l, n, perm, acts⟩ := unordered_perm State.haltActs (fun g s => State.haltStation g s) s.groupNumbers s.halting
  have state : (l.foldl (fun s g => State.haltStation g s) { s.halting with draws := n }).ballast.state = .halting :=
    foldl_keeps (P := fun t => t.ballast.state = .halting) (fun g _ t was => (haltStation_state g t).trans was) rfl
  refine ⟨l, n, perm, ?_, state⟩
  rw [← haltTest_eq_afterRest]
  show (unordered State.haltActs (fun g s => State.haltStation g s) s.groupNumbers s.halting).settle false s.halting = _
  rw [acts]
  refine settle_of_not_running false ?_
  obtain same | halted := haltTest_eq (l.foldl (fun s g => State.haltStation g s) { s.halting with draws := n })
  · rw [same, state]; exact SequencerState.noConfusion
  · rw [halted]; exact SequencerState.noConfusion

/-! ### The statement -/

theorem exec_halt {s : State} {h : ShipHead} (idle : s.shipIdle) (loaded : s.loading = false) {a : Answer}
    (answer : s.keyless h State.haltAnswer = a) : exec (.halt h) s = .next (a.state.replied 17 h a.status a.payload) := by
  show Host.Outcome.next (s.takeRequest 17 h _) = _
  rw [takeRequest_idle idle]
  simp only [State.actionRequest, loaded, Bool.false_and, Bool.or_false, Bool.false_eq_true, if_false]
  rw [← answer]
  rfl

theorem exec_run {s : State} {h : ShipHead} (idle : s.shipIdle) (loaded : s.loading = false) {a : Answer}
    (answer : s.keyless h (fun s => s.unlessFault fun s => ⟨.done, [], s.runSequencer⟩) = a) :
    exec (.run h) s = .next (a.state.replied 16 h a.status a.payload) := by
  show Host.Outcome.next (s.takeRequest 16 h _) = _
  rw [takeRequest_idle idle]
  simp only [State.actionRequest, loaded, Bool.false_and, Bool.or_false, Bool.false_eq_true, if_false]
  rw [← answer]
  rfl

theorem afterRest_state {w : State} (halting : w.ballast.state = .halting) :
    w.afterRest.ballast.state = .halted ∧ (∀ g, 1 ≤ g → g ≤ w.counts.groups → (w.station g).state.working = false) ∨
      w.afterRest.ballast.state = .halting ∧ ∃ g, (1 ≤ g ∧ g ≤ w.counts.groups) ∧ (w.station g).state.working = true := by
  by_cases rests : (w.groupNumbers.all fun g => !(w.station g).state.working) = true
  · refine .inl ⟨if_pos ⟨halting, rests⟩, fun g least most => ?_⟩
    simpa using List.all_eq_true.1 rests g (mem_groupNumbers.2 ⟨least, most⟩)
  · refine .inr ⟨(if_neg fun both => rests both.2).trans halting, ?_⟩
    obtain ⟨g, mem, works⟩ := List.all_eq_false.1 (Bool.eq_false_iff.2 rests)
    exact ⟨g, mem_groupNumbers.1 mem, by simpa using works⟩

/-- Spec 06 R92: what a HALT leaves while RUNNING. -/
theorem halt_moves {s : State} (ready : s.ready = true) (records : s.RecordsOk) (stations : s.StationsOk) :
    ((s.haltSequencer.ballast.state = .halted ∧ ∀ g, s.hasGroup g = true → (s.haltSequencer.station g).state.working = false) ∨
      (s.haltSequencer.ballast.state = .halting ∧
        ∃ g, s.hasGroup g = true ∧ (s.haltSequencer.station g).state.working = true)) ∧
    (s.OrdersOk → ∃ gs : List Nat, gs.Perm (s.groupNumbers.filter fun g => (s.station g).state.runs) ∧
      s.haltSequencer = { (gs.foldl State.afterHalt s.halting).afterRest with draws := s.haltSequencer.draws }) ∧
    ∀ g, s.hasGroup g = true → (s.haltSequencer.station g).active = none ∧ (s.haltSequencer.station g).state.runs = false ∧
      ((s.station g).state.runs = false → (s.haltSequencer.station g).state = (s.station g).state) ∧
      ∀ k, (s.station g).active = some k → s.haltSequencer.order k = (s.order k).map (Order.back .halt) := by
  have group (g : Nat) : s.hasGroup g = true ↔ 1 ≤ g ∧ g ≤ s.counts.groups := by simp [State.hasGroup, ready]
  obtain ⟨l, n, perm, eq, state⟩ := haltSequencer_eq s
  have nodup : l.Nodup := perm.nodup_iff.2 (groupNumbers_nodup s)
  have mem (g : Nat) : g ∈ l ↔ 1 ≤ g ∧ g ≤ s.counts.groups := perm.mem_iff.trans mem_groupNumbers
  have at_ := haltStations_halted (s := { s.halting with draws := n }) nodup stations fun g there =>
    (grouped_of_hasGroup ready records ((group g).2 ((mem g).1 there))).staffed
  have frame : BallastFrame { s.halting with draws := n } (l.foldl (fun s g => State.haltStation g s) { s.halting with draws := n }) :=
    .foldl (fun s g => haltStation_frame g s) l _
  rw [eq]
  refine ⟨?_, fun orders => ⟨l.filter fun g => (s.station g).state.runs, perm.filter _, ?_⟩, fun g there => ?_⟩
  · obtain ⟨halted, rests⟩ | ⟨halting, g, range, works⟩ := afterRest_state state
    · refine .inl ⟨halted, fun g there => rests g ((group g).1 there).1 ?_⟩
      rw [frame.counts]
      exact ((group g).1 there).2
    · rw [frame.counts] at range
      exact .inr ⟨halting, g, (group g).2 range, works⟩
  · have sound : s.Sound := sound_of_ordersOk (phase_of_ready ready) records stations orders
    have sound' : State.Sound { s.halting with draws := n } := (sound.awaken (x := .halting) (by simp)).draw n
    rw [haltStations_eq_afterHalts sound' nodup, afterHalts_draws]
    rfl
  · obtain ⟨idle, stops, stays⟩ := at_.halted g ((mem g).2 ((group g).1 there))
    exact ⟨idle, stops, stays, fun k runs => at_.returned k ⟨g, (mem g).2 ((group g).1 there), runs⟩⟩

theorem look_state (g : Nat) (s : State) : (s.look g).ballast.state = s.ballast.state := by
  have scan : (s.scan g).ballast.state = s.ballast.state := by rw [scan_eq]
  unfold State.look
  split
  · dsimp only
    split
    · rw [enterLineup_eq]
      show (State.linesUp g _ (s.scan g)).ballast.state = _
      rw [State.linesUp, commandValve_state, commandValve_state, commandValve_state]
      exact scan
    · exact scan
  · rfl

theorem settle_running {s : State} (running : s.ballast.state = .running) (all : Bool) (before : State) :
    (s.settle all before).ballast.state = .running := by
  refine settle_keeps (P := fun t => t.ballast.state = .running) all before (fun was => ?_) (fun _ _ => id)
    (fun g t was => (look_state g t).trans was) running
  rw [State.haltTest, if_neg fun halts => SequencerState.noConfusion (was.symm.trans halts.1)]
  exact was

/-- The sequencer RUNNING. -/
def State.running (s : State) : State := { s with ballast := { s.ballast with state := .running } }

theorem runSequencer_eq {s : State} (other : s.ballast.state ≠ .running) : s.runSequencer = s.running.settle true s.running :=
  if_neg other

/-- Spec 06 R91: what a RUN leaves where the sequencer was not RUNNING. -/
theorem run_moves {s : State} (other : s.ballast.state ≠ .running) : BallastFrame s s.runSequencer ∧
    s.runSequencer.ballast.state = .running ∧ ∀ g, (s.station g).LookedFrom (s.runSequencer.station g) := by
  refine ⟨runSequencer_frame s, ?_, fun g => ?_⟩
  · rw [runSequencer_eq other]
    exact settle_running rfl _ _
  · rw [runSequencer_eq other]
    exact settle_station true s.running s.running g

/-- Settles O44: RUN makes the sequencer RUNNING and the OFF stations look; HALT returns every order that runs, by the fold over the
stations in whatever order. -/
theorem runAndHaltMoveTheSequencer : Obligations.RunAndHaltMoveTheSequencer := by
  intro s h idle phase
  have loaded : s.loading = false := decide_eq_false phase
  refine ⟨fun keyed => ⟨exec_run idle loaded (if_neg keyed), exec_halt idle loaded (if_neg keyed)⟩, fun keyless =>
    ⟨fun down => ?_, fun ready running => ?_, fun ready other records => ?_, fun rests => ?_, fun ready running records stations => ?_⟩⟩
  · exact exec_run idle loaded (a := s.answer .state) ((if_pos keyless).trans (if_neg (by rw [down]; exact Bool.false_ne_true)))
  · rw [exec_run_idle idle ready keyless, State.runSequencer, if_pos running]
  · obtain ⟨frame, running, looked⟩ := run_moves other
    have answered (orders : s.OrdersOk) := runSequencer_answered ready records orders.1 other
    refine ⟨_, exec_run_idle idle ready keyless, ?_⟩
    generalize s.runSequencer = t at frame running looked answered ⊢
    have ship : t.ship = s.ship := by rw [frame.rest]
    exact ⟨by simp only [State.replied, ship], frame.onlyBallast.replied 16 h .done [], running,
      fun orders => answered_withShip (answered orders) _, fun g _ => ⟨(looked g).stays, (looked g).enters⟩⟩
  · refine exec_halt idle loaded (a := s.answer .done) ((if_pos keyless).trans (if_neg fun both => ?_))
    obtain down | other := rests
    · exact Bool.false_ne_true (down.symm.trans both.1)
    · exact other both.2
  · have answer : s.haltAnswer = ⟨if s.haltSequencer.ballast.state = .halted then .done else .accepted, [], s.haltSequencer⟩ :=
      if_pos ⟨ready, running⟩
    obtain ⟨ends, fold, reached⟩ := halt_moves ready records stations
    have frame := haltSequencer_frame s
    refine ⟨_, exec_halt idle loaded ((if_pos keyless).trans answer), ?_⟩
    generalize s.haltSequencer = t at ends fold reached frame ⊢
    have ship : t.ship = s.ship := by rw [frame.rest]
    dsimp only
    generalize status : (if t.ballast.state = .halted then ReplyStatus.done else .accepted) = x
    refine ⟨frame.onlyBallast.replied 17 h x [], ?_, fun orders => ?_, fun g there => ?_⟩
    · obtain ⟨halted, rests⟩ | ⟨halting, works⟩ := ends
      · refine .inl ⟨halted, ?_, rests⟩
        rw [if_pos halted] at status
        simp only [State.replied, ship, status]
      · refine .inr ⟨halting, ?_, works⟩
        have awake : t.ballast.state ≠ .halted := by rw [halting]; exact SequencerState.noConfusion
        rw [if_neg awake] at status
        simp only [State.replied, ship, status]
    · obtain ⟨gs, perm, eq⟩ := fold orders
      refine ⟨gs, perm, ?_⟩
      rw [eq]
      rfl
    · obtain ⟨idle, stops, stays, returned⟩ := reached g there
      exact ⟨idle, stops, stays, fun k o _ runs here => (returned k runs).trans (by rw [here]; rfl)⟩

end Sys2Proof.Machine
end

