-- ==== Sys2Proof/Proofs/Changeover.lean ====
section
/-! PROOFS. A station that has given up its order (spec 06 R107, R108, R113): it takes the next order of its queue or stops. -/

namespace Sys2Proof.Machine

/-! ### What a changeover needs and what it leaves -/

/-- The order of tank `k` may leave the station of group `g`: its records exist, none of its tanks stands confirmed SHUT, and its
queue offers it no tank of its own. -/
structure State.Parting (u : State) (g k : Nat) : Prop where
  there : u.grouped g
  nodup : (u.queue g).Nodup
  tank : u.valved (.tank k)
  unshut : ∀ j ∈ (u.station g).closing ++ [k], u.confirmedAt (.tank j) .shut = false
  owned : ∀ j ∈ (u.station g).closing ++ [k], (u.valve (.tank j)).owner = some g
  next : ∀ n, u.eligible n = true → n ≠ k ∧ u.valved (.tank n) ∧ n ∉ (u.station g).closing ++ [k]

/-- From `u` to `t` the station of group `g` has given up the order of tank `k`, and no other station has been touched. -/
structure PartedFrom (u t : State) (g k : Nat) : Prop where
  frame : BallastFrame u t
  state : t.ballast.state = u.ballast.state
  hands : u.handsOver t g k
  works : (t.station g).state = .changeover ∨ (t.station g).state = .stopping .rundown
  done : (u.station g).doneFlag = true → (t.station g).doneFlag = true
  hold : (t.station g).holdFlag = (u.station g).holdFlag
  stations : ∀ h, h ≠ g → t.station h = u.station h
  queue : ∀ j ∈ t.queue g, j ∈ u.queue g
  queues : ∀ h, h ≠ g → t.queue h = u.queue h
  orders : ∀ j, j ∉ u.queue g → t.order j = u.order j
  owners : ∀ j h, (u.valve (.tank j)).owner = some h → (t.valve (.tank j)).owner = some h
  lines : ∀ v, (∀ j, v ≠ .tank j) → t.valve v = u.valve v
  tanks : ∀ j, (u.valve (.tank j)).owner ≠ some g → (j ∈ u.queue g → (u.valve (.tank j)).owner ≠ none) →
    t.valve (.tank j) = u.valve (.tank j)

/-! ### The scan -/

/-- The state once the order of tank `k` is gone from its station and the queue has been scanned. -/
def State.scansAfter (u : State) (g k : Nat) : State := (u.givenUp g k Station.emptied).scan g

/-- The station's record then. -/
def State.scanning (u : State) (g k : Nat) : Station :=
  { u.station g with
    active := u.taken g, closing := (u.station g).closing ++ [k], lowSince := none
    doneFlag := (u.station g).doneFlag || !(u.foundMet g).isEmpty }

theorem givenUp_spec {u : State} {g : Nat} (there : u.grouped g) (k : Nat) :
    (u.givenUp g k Station.emptied).station g =
        { u.station g with active := none, closing := (u.station g).closing ++ [k], lowSince := none } ∧
      (∀ h, h ≠ g → (u.givenUp g k Station.emptied).station h = u.station h) ∧
      ∀ v, (u.givenUp g k Station.emptied).valve v = u.valve v := by
  refine ⟨?_, fun h other => ?_, fun v => ?_⟩
  · rw [State.givenUp, station_addClosing ((updStation_frame g _ u).grouped there), station_updStation_self there]
    rfl
  · rw [State.givenUp, State.addClosing, station_updStation_ne other, station_updStation_ne other]
  · rw [State.givenUp, State.addClosing, valve_updStation, valve_updStation]

/-- From `u` to `y` the order has been given up and the queue scanned or not: what is said of both. -/
structure GivesUp (u y : State) (g k : Nat) : Prop where
  frame : BallastFrame u y
  state : y.ballast.state = u.ballast.state
  closing : (y.station g).closing = (u.station g).closing ++ [k]
  watch : (y.station g).lowSince = none
  rundown : (y.station g).rundown = (u.station g).rundown
  pump : (y.station g).pumpCommanded = (u.station g).pumpCommanded
  done : (u.station g).doneFlag = true → (y.station g).doneFlag = true
  hold : (y.station g).holdFlag = (u.station g).holdFlag
  stations : ∀ h, h ≠ g → y.station h = u.station h
  queue : ∀ j ∈ y.queue g, j ∈ u.queue g
  queues : ∀ h, h ≠ g → y.queue h = u.queue h
  orders : ∀ j, j ∉ u.queue g → y.order j = u.order j
  valves : ∀ v, y.valve v = u.valve v

theorem givenUp_givesUp {u : State} {g : Nat} (there : u.grouped g) (k : Nat) : GivesUp u (u.givenUp g k Station.emptied) g k := by
  obtain ⟨own, others, valves⟩ := givenUp_spec there k
  exact ⟨givenUp_frame g k _ u, rfl, by rw [own], by rw [own], by rw [own], by rw [own], fun done => by rw [own]; exact done, by rw [own],
    others, fun _ => id, fun _ _ => rfl, fun _ _ => rfl, valves⟩

theorem scansAfter_station {u : State} {g : Nat} (there : u.grouped g) (k : Nat) :
    (u.scansAfter g k).station g = u.scanning g k := by
  rw [State.scansAfter, station_scan_self ((givenUp_frame g k _ u).grouped there), (givenUp_spec there k).1]
  rfl

theorem scansAfter_givesUp {u : State} {g : Nat} (there : u.grouped g) (k : Nat) : GivesUp u (u.scansAfter g k) g k := by
  have first := givenUp_givesUp there k
  have own := scansAfter_station there k
  have parted := first.frame.grouped there
  refine ⟨first.frame.trans (scan_frame g _), by rw [State.scansAfter, scan_eq]; exact first.state, by rw [own]; rfl, by rw [own]; rfl, by rw [own]; rfl, by rw [own]; rfl,
    fun done => by rw [own, State.scanning, done]; rfl, by rw [own]; rfl,
    fun h other => (station_scan_ne other _).trans (first.stations h other), fun j mem => ?_,
    fun h other => (queue_scan_ne other _).trans (first.queues h other), fun j absent => ?_,
    fun v => (valve_scan g _ v).trans (first.valves v)⟩
  · rw [State.scansAfter, queue_scan_self parted] at mem
    exact mem_left (s := u.givenUp g k Station.emptied) mem
  · refine (order_scan_other (s := u.givenUp g k Station.emptied) (fun found => absent ?_) fun takes => absent
      (mem_queue_of_taken (s := u) takes)).trans (first.orders j absent)
    exact mem_queue_iff (s := u).2 (.inl found)

/-- That scan is the scan of the queue as it stood. -/
theorem scansAfter_scanned {u t : State} {g k : Nat} (there : u.grouped g) (nodup : (u.queue g).Nodup)
    (orders : t.ballast.orders = (u.scansAfter g k).ballast.orders) (queues : t.ballast.queues = (u.scansAfter g k).ballast.queues)
    (active : (t.station g).active = (u.scanning g k).active) (done : (t.station g).doneFlag = (u.scanning g k).doneFlag) :
    u.scanned t g := by
  have parted := (givenUp_frame g k Station.emptied u).grouped there
  refine scanned_of_reads nodup ?_ active done fun j => ?_
  · rw [State.queue, queues]
    exact queue_scan_self parted
  · rw [State.order, orders]
    exact (order_scan g j _).trans (order_scan g j u).symm

/-- The station stops. -/
theorem GivesUp.stops {u y : State} {g k : Nat} (gives : GivesUp u y g k) (there : u.grouped g) (idle : (y.station g).active = none)
    (scanned : u.ballast.state = .running → u.scanned (y.enterRundown g) g)
    (halted : u.ballast.state ≠ .running → y.queue g = u.queue g ∧ y.order k = u.order k) : PartedFrom u (y.enterRundown g) g k := by
  obtain ⟨station, others, valves, orders, queues⟩ := enterRundown_spec (gives.frame.grouped there)
  have queue (h : Nat) : (y.enterRundown g).queue h = y.queue h := by rw [State.queue, queues]; rfl
  have order (j : Nat) : (y.enterRundown g).order j = y.order j := by rw [State.order, orders]; rfl
  have clock : y.clock = u.clock := by rw [gives.frame.rest]
  rw [clock] at station
  refine ⟨gives.frame.trans (enterRundown_frame g y), by rw [enterRundown_eq_afterRundown]; exact gives.state, ?_, .inr (by rw [station]; rfl), fun done => ?_, ?_, fun h other => ?_, fun j mem => ?_,
    fun h other => ?_, fun j absent => ?_, fun j h own => ?_, fun v _ => ?_, fun j _ _ => ?_⟩
  · exact handsOver_of_stops station gives.rundown idle (by rw [gives.closing]; exact List.mem_append_right _ (List.mem_singleton_self k))
      scanned (fun stopped => ⟨(queue g).trans (halted stopped).1, (order k).trans (halted stopped).2⟩)
      fun v => (valves v).trans (gives.valves v)
  · rw [station]; exact gives.done done
  · rw [station]; exact gives.hold
  · rw [others h other, gives.stations h other]
  · exact gives.queue j (queue g ▸ mem)
  · rw [queue, gives.queues h other]
  · rw [order, gives.orders j absent]
  · rw [valves, gives.valves, own]
  · rw [valves, gives.valves]
  · rw [valves, gives.valves]

theorem changesTo_frame (g n : Nat) (y : State) : BallastFrame y (y.changesTo g n) := by
  have opens : BallastFrame y (y.opensNext g n) := ((updStation_frame g _ y).trans (commandValve_frame _ _ _)).trans (ownTank_frame _ _ _)
  unfold State.changesTo
  split
  · exact opens.trans (shutTanks_frame _ _)
  · exact opens

theorem changesTo_state (g n : Nat) (y : State) : (y.changesTo g n).ballast.state = y.ballast.state := by
  have opens : (y.opensNext g n).ballast.state = y.ballast.state := commandValve_state _ _ _
  unfold State.changesTo
  split
  · rw [shutTanks_state]
    exact opens
  · exact opens

/-- A changeover touches the valves of the tank that it takes and of the closing tanks alone. -/
theorem changesTo_others {y : State} {g n : Nat} (there : y.grouped g) (valved : y.valved (.tank n))
    (un : ∀ j ∈ (y.station g).closing, y.confirmedAt (.tank j) .shut = false) {v : ValveId} (new : v ≠ .tank n)
    (others : ∀ j ∈ (y.station g).closing, v ≠ .tank j) : (y.changesTo g n).valve v = y.valve v := by
  obtain ⟨-, -, ⟨own, -⟩, opened, valves⟩ := opensNext_spec there valved
  have closing : ((y.opensNext g n).station g).closing = (y.station g).closing := by rw [own]
  unfold State.changesTo
  split
  · rename_i confirmed
    rw [closing, (shutTanks_of_unconfirmed fun j mem => ?_).2.1 v others, valves v new]
    by_cases same : j = n
    · rw [same, State.confirmedAt, opened.1]
      rfl
    · rw [State.confirmedAt, valves _ fun here => same (ValveId.tank.inj here)]
      exact un j mem
  · exact valves v new

/-- The station takes the next order. -/
theorem State.Parting.changes {u : State} {g k n : Nat} (parting : u.Parting g k) (running : u.ballast.state = .running)
    (taken : u.taken g = some n) : PartedFrom u ((u.scansAfter g k).changesTo g n) g k := by
  have gives := scansAfter_givesUp parting.there k
  have own := scansAfter_station parting.there k
  obtain ⟨other, valved, apart⟩ := parting.next n (eligible_of_taken taken)
  have unshut (j : Nat) (mem : j ∈ ((u.scansAfter g k).station g).closing) : (u.scansAfter g k).confirmedAt (.tank j) .shut = false := by
    rw [State.confirmedAt, gives.valves]
    exact parting.unshut j (gives.closing ▸ mem)
  have spec : ChangesTo g n (u.scansAfter g k) ((u.scansAfter g k).changesTo g n) :=
    changesTo_spec (gives.frame.grouped parting.there) (gives.frame.valved valved) (by rw [gives.closing]; exact apart) unshut
  have queue (h : Nat) : ((u.scansAfter g k).changesTo g n).queue h = (u.scansAfter g k).queue h := by rw [State.queue, spec.queues]; rfl
  have order (j : Nat) : ((u.scansAfter g k).changesTo g n).order j = (u.scansAfter g k).order j := by rw [State.order, spec.orders]; rfl
  have scanned : u.scanned ((u.scansAfter g k).changesTo g n) g :=
    scansAfter_scanned parting.there parting.nodup spec.orders spec.queues (by rw [spec.own, own]) (by rw [spec.own, own])
  refine ⟨gives.frame.trans (changesTo_frame g n _), (changesTo_state g n _).trans gives.state, ?_, .inl (by rw [spec.own]), fun done => ?_, ?_, fun h other => ?_, fun j mem => ?_,
    fun h other => ?_, fun j absent => ?_, fun j h was => ?_, fun v line => ?_, fun j foreign absent => ?_⟩
  · exact handsOver_of_changes spec running (by rw [own]; exact taken) (by rw [gives.closing]; simp) gives.watch gives.pump scanned other
      (gives.frame.valved parting.tank) gives.valves
  · rw [spec.own]; exact gives.done done
  · rw [spec.own]; exact gives.hold
  · rw [spec.others h other, gives.stations h other]
  · exact gives.queue j (queue g ▸ mem)
  · rw [queue, gives.queues h other]
  · rw [order, gives.orders j absent]
  · by_cases new : ValveId.tank j = .tank n
    · have free := (order_and_owner_of_eligible (eligible_of_taken taken)).2
      rw [new, free] at was
      exact absurd was (by simp)
    · rw [spec.owners _ new, gives.valves, was]
  · rw [spec.lines v line, gives.valves]
  · rw [changesTo_others (gives.frame.grouped parting.there) (gives.frame.valved valved) unshut ?_ fun i mem same => ?_, gives.valves]
    · rintro ⟨⟩
      exact absent (mem_queue_of_taken taken) (order_and_owner_of_eligible (eligible_of_taken taken)).2
    · cases same
      exact foreign (parting.owned j (gives.closing ▸ mem))

/-- What becomes of a station that gives up its order. -/
theorem State.Parting.enterChangeover {u : State} {g k : Nat} (parting : u.Parting g k) : PartedFrom u (u.enterChangeover g k) g k := by
  have own := scansAfter_station parting.there k
  rw [enterChangeover_eq]
  split
  · rename_i running
    show PartedFrom u ((u.scansAfter g k).takesNext g) g k
    rw [State.takesNext, own, State.scanning]
    cases taken : u.taken g with
    | none =>
      have gives := scansAfter_givesUp parting.there k
      obtain ⟨station, -, -, orders, queues⟩ := enterRundown_spec (gives.frame.grouped parting.there)
      exact gives.stops parting.there (by rw [own]; exact taken)
        (fun _ => scansAfter_scanned parting.there parting.nodup orders queues (by rw [station, own]; rfl) (by rw [station, own]; rfl))
        fun halted => absurd running halted
    | some n => exact parting.changes running taken
  · rename_i halted
    exact (givenUp_givesUp parting.there k).stops parting.there (by rw [(givenUp_spec parting.there k).1])
      (fun running => absurd running halted) fun _ => ⟨rfl, rfl⟩

end Sys2Proof.Machine
end

