-- ==== Sys2Proof/Proofs/Parted.lean ====
section
/-! PROOFS. Orders completed and interrupted (spec 06 R106, R107, R113): the states that the statements compute before the station
changes over, and the end of such a step. -/

namespace Sys2Proof.Machine

/-! ### Orders completed and returned -/

/-- The order of tank `k` completed, and its station told. -/
def State.completedAt (s : State) (g k : Nat) (c : Completion) : State :=
  (s.updOrder k (Order.complete c)).updStation g ({ · with doneFlag := true })

/-- The order of tank `k` back at the head of its queue, and its station told. -/
def State.returnedAt (s : State) (g k : Nat) (c : HoldCause) : State :=
  ((s.updOrder k (Order.back c)).setQueue g (k :: s.queue g)).updStation g ({ · with holdFlag := true })

/-- A changeover depends on the station's record but for its order and its watch. -/
theorem enterChangeover_updStation {f f' : Station → Station} (same : ∀ st, (f st).emptied = (f' st).emptied) (s : State) (g k : Nat) :
    (s.updStation g f).enterChangeover g k = (s.updStation g f').enterChangeover g k := by
  have given : (s.updStation g f).givenUp g k Station.emptied = (s.updStation g f').givenUp g k Station.emptied := by
    unfold State.givenUp State.updStation
    dsimp only
    rw [modify1_modify1, modify1_modify1, show Station.emptied ∘ f = Station.emptied ∘ f' from funext same]
  rw [enterChangeover_eq, enterChangeover_eq, given]
  rfl

theorem completeOrder_eq {s : State} {g k : Nat} (active : (s.station g).active = some k) (c : Completion) :
    s.completeOrder g c = (s.completedAt g k c).enterChangeover g k := by
  unfold State.completeOrder
  rw [active]
  exact enterChangeover_updStation (f := ({ · with active := none, doneFlag := true })) (f' := ({ · with doneFlag := true }))
    (fun _ => rfl) (s.updOrder k (Order.complete c)) g k

theorem interrupt_eq {s : State} {g k : Nat} (active : (s.station g).active = some k) (c : HoldCause) :
    s.interrupt g c = (s.returnedAt g k c).enterChangeover g k := by
  have returned : (s.returnOrder g c).updStation g ({ · with holdFlag := true }) =
      ((s.updOrder k (Order.back c)).setQueue g (k :: s.queue g)).updStation g fun st => { st with active := none, holdFlag := true } := by
    unfold State.returnOrder
    rw [active]
    exact congrArg (fun l => { s with ballast := { s.ballast with
      orders := ((s.updOrder k (Order.back c)).setQueue g (k :: s.queue g)).ballast.orders
      queues := ((s.updOrder k (Order.back c)).setQueue g (k :: s.queue g)).ballast.queues, stations := l } }) (modify1_modify1 _ _ _ _)
  unfold State.interrupt
  rw [active]
  dsimp only
  rw [returned]
  exact enterChangeover_updStation (f := ({ · with active := none, holdFlag := true })) (f' := ({ · with holdFlag := true }))
    (fun _ => rfl) ((s.updOrder k (Order.back c)).setQueue g (k :: s.queue g)) g k

theorem parting_of_owned {s u : State} {g k : Nat} (founded : s.Founded) (owned : s.Owned s.holdings) (active : (s.station g).active = some k)
    (frame : BallastFrame s u) (valves : ∀ v, u.valve v = s.valve v) (closing : (u.station g).closing = (s.station g).closing)
    (nodup : (u.queue g).Nodup) : u.Parting g k := by
  have there := founded.grouped (counted_of_active founded active)
  have perm := holdings_of_active active
  have own {j : Nat} (mem : j ∈ (u.station g).closing ++ [k]) : (s.valve (.tank j)).owner = some g :=
    (owned.owner g j).2 (perm.mem_iff.1 (closing ▸ mem))
  refine ⟨frame.grouped there, nodup, frame.valved (valved_of_owned (own (by simp))), fun j mem => ?_,
    fun j mem => by rw [valves]; exact own mem, fun n eligible => ?_⟩
  · rw [State.confirmedAt, valves]
    exact owned.unshut g j (own mem)
  · obtain ⟨⟨o, here⟩, free⟩ := order_and_owner_of_eligible eligible
    rw [valves] at free
    have apart : n ∉ (u.station g).closing ++ [k] := fun mem => by
      rw [own mem] at free
      exact absurd free (by simp)
    exact ⟨fun same => apart (by rw [same]; simp), (frame.founded founded).valved here, apart⟩

/-- A completion leaves what a changeover needs, where orders and owners agree. -/
theorem completedAt_parting {s : State} {g k : Nat} (founded : s.Founded) (owned : s.Owned s.holdings) (nodup : (s.queue g).Nodup)
    (active : (s.station g).active = some k) (c : Completion) : (s.completedAt g k c).Parting g k := by
  have there := founded.grouped (counted_of_active founded active)
  refine parting_of_owned founded owned active ((updOrder_frame k _ s).trans (updStation_frame g _ _)) (fun v => ?_) ?_ nodup
  · rw [State.completedAt, valve_updStation]
    cases v <;> rfl
  · rw [State.completedAt, station_updStation_self ((updOrder_frame k _ s).grouped there)]
    rfl

section Sound

variable {s : State} {g k : Nat} (sound : s.Sound) (active : (s.station g).active = some k)
include sound active

theorem not_queued_of_active (h : Nat) : k ∉ s.queue h := by
  obtain ⟨o, here, runs, -⟩ := sound.filed.runs g k active
  refine sound.filed.unqueued (fun o' here' waits => ?_) h
  rw [Option.some.inj (here.symm.trans here'), waits] at runs
  exact OrderState.noConfusion runs

theorem returnedAt_queue (c : HoldCause) : (s.returnedAt g k c).queue g = k :: s.queue g :=
  queue_setQueue_self (s := s.updOrder k (Order.back c))
    ((updOrder_frame k _ s).grouped (sound.founded.grouped (counted_of_active sound.founded active))) _

theorem returnedAt_parting (c : HoldCause) : (s.returnedAt g k c).Parting g k := by
  have there := sound.founded.grouped (counted_of_active sound.founded active)
  have frame := (updOrder_frame k (Order.back c) s).trans (setQueue_frame g (k :: s.queue g) _)
  refine parting_of_owned sound.founded sound.owned active (frame.trans (updStation_frame g _ _)) (fun v => ?_) ?_ ?_
  · rw [State.returnedAt, valve_updStation]
    cases v <;> rfl
  · rw [State.returnedAt, station_updStation_self (frame.grouped there)]
    rfl
  · rw [returnedAt_queue sound active]
    exact List.nodup_cons.2 ⟨not_queued_of_active sound active g, sound.filed.nodup g⟩

theorem completeOrder_parted (c : Completion) : PartedFrom (s.completedAt g k c) (s.completeOrder g c) g k :=
  completeOrder_eq active c ▸ (completedAt_parting sound.founded sound.owned (sound.filed.nodup g) active c).enterChangeover

theorem interrupt_parted (c : HoldCause) : PartedFrom (s.returnedAt g k c) (s.interrupt g c) g k :=
  interrupt_eq active c ▸ (returnedAt_parting sound active c).enterChangeover

end Sound

/-! ### The end of such a step -/

/-- A working station alone may have gained an order: nobody looks. -/
theorem settle_of_working {s before : State} {g : Nat} (counted : s.counted g) (works : (s.station g).state.working = true)
    (queues : ∀ h, h ≠ g → ∀ j ∈ s.queue h, j ∈ before.queue h)
    (owners : ∀ j h, (before.valve (.tank j)).owner = some h → (s.valve (.tank j)).owner ≠ none)
    (states : ∀ h, h ≠ g → (s.station h).state = (before.station h).state) : s.settle false before = s := by
  have on : (s.station g).state ≠ .off := fun off => by
    rw [off] at works
    exact Bool.noConfusion works
  rw [settle_eq, haltTest_of_working (mem_groupNumbers.2 counted) works]
  refine unordered_looks_of_nobody fun h mem => ?_
  by_cases here : h = g
  · rw [here]
    exact decide_eq_false fun may => on may.2.1
  · have cause := (List.mem_filter.1 mem).2
    rw [cause_eq_joined owners fun h was => ?_] at cause
    · simp only [joined, List.any_eq_true, decide_eq_true_eq] at cause
      obtain ⟨j, mem, fresh⟩ := cause
      exact absurd (queues h here j mem) fresh
    · by_cases mine : h = g
      · rw [mine]; exact on
      · rw [states h mine]; exact was

theorem PartedFrom.settle {u t before : State} {g k : Nat} (parted : PartedFrom u t g k) (counted : u.counted g)
    (queues : ∀ h, h ≠ g → u.queue h = before.queue h)
    (owners : ∀ j, (u.valve (.tank j)).owner = (before.valve (.tank j)).owner)
    (states : ∀ h, h ≠ g → (u.station h).state = (before.station h).state) : t.settle false before = t := by
  refine settle_of_working (parted.frame.counted counted) ?_ (fun h other j mem => ?_) (fun j h own => ?_) fun h other => ?_
  · obtain changes | stops := parted.works
    · rw [changes]; rfl
    · rw [stops]; rfl
  · rw [parted.queues h other, queues h other] at mem
    exact mem
  · rw [parted.owners j h (by rw [owners, own])]
    simp
  · rw [parted.stations h other, states h other]

end Sys2Proof.Machine
end

