-- ==== Sys2Proof/Proofs/Elsewhere.lean ====
section
/-! PROOFS. What other stations do leaves a station, its queue, its line, its orders and its tanks as they were (spec 05 R75, R76,
spec 06 R97, R103, R113). -/

namespace Sys2Proof.Machine

/-! ### A station that others leave alone -/

/-- What one station works with stands in `t` as in `s`; the tank valves are those that it owns, and those that its queue may take. -/
structure Elsewhere (g : Nat) (s t : State) : Prop where
  frame : BallastFrame s t
  state : t.ballast.state = s.ballast.state
  station : t.station g = s.station g
  queue : t.queue g = s.queue g
  line : ∀ v ∈ [ValveId.suction g, .overboard g], t.valve v = s.valve v
  tanks : ∀ j, (s.valve (.tank j)).owner = some g → t.valve (.tank j) = s.valve (.tank j)
  free : ∀ j ∈ s.queue g, (s.valve (.tank j)).owner = none → t.valve (.tank j) = s.valve (.tank j)
  owners : ∀ j h, (s.valve (.tank j)).owner = some h → (t.valve (.tank j)).owner = some h
  orders : ∀ j o, s.order j = some o → o.group = g → t.order j = some o

theorem Elsewhere.refl (g : Nat) (s : State) : Elsewhere g s s :=
  ⟨.refl s, rfl, rfl, rfl, fun _ _ => rfl, fun _ _ => rfl, fun _ _ _ => rfl, fun _ _ => id, fun _ _ here _ => here⟩

theorem Elsewhere.trans {g : Nat} {s t u : State} (h : Elsewhere g s t) (k : Elsewhere g t u) : Elsewhere g s u := by
  refine ⟨h.frame.trans k.frame, k.state.trans h.state, k.station.trans h.station, k.queue.trans h.queue,
    fun v line => (k.line v line).trans (h.line v line), fun j own => ?_, fun j mem free => ?_,
    fun j i own => k.owners j i (h.owners j i own), fun j o here group => k.orders j o (h.orders j o here group) group⟩
  · have same := h.tanks j own
    rw [k.tanks j (by rw [same]; exact own), same]
  · have same := h.free j mem free
    rw [k.free j (h.queue ▸ mem) (by rw [same]; exact free), same]

theorem Elsewhere.draw (g n : Nat) (s : State) : Elsewhere g s { s with draws := n } :=
  ⟨.draw s n, rfl, rfl, rfl, fun v _ => by cases v <;> rfl, fun _ _ => rfl, fun _ _ _ => rfl, fun _ _ => id, fun _ _ here _ => here⟩

theorem lookedValve_ne {s : State} {h : Nat} {v : ValveId} (taken : ∀ n, s.taken h = some n → v ≠ .tank n)
    (line : v ∉ [ValveId.suction h, .overboard h]) : s.lookedValve h v = s.valve v := by
  unfold State.lookedValve
  split
  · rfl
  · rename_i n takes
    rw [if_neg (taken n takes), if_neg line]

section Sound

variable {s : State} (sound : s.Sound) {g h : Nat}
include sound

theorem not_queued_elsewhere {j : Nat} {o : Order} (here : s.order j = some o) (group : o.group = g) (other : h ≠ g) : j ∉ s.queue h := by
  intro mem
  obtain ⟨o', here', -, group'⟩ := sound.filed.queued h j mem
  rw [Option.some.inj (here.symm.trans here')] at group
  exact other (group'.symm.trans group)

/-- Another station's look. -/
theorem look_elsewhere (counted : s.counted h) (apart : h ≠ g ∨ (s.station g).state ≠ .off) : Elsewhere g s (s.look h) := by
  cases may : s.mayLook h with
  | false => rw [look_of_not_mayLook may]; exact .refl g s
  | true =>
    have other : h ≠ g := by
      rintro rfl
      exact apart.elim (fun ne => ne rfl) fun on => on (mayLook_iff.1 may).2.1
    have lengths := sound.founded.lengths
    have looks := look_spec (sound.founded.grouped counted) may fun n taken v mem => ?_
    · refine ⟨looks.frame, looks.state, looks.stations g other.symm, looks.queues g other.symm, fun v line => ?_, fun j own => ?_,
        fun j mem free => ?_, fun j i own => ?_, fun j o here group => ?_⟩
      · simp only [List.mem_cons, List.not_mem_nil, or_false] at line
        rw [looks.valves, lookedValve_ne]
        · rintro n - rfl
          simp at line
        · obtain rfl | rfl := line <;> simp [other.symm]
      · rw [looks.valves, lookedValve_ne (fun n takes same => ?_) (by simp)]
        rw [ValveId.tank.inj same, (sound.founded.taken takes).2] at own
        exact absurd own (by simp)
      · rw [looks.valves, lookedValve_ne (fun n takes same => ?_) (by simp)]
        rw [ValveId.tank.inj same] at mem
        exact other (sound.filed.group_of_mem (mem_queue_of_taken takes) mem)
      · rw [looks.valves, lookedValve_ne (fun n takes same => ?_) (by simp), own]
        rw [ValveId.tank.inj same, (sound.founded.taken takes).2] at own
        exact absurd own (by simp)
      · have absent := not_queued_elsewhere sound here group other
        rw [looks.orders, order_scan_other (fun found => absent (mem_queue_iff.2 (.inl found)))
          fun takes => absent (mem_queue_of_taken takes), here]
    · simp only [lineup, List.mem_cons, List.not_mem_nil, or_false] at mem
      obtain rfl | rfl | rfl := mem
      · exact ⟨counted.1, by rw [lengths.2.2.2.2.1]; exact counted.2⟩
      · exact ⟨counted.1, by rw [lengths.2.2.2.2.2]; exact counted.2⟩
      · exact (sound.founded.taken taken).1

/-- The end of a step, where the station itself does not look. -/
theorem settle_elsewhere (own : s.counted g) (works : (s.station g).state.working = true) (all : Bool) (before : State) :
    Elsewhere g s (s.settle all before) := by
  have on : (s.station g).state ≠ .off := fun off => by
    rw [off] at works
    exact Bool.noConfusion works
  rw [settle_eq, haltTest_of_working (mem_groupNumbers.2 own) works]
  refine (unordered_keeps (fun t => t.Sound ∧ Elsewhere g s t) (fun t was => ⟨was.1.draw _, was.2.trans (.draw g _ t)⟩)
    (fun i mem t was => ?_) ⟨sound, .refl g s⟩).2
  obtain ⟨still, since⟩ := was
  have counted : t.counted i := by
    rw [State.counted, since.frame.counts]
    exact mem_groupNumbers.1 (List.mem_filter.1 mem).1
  exact ⟨still.look counted, since.trans (look_elsewhere still counted (.inr (by rw [since.station]; exact on)))⟩

/-- Another station's interrupt. -/
theorem interrupt_elsewhere {k : Nat} (active : (s.station h).active = some k) (other : h ≠ g) (c : HoldCause) :
    Elsewhere g s (s.interrupt h c) := by
  have parted := interrupt_parted sound active c
  have frame : BallastFrame s (s.returnedAt h k c) := ((updOrder_frame k _ s).trans (setQueue_frame h _ _)).trans (updStation_frame h _ _)
  have valve (v : ValveId) : (s.returnedAt h k c).valve v = s.valve v := by
    rw [State.returnedAt, valve_updStation]
    cases v <;> rfl
  have queue (i : Nat) (apart : i ≠ h) : (s.returnedAt h k c).queue i = s.queue i :=
    queue_setQueue_ne (s := s.updOrder k (Order.back c)) apart _
  have order (j : Nat) (apart : j ≠ k) : (s.returnedAt h k c).order j = s.order j := by
    refine (order_updOrder k j (Order.back c) s).trans (if_neg apart)
  have mine {j : Nat} {o : Order} (here : s.order j = some o) (group : o.group = g) : j ≠ k ∧ j ∉ (s.returnedAt h k c).queue h := by
    have apart : j ≠ k := by
      rintro rfl
      obtain ⟨o', here', -, group'⟩ := sound.filed.runs h j active
      rw [Option.some.inj (here.symm.trans here')] at group
      exact other (group'.symm.trans group)
    rw [returnedAt_queue sound active]
    exact ⟨apart, List.not_mem_cons_of_ne_of_not_mem apart (not_queued_elsewhere sound here group other)⟩
  refine ⟨frame.trans parted.frame, parted.state, (parted.stations g other.symm).trans ?_, (parted.queues g other.symm).trans (queue g other.symm),
    fun v line => (parted.lines v ?_).trans (valve v), fun j own => ?_, fun j mem free => ?_, fun j i own => ?_, fun j o here group => ?_⟩
  · rw [State.returnedAt, station_updStation_ne other.symm]
    rfl
  · rintro n rfl
    simp at line
  · exact (parted.tanks j (by rw [valve, own]; simpa using other.symm) fun _ => by rw [valve, own]; simp).trans (valve _)
  · refine (parted.tanks j (by rw [valve, free]; simp) fun mem' => ?_).trans (valve _)
    obtain ⟨o, here, -, group⟩ := sound.filed.queued g j mem
    exact absurd mem' (mine here group).2
  · exact parted.owners j i (by rw [valve, own])
  · obtain ⟨apart, absent⟩ := mine here group
    rw [parted.orders j absent, order j apart, here]

end Sound

/-! ### What a station has done stands -/

theorem mem_behind {s : State} {q : List Nat} {k : Nat} (mem : k ∈ s.behind q) : k ∈ q := List.mem_of_mem_drop mem

/-- A scan that has been made stands, whatever other stations do. -/
theorem scanned_elsewhere {u t t' : State} {g : Nat} (groups : ∀ j ∈ u.queue g, ∀ o, u.order j = some o → o.group = g)
    (scanned : u.scanned t g) (since : Elsewhere g t t') : u.scanned t' g := by
  obtain ⟨queue, active, done, orders⟩ := scanned
  refine ⟨since.queue.trans queue, by rw [since.station]; exact active, by rw [since.station]; exact done, fun j o here => ?_⟩
  obtain ⟨passed, takes, rest⟩ := orders j o here
  refine ⟨fun mem => ?_, fun taken => ?_, fun mem => ?_⟩
  · have group := groups j (mem_queue_of_passed mem) o here
    refine since.orders j _ (passed mem) ?_
    split <;> exact group
  · exact since.orders j _ (takes taken) (groups j (mem_queue_of_taken taken) o here)
  · exact since.orders j _ (rest mem) (groups j (mem_behind mem) o here)

/-- A changeover stands, whatever other stations do. -/
theorem handsOver_elsewhere {u t t' : State} {g k : Nat} (groups : ∀ j ∈ u.queue g, ∀ o, u.order j = some o → o.group = g)
    {o : Order} (here : u.order k = some o) (group : o.group = g) (own : (t.valve (.tank k)).owner = some g)
    (hands : u.handsOver t g k) (since : Elsewhere g t t') : u.handsOver t' g k := by
  obtain ⟨closing, watch, scanned, halted, stops, changes, line, kept⟩ := hands
  have tank : t'.valve (.tank k) = t.valve (.tank k) := since.tanks k own
  unfold State.handsOver
  rw [since.station, since.queue, tank]
  refine ⟨closing, watch, fun running => scanned_elsewhere groups (scanned running) since, fun idle => ?_, stops, fun n takes => ?_,
    fun v mem => (since.line v mem).trans (line v mem), kept⟩
  · obtain ⟨queue, order, none⟩ := halted idle
    refine ⟨queue, ?_, none⟩
    rw [here] at order ⊢
    exact since.orders k o order group
  · obtain ⟨state, pump, opened, owned, shut⟩ := changes n takes
    rw [since.tanks n owned]
    exact ⟨state, pump, opened, owned, shut⟩

/-! ### A changeover told from another state -/

/-- What a changeover reads of the state in which it begins. -/
structure SameStart (g k : Nat) (u v : State) : Prop where
  clock : v.clock = u.clock
  state : v.ballast.state = u.ballast.state
  rundown : (v.station g).rundown = (u.station g).rundown
  pump : (v.station g).pumpCommanded = (u.station g).pumpCommanded
  done : (v.station g).doneFlag = (u.station g).doneFlag
  finds : SameFinds u v g
  order : v.order k = u.order k
  line : ∀ w ∈ [ValveId.suction g, .overboard g], v.valve w = u.valve w
  tank : v.valve (.tank k) = u.valve (.tank k)
  taken : ∀ n, u.taken g = some n → v.valve (.tank n) = u.valve (.tank n)

/-- What a scan has done, in the words of the rules about scans. -/
theorem scanned_iff {u t : State} {g : Nat} : u.scanned t g ↔ t.queue g = u.left g ∧ (t.station g).active = u.taken g ∧
    (t.station g).doneFlag = ((u.station g).doneFlag || (u.passed (u.queue g)).any u.metInQueue) ∧
    ∀ j o, u.order j = some o →
      (j ∈ u.passed (u.queue g) → t.order j = some (if u.metInQueue j then
        { o with state := .done, completion := some .met, holdCause := none } else o)) ∧
      (u.taken g = some j → t.order j = some { o with state := .active, holdCause := none }) ∧
      (j ∈ u.behind (u.queue g) → t.order j = some o) := by
  unfold State.scanned
  simp only [← metInQueue_eq]
  rfl

theorem scanned_congr {u v t : State} {g : Nat} (done : (v.station g).doneFlag = (u.station g).doneFlag) (same : SameFinds u v g)
    (scanned : u.scanned t g) : v.scanned t g := by
  obtain ⟨queue, active, flag, orders⟩ := scanned_iff.1 scanned
  have met : (u.passed (u.queue g)).any v.metInQueue = (u.passed (u.queue g)).any u.metInQueue := by
    rw [Bool.eq_iff_iff, List.any_eq_true, List.any_eq_true]
    exact exists_congr fun j => and_congr_right fun mem => by rw [same.met j (mem_queue_of_passed mem)]
  refine scanned_iff.2 ⟨queue.trans same.left.symm, active.trans same.taken.symm, ?_, fun j o here => ⟨fun mem => ?_, fun takes => ?_,
    fun mem => ?_⟩⟩
  · rw [flag, done, same.passed, met]
  · rw [same.passed] at mem
    have queued := mem_queue_of_passed mem
    rw [same.order j queued] at here
    rw [same.met j queued]
    exact (orders j o here).1 mem
  · rw [same.taken] at takes
    rw [same.order j (mem_queue_of_taken takes)] at here
    exact (orders j o here).2.1 takes
  · have behind : v.behind (v.queue g) = u.behind (u.queue g) := by
      rw [State.behind, State.behind, same.passed, same.queue]
    rw [behind] at mem
    rw [same.order j (mem_behind mem)] at here
    exact (orders j o here).2.2 mem

theorem handsOver_congr {u v t : State} {g k : Nat} (same : SameStart g k u v) (hands : u.handsOver t g k) : v.handsOver t g k := by
  obtain ⟨closing, watch, scanned, halted, stops, changes, line, kept⟩ := hands
  have finds (running : u.ballast.state = .running) (n : Nat) (takes : (t.station g).active = some n) :
      v.confirmedAt (.tank n) .opened = u.confirmedAt (.tank n) .opened := by
    rw [State.confirmedAt, State.confirmedAt, same.taken n ((scanned running).2.1.symm.trans takes)]
  have opened (n : Nat) (takes : (t.station g).active = some n) :
      v.confirmedAt (.tank n) .opened = u.confirmedAt (.tank n) .opened := by
    by_cases running : u.ballast.state = .running
    · exact finds running n takes
    · exact absurd ((halted running).2.2.symm.trans takes) (by simp)
  unfold State.handsOver
  dsimp only
  rw [same.state, same.finds.queue, same.order, same.clock, same.rundown, same.pump, same.tank]
  refine ⟨closing, watch, fun running => scanned_congr same.done same.finds (scanned running), halted, stops, fun n takes => ?_,
    fun w mem => (line w mem).trans (same.line w mem).symm, fun unopened => kept fun n takes => (opened n takes).symm.trans (unopened n takes)⟩
  rw [opened n takes]
  exact changes n takes

end Sys2Proof.Machine
end

