-- ==== Sys2Proof/Proofs/Enters.lean ====
section
/-! PROOFS. Entry into DISCHARGE with its four tests (spec 06 R101, R106, R107, R113), and orders completed or interrupted there. -/

namespace Sys2Proof.Machine

/-! ### The order that went -/

/-- An order, a queue and a station written as the statements write them. -/
def State.withOrder (s : State) (g k : Nat) (o : Order) (queue : List Nat) (st : Station) : State := { s with
  ballast := { s.ballast with
    orders := modify1 s.ballast.orders k fun _ => some o
    queues := modify1 s.ballast.queues g fun _ => queue
    stations := modify1 s.ballast.stations g fun _ => st } }

theorem nth1_of_order {s : State} {k : Nat} {o : Order} (here : s.order k = some o) : nth1 s.ballast.orders k = some (some o) := by
  unfold State.order at here
  rcases read : nth1 s.ballast.orders k with _ | _ | o' <;> rw [read] at here <;> cases here
  rfl

section Written

variable {s : State} {g k : Nat} {o : Order} (there : s.grouped g) (here : s.order k = some o)
include there here

theorem completedAt_eq_withOrder (c : Completion) : s.completedAt g k c =
    s.withOrder g k (o.complete c) (s.queue g) { s.station g with doneFlag := true } := by
  have orders : modify1 s.ballast.orders k (Option.map (Order.complete c)) = modify1 s.ballast.orders k fun _ => some (o.complete c) :=
    modify1_congr (nth1_of_order here) rfl
  have queues : s.ballast.queues = modify1 s.ballast.queues g fun _ => s.queue g :=
    (modify1_eq_self fun q read => by rw [State.queue, read]; rfl).symm
  have stations : modify1 s.ballast.stations g ({ · with doneFlag := true }) =
      modify1 s.ballast.stations g fun _ => { s.station g with doneFlag := true } :=
    modify1_congr (nth1_eq_some_getD default ⟨there.1, there.2.2⟩) rfl
  unfold State.withOrder
  rw [← orders, ← queues, ← stations]
  rfl

theorem returnedAt_eq_withOrder (c : HoldCause) : s.returnedAt g k c =
    s.withOrder g k (o.back c) (k :: s.queue g) { s.station g with holdFlag := true } := by
  have orders : modify1 s.ballast.orders k (Option.map (Order.back c)) = modify1 s.ballast.orders k fun _ => some (o.back c) :=
    modify1_congr (nth1_of_order here) rfl
  have stations : modify1 s.ballast.stations g ({ · with holdFlag := true }) =
      modify1 s.ballast.stations g fun _ => { s.station g with holdFlag := true } :=
    modify1_congr (nth1_eq_some_getD default ⟨there.1, there.2.2⟩) rfl
  unfold State.withOrder
  rw [← orders, ← stations]
  rfl

end Written

theorem completedAt_order (s : State) (g k j : Nat) (c : Completion) :
    (s.completedAt g k c).order j = if j = k then (s.order j).map (Order.complete c) else s.order j :=
  order_updOrder k j (Order.complete c) s

theorem returnedAt_order (s : State) (g k j : Nat) (c : HoldCause) :
    (s.returnedAt g k c).order j = if j = k then (s.order j).map (Order.back c) else s.order j :=
  order_updOrder k j (Order.back c) s

theorem valve_completedAt (s : State) (g k : Nat) (c : Completion) (v : ValveId) : (s.completedAt g k c).valve v = s.valve v := by
  rw [State.completedAt, valve_updStation]
  cases v <;> rfl

theorem valve_returnedAt (s : State) (g k : Nat) (c : HoldCause) (v : ValveId) : (s.returnedAt g k c).valve v = s.valve v := by
  rw [State.returnedAt, valve_updStation]
  cases v <;> rfl

theorem PartedFrom.working {u t : State} {g k : Nat} (parted : PartedFrom u t g k) : (t.station g).state.working = true := by
  obtain changes | stops := parted.works
  · rw [changes]; rfl
  · rw [stops]; rfl

section Sound

variable {s : State} {g k : Nat} {o : Order} (sound : s.Sound) (active : (s.station g).active = some k) (here : s.order k = some o)
include sound active here

theorem group_of_active : o.group = g := by
  obtain ⟨o', here', -, group⟩ := sound.filed.runs g k active
  rw [Option.some.inj (here.symm.trans here')]
  exact group

omit here in
theorem owner_of_active : (s.valve (.tank k)).owner = some g := (sound.owned.owner g k).2 (mem_holdings.2 (.inl active))

/-- An order that a station has completed, whatever other stations do then. -/
theorem completeOrder_stands (c : Completion) {t : State} (since : Elsewhere g (s.completeOrder g c) t) :
    (t.station g).doneFlag = true ∧ t.order k = some (o.complete c) ∧ (s.completedAt g k c).handsOver t g k := by
  have there := sound.founded.grouped (counted_of_active sound.founded active)
  have group := group_of_active sound active here
  have parted := completeOrder_parted sound active c
  have done : (s.completedAt g k c).order k = some (o.complete c) := by rw [completedAt_order, if_pos rfl, here]; rfl
  have told : ((s.completedAt g k c).station g).doneFlag = true := by
    rw [State.completedAt, station_updStation_self ((updOrder_frame k _ s).grouped there)]
  have absent := not_queued_of_active sound active
  refine ⟨by rw [since.station]; exact parted.done told, ?_, handsOver_elsewhere (fun j mem o' here' => ?_) done group
    (parted.owners k g (by rw [valve_completedAt]; exact owner_of_active sound active)) parted.hands since⟩
  · exact since.orders k _ ((parted.orders k (absent g)).trans done) group
  · have other : j ≠ k := fun same => absent g (same ▸ mem)
    rw [completedAt_order, if_neg other] at here'
    obtain ⟨o'', here'', -, group'⟩ := sound.filed.queued g j mem
    rw [Option.some.inj (here'.symm.trans here'')]
    exact group'

omit here in
/-- When the step has ended, nothing of a completion has been undone. -/
theorem completeOrder_since (c : Completion) (all : Bool) (before : State) :
    Elsewhere g (s.completeOrder g c) ((s.completeOrder g c).settle all before) :=
  settle_elsewhere (sound.completeOrder c) ((completeOrder_frame g c s).counted (counted_of_active sound.founded active))
    (completeOrder_parted sound active c).working all before

/-- An order that was returned to the head of its queue stays there: its tank is still its station's own. -/
theorem interrupt_kept (c : HoldCause) (unmet : o.target < (s.tank k).current) : ((s.interrupt g c).queue g).head? = some k ∧
    (s.interrupt g c).order k = some (o.back c) := by
  have parted := interrupt_parted sound active c
  have queue := returnedAt_queue sound active c
  have order : (s.returnedAt g k c).order k = some (o.back c) := by rw [returnedAt_order, if_pos rfl, here]; rfl
  by_cases running : (s.returnedAt g k c).ballast.state = .running
  · obtain ⟨left, -, -, orders⟩ := scanned_iff.1 (parted.hands.2.2.1 running)
    have foreign : (s.returnedAt g k c).eligible k = false := by
      refine Bool.eq_false_iff.2 fun eligible => ?_
      have free := (order_and_owner_of_eligible eligible).2
      rw [valve_returnedAt, owner_of_active sound active] at free
      exact absurd free (by simp)
    have unmet' : (s.returnedAt g k c).metInQueue k = false := by
      rw [metInQueue_eq, order]
      exact decide_eq_false (Nat.not_le.2 unmet)
    have passed : (s.returnedAt g k c).passed ((s.returnedAt g k c).queue g) = k :: (s.returnedAt g k c).passed (s.queue g) := by
      rw [queue, State.passed, List.takeWhile_cons, foreign]
      rfl
    refine ⟨?_, ?_⟩
    · rw [left, State.left, passed, List.filter_cons_of_pos (by rw [unmet']; rfl)]
      rfl
    · rw [(orders k _ order).1 (passed ▸ List.mem_cons_self), unmet']
      rfl
  · obtain ⟨kept, order', -⟩ := parted.hands.2.2.2.1 running
    rw [kept, queue, order', order]
    exact ⟨rfl, rfl⟩

/-- An order that a station has given back, whatever other stations do then. -/
theorem interrupt_stands (c : HoldCause) (unmet : o.target < (s.tank k).current) {t : State}
    (since : Elsewhere g (s.interrupt g c) t) :
    (t.station g).holdFlag = true ∧ (t.queue g).head? = some k ∧ t.order k = some (o.back c) ∧
      (s.returnedAt g k c).handsOver t g k := by
  have there := sound.founded.grouped (counted_of_active sound.founded active)
  have group := group_of_active sound active here
  have parted := interrupt_parted sound active c
  obtain ⟨head, back⟩ := interrupt_kept sound active here c unmet
  have order : (s.returnedAt g k c).order k = some (o.back c) := by rw [returnedAt_order, if_pos rfl, here]; rfl
  have frame := (updOrder_frame k (Order.back c) s).trans (setQueue_frame g (k :: s.queue g) _)
  have told : ((s.returnedAt g k c).station g).holdFlag = true := by
    rw [State.returnedAt, station_updStation_self (frame.grouped there)]
  refine ⟨by rw [since.station, parted.hold, told], by rw [since.queue, head], since.orders k _ back group,
    handsOver_elsewhere (fun j mem o' here' => ?_) order group
      (parted.owners k g (by rw [valve_returnedAt]; exact owner_of_active sound active)) parted.hands since⟩
  rw [returnedAt_queue sound active] at mem
  obtain same | mem := List.mem_cons.1 mem
  · rw [same, order] at here'
    rw [← Option.some.inj here']
    exact group
  · have other : j ≠ k := fun same => not_queued_of_active sound active g (same ▸ mem)
    rw [returnedAt_order, if_neg other] at here'
    obtain ⟨o'', here'', -, group'⟩ := sound.filed.queued g j mem
    rw [Option.some.inj (here'.symm.trans here'')]
    exact group'

omit here in
/-- When the step has ended, nothing of an interrupt has been undone. -/
theorem interrupt_since (c : HoldCause) (all : Bool) (before : State) :
    Elsewhere g (s.interrupt g c) ((s.interrupt g c).settle all before) :=
  settle_elsewhere (sound.interrupt c) ((interrupt_frame g c s).counted (counted_of_active sound.founded active))
    (interrupt_parted sound active c).working all before

end Sound

end Sys2Proof.Machine
end

