-- ==== Sys2Proof/Proofs/Entry.lean ====
section
/-! PROOFS. Entry into DISCHARGE (spec 06 R101, R106, R107, R113): its four tests in their turn, as the statements say them. -/

namespace Sys2Proof.Machine

/-! ### The tests -/

/-- The stress interrupt acts where some quantity at LIMIT stands on the side toward which discharging the tank moves it (R113). -/
theorem stressInterrupts_iff (s : State) (r : ResultSet) (k : Nat) :
    stressInterrupts s.startUp.profile r k = true ↔ s.worsened r (s.counts.holds + (k - 1)) (-1) (· = .limit) := by
  simp only [stressInterrupts, influences, State.worsened, List.any_append, Bool.or_eq_true, List.any_flatten,
    List.any_eq_true, exists_mem_zipWith]
  simp [dischargeWorsens, coefficientAt, tankIndex, State.hull, State.counts]

theorem stressed_iff (s : State) (k : Nat) : s.stressed s.engine.live k = true ↔
    ∃ r, s.engine.live = some r ∧ s.worsened r (s.counts.holds + (k - 1)) (-1) (· = .limit) := by
  unfold State.stressed
  cases s.engine.live with
  | none => simp
  | some r => simp [stressInterrupts_iff]

theorem targetMet_iff {s : State} {k : Nat} {o : Order} (here : s.order k = some o) :
    s.targetMet k = true ↔ (s.tank k).current ≤ o.target := by
  rw [State.targetMet, metInQueue_eq, here]
  exact decide_eq_true_iff

/-- The record of a station as it enters DISCHARGE, its estimator and dry-run watch begun anew. -/
def Station.discharges (now : Second) (x : Station) : Station :=
  { x with
    state := .discharge, deadline := none, estimator := ⟨none, 0⟩, lowSince := if 0 < x.minRate then some now else none }

/-- A station in DISCHARGE. -/
def State.discharging (u : State) (g : Nat) : State := u.updStation g (Station.discharges u.clock)

/-- The record of a station as it enters STRIP. -/
def Station.strips (now : Second) (x : Station) : Station :=
  { x with
    state := .strip, pumpCommanded := .runReduced, estimator := ⟨none, 0⟩
    lowSince := if 0 < x.minRate then some now else none }

theorem enterDischarge_eq {u : State} {g k : Nat} (there : u.grouped g) (active : (u.station g).active = some k) :
    u.enterDischarge g =
      if (u.discharging g).targetMet k then (u.discharging g).completeOrder g .met
      else if (u.tank k).status = .stale then (u.discharging g).interrupt g .stale
      else if u.stressed u.engine.live k then (u.discharging g).interrupt g .stress
      else if (u.tank k).strip = .below then (u.discharging g).enterStrip g
      else u.discharging g := by
  have begun : (u.updStation g ({ · with state := .discharge, deadline := none })).restartWatch g = u.discharging g :=
    congrArg (fun l => { u with ballast := { u.ballast with stations := l } }) (modify1_modify1 _ _ _ _)
  have own : ((u.discharging g).station g).active = some k := by
    rw [State.discharging, station_updStation_self there]; exact active
  unfold State.enterDischarge
  dsimp only
  rw [begun, own]
  rfl

/-- A pump that does not run REDUCED is sent REDUCED at the entry into STRIP (R107). -/
theorem enterStrip_eq {w : State} {g : Nat} (full : (w.station g).pumpCommanded ≠ .runReduced) : w.enterStrip g = { w with
    ballast := { w.ballast with stations := modify1 w.ballast.stations g (Station.strips w.clock) }
    field := { w.field with outbound := placeIn (.pump g .reduced) w.field.outbound } } := by
  have stations : modify1 (modify1 (modify1 w.ballast.stations g ({ · with pumpCommanded := .runReduced })) g ({ · with state := .strip })) g
      (fun st => { st with estimator := .closed, lowSince := if 0 < st.minRate then some w.clock else none }) =
        modify1 w.ballast.stations g (Station.strips w.clock) := by
    rw [modify1_modify1, modify1_modify1]
    rfl
  rw [State.enterStrip, State.commandPump, if_neg full, ← stations]
  rfl

/-! ### The entry whole -/

theorem State.Sound.ranked {s : State} (sound : s.Sound) : s.Ranked := by
  obtain ⟨-, -, -, -, suction, overboard⟩ := sound.founded.lengths
  have counted {g : Nat} (group : s.hasGroup g = true) : s.counted g := (counted_of_hasGroup group).2
  exact ⟨fun g group => sound.founded.grouped (counted group), fun g group => ⟨(counted group).1, suction ▸ (counted group).2⟩,
    fun g group => ⟨(counted group).1, overboard ▸ (counted group).2⟩, fun g k mem =>
      have ⟨_, here, _⟩ := sound.filed.queued g k mem
      sound.founded.valved here, sound.filed.nodup, fun g h k mem mem' => sound.filed.group_of_mem mem mem'⟩

theorem cause_congr {x u before : State} {h : Nat} (queue : x.queue h = u.queue h)
    (owners : ∀ k, (x.valve (.tank k)).owner = (u.valve (.tank k)).owner) (state : (x.station h).state = (u.station h).state)
    (all : Bool) : x.cause before all h = u.cause before all h := by
  simp only [State.cause, joined, ownershipEnded, enteredOff, queue, owners, state]

/-- A working station stays at its work, and the others that were told look. -/
theorem settle_stays {u x before : State} {g : Nat} {told : Nat → Prop} (sound : x.Sound) (ready : x.ready = true) (counted : x.counted g)
    (works : (x.station g).state.working = true) (queues : ∀ h, x.queue h = u.queue h)
    (owners : ∀ k, (x.valve (.tank k)).owner = (u.valve (.tank k)).owner) (states : ∀ h, h ≠ g → x.station h = u.station h)
    (causes : ∀ h, h ≠ g → (told h ↔ u.cause before false h = true)) : x.answered (x.settle false before) told := by
  have still : x.haltTest = x := haltTest_of_working (mem_groupNumbers.2 counted) works
  have answered := settle_answered (s := x) (before := before) (told := told) false ready (still.symm ▸ sound.ranked) fun h _ may => ?_
  · rwa [still] at answered
  · rw [still] at may ⊢
    have other : h ≠ g := by
      rintro rfl
      rw [(mayLook_iff.1 may).2.1] at works
      exact Bool.noConfusion works
    rw [cause_congr (queues h) owners (by rw [states h other]), causes h other]

section Entry

variable {u : State} {g k : Nat} (sound : u.Sound) (active : (u.station g).active = some k)
include sound active

theorem discharging_station : (u.discharging g).station g = (u.station g).discharges u.clock :=
  station_updStation_self (sound.founded.grouped (counted_of_active sound.founded active)) _

theorem discharging_sound : (u.discharging g).Sound := by
  have runs : (u.station g).state.runs = true := by rw [← (sound.stands g).manned, active]; rfl
  exact sound.updStation (counted_of_active sound.founded active) _ rfl rfl runs.symm
    fun halted => absurd halted (sound.awake (sound.working active))

theorem discharging_completedAt (c : Completion) : SameStart g k ((u.discharging g).completedAt g k c) (u.completedAt g k c) := by
  have there := sound.founded.grouped (counted_of_active sound.founded active)
  have own : (u.completedAt g k c).station g = { u.station g with doneFlag := true } :=
    station_updStation_self (s := u.updOrder k (Order.complete c)) there _
  have own' : ((u.discharging g).completedAt g k c).station g = { (u.station g).discharges u.clock with doneFlag := true } := by
    rw [← discharging_station sound active]
    exact station_updStation_self (s := (u.discharging g).updOrder k (Order.complete c)) ((updStation_frame g _ u).grouped there) _
  have valve (v : ValveId) : (u.completedAt g k c).valve v = ((u.discharging g).completedAt g k c).valve v := by
    rw [valve_completedAt, valve_completedAt, State.discharging, valve_updStation]
  exact ⟨rfl, rfl, by rw [own, own']; rfl, by rw [own, own']; rfl, by rw [own, own'],
    ⟨rfl, fun _ _ => rfl, fun _ _ => rfl, fun _ _ => rfl⟩, rfl, fun w _ => valve w, valve _, fun n _ => valve _⟩

theorem discharging_returnedAt (c : HoldCause) : SameStart g k ((u.discharging g).returnedAt g k c) (u.returnedAt g k c) := by
  have there := sound.founded.grouped (counted_of_active sound.founded active)
  have own : (u.returnedAt g k c).station g = { u.station g with holdFlag := true } :=
    station_updStation_self (s := (u.updOrder k (Order.back c)).setQueue g (k :: u.queue g)) ((setQueue_frame g _ _).grouped there) _
  have own' : ((u.discharging g).returnedAt g k c).station g = { (u.station g).discharges u.clock with holdFlag := true } := by
    rw [← discharging_station sound active]
    exact station_updStation_self (s := ((u.discharging g).updOrder k (Order.back c)).setQueue g (k :: u.queue g))
      ((setQueue_frame g _ _).grouped ((updStation_frame g _ u).grouped there)) _
  have valve (v : ValveId) : (u.returnedAt g k c).valve v = ((u.discharging g).returnedAt g k c).valve v := by
    rw [valve_returnedAt, valve_returnedAt, State.discharging, valve_updStation]
  exact ⟨rfl, rfl, by rw [own, own']; rfl, by rw [own, own']; rfl, by rw [own, own']; rfl,
    ⟨rfl, fun _ _ => rfl, fun _ _ => rfl, fun _ _ => rfl⟩, rfl, fun w _ => valve w, valve _, fun n _ => valve _⟩

/-- A station's record and the outbound list written as the statements write them. -/
def State.stands (u : State) (g : Nat) (st : Station) (l : List FieldCommand) : State := { u with
  ballast := { u.ballast with stations := modify1 u.ballast.stations g fun _ => st }
  field := { u.field with outbound := l } }

theorem discharging_eq_stands : u.discharging g = u.stands g ((u.station g).discharges u.clock) u.field.outbound := by
  have there := sound.founded.grouped (counted_of_active sound.founded active)
  have stations : modify1 u.ballast.stations g (Station.discharges u.clock) =
      modify1 u.ballast.stations g fun _ => (u.station g).discharges u.clock :=
    modify1_congr (nth1_eq_some_getD default ⟨there.1, there.2.2⟩) rfl
  rw [State.stands, ← stations]
  rfl

theorem enterStrip_eq_stands (full : (u.station g).pumpCommanded = .runFull) : (u.discharging g).enterStrip g =
    u.stands g { (u.station g).discharges u.clock with state := .strip, pumpCommanded := .runReduced }
      (placeIn (.pump g .reduced) u.field.outbound) := by
  have there := sound.founded.grouped (counted_of_active sound.founded active)
  rw [enterStrip_eq (by rw [discharging_station sound active]; exact fun reduced => PumpCommand.noConfusion (full.symm.trans reduced))]
  have stations : modify1 (modify1 u.ballast.stations g (Station.discharges u.clock)) g (Station.strips u.clock) =
      modify1 u.ballast.stations g fun _ =>
        { (u.station g).discharges u.clock with state := .strip, pumpCommanded := .runReduced } :=
    (modify1_modify1 _ _ _ _).trans (modify1_congr (nth1_eq_some_getD default ⟨there.1, there.2.2⟩) rfl)
  rw [State.stands, ← stations]
  rfl

/-- A station that pumps on, and the stations told of a cause. -/
theorem stands_answered (ready : u.ready = true) {before : State} {told : Nat → Prop}
    (causes : ∀ h, h ≠ g → (told h ↔ u.cause before false h = true)) {st : Station} {l : List FieldCommand}
    (stays : (u.stands g st l).Sound) (works : st.state.working = true) :
    (u.stands g st l).answered ((u.stands g st l).settle false before) told := by
  have counted := counted_of_active sound.founded active
  have there := sound.founded.grouped counted
  refine settle_stays (u := u) stays ready counted ?_ (fun _ => rfl) (fun _ => rfl)
    (fun h other => getD_nth1_modify1_ne other (fun _ => st) default) causes
  have own : (u.stands g st l).station g = st := getD_nth1_modify1 ⟨there.1, there.2.2⟩ (fun _ => st) default
  rw [own]
  exact works

/-- What the entry into DISCHARGE leaves, as the statements say it, once the stations told of a cause have looked. -/
theorem enterDischarge_enters (ready : u.ready = true) (full : (u.station g).pumpCommanded = .runFull) {before : State}
    {told : Nat → Prop} (causes : ∀ h, h ≠ g → (told h ↔ u.cause before false h = true)) :
    u.enters ((u.enterDischarge g).settle false before) g told := by
  have counted := counted_of_active sound.founded active
  have there := sound.founded.grouped counted
  have frame : BallastFrame u (u.discharging g) := updStation_frame g _ u
  have begun := discharging_sound sound active
  have own := discharging_station sound active
  have active' : ((u.discharging g).station g).active = some k := by rw [own]; exact active
  intro k' o runs here
  obtain rfl := Option.some.inj (active.symm.trans runs)
  have here' : (u.discharging g).order k = some o := here
  rw [enterDischarge_eq there active]
  have met : (u.discharging g).targetMet k = true ↔ (u.tank k).current ≤ o.target := targetMet_iff here'
  refine ⟨fun reached => ?_, fun above => ?_⟩
  · rw [if_pos (met.2 reached)]
    obtain ⟨done, order, hands⟩ := completeOrder_stands begun active' here' .met
      (completeOrder_since begun active' .met false before)
    refine ⟨done, order, ?_⟩
    have hands' := handsOver_congr (discharging_completedAt sound active .met) hands
    rw [completedAt_eq_withOrder there here] at hands'
    exact hands'
  · rw [if_neg fun reached => Nat.not_le.2 above (met.1 reached)]
    have returned (c : HoldCause) (t : State) (left : t = ((u.discharging g).interrupt g c).settle false before) :
        (t.station g).holdFlag = true ∧ (t.queue g).head? = some k ∧
          t.order k = some { o with state := .queued, holdCause := some c } ∧
          (u.withOrder g k { o with state := .queued, holdCause := some c } (k :: u.queue g)
            { u.station g with holdFlag := true }).handsOver t g k := by
      obtain ⟨hold, head, order, hands⟩ := interrupt_stands begun active' here' c above
        (interrupt_since begun active' c false before)
      have hands' := handsOver_congr (discharging_returnedAt sound active c) hands
      rw [returnedAt_eq_withOrder there here] at hands'
      rw [left]
      exact ⟨hold, head, order, hands'⟩
    refine ⟨fun stale => ?_, fun fresh worsened => ?_, fun fresh calm below => ?_, fun fresh calm above => ?_⟩
    · rw [if_pos stale]
      exact returned .stale _ rfl
    · rw [if_neg fresh, if_pos ((stressed_iff u k).2 worsened)]
      exact returned .stress _ rfl
    · rw [if_neg fresh, if_neg fun stressed => calm ((stressed_iff u k).1 stressed), if_pos below,
        enterStrip_eq_stands sound active full]
      exact stands_answered sound active ready causes
        (enterStrip_eq_stands sound active full ▸ begun.enterStrip (by rw [own]; rfl)) rfl
    · rw [if_neg fresh, if_neg fun stressed => calm ((stressed_iff u k).1 stressed), if_neg above,
        discharging_eq_stands sound active]
      exact stands_answered sound active ready causes (discharging_eq_stands sound active ▸ begun) rfl

end Entry

end Sys2Proof.Machine
end

