-- ==== Sys2Proof/Proofs/Deadlines.lean ====
section
/-! PROOFS. O60: the priming and rundown deadlines and the dry run (spec 06 R101, R105 to R110, R112, R113). -/

namespace Sys2Proof.Machine

/-! ### A deadline that has been reached -/

/-- A station without its state deadline. -/
def Station.untimed (x : Station) : Station := { x with deadline := none }

/-- The state once a station's deadline is taken. -/
def State.untimed (s : State) (g : Nat) : State := s.updStation g Station.untimed

theorem afterTrip_untimed {s : State} {g : Nat} (there : s.grouped g) (c : TripCause) :
    (s.untimed g).afterTrip g c = s.afterTrip g c := by
  have station : (s.untimed g).station g = (s.station g).untimed := station_updStation_self there _
  have stations : modify1 (modify1 s.ballast.stations g Station.untimed) g (Station.trips c) =
      modify1 s.ballast.stations g (Station.trips c) := modify1_modify1 _ _ _ _
  have back : (s.untimed g).afterReroute g .trip = (s.untimed g).reworked (s.afterReroute g .trip).ballast.orders
      (s.afterReroute g .trip).ballast.queues (s.untimed g).ballast.stations :=
    afterReroute_congr (fun _ => rfl) (by rw [station]; rfl) rfl rfl
  rw [afterTrip_eq, afterTrip_eq, back]
  show State.afterRest (((s.untimed g).shutsDown g).reworked _ _ (modify1 (modify1 s.ballast.stations g Station.untimed) g _)) = _
  rw [stations, State.shutsDown, station, State.untimed, afterStop_updStation s g (f := Station.untimed) fun _ => rfl]
  rfl

theorem enterDischarge_untimed (s : State) (g : Nat) : (s.untimed g).enterDischarge g = s.enterDischarge g := by
  have begun : (s.untimed g).updStation g ({ · with state := .discharge, deadline := none }) =
      s.updStation g ({ · with state := .discharge, deadline := none }) :=
    congrArg (fun l => { s with ballast := { s.ballast with stations := l } }) (modify1_modify1 _ _ _ _)
  unfold State.enterDischarge
  rw [begun]

theorem afterClosing_untimed {s : State} {g : Nat} (there : s.grouped g) : (s.untimed g).afterClosing g = s.afterClosing g := by
  have station : (s.untimed g).station g = (s.station g).untimed := station_updStation_self there _
  have closes (f : Station → Station) (same : f ∘ Station.untimed = f) :
      modify1 (modify1 s.ballast.stations g Station.untimed) g f = modify1 s.ballast.stations g f := by
    rw [modify1_modify1, same]
  have all : (s.untimed g).closesAll g = (s.closesAll g).reworked s.ballast.orders s.ballast.queues
      (modify1 s.ballast.stations g Station.untimed) := by
    rw [State.closesAll, station]
    rfl
  have iff_ : (s.untimed g).shutAlready g ↔ s.shutAlready g := by
    rw [State.shutAlready, station]
    rfl
  by_cases shut : s.shutAlready g
  · rw [afterClosing_of_shut shut, afterClosing_of_shut (iff_.2 shut), all, ← closes Station.shut rfl]
    rfl
  · rw [afterClosing_of_open shut, afterClosing_of_open fun shut' => shut (iff_.1 shut'), all, ← closes Station.closes rfl]
    rfl

section Timed

variable {s : State} {g : Nat} (ready : s.ready = true) (records : s.RecordsOk) (group : s.hasGroup g = true)
include ready records group

/-- A trip at a deadline, whole. -/
theorem untimed_trips (c : TripCause) : (((s.untimed g).trip g c).settle false s).trippedBy g c ∧
    (s.OrdersOk → s.trips (((s.untimed g).trip g c).settle false s) g c) := by
  have there := grouped_of_hasGroup ready records group
  have frame : BallastFrame s (s.untimed g) := updStation_frame g _ s
  have line {v : ValveId} (counted : s.hasValve v = true) := frame.valved (valved_of_hasValve ready records counted)
  refine ⟨trippedBy_settle (frame.grouped there) (line group) (line group) c, fun orders => ?_⟩
  have trips := trips_settle (before := s) (frame.ready.trans ready) (frame.recordsOk records)
    ((updStation_sameWork (f := Station.untimed) s fun _ => rfl).ordersOk orders) ((frame.hasGroup g).trans group) (fun _ => rfl)
    (fun k => by rw [State.untimed, valve_updStation]) (fun h other => by rw [State.untimed, station_updStation_ne other]) c
  unfold State.trips at trips ⊢
  rwa [afterTrip_untimed there] at trips

end Timed

/-! ### Priming -/

theorem primingEnds_eq {s : State} {g : Nat} (there : s.grouped g) : s.primingEnds g =
    if (s.station g).pumpReported = .running then s.enterDischarge g else (s.untimed g).trip g .startFail := by
  have station : (s.untimed g).station g = (s.station g).untimed := station_updStation_self there _
  show (if ((s.untimed g).station g).pumpReported = .running then (s.untimed g).enterDischarge g
    else (s.untimed g).trip g .startFail) = _
  rw [station, enterDischarge_untimed]
  rfl

theorem cause_self (s : State) (h : Nat) : s.cause s false h = false := by
  simp only [State.cause, joined, ownershipEnded, enteredOff, Bool.or_eq_false_iff, List.any_eq_false, decide_eq_true_eq, not_not,
    decide_eq_false_iff_not, Bool.and_eq_true, not_and, true_and]
  refine ⟨⟨fun _ => id, fun k _ owned free => ?_⟩, fun on off => on off⟩
  rw [Option.isNone_iff_eq_none.1 free] at owned
  exact Bool.noConfusion owned

/-- A station that enters DISCHARGE with no test to answer. -/
theorem enterDischarge_of_calm {s : State} {g k : Nat} {o : Order} (there : s.grouped g) (active : (s.station g).active = some k)
    (here : s.order k = some o) (above : o.target < (s.tank k).current) (fresh : (s.tank k).status ≠ .stale)
    (calm : s.stressed s.engine.live k = false) (full : (s.tank k).strip ≠ .below) : s.enterDischarge g = s.discharging g := by
  rw [enterDischarge_eq there active, if_neg fun met => Nat.not_le.2 above ((targetMet_iff (s := s.discharging g) here).1 met),
    if_neg fresh, if_neg (by rw [calm]; exact Bool.false_ne_true), if_neg full]

theorem discharging_settled {s : State} {g : Nat} (counted : s.counted g) (there : s.grouped g) :
    (s.discharging g).settle false s = s.discharging g := by
  refine settle_of_working (g := g) counted ?_ (fun _ _ _ => id) (fun j h own => ?_) fun h other => ?_
  · rw [State.discharging, station_updStation_self there]
    rfl
  · rw [State.discharging, valve_updStation, own]
    simp
  · rw [State.discharging, station_updStation_ne other]

/-! ### Rundown -/

theorem rundownEnds_eq {s : State} {g : Nat} (there : s.grouped g) : s.rundownEnds g =
    if (s.station g).pumpReported = .stopped then (s.untimed g).enterClosing g else (s.untimed g).trip g .stopFail := by
  have station : (s.untimed g).station g = (s.station g).untimed := station_updStation_self there _
  show (if ((s.untimed g).station g).pumpReported = .stopped then (s.untimed g).enterClosing g
    else (s.untimed g).trip g .stopFail) = _
  rw [station]
  rfl

section Rundown

variable {s : State} {g : Nat} (ready : s.ready = true) (records : s.RecordsOk) (group : s.hasGroup g = true)
include ready records group

/-- The line is closed as the statements compute it, and the station that entered OFF looks. -/
theorem rundown_answered (orders : s.OrdersOk) (on : (s.station g).state ≠ .off) :
    (s.afterClosing g).afterRest.answered (((s.untimed g).enterClosing g).settle false s) (· = g) := by
  have there := grouped_of_hasGroup ready records group
  have frame : BallastFrame s (s.untimed g) := updStation_frame g _ s
  have line {v : ValveId} (counted : s.hasValve v = true) := frame.valved (valved_of_hasValve ready records counted)
  have station : (s.untimed g).station g = (s.station g).untimed := station_updStation_self there _
  have ranked := ranked_of_queuesOk ready records orders.1
  obtain ⟨-, -, ⟨nodup, owner, -, unshut⟩, -⟩ := orders
  have closes : (s.untimed g).enterClosing g = s.afterClosing g := by
    rw [← afterClosing_untimed there]
    refine enterClosing_eq_afterClosing (frame.grouped there) (line group) (line group) ?_ fun k mem => ?_
    · rw [station]
      exact (List.nodup_append.1 (nodup g)).2.1
    · rw [station] at mem
      rw [State.confirmedAt, State.untimed, valve_updStation]
      exact unshut g k ((owner g k).2 (.inr mem))
  have framed : BallastFrame s (s.afterClosing g) := closes ▸ frame.trans (enterClosing_frame g _)
  rw [closes, ← haltTest_eq_afterRest]
  refine settle_answered_off (framed.ready.trans ready) (ranked.congr framed fun _ => rfl) (fun _ _ => id) (fun k h own => ?_) on
    fun h other => ?_
  · have same : ((s.afterClosing g).valve (.tank k)).owner = (s.valve (.tank k)).owner :=
      (owner_afterCommands _ false .shut ((s.station g).closing.map .tank) (.tank k)).trans
        (owner_afterCommands s (s.station g).resuming .shut [.suction g, .overboard g] (.tank k))
    rw [same, own]
    simp
  · exact congrArg Station.state (getD_nth1_modify1_ne other _ default)

omit ready records group in
/-- A station that has entered CLOSING or OFF: in OFF every closing tank stands confirmed SHUT. -/
theorem enterClosing_closed {u : State} {g : Nat} (there : u.grouped g) (suction : u.valved (.suction g)) (overboard : u.valved (.overboard g)) :
    (((u.enterClosing g).station g).state = .stopping .closing ∨ ((u.enterClosing g).station g).state = .off ∧
      ∀ k ∈ ((u.enterClosing g).station g).closing, (u.enterClosing g).confirmedAt (.tank k) .shut = true) ∧
    ((u.enterClosing g).valve (.suction g)).commanded = .shut ∧ ((u.enterClosing g).valve (.overboard g)).commanded = .shut := by
  obtain ⟨-, line, line'⟩ := valve_closesLine (s := u) (g := g)
  have suction' := line suction
  have overboard' := line' overboard
  obtain ⟨closing, -, station⟩ := station_shutTanks (u.station g).closing (u.closesLine g) g
  rw [← valve_shutTanks_line (v := .suction g) (by simp) (u.station g).closing (u.closesLine g)] at suction'
  rw [← valve_shutTanks_line (v := .overboard g) (by simp) (u.station g).closing (u.closesLine g)] at overboard'
  have frame : BallastFrame u ((u.station g).closing.foldl (fun s k => s.shutTank k) (u.closesLine g)) :=
    ((updStation_frame g _ u).trans (closesLine_commanded g u).frame).trans (shutTanks_frame _ _)
  rw [(closesLine_commanded g u).station, station_updStation_self there] at station
  rw [enterClosing_eq, State.closingTest]
  generalize (u.station g).closing.foldl (fun s k => s.shutTank k) (u.closesLine g) = w at station suction' overboard' frame
  have there' := frame.grouped there
  split
  · rename_i shut
    rw [valve_updStation, valve_updStation, station_updStation_self there']
    refine ⟨.inr ⟨rfl, fun k mem => ?_⟩, suction', overboard'⟩
    have all := shut.2
    rw [State.lineShut, Bool.and_eq_true] at all
    rw [State.confirmedAt, valve_updStation]
    exact List.all_eq_true.1 all.2 k mem
  · exact ⟨.inl (by rw [station]; rfl), suction', overboard'⟩

/-- The rundown's end while the sequencer is not RUNNING. -/
theorem rundown_closed (idle : s.ballast.state ≠ .running) {t : State} (left : t = ((s.untimed g).enterClosing g).settle false s) :
    ((t.station g).state = .stopping .closing ∨
      (t.station g).state = .off ∧ ∀ k ∈ (t.station g).closing, t.confirmedAt (.tank k) .shut = true) ∧
    (t.valve (.suction g)).commanded = .shut ∧ (t.valve (.overboard g)).commanded = .shut := by
  have frame : BallastFrame s (s.untimed g) := updStation_frame g _ s
  have line {v : ValveId} (counted : s.hasValve v = true) := frame.valved (valved_of_hasValve ready records counted)
  have closed := enterClosing_closed (frame.grouped (grouped_of_hasGroup ready records group)) (line group) (line group)
  have state : ((s.untimed g).enterClosing g).ballast.state ≠ .running := by rw [enterClosing_state]; exact idle
  rw [left, settle_of_not_running false (by
    obtain same | halted := haltTest_eq ((s.untimed g).enterClosing g)
    · rw [same]; exact state
    · rw [halted]; exact SequencerState.noConfusion), haltTest_eq_afterRest]
  simpa only [afterRest_station, afterRest_valve, State.confirmedAt] using closed

end Rundown

end Sys2Proof.Machine
end

