-- ==== Sys2Proof/Proofs/DryRun.lean ====
section
/-! PROOFS. O60: the dry-run condition, and the statement (spec 06 R101, R106, R107). -/

namespace Sys2Proof.Machine

/-! ### A changeover and an order that waits nowhere -/

theorem queues_shutTank (s : State) (k : Nat) : (s.shutTank k).ballast.queues = s.ballast.queues := by
  have commanded := (commandValve_commanded (.tank k) .shut s).queues
  unfold State.shutTank State.releaseIfShut
  split
  · split
    · exact commanded
    · exact commanded
  · exact commanded

/-- The end of a changeover leaves the orders and the queues to the scan. -/
theorem takesNext_work (g : Nat) (y : State) :
    (y.takesNext g).ballast.orders = y.ballast.orders ∧ (y.takesNext g).ballast.queues = y.ballast.queues := by
  unfold State.takesNext
  split
  · rename_i n _
    have opens : (y.opensNext g n).ballast.orders = y.ballast.orders ∧ (y.opensNext g n).ballast.queues = y.ballast.queues :=
      have commanded := commandValve_commanded (.tank n) .opened (y.updStation g ({ · with state := .changeover }))
      ⟨commanded.orders, commanded.queues⟩
    unfold State.changesTo
    split
    · exact foldl_keeps (P := fun t => t.ballast.orders = y.ballast.orders ∧ t.ballast.queues = y.ballast.queues)
        (fun k _ t was => ⟨(orders_shutTank t k).trans was.1, (queues_shutTank t k).trans was.2⟩) opens
    · exact opens
  · rw [enterRundown_eq_afterRundown]
    exact ⟨rfl, rfl⟩

theorem enterChangeover_absent {u : State} {g j : Nat} (there : u.grouped g) (absent : ∀ h, j ∉ u.queue h) (k : Nat) :
    (u.enterChangeover g k).order j = u.order j ∧ ∀ h, j ∉ (u.enterChangeover g k).queue h := by
  rw [enterChangeover_eq]
  split
  · have gives := scansAfter_givesUp there k
    obtain ⟨orders, queues⟩ := takesNext_work g (u.scansAfter g k)
    show ((u.scansAfter g k).takesNext g).order j = u.order j ∧ ∀ h, j ∉ ((u.scansAfter g k).takesNext g).queue h
    refine ⟨?_, fun h mem => ?_⟩
    · rw [State.order, orders]
      exact gives.orders j (absent g)
    · rw [State.queue, queues] at mem
      by_cases here : h = g
      · rw [here] at mem
        exact absent g (gives.queue j mem)
      · exact absent h (gives.queues h here ▸ mem)
  · rw [enterRundown_eq_afterRundown]
    exact ⟨rfl, absent⟩

/-- A station that was told of an order done stays told. -/
theorem enterChangeover_done {u : State} {g : Nat} (there : u.grouped g) (k : Nat) (done : (u.station g).doneFlag = true) :
    ((u.enterChangeover g k).station g).doneFlag = true := by
  rw [enterChangeover_eq]
  split
  · have gives := scansAfter_givesUp there k
    have scanned := gives.done done
    have there' := gives.frame.grouped there
    show (((u.scansAfter g k).takesNext g).station g).doneFlag = true
    generalize u.scansAfter g k = y at scanned there'
    unfold State.takesNext
    split
    · rename_i n _
      have opens : ((y.opensNext g n).station g).doneFlag = true := by
        have own : (y.opensNext g n).station g = (y.updStation g ({ · with state := .changeover })).station g :=
          (commandValve_commanded (.tank n) .opened _).station g
        rw [own, station_updStation_self there']
        exact scanned
      unfold State.changesTo
      split
      · obtain ⟨closing, -, station⟩ := station_shutTanks ((y.opensNext g n).station g).closing (y.opensNext g n) g
        rw [station]
        exact opens
      · exact opens
    · rw [(enterRundown_spec there').1]
      exact scanned
  · have gives := givenUp_givesUp there k
    rw [(enterRundown_spec (gives.frame.grouped there)).1]
    exact gives.done done

/-- A RESIDUAL completion of an order that waits in no queue, when the step has ended. -/
theorem residual_settled {s : State} {g k : Nat} {o : Order} (there : s.grouped g) (active : (s.station g).active = some k)
    (here : s.order k = some o) (absent : ∀ h, k ∉ s.queue h) (before : State) :
    ((s.completeOrder g .residual).settle false before).order k = some (o.complete .residual) ∧
      (((s.completeOrder g .residual).settle false before).station g).doneFlag = true := by
  have frame : BallastFrame s (s.updOrder k (Order.complete .residual)) := updOrder_frame k _ s
  have there' : (s.completedAt g k .residual).grouped g := (updStation_frame g _ _).grouped (frame.grouped there)
  have order : (s.completedAt g k .residual).order k = some (o.complete .residual) := by rw [completedAt_order, if_pos rfl, here]; rfl
  have told : ((s.completedAt g k .residual).station g).doneFlag = true := by
    rw [State.completedAt, station_updStation_self (frame.grouped there)]
  obtain ⟨kept, absent'⟩ := enterChangeover_absent (j := k) there' absent k
  rw [completeOrder_eq active]
  exact ⟨(settle_order absent' false before).trans (kept.trans order),
    (settle_station false before _ g).done (enterChangeover_done there' k told)⟩

/-- Orders that agree in READY: the tables are whole and the stations own the tank valves that they hold. -/
theorem founded_of_ordersOk {s : State} (ready : s.ready = true) (records : s.RecordsOk) (orders : s.OrdersOk) :
    s.Founded ∧ s.Owned s.holdings := by
  have phase := phase_of_ready ready
  obtain ⟨-, tanks, -, shape⟩ := records phase
  obtain ⟨-, -, ⟨apart, owner, -, unshut⟩, -, alternates, loaded⟩ := orders
  have groups : s.ballast.queues.length = s.counts.groups := by
    simp only [Sequencer.shape, List.cons.injEq] at shape
    exact shape.2.1
  rw [groups] at alternates
  exact ⟨⟨phase, tanks, shape, (loaded phase).1, alternates⟩, ⟨apart, fun g k => (owner g k).trans mem_holdings.symm, unshut⟩⟩

/-- An order completed RESIDUAL is given up, when the step has ended. -/
theorem residual_handsOver {s : State} {g k : Nat} (ready : s.ready = true) (records : s.RecordsOk) (orders : s.OrdersOk)
    (counted : s.counted g) (active : (s.station g).active = some k) :
    (s.completedAt g k .residual).handsOver ((s.completeOrder g .residual).settle false s) g k := by
  obtain ⟨founded, owned⟩ := founded_of_ordersOk ready records orders
  have parted := (completedAt_parting founded owned (orders.1.1 g) active .residual).enterChangeover
  have frame : BallastFrame s (s.completedAt g k .residual) := (updOrder_frame k _ s).trans (updStation_frame g _ _)
  rw [completeOrder_eq active, parted.settle (before := s) (frame.counted counted) (fun _ _ => rfl)
    (fun j => congrArg Valve.owner (valve_completedAt s g k .residual _)) fun h other => congrArg Station.state ?_]
  · exact parted.hands
  · rw [State.completedAt, station_updStation_ne other]
    rfl

/-! ### The statement -/

section Up

variable {s : State} {g : Nat} (ready : s.ready = true) (steady : s.pfail = false) (group : s.hasGroup g = true)
include ready steady group

theorem exec_primingExpiry (primes : (s.station g).state = .priming) (due : expired (s.station g).deadline s.clock = true) :
    exec (.primingExpiry g) s = .next ((s.primingEnds g).settle false s) :=
  congrArg Host.Outcome.next (if_pos ⟨by rw [State.ballastUp, ready, steady]; rfl, group, primes, due⟩)

theorem exec_rundownExpiry (stops : (s.station g).state = .stopping .rundown) (due : expired (s.station g).deadline s.clock = true) :
    exec (.rundownExpiry g) s = .next ((s.rundownEnds g).settle false s) :=
  congrArg Host.Outcome.next (if_pos ⟨by rw [State.ballastUp, ready, steady]; rfl, group, stops, due⟩)

theorem exec_dryRunCondition (dry : s.runsDry g = true) :
    exec (.dryRunCondition g) s = .next ((s.dryRunActs g).settle false s) :=
  congrArg Host.Outcome.next (if_pos ⟨by rw [State.ballastUp, ready, steady]; rfl, group, dry⟩)

end Up

theorem runsDry_of_low {s : State} {g : Nat} {since : Second} (pumps : (s.station g).state.pumping = true)
    (low : (s.station g).lowSince = some since) (long : (s.station g).dryRun ≤ elapsed since s.clock) : s.runsDry g = true := by
  rw [State.runsDry, pumps, low]
  exact decide_eq_true long

/-- Settles O60: the priming and rundown deadlines, and the dry run in DISCHARGE and in STRIP. -/
theorem stationDeadlinesMoveTheStation : Obligations.StationDeadlinesMoveTheStation := by
  intro s g ready steady records group
  have there := grouped_of_hasGroup ready records group
  have counted : s.counted g := (counted_of_hasGroup group).2
  have sound (stations : s.StationsOk) (orders : s.OrdersOk) : s.Sound :=
    sound_of_ordersOk (phase_of_ready ready) records stations orders
  refine ⟨fun primes due => ?_, fun stops due => ?_, fun since low long => ⟨fun discharges => ?_, fun k o strips active _ here absent => ?_⟩⟩
  · refine ⟨_, exec_primingExpiry ready steady group primes due, ((primingEnds_frame g s).trans (settle_frame false s _)).onlyBallast, ?_⟩
    rw [primingEnds_eq there]
    refine ⟨fun other => ?_, fun runs stations orders => ?_, fun k o runs active here above fresh calm full => ?_⟩
    · rw [if_neg other]
      exact untimed_trips ready records group .startFail
    · rw [if_pos runs]
      obtain ⟨manned, admits⟩ := stations.here g
      simp only [Station.duty, primes] at manned admits
      obtain ⟨k, active⟩ := Option.isSome_iff_exists.1 manned
      exact enterDischarge_enters (sound stations orders) active ready (of_decide_eq_true admits) fun h _ => by
        rw [cause_self]; simp
    · rw [if_pos runs, enterDischarge_of_calm there active here above fresh calm full]
      exact discharging_settled counted there
  · refine ⟨_, exec_rundownExpiry ready steady group stops due, ((rundownEnds_frame g s).trans (settle_frame false s _)).onlyBallast, ?_⟩
    rw [rundownEnds_eq there]
    refine ⟨fun other => ?_, fun stopped orders => ?_, fun stopped idle => ?_⟩
    · rw [if_neg other]
      exact untimed_trips ready records group .stopFail
    · rw [if_pos stopped]
      exact rundown_answered ready records group orders (by rw [stops]; exact StationState.noConfusion)
    · rw [if_pos stopped]
      exact rundown_closed ready records group idle rfl
  · have dry := runsDry_of_low (by rw [discharges]; rfl) low long
    refine ⟨_, exec_dryRunCondition ready steady group dry, ((dryRunActs_frame g s).trans (settle_frame false s _)).onlyBallast, ?_⟩
    rw [State.dryRunActs, if_pos dry, if_pos discharges]
    exact ⟨trippedBy_settle there (valved_of_hasValve ready records group) (valved_of_hasValve ready records group) .dryRun,
      fun orders => trips_settle ready records orders group (fun _ => rfl) (fun _ => rfl) (fun _ _ => rfl) .dryRun⟩
  · have dry := runsDry_of_low (by rw [strips]; rfl) low long
    refine ⟨_, exec_dryRunCondition ready steady group dry, ((dryRunActs_frame g s).trans (settle_frame false s _)).onlyBallast, ?_⟩
    rw [State.dryRunActs, if_pos dry, if_neg (by rw [strips]; exact StationState.noConfusion)]
    obtain ⟨order, done⟩ := residual_settled there active here absent s
    refine ⟨order, done, fun orders => ?_⟩
    have written : modify1 s.ballast.orders k (Option.map (Order.complete .residual)) =
        modify1 s.ballast.orders k fun _ => some (o.complete .residual) := modify1_congr (nth1_of_order here) rfl
    have hands := residual_handsOver ready records orders counted active
    unfold State.completedAt State.updOrder at hands
    rw [written] at hands
    exact hands

end Sys2Proof.Machine
end

