-- ==== Sys2Proof/Proofs/Scenes.lean ====
section
/-! PROOFS. O57: what a station reads as it gives up its order (spec 05 R81 to R84, spec 06 R108), in the states between which a
sounding, a PUT, an expiry or a publication has come. -/

namespace Sys2Proof.Machine

/-- In `b` stands what the station of group `g` reads in `w` as it gives up the order of tank `k`. -/
structure Scene (g k : Nat) (w b : State) : Prop where
  clock : b.clock = w.clock
  profile : b.startUp.profile = w.startUp.profile
  live : b.engine.live = w.engine.live
  state : b.ballast.state = w.ballast.state
  queue : b.queue g = w.queue g
  own : b.order k = w.order k
  orders : ∀ j ∈ w.queue g, b.order j = w.order j
  masses : ∀ j ∈ w.queue g, (b.tank j).current = (w.tank j).current
  line : ∀ v ∈ [ValveId.suction g, .overboard g], b.valve v = w.valve v
  valve : b.valve (.tank k) = w.valve (.tank k)
  free : ∀ j ∈ w.queue g, (w.valve (.tank j)).owner = none → b.valve (.tank j) = w.valve (.tank j) ∧ b.tank j = w.tank j
  owned : ∀ j ∈ w.queue g, (w.valve (.tank j)).owner ≠ none → (b.valve (.tank j)).owner ≠ none
  rundown : (b.station g).rundown = (w.station g).rundown
  pump : (b.station g).pumpCommanded = (w.station g).pumpCommanded
  done : (b.station g).doneFlag = (w.station g).doneFlag

section Scene

variable {g k : Nat} {w b : State} (scene : Scene g k w b)
include scene

theorem Scene.eligible {j : Nat} (mem : j ∈ w.queue g) : b.eligible j = w.eligible j := by
  by_cases free : (w.valve (.tank j)).owner = none
  · obtain ⟨valve, tank⟩ := scene.free j mem free
    unfold State.eligible
    rw [scene.orders j mem, scene.live, scene.profile, valve, tank]
  · have taken (s : State) (owned : (s.valve (.tank j)).owner ≠ none) : s.eligible j = false :=
      Bool.eq_false_iff.2 fun eligible => owned (order_and_owner_of_eligible eligible).2
    rw [taken w free, taken b (scene.owned j mem free)]

theorem Scene.sameStart : SameStart g k w b := by
  refine ⟨scene.clock, scene.state, scene.rundown, scene.pump, scene.done,
    ⟨scene.queue, fun j mem => scene.eligible mem, scene.orders, fun j mem => ?_⟩, scene.own, scene.line, scene.valve,
    fun n taken => (scene.free n (mem_queue_of_taken taken) (order_and_owner_of_eligible (eligible_of_taken taken)).2).1⟩
  rw [metInQueue_eq, metInQueue_eq, scene.orders j mem, scene.masses j mem]

/-- The order completed in both. -/
theorem Scene.completedAt (there : w.grouped g) (there' : b.grouped g) (c : Completion) :
    Scene g k (w.completedAt g k c) (b.completedAt g k c) := by
  have station (s : State) (here : s.grouped g) : (s.completedAt g k c).station g = { s.station g with doneFlag := true } :=
    station_updStation_self (s := s.updOrder k (Order.complete c)) here _
  refine ⟨scene.clock, scene.profile, scene.live, scene.state, scene.queue, ?_, fun j mem => ?_, scene.masses, fun v mem => ?_, ?_,
    fun j mem free => ?_, fun j mem owned => ?_, by rw [station w there, station b there']; exact scene.rundown,
    by rw [station w there, station b there']; exact scene.pump, by rw [station w there, station b there']⟩
  · rw [completedAt_order, completedAt_order, scene.own]
  · rw [completedAt_order, completedAt_order, scene.orders j mem]
  · rw [valve_completedAt, valve_completedAt]
    exact scene.line v mem
  · rw [valve_completedAt, valve_completedAt]
    exact scene.valve
  · rw [valve_completedAt] at free ⊢
    rw [valve_completedAt]
    exact scene.free j mem free
  · rw [valve_completedAt] at owned ⊢
    exact scene.owned j mem owned

/-- The order back at the head of its queue in both. -/
theorem Scene.returnedAt (there : w.grouped g) (there' : b.grouped g) (mass : (b.tank k).current = (w.tank k).current)
    (owned : (w.valve (.tank k)).owner ≠ none) (c : HoldCause) : Scene g k (w.returnedAt g k c) (b.returnedAt g k c) := by
  have station (s : State) (here : s.grouped g) : (s.returnedAt g k c).station g = { s.station g with holdFlag := true } :=
    station_updStation_self (s := (s.updOrder k (Order.back c)).setQueue g (k :: s.queue g))
      ((setQueue_frame g (k :: s.queue g) (s.updOrder k (Order.back c))).grouped here) _
  have queue (s : State) (here : s.grouped g) : (s.returnedAt g k c).queue g = k :: s.queue g :=
    queue_setQueue_self (s := s.updOrder k (Order.back c)) here _
  have valve := scene.valve
  refine ⟨scene.clock, scene.profile, scene.live, scene.state, by rw [queue w there, queue b there', scene.queue], ?_,
    fun j mem => ?_, fun j mem => ?_, fun v mem => ?_, ?_,
    fun j mem free => ?_, fun j mem owns => ?_, by rw [station w there, station b there']; exact scene.rundown,
    by rw [station w there, station b there']; exact scene.pump, by rw [station w there, station b there']; exact scene.done⟩
  · rw [returnedAt_order, returnedAt_order, scene.own]
  · rw [returnedAt_order, returnedAt_order]
    obtain rfl | mem := List.mem_cons.1 (queue w there ▸ mem)
    · rw [scene.own]
    · rw [scene.orders j mem]
  · obtain rfl | mem := List.mem_cons.1 (queue w there ▸ mem)
    · exact mass
    · exact scene.masses j mem
  · rw [valve_returnedAt, valve_returnedAt]
    exact scene.line v mem
  · rw [valve_returnedAt, valve_returnedAt]
    exact scene.valve
  · rw [valve_returnedAt] at free ⊢
    rw [valve_returnedAt]
    obtain rfl | mem := List.mem_cons.1 (queue w there ▸ mem)
    · exact absurd free owned
    · exact scene.free j mem free
  · rw [valve_returnedAt] at owns ⊢
    obtain rfl | mem := List.mem_cons.1 (queue w there ▸ mem)
    · rw [scene.valve]
      exact owns
    · exact scene.owned j mem owns

end Scene

/-- Orders, queues, stations and valves are those of `w`, and of the tanks at most that of the order differs. -/
theorem Scene.of_ballast {g k : Nat} {w b : State} (sound : w.Sound) (active : (w.station g).active = some k) (clock : b.clock = w.clock)
    (profile : b.startUp.profile = w.startUp.profile) (live : b.engine.live = w.engine.live) (state : b.ballast.state = w.ballast.state)
    (queue : b.queue g = w.queue g) (orders : ∀ j, b.order j = w.order j) (valves : ∀ v, b.valve v = w.valve v)
    (tanks : ∀ j, j ≠ k → b.tank j = w.tank j) (rundown : (b.station g).rundown = (w.station g).rundown)
    (pump : (b.station g).pumpCommanded = (w.station g).pumpCommanded) (done : (b.station g).doneFlag = (w.station g).doneFlag) :
    Scene g k w b := by
  have other {j : Nat} (mem : j ∈ w.queue g) : b.tank j = w.tank j :=
    tanks j fun same => not_queued_of_active sound active g (same ▸ mem)
  exact ⟨clock, profile, live, state, queue, orders k, fun j _ => orders j, fun j mem => by rw [other mem], fun v _ => valves v, valves _,
    fun j mem _ => ⟨valves _, other mem⟩, fun j _ owned => by rw [valves]; exact owned, rundown, pump, done⟩

/-- Other stations leave a station its scene. -/
theorem Elsewhere.scene {g k : Nat} {w y : State} (since : Elsewhere g w y) (sound : w.Sound)
    (active : (w.station g).active = some k) : Scene g k y w := by
  obtain ⟨o, here, -, group⟩ := sound.filed.runs g k active
  have clock : y.clock = w.clock := by rw [since.frame.rest]
  have live : y.engine.live = w.engine.live := by rw [since.frame.rest]
  have tank (j : Nat) : y.tank j = w.tank j := congrArg (fun l => (nth1 l j).getD default) since.frame.tanks
  have free {j : Nat} (mem : j ∈ y.queue g) (free : (w.valve (.tank j)).owner = none) : y.valve (.tank j) = w.valve (.tank j) :=
    since.free j (since.queue ▸ mem) free
  refine ⟨clock.symm, by rw [since.frame.startUp], live.symm, since.state.symm, since.queue.symm,
    here.trans (since.orders k o here group).symm, fun j mem => ?_, fun j _ => by rw [tank], fun v line => (since.line v line).symm,
    (since.tanks k (owner_of_active sound active)).symm, fun j mem owner => ⟨(free mem ?_).symm, (tank j).symm⟩,
    fun j mem owned unowned => ?_, by rw [since.station], by rw [since.station], by rw [since.station]⟩
  · obtain ⟨o', here', -, group'⟩ := sound.filed.queued g j (since.queue ▸ mem)
    rw [here', since.orders j o' here' group']
  · refine Option.eq_none_iff_forall_ne_some.2 fun h was => ?_
    rw [since.owners j h was] at owner
    exact absurd owner (by simp)
  · rw [free mem unowned] at owned
    exact owned unowned

end Sys2Proof.Machine
end

