-- ==== Sys2Proof/Proofs/PumpSoundings.lean ====
section
/-! PROOFS. O57: a sounding and a PUT of a tank whose order is pumped (spec 06 R101, R106, R107). -/

namespace Sys2Proof.Machine

section Scene

variable {s u t : State} {g k : Nat} {o : Order} (sound : u.Sound) (active : (u.station g).active = some k) (scene : Scene g k u s)
  (there : s.grouped g) (here : s.order k = some o)
include sound active scene there here

/-- An order completed in `u`, told from the state `s`. -/
theorem completed_from (since : Elsewhere g (u.completeOrder g .met) t) :
    let completed := s.withOrder g k (o.complete .met) (s.queue g) { s.station g with doneFlag := true }
    t.order k = completed.order k ∧ (t.station g).doneFlag = true ∧ completed.handsOver t g k := by
  have there' := sound.founded.grouped (counted_of_active sound.founded active)
  obtain ⟨done, order, hands⟩ := completeOrder_stands sound active (scene.own ▸ here) .met since
  dsimp only
  rw [← completedAt_eq_withOrder there here]
  refine ⟨?_, done, handsOver_congr (scene.completedAt there' there .met).sameStart hands⟩
  rw [order, completedAt_order, if_pos rfl, here]
  rfl

/-- An order given back in `u`, told from the state `s`. -/
theorem returned_from {c : HoldCause} (mass : (s.tank k).current = (u.tank k).current) (unmet : o.target < (s.tank k).current)
    (since : Elsewhere g (u.interrupt g c) t) :
    (t.station g).holdFlag = true ∧ t.order k = some { o with state := .queued, holdCause := some c } ∧ (t.queue g).head? = some k ∧
      (s.withOrder g k { o with state := .queued, holdCause := some c } (k :: s.queue g)
        { s.station g with holdFlag := true }).handsOver t g k := by
  have there' := sound.founded.grouped (counted_of_active sound.founded active)
  obtain ⟨hold, head, order, hands⟩ := interrupt_stands sound active (scene.own ▸ here) c (mass ▸ unmet) since
  have owned : (u.valve (.tank k)).owner ≠ none := by
    rw [owner_of_active sound active]
    exact Option.some_ne_none g
  have hands' := handsOver_congr (scene.returnedAt there' there mass owned c).sameStart hands
  rw [returnedAt_eq_withOrder there here] at hands'
  exact ⟨hold, order, head, hands'⟩

end Scene

section Pumping

variable {w : State} {g k : Nat} {o : Order} (sound : w.Sound) (active : (w.station g).active = some k)
include sound active

theorem runnersOf_of_active : w.runnersOf k = [g] := by
  obtain ⟨o, here, runs, group⟩ := sound.filed.runs g k active
  rw [sound.runnersOf here runs, group]

variable (here : w.order k = some o) (pumps : (w.station g).state.pumping = true)
include here pumps

omit sound active in
/-- The completion check of the station that pumps the tank. -/
theorem completionCheck_eq : w.completionCheck g k = if (w.tank k).current ≤ o.target then w.completeOrder g .met else w := by
  have met := targetMet_iff here
  unfold State.completionCheck
  by_cases reached : (w.tank k).current ≤ o.target
  · rw [if_pos reached, if_pos ⟨pumps, met.2 reached⟩]
  · rw [if_neg reached, if_neg fun both => reached (met.1 both.2)]

theorem ballastPutMass_eq : w.ballastPutMass k = if (w.tank k).current ≤ o.target then w.completeOrder g .met else w := by
  rw [State.ballastPutMass, runnersOf_of_active sound active]
  exact completionCheck_eq here pumps

end Pumping

/-! ### The estimator and the watch -/

/-- The record of a station once a mass has been fed to its estimator and its dry-run watch (R101). -/
def Station.fed (window : Nat) (now : Second) (mass : Nat) (x : Station) : Station :=
  { x with
    estimator := x.estimator.arrive true window now mass
    lowSince := if x.estimator.measures window now then
      if x.minRate ≤ (x.estimator.arrive true window now mass).estimate then none else some (x.lowSince.getD now)
    else x.lowSince }

theorem feedStation_eq {w : State} {g : Nat} (there : w.grouped g) (pumps : (w.station g).state.pumping = true) (mass : Nat) :
    w.feedStation g mass = w.updStation g (Station.fed w.settings.rateWindow w.clock mass) := by
  have at_ := nth1_eq_some_getD (default : Station) (l := w.ballast.stations) ⟨there.1, there.2.2⟩
  have recorded {f f' : Station → Station} (same : f (w.station g) = f' (w.station g)) : w.updStation g f = w.updStation g f' :=
    congrArg (fun l => { w with ballast := { w.ballast with stations := l } }) (modify1_congr at_ same)
  have twice (f f' : Station → Station) : (w.updStation g f).updStation g f' = w.updStation g (f' ∘ f) :=
    congrArg (fun l => { w with ballast := { w.ballast with stations := l } }) (modify1_modify1 _ _ _ _)
  unfold State.feedStation
  dsimp only
  rw [if_pos pumps]
  split
  · rename_i measures
    refine (twice _ _).trans (recorded ?_)
    rw [Station.fed, if_pos measures]
    dsimp only [Function.comp]
    split <;> rfl
  · rename_i early
    refine recorded ?_
    rw [Station.fed, if_neg early]

theorem measures_iff {e : Estimator} {window : Nat} {now : Second} : e.measures window now = true ↔
    ∃ start first, e.window = some (start, first) ∧ window ≤ elapsed start now := by
  unfold Estimator.measures
  cases e.window with
  | none => simp
  | some x =>
    obtain ⟨start, first⟩ := x
    simp

/-- What the watch makes of a mass, as the statement says it. -/
theorem fed_watch (x : Station) (window : Nat) (now : Second) (mass : Nat) :
    let e := x.estimator.arrive true window now mass
    let measured := ∃ start first, x.estimator.window = some (start, first) ∧ window ≤ elapsed start now
    ∃ low, x.fed window now mass = { x with estimator := e, lowSince := low } ∧ (¬measured → low = x.lowSince) ∧
      (measured → x.minRate ≤ e.estimate → low = none) ∧ (measured → e.estimate < x.minRate → low = some (x.lowSince.getD now)) := by
  refine ⟨_, rfl, fun early => if_neg fun measures => early (measures_iff.1 measures), fun measured fast => ?_, fun measured slow => ?_⟩
  · rw [if_pos (measures_iff.2 measured), if_pos fast]
  · rw [if_pos (measures_iff.2 measured), if_neg (Nat.not_le.2 slow)]

section Fed

variable {w : State} {g k : Nat} {o : Order} (sound : w.Sound) (active : (w.station g).active = some k) (here : w.order k = some o)
  (pumps : (w.station g).state.pumping = true)

/-- The state once the mass of a tank has been fed to the station that pumps it. -/
def State.fedBy (w : State) (g k : Nat) : State :=
  w.updStation g (Station.fed w.settings.rateWindow w.clock (w.tank k).current)

include sound active

theorem fedBy_station : (w.fedBy g k).station g = (w.station g).fed w.settings.rateWindow w.clock (w.tank k).current :=
  station_updStation_self (sound.founded.grouped (counted_of_active sound.founded active)) _

include pumps

theorem fedBy_sound : (w.fedBy g k).Sound := by
  rw [State.fedBy, ← feedStation_eq (sound.founded.grouped (counted_of_active sound.founded active)) pumps]
  exact sound.feedStation g _

include here

theorem ballastSounding_eq : w.ballastSounding k =
    if (w.tank k).current ≤ o.target then (w.fedBy g k).completeOrder g .met else w.fedBy g k := by
  have own := fedBy_station sound active
  rw [State.ballastSounding, runnersOf_of_active sound active]
  show (w.feedStation g (w.tank k).current).completionCheck g k = _
  rw [feedStation_eq (sound.founded.grouped (counted_of_active sound.founded active)) pumps]
  exact completionCheck_eq (w := w.fedBy g k) here (by rw [own]; exact pumps)

/-- A good sounding of a tank that is pumped, when the step has ended. -/
theorem ballastSounding_settled {s : State} (scene : Scene g k w s) (there : s.grouped g) (before : State) :
    let t := (w.ballastSounding k).settle true before
    let completed := s.withOrder g k (o.complete .met) (s.queue g) { s.station g with doneFlag := true }
    ((w.tank k).current ≤ o.target →
      t.order k = completed.order k ∧ (t.station g).doneFlag = true ∧ completed.handsOver t g k) ∧
    (o.target < (w.tank k).current →
      t.order k = some o ∧ t.station g = (w.station g).fed w.settings.rateWindow w.clock (w.tank k).current) := by
  have own := fedBy_station sound active
  have fed := fedBy_sound sound active pumps
  have active' : ((w.fedBy g k).station g).active = some k := by rw [own]; exact active
  have counted := counted_of_active sound.founded active
  have scene' : Scene g k (w.fedBy g k) s := by
    obtain ⟨clock, profile, live, state, queue, own', orders, masses, line, valve, free, owned, rundown, pump, done⟩ := scene
    have same (v : ValveId) : (w.fedBy g k).valve v = w.valve v := valve_updStation ..
    exact ⟨clock, profile, live, state, queue, own', orders, masses, fun v mem => by rw [same, line v mem], by rw [same, valve],
      fun j mem at_ => by rw [same] at at_ ⊢; exact free j mem at_, fun j mem at_ => by rw [same] at at_; exact owned j mem at_,
      by rw [own]; exact rundown, by rw [own]; exact pump, by rw [own]; exact done⟩
  dsimp only
  rw [ballastSounding_eq sound active here pumps]
  refine ⟨fun met => ?_, fun above => ?_⟩
  · rw [if_pos met]
    exact completed_from fed active' scene' there (scene.own.trans here) (completeOrder_since fed active' .met true before)
  · rw [if_neg (Nat.not_le.2 above)]
    have since := settle_elsewhere fed ((updStation_frame g _ w).counted counted) (fed.working active') true before
    exact ⟨since.orders k o here (group_of_active sound active here), since.station.trans own⟩

end Fed

end Sys2Proof.Machine
end

