-- ==== Sys2Proof/Proofs/TankAnswers.lean ====
section
/-! PROOFS. O57: what becomes of a tank, handed to the station that pumps it (spec 01 Table 1.8, spec 06 R106, R107, R113). -/

namespace Sys2Proof.Machine

theorem handBallast_steady {s : State} (steady : s.pfail = false) (c : KeptChange) (act : State → State) :
    s.handBallast c act = (act s).settle true s := if_neg (by simp [steady])

/-! ### A sounding -/

theorem handSounding_marked {s : State} (ready : s.ready = true) (k : Nat) (before : Tank) : ∃ dirty owed,
    s.handSounding k before = (State.ballastSounding k { s with
      engine := { s.engine with dirty := dirty }, pours := { s.pours with computationsOwed := owed } }).settle true s := by
  refine ⟨_, _, congrArg (fun u => (State.ballastSounding k u).settle true s) (massMarks_eq ready
    (decide ((s.tank k).current ≠ before.current))
    (decide ((s.tank k).current ≠ before.current) || decide (before.status = SoundingStatus.stale)))⟩

theorem handTankPut_differs {s : State} {k : Nat} {before : Tank} (ready : s.ready = true) (differs : (s.tank k).current ≠ before.current) :
    ∃ dirty owed, s.handTankPut k before = (State.ballastPutMass k { s with
      engine := { s.engine with dirty := dirty }, pours := { s.pours with computationsOwed := owed } }).settle true s := by
  refine ⟨s.engine.dirty || true, s.pours.computationsOwed + true.toNat, ?_⟩
  rw [← massMarks_eq ready true true]
  simp [State.handTankPut, differs]

section Tank

variable {s : State} {g k : Nat} {o : Order} (sound : s.Sound) (ready : s.ready = true) (there : s.grouped g)
  (stands : nth1 s.tanks k = some (s.tank k)) (active : (s.station g).active = some k) (here : s.order k = some o)
  (pumps : (s.station g).state.pumping = true)

/-- A tank changed, with what other blocks than the Ballast Sequencer have of the change. -/
theorem scene_of_tank {w b : State} {x y : Tank} (tanks : w.tanks = modify1 s.tanks k fun _ => x)
    (tanks' : b.tanks = s.tanks ∨ b.tanks = modify1 s.tanks k fun _ => y)
    (ballast : w.ballast = s.ballast) (ballast' : b.ballast = s.ballast) (clock : b.clock = w.clock)
    (profile : b.startUp.profile = w.startUp.profile) (live : b.engine.live = w.engine.live) (sound : w.Sound)
    (active : (w.station g).active = some k) : Scene g k w b := by
  have station (h : Nat) : b.station h = w.station h := by rw [State.station, State.station, ballast, ballast']
  refine Scene.of_ballast sound active clock profile live (by rw [ballast, ballast']) (by rw [State.queue, State.queue, ballast, ballast'])
    (fun j => by rw [State.order, State.order, ballast, ballast']) (fun v => ?_) (fun j other => ?_) (by rw [station]) (by rw [station])
    (by rw [station])
  · cases v <;> simp only [State.valve, ballast, ballast']
  · have mine : w.tank j = s.tank j := by
      rw [State.tank, tanks]
      exact getD_nth1_modify1_ne other _ _
    rw [mine]
    obtain same | changed := tanks'
    · rw [State.tank, same]; rfl
    · rw [State.tank, changed]
      exact getD_nth1_modify1_ne other _ _

include sound ready there stands active here pumps

theorem goodSounding_answered (reading : Nat) :
    let m := (massAt (s.tankData k) (s.tank k).density (levelOf (s.tankData k) reading)).1
    let t := s.heardField.goodSounding k reading
    let completed := s.withOrder g k (o.complete .met) (s.queue g) { s.station g with doneFlag := true }
    (m ≤ o.target → t.order k = completed.order k ∧ (t.station g).doneFlag = true ∧ completed.handsOver t g k) ∧
    (o.target < m → t.order k = some o ∧ t.station g = (s.station g).fed s.settings.rateWindow s.clock m) := by
  let y := (s.tank k).sounded (s.tankData k) s.clock reading
  let v : State := { s.heardField with tanks := modify1 s.tanks k fun _ => y }
  have stored : s.heardField.updTank k (·.sounded (s.tankData k) s.clock reading) = v := updTank_eq (s := s.heardField) stands _
  obtain ⟨dirty, owed, handed⟩ := handSounding_marked (s := v) ready k (s.tank k)
  have sounds : s.heardField.goodSounding k reading = v.handSounding k (s.tank k) := by rw [← stored]; rfl
  let w : State := { v with engine := { v.engine with dirty := dirty }, pours := { v.pours with computationsOwed := owed } }
  have tank : w.tank k = y := tank_of_modify1 (f := fun _ => y) stands rfl
  have fresh : w.Sound := by
    have moved : v.Sound := stored ▸ (updTank_sameWork (k := k) (f := (·.sounded (s.tankData k) s.clock reading)) s.heardField
      fun _ _ => rfl).sound (sound.of_eq rfl rfl rfl rfl)
    exact moved.of_eq rfl rfl rfl rfl
  have scene : Scene g k w s := scene_of_tank (x := y) (y := y) rfl (.inl rfl) rfl rfl rfl rfl rfl fresh active
  have settled := ballastSounding_settled fresh active here pumps scene there v
  rw [tank] at settled
  dsimp only
  rw [sounds, handed]
  exact settled

/-! ### A PUT -/

omit sound in
/-- A tank whose mass a PUT has changed. -/
theorem changedMass_answered {y : Tank} (moved : (s.updTank k fun _ => y).Sound) (differs : y.current ≠ (s.tank k).current) :
    let t := (s.updTank k fun _ => y).handTankPut k (s.tank k)
    let completed := s.withOrder g k (o.complete .met) (s.queue g) { s.station g with doneFlag := true }
    (y.current ≤ o.target → t.order k = completed.order k ∧ (t.station g).doneFlag = true ∧ completed.handsOver t g k) ∧
      (o.target < y.current → t.order k = some o ∧ t.station g = s.station g) := by
  let v := s.updTank k fun _ => y
  have tank : v.tank k = y := tank_of_modify1 (f := fun _ => y) stands rfl
  obtain ⟨dirty, owed, handed⟩ := handTankPut_differs (s := v) (before := s.tank k) ready (by rw [tank]; exact differs)
  let w : State := { v with engine := { v.engine with dirty := dirty }, pours := { v.pours with computationsOwed := owed } }
  have sound' : w.Sound := moved.of_eq rfl rfl rfl rfl
  have scene : Scene g k w s := scene_of_tank (x := y) (y := y) rfl (.inl rfl) rfl rfl rfl rfl rfl sound' active
  have told := ballastPutMass_eq sound' active here pumps
  rw [show w.tank k = y from tank] at told
  dsimp only
  rw [handed, told]
  refine ⟨fun met => ?_, fun above => ?_⟩
  · rw [if_pos met]
    exact completed_from sound' active scene there here (completeOrder_since sound' active .met true v)
  · rw [if_neg (Nat.not_le.2 above)]
    have since := settle_elsewhere sound' (counted_of_active sound'.founded active) (sound'.working active) true v
    exact ⟨since.orders k o here (group_of_active sound' active here), since.station⟩

theorem densityPut_answered {ps : List Pair} {v : Int} {level : Nat} (only : ∀ p ∈ ps, p.ident = fieldId 10 0)
    (density : intAt ps 10 0 = some v) (last : (s.tank k).lastLevel = some level) :
    let m := (massAt (s.tankData k) (max 9500 (min 10600 v)).toNat level).1
    let completed := s.withOrder g k (o.complete .met) (s.queue g) { s.station g with doneFlag := true }
    ∃ payload t, s.putTank k ps = ⟨.done, payload, t⟩ ∧
      (m ≠ (s.tank k).current → m ≤ o.target →
        t.order k = completed.order k ∧ (t.station g).doneFlag = true ∧ completed.handsOver t g k) ∧
      (m = (s.tank k).current ∨ o.target < m → t.order k = some o ∧ t.station g = s.station g) := by
  have absent {row : Nat} (other : fieldId row 0 ≠ fieldId 10 0) : intAt ps row 0 = none := by
    refine Option.eq_none_iff_forall_ne_some.2 fun x named => ?_
    obtain ⟨p, mem, ident, -⟩ := intAt_eq_some.1 named
    exact other (ident.symm.trans (only p (mem_of_mem_effective mem)))
  have noLevel : intAt ps 0 0 = none := absent (by decide)
  have noStrip : intAt ps 3 0 = none := absent (by decide)
  have noGroup : intAt ps 5 0 = none := absent (by decide)
  have noRoute : intAt ps 6 0 = none := absent (by decide)
  have unrouted : ¬putRouted ps := by simp [putRouted, noGroup, noRoute]
  have free : ¬s.putBarred k ps := by simp [State.putBarred, noLevel, unrouted]
  have mode : modeStands ps (s.tank k) (s.tank k).route := .inl ⟨noRoute, rfl⟩
  have legal : s.putLegal k ps := ⟨by simp [noLevel], by simp [noStrip], by simp [noGroup], _, mode, fun routed => absurd routed unrouted⟩
  obtain ⟨payload, taken⟩ := putTank_taken (s := s) (k := k) (fun p mem => by rw [only p mem]; simp) free legal
  obtain ⟨same, -⟩ := tankPutStored_spec ready stands free legal mode
  let m := (massAt (s.tankData k) (max 9500 (min 10600 v)).toNat level).1
  let y := (s.tank k).stored (s.tankData k) ps (s.tank k).route
  have mass : y.current = m := by simp [y, m, Tank.stored, density, noLevel, last]
  have becomes : (s.tank k).afterPut (s.tankData k) ps = y :=
    afterPut_eq_stored (routeAfter_eq_some.2 mode) (alternateAfter_eq fun a named => by simp [noGroup] at named)
  have stored : s.tankPutStored k ps = (s.updTank k fun _ => y).handTankPut k (s.tank k) := by
    rw [State.tankPutStored, updTank_eq stands, becomes]
    rfl
  have differing (differs : m ≠ (s.tank k).current) := changedMass_answered ready there stands active here pumps
    ((updTank_sameWork (k := k) (f := fun _ => y) s fun x at_ => by
      rw [← becomes, Option.some.inj (at_.symm.trans stands), routing_afterPut, routeAfter_eq_elim, alternateAfter_eq_elim, noRoute, noGroup]
      rfl).sound sound) (mass.symm ▸ differs)
  rw [mass, ← stored] at differing
  refine ⟨payload, _, taken, fun differs => (differing differs).1, fun stays => ?_⟩
  by_cases equal : m = (s.tank k).current
  · rw [same (mass.trans equal) noLevel]
    exact ⟨here, rfl⟩
  · exact (differing equal).2 (stays.resolve_left equal)

end Tank

end Sys2Proof.Machine
end

