-- ==== Sys2Proof/Proofs/TankLosses.lean ====
section
/-! PROOFS. O57: a tank gone STALE or BELOW and a published set, handed to the station that pumps the tank, and the statement
(spec 06 R106, R113). -/

namespace Sys2Proof.Machine

section Pumped

variable {s : State} {g k : Nat} {o : Order} (sound : s.Sound) (ready : s.ready = true) (steady : s.pfail = false)
  (active : (s.station g).active = some k) (here : s.order k = some o) (pumps : (s.station g).state.pumping = true)

/-! ### A tank gone STALE -/

section Stands

variable (stands : nth1 s.tanks k = some (s.tank k))

include ready steady stands in
theorem staleExpires_eq (due : (s.tank k).goesStale s.settings.stale = true) :
    let w : State := { s with
      tanks := modify1 s.tanks k fun _ => (s.tank k).staled
      pours := { s.pours with computationsOwed := s.pours.computationsOwed + 1 } }
    s.staleExpires k = (w.ballastStale k).settle true w := by
  have owed := oweComputation_eq (s := { s with tanks := modify1 s.tanks k fun _ => (s.tank k).staled }) ready
  have acts : s.staleExpires k = _ := if_pos due
  intro w
  rw [acts, updTank_eq stands, owed]
  exact handBallast_steady (s := w) steady (.stale k) (State.ballastStale k)

include sound ready steady active here pumps stands in
theorem staleExpires_answered (unmet : o.target < (s.tank k).current) (due : (s.tank k).goesStale s.settings.stale = true) :
    let t := s.staleExpires k
    let stale : State := { s with tanks := modify1 s.tanks k fun x => { x with status := .stale } }
    (t.station g).holdFlag = true ∧ t.order k = some { o with state := .queued, holdCause := some .stale } ∧
      (t.queue g).head? = some k ∧ (stale.withOrder g k { o with state := .queued, holdCause := some .stale } (k :: s.queue g)
        { s.station g with holdFlag := true }).handsOver t g k := by
  have expires := staleExpires_eq ready steady stands due
  let w : State := { s with
    tanks := modify1 s.tanks k fun _ => (s.tank k).staled
    pours := { s.pours with computationsOwed := s.pours.computationsOwed + 1 } }
  let stale : State := { s with tanks := modify1 s.tanks k fun x => { x with status := .stale } }
  have moved : State.Sound { s with tanks := modify1 s.tanks k fun _ => (s.tank k).staled } :=
    updTank_eq stands Tank.staled ▸ (updTank_sameWork (k := k) (f := Tank.staled) s fun _ _ => rfl).sound sound
  have fresh : w.Sound := moved.of_eq rfl rfl rfl rfl
  have tank : w.tank k = (s.tank k).staled := tank_of_modify1 (f := fun _ => (s.tank k).staled) stands rfl
  have tank' : stale.tank k = { s.tank k with status := .stale } :=
    tank_of_modify1 (f := fun x : Tank => { x with status := .stale }) stands rfl
  have scene : Scene g k w stale := scene_of_tank (x := (s.tank k).staled) (y := { s.tank k with status := .stale }) (s := s) rfl
    (.inr (modify1_congr stands rfl)) rfl rfl rfl rfl rfl fresh active
  have told : w.ballastStale k = w.interrupt g .stale := by
    rw [State.ballastStale, runnersOf_of_active fresh active]
    exact if_pos pumps
  have there := fresh.founded.grouped (counted_of_active fresh.founded active)
  have settles : s.staleExpires k = (w.interrupt g .stale).settle true w := expires.trans (congrArg (·.settle true w) told)
  dsimp only
  rw [settles]
  exact returned_from fresh active scene there here (by rw [tank, tank']; rfl) (by rw [tank']; exact unmet)
    (interrupt_since fresh active .stale true w)

/-! ### A tank gone BELOW -/

include sound steady active here stands in
theorem settleExpires_answered (stations : s.StationsOk) (due : (s.tank k).strip.settled s.clock s.settings.settle = true) :
    let t := s.settleExpires k
    t.order k = some o ∧ ((s.station g).state = .strip → t.station g = s.station g) ∧
      ((s.station g).state = .discharge → t.station g = (s.station g).strips s.clock) := by
  let w : State := { s with tanks := modify1 s.tanks k fun _ => { s.tank k with strip := .below } }
  have written : s.updTank k ({ · with strip := .below }) = w := updTank_eq stands _
  have fresh : w.Sound := written ▸ (updTank_sameWork (k := k) (f := ({ · with strip := .below })) s fun _ _ => rfl).sound sound
  have counted := counted_of_active fresh.founded active
  have expires : s.settleExpires k = (w.ballastBelow k).settle true w := by
    have acts : s.settleExpires k = _ := if_pos due
    rw [acts, written]
    exact handBallast_steady (s := w) steady (.belowStrip k) (State.ballastBelow k)
  have told : w.ballastBelow k = if (s.station g).state = .discharge then w.enterStrip g else w := by
    rw [State.ballastBelow, runnersOf_of_active fresh active]
    rfl
  have group := group_of_active fresh active here
  dsimp only
  rw [expires, told]
  by_cases discharges : (s.station g).state = .discharge
  · have there := fresh.founded.grouped counted
    obtain ⟨-, admits⟩ := stations.here g
    simp only [Station.duty, discharges] at admits
    have full : (s.station g).pumpCommanded = .runFull := of_decide_eq_true admits
    have strips := enterStrip_eq (w := w) (g := g) (by rw [show (w.station g).pumpCommanded = _ from full]; exact PumpCommand.noConfusion)
    have own : (w.enterStrip g).station g = (s.station g).strips s.clock := by
      rw [strips]
      exact getD_nth1_modify1 ⟨there.1, there.2.2⟩ _ _
    have since := settle_elsewhere (fresh.enterStrip (g := g) (by rw [show (w.station g).state = _ from discharges]; rfl))
      ((enterStrip_frame g w).counted counted) (by rw [own]; rfl) true w
    rw [if_pos discharges]
    exact ⟨since.orders k o (by rw [strips]; exact here) group, fun strip => absurd (discharges.symm.trans strip) StationState.noConfusion,
      fun _ => since.station.trans own⟩
  · have since := settle_elsewhere fresh counted (fresh.working active) true w
    rw [if_neg discharges]
    exact ⟨since.orders k o here group, fun _ => since.station, fun discharge => absurd discharge discharges⟩

end Stands

end Pumped

end Sys2Proof.Machine
end

