-- ==== Sys2Proof/Proofs/Publications.lean ====
section
/-! PROOFS. O57: a published set, handed to every station (spec 06 R113), and the statement. -/

namespace Sys2Proof.Machine

/-- What a published set makes of one station. -/
def State.hears (r : ResultSet) (h : Nat) (s : State) : State := if s.stressActs r h then s.interrupt h .stress else s

section Hears

variable {s : State} (r : ResultSet) {g : Nat}

theorem State.Sound.hears (sound : s.Sound) (h : Nat) : (s.hears r h).Sound := guarded_keeps (sound.interrupt .stress) sound

theorem hears_elsewhere (sound : s.Sound) {h : Nat} (other : h ≠ g) : Elsewhere g s (s.hears r h) := by
  unfold State.hears
  split
  · rename_i stressed
    simp only [State.stressActs, Bool.and_eq_true, Option.any_eq_true] at stressed
    obtain ⟨-, k, active, -⟩ := stressed
    exact interrupt_elsewhere sound active other .stress
  · exact .refl g s

theorem hears_all_elsewhere (sound : s.Sound) {l : List Nat} (others : g ∉ l) :
    (l.foldl (fun s h => s.hears r h) s).Sound ∧ Elsewhere g s (l.foldl (fun s h => s.hears r h) s) :=
  foldl_keeps (P := fun t => t.Sound ∧ Elsewhere g s t)
    (fun h mem _ was => ⟨was.1.hears r h, was.2.trans (hears_elsewhere r was.1 fun same => others (same ▸ mem))⟩) ⟨sound, .refl g s⟩

/-- A station hears of the set when other stations have done what they do, and they do the rest then. -/
theorem ballastPublication_hears (sound : s.Sound) (counted : s.counted g) :
    ∃ y, y.Sound ∧ Elsewhere g s y ∧ Elsewhere g (y.hears r g) (s.ballastPublication r) := by
  obtain ⟨l, n, perm, acts⟩ := unordered_perm (fun h s => State.stressActs r h s) (fun h s => State.hears r h s) s.groupNumbers s
  have numbered : s.groupNumbers.Nodup := List.nodup_range'
  obtain ⟨l₁, l₂, rfl⟩ := List.append_of_mem (perm.mem_iff.2 (mem_groupNumbers.2 counted))
  have nodup := perm.nodup_iff.2 numbered
  obtain ⟨-, after, apart⟩ := List.nodup_append.1 nodup
  have first : g ∉ l₁ := fun mem => apart g mem g List.mem_cons_self rfl
  have last : g ∉ l₂ := (List.nodup_cons.1 after).1
  obtain ⟨sound', since⟩ := hears_all_elsewhere r (sound.draw n) first
  obtain ⟨-, since'⟩ := hears_all_elsewhere r (sound'.hears r g) last
  refine ⟨_, sound', (Elsewhere.draw g n s).trans since, ?_⟩
  have whole : s.ballastPublication r = _ := acts
  rw [whole, List.foldl_append, List.foldl_cons]
  exact since'

end Hears

/-- What a publication leaves to the Ballast Sequencer in READY. -/
theorem publish_steady {s : State} (ready : s.ready = true) (steady : s.pfail = false) (r : ResultSet) : ∃ due,
    let w : State := { s.publishing r with terminal := { s.terminal with due := due } }
    s.publish r = (w.ballastPublication r).settle true w := by
  refine ⟨((s.publishing r).draftStepTest r).terminal.due, ?_⟩
  intro w
  have tested : (s.publishing r).draftStepTest r = w := draftStepTest_frame r _
  rw [publish_eq ready, tested]
  exact handBallast_steady (s := w) steady (.publication r) (State.ballastPublication r)

section Published

variable {s : State} {g k : Nat} {o : Order} (sound : s.Sound) (ready : s.ready = true) (steady : s.pfail = false)
  (active : (s.station g).active = some k) (here : s.order k = some o) (pumps : (s.station g).state.pumping = true)
include sound ready steady active here pumps

theorem publish_answered (r : ResultSet) (unmet : o.target < (s.tank k).current) :
    let t := s.publish r
    let published : State := { s with engine := { s.engine with live := some r } }
    let worsened := s.worsened r (s.counts.holds + (k - 1)) (-1) (· = .limit)
    (worsened → (t.station g).holdFlag = true ∧ t.order k = some { o with state := .queued, holdCause := some .stress } ∧
      (t.queue g).head? = some k ∧ (published.withOrder g k { o with state := .queued, holdCause := some .stress } (k :: s.queue g)
        { s.station g with holdFlag := true }).handsOver t g k) ∧
    (¬worsened → t.order k = some o ∧ t.station g = s.station g) := by
  obtain ⟨due, publishes⟩ := publish_steady ready steady r
  let w : State := { s.publishing r with terminal := { s.terminal with due := due } }
  let published : State := { s with engine := { s.engine with live := some r } }
  have fresh : w.Sound := sound.of_eq rfl rfl rfl rfl
  have counted := counted_of_active fresh.founded active
  have there := fresh.founded.grouped counted
  have group := group_of_active fresh active here
  obtain ⟨y, sound', before, after⟩ := ballastPublication_hears r fresh counted
  have active' : (y.station g).active = some k := by rw [before.station]; exact active
  have counted' : y.counted g := counted_of_active sound'.founded active'
  have acts : y.stressActs r g = true ↔ s.worsened r (s.counts.holds + (k - 1)) (-1) (· = .limit) := by
    have startUp : y.startUp = s.startUp := before.frame.startUp
    have set : y.stressed (some r) k = stressInterrupts s.startUp.profile r k := by rw [← startUp]; rfl
    have pumps' : (y.station g).state.pumping = true := by rw [before.station]; exact pumps
    rw [← stressInterrupts_iff, ← set, State.stressActs, active', pumps']
    rfl
  have scene : Scene g k y published := by
    have told := before.scene fresh active
    exact ⟨told.clock, told.profile, told.live, told.state, told.queue, told.own, told.orders, told.masses, told.line, told.valve,
      told.free, told.owned, told.rundown, told.pump, told.done⟩
  have mass : (y.tank k).current = (s.tank k).current := congrArg (fun l => ((nth1 l k).getD default).current) before.frame.tanks
  have settled (z : State) (heard : y.hears r g = z) (works : (z.station g).state.working = true) : Elsewhere g z (s.publish r) := by
    have frame : BallastFrame w (w.ballastPublication r) := ballastPublication_frame r w
    rw [heard] at after
    rw [publishes]
    exact after.trans (settle_elsewhere (fresh.ballastPublication r) (frame.counted counted) (by rw [after.station]; exact works) true w)
  refine ⟨fun worsened => ?_, fun calm => ?_⟩
  · have heard : y.hears r g = y.interrupt g .stress := if_pos (acts.2 worsened)
    exact returned_from sound' active' scene there here mass.symm unmet
      (settled _ heard (interrupt_parted sound' active' .stress).working)
  · have heard : y.hears r g = y := if_neg fun stressed => calm (acts.1 stressed)
    have since := settled y heard (sound'.working active')
    exact ⟨since.orders k o (before.orders k o here group) group, since.station.trans before.station⟩

end Published

/-- Settles O57: what a pumping station makes of a sounding, a PUT, a STALE tank, a published set and a tank gone BELOW. -/
theorem pumpingStationsAnswerTheirTank : Obligations.PumpingStationsAnswerTheirTank := by
  intro s g k o ready steady records stations orders group tank pumping active here
  have sound := sound_of_ordersOk (phase_of_ready ready) records stations orders
  have there := sound.founded.grouped (counted_of_active sound.founded active)
  have stands := nth1_tank ready records tank
  have pumps : (s.station g).state.pumping = true := by
    obtain discharges | strips := pumping
    · rw [discharges]; rfl
    · rw [strips]; rfl
  refine ⟨fun n reading up named => ?_, fun h ps v level idle count code named only density last => ?_, fun unmet fresh old => ?_,
    fun snap unmet taken => ?_, fun start settling due => ?_⟩
  · obtain ⟨met, above⟩ := goodSounding_answered sound ready there stands active here pumps reading.toNat
    subst named
    refine ⟨_, (exec_sounding_ready up ready n true reading).trans (congrArg Host.Outcome.next ((if_pos tank).trans (if_pos rfl))),
      met, fun beyond => ?_⟩
    obtain ⟨order, station⟩ := above beyond
    rw [station]
    exact ⟨order, fed_watch _ _ _ _⟩
  · subst named
    obtain ⟨payload, t, answer, met, above⟩ := densityPut_answered sound ready there stands active here pumps only density last
    have put := exec_put (x := .tank) idle ready (by rw [code]; decide) rfl tank ((if_pos count).trans answer)
    refine ⟨_, put, fun differs reached => ?_, above⟩
    obtain ⟨order, done, hands⟩ := met differs reached
    exact ⟨order, done, handsOver_replied hands _ _ _ _⟩
  · exact ⟨_, exec_staleExpiry tank, staleExpires_answered sound ready steady active here pumps stands unmet
      (by simp [Tank.goesStale, fresh, old])⟩
  · let r := evaluate s.hull snap (nextGeneration s.generation)
    obtain ⟨⟨engine, -⟩, -⟩ := publish_spec ready r
    exact ⟨_, r, exec_livePassEnd ready taken, by rw [engine]; rfl, publish_answered sound ready steady active here pumps r unmet⟩
  · exact ⟨_, exec_stripSettleExpiry tank, settleExpires_answered sound steady active here stands stations
      (by simp [StripState.settled, settling, due])⟩

end Sys2Proof.Machine
end

