-- ==== Sys2Proof/Proofs/ValveReports.lean ====
section
/-! PROOFS. O58: a VALVE POSITION report taken, and a valve that departs or times out (spec 06 R94 to R96, R110, R111, spec 12 R172). -/

namespace Sys2Proof.Machine

/-! ### The report taken -/

theorem exec_valvePosition_ready {s : State} (up : s.linkUp = true) (ready : s.ready = true) (key : Octet) (c : PositionReport) :
    exec (.valvePosition key c) s = .next (if (valveOfKey key.toNat).any s.hasValve then
      match valveOfKey key.toNat with
      | some v => (s.heardField.valveReport v (PositionReport.reported c)).settle false s.heardField
      | none => s.heardField
    else s.heardField) :=
  congrArg Host.Outcome.next (takeField_ready up ready)

theorem exec_valvePosition_unnamed {s : State} (up : s.linkUp = true) (ready : s.ready = true) {key : Octet} (c : PositionReport)
    (unnamed : ∀ v, valveOfKey key.toNat = some v → s.hasValve v = false) : exec (.valvePosition key c) s = .next s.heardField := by
  refine (exec_valvePosition_ready up ready key c).trans (congrArg Host.Outcome.next (if_neg ?_))
  cases named : valveOfKey key.toNat with
  | none => exact Bool.false_ne_true
  | some v =>
    show ¬s.hasValve v = true
    rw [unnamed v named]
    exact Bool.false_ne_true

theorem exec_valvePosition_named {s : State} (up : s.linkUp = true) (ready : s.ready = true) {key : Octet} (c : PositionReport)
    {v : ValveId} (named : valveOfKey key.toNat = some v) (there : s.hasValve v = true) : exec (.valvePosition key c) s =
      .next ((s.heardField.valveReport v (PositionReport.reported c)).settle false s.heardField) := by
  refine (exec_valvePosition_ready up ready key c).trans (congrArg Host.Outcome.next ?_)
  rw [named]
  exact if_pos there

theorem linkUp_of_ready {s : State} (ready : s.ready = true) (steady : s.pfail = false) : s.linkUp = true := by
  simp only [State.ready, Bool.and_eq_true, decide_eq_true_eq] at ready
  simp [State.linkUp, ready.1, ready.2, steady]

/-- The position that a valve was commanded to. -/
theorem reported_iff {p : ValveReported} (c : ValveCommand) :
    (c = .opened ∧ p = .opened) ∨ (c = .shut ∧ p = .shut) ↔ p = c.reported := by
  cases c <;> simp [ValveCommand.reported]

theorem reported_of_names {c : PositionReport} {p : ValveReported} (names : (c, p) ∈ [(PositionReport.shut, ValveReported.shut),
    (.opened, .opened), (.moving, .moving), (.fault, .fault)]) : p = PositionReport.reported c := by
  simp only [List.mem_cons, Prod.mk.injEq, List.not_mem_nil, or_false] at names
  obtain ⟨rfl, rfl⟩ | ⟨rfl, rfl⟩ | ⟨rfl, rfl⟩ | ⟨rfl, rfl⟩ := names <;> rfl

/-! ### What commands and looks leave of a valve's report -/

/-- A valve keeps its reported position, and unconfirmed it stays so. -/
def Valve.heeds (x y : Valve) : Prop := y.reported = x.reported ∧ (x.confirmed = false → y.confirmed = false)

theorem Valve.heeds_refl (x : Valve) : x.heeds x := ⟨rfl, id⟩

theorem Valve.heeds.trans {x y z : Valve} (h : x.heeds y) (k : y.heeds z) : x.heeds z := ⟨k.1.trans h.1, k.2 ∘ h.2⟩

theorem heeds_of_eq {x y : Valve} (same : y = x) : x.heeds y := same ▸ x.heeds_refl

theorem updValve_heeds {f : Valve → Valve} (heeds : ∀ x : Valve, x.heeds (f x)) (v w : ValveId) (s : State) :
    (s.valve w).heeds ((s.updValve v f).valve w) := by
  by_cases here : w = v
  · subst here
    obtain same | changed := valve_updValve_cases s w f
    · exact heeds_of_eq same
    · rw [changed]; exact heeds _
  · exact heeds_of_eq (valve_updValve_ne here f)

theorem commandValve_heeds (v w : ValveId) (p : ValveCommand) (s : State) : (s.valve w).heeds ((s.commandValve v p).valve w) := by
  unfold State.commandValve
  split
  · exact Valve.heeds_refl _
  · rw [State.sendValve, valve_placeCommand]
    exact updValve_heeds (f := fun x => { x with
      commanded := p, confirmed := false, deadline := some (later s.clock (s.classTimeout v)) }) (fun _ => ⟨rfl, fun _ => rfl⟩) v w s

theorem shutTank_heeds (k : Nat) (w : ValveId) (s : State) : (s.valve w).heeds ((s.shutTank k).valve w) := by
  have commanded := commandValve_heeds (.tank k) w .shut s
  unfold State.shutTank State.releaseIfShut
  split
  · split
    · rw [valve_updStation]
      exact commanded.trans (updValve_heeds (f := ({ · with owner := none })) (fun _ => ⟨rfl, id⟩) (.tank k) w _)
    · exact commanded
  · exact commanded

theorem shutTanks_heeds (ks : List Nat) (w : ValveId) (s : State) :
    (s.valve w).heeds ((ks.foldl (fun s k => s.shutTank k) s).valve w) :=
  foldl_keeps (P := fun t => (s.valve w).heeds (t.valve w)) (fun k _ t was => was.trans (shutTank_heeds k w t)) (Valve.heeds_refl _)

theorem trip_heeds (g : Nat) (c : TripCause) (w : ValveId) (s : State) : (s.valve w).heeds ((s.trip g c).valve w) := by
  rw [trip_eq, valve_reroute]
  refine Valve.heeds.trans ?_ (shutTanks_heeds _ w _)
  rw [valve_updStation, valve_returnOrder]
  refine Valve.heeds.trans (Valve.heeds.trans ?_ (commandValve_heeds _ w _ _)) (commandValve_heeds _ w _ _)
  rw [commandPump_stop]
  exact heeds_of_eq (by cases w <;> rfl)

theorem look_heeds (g : Nat) (w : ValveId) (s : State) : (s.valve w).heeds ((s.look g).valve w) := by
  have scanned : (s.valve w).heeds ((s.scan g).valve w) := heeds_of_eq (valve_scan g s w)
  unfold State.look
  split
  · dsimp only
    split
    · rename_i n _
      refine Valve.heeds.trans (scanned.trans ?_) (updValve_heeds (f := ({ · with owner := some g })) (fun _ => ⟨rfl, id⟩) (.tank n) w _)
      refine Valve.heeds.trans (Valve.heeds.trans ?_ (commandValve_heeds _ w _ _)) (commandValve_heeds _ w _ _)
      refine Valve.heeds.trans (heeds_of_eq ?_) (commandValve_heeds _ w _ _)
      exact valve_updStation _ _ _ _
    · exact scanned
  · exact Valve.heeds_refl _

theorem settle_heeds (all : Bool) (before : State) (w : ValveId) (s : State) :
    (s.valve w).heeds ((s.settle all before).valve w) := by
  refine settle_keeps (P := fun t => (s.valve w).heeds (t.valve w)) all before (fun was => ?_)
    (fun t n was => was.trans (heeds_of_eq (by cases w <;> rfl))) (fun g t was => was.trans (look_heeds g w t)) (Valve.heeds_refl _)
  rw [haltTest_eq_afterRest, afterRest_valve]
  exact was

/-- A tank valve that is owned is taken by no look. -/
theorem settle_owned {s : State} {k g : Nat} (owned : (s.valve (.tank k)).owner = some g) (all : Bool) (before : State) :
    (s.settle all before).valve (.tank k) = s.valve (.tank k) := by
  refine settle_keeps (P := fun t => t.valve (.tank k) = s.valve (.tank k)) all before (fun was => ?_) (fun _ _ was => was)
    (fun h t was => ?_) rfl
  · rw [haltTest_eq_afterRest, afterRest_valve]
  · rw [← was] at owned ⊢
    unfold State.look
    split
    · dsimp only
      split
      · rename_i n takes
        rw [valve_enterLineup_ne, valve_scan]
        have taken : t.taken h = some n := by
          rw [scan_eq] at takes
          by_cases there : t.staffed h
          · exact (congrArg Station.active (getD_nth1_modify1 there (t.scanner h) default)).symm.trans takes
          · have absent : ¬State.staffed (t.updStation h (t.scanner h)) h := by
              rw [State.staffed, (updStation_frame h (t.scanner h) t).lengths.2.1]
              exact there
            have none : (State.station (t.updStation h (t.scanner h)) h).active = none := by
              rw [station_of_unstaffed absent]; rfl
            exact absurd (none.symm.trans takes) (by simp)
        have free := (order_and_owner_of_eligible (eligible_of_taken taken)).2
        simp only [lineup, List.mem_cons, List.not_mem_nil, or_false, not_or]
        refine ⟨ValveId.noConfusion, ValveId.noConfusion, fun same => ?_⟩
        rw [← ValveId.tank.inj same, owned] at free
        exact absurd free (by simp)
      · exact valve_scan h t _
    · rfl

end Sys2Proof.Machine
end

