-- ==== Sys2Proof/Proofs/Departures.lean ====
section
/-! PROOFS. O58: a valve that departs or whose travel timer runs out, answered by its station (spec 06 R95, R96, R110, R111). -/

namespace Sys2Proof.Machine

/-- What a valve that fails makes of its station. -/
def State.failsStation (v : ValveId) (c : TripCause) (s : State) : State :=
  match s.stationOf v with
  | some g => s.tripWorking g c
  | none => s

/-- Where queues, owners and states of stations are those before the step, its end changes nothing. -/
theorem settle_recorded {u before : State} (settled : before.haltSettled) (state : u.ballast.state = before.ballast.state)
    (counts : u.counts = before.counts) (queues : ∀ h, u.queue h = before.queue h)
    (owners : ∀ k, (u.valve (.tank k)).owner = (before.valve (.tank k)).owner)
    (states : ∀ h, (u.station h).state = (before.station h).state) : u.settle false before = u := by
  rw [settle_eq_haltTest (fun h j mem => queues h ▸ mem) (fun j h own free => ?_) fun h on => by rw [states]; exact on]
  · refine haltTest_of_settled fun ⟨halting, rests⟩ => settled ⟨state.symm.trans halting, fun h least most => ?_⟩
    rw [← states]
    exact rests h least (by rw [counts]; exact most)
  · rw [owners, own] at free
    exact Option.some_ne_none _ free

section Failing

variable {w : State} {v : ValveId} {f : Valve → Valve} (keeps : ∀ x, (f x).owner = x.owner ∧ (f x).commanded = x.commanded)
include keeps

theorem owner_updValve (u : ValveId) : ((w.updValve v f).valve u).owner = (w.valve u).owner := by
  by_cases here : u = v
  · subst here
    obtain same | changed := valve_updValve_cases w u f
    · rw [same]
    · rw [changed, (keeps _).1]
  · rw [valve_updValve_ne here]

theorem stationOf_updValve (u : ValveId) : (w.updValve v f).stationOf u = w.stationOf u := by
  cases u with
  | tank k => exact owner_updValve keeps (.tank k)
  | suction g | overboard g => rfl

variable (ready : w.ready = true) (records : w.RecordsOk) (c : TripCause)
  (unshut : (w.valve v).confirmed = false → (f (w.valve v)).confirmed = false)
include ready records unshut

/-- A failure recorded and answered, when the step has ended. -/
theorem failsStation_settled : let u := w.updValve v f
    let t := (u.failsStation v c).settle false w
    (w.stationOf v = none → w.haltSettled → t = u) ∧ ∀ g, w.stationOf v = some g → w.hasGroup g = true →
      ((w.station g).state.working = true → t.trippedBy g c ∧ (w.OrdersOk → u.trips t g c)) ∧
      ((w.station g).state.working = false → w.haltSettled → t = if (w.station g).state = .tripped then
        u.updStation g ({ · with lastTrip := some c }) else u) := by
  have frame := updValve_frame v f w
  have owner := stationOf_updValve (w := w) (v := v) keeps v
  have station (h : Nat) : (w.updValve v f).station h = w.station h := by cases v <;> rfl
  have queue (h : Nat) : (w.updValve v f).queue h = w.queue h := by cases v <;> rfl
  have state : (w.updValve v f).ballast.state = w.ballast.state := by cases v <;> rfl
  dsimp only
  refine ⟨fun none settled => ?_, fun g own group => ?_⟩
  · rw [State.failsStation, owner, none]
    exact settle_updValve settled fun x => (keeps x).1
  · rw [State.failsStation, owner, own]
    dsimp only
    refine ⟨fun works => ?_, fun rests settled => ?_⟩
    · have trips : (w.updValve v f).tripWorking g c = (w.updValve v f).trip g c := if_pos (by rw [station]; exact works)
      have line {x : ValveId} (counted : w.hasValve x = true) := frame.valved (valved_of_hasValve ready records counted)
      rw [trips]
      exact ⟨trippedBy_settle (frame.grouped (grouped_of_hasGroup ready records group)) (line group) (line group) c, fun orders =>
        trips_settle (frame.ready.trans ready) (frame.recordsOk records)
          ((updValve_sameWork w keeps fun _ _ => unshut).ordersOk orders) ((frame.hasGroup g).trans group) (fun h => (queue h).symm)
          (fun k => (owner_updValve keeps (.tank k)).symm) (fun h _ => by rw [station]) c⟩
    · have rests' : (w.updValve v f).tripWorking g c = if (w.station g).state = .tripped then
          (w.updValve v f).updStation g ({ · with lastTrip := some c }) else w.updValve v f := by
        rw [State.tripWorking, station, if_neg (by rw [rests]; exact Bool.false_ne_true)]
      rw [rests']
      split
      · refine settle_recorded settled state frame.counts queue (fun k => ?_) fun h => ?_
        · rw [valve_updStation]
          exact owner_updValve keeps (.tank k)
        · by_cases here : h = g
          · subst here
            obtain read | read := station_updStation_cases (w.updValve v f) h ({ · with lastTrip := some c })
            · rw [read, station]
            · rw [read, station]
          · rw [station_updStation_ne here, station]
      · exact settle_updValve settled fun x => (keeps x).1

omit keeps ready records unshut in
/-- A failure keeps the valve's report, and its want of a confirmation. -/
theorem failsStation_heeds (valved : w.valved v) : (f (w.valve v)).heeds ((((w.updValve v f).failsStation v c).settle false w).valve v) := by
  have failed : (f (w.valve v)).heeds (((w.updValve v f).failsStation v c).valve v) := by
    have begun := heeds_of_eq (valve_updValve_self valved f)
    unfold State.failsStation
    split
    · unfold State.tripWorking
      split
      · exact begun.trans (trip_heeds _ _ _ _)
      · split
        · rw [valve_updStation]
          exact begun
        · exact begun
    · exact begun
  exact failed.trans (settle_heeds _ _ _ _)

end Failing

/-! ### The three reports that confirm nothing -/

section Reported

variable {w : State} {v : ValveId} {p : ValveReported} (other : p ≠ (w.valve v).commanded.reported)
include other

theorem valveReport_of_departure (confirmed : (w.valve v).confirmed = true) :
    w.valveReport v p = (w.updValve v ({ · with reported := p, confirmed := false })).failsStation v .valveLost :=
  (if_neg other).trans (if_pos confirmed)

theorem valveReport_alone (unconfirmed : (w.valve v).confirmed = false) :
    w.valveReport v p = w.updValve v ({ · with reported := p }) :=
  (if_neg other).trans (if_neg (by rw [unconfirmed]; exact Bool.false_ne_true))

end Reported

theorem exec_valveTravelTimeout {s : State} (ready : s.ready = true) (steady : s.pfail = false) {v : ValveId}
    (there : s.hasValve v = true) (due : expired (s.valve v).deadline s.clock = true) (unconfirmed : (s.valve v).confirmed = false) :
    exec (.valveTravelTimeout v) s = .next ((s.travelTimeout v).settle false s) :=
  congrArg Host.Outcome.next (if_pos ⟨by rw [State.ballastUp, ready, steady]; rfl, there, by
    rw [State.travelExpired, due, unconfirmed]; rfl⟩)

theorem exec_valveTravelTimeout_idle {s : State} {v : ValveId}
    (idle : expired (s.valve v).deadline s.clock = false ∨ (s.valve v).confirmed = true) :
    exec (.valveTravelTimeout v) s = .next s := by
  refine congrArg Host.Outcome.next (if_neg fun ⟨_, _, due⟩ => ?_)
  simp only [State.travelExpired, Bool.and_eq_true, Bool.not_eq_true'] at due
  obtain early | confirmed := idle
  · exact Bool.noConfusion (early.symm.trans due.1)
  · exact Bool.noConfusion (confirmed.symm.trans due.2)

end Sys2Proof.Machine
end

