-- ==== Sys2Proof/Proofs/Partings.lean ====
section
/-! PROOFS. What a station that gives up its order or trips leaves of its closing tanks, whatever the state it stands in (spec 06 R97,
R106 to R110). -/

namespace Sys2Proof.Machine

/-- From `x` to `y` a station has gone on from DISCHARGE, to CHANGEOVER or to TRIPPED: its closing tanks were its own before, it stands in
no phase of its line's closing, and a tank valve that nobody owned is taken by a scan alone. -/
structure GoesOn (g : Nat) (x y : State) : Prop where
  frame : BallastFrame x y
  closing : ∀ j ∈ (y.station g).closing, j ∈ (x.station g).closing ∨ (x.station g).active = some j
  state : (y.station g).state ≠ .stopping .closing
  stands : y.ballast.state = x.ballast.state
  free : x.ballast.state ≠ .running → ∀ k, (x.valve (.tank k)).owner = none → (y.valve (.tank k)).owner = none

theorem owner_shutTank {s : State} {k j : Nat} (free : (s.valve (.tank j)).owner = none) : ((s.shutTank k).valve (.tank j)).owner = none := by
  have commanded : ((s.commandValve (.tank k) .shut).valve (.tank j)).owner = (s.valve (.tank j)).owner := by
    rw [commandValve_eq_afterCommands]
    exact owner_afterCommands _ _ _ _ _
  have freed (t : State) (was : (t.valve (.tank j)).owner = none) :
      ((t.updValve (.tank k) ({ · with owner := none })).valve (.tank j)).owner = none := by
    by_cases here : ValveId.tank j = .tank k
    · rw [here]
      obtain read | read := valve_updValve_cases t (.tank k) ({ · with owner := none })
      · rw [read, ← here, was]
      · rw [read]
    · rw [valve_updValve_ne here, was]
  unfold State.shutTank State.releaseIfShut
  split
  · split
    · rw [valve_updStation]
      exact freed _ (commanded.trans free)
    · exact commanded.trans free
  · exact commanded.trans free

theorem owner_shutTanks {s : State} (ks : List Nat) {j : Nat} (free : (s.valve (.tank j)).owner = none) :
    ((ks.foldl (fun s k => s.shutTank k) s).valve (.tank j)).owner = none :=
  foldl_keeps (P := fun t => (t.valve (.tank j)).owner = none) (fun _ _ _ was => owner_shutTank was) free

theorem takesNext_record {y : State} {g : Nat} (there : y.grouped g) :
    ((y.takesNext g).station g).closing ⊆ (y.station g).closing ∧ ((y.takesNext g).station g).state ≠ .stopping .closing := by
  unfold State.takesNext
  split
  · rename_i n _
    have opened : (y.opensNext g n).station g = { y.station g with state := .changeover } :=
      ((commandValve_commanded (.tank n) .opened _).station g).trans (station_updStation_self there _)
    unfold State.changesTo
    split
    · obtain ⟨closing, inside, station⟩ := station_shutTanks ((y.opensNext g n).station g).closing (y.opensNext g n) g
      rw [station]
      rw [opened] at inside ⊢
      exact ⟨inside, StationState.noConfusion⟩
    · rw [opened]
      exact ⟨List.Subset.refl _, StationState.noConfusion⟩
  · rw [(enterRundown_spec there).1]
    exact ⟨List.Subset.refl _, fun same => StoppingPhase.noConfusion (StationState.stopping.inj same)⟩

theorem takesNext_state (g : Nat) (y : State) : (y.takesNext g).ballast.state = y.ballast.state := by
  unfold State.takesNext
  split
  · exact changesTo_state g _ y
  · rw [enterRundown_eq_afterRundown]
    rfl

/-- A station that gives up its order, that of tank `k`. -/
theorem enterChangeover_goesOn {x : State} {g k : Nat} (there : x.grouped g) :
    (∀ j ∈ ((x.enterChangeover g k).station g).closing, j ∈ (x.station g).closing ∨ j = k) ∧
      ((x.enterChangeover g k).station g).state ≠ .stopping .closing ∧ (x.enterChangeover g k).ballast.state = x.ballast.state ∧
      (x.ballast.state ≠ .running → ∀ v, (x.enterChangeover g k).valve v = x.valve v) := by
  rw [enterChangeover_eq]
  split
  · rename_i running
    have gives := scansAfter_givesUp there k
    obtain ⟨closing, state⟩ := takesNext_record (gives.frame.grouped there)
    rw [gives.closing] at closing
    refine ⟨fun j mem => ?_, state, (takesNext_state g _).trans gives.state, fun idle => absurd running idle⟩
    simpa using closing mem
  · have gives := givenUp_givesUp there k
    obtain ⟨station, -, valves, -⟩ := enterRundown_spec (gives.frame.grouped there)
    rw [station]
    refine ⟨fun j mem => ?_, fun same => StoppingPhase.noConfusion (StationState.stopping.inj same), ?_, fun _ v => ?_⟩
    · simpa [Station.runsDown, gives.closing] using mem
    · rw [enterRundown_eq_afterRundown]
      exact gives.state
    · rw [valves, gives.valves]

section Entry

variable {x : State} {g : Nat} (there : x.grouped g)
include there

theorem completeOrder_goesOn {k : Nat} (active : (x.station g).active = some k) (c : Completion) : GoesOn g x (x.completeOrder g c) := by
  have there' : (x.completedAt g k c).grouped g := (updStation_frame g _ _).grouped ((updOrder_frame k _ x).grouped there)
  have own : ((x.completedAt g k c).station g).closing = (x.station g).closing := by
    rw [State.completedAt, station_updStation_self ((updOrder_frame k _ x).grouped there)]
    rfl
  obtain ⟨closing, state, stands, valves⟩ := enterChangeover_goesOn (k := k) there'
  rw [completeOrder_eq active]
  rw [own] at closing
  refine ⟨completeOrder_eq active c ▸ completeOrder_frame g c x, fun j mem => ?_, state, stands, fun idle j free => ?_⟩
  · exact (closing j mem).imp_right fun same => by rw [same]; exact active
  · rw [valves idle, valve_completedAt, free]

theorem interrupt_goesOn {k : Nat} (active : (x.station g).active = some k) (c : HoldCause) : GoesOn g x (x.interrupt g c) := by
  have frame := (updOrder_frame k (Order.back c) x).trans (setQueue_frame g (k :: x.queue g) _)
  have there' : (x.returnedAt g k c).grouped g := (updStation_frame g _ _).grouped (frame.grouped there)
  have own : ((x.returnedAt g k c).station g).closing = (x.station g).closing := by
    rw [State.returnedAt, station_updStation_self (frame.grouped there)]
    rfl
  obtain ⟨closing, state, stands, valves⟩ := enterChangeover_goesOn (k := k) there'
  rw [interrupt_eq active]
  rw [own] at closing
  refine ⟨interrupt_eq active c ▸ interrupt_frame g c x, fun j mem => ?_, state, stands, fun idle j free => ?_⟩
  · exact (closing j mem).imp_right fun same => by rw [same]; exact active
  · rw [valves idle, valve_returnedAt, free]

theorem enterStrip_goesOn : GoesOn g x (x.enterStrip g) := by
  have frame := commandPump_frame g .runReduced x
  have station : ((x.enterStrip g).station g).closing = (x.station g).closing ∧ ((x.enterStrip g).station g).state = .strip := by
    rw [State.enterStrip, State.restartWatch, station_updStation_self ((updStation_frame g _ _).grouped (frame.grouped there)),
      station_updStation_self (frame.grouped there), (commandPump_eq there .runReduced).1]
    exact ⟨rfl, rfl⟩
  refine ⟨enterStrip_frame g x, fun j mem => .inl (station.1 ▸ mem), by rw [station.2]; exact StationState.noConfusion,
    commandPump_state g .runReduced x, fun _ j free => ?_⟩
  rw [State.enterStrip, State.restartWatch, valve_updStation, valve_updStation, (commandPump_eq there .runReduced).2.2, free]

/-- A station that enters DISCHARGE, whatever its tests find. -/
theorem enterDischarge_goesOn : GoesOn g x (x.enterDischarge g) := by
  have own : (x.discharging g).station g = (x.station g).discharges x.clock := station_updStation_self there _
  have there' : (x.discharging g).grouped g := (updStation_frame g _ x).grouped there
  have enters {y : State} (goes : GoesOn g (x.discharging g) y) : GoesOn g x y := by
    obtain ⟨frame, closing, state, stands, free⟩ := goes
    rw [own] at closing
    exact ⟨(updStation_frame g _ x).trans frame, closing, state, stands, fun idle j was => free idle j (by
      rw [State.discharging, valve_updStation]; exact was)⟩
  have stays : GoesOn g (x.discharging g) (x.discharging g) :=
    ⟨.refl _, fun j mem => .inl mem, by rw [own]; exact StationState.noConfusion, rfl, fun _ _ was => was⟩
  cases active : (x.station g).active with
  | none =>
    have none : x.enterDischarge g = x.discharging g := by
      have begun : (x.updStation g ({ · with state := .discharge, deadline := none })).restartWatch g = x.discharging g :=
        congrArg (fun l => { x with ballast := { x.ballast with stations := l } }) (modify1_modify1 _ _ _ _)
      have idle : ((x.discharging g).station g).active = Option.none := by rw [own]; exact active
      unfold State.enterDischarge
      dsimp only
      rw [begun, idle]
    rw [none]
    exact enters stays
  | some k =>
    have active' : ((x.discharging g).station g).active = some k := by rw [own]; exact active
    rw [enterDischarge_eq there active]
    refine enters ?_
    split
    · exact completeOrder_goesOn there' active' .met
    · split
      · exact interrupt_goesOn there' active' .stale
      · split
        · exact interrupt_goesOn there' active' .stress
        · split
          · exact enterStrip_goesOn there'
          · exact stays

/-- A station that trips. -/
theorem trip_goesOn (c : TripCause) : GoesOn g x (x.trip g c) := by
  obtain ⟨closing, inside, station⟩ := station_trip there c
  have stands : (x.trip g c).ballast.state = x.ballast.state := by
    have rerouted (s : State) : (s.reroute g).ballast.state = s.ballast.state := by rw [reroute_reworked]; rfl
    have returned (s : State) : (s.returnOrder g .trip).ballast.state = s.ballast.state := by rw [returnOrder_reworked]; rfl
    rw [trip_eq, rerouted, shutTanks_state]
    show ((State.commandValve _ _ _).returnOrder g .trip).ballast.state = _
    rw [returned, commandValve_state, commandValve_state, commandPump_state]
    rfl
  refine ⟨trip_frame g c x, fun j mem => ?_, by rw [station]; exact StationState.noConfusion, stands, fun _ j free => ?_⟩
  · rw [station] at mem
    have tripped := inside mem
    simpa [Station.trips] using tripped
  · rw [trip_eq, valve_reroute]
    refine owner_shutTanks _ ?_
    rw [valve_updStation, valve_returnOrder, shutLines_eq, owner_afterCommands, commandPump_stop]
    exact free

end Entry

end Sys2Proof.Machine
end

