-- ==== Sys2Proof/Proofs/Confirmations.lean ====
section
/-! PROOFS. O58: a report as commanded (spec 06 R94, R97, R104, R108, R109): what it makes of the valve, and of a station that waits for
it. -/

namespace Sys2Proof.Machine

/-! ### The report recorded -/

/-- A valve confirmed. -/
def Valve.confirms (p : ValveReported) (x : Valve) : Valve := { x with reported := p, confirmed := true, deadline := none }

/-- A report as commanded recorded. -/
def State.confirms (w : State) (v : ValveId) (p : ValveReported) : State := w.updValve v (Valve.confirms p)

theorem valveReport_confirmed {w : State} {v : ValveId} {p : ValveReported} (as : p = (w.valve v).commanded.reported) :
    w.valveReport v p = (w.confirms v p).valveConfirmed v := if_pos as

section Recorded

variable (w : State) (v : ValveId) (p : ValveReported)

theorem station_confirms (h : Nat) : (w.confirms v p).station h = w.station h := by cases v <;> rfl

theorem queue_confirms (h : Nat) : (w.confirms v p).queue h = w.queue h := by cases v <;> rfl

theorem state_confirms : (w.confirms v p).ballast.state = w.ballast.state := by cases v <;> rfl

theorem owner_confirms (u : ValveId) : ((w.confirms v p).valve u).owner = (w.valve u).owner :=
  owner_updValve (f := Valve.confirms p) (fun _ => ⟨rfl, rfl⟩) u

theorem stationOf_confirms (u : ValveId) : (w.confirms v p).stationOf u = w.stationOf u := stationOf_updValve (f := Valve.confirms p) (fun _ => ⟨rfl, rfl⟩) u

theorem confirms_frame : BallastFrame w (w.confirms v p) := updValve_frame v _ w

variable {w v}

theorem confirmedAt_confirms_ne {u : ValveId} (other : u ≠ v) (q : ValveCommand) :
    (w.confirms v p).confirmedAt u q = w.confirmedAt u q := by
  rw [State.confirmedAt, State.confirms, valve_updValve_ne other]
  rfl

theorem confirmedAt_confirms_self (valved : w.valved v) {q : ValveCommand} :
    (w.confirms v p).confirmedAt v q = true ↔ (w.valve v).commanded = q := by
  rw [State.confirmedAt, State.confirms, valve_updValve_self valved, Bool.and_eq_true, decide_eq_true_iff]
  exact and_iff_left rfl

/-- Where the valve was the last, all are confirmed. -/
theorem confirmedAt_confirms (valved : w.valved v) {u : ValveId} {q : ValveCommand} (commanded : (w.valve v).commanded = q)
    (others : u ≠ v → w.confirmedAt u q = true) : (w.confirms v p).confirmedAt u q = true := by
  by_cases here : u = v
  · rw [here]
    exact (confirmedAt_confirms_self p valved).2 commanded
  · rw [confirmedAt_confirms_ne p here]
    exact others here

end Recorded

/-! ### How the station of the valve answers -/

theorem lineupTest_of_ne {s : State} {g : Nat} (other : (s.station g).state ≠ .lineup) : s.lineupTest g = s :=
  if_neg fun both => other both.1

theorem closingTest_of_ne {s : State} {g : Nat} (other : (s.station g).state ≠ .stopping .closing) : s.closingTest g = s :=
  if_neg fun both => other both.1

theorem changeoverTest_of_ne {s : State} {g : Nat} (other : (s.station g).state ≠ .changeover) : s.changeoverTest g = s :=
  if_neg fun both => other both.1

section Answers

variable {w : State} {p : ValveReported}

theorem valveConfirmed_free {v : ValveId} (free : w.stationOf v = none) : (w.confirms v p).valveConfirmed v = w.confirms v p := by
  unfold State.valveConfirmed
  rw [stationOf_confirms, free]

theorem valveConfirmed_line {v : ValveId} {g : Nat} (line : v ∈ [ValveId.suction g, .overboard g]) :
    (w.confirms v p).valveConfirmed v = ((w.confirms v p).lineupTest g).closingTest g := by
  simp only [List.mem_cons, List.not_mem_nil, or_false] at line
  obtain rfl | rfl := line <;> rfl

/-- A report of a valve that is not the SHUT of an owned tank valve releases nothing. -/
theorem afterConfirm_of_not_released {v : ValveId} (other : ∀ k g, v = .tank k → (w.valve v).owner = some g → p ≠ .shut) :
    w.afterConfirm v p = w.confirms v p := by
  unfold State.afterConfirm
  dsimp only
  split
  · rename_i k g owned
    exact if_neg (other k g rfl owned)
  · rfl

variable {k g : Nat} (owned : (w.valve (.tank k)).owner = some g)
include owned

theorem valveConfirmed_opened (opened : (w.valve (.tank k)).commanded = .opened) : (w.confirms (.tank k) p).valveConfirmed (.tank k) =
    if (w.station g).state = .changeover ∧ (w.station g).active = some k then
      (w.station g).closing.foldl (fun s t => s.shutTank t) (w.confirms (.tank k) p)
    else (w.confirms (.tank k) p).lineupTest g := by
  have commanded : ((w.confirms (.tank k) p).valve (.tank k)).commanded = .opened := by
    rw [State.confirms, valve_updValve_self (valved_of_owned owned)]
    exact opened
  unfold State.valveConfirmed
  rw [stationOf_confirms, show w.stationOf (.tank k) = some g from owned]
  dsimp only
  rw [if_neg (by rw [commanded]; exact ValveCommand.noConfusion), station_confirms]

/-- The SHUT of an owned tank valve: it is owned no longer, and its tank is no closing tank. -/
theorem afterConfirm_shut : w.afterConfirm (.tank k) .shut = ((w.confirms (.tank k) .shut).updValve (.tank k) ({ · with owner := none })).updStation g
    fun st => { st with closing := st.closing.erase k } := by
  unfold State.afterConfirm
  dsimp only
  rw [owned]
  rfl

theorem valveConfirmed_shut (shut : (w.valve (.tank k)).commanded = .shut) : (w.confirms (.tank k) .shut).valveConfirmed (.tank k) =
    ((w.afterConfirm (.tank k) .shut).changeoverTest g).closingTest g := by
  have valve : (w.confirms (.tank k) .shut).valve (.tank k) = Valve.confirms .shut (w.valve (.tank k)) :=
    valve_updValve_self (valved_of_owned owned) _
  have released : (w.confirms (.tank k) .shut).releaseIfShut k = w.afterConfirm (.tank k) .shut := by
    rw [afterConfirm_shut owned]
    unfold State.releaseIfShut
    rw [valve]
    dsimp only [Valve.confirms]
    rw [owned]
    refine if_pos ?_
    rw [confirmedAt_confirms_self .shut (valved_of_owned owned)]
    exact shut
  unfold State.valveConfirmed
  rw [stationOf_confirms, show w.stationOf (.tank k) = some g from owned]
  dsimp only
  rw [if_pos (by rw [valve]; exact shut), released]

theorem afterConfirm_shut_frame : BallastFrame w (w.afterConfirm (.tank k) .shut) := by
  rw [afterConfirm_shut owned]
  exact ((confirms_frame w _ _).trans (updValve_frame _ _ _)).trans (updStation_frame g _ _)

theorem afterConfirm_shut_station (there : w.grouped g) :
    (w.afterConfirm (.tank k) .shut).station g = { w.station g with closing := (w.station g).closing.erase k } := by
  rw [afterConfirm_shut owned, station_updStation_self (((confirms_frame w _ _).trans (updValve_frame _ _ _)).grouped there)]
  rfl

theorem afterConfirm_shut_others {h : Nat} (other : h ≠ g) : (w.afterConfirm (.tank k) .shut).station h = w.station h := by
  rw [afterConfirm_shut owned, station_updStation_ne other]
  rfl

theorem afterConfirm_shut_valve : (w.afterConfirm (.tank k) .shut).valve (.tank k) =
    { Valve.confirms .shut (w.valve (.tank k)) with owner := none } := by
  have valved := valved_of_owned owned
  rw [afterConfirm_shut owned, valve_updStation, valve_updValve_self ((confirms_frame w _ _).valved valved)]
  rw [State.confirms, valve_updValve_self valved]

theorem afterConfirm_shut_valve_ne {v : ValveId} (other : v ≠ .tank k) : (w.afterConfirm (.tank k) .shut).valve v = w.valve v := by
  rw [afterConfirm_shut owned, valve_updStation, valve_updValve_ne other, State.confirms, valve_updValve_ne other]

theorem afterConfirm_shut_rest : (w.afterConfirm (.tank k) .shut).ballast.state = w.ballast.state ∧
    (∀ h, (w.afterConfirm (.tank k) .shut).queue h = w.queue h) ∧ ∀ j, (w.afterConfirm (.tank k) .shut).order j = w.order j := by
  rw [afterConfirm_shut owned]
  exact ⟨rfl, fun _ => rfl, fun _ => rfl⟩

end Answers

end Sys2Proof.Machine
end

