-- ==== Sys2Proof/Proofs/Waiting.lean ====
section
/-! PROOFS. O58: stations that wait for a confirmation (spec 06 R97, R104, R108, R109), whatever else the state holds. -/

namespace Sys2Proof.Machine

section Waiting

variable {w : State} {v : ValveId} {g : Nat} {p : ValveReported} (there : w.grouped g) (valved : w.valved v)
  (own : w.stationOf v = some g)

/-! ### LINEUP -/

/-- The record of a station whose line is open. -/
def Station.primes (now : Second) (x : Station) : Station :=
  { x with state := .priming, deadline := some (later now x.priming) }

/-- A station whose line is open starts its pump and primes. -/
def State.starts (c : State) (g : Nat) : State := (c.commandPump g .runFull).updStation g (Station.primes c.clock)

theorem starts_station {c : State} (there : c.grouped g) :
    (c.starts g).station g = { c.station g with
      state := .priming, pumpCommanded := .runFull, deadline := some (later c.clock (c.station g).priming) } := by
  rw [State.starts, station_updStation_self ((commandPump_frame _ _ _).grouped there), (commandPump_eq there .runFull).1]
  rfl

theorem starts_valve {c : State} (there : c.grouped g) (u : ValveId) : (c.starts g).valve u = c.valve u := by
  rw [State.starts, valve_updStation, (commandPump_eq there .runFull).2.2]

theorem lineupTest_of_open {c : State} (lined : (c.station g).state = .lineup) (opened : c.lineOpen g = true) :
    c.lineupTest g = c.starts g := if_pos ⟨lined, opened⟩

include own

/-- A valve of the station's lineup that is confirmed OPEN opens the line or not. -/
theorem valveConfirmed_lineup (lined : (w.station g).state = .lineup) (opened : (w.valve v).commanded = .opened) (there : w.grouped g) :
    (w.confirms v p).valveConfirmed v = (w.confirms v p).lineupTest g := by
  have station := station_confirms w v p g
  cases v with
  | tank k =>
    rw [valveConfirmed_opened own opened, if_neg fun both => StationState.noConfusion (lined.symm.trans both.1)]
  | suction h | overboard h =>
    obtain rfl : h = g := Option.some.inj own
    rw [valveConfirmed_line (g := h) (by simp)]
    refine closingTest_of_ne ?_
    unfold State.lineupTest
    split
    · show ((State.starts _ h).station h).state ≠ _
      rw [starts_station ((confirms_frame w _ p).grouped there)]
      exact StationState.noConfusion
    · rw [station, lined]
      exact StationState.noConfusion

include there valved in
theorem lineup_answered {k : Nat} (lined : (w.station g).state = .lineup) (active : (w.station g).active = some k)
    (mem : v ∈ [ValveId.suction g, .overboard g, .tank k]) (opened : (w.valve v).commanded = .opened)
    (others : ∀ u ∈ [ValveId.suction g, .overboard g, .tank k], u ≠ v → w.confirmedAt u .opened = true) :
    let t := ((w.confirms v p).valveConfirmed v).settle false w
    (t.station g).state = .priming ∧ (t.station g).pumpCommanded = .runFull ∧
      (t.station g).deadline = some (later w.clock (w.station g).priming) ∧ t.valve v = Valve.confirms p (w.valve v) := by
  have there' := (confirms_frame w v p).grouped there
  have station := station_confirms w v p g
  have clock : (w.confirms v p).clock = w.clock := by rw [(confirms_frame w v p).rest]
  have line {u : ValveId} (mem : u ∈ [ValveId.suction g, .overboard g, .tank k]) :=
    confirmedAt_confirms p valved opened (others u mem)
  have open_ : (w.confirms v p).lineOpen g = true := by
    rw [State.lineOpen, station, active, line (by simp), line (by simp)]
    exact line (by simp)
  dsimp only
  rw [valveConfirmed_lineup own lined opened there, lineupTest_of_open (by rw [station]; exact lined) open_]
  have starts := starts_station there'
  rw [station, clock] at starts
  have busy : (((w.confirms v p).starts g).station g).state ≠ .off := by rw [starts]; exact StationState.noConfusion
  have valve : ((w.confirms v p).starts g).valve v = Valve.confirms p (w.valve v) :=
    (starts_valve there' v).trans (valve_updValve_self valved _)
  rw [(settle_station false w _ g).stays (.inl busy), starts]
  refine ⟨rfl, rfl, rfl, ?_⟩
  cases v with
  | tank j => exact (settle_owned (g := g) (by rw [valve]; exact own) false w).trans valve
  | suction h | overboard h =>
    obtain rfl : h = g := Option.some.inj own
    exact (settle_line (.inl busy) false w (by simp)).trans valve

/-! ### CLOSING -/

include there valved in
theorem closing_answered (closes : (w.station g).state = .stopping .closing) (shut : (w.valve v).commanded = .shut)
    (mem : v ∈ [ValveId.suction g, .overboard g] ∨ ∃ k ∈ (w.station g).closing, v = .tank k) (as : p = .shut)
    (others : ∀ u ∈ [ValveId.suction g, .overboard g] ++ (w.station g).closing.map .tank, u ≠ v → w.confirmedAt u .shut = true) :
    let t := ((w.confirms v p).valveConfirmed v).settle false w
    (t.station g).state = .off ∨ (w.ballast.state = .running ∧ (t.station g).state = .lineup) := by
  subst as
  have station := station_confirms w v .shut g
  have enters {y : State} (there' : y.grouped g) (closes' : (y.station g).state = .stopping .closing) (shut' : y.lineShut g = true)
      (still : y.ballast.state = w.ballast.state) : (((y.closingTest g).settle false w).station g).state = .off ∨
        (w.ballast.state = .running ∧ (((y.closingTest g).settle false w).station g).state = .lineup) := by
    have fires : y.closingTest g = y.updStation g ({ · with state := .off }) := if_pos ⟨closes', shut'⟩
    have off : ((y.updStation g ({ · with state := .off })).station g).state = .off := by rw [station_updStation_self there']
    rw [fires]
    by_cases running : w.ballast.state = .running
    · exact ((settle_station false w _ g).enters off).imp_right fun lined => ⟨running, lined⟩
    · refine .inl ?_
      rw [settle_of_not_running false, haltTest_eq_afterRest, afterRest_station]
      · exact off
      · obtain same | halted := haltTest_eq (y.updStation g ({ · with state := .off }))
        · rw [same]
          exact still ▸ running
        · rw [halted]
          exact SequencerState.noConfusion
  dsimp only
  cases v with
  | tank k =>
    have frame := afterConfirm_shut_frame own
    have record := afterConfirm_shut_station own there
    have confirmed {u : ValveId} (at_ : u ≠ .tank k → w.confirmedAt u .shut = true) : (w.afterConfirm (.tank k) .shut).confirmedAt u .shut = true := by
      by_cases here : u = .tank k
      · rw [here, State.confirmedAt, afterConfirm_shut_valve own, Bool.and_eq_true, decide_eq_true_iff]
        exact ⟨shut, rfl⟩
      · rw [State.confirmedAt, afterConfirm_shut_valve_ne own here]
        exact at_ here
    rw [valveConfirmed_shut own shut, changeoverTest_of_ne (by rw [record]; simp [closes])]
    refine enters (frame.grouped there) (by rw [record]; exact closes) ?_ (afterConfirm_shut_rest own).1
    rw [State.lineShut, confirmed (others _ (by simp)), confirmed (others _ (by simp)), record]
    exact List.all_eq_true.2 fun j mem => confirmed (others _ (List.mem_append_right _ (List.mem_map_of_mem (List.mem_of_mem_erase mem))))
  | suction h | overboard h =>
    obtain rfl : h = g := Option.some.inj own
    rw [valveConfirmed_line (g := h) (by simp), lineupTest_of_ne (by rw [station, closes]; exact StationState.noConfusion)]
    refine enters ((confirms_frame w _ _).grouped there) (by rw [station]; exact closes) ?_ (state_confirms w _ _)
    have confirmed {u : ValveId} (mem : u ∈ [ValveId.suction h, .overboard h] ++ (w.station h).closing.map .tank) :=
      confirmedAt_confirms .shut valved shut (others u mem)
    rw [State.lineShut, confirmed (by simp), confirmed (by simp), station]
    exact List.all_eq_true.2 fun j mem => confirmed (List.mem_append_right _ (List.mem_map_of_mem mem))

end Waiting

/-! ### CHANGEOVER -/

section Owners

variable {w : State} {k g : Nat} {p : ValveReported} (there : w.grouped g) (owners : w.OwnersOk)
  (own : (w.valve (.tank k)).owner = some g)
include owners own

/-- The valve of the new tank is OPEN: those of the closing tanks are commanded SHUT. -/
theorem newOpen_eq (opened : (w.valve (.tank k)).commanded = .opened) (changes : (w.station g).state = .changeover)
    (active : (w.station g).active = some k) : (w.confirms (.tank k) p).valveConfirmed (.tank k) =
      (w.confirms (.tank k) p).afterCommands false .shut ((w.station g).closing.map .tank) := by
  obtain ⟨nodup, owner, -, unshut⟩ := owners
  have apart := nodup g
  rw [active, List.nodup_append] at apart
  obtain ⟨-, distinct, foreign⟩ := apart
  rw [valveConfirmed_opened own opened, if_pos ⟨changes, active⟩]
  refine shutTanks_eq_afterCommands distinct fun j mem => ?_
  rw [confirmedAt_confirms_ne p fun same => foreign k (by simp) j mem (ValveId.tank.inj same).symm]
  exact unshut g j ((owner g j).2 (.inr mem))

theorem newOpen_answered (opened : (w.valve (.tank k)).commanded = .opened) (changes : (w.station g).state = .changeover)
    (active : (w.station g).active = some k) {j : Nat} (mem : j ∈ (w.station g).closing) :
    ((((w.confirms (.tank k) p).valveConfirmed (.tank k)).settle false w).valve (.tank j)).commanded = .shut := by
  have owned : (w.valve (.tank j)).owner = some g := (owners.2.1 g j).2 (.inr mem)
  have owned' : (((w.confirms (.tank k) p).afterCommands false .shut ((w.station g).closing.map .tank)).valve (.tank j)).owner = some g := by
    rw [owner_afterCommands, owner_confirms, owned]
  rw [newOpen_eq owners own opened changes active, settle_owned owned',
    valve_afterCommands ((confirms_frame w _ _).valved (valved_of_owned owned)) (List.mem_map_of_mem mem)]
  exact directed_commanded _ _ _

include there

/-- An owned tank valve reported SHUT is given up for good. -/
theorem shut_released (shut : (w.valve (.tank k)).commanded = .shut) :
    let t := ((w.confirms (.tank k) .shut).valveConfirmed (.tank k)).settle false w
    k ∉ (t.station g).closing ∧ (w.ballast.state ≠ .running → (t.valve (.tank k)).owner = none) := by
  obtain ⟨nodup, owner, open_, -⟩ := owners
  let u := w.afterConfirm (.tank k) .shut
  have there' : u.grouped g := (afterConfirm_shut_frame own).grouped there
  have station : u.station g = { w.station g with closing := (w.station g).closing.erase k } := afterConfirm_shut_station own there
  have free : (u.valve (.tank k)).owner = none := by rw [afterConfirm_shut_valve own]
  have gone : k ∉ (u.station g).closing := by
    rw [station]
    exact fun mem => (List.Nodup.mem_erase_iff (List.nodup_append.1 (nodup g)).2.1).1 mem |>.1 rfl
  have inactive : (u.station g).active ≠ some k := by
    rw [station]
    exact fun active => ValveCommand.noConfusion ((open_ g k active).symm.trans shut)
  have tested : k ∉ ((u.changeoverTest g).station g).closing ∧ (u.changeoverTest g).ballast.state = w.ballast.state ∧
      (w.ballast.state ≠ .running → ((u.changeoverTest g).valve (.tank k)).owner = none) := by
    have state : u.ballast.state = w.ballast.state := (afterConfirm_shut_rest own).1
    have goesOn {y : State} (goes : GoesOn g u y) : k ∉ (y.station g).closing ∧ y.ballast.state = w.ballast.state ∧
        (w.ballast.state ≠ .running → (y.valve (.tank k)).owner = none) :=
      ⟨fun mem => (goes.closing k mem).elim gone inactive, goes.stands.trans state, fun idle => goes.free (state ▸ idle) k free⟩
    unfold State.changeoverTest
    split
    · split
      · have pump := commandPump_eq there' .runFull
        have entered := enterDischarge_goesOn ((commandPump_frame g .runFull u).grouped there')
        refine goesOn ⟨(commandPump_frame g .runFull u).trans entered.frame, fun j mem => ?_, entered.state,
          entered.stands.trans (commandPump_state g _ u), fun idle j was => entered.free (commandPump_state g _ u ▸ idle) j (by rw [pump.2.2, was])⟩
        have left := entered.closing j mem
        rwa [pump.1] at left
      · exact goesOn (trip_goesOn there' .valveLost)
    · exact ⟨gone, state, fun _ => free⟩
  obtain ⟨closing, state, owned⟩ := tested
  dsimp only
  rw [valveConfirmed_shut own shut]
  generalize u.changeoverTest g = y at closing state owned
  have closed : ((y.closingTest g).station g).closing = (y.station g).closing ∧ (y.closingTest g).valve (.tank k) = y.valve (.tank k) ∧
      (y.closingTest g).ballast.state = y.ballast.state := by
    unfold State.closingTest
    split
    · refine ⟨?_, valve_updStation _ _ _ _, rfl⟩
      obtain read | read := station_updStation_cases y g ({ · with state := .off })
      · rw [read]
      · rw [read]
    · exact ⟨rfl, rfl, rfl⟩
  obtain ⟨same, valve, stands⟩ := closed
  refine ⟨?_, fun idle => ?_⟩
  · rw [(settle_station false w _ g).fields]
    exact same ▸ closing
  · rw [settle_of_not_running false, haltTest_eq_afterRest, afterRest_valve, valve]
    · exact owned idle
    · obtain halt | halt := haltTest_eq (y.closingTest g)
      · rw [halt, stands, state]
        exact idle
      · rw [halt]
        exact SequencerState.noConfusion

end Owners

end Sys2Proof.Machine
end

