-- ==== Sys2Proof/Proofs/OldShut.lean ====
section
/-! PROOFS. O58: the valve of the old tank of a changeover reported SHUT (spec 06 R99, R106, R108, R110): the pump may run and the
station enters DISCHARGE, or it trips. -/

namespace Sys2Proof.Machine

/-- The SHUT of an owned tank valve, all at once. -/
theorem afterConfirm_shut_eq {w : State} {k g : Nat} (there : w.grouped g) (owned : (w.valve (.tank k)).owner = some g)
    (closing : (w.station g).closing = [k]) : w.afterConfirm (.tank k) .shut = (w.updValve (.tank k) fun x => { x with
      reported := .shut, confirmed := true, deadline := none, owner := none }).updStation g ({ · with closing := [] }) := by
  have valves : modify1 (modify1 w.ballast.tankValves k (Valve.confirms .shut)) k ({ · with owner := none }) =
      modify1 w.ballast.tankValves k fun x => { x with reported := .shut, confirmed := true, deadline := none, owner := none } :=
    modify1_modify1 _ _ _ _
  have stations : modify1 w.ballast.stations g (fun st : Station => { st with closing := st.closing.erase k }) =
      modify1 w.ballast.stations g ({ · with closing := [] }) := by
    refine modify1_congr (nth1_eq_some_getD default ⟨there.1, there.2.2⟩) ?_
    have read : ((nth1 w.ballast.stations g).getD default).closing = [k] := closing
    rw [read, List.erase_cons_head]
  rw [afterConfirm_shut owned]
  show ({ w with ballast := { w.ballast with tankValves := modify1 (modify1 w.ballast.tankValves k (Valve.confirms .shut)) k _, stations := modify1 w.ballast.stations g _ } } : State) = _
  rw [valves, stations]
  rfl

/-- A trip, when the step has ended and every station was told. -/
theorem trip_answered {s before : State} {g : Nat} {c : TripCause} (ready : s.ready = true)
    (whole : (s.trip g c).haltTest = s.afterTrip g c) (ranked : (s.afterTrip g c).Ranked)
    (told : ∀ h, (s.afterTrip g c).cause before false h = true) :
    (s.afterTrip g c).answered ((s.trip g c).settle false before) fun _ => True := by
  have answered := settle_answered (s := s.trip g c) (before := before) (told := fun _ => True) false
    ((trip_frame g c s).ready.trans ready) (whole ▸ ranked) fun h _ _ => by rw [whole, told h]; simp
  rwa [whole] at answered

/-- An ownership that has ended is a cause for every station. -/
theorem cause_of_released {s before : State} {k g : Nat} (counted : k ∈ before.tankNumbers)
    (owned : (before.valve (.tank k)).owner = some g) (free : (s.valve (.tank k)).owner = none) (h : Nat) :
    s.cause before false h = true := by
  have ended : ownershipEnded before s = true := List.any_eq_true.2 ⟨k, counted, by rw [owned, free]; rfl⟩
  rw [State.cause, ended, Bool.or_true, Bool.true_or]

theorem mem_tankNumbers {s : State} {k : Nat} : k ∈ s.tankNumbers ↔ 1 ≤ k ∧ k ≤ s.counts.tanks := by
  simp only [State.tankNumbers, upTo, List.mem_range'_1]
  omega

theorem tankNumbers_of_hasTank {s : State} {k : Nat} (tank : s.hasTank k = true) : k ∈ s.tankNumbers := by
  simp only [State.hasTank, Bool.and_eq_true, decide_eq_true_eq] at tank
  exact mem_tankNumbers.2 tank.2

section OldShut

variable {w : State} {g k n : Nat} (ready : w.ready = true) (records : w.RecordsOk) (group : w.hasGroup g = true)
  (tank : w.hasTank k = true) (own : (w.valve (.tank k)).owner = some g) (owners : w.OwnersOk)
  (closing : (w.station g).closing = [k]) (active : (w.station g).active = some n)
include ready records group own owners closing active

omit ready records group own in
theorem new_ne_old : n ≠ k := by
  have apart := owners.1 g
  rw [active, closing] at apart
  simpa using apart

omit ready records group owners active in
theorem oldShut_station (there : w.grouped g) : (w.afterConfirm (.tank k) .shut).station g = { w.station g with closing := [] } := by
  rw [afterConfirm_shut_station own there, closing, List.erase_cons_head]

omit group in
/-- The pump may run where the line and the new tank stand open: the old tank is the station's no longer. -/
theorem mayPump_iff : (w.afterConfirm (.tank k) .shut).mayPump g = true ↔ w.confirmedAt (.suction g) .opened = true ∧
    w.confirmedAt (.overboard g) .opened = true ∧ w.confirmedAt (.tank n) .opened = true := by
  have other := new_ne_old owners closing active
  have same {v : ValveId} (ne : v ≠ .tank k) : (w.afterConfirm (.tank k) .shut).confirmedAt v .opened = w.confirmedAt v .opened := by
    rw [State.confirmedAt, afterConfirm_shut_valve_ne own ne]
    rfl
  have owned : (w.valve (.tank n)).owner = some g := (owners.2.1 g n).2 (.inl active)
  have counts : (w.afterConfirm (.tank k) .shut).tankNumbers = w.tankNumbers :=
    congrArg upTo (congrArg Counts.tanks (afterConfirm_shut_frame own).counts)
  have any : ((w.afterConfirm (.tank k) .shut).ownedTanks g).any (fun t => (w.afterConfirm (.tank k) .shut).confirmedAt (.tank t) .opened) = true ↔
      w.confirmedAt (.tank n) .opened = true := by
    rw [List.any_eq_true]
    refine ⟨fun ⟨j, mem, opened⟩ => ?_, fun opened => ⟨n, List.mem_filter.2 ⟨?_, ?_⟩, ?_⟩⟩
    · have own' := of_decide_eq_true (List.mem_filter.1 mem).2
      have ne : j ≠ k := by
        rintro rfl
        rw [afterConfirm_shut_valve own] at own'
        exact absurd own' (by simp)
      have ne' : ValveId.tank j ≠ .tank k := fun same => ne (ValveId.tank.inj same)
      rw [afterConfirm_shut_valve_ne own ne'] at own'
      rw [same ne'] at opened
      obtain runs | closes := (owners.2.1 g j).1 own'
      · rwa [Option.some.inj (active.symm.trans runs)]
      · rw [closing, List.mem_singleton] at closes
        exact absurd closes ne
    · obtain ⟨-, -, -, shape⟩ := records.fits ready
      simp only [Sequencer.shape, List.cons.injEq, and_true] at shape
      have valved : 1 ≤ n ∧ n ≤ w.ballast.tankValves.length := valved_of_owned owned
      rw [counts]
      exact mem_tankNumbers.2 ⟨valved.1, by omega⟩
    · rw [afterConfirm_shut_valve_ne own fun same => other (ValveId.tank.inj same), owned]
      exact decide_eq_true rfl
    · rw [same fun same => other (ValveId.tank.inj same)]
      exact opened
  rw [State.mayPump, Bool.and_eq_true, Bool.and_eq_true, any, same (by simp), same (by simp), and_assoc]

variable (changes : (w.station g).state = .changeover) (shut : (w.valve (.tank k)).commanded = .shut)
include changes shut

/-- The station enters DISCHARGE, its pump at RUN FULL, where the line is open, and trips where it is not. -/
theorem oldShut_eq : (w.confirms (.tank k) .shut).valveConfirmed (.tank k) =
    if w.confirmedAt (.suction g) .opened = true ∧ w.confirmedAt (.overboard g) .opened = true ∧ w.confirmedAt (.tank n) .opened = true then
      ((w.afterConfirm (.tank k) .shut).commandPump g .runFull).enterDischarge g
    else (w.afterConfirm (.tank k) .shut).trip g .valveLost := by
  have there := grouped_of_hasGroup ready records group
  have there' := (afterConfirm_shut_frame own).grouped there
  have station := oldShut_station own closing there
  have may := mayPump_iff ready records own owners closing active
  have fires : (w.afterConfirm (.tank k) .shut).changeoverTest g = if (w.afterConfirm (.tank k) .shut).mayPump g then
      ((w.afterConfirm (.tank k) .shut).commandPump g .runFull).enterDischarge g
      else (w.afterConfirm (.tank k) .shut).trip g .valveLost := if_pos (by rw [station]; exact ⟨changes, rfl⟩)
  rw [valveConfirmed_shut own shut, fires]
  split
  · rename_i open_
    rw [if_pos (may.1 open_)]
    exact closingTest_of_ne (enterDischarge_goesOn ((commandPump_frame g .runFull _).grouped there')).state
  · rename_i shut_
    rw [if_neg fun open_ => shut_ (may.2 open_)]
    exact closingTest_of_ne (trip_goesOn there' .valveLost).state

include tank

/-- The line is not open: the station trips. -/
theorem oldShut_trips (lost : ¬(w.confirmedAt (.suction g) .opened = true ∧ w.confirmedAt (.overboard g) .opened = true ∧
    w.confirmedAt (.tank n) .opened = true)) : let t := ((w.confirms (.tank k) .shut).valveConfirmed (.tank k)).settle false w
    t.trippedBy g .valveLost ∧
      (w.OrdersOk → ((w.afterConfirm (.tank k) .shut).afterTrip g .valveLost).answered t fun _ => True) := by
  have there := grouped_of_hasGroup ready records group
  have frame := afterConfirm_shut_frame own
  have there' := frame.grouped there
  have station := oldShut_station own closing there
  have line {x : ValveId} (counted : w.hasValve x = true) := frame.valved (valved_of_hasValve ready records counted)
  obtain ⟨-, queues, order⟩ := afterConfirm_shut_rest own
  dsimp only
  rw [oldShut_eq ready records group own owners closing active changes shut, if_neg lost]
  refine ⟨trippedBy_settle there' (line group) (line group) .valveLost, fun orders => ?_⟩
  have whole : ((w.afterConfirm (.tank k) .shut).trip g .valveLost).haltTest = (w.afterConfirm (.tank k) .shut).afterTrip g .valveLost := by
    have tanks : ((w.afterConfirm (.tank k) .shut).station g).tanks = [n] := by rw [station, Station.tanks, active]; rfl
    refine trip_eq_afterTrip there' (by rw [tanks]; exact List.nodup_singleton n) (fun j mem => ?_) .valveLost
    rw [tanks, List.mem_singleton] at mem
    rw [mem, State.confirmedAt, afterConfirm_shut_valve_ne own fun same => new_ne_old owners closing active (ValveId.tank.inj same)]
    exact owners.2.2.2 g n ((owners.2.1 g n).2 (.inl active))
  have running (h : Nat) : ((w.afterConfirm (.tank k) .shut).station h).active = (w.station h).active := by
    by_cases here : h = g
    · rw [here, station]
    · rw [afterConfirm_shut_others own here]
  have queuesOk : (w.afterConfirm (.tank k) .shut).QueuesOk := by
    unfold State.QueuesOk
    simp only [queues, order]
    exact orders.1
  have runnersOk : (w.afterConfirm (.tank k) .shut).RunnersOk := by
    unfold State.RunnersOk
    simp only [running, order]
    exact orders.2.1
  refine trip_answered (frame.ready.trans ready) whole ?_ fun h => cause_of_released (tankNumbers_of_hasTank tank) own ?_ h
  · exact (ranked_afterLocal (frame.ready.trans ready) (frame.recordsOk records) queuesOk runnersOk (afterLocal_frame _ g)).of_frames
      (afterLocal_frame _ g) (whole ▸ (trip_frame g _ _).trans (haltTest_frame _)) fun h => queue_afterTrip _ g _ h
  · rw [afterTrip_owner, afterConfirm_shut_valve own]

omit tank in
/-- The line is open and no test of the entry answers: the station is in DISCHARGE. -/
theorem oldShut_discharges {o : Order} (here : w.order n = some o) (open_ : w.confirmedAt (.suction g) .opened = true ∧
    w.confirmedAt (.overboard g) .opened = true ∧ w.confirmedAt (.tank n) .opened = true) (above : o.target < (w.tank n).current)
    (fresh : (w.tank n).status ≠ .stale) (calm : w.stressed w.engine.live n = false) (full : (w.tank n).strip ≠ .below) :
    (((w.confirms (.tank k) .shut).valveConfirmed (.tank k)).settle false w).station g = { w.station g with
      state := .discharge, pumpCommanded := .runFull, closing := [], deadline := none, estimator := ⟨none, 0⟩
      lowSince := if 0 < (w.station g).minRate then some w.clock else none } := by
  have there := grouped_of_hasGroup ready records group
  have frame := (afterConfirm_shut_frame own).trans (commandPump_frame g .runFull _)
  have there' := (afterConfirm_shut_frame own).grouped there
  have station : ((w.afterConfirm (.tank k) .shut).commandPump g .runFull).station g =
      { w.station g with closing := [], pumpCommanded := .runFull } := by
    rw [(commandPump_eq there' .runFull).1, oldShut_station own closing there]
  have order : ((w.afterConfirm (.tank k) .shut).commandPump g .runFull).order n = w.order n := by
    rw [State.order, (commandPump_orders g .runFull _).1]
    exact (afterConfirm_shut_rest own).2.2 n
  rw [oldShut_eq ready records group own owners closing active changes shut, if_pos open_]
  generalize (w.afterConfirm (.tank k) .shut).commandPump g .runFull = x at frame station order
  have rest := frame.rest
  have reads : x.tank n = w.tank n ∧ x.stressed x.engine.live n = w.stressed w.engine.live n ∧ x.clock = w.clock := by
    rw [rest]
    exact ⟨rfl, rfl, rfl⟩
  obtain ⟨same, stress, clock⟩ := reads
  rw [enterDischarge_of_calm (frame.grouped there) (by rw [station]; exact active) (order.trans here) (by rw [same]; exact above)
    (by rw [same]; exact fresh) (by rw [stress]; exact calm) (by rw [same]; exact full)]
  have own' : (x.discharging g).station g = (x.station g).discharges x.clock := station_updStation_self (frame.grouped there) _
  rw [(settle_station false w _ g).stays (.inl (by rw [own']; exact StationState.noConfusion)), own', station, clock]
  rfl

end OldShut

end Sys2Proof.Machine
end

