-- ==== Sys2Proof/Proofs/Confirmed.lean ====
section
/-! PROOFS. O58: the step of a report as commanded, whole, where orders, queues, stations and valves agree (spec 06 R94, R97, R103,
R104, R106, R108, R109). -/

namespace Sys2Proof.Machine

/-! ### The tests in words -/

theorem lineOpen_iff {s : State} {g : Nat} : s.lineOpen g = true ↔ s.confirmedAt (.suction g) .opened = true ∧
    s.confirmedAt (.overboard g) .opened = true ∧ ∃ k, (s.station g).active = some k ∧ s.confirmedAt (.tank k) .opened = true := by
  rw [State.lineOpen, Bool.and_eq_true, Bool.and_eq_true, Option.any_eq_true, and_assoc]

theorem lineShut_iff {s : State} {g : Nat} : s.lineShut g = true ↔
    ∀ v ∈ [ValveId.suction g, .overboard g] ++ (s.station g).closing.map .tank, s.confirmedAt v .shut = true := by
  simp [State.lineShut, and_assoc, or_imp, forall_and]

/-- A pump that runs is at RUN FULL once it is commanded so: FULL is sent where it ran REDUCED. -/
theorem commandPump_full_eq {s : State} {g : Nat} (pumps : (s.station g).pumpCommanded ≠ .stop) : s.commandPump g .runFull = { s with
    ballast := { s.ballast with stations := modify1 s.ballast.stations g ({ · with pumpCommanded := .runFull }) }
    field := { s.field with
      outbound := if (s.station g).pumpCommanded = .runReduced then placeIn (.pump g .full) s.field.outbound
        else s.field.outbound } } := by
  unfold State.commandPump
  split
  · rename_i full
    have same : modify1 s.ballast.stations g ({ · with pumpCommanded := .runFull }) = s.ballast.stations :=
      modify1_eq_self fun st read => by
        rw [State.station, read] at full
        rw [← show st.pumpCommanded = .runFull from full]
    rw [same, if_neg (by rw [full]; exact PumpCommand.noConfusion)]
  · rename_i other
    have reduced : (s.station g).pumpCommanded = .runReduced := by
      cases read : (s.station g).pumpCommanded with
      | stop => exact absurd read pumps
      | runFull => exact absurd read other
      | runReduced => rfl
    rw [if_pos reduced, State.sendPump, reduced]
    rfl

/-- A pump that is stopped is started. -/
theorem starts_eq {s : State} {g : Nat} (stopped : (s.station g).pumpCommanded = .stop) : s.starts g = { s with
    ballast := { s.ballast with stations := modify1 s.ballast.stations g fun st => { st with
      state := .priming, pumpCommanded := .runFull, deadline := some (later s.clock st.priming) } }
    field := { s.field with outbound := placeIn (.pump g .start) s.field.outbound } } := by
  have stations : modify1 (modify1 s.ballast.stations g ({ · with pumpCommanded := .runFull })) g (Station.primes s.clock) =
      modify1 s.ballast.stations g fun st => { st with
        state := .priming, pumpCommanded := .runFull, deadline := some (later s.clock st.priming) } := modify1_modify1 _ _ _ _
  rw [State.starts, State.commandPump, if_neg (by rw [stopped]; exact PumpCommand.noConfusion), State.sendPump, stopped, ← stations]
  rfl

section Confirmed

variable {w : State} {v : ValveId} {g : Nat} {p : ValveReported} (sound : w.Sound) (ready : w.ready = true)
  (group : w.hasGroup g = true) (valved : w.valved v) (own : w.stationOf v = some g) (as : p = (w.valve v).commanded.reported)

/-- The report is the SHUT of a tank valve. -/
def releases (v : ValveId) (p : ValveReported) : Prop := (∃ k, v = .tank k) ∧ p = .shut

theorem opened_iff_commanded {c : ValveCommand} : ValveReported.opened = c.reported ↔ c = .opened := by
  cases c <;> simp [ValveCommand.reported]

theorem shut_iff_commanded {c : ValveCommand} : ValveReported.shut = c.reported ↔ c = .shut := by
  cases c <;> simp [ValveCommand.reported]

theorem afterConfirm_of_not_releases (other : ¬releases v p) : w.afterConfirm v p = w.confirms v p :=
  afterConfirm_of_not_released fun k _ named _ shut => other ⟨⟨k, named⟩, shut⟩

include own in
theorem afterConfirm_frame : BallastFrame w (w.afterConfirm v p) := by
  by_cases released : releases v p
  · obtain ⟨⟨k, rfl⟩, rfl⟩ := released
    exact afterConfirm_shut_frame own
  · rw [afterConfirm_of_not_releases released]
    exact confirms_frame w v p

include own in
theorem afterConfirm_rest : (w.afterConfirm v p).ballast.state = w.ballast.state ∧
    ∀ h, (w.afterConfirm v p).queue h = w.queue h := by
  by_cases released : releases v p
  · obtain ⟨⟨k, rfl⟩, rfl⟩ := released
    obtain ⟨state, queues, -⟩ := afterConfirm_shut_rest own
    exact ⟨state, queues⟩
  · rw [afterConfirm_of_not_releases released]
    exact ⟨state_confirms w v p, queue_confirms w v p⟩

include own in
/-- The stations stand as they did, but for a closing tank of the valve's own. -/
theorem afterConfirm_station (there : w.grouped g) (h : Nat) :
    ∃ closing, (w.afterConfirm v p).station h = { w.station h with closing := closing } := by
  by_cases released : releases v p
  · obtain ⟨⟨k, rfl⟩, rfl⟩ := released
    by_cases here : h = g
    · rw [here]
      exact ⟨_, afterConfirm_shut_station own there⟩
    · exact ⟨_, afterConfirm_shut_others own here⟩
  · rw [afterConfirm_of_not_releases released]
    exact ⟨_, station_confirms w v p h⟩

include sound own as in
theorem afterConfirm_sound : (w.afterConfirm v p).Sound := by
  by_cases released : releases v p
  · obtain ⟨⟨k, rfl⟩, rfl⟩ := released
    rw [afterConfirm_shut own]
    exact sound.released own (shut_iff_commanded.1 as)
  · rw [afterConfirm_of_not_releases released]
    cases v with
    | tank k =>
      refine (updValve_sameWork (v := .tank k) (f := Valve.confirms p) w (fun _ => ⟨rfl, rfl⟩) fun _ shut => ?_).sound sound
      rw [shut] at as
      exact absurd ⟨⟨k, rfl⟩, as⟩ released
    | suction h | overboard h => exact (updValve_line_sameWork (by simp) _ w).sound sound

/-! ### What the station of the valve does -/

/-- From `u`, in which a report is recorded, to `y` the valve's station has answered, by what it waits for; the valves of a changeover
are left to rules of their own. -/
structure AnswersConfirm (w u y : State) (v : ValveId) (g : Nat) (p : ValveReported) : Prop where
  starts : (w.station g).state = .lineup → p = .opened → u.lineOpen g = true → y = u.starts g
  shuts : (w.station g).state = .stopping .closing → p = .shut → u.lineShut g = true → y = u.updStation g ({ · with state := .off })
  rests : ¬((w.station g).state = .lineup ∧ p = .opened ∧ u.lineOpen g = true) →
    ¬((w.station g).state = .stopping .closing ∧ p = .shut ∧ u.lineShut g = true) →
    ¬((w.station g).state = .changeover ∧ p = .opened ∧ ∃ n, (w.station g).active = some n ∧ v = .tank n) →
    ¬((w.station g).state = .changeover ∧ p = .shut ∧ ∃ k, (w.station g).closing = [k] ∧ v = .tank k) → y = u

omit as in
include sound in
/-- The SHUT of an owned tank valve. -/
theorem shut_answers {k : Nat} (there : w.grouped g) (own : (w.valve (.tank k)).owner = some g)
    (shut : (w.valve (.tank k)).commanded = .shut) : AnswersConfirm w (w.afterConfirm (.tank k) .shut)
      ((w.confirms (.tank k) .shut).valveConfirmed (.tank k)) (.tank k) g .shut := by
  have station := afterConfirm_shut_station own there
  have state : ((w.afterConfirm (.tank k) .shut).station g).state = (w.station g).state := by rw [station]
  rw [valveConfirmed_shut own shut]
  refine ⟨fun _ opened => ValveReported.noConfusion opened, fun closes _ shuts => ?_, fun _ notShut _ notOld => ?_⟩
  · rw [changeoverTest_of_ne (by rw [state, closes]; exact StationState.noConfusion)]
    exact if_pos ⟨state.trans closes, shuts⟩
  · have still : (w.afterConfirm (.tank k) .shut).changeoverTest g = w.afterConfirm (.tank k) .shut := by
      refine if_neg fun ⟨changes, emptied⟩ => notOld ⟨state.symm.trans changes, rfl, k, ?_, rfl⟩
      have held : k ∈ (w.station g).closing := by
        obtain runs | closes := mem_holdings.1 ((sound.owned.owner g k).1 own)
        · exact absurd (((sound.stands g).opened k runs).symm.trans shut) ValveCommand.noConfusion
        · exact closes
      have perm := List.perm_cons_erase held
      rw [station] at emptied
      rw [show (w.station g).closing.erase k = [] from emptied] at perm
      exact List.perm_singleton.1 perm
    rw [still]
    exact if_neg fun ⟨closes, shuts⟩ => notShut ⟨state.symm.trans closes, rfl, shuts⟩

section Line

variable (there : w.grouped g)
include own there

theorem confirms_starts (as : p = (w.valve v).commanded.reported) (lines : (w.station g).state = .lineup) (opened : p = .opened)
    (open_ : (w.confirms v p).lineOpen g = true) : (w.confirms v p).valveConfirmed v = (w.confirms v p).starts g := by
  rw [valveConfirmed_lineup own lines (opened_iff_commanded.1 (opened ▸ as)) there]
  exact lineupTest_of_open ((congrArg Station.state (station_confirms w v p g)).trans lines) open_

/-- The OPEN of an owned tank valve. -/
theorem opened_answers {k : Nat} (named : v = .tank k) (opened : (w.valve v).commanded = .opened) (as : p = .opened) :
    AnswersConfirm w (w.confirms v p) ((w.confirms v p).valveConfirmed v) v g p := by
  have state := congrArg Station.state (station_confirms w v p g)
  refine ⟨confirms_starts own there (by rw [as, opened]; rfl), fun _ shut => ValveReported.noConfusion (as.symm.trans shut),
    fun notOpen _ notNew _ => ?_⟩
  subst named
  rw [valveConfirmed_opened own opened, if_neg fun both => notNew ⟨both.1, as, k, both.2, rfl⟩]
  exact if_neg fun both => notOpen ⟨state.symm.trans both.1, as, both.2⟩

include valved in
/-- A line valve. -/
theorem line_answers (line : v ∈ [ValveId.suction g, .overboard g]) (as : p = (w.valve v).commanded.reported) :
    AnswersConfirm w (w.confirms v p) ((w.confirms v p).valveConfirmed v) v g p := by
  have state := congrArg Station.state (station_confirms w v p g)
  have mine {q : ValveCommand} (confirmed : (w.confirms v p).confirmedAt v q = true) : p = q.reported := by
    rw [as, (confirmedAt_confirms_self p valved).1 confirmed]
  refine ⟨confirms_starts own there as, fun closes _ shuts => ?_, fun notOpen notShut _ _ => ?_⟩
  · rw [valveConfirmed_line line, lineupTest_of_ne (by rw [state, closes]; exact StationState.noConfusion)]
    exact if_pos ⟨state.trans closes, shuts⟩
  · have still : (w.confirms v p).lineupTest g = w.confirms v p := by
      refine if_neg fun ⟨lines, open_⟩ => notOpen ⟨state.symm.trans lines, mine (q := .opened) ?_, open_⟩
      obtain ⟨suction, overboard, -⟩ := lineOpen_iff.1 open_
      simp only [List.mem_cons, List.not_mem_nil, or_false] at line
      obtain rfl | rfl := line
      · exact suction
      · exact overboard
    rw [valveConfirmed_line line, still]
    exact if_neg fun ⟨closes, shuts⟩ => notShut ⟨state.symm.trans closes,
      mine (q := .shut) (lineShut_iff.1 shuts v (List.mem_append_left _ line)), shuts⟩

end Line

include sound valved own as in
/-- The answers of the valve's station. -/
theorem confirmed_answers (there : w.grouped g) :
    AnswersConfirm w (w.afterConfirm v p) ((w.confirms v p).valveConfirmed v) v g p := by
  by_cases released : releases v p
  · obtain ⟨⟨k, rfl⟩, rfl⟩ := released
    exact shut_answers sound there own (shut_iff_commanded.1 as)
  · rw [afterConfirm_of_not_releases released]
    cases v with
    | tank k =>
      have opened : (w.valve (.tank k)).commanded = .opened := by
        cases command : (w.valve (.tank k)).commanded with
        | opened => rfl
        | shut => exact absurd ⟨⟨k, rfl⟩, by rw [as, command]; rfl⟩ released
      exact opened_answers own there rfl opened (by rw [as, opened]; rfl)
    | suction h =>
      obtain rfl : h = g := Option.some.inj own
      exact line_answers valved own there (by simp) as
    | overboard h =>
      obtain rfl : h = g := Option.some.inj own
      exact line_answers valved own there (by simp) as

end Confirmed

end Sys2Proof.Machine
end

