-- ==== Sys2Proof/Proofs/ValvesAnswered.lean ====
section
/-! PROOFS. O58: the end of the step of a report as commanded (spec 06 R103). -/

namespace Sys2Proof.Machine

section Confirmed

variable {w : State} {v : ValveId} {g : Nat} {p : ValveReported} (sound : w.Sound) (ready : w.ready = true)
  (group : w.hasGroup g = true) (own : w.stationOf v = some g) (as : p = (w.valve v).commanded.reported)

/-! ### Who is told -/

include sound own

/-- The stations told are all where a tank valve has been released, and otherwise the one that has entered OFF. -/
theorem cause_afterConfirm {z : State} (queues : ∀ h, z.queue h = w.queue h)
    (owners : ∀ j, (z.valve (.tank j)).owner = ((w.afterConfirm v p).valve (.tank j)).owner) (h : Nat) :
    z.cause w false h = true ↔ releases v p ∨ ((w.station h).state ≠ .off ∧ (z.station h).state = .off) := by
  by_cases released : releases v p
  · obtain ⟨⟨k, rfl⟩, rfl⟩ := id released
    have valved : 1 ≤ k ∧ k ≤ w.ballast.tankValves.length := valved_of_owned own
    rw [sound.founded.lengths.2.2.2.1] at valved
    exact iff_of_true (cause_of_released (mem_tankNumbers.2 valved) own (by rw [owners, afterConfirm_shut_valve own]) h) (.inl released)
  · rw [afterConfirm_of_not_releases released] at owners
    have still : joined w z h = false := by
      simp only [joined, List.any_eq_false, decide_eq_true_eq, not_not, queues]
      exact fun j => id
    have ended : ownershipEnded w z = false := by
      simp only [ownershipEnded, List.any_eq_false, Bool.and_eq_true, owners, owner_confirms]
      rintro j - ⟨owned, free⟩
      rw [Option.isNone_iff_eq_none.1 free] at owned
      exact Bool.noConfusion owned
    rw [State.cause, still, ended, Bool.false_or, Bool.false_or, Bool.false_or, enteredOff, decide_eq_true_iff]
    exact (or_iff_right released).symm

include ready in
/-- Where a report and its answer leave a state of agreement, the stations that they tell look. -/
theorem confirmed_answered {z : State} (agrees : z.Sound) (frame : BallastFrame w z) (queues : ∀ h, z.queue h = w.queue h)
    (owners : ∀ j, (z.valve (.tank j)).owner = ((w.afterConfirm v p).valve (.tank j)).owner) {told : Nat → Prop}
    (states : ∀ h, (z.station h).state = .off → (told h ↔ releases v p ∨ (w.station h).state ≠ .off)) :
    z.afterRest.answered (z.settle false w) told := by
  rw [← haltTest_eq_afterRest]
  refine settle_answered false (frame.ready.trans ready) (agrees.ranked.congr (haltTest_frame z) fun h => ?_) fun h _ may => ?_
  · rw [haltTest_eq_afterRest, afterRest_queue]
  · obtain ⟨-, off, -⟩ := mayLook_iff.1 may
    rw [haltTest_eq_afterRest] at off ⊢
    rw [cause_afterConfirm sound own (fun h => (afterRest_queue z h).trans (queues h)) (fun j => by rw [afterRest_valve, owners]) h,
      and_iff_left off]
    rw [afterRest_station] at off
    exact states h off

/-! ### The five outcomes -/

include as ready group

theorem rest_answered (same : (w.confirms v p).valveConfirmed v = w.afterConfirm v p) : (w.afterConfirm v p).afterRest.answered
    (((w.confirms v p).valveConfirmed v).settle false w) fun _ => releases v p := by
  have there := sound.founded.grouped (counted_of_hasGroup group).2
  rw [same]
  refine confirmed_answered sound ready own (afterConfirm_sound sound own as) (afterConfirm_frame own) (afterConfirm_rest own).2
    (fun _ => rfl) fun h off => ?_
  obtain ⟨closing, station⟩ := afterConfirm_station (p := p) own there h
  rw [station] at off
  exact (or_iff_left fun on => on off).symm

theorem lastShut_answered (closes : (w.station g).state = .stopping .closing) (off : ((w.confirms v p).valveConfirmed v) =
    (w.afterConfirm v p).updStation g ({ · with state := .off })) :
    ((w.afterConfirm v p).updStation g ({ · with state := .off })).afterRest.answered
      (((w.confirms v p).valveConfirmed v).settle false w) fun h => h = g ∨ releases v p := by
  have there := sound.founded.grouped (counted_of_hasGroup group).2
  have frame := afterConfirm_frame (p := p) own
  have agrees : ((w.confirms v p).valveConfirmed v).Sound := by
    have reported := sound.valveReport v p
    rwa [valveReport_confirmed as] at reported
  rw [off] at agrees ⊢
  refine confirmed_answered sound ready own agrees (frame.trans (updStation_frame g _ _)) (afterConfirm_rest own).2
    (fun j => by rw [valve_updStation]) fun h rests => ?_
  by_cases here : h = g
  · rw [here, closes]
    simp
  · obtain ⟨closing, station⟩ := afterConfirm_station (p := p) own there h
    rw [station_updStation_ne here, station] at rests
    exact (or_iff_right here).trans (or_iff_left fun on => on rests).symm

omit as ready in
theorem lastOpen_settled (opened : p = .opened) (starts : (w.confirms v p).valveConfirmed v = (w.afterConfirm v p).starts g) :
    ((w.confirms v p).valveConfirmed v).settle false w = (w.afterConfirm v p).starts g := by
  have counted := (counted_of_hasGroup group).2
  have there := sound.founded.grouped counted
  have frame := afterConfirm_frame (p := p) own
  have other : ¬releases v p := fun both => ValveReported.noConfusion (opened.symm.trans both.2)
  have frame' : BallastFrame (w.afterConfirm v p) ((w.afterConfirm v p).starts g) :=
    (commandPump_frame g _ _).trans (updStation_frame g _ _)
  have queue (h : Nat) : ((w.afterConfirm v p).starts g).queue h = w.queue h := by
    rw [State.queue, show ((w.afterConfirm v p).starts g).ballast.queues = _ from (commandPump_orders g .runFull _).2]
    exact (afterConfirm_rest own).2 h
  rw [starts]
  refine settle_of_working ((frame.trans frame').counted counted) (by rw [starts_station (frame.grouped there)]; rfl)
    (fun h _ j mem => queue h ▸ mem) (fun j h owned => ?_) fun h away => ?_
  · rw [starts_valve (frame.grouped there), afterConfirm_of_not_releases other, owner_confirms, owned]
    exact Option.some_ne_none h
  · obtain ⟨closing, station⟩ := afterConfirm_station (p := p) own there h
    rw [State.starts, station_updStation_ne away, (commandPump_eq (frame.grouped there) .runFull).2.1 h away, station]

end Confirmed

section Changeover

variable {w : State} {g k : Nat} (sound : w.Sound) (ready : w.ready = true) (records : w.RecordsOk)
  (group : w.hasGroup g = true) (own : (w.valve (.tank k)).owner = some g)
include sound group own

theorem newOpen_settled {p : ValveReported} (opened : p = .opened) (as : p = (w.valve (.tank k)).commanded.reported)
    (changes : (w.station g).state = .changeover) (active : (w.station g).active = some k) :
    ((w.confirms (.tank k) p).valveConfirmed (.tank k)).settle false w =
      (w.afterConfirm (.tank k) p).afterCommands false .shut ((w.station g).closing.map .tank) := by
  have counted := (counted_of_hasGroup group).2
  have other : ¬releases (.tank k) p := fun both => ValveReported.noConfusion (opened.symm.trans both.2)
  rw [afterConfirm_of_not_releases other, newOpen_eq sound.ordersOk.2.2.1 own (opened_iff_commanded.1 (opened ▸ as)) changes active]
  refine settle_of_working (g := g) ?_ ?_ (fun h _ j mem => mem) (fun j h owned => ?_) fun h _ => rfl
  · exact (confirms_frame w _ _).counted counted
  · show (w.station g).state.working = true
    rw [changes]
    rfl
  · rw [owner_afterCommands, owner_confirms, owned]
    exact Option.some_ne_none h

include ready records

theorem oldShut_enters (shut : (w.valve (.tank k)).commanded = .shut) (changes : (w.station g).state = .changeover)
    (closing : (w.station g).closing = [k]) (suction : (w.afterConfirm (.tank k) .shut).confirmedAt (.suction g) .opened = true)
    (overboard : (w.afterConfirm (.tank k) .shut).confirmedAt (.overboard g) .opened = true)
    (next : ∀ n, (w.station g).active = some n → (w.afterConfirm (.tank k) .shut).confirmedAt (.tank n) .opened = true) :
    ((w.afterConfirm (.tank k) .shut).commandPump g .runFull).enters
      (((w.confirms (.tank k) .shut).valveConfirmed (.tank k)).settle false w) g fun _ => True := by
  have there := grouped_of_hasGroup ready records group
  have owners := sound.ordersOk.2.2.1
  obtain ⟨n, active⟩ : ∃ n, (w.station g).active = some n :=
    Option.isSome_iff_exists.1 (by rw [(sound.stands g).manned, changes]; rfl)
  have same {x : ValveId} (ne : x ≠ .tank k) : (w.afterConfirm (.tank k) .shut).confirmedAt x .opened = w.confirmedAt x .opened := by
    rw [State.confirmedAt, afterConfirm_shut_valve_ne own ne]
    rfl
  have tank := next n active
  rw [same fun named => new_ne_old owners closing active (ValveId.tank.inj named)] at tank
  rw [same (by simp)] at suction overboard
  have frame := afterConfirm_shut_frame own
  have pump := commandPump_eq (frame.grouped there) .runFull
  have released := afterConfirm_sound (v := .tank k) (p := .shut) sound own (by rw [shut]; rfl)
  rw [oldShut_eq ready records group own owners closing active changes shut, if_pos ⟨suction, overboard, tank⟩]
  refine enterDischarge_enters ((commandPump_sameWork g .runFull _).sound released) (k := n) ?_
    ((frame.trans (commandPump_frame g _ _)).ready.trans ready) (by rw [pump.1]) fun h _ => ?_
  · rw [pump.1, oldShut_station own closing there]
    exact active
  · have valved : 1 ≤ k ∧ k ≤ w.ballast.tankValves.length := valved_of_owned own
    rw [sound.founded.lengths.2.2.2.1] at valved
    exact iff_of_true trivial (cause_of_released (mem_tankNumbers.2 valved) own (by rw [pump.2.2, afterConfirm_shut_valve own]) h)

end Changeover

end Sys2Proof.Machine
end

