-- ==== Sys2Proof/Proofs/ValveStatement.lean ====
section
/-! PROOFS. O58, the statement: reports of valves and travel timers (spec 06 R94 to R97, R99, R104, R106, R108 to R111). -/

namespace Sys2Proof.Machine

section Whole

variable {w : State} {v : ValveId} {g : Nat} {p : ValveReported} (sound : w.Sound) (stations : w.StationsOk) (ready : w.ready = true)
  (records : w.RecordsOk) (group : w.hasGroup g = true) (valved : w.valved v) (own : w.stationOf v = some g)
  (as : p = (w.valve v).commanded.reported)
include sound stations ready records group valved own as

/-- The answer of a lineup, in the words of the statement. -/
theorem lastOpen_whole (lines : (w.station g).state = .lineup) (opened : p = .opened) (open_ : (w.afterConfirm v p).lineOpen g = true) :
    let u := w.afterConfirm v p
    ((w.confirms v p).valveConfirmed v).settle false w = { u with
      ballast := { u.ballast with stations := modify1 u.ballast.stations g fun st => { st with
        state := .priming, pumpCommanded := .runFull, deadline := some (later w.clock st.priming) } }
      field := { u.field with outbound := placeIn (.pump g .start) u.field.outbound } } := by
  have there := grouped_of_hasGroup ready records group
  obtain ⟨closing, station⟩ := afterConfirm_station (p := p) own there g
  obtain ⟨-, admits⟩ := stations.here g
  simp only [Station.duty, lines] at admits
  have clock : (w.afterConfirm v p).clock = w.clock := by rw [(afterConfirm_frame own).rest]
  dsimp only
  rw [lastOpen_settled sound group own opened ((confirmed_answers sound valved own as there).starts lines opened open_),
    starts_eq (by rw [station]; exact of_decide_eq_true admits), clock]

omit as in
/-- The end of a changeover, in the words of the statement. -/
theorem oldShut_whole {k : Nat} (named : v = .tank k) (shut : p = .shut) (as : p = (w.valve v).commanded.reported)
    (changes : (w.station g).state = .changeover) (closing : (w.station g).closing = [k])
    (suction : (w.afterConfirm v p).confirmedAt (.suction g) .opened = true)
    (overboard : (w.afterConfirm v p).confirmedAt (.overboard g) .opened = true)
    (next : ∀ n, (w.station g).active = some n → (w.afterConfirm v p).confirmedAt (.tank n) .opened = true) :
    let u := w.afterConfirm v p
    State.enters { u with
      ballast := { u.ballast with stations := modify1 u.ballast.stations g ({ · with pumpCommanded := .runFull }) }
      field := { u.field with
        outbound := if (w.station g).pumpCommanded = .runReduced then placeIn (.pump g .full) u.field.outbound
          else u.field.outbound } }
      (((w.confirms v p).valveConfirmed v).settle false w) g fun _ => True := by
  subst named shut
  obtain ⟨emptied, station⟩ := afterConfirm_station (p := .shut) own (grouped_of_hasGroup ready records group) g
  have pump : ((w.afterConfirm (.tank k) .shut).station g).pumpCommanded = (w.station g).pumpCommanded := by rw [station]
  have entered := oldShut_enters sound ready records group own (shut_iff_commanded.1 as) changes closing suction overboard next
  rw [commandPump_full_eq (by rw [pump]; exact stations.pumps (.inr changes)), pump] at entered
  exact entered

end Whole

/-- Settles O58: reports as commanded, departures, timeouts, and reports that are recorded alone. -/
theorem valveReportsConfirmOrTrip : Obligations.ValveReportsConfirmOrTrip := by
  refine ⟨fun s key c up => ⟨fun ready => exec_valvePosition_unnamed up ready c,
    fun unready => congrArg Host.Outcome.next (takeField_unready up unready _ _)⟩, fun s v ready steady records there => ?_⟩
  have up := linkUp_of_ready ready steady
  have valved := valved_of_hasValve ready records there
  have run {key : Octet} {c : PositionReport} {p : ValveReported} (named : valveOfKey key.toNat = some v) (names : (c, p) ∈
      [(PositionReport.shut, ValveReported.shut), (.opened, .opened), (.moving, .moving), (.fault, .fault)]) :
      exec (.valvePosition key c) s = .next ((s.heardField.valveReport v p).settle false s.heardField) := by
    rw [reported_of_names names]
    exact exec_valvePosition_named up ready c named there
  have only (p : ValveReported) : s.heardField.onlyBallast ((s.heardField.valveReport v p).settle false s.heardField) :=
    ((valveReport_frame v p _).trans (settle_frame _ _ _)).onlyBallast
  refine ⟨fun key c p named names => ⟨fun as => ?_, fun other confirmed => ?_, fun other unconfirmed settled => ?_⟩,
    fun due unconfirmed => ?_, fun idle => exec_valveTravelTimeout_idle idle⟩
  · have as' := (reported_iff _).1 as
    have kept := only p
    have runs := run named names
    rw [valveReport_confirmed (w := s.heardField) as'] at runs kept
    refine ⟨_, runs, kept, fun free settled => ?_, fun g own group => ?_⟩
    · rw [valveConfirmed_free (w := s.heardField) free]
      exact settle_updValve (s := s.heardField) (f := Valve.confirms p) settled fun _ => rfl
    · have grouped := grouped_of_hasGroup ready records group
      refine ⟨fun k lined active mem opened others => ?_, fun k vk shut owners => ?_, fun closes shut mem others => ?_,
        fun n vn changes active opened owners k mem tank => ?_, fun stations orders => ?_,
        fun n k o vk shut changes closing active owners here => ?_⟩
      · obtain rfl : p = .opened := by rw [as', opened]; rfl
        exact lineup_answered (w := s.heardField) grouped valved own lined active mem opened others
      · obtain rfl : p = .shut := by rw [as', shut]; rfl
        subst vk
        exact shut_released (w := s.heardField) grouped owners own shut
      · exact closing_answered (w := s.heardField) grouped valved own closes shut mem
          (by rw [as', shut]; rfl) others
      · subst vn
        exact newOpen_answered (w := s.heardField) owners own opened changes active mem
      · have sound : s.heardField.Sound := sound_of_ordersOk (phase_of_ready ready) records stations orders
        have answers := confirmed_answers sound valved own as' grouped
        refine ⟨fun ⟨lines, opened, suction, overboard, k, active, tank⟩ => ?_, fun ⟨closes, shut, all⟩ => ?_,
          fun ⟨changes, opened, n, active, vn⟩ => ?_, fun ⟨changes, shut, k, closing, vk⟩ suction overboard next => ?_,
          fun notOpen notShut notNew notOld => ?_⟩
        · refine lastOpen_whole sound stations ready records group valved own as' lines opened (lineOpen_iff.2 ⟨suction, overboard, k, ?_, tank⟩)
          obtain ⟨closing, station⟩ := afterConfirm_station (p := p) (w := s.heardField) own grouped g
          rw [station]
          exact active
        · exact lastShut_answered sound ready group own as' closes (answers.shuts closes shut (lineShut_iff.2 all))
        · subst vn
          exact newOpen_settled sound group own opened as' changes active
        · exact oldShut_whole sound stations ready records group valved own vk shut as' changes closing suction overboard next
        · refine rest_answered sound ready group own as' (answers.rests (fun ⟨lines, opened, open_⟩ => notOpen ⟨lines, opened, ?_⟩)
            (fun ⟨closes, shut, shuts⟩ => notShut ⟨closes, shut, lineShut_iff.1 shuts⟩) notNew notOld)
          obtain ⟨suction, overboard, k, active, tank⟩ := lineOpen_iff.1 open_
          obtain ⟨closing, station⟩ := afterConfirm_station (p := p) (w := s.heardField) own grouped g
          rw [station] at active
          exact ⟨suction, overboard, k, active, tank⟩
      · obtain rfl : p = .shut := by rw [as', shut]; rfl
        subst vk
        refine ⟨fun lost => ?_, fun open_ above fresh calm full => ?_⟩
        · rw [← afterConfirm_shut_eq (w := s.heardField) grouped own closing]
          exact oldShut_trips (w := s.heardField) ready records group there own owners closing active changes shut lost
        · exact oldShut_discharges (w := s.heardField) ready records group own owners closing active changes shut here open_ above fresh calm full
  · have other' := fun as => other ((reported_iff _).2 as)
    have kept := only p
    have runs := run named names
    rw [valveReport_of_departure (w := s.heardField) other' confirmed] at runs kept
    obtain ⟨reported, lost⟩ := failsStation_heeds (w := s.heardField) (v := v)
      (f := ({ · with reported := p, confirmed := false })) .valveLost valved
    exact ⟨_, runs, kept, reported, lost rfl, failsStation_settled (w := s.heardField)
      (f := ({ · with reported := p, confirmed := false })) (fun _ => ⟨rfl, rfl⟩) ready records .valveLost fun _ => rfl⟩
  · have runs := run named names
    rw [valveReport_alone (w := s.heardField) (fun as => other ((reported_iff _).2 as)) unconfirmed] at runs
    exact runs.trans (congrArg Host.Outcome.next
      (settle_updValve (s := s.heardField) (f := ({ · with reported := p })) settled fun _ => rfl))
  · have runs := exec_valveTravelTimeout ready steady there due unconfirmed
    obtain ⟨reported, -⟩ := failsStation_heeds (w := s) (v := v) (f := ({ · with reported := .fault, deadline := none }))
      .valveTimeout valved
    exact ⟨_, runs, ((travelTimeout_frame v s).trans (settle_frame _ _ _)).onlyBallast, reported,
      failsStation_settled (f := ({ · with reported := .fault, deadline := none })) (fun _ => ⟨rfl, rfl⟩) ready records .valveTimeout id⟩

end Sys2Proof.Machine
end
